-- ==== Sys2Proof/Word.lean ====
section
/-! DEFINITION. The words of the block: bytes, FP32 bit patterns, tables by number. -/

namespace Sys2Proof

/-- A byte as it lies in a register block, a packet or a memory. -/
abbrev Byte := BitVec 8

/-- The 32 bits of an FP32 value (04 R100). -/
abbrev F32 := BitVec 32

/-- A sparse table by number; an absent entry reads as the default its reader gives. -/
abbrev Tab (β : Type) := List (Nat × β)

/-- One submission queue: the admin queue, or queue `q` of tenant `t` (11 R342). -/
inductive QId where
  | admin
  | tenant (t q : Nat)
  deriving DecidableEq, Repr

end Sys2Proof
end

