-- ==== Sys2Proof/Syntax.lean ====
section
/-! DEFINITION. The commands of the block, one constructor per row of spec/opcode_table.json, and their operands. -/

namespace Sys2Proof

/-- What an instruction writes of its own context (03 R72): lanes of a vector register, bytes of the scalar state or of the scratch area. -/
inductive CtxWrite where
  | reg (r : Nat) (lanes : List Nat)
  | scalar (off : Nat) (bytes : List Byte)
  | scratch (off : Nat) (bytes : List Byte)
  deriving DecidableEq, Repr

/-- A remote operation that a context issues, at a 48-bit global address (10 R305, R307). -/
inductive RemoteOp where
  | store (addr : Nat) (bytes : List Byte)
  | flag (addr value : Nat)
  /-- ATOMIC: SUB, operand, and the new value of a CMPXCHG. -/
  | atomic (sub addr operand new : Nat)
  deriving DecidableEq, Repr

/-- Where a read element lies (03 R69): at a 48-bit global address of another node, or in an object of the tenant on this node's stacks or flash. -/
inductive ReadAddr where
  | remote (addr : Nat)
  | object (num off : Nat)
  deriving DecidableEq, Repr

/-- One element of a read: its bytes, its address, and the place in the context's scratch area that takes its data (03 R69, R70). -/
structure ReadElem where
  bytes : Nat
  addr : ReadAddr
  dst : Nat
  deriving DecidableEq, Repr

/-- What one issued instruction of a context does to the context (03 R66 to R71). The program is private to the compiler (02 R36), so the command says which kind of instruction the picked context holds. -/
inductive SqOp where
  /-- Computes on the context's own state, writes what it says of it, and stays READY. -/
  | compute (writes : List CtxWrite)
  /-- Issues read `r` of the ply (0 to 3) on output stream `stream`. `last` marks the last read of the ply. -/
  | read (r stream : Nat) (elems : List ReadElem) (last : Bool)
  /-- Waits for a payload on input stream `stream`, which goes to the scratch area at `dst`. -/
  | waitStream (stream dst : Nat)
  /-- Puts the bytes ready on output stream `stream`. -/
  | send (stream : Nat) (data : List Byte)
  /-- SORT64 of register `r`, MERGE128 of registers `a` and `b` (06 R166). -/
  | sort (r : Nat)
  | merge (a b : Nat)
  /-- A remote store, flag or atomic of the ply, in fetch slot `slot` (10 R304, R307); the old value that an atomic returns goes to the scratch area at `dst`; `last` as for a read. -/
  | remote (slot : Nat) (op : RemoteOp) (dst : Nat) (last : Bool)
  /-- An instruction that reads an SRAM row in which the check finds an error (13 R406, R407): corrected, or uncorrectable. -/
  | sramError (uncorrectable : Bool) (row : Nat)
  /-- The context's program ends. -/
  | finish
  deriving DecidableEq, Repr

/-- What the unit meets that reads an element's bytes (03 R70): nothing, or a fault of the medium that this read finds. -/
inductive ElemResult where
  | data
  /-- The end-to-end check of a 64-byte burst fails, at this channel, block and burst (08 R233). -/
  | stackCheck (channel block burst : Nat)
  /-- On-die correction reports an uncorrectable error in a row (08 R233). -/
  | stackUncorrectable (channel block : Nat)
  /-- On-die correction corrected an error; the data is right (13 R407). -/
  | stackCorrected (channel block : Nat)
  /-- A codeword of a page that no read-level set decodes: channel, page key, codeword (05 R145; 09 R270). -/
  | media (channel page cw : Nat)
  deriving DecidableEq, Repr

/-- What a Position's program area says, as `bremetc` wrote it (02 R36, 03 R74, R75, 05 R152, 06 R183): the format is private, so its meaning is an operand. -/
structure SquareProg where
  serve : Nat                 -- serving slots among CTX
  progBytes : Nat             -- bytes of area 1
  scanStream : Option Nat     -- the scan stream of the Square
  deriving DecidableEq, Repr

/-- Which Squares scan a partition and over which slots (05 R152). -/
structure ScanRange where
  part : Nat
  square : Nat
  first : Nat
  count : Nat
  deriving DecidableEq, Repr

structure ProgInfo where
  squares : List SquareProg            -- by logical index
  serveOf : List (Nat × List Nat)      -- partition to assigned Squares; absent: every Square
  scans : List ScanRange               -- scan Squares of partitions; absent: Square 0 over all slots
  keyRows : List (Nat × Nat)           -- rows of a key set per Square: (Square, row count), in order
  unitsOk : Bool                       -- the program names only the Position's own units (02 R36)
  deriving DecidableEq, Repr

/-- One candidate handed to a channel engine: slot or side-list ring record, and the key it carries (05 R143). -/
structure RerankItem where
  slot : Nat
  vindex : Nat
  userKey : Nat
  side : Bool
  version : Nat
  deriving DecidableEq, Repr

structure RerankReq where
  tenant : Nat
  index : Nat
  partition : Nat
  epoch : Nat
  depthK : Nat
  query : List F32
  preds : List (Nat × Nat × Nat)       -- WORD, OP, OPERAND
  items : List RerankItem
  deriving DecidableEq, Repr

/-- How a codeword read went (09 R270, R271): the retry set that decodes (0: none needed), or none, and then whether the rebuild's contributions can be read. -/
inductive CwOutcome where
  | decoded (set : Nat)
  | rebuilt
  | lost
  deriving DecidableEq, Repr

/-- Parameter page of a channel's dies as the carrier presents them (09 R255). -/
structure DieGeom where
  planes : Nat
  blocks : Nat
  pages : Nat
  peRated : Nat
  spareBytes : Nat
  suspend : Bool                       -- program suspend and erase suspend
  nvlp : Bool := true                  -- ONFI NV-LPDDR4, 8 bits, 3,600 MT/s
  pageData : Nat := 16384              -- data bytes of a page
  planeReads : Bool := true            -- independent reads on each plane
  onePass : Bool := true               -- one pass per word line
  levels : Bool := true                -- read levels settable by SET FEATURES
  deriving DecidableEq, Repr

structure CarrierCh where
  dies : Nat
  spare : Bool
  geom : DieGeom
  deriving DecidableEq, Repr

/-- A flit as it reaches the receive port (10 R297); `bad` when the FEC decoder discarded it or the CRC fails. -/
structure Flit where
  seq : Nat
  kind : Nat
  ack : Nat
  creditOwner : Nat
  creditStream : Nat
  credits : Nat
  payload : List Byte
  crc : Nat
  fecBad : Bool
  fecCorrected : Nat
  deriving DecidableEq, Repr

/-- A packet header (10 R306) with the data that follows it. -/
structure Packet where
  op : Nat
  sub : Nat
  tenant : Nat
  src : Nat
  dst : Nat
  len : Nat
  addr : Nat
  tag : Nat
  seq : Nat
  operand : Nat
  data : List Byte
  deriving DecidableEq, Repr

/-- A MESSAGE envelope (10 R315) with its body. -/
structure Message where
  kind : Nat
  tenant : Nat
  srcDomain : Nat
  srcNode : Nat
  dstNode : Nat
  dstDomain : Nat
  msgId : Nat
  tag : Nat                         -- TAG of its packets
  epoch : Nat
  partition : Nat
  index : Nat
  body : List Byte
  deriving DecidableEq, Repr

/-- The answer of a peer to a charge for a T2 object (08 R226 check 5): the global offset it assigns, a refusal, or none in time. -/
inductive PeerAnswer where
  | granted (offset : Nat)
  | refused
  | silent
  deriving DecidableEq, Repr

/-- BD_BASE_CMD.LOAD as function `fn` writes it (02 R486), and whether the host answers every read of the image. -/
structure ImageRead where
  fn : Nat
  readOk : Bool
  deriving DecidableEq, Repr

/-- Where a PLACE acts (08 R228): on the node of its descriptor, with the peer's answer for a T2 object; or its part at the peer, which creates the T2 object of `size` bytes at the offset `off` that it assigns, or frees it (10 R305). -/
inductive PlaceSide where
  | own (peer : PeerAnswer)
  | create (tenant node num size : Nat) (raw : Bool) (off : Nat)
  | free (tenant node num : Nat)
  deriving DecidableEq, Repr

/-- Who sends a TEARDOWN (10 R324). -/
inductive TeardownSource where
  | admin (seq : Nat)
  | manager (tag tenant : Nat)
  deriving DecidableEq, Repr

/-- What starts a node function reset (14 R440). -/
inductive ResetCause where
  | register (fn : Nat) (value : BitVec 32)
  | physicalFlr
  | sideband
  deriving DecidableEq, Repr

/-- A temperature sensor: one of the module's 24 (13 R427), or that of a flash die, by channel and chip enable (09 R284). -/
inductive SensorId where
  | module (n : Nat)
  | die (ch chip : Nat)
  deriving DecidableEq, Repr

/-- A group and its members (10 R327). -/
structure GroupCfg where
  group : Nat
  gsize : Nat
  pos : Nat
  lost : BitVec 64
  members : List Nat
  deriving DecidableEq, Repr

/-- How a host read ended (11 R344). -/
inductive HostReadStatus where
  | success | unsupportedRequest | completerAbort | poisoned
  deriving DecidableEq, Repr

/-- The commands. Operands named `q seq` name an accepted descriptor by its queue and SEQ; `fn` is the requester function (0 physical, n virtual n). -/
inductive Instr where
  | apertureWrite (vf : Option Nat) (off : Nat) (data : List Byte)
  | descriptorPlace (t : Nat)
  | servingContextPlace (work : Nat)
  | completionRecordWrite (q : QId)
  | completionHeadWrite (fn : Nat) (q : QId) (head : BitVec 16)
  | queueEnable (fn : Nat) (q : QId) (cfg : BitVec 32)
  | queueDisable (fn : Nat) (q : QId) (cfg : BitVec 32)
  | meterEnable (fn t : Nat) (egress : Bool) (cfg : BitVec 32)
  | moveBoundary
  | slotTransfer (kind path slot : Nat)
  | squareCycle (sq : Nat) (op : SqOp)
  | sort64 (sq ctx r : Nat)
  | merge128 (sq ctx a b : Nat)
  | readElementReturn (sq ctx read elem : Nat) (res : ElemResult)
  | rankClockStop (r : Nat)
  | rankClockStart (r : Nat)
  | search (q : QId) (seq : Nat)
  | searchScan (q : QId) (seq : Nat)
  | topkDot (q : QId) (seq : Nat)
  | rerank (ch : Nat) (req : RerankReq)
  | insert (q : QId) (seq : Nat)
  | delete (q : QId) (seq : Nat)
  | consolidate (q : QId) (seq : Nat)
  | mutationCommit (q : QId) (seq : Nat)
  | consolidationStep (q : QId) (seq : Nat)
  | beforeImageRetire (t index part : Nat)
  | journalWriteApply (t index : Nat)
  | tileRead (q : QId) (seq : Nat)
  | tileWrite (q : QId) (seq : Nat)
  | place (q : QId) (seq : Nat) (side : PlaceSide)     -- the descriptor on its own node, and where this part of it acts
  | objRead (q : QId) (seq : Nat)
  | objWrite (q : QId) (seq : Nat)
  | discard (q : QId) (seq : Nat)
  | bankOp (q : QId) (seq : Nat)
  | tokenize (q : QId) (seq : Nat)
  | detokenize (q : QId) (seq : Nat)
  | maskLookup (q : QId) (seq : Nat)
  | abort (q : QId) (seq : Nat)
  | fence (q : QId) (seq : Nat)
  | nop (q : QId) (seq : Nat)
  | admitPosition (seq : Nat) (prog : ProgInfo)
  | recompositionStart
  | stagingEnd
  | recompositionActivate
  | retirePosition (seq : Nat)
  | retirementBoundary
  | promote (seq : Nat)
  | castlingFreeze
  | castlingCopyEnd
  | castlingSwitch
  | sramRowSwitch
  | stackRowSwitch
  | dieMigrationEnd (ch : Nat)
  | tenantReset (seq : Nat)
  | tenantResetEnd (t : Nat)
  | teardown (src : TeardownSource)
  | teardownDone (t : Nat)
  | setCal (seq : Nat)
  | loadFirmware (seq : Nat) (storeOk : Bool)
  | baseLoad (w : ImageRead)
  | baseUnload (fn : Nat)
  | baseLayerActivate
  | baseLayerDeactivate
  | rankPowerRequest (fn : Nat) (value : BitVec 32)
  | rankPowerBoundary
  | format (fn : Nat) (value : BitVec 32)
  | formatEnd (bad : List (Nat × Nat × Nat))
  | checkpointForce (fn : Nat)
  | checkpoint (ch : Nat)
  | stripeCloseTimer (g d : Nat)
  | programFail (ch die page : Nat)
  | eraseFail (ch die block : Nat)
  | dieReadyTimeout (ch die : Nat)
  | codewordRead (ch die page cw : Nat) (res : CwOutcome)
  | retryWindowEnd (ch die : Nat)
  | garbageCollection (g d : Nat)
  | flashRecovery
  | flashRecoveryEnd (ms : Nat)
  | guardEnable (fn : Nat) (peersAgree : Bool)
  | guardDisable (fn : Nat)
  | guardResync (fn : Nat)
  | guardRebuild (fn : Nat)
  | guardCommandEnd (set tenant : Nat) (rebuild : Bool)     -- the set, and whose command of which kind ends
  | vocabBind (fn : Nat)
  | vocabUnbind (fn : Nat)
  | grammarBind (fn : Nat)
  | grammarUnbind (fn : Nat)
  | bindComplete (vocab : Bool) (n : Nat)
  | unbindComplete (vocab : Bool) (n : Nat)
  | clearCounters (fn : Nat)
  | clearLog (fn : Nat)
  | eventLogHeadWrite (fn : Nat) (head : BitVec 32)
  | barUnimpl (fn off bytes : Nat) (write : Bool)
  | bar4Access (off bytes : Nat) (write : Option (List Byte))
  | registerWrite (fn off bytes : Nat) (value : BitVec 64)
  | sleep (fn : Nat) (value : BitVec 32)
  | quiesceEnd
  | wake (fn : Nat) (value : BitVec 32)
  | pmeTurnOff
  | nodeFunctionReset (cause : ResetCause)
  | functionLevelReset (vf : Nat)
  | recoveryLoad (fn : Nat) (storeOk : Bool)
  | watchdogExpiry
  | powerOnReset (straps : Nat)
  | powerLoss
  | perstNAssert (ns : Nat)
  | perstNDeassert (ns : Nat)
  | sensorReading (sensor : SensorId) (eighths : Int)
  | overcurrent (deciAmps micros : Nat)
  | hostLinkDown
  | hostLinkUp
  | hostReadCompletion (q : QId) (seq : Nat) (addr : Nat) (data : List Byte) (status : HostReadStatus)
  | vccqSenseChange (conn : Nat) (carrier : Option (List CarrierCh))
  | tempoRefChange (valid : Bool)
  | syncFlit (link : Nat) (count : Nat)
  | linkUp (link port delay : Nat)
  | linkTrainingTimeout (link : Nat)
  | flitReceive (link : Nat) (flit : Flit)
  | retryRequest (link seq : Nat)
  | linkRetryLimit (link : Nat)
  | setNode (tag node domain : Nat) (standin : Bool)
  | setGroup (tag : Nat) (cfg : GroupCfg)
  | linkCtrlEnable (tag link : Nat)
  | linkCtrlDisable (tag link : Nat)
  | linkCtrlRetrain (tag link : Nat)
  | setPaths (tag node : Nat) (mask : BitVec 24)
  | tempoSource (tag link : Nat)
  | tempoSet (tag : Nat) (link count : Nat)
  | adopt (tag node : Nat) (cfg : GroupCfg)
  | query (tag : Nat)
  | load (link : Nat) (p : Packet)
  | store (link : Nat) (p : Packet)
  | storeFlag (link : Nat) (p : Packet)
  | storeFlagSend (tenant tag : Nat)
  | atomic (link : Nat) (p : Packet)
  | gread (link : Nat) (p : Packet)
  | data (link : Nat) (p : Packet)
  | ack (link : Nat) (p : Packet)
  | nack (link : Nat) (p : Packet)
  | queryMessage (link : Nat) (m : Message)
  | listMessage (link : Nat) (m : Message)
  | journalMessage (link : Nat) (m : Message)
  | journalAck (link : Nat) (m : Message)
  | guardDelta (link : Nat) (m : Message)
  | scanSlice (link : Nat) (m : Message)
  | rerankMessage (link : Nat) (m : Message)
  | remoteTimeout (tag : Nat)
  | sidebandWrite (off : Nat) (bytes : List Byte)
  | sidebandVerify
  | readReg (off : Nat)
  | sidebandReset
  | sidebandWake
  | setdasa (addr : Nat)
  | entdaa (addr : Nat)
  | getVersion (pcie : Bool)
  | getCapabilities (pcie : Bool)
  | negotiateAlgorithms (pcie : Bool) (asym hash : Nat)
  | getDigests (pcie : Bool)
  | getCertificate (pcie : Bool) (slot off len : Nat)
  | challenge (pcie : Bool) (slot : Nat) (nonce : List Byte)
  | getMeasurements (pcie : Bool) (index : Nat) (sign : Bool) (nonce : List Byte)
  | unsupportedRequest (pcie : Bool) (code : Nat)
  | pcieErr (uncorrectable : Bool) (aer : BitVec 32)
  | resizableBar (sizeLog2 : Nat)
  deriving DecidableEq, Repr

end Sys2Proof
end

