-- ==== Sys2Proof/Config.lean ====
section
/-! DEFINITION. What an implementation fixes and the spec leaves open: constants without a body, so no proof sees a value (free values, DESIGN CHOICE). Each names its log entry. -/

namespace Sys2Proof.Config

/-- Which of two tied entries comes first or stays: an unspecified choice, one function of the image, the epoch and the entries (00, 01 R20). Log entry 4. -/
opaque tieFirst (image epoch a b : Nat) : Bool

/-- The bits of exp32 away from the points that R176 fixes. Log entry 5. -/
opaque exp32 (x : F32) : F32

/-- The bits of a NaN that a statistics sum holds (04 R122 states no payload). Log entry 6. -/
opaque statNaN (sum : Nat) : F32

/-- The base layer's own stack use in bytes, fixed by the firmware version (02 R45). Log entry 7. -/
opaque baseStack (fwVersion : Nat) : Nat

/-- A factory calibration value by ITEM, SUB and INDEX (13 R425). Log entry 8. -/
opaque calFactory (item sub idx : Nat) : Int

/-- Whether that value comes from the verified factory record; false for fuses (13 R431). Log entry 8. -/
opaque calFromRecord (item sub idx : Nat) : Bool

/-- The built-in nominal value that replaces it when the record fails (13 R425). Log entry 8. -/
opaque calNominal (item sub idx : Nat) : Int

/-- The module's factory record: whether it verifies, its serial number and version, and whether the fuses pass parity (13 R431). Log entry 8. -/
opaque factoryRecordOk : Bool
opaque fusesOk : Bool
opaque serial : Nat
opaque recordVersion : Nat

/-- Digest of the firmware key in the fuses (14 R447). Log entry 9. -/
opaque fwKeyDigest : Nat

/-- VERSION, SVN and 512-bit digest of the image the module is shipped with (14 R446). Log entry 9. -/
opaque factoryFwVersion : Nat
opaque factoryFwSvn : Nat
opaque factoryFwDigest : Nat

/-- A freshly drawn 64-bit FMT_ID (09 R259). Log entry 10. -/
opaque fmtId (draw : Nat) : Nat

/-- The alias key's certificate chain bytes and a signature by the alias key over a message (14 R455). Log entry 11. -/
opaque certChain (fwDigest : Nat) (recovery : Bool) : List Byte
opaque sign (fwDigest : Nat) (message : List Byte) : List Byte

/-- Values of measurement blocks 1, 3 and 4, which rest on the module's ROM, record and fuses (14 R456). Log entry 11. -/
opaque measurement (index minSvn : Nat) : List Byte

/-- The fields of SPDM responses that the spec does not give (14 R455): versions, flags, nonces. Log entry 11. -/
opaque spdmBody (request draw : Nat) : List Byte

/-- The next scale of a group whose sum of squares is NaN, for which 04 R124 states no value. Log entry 6. -/
opaque freeScale (draw : Nat) : BitVec 16

/-- A byte of SRAM or a scratch register whose content the spec does not fix. Log entry 3. -/
opaque freeByte (draw : Nat) : Byte

/-- Bytes of the request payload that a read of this many elements puts on its stream (03 R71). Log entry 14. -/
opaque requestBytes (elems : Nat) : Nat

/-- The cause word of EW_DIE_DEGRADED, for which 09 R284 gives no code: blocks retired, or no ready status. Log entry 15. -/
opaque degradeCause (notReady : Bool) : Nat

/-- Which number the input-current monitor bears as a sensor or monitor unit (13 R409). Log entry 15. -/
opaque currentMonitor : Nat

/-- The completion status word of HOST_FAULT for an Unsupported Request, a Completer Abort and poisoned data (13 R410). Log entry 15. -/
opaque hostStatus (kind : Nat) : Nat

/-- The 64-byte measurement value that stands for a DIGEST of 32 bytes (14 R456, 02 R26). Log entry 11. -/
opaque digestValue (digest : Nat) : List Byte

/-- The VERSION of a list entry that a slice holder makes from a replica record, which holds no epoch (06 R169, 05 R157): by index, partition, REPLICA_EPOCH and slot. Log entry 82. -/
opaque replicaVersion (index part replEpoch slot : Nat) : BitVec 64

end Sys2Proof.Config
end

