-- ==== Sys2Proof/Machine/State.lean ====
section
/-! DEFINITION. The state of the node: every register, table, queue, buffer and pin the spec names, as plain data. Field defaults are the reset values. -/

namespace Sys2Proof.Machine

open Sys2Proof

/-- Bytes by address, in one canonical form: addresses rising, no entry 0 (an unlisted byte reads 0; 08 R223). -/
abbrev Mem := List Host.Cell

/-- What stops the machine: nothing does. Every command of the table has an effect that the spec gives, or none (log entry 56). -/
inductive Fault where
  deriving DecidableEq, Repr

/-- Why a command has no meaning. -/
inductive Refusal where
  /-- The command has no meaning in the model yet; raised by Dispatch only. Safe. -/
  | notModelled (mnemonic : String)
  deriving DecidableEq, Repr

/-! ### Things that leave the node -/

/-- What the node sends. The list of them is the model's record of its outputs, oldest first. -/
inductive Out where
  /-- MSI-X message of a function (11 R358, 13 R412). -/
  | msix (fn vector : Nat)
  /-- CONTROL report to the fabric manager: event code and its words (10 R328). -/
  | report (code : Nat) (words : List Nat)
  /-- Answer to a fabric-manager command: TAG and status (10 R327). -/
  | answer (tag status : Nat)
  /-- Answer to a QUERY: per link state, partner port and delay (10 R328). -/
  | queryReply (links : List (Nat × Nat × Nat))
  /-- A packet or a MESSAGE whose last byte has left on a link (10 R306, R315). -/
  | packet (link : Nat) (p : Packet)
  | message (link : Nat) (m : Message)
  /-- A flit on a link (10 R297): data, idle with a credit, a replayed one, or a retry request. -/
  | flit (link : Nat) (f : Flit)
  /-- Payload moved in a slot (02 R38): path kind, path, slot, owner, stream, bytes. -/
  | slot (kind path slot owner stream bytes : Nat)
  /-- Data of a host read of BAR0 or BAR4 (00 R7, 08 R242). -/
  | barData (bytes : List Byte)
  /-- Sideband response bytes (14 R454). -/
  | sideband (bytes : List Byte)
  /-- SPDM response: transport (true: PCIe), response code, bytes (14 R455). -/
  | spdm (pcie : Bool) (code : Nat) (bytes : List Byte)
  /-- PME_TO_Ack (14 R459). -/
  | pmeToAck
  /-- A pin driven: 0 ALERT_n, 1 WAKE_n; true when asserted. -/
  | pin (n : Nat) (asserted : Bool)
  deriving DecidableEq, Repr

/-! ### Power, management core, sideband -/

structure PwSt where
  powered : Bool := true           -- input above 45 V (14 R434)
  perst : Bool := true             -- PERST_n asserted (15 R476: pull-down)
  pstate : Nat := 0                -- PW_STATE.STATE (14 R435)
  sleepFail : Bool := false
  err : Nat := 0
  voltage : Nat := 0
  current : Nat := 0
  power : Nat := 0
  energy : Nat := 0
  rankReq : BitVec 16 := 0
  stacksOn : BitVec 8 := 0
  linksOn : Bool := false
  flashOn : Bool := false
  bridgeOn : Bool := false
  queueOn : Bool := false
  tokenOn : Bool := false
  hostUp : Bool := false           -- host link (15 R469)
  wakeN : Bool := false            -- asserted
  alertN : Bool := false           -- asserted
  straps : Nat := 3                -- SB_ADDR (15 R478)
  dynAddr : Option Nat := none
  spdmPcie : Nat := 0              -- 0 none, 1 after GET_VERSION, 2 after GET_CAPABILITIES, 3 negotiated
  spdmMctp : Nat := 0
  rankAsked : Bool := false        -- PW_RANK_REQ was written since the last boundary (14 R438)
  tripCause : Nat := 0             -- TRIPPED: 1 thermal trip, 2 over-current (13 R416)
  tripPerst : Bool := false        -- a PERST_n reset has been asked for since the trip
  sleepFmt : List (Nat × Nat × Bool × DieGeom × Nat) := []   -- channel, dies, spare, geometry, FMT_ID at sleep (15 R475)
  deriving DecidableEq, Repr

/-- The firmware store: the image of the factory, or bytes written since (14 R446). -/
inductive FwStore where
  | factory
  | bytes (m : Mem) (len : Nat)
  deriving DecidableEq, Repr

/-- The node management core: boot, firmware store and recovery (14 R446 to R453, R463). -/
structure NmcSt where
  ready : Bool := false
  recovery : Bool := false
  bootCause : Nat := 0
  recovCause : Nat := 0
  fwVersion : Nat := 0
  fwStored : Nat := 0
  fwDigest : Option Nat := none    -- D of the running image (14 R447)
  imageSvn : Nat := 0
  minSvn : Nat := 0
  raisesLeft : Nat := 63
  restarts : Nat := 0
  recovAddr : Nat := 0             -- bits [63:12]
  recovLen : Nat := 0
  recovDone : Bool := false
  recovFail : Bool := false
  recovErr : Nat := 0
  store : FwStore := .factory
  deriving DecidableEq, Repr

/-! ### Errors, events, calibration, spares -/

/-- A record of the event log (13 R409). -/
structure EvRec where
  seq : Nat := 0
  code : Nat := 0
  cls : Nat := 0
  tenant : Nat := 0
  time : Nat := 0
  unit : Nat := 0
  d0 : Nat := 0
  d1 : Nat := 0
  d2 : Nat := 0
  deriving DecidableEq, Repr

/-- Counts of one unit (13 R429). -/
structure UnitCnt where
  corrected : Nat := 0
  uncorrected : Nat := 0
  location : Nat := 0
  time : Nat := 0
  deriving DecidableEq, Repr

/-- An error that is logged once a move (13 R410): code, unit, count and last location. -/
structure MoveCnt where
  code : Nat
  unit : Nat
  count : Nat
  word1 : Nat
  word2 : Nat
  deriving DecidableEq, Repr

structure Sensor where
  raw : Int := 0
  effective : Int := 0
  valid : Bool := false
  warned : Bool := false
  deriving DecidableEq, Repr

structure ErSt where
  irqEn : Bool := false
  vector : Nat := 0
  alertAll : Bool := false
  head : Nat := 0
  tail : Nat := 0
  nextSeq : Nat := 0
  lost : Nat := 0
  thermalTrip : Bool := false
  overcurrent : Bool := false
  retired : Bool := false
  tripSensor : Nat := 0
  warnC : Nat := 95
  unitSel : Nat := 0
  units : Tab UnitCnt := []
  cnt : Tab Nat := []
  log : Tab EvRec := []
  moveCnts : List MoveCnt := []
  sensors : Tab Sensor := []
  deriving DecidableEq, Repr

/-- One calibrated item's user part (13 R426); `active` is the effective value in force. -/
structure CalItem where
  offset : Int := 0
  pending : Bool := false
  deriving DecidableEq, Repr

structure CalSt where
  selItem : Nat := 0
  selSub : Nat := 0
  selIdx : Nat := 0
  recordOk : Bool := false         -- CAL_STATUS.RECORD_OK, read at power-on
  items : Tab CalItem := []        -- by ITEM * 2^24 + SUB * 2^16 + INDEX
  deriving DecidableEq, Repr

/-- A PROMOTE of a row that runs (13 R422, R423). -/
structure RowJob where
  seq : Nat
  square : Bool                    -- SRAM_ROW; else STACK_ROW
  target0 : Nat
  target1 : Nat
  switched : Bool := false         -- STACK_ROW: the repair table has switched; the repair is not yet recorded
  deriving DecidableEq, Repr

structure SpareSt where
  sramRows : List (Nat × Nat × Nat) := []    -- Square, macro, row served by a spare row (13 R422)
  lanes : List (Nat × Nat) := []             -- link, lane replaced (10 R300, 13 R424)
  stackRows : List (Nat × Nat) := []         -- stack channel, block repaired for good (13 R423)
  unrecorded : List (Nat × Nat) := []        -- switched, not yet recorded
  jobs : List RowJob := []
  deriving DecidableEq, Repr

/-! ### Board images and Positions -/

/-- A slot run (02 R33). -/
structure Run where
  first : Nat
  countM1 : Nat
  owner : Nat
  kind : Nat
  path : Nat
  stream : Nat
  deriving DecidableEq, Repr

/-- A stream table entry (02 R35). -/
structure Stream where
  source : Nat
  dest : Nat
  depth : Nat
  cls : Nat
  deriving DecidableEq, Repr

/-- A loaded base layer (02 R25 to R28). -/
structure BaseLayer where
  baseId : Nat
  linkSched : Nat
  compiler : Nat
  digest : Nat
  stackSeed : Nat
  pathSeed : Nat
  warm : BitVec 16
  capT0 : Nat
  capStack : Nat
  capT3 : Nat
  runs : List Run
  streams : List Stream
  deriving DecidableEq, Repr

/-- A Square list entry (02 R30). -/
structure SqEntry where
  die : Nat
  file : Nat
  rank : Nat
  ctx : Nat
  t0 : Nat
  deriving DecidableEq, Repr

/-- A Position record (02 R29), with what its program area says. -/
structure Position where
  tenant : Nat
  queues : Nat
  baseId : Nat
  actMove : Nat
  contexts : Nat
  resT0 : Nat
  resT1 : Nat
  resT2 : Nat
  resT3 : Nat
  squares : List SqEntry
  runs : List Run
  streams : List Stream
  digest : Nat
  prog : ProgInfo
  program : List Byte := []        -- the program area's bytes, as the record holds them (02 R35)
  deriving DecidableEq, Repr

/-- Stage of the recomposition in progress (02 R48 to R57). -/
inductive RecompStage where
  /-- Accepted, waiting behind an earlier one. -/
  | waiting
  /-- Verified; staging runs. -/
  | staging (p : Position)
  /-- Staged; activates at this move. -/
  | staged (p : Position) (move : Nat)
  /-- A retirement that waits for contexts and streams. -/
  | draining
  deriving DecidableEq, Repr

structure Recomp where
  seq : Nat                        -- its descriptor on the admin queue
  tenant : Nat
  retire : Bool
  release : Bool
  acceptMove : Nat
  prog : Option ProgInfo
  stage : RecompStage
  deriving DecidableEq, Repr

/-- A load or unload of the base layer that has passed its checks and waits for its boundary (02 R43). -/
inductive BaseJob where
  | load (b : BaseLayer)
  | unload
  deriving DecidableEq, Repr

/-- Castling in progress (03 R85 to R88). -/
structure Castling where
  seq : Nat
  die : Nat
  file : Nat
  rank : Nat
  revert : Bool
  phase : Nat
  due : Nat := 0                   -- first move whose boundary may switch: the one after the copy has ended (03 R88)
  deriving DecidableEq, Repr

/-- What waits to leave on a stream (02 R37, 10 R301). -/
inductive Load where
  /-- Bytes that a Square puts out. -/
  | data (bytes : List Byte)
  /-- The request of read r of a context, and a slot payload of the data of its fetch slot (03 R71). -/
  | read (sq ctx r : Nat)
  | elem (sq ctx slot : Nat)
  /-- A packet, and bytes off to off + n - 1 of a MESSAGE, which one packet carries (10 R306, R315). -/
  | packet (p : Packet)
  | part (m : Message) (off n : Nat)
  /-- A chunk of a BANK_OP that is ready (08 R246, R248). -/
  | chunk (q : QId) (seq : Nat)
  deriving DecidableEq, Repr

/-- One payload, or the rest of a packet that several slots carry: the bytes still to move. -/
structure Token where
  bytes : Nat
  load : Load
  deriving DecidableEq, Repr

/-- Tokens and credits of one stream at its source, and what lies at its destination (02 R38, R40). -/
structure StreamSt where
  tokens : List Token := []        -- oldest first
  credits : Nat := 0
  held : Nat := 0                  -- entries occupied at the destination
  buf : List Token := []           -- payloads in the receive buffer of a destination Square, oldest first (03 R79)
  deriving DecidableEq, Repr

structure BdSt where
  base : Nat := 0                  -- BD_IMG_STATE.BASE
  layer : Option BaseLayer := none
  baseAddr : Nat := 0              -- bits [63:12]
  baseLen : Nat := 0
  done : Bool := false
  fail : Bool := false
  err : Nat := 0
  job : Option BaseJob := none
  admTenant : Nat := 0
  admOp : Nat := 0
  admReason : Nat := 0
  admValid : Bool := false
  admMove : Nat := 0
  capT0 : Nat := 0
  capStack : Nat := 0
  capT3 : Nat := 0
  slotKind : Nat := 0
  slotPath : Nat := 0
  slotAsked : Bool := false        -- BD_SLOT_QUERY has been written since the reset (02 R63)
  positions : Tab Position := []
  recomps : List Recomp := []
  streams : Tab StreamSt := []     -- by owner * 256 + stream
  sqSel : Nat := 0                 -- BD_SQ_SEL [8:0]
  castDone : Bool := false
  castFail : Bool := false
  castReason : Nat := 0
  castDie : Nat := 0
  castFile : Nat := 0
  castRank : Nat := 0
  castRevert : Bool := false
  castling : Option Castling := none
  recompAt : Option Nat := none    -- tempo count of the last boundary at which a recomposition took effect (02 R55)
  deriving DecidableEq, Repr

/-- A rank (03 R80 to R84, R96; 14 R438, R439). -/
structure Rank where
  clock : Nat := 0
  pll : Bool := false              -- the PLL runs (03 R80)
  pwrOff : Bool := false
  castled : Bool := false
  castleFile : Nat := 0
  idle : Nat := 0                  -- consecutive idle ticks, up to 256
  deriving DecidableEq, Repr

/-! ### Squares -/

inductive CtxState where
  | free | ready | waitMem | waitStream | frozen
  deriving DecidableEq, Repr

/-- Why a context is occupied. -/
inductive CtxJob where
  | none
  /-- Entry context of a descriptor. -/
  | entry (q : QId) (seq : Nat)
  /-- Serving context of held work number `work`. -/
  | serving (work : Nat)
  deriving DecidableEq, Repr

/-- One read element (03 R69, R70), or a remote operation of the ply. -/
structure Elem where
  bytes : Nat
  addr : ReadAddr
  dst : Nat                        -- place of its data in the scratch area
  tag : Option Nat                 -- its request's tag
  left : Bool                      -- its request has left the Square (03 R71)
  due : Nat                        -- slot payloads of its data still to arrive
  returned : Bool
  fault : Nat                      -- 0: none; else the status it ends the context with
  data : List Byte                 -- its data, until the ply's are processed in fetch-slot order
  deriving DecidableEq, Repr

structure Ctx where
  st : CtxState := .free
  held : CtxState := .free         -- the state before FROZEN
  job : CtxJob := .none
  tenant : Nat := 0x7F
  waitOn : Nat := 0                -- the input stream that WAIT_STREAM waits for
  waitDst : Nat := 0               -- where its payload goes
  regs : Tab (List Nat) := []      -- 4 vector registers of 64 entries of 64 bits; absent: empty lanes
  scalar : Mem := []               -- 512 bytes
  scratch : Mem := []              -- 4 KiB
  elems : Tab Elem := []           -- by fetch slot
  ended : Option Nat := none       -- status with which the context has ended, reads outstanding (03 R78)
  deriving DecidableEq, Repr

/-- A Square (03 R65). Its SRAM stands in State by its areas (03 R79): the program in `Position.program`, receive buffers in `StreamSt.buf`, scratch here, area 4 in the T0 objects. -/
structure Square where
  last : Nat := 63
  ctxs : Tab Ctx := []
  reqBuf : List (Nat × Nat) := []  -- request buffer: context and read of every request that has not left, oldest first (03 R71)
  deriving DecidableEq, Repr

/-! ### Queue engine -/

/-- An entry of a function's MSI-X table (11 R358). The spec gives it no layout and no command writes it (log entry 21). -/
structure MsixEntry where
  addr : Nat := 0
  data : Nat := 0
  masked : Bool := false
  pending : Bool := false
  deriving DecidableEq, Repr

inductive TtState where
  | empty | pending | committed | complete
  deriving DecidableEq, Repr

structure TtEntry where
  num : Nat := 0
  st : TtState := .empty
  status : Nat := 0
  deriving DecidableEq, Repr

structure Queue where
  cqBase : Nat := 0                -- bits [63:12]
  log2 : Nat := 6
  creditsMax : Nat := 64
  en : Bool := false
  irqMode : Nat := 0
  vector : Nat := 0
  head : Nat := 0
  tail : Nat := 0
  phase : Bool := true
  high : Option Nat := none
  avail : Nat := 0
  qstate : Nat := 0
  pool : Nat := 0
  accepted : Nat := 0
  dropped : Nat := 0
  tt : Tab TtEntry := []
  deriving DecidableEq, Repr

/-- Where an accepted descriptor stands. -/
inductive DPhase where
  /-- Waits for the meter (11 R370). -/
  | meter
  /-- Past step 9 of R351; waits for dispatch. -/
  | ready
  /-- In an entry context. -/
  | placed (sq ctx : Nat)
  /-- Its checks passed and its work runs. -/
  | running
  deriving DecidableEq, Repr

/-- An input entry of an INSERT (07 R201). -/
structure InsEntry where
  userKey : Nat
  target : Option Nat
  vec : List F32
  attrs : List Byte
  deriving DecidableEq, Repr

/-- A row operation of a BANK_OP (08 R244): objects 0 to 3 with their rows. -/
structure RowOp where
  op : Nat
  dst : Nat × Nat
  srcs : List (Nat × Nat)
  pattern : Nat
  deriving DecidableEq, Repr

/-- What a running descriptor holds. -/
inductive Work where
  | none
  /-- A mutation that waits for its commit (07 R185, R194). -/
  | insert (entries : List InsEntry)
  | delete (entries : List (Nat × Nat))
  /-- A CONSOLIDATE: first epoch, last epoch, steps, folded, repaired, freed, phase (0 fold, 1 repair, 2 free, 3 done), next slot or position. -/
  | consolidate (first last : Option Nat) (steps folded repaired freed phase cursor : Nat)
  /-- A journalled write that waits for its move and its acknowledgements (07 R217). -/
  | journal (epoch : Nat)
  /-- Remote requests of a T2 access, a tile delivery or a guarded write: tags outstanding, the first fault (0: none), and the completion that follows when every response has come. -/
  | remote (tags : List Nat) (fault status detail epoch notBefore : Nat)
  /-- An INSERT or a DELETE in effect whose deltas wait for their acknowledgements (10 R332): tags outstanding, the first fault, epoch, index and partition, the result that DONE writes, and the bytes of the new scale set with their offsets in the index object (04 R125). -/
  | mutated (tags : List Nat) (fault epoch index part : Nat) (result : List Byte) (adopt : List (Nat × List Byte))
  /-- Tiles of a T2 object on their way to a fabric destination: tags outstanding, the first fault; the STORE_FLAG follows (08 R239). -/
  | forwarding (tags : List Nat) (fault : Nat)
  /-- A PLACE that waits for its boundary (08 R228): tags of its remote copy outstanding, and its first fault. -/
  | place (tags : List Nat) (fault : Nat)
  /-- A BANK_OP whose chunks run (08 R246): per stack channel the operations left, in sequence order, and the channels that a source row has stopped. -/
  | bank (left : List (Nat × List RowOp)) (stopped : List Nat)
  deriving DecidableEq, Repr

structure Desc where
  n : Nat                          -- acceptance number
  q : QId
  tenant : Nat
  seq : Nat
  bytes : List Byte
  phase : DPhase
  deferred : Bool := false
  yellow : Bool := false
  epoch : Nat := 0                 -- epoch of a SEARCH or SEARCH_SCAN (07 R186)
  work : Work := .none
  hostFault : Bool := false        -- a host read of it failed (11 R344)
  move : Nat := 0                  -- move of acceptance (07 R216)
  deriving DecidableEq, Repr

/-- A duplicate that waits on its original (11 R353). -/
structure Dup where
  n : Nat
  q : QId
  seq : Nat
  opcode : Nat
  tag : Nat
  irq : Bool
  deriving DecidableEq, Repr

/-- A completion record that waits to be written (11 R355, R356). -/
structure Rec where
  n : Nat := 0                     -- acceptance number of its descriptor
  q : QId
  seq : Nat := 0
  status : Nat := 0
  orig : Nat := 0
  opcode : Nat := 0
  rflags : Nat := 0
  creditOnly : Bool := false
  creditReset : Bool := false
  grant : Nat := 0                 -- credits that a credit record grants
  deferred : Bool := false
  yellow : Bool := false
  detail : Nat := 0
  tag : Nat := 0
  epoch : Nat := 0
  notBefore : Nat := 0             -- first move in which it may be written (07 R188)
  irq : Bool := false
  deriving DecidableEq, Repr

structure QeSt where
  adminSt : Queue := { creditsMax := 32 }
  queues : Tab Queue := []         -- by tenant * 64 + q
  descs : List Desc := []          -- accepted and uncompleted, in acceptance order
  dups : List Dup := []
  recs : List Rec := []
  accepted : Nat := 0              -- next acceptance number
  msix : Tab MsixEntry := []       -- by function * 128 + vector (11 R341, R358)
  lastServed : Tab Nat := []       -- last queue served, per tenant (03 R94)
  cnt : Tab Nat := []              -- QE_CNT_n
  deriving DecidableEq, Repr

/-- One tenant's control state (11 R372 to R375). -/
structure Tenant where
  tornDown : Bool := false
  resetting : Option (Bool × Option Nat) := none   -- DISABLE, and the SEQ of the TENANT_RESET to complete
  retiring : Bool := false
  flr : Bool := false              -- a function level reset ends host access (11 R373)
  teardownSeq : Option Nat := none -- admin TEARDOWN to complete
  teardownBusy : Bool := false     -- TEARDOWN_DONE not yet sent
  overrun : Bool := false
  aperture : Bool := false
  evtEn : Bool := false
  evtVector : Nat := 0
  cntOverrun : Nat := 0
  cntAperture : Nat := 0
  storeSeq : Nat := 0              -- next store sequence (10 R311)
  storeFault : Bool := false       -- a numbered request of the tenant has completed with a fault (10 R311)
  deriving DecidableEq, Repr

/-- A meter (11 R367 to R371, R376). -/
structure Meter where
  en : Bool := false
  mode : Bool := false             -- BYTES_PLUS_OVERHEAD
  action : Bool := false           -- DEFER, or YELLOW_OK
  overhead : Nat := 0
  cir : Nat := 0
  pir : Nat := 0
  cbs : Nat := 0
  pbs : Nat := 0
  tc : Nat := 0
  tp : Nat := 0
  green : Nat := 0
  yellow : Nat := 0
  red : Nat := 0
  deriving DecidableEq, Repr

/-! ### Objects, stacks, indexes -/

structure Obj where
  tenant : Nat
  num : Nat
  type : Nat
  tier : Nat
  raw : Bool
  st : Nat := 0                    -- 0 ready, 1 moving, 2 freeing, 3 LOST
  size : Nat
  peer : Nat := 0
  goff : Nat := 0                  -- offset the peer assigned (T2)
  sqFirst : Nat := 0
  sqCount : Nat := 0
  chans : List Nat := []           -- channel list (T3)
  lus : List Nat := []             -- logical unit of each map unit, on its channel (T3)
  block : Nat := 0                 -- B_obj (08 R231)
  hdr : Mem := []                  -- bytes 0 to 4,095 of a PARAM_TENSOR, as this node wrote them (R235)
  data : Mem := []                 -- contents in T0, T1 and T2
  deriving DecidableEq, Repr

/-- A MOVE or FREE in progress (08 R228). -/
structure PlaceJob where
  q : QId
  seq : Nat
  tenant : Nat
  num : Nat
  dest : Option Obj                -- the copy of a MOVE; none for a FREE
  stored : Bool                    -- the bytes of a MOVE between peers are on their way to the second
  deriving DecidableEq, Repr

/-- A T2 object that this node holds for a tenant's peer (10 R305): the node that created it, and the number it bears there. -/
structure Export where
  tenant : Nat
  node : Nat := 0
  num : Nat := 0
  off : Nat
  size : Nat
  raw : Bool
  block : Nat                      -- B_obj (08 R231)
  data : Mem := []
  deriving DecidableEq, Repr

/-- A BAR4 segment (08 R252). -/
structure Bar4Map where
  valid : Bool := false
  err : Bool := false
  tenant : Nat := 0
  object : Nat := 0
  segOff : Nat := 0
  deriving DecidableEq, Repr

structure MsSt where
  present : BitVec 8 := 0xFF       -- RO-F
  stackState : Tab Nat := []
  stackTemp : Tab Nat := []
  pprUsed : Tab Nat := []
  seed : Nat := 0
  bar4Size : Nat := 0
  bar4Map : Tab Bar4Map := []
  selObject : Nat := 0
  selTenant : Nat := 0
  useSel : Nat := 0
  rowOps : Nat := 0
  refused : Nat := 0
  objs : List Obj := []
  jobs : List PlaceJob := []
  exports : List Export := []
  badBursts : List (Nat × Nat × Nat) := []   -- stack channel, block, burst whose check fails
  badRows : List (Nat × Nat) := []           -- stack channel, block uncorrectable on die
  deriving DecidableEq, Repr

/-- The before-images of one mutation: object, offset and old byte, newest write last (07 R192). -/
structure BImage where
  epoch : Nat
  part : Nat
  old : List (Nat × Nat × Byte)
  deriving DecidableEq, Repr

/-- A journalled write on its way (07 R217). -/
structure JWrite where
  q : QId
  seq : Nat
  epoch : Nat
  off : Nat
  bytes : List Byte
  ack1 : Bool
  ack2 : Bool
  deriving DecidableEq, Repr

structure Index where
  tenant : Nat
  num : Nat
  journal : Option Nat := none
  commitMove : Nat := 0
  commitCount : Nat := 0
  mutated : List Nat := []         -- partitions that have taken a mutation
  images : List BImage := []       -- oldest first
  writes : List JWrite := []
  deriving DecidableEq, Repr

/-- A partial list a channel engine returned to a RERANK command (05 R143): entries of userKey, score, key, slot, flags, version. -/
structure PartList where
  ch : Nat
  tenant : Nat
  index : Nat
  partition : Nat
  entries : List (Nat × F32 × Nat × Nat × Nat × Nat)
  deriving DecidableEq, Repr

/-! ### Flash -/

inductive MapEntry where
  | lost
  | page (die page : Nat)          -- die position d and page number within the die (09 R264)
  deriving DecidableEq, Repr

/-- A programmed page: header (09 R257) and data. -/
structure Page where
  kind : Nat
  width : Nat
  member : Nat
  lu : Nat
  seq : Nat
  sb : Nat
  ckpt : Nat
  fmtId : Nat
  data : Mem
  hdrXor : List Byte := []         -- parity page: exclusive-or of the headers (09 R256)
  deriving DecidableEq, Repr

structure Block where
  bad : Bool := false
  erases : Nat := 0
  deriving DecidableEq, Repr

structure Die where
  st : Nat := 0                    -- FL_DIE_INFO.STATE
  retired : Nat := 0
  temp : Nat := 0
  tempWarned : Bool := false
  degraded : Bool := false
  wearRaised : Bool := false
  reads : Nat := 0                 -- codeword reads in the window
  retries : Nat := 0
  blocks : Tab Block := []
  deriving DecidableEq, Repr

/-- A superblock of stripe group (g, d) (09 R273). -/
structure Super where
  g : Nat
  d : Nat
  num : Nat
  block : List Nat                 -- each member's block
  onSpare : List Bool              -- member's block lies on the spare die (09 R283)
  next : List Nat                  -- each member's next page
  absentFrom : List Nat            -- first ABSENT page of each member; pages per block when none
  absent : List (Nat × Nat) := []  -- members and stripes whose page a recovery could not read (09 R290)
  closed : Nat := 0                -- stripes whose parity is programmed
  unprotectedFrom : Nat            -- first unprotected stripe
  retiredOpen : Bool := false      -- opens no further stripe
  opened : List Nat := []          -- tick at which the first page of each open stripe was programmed, oldest first
  deriving DecidableEq, Repr

/-- A recorded root (09 R287): the checkpoint's number and start, the page of every segment, the channel's part of the superblock table, the open blocks, the queues of the next free blocks, and the pages of the root itself. -/
structure Root where
  num : Nat
  seq : Nat
  fmtId : Nat
  segs : Tab Nat := []             -- by segment
  supers : List Super := []
  opens : List (Nat × Nat × Nat) := []   -- chip enable, block, next page
  queues : Tab (List Nat) := []    -- by chip enable
  pages : List Nat := []
  deriving DecidableEq, Repr

/-- The format record of a channel (09 R291 step 1): stripe width, over-provisioning, identifier. -/
structure FmtRec where
  w : Nat
  op : Nat
  id : Nat
  deriving DecidableEq, Repr

structure Channel where
  dies : Nat := 0
  spare : Bool := false
  geom : DieGeom := { planes := 0, blocks := 0, pages := 0, peRated := 0, spareBytes := 0, suspend := false }
  luCount : Nat := 0
  spareAtFormat : Nat := 0
  spareLowRaised : Bool := false
  seq : Nat := 0
  ckptNum : Nat := 0
  ckptTick : Nat := 0
  since : Nat := 0                 -- pages programmed since the last checkpoint
  force : Bool := false            -- a checkpoint was commanded (09 R286)
  dirty : List Nat := []           -- map segments changed since the last checkpoint (09 R287)
  nextDie : Nat := 0
  map : Tab MapEntry := []
  free : Nat := 0                  -- next logical unit never given out
  freed : List Nat := []           -- logical units given back
  pages : Tab Page := []           -- by physical die * 2^23 + page
  dieSt : Tab Die := []            -- by chip enable
  roots : List Root := []          -- what the two root blocks hold, newest first
  rootBlk : Nat := 0               -- which of the two root blocks takes the next root
  rootPage : Nat := 0              -- its next page
  segs : Tab Nat := []             -- newest page of each map segment
  queue : Tab (List Nat) := []     -- what is left of the recorded allocation queues, by chip enable (09 R288)
  fmt : Option FmtRec := none      -- the format record
  migrating : Option (Nat × Nat) := none   -- SEQ of the PROMOTE, die position
  migrated : Option Nat := none    -- die position now on the spare die
  gone : Option (Nat × Bool) := none   -- dies and spare of a channel whose carrier supply has failed (15 R474)
  deriving DecidableEq, Repr

/-- A page kept for readers at earlier epochs (07 R192, 09 R267). -/
structure Retained where
  ch : Nat
  lu : Nat
  key : Nat
  epoch : Nat
  tenant : Nat
  index : Nat
  part : Nat
  deriving DecidableEq, Repr

structure FlSt where
  stripeW : Nat := 0
  opPct : Nat := 7
  fstate : Nat := 0
  done : Bool := false
  fail : Bool := false
  err : Nat := 0
  capRaw : Nat := 0
  mapRes : Nat := 0
  fmtW : Nat := 0                  -- 0: unformatted
  fmtOp : Nat := 0
  fmtId : Nat := 0
  recovMs : Nat := 0
  recovStripes : Nat := 0
  recovLost : Nat := 0
  recovOlder : Bool := false
  closeMs : Nat := 1000
  ewSpare : Nat := 25
  ewWear : Nat := 80
  ewRetry : Nat := 1000
  ewRetired : Nat := 64
  ewTemp : Nat := 80
  selCh : Nat := 0
  selDie : Nat := 0
  cnt : Tab Nat := []
  chans : Tab Channel := []
  supers : List Super := []        -- in the order in which they were opened
  superNum : Tab Nat := []         -- next superblock number of group (g, d), by g * 16 + d
  badCw : List (Nat × Nat × Nat × Nat) := []   -- channel, physical die * 2^23 + page, codeword, and the retry set that decodes it (16: none)
  found : Bool := false            -- the fitted dies have been discovered since the reset (02 R45)
  retained : List Retained := []
  format : Option (Nat × Nat × Nat) := none   -- the format that runs: W, OP, and the state before it
  replayed : Bool := false         -- the recovery that runs has replayed every channel and closed the stripes
  deriving DecidableEq, Repr

/-! ### Fabric -/

structure Link where
  st : Nat := 0
  spareIn : Bool := false
  spareFor : Nat := 0
  partner : Nat := 0
  cause : Nat := 0
  delay : Nat := 0
  txSeq : Nat := 0
  unacked : List Flit := []        -- flits held until they are acknowledged, oldest first, at most 512 (10 R298)
  returns : List (Nat × Nat × Nat) := []   -- owner, stream and number of freed receive-buffer entries whose credits have not left (10 R302)
  replays : Nat := 0               -- successive failed replays of the oldest flit
  rxNext : Nat := 0
  promote : Option Nat := none     -- SEQ of the PROMOTE LANE that retrains it
  deriving DecidableEq, Repr

/-- What waits for the response to an outstanding request. -/
inductive ReqSource where
  | elem (sq ctx slot : Nat)
  /-- Bytes for an OBJ_READ or TILE_READ of a T2 object, to host address `host`. -/
  | hostRead (q : QId) (seq host : Nat)
  | desc (q : QId) (seq : Nat)
  /-- Bytes of a T2 object that a MOVE copies to offset `off` of its destination. -/
  | copy (q : QId) (seq off : Nat)
  /-- Bytes of a T2 object that go on to global address `dst`. -/
  | forward (q : QId) (seq dst : Nat)
  /-- A MESSAGE: its identifier. -/
  | message (q : QId) (seq : Nat) (msgId : Nat)
  /-- A unit that a guard set's command reads of another member: set, position, stripe (10 R331, R335). -/
  | guard (set pos stripe : Nat)
  | none
  deriving DecidableEq, Repr

structure Req where
  tag : Nat
  tenant : Nat
  target : Nat
  op : Nat
  link : Nat
  seq : Nat                        -- store sequence; stores, flags and atomics only
  addr : Nat                       -- ADDR of the packet; 0 for a MESSAGE
  src : ReqSource
  sent : Bool := false             -- its last flit has left, so that its timer runs (10 R322)
  deriving DecidableEq, Repr

/-- A STORE_FLAG that waits for its earlier stores (10 R311). -/
structure FlagWait where
  tag : Nat
  tenant : Nat
  seq : Nat
  addr : Nat
  value : Nat
  faulted : Bool
  src : ReqSource
  deriving DecidableEq, Repr

/-- Work held for a serving context (03 R75, 07 R189). -/
structure HeldWork where
  work : Nat
  tenant : Nat
  msg : Message
  link : Nat
  placed : Option (Nat × Nat) := none
  deriving DecidableEq, Repr

/-- A request for flash contents that waits while the flash is recovered or formatted (09 R291), with its link. -/
inductive FlashWait where
  | read (link : Nat) (p : Packet)
  | delta (link : Nat) (m : Message)
  deriving DecidableEq, Repr

/-- A query MESSAGE or guarded read sent, and its reply once it has come (05 R138, R156; 10 R333). -/
structure SentQuery where
  msgId : Nat
  q : QId
  seq : Nat
  key : List Nat                   -- what was asked: kind, partition and further numbers
  reply : Option (List Byte)
  deriving DecidableEq, Repr

structure Guard where
  tenant : Nat := 0
  p : Nat := 0
  dataObj : Nat := 0xFFFFFFFF
  parObj : Nat := 0xFFFFFFFF
  st : Nat := 0
  done : Bool := false
  fail : Bool := false
  err : Nat := 0
  units : Nat := 0
  running : Bool := false
  asked : Nat := 0                 -- units asked of other members that have not come
  shards : List (Nat × Nat × List Byte) := []   -- units of the running command that have come: position, stripe, bytes
  silent : Bool := false           -- a member did not answer the running command
  deriving DecidableEq, Repr

structure FabSt where
  node : Nat := 0
  domain : Nat := 0
  assigned : Bool := false
  standin : Bool := false
  group : Option GroupCfg := none
  pendingGroup : Option GroupCfg := none
  pendingAdopt : Option (Nat × GroupCfg) := none
  timeoutUs : Nat := 50
  refOk : Bool := false
  synced : Bool := false
  syncLink : Nat := 0
  offset : Int := 0                -- in 1/256 tick
  offOut : Bool := false           -- the offset has left 1 tick and TEMPO_OFFSET has been reported (10 R320)
  guardSel : Nat := 0
  guards : Tab Guard := []
  links : Tab Link := []
  cnt : Tab Nat := []
  paths : Tab Nat := []
  nextTag : Nat := 0
  nextWork : Nat := 0
  reqs : List Req := []
  flags : List FlagWait := []
  portHeld : List (Nat × Packet) := []   -- responses held at the link ports for a frozen Square (03 R91)
  held : List HeldWork := []
  flashHeld : List FlashWait := []
  sent : List SentQuery := []
  deriving DecidableEq, Repr

/-! ### Token service -/

structure Binding where
  object : Nat := 0xFFFFFFFF
  tenant : Nat := 0
  share : Bool := false
  st : Nat := 0
  done : Bool := false
  fail : Bool := false
  err : Nat := 0
  size : Nat := 0
  vocabId : Nat := 0
  drain : Nat := 0                 -- acceptance number at the UNBIND: earlier requests are still served
  deriving DecidableEq, Repr

structure TsSt where
  vocabSel : Nat := 0
  gramSel : Nat := 0
  vocabs : Tab Binding := []
  grams : Tab Binding := []
  cnt : Tab Nat := []
  deriving DecidableEq, Repr

/-! ### The whole -/

@[ext]
structure State where
  pending : List Instr := []
  freeCtr : Nat := 0
  out : List Out := []
  hostMem : Mem := []
  tempo : Nat := 0
  tempoFrac : Int := 0             -- 1/256 ticks by which the counter stands beside tempo (10 R319)
  pw : PwSt := {}
  nmc : NmcSt := {}
  er : ErSt := {}
  cal : CalSt := {}
  spare : SpareSt := {}
  bd : BdSt := {}
  ranks : Tab Rank := []
  squares : Tab Square := []
  qe : QeSt := {}
  tenants : Tab Tenant := []
  meters : Tab Meter := []         -- by tenant * 2, and the egress meter at tenant * 2 + 1
  ms : MsSt := {}
  indexes : List Index := []
  partials : List PartList := []
  fl : FlSt := {}
  fab : FabSt := {}
  ts : TsSt := {}
  deriving DecidableEq, Repr

/-- The node right after a power-on reset, at step 4 of the power-on sequence (14 R440): every register at its Reset column, PERST_n still asserted, no command waiting. -/
def State.reset : State := {}

end Sys2Proof.Machine
end

