-- ==== Sys2Proof/Machine/Units.lean ====
section
/-! DEFINITION. The units, numbers and field widths that a command's operands may name (01 R17; 02 R32, R34; 03 R65; 10 R306, R315). -/

namespace Sys2Proof

/-- The node's own units: 64 T3 channels, 24 links, 16 ranks, 272 Squares (256 and 16 spares), 24 sensors, 64 contexts a Square, 64 bridge slots (01 R17). -/
def linkOk (l : Nat) : Bool := decide (l < 24)
def chanOk (c : Nat) : Bool := decide (c < 64)
def rankOk (r : Nat) : Bool := decide (r < 16)
def squareOk (n : Nat) : Bool := decide (n < 272)
def ctxOk (c : Nat) : Bool := decide (c < 64)
/-- Tenants 0 to 64; tenant 0 is the physical function (11 R342). -/
def tenantOk (t : Nat) : Bool := decide (t ≤ 64)
def fnOk (f : Nat) : Bool := decide (f ≤ 64)
/-- Dies of a channel: chip enables 0 to 8 (09 R254). -/
def chipOk (d : Nat) : Bool := decide (d < 9)

/-- A queue that the node has: the admin queue, or queue 0 to 63 of tenant 0 to 64. -/
def queueOk : QId → Bool
  | .admin => true
  | .tenant t q => tenantOk t && decide (q < 64)

/-- The function may write this queue's registers: tenant 0 all of them, a virtual function its own page (11 R377). -/
def ownsQueue (fn : Nat) : QId → Bool
  | .admin => fn == 0
  | .tenant t _ => fn == 0 || t == fn

/-- Paths of each kind, and slots per move (02 R34). -/
def pathsOf (kind : Nat) : Nat :=
  match kind with
  | 0 => 16 | 1 => 34 | 2 => 45 | 3 => 45 | 4 => 256 | 5 => 64 | 6 => 24 | 7 => 24 | 8 => 1 | 9 => 1 | _ => 0

def slotsPerMove (kind : Nat) : Nat := match kind with | 5 => 256 | 6 => 1024 | 7 => 1024 | _ => 4096

/-- A write within a context: 4 registers of 64 entries of 64 bits, 512 bytes of scalar state, 4 KiB of scratch (03 R65, R79). -/
def ctxWriteOk : CtxWrite → Bool
  | .reg r l => decide (r < 4) && l.length == 64 && l.all (fun v => decide (v < 2 ^ 64))
  | .scalar o b => decide (o + b.length ≤ 512)
  | .scratch o b => decide (o + b.length ≤ 4096)

/-- A remote operation with the shape of R307. -/
def remoteOpOk : RemoteOp → Bool
  | .store a b => decide (a < 2 ^ 48) && decide (a % 8 = 0) && decide (8 ≤ b.length ∧ b.length ≤ 256) && decide (b.length % 8 = 0)
      && decide (a % 256 + b.length ≤ 256)
  | .flag a v => decide (a < 2 ^ 48) && decide (a % 8 = 0) && decide (v < 2 ^ 64)
  | .atomic sub a x y => decide (sub < 3) && decide (a < 2 ^ 48) && decide (a % 8 = 0) && decide (x < 2 ^ 64) && decide (y < 2 ^ 64)

/-- An element of 8 to 256 bytes whose data has its place in the scratch area (03 R65, R69). -/
def readElemOk (e : ReadElem) : Bool :=
  decide (8 ≤ e.bytes ∧ e.bytes ≤ 256) && decide (e.dst + e.bytes ≤ 4096) && (match e.addr with | .remote a => decide (a < 2 ^ 48) | .object n _ => decide (n < 2 ^ 32))

/-- An issued instruction within the bounds of a context: 4 reads, 16 elements, 4 vector registers, stream numbers of one byte, 64 SRAM macros of 512 rows (03 R69, 02 R33, 13 R417). -/
def sqOpOk : SqOp → Bool
  | .read r stream elems _ => decide (r < 4) && decide (stream < 256) && decide (1 ≤ elems.length ∧ elems.length ≤ 16) && elems.all readElemOk
  | .send stream _ => decide (stream < 256)
  | .waitStream stream dst => decide (stream < 256) && decide (dst < 4096)
  | .sort r => decide (r < 4)
  | .merge a b => decide (a < 4) && decide (b < 4) && a != b
  | .remote slot op dst _ => decide (slot < 64) && remoteOpOk op && decide (dst + 8 ≤ 4096)
  | .sramError _ row => decide (row < 64 * 512)
  | .compute w => w.all ctxWriteOk
  | .finish => true

/-- A fault that a read finds names a stack channel, a burst of a row, or a flash channel and a codeword (02 R32, 08 R233, 09 R256). -/
def elemResultOk : ElemResult → Bool
  | .stackCheck c _ u => decide (c < 256) && decide (u < 16)
  | .stackUncorrectable c _ => decide (c < 256)
  | .stackCorrected c _ => decide (c < 256)
  | .media c _ w => chanOk c && decide (w < 4)
  | .data => true

/-- A PLACE's part at the peer names a tenant, a node, an object and a size in units of 512 KiB within the offsets of R305. -/
def placeOk : PlaceSide → Bool
  | .own _ => true
  | .create t n k size _ off => tenantOk t && decide (n < 256) && decide (k < 2 ^ 32) && decide (size % 524288 = 0) && decide (0 < size) && decide (off % 524288 = 0) && decide (off + size ≤ 2 ^ 40)
  | .free t n k => tenantOk t && decide (n < 256) && decide (k < 2 ^ 32)

/-- A sensor of the module, or a flash die's. -/
def sensorOk : SensorId → Bool
  | .module n => decide (n < 24)
  | .die c d => chanOk c && chipOk d

/-- A packet header whose fields fit their widths; LEN data bytes follow, but none follow a LOAD's (10 R306, R307). -/
def packetOk (p : Packet) : Bool :=
  decide (p.op < 256) && decide (p.sub < 256) && decide (p.tenant < 256) && decide (p.src < 256) && decide (p.dst < 256)
    && decide (p.len < 65536) && decide (p.addr < 2 ^ 64) && decide (p.tag < 2 ^ 32) && decide (p.seq < 2 ^ 32) && decide (p.operand < 2 ^ 64)
    && p.data.length == (if p.op = 1 then 0 else p.len)

/-- A MESSAGE of at most 262,144 bytes, its envelope of 64 counted, whose fields fit their widths (10 R315). -/
def messageOk (m : Message) : Bool :=
  decide (64 + m.body.length ≤ 262144) && decide (m.kind < 256) && decide (m.tenant < 256) && decide (m.srcNode < 256) && decide (m.dstNode < 256)
    && decide (m.srcDomain < 65536) && decide (m.dstDomain < 65536) && decide (m.msgId < 2 ^ 32) && decide (m.tag < 2 ^ 32)
    && decide (m.epoch < 2 ^ 64) && decide (m.index < 2 ^ 32) && decide (m.partition < 2 ^ 32)

/-- A flit whose fields fit their widths (10 R297). -/
def flitOk (f : Flit) : Bool :=
  decide (f.seq < 4096) && decide (f.kind < 16) && decide (f.ack < 4096) && decide (f.creditOwner < 128) && decide (f.creditStream < 256)
    && decide (f.credits < 64) && f.payload.length == 240 && decide (f.crc < 2 ^ 32)

/-- A carrier of eight channels of at most eight active dies each, or none (15 R473). -/
def carrierOk : Option (List CarrierCh) → Bool
  | none => true
  | some l => l.length == 8 && l.all (fun c => decide (c.dies ≤ 8))

end Sys2Proof
end

