-- ==== Sys2Proof/WellFormed.lean ====
section
/-! DEFINITION. Well-formed commands: every operand names a unit, a path or a number that the node has (01 R17, 02 R34). -/

namespace Sys2Proof

/-- Every operand names something that the node has. -/
def wellFormed : Instr → Bool
  | .apertureWrite vf off _ => match vf with | none => decide (off < 2 ^ 24) | some v => decide (off < 2 ^ 18) && decide (1 ≤ v) && decide (v ≤ 64)
  | .descriptorPlace t => tenantOk t
  | .completionRecordWrite q => queueOk q
  | .completionHeadWrite fn q _ => fnOk fn && queueOk q && ownsQueue fn q
  | .queueEnable fn q _ => fnOk fn && queueOk q && ownsQueue fn q
  | .queueDisable fn q _ => fnOk fn && queueOk q && ownsQueue fn q
  | .meterEnable fn t _ _ => fnOk fn && tenantOk t
  | .slotTransfer kind path slot => decide (kind < 10) && decide (path < pathsOf kind) && decide (slot < slotsPerMove kind)
  | .squareCycle n op => squareOk n && sqOpOk op
  | .sort64 n c r => squareOk n && ctxOk c && decide (r < 4)
  | .merge128 n c a b => squareOk n && ctxOk c && decide (a < 4) && decide (b < 4) && a != b
  | .readElementReturn n c r e res => squareOk n && ctxOk c && decide (r < 4) && decide (e < 16) && elemResultOk res
  | .rankClockStop r => rankOk r
  | .rankClockStart r => rankOk r
  | .search q _ => queueOk q
  | .searchScan q _ => queueOk q
  | .topkDot q _ => queueOk q
  | .rerank ch _ => chanOk ch
  | .insert q _ => queueOk q
  | .delete q _ => queueOk q
  | .consolidate q _ => queueOk q
  | .mutationCommit q _ => queueOk q
  | .consolidationStep q _ => queueOk q
  | .beforeImageRetire t _ _ => tenantOk t
  | .journalWriteApply t _ => tenantOk t
  | .tileRead q _ => queueOk q
  | .tileWrite q _ => queueOk q
  | .place q _ side => queueOk q && placeOk side
  | .objRead q _ => queueOk q
  | .objWrite q _ => queueOk q
  | .discard q _ => queueOk q
  | .bankOp q _ => queueOk q
  | .tokenize q _ => queueOk q
  | .detokenize q _ => queueOk q
  | .maskLookup q _ => queueOk q
  | .abort q _ => queueOk q
  | .fence q _ => queueOk q
  | .nop q _ => queueOk q
  | .dieMigrationEnd ch => chanOk ch
  | .tenantResetEnd t => tenantOk t
  | .teardownDone t => tenantOk t
  | .baseLoad w => fnOk w.fn
  | .baseUnload fn => fnOk fn
  | .rankPowerRequest fn _ => fnOk fn
  | .format fn _ => fnOk fn
  | .checkpointForce fn => fnOk fn
  | .checkpoint ch => chanOk ch
  | .stripeCloseTimer g d => chanOk g && chipOk d
  | .programFail ch d _ => chanOk ch && chipOk d
  | .eraseFail ch d _ => chanOk ch && chipOk d
  | .dieReadyTimeout ch d => chanOk ch && chipOk d
  | .codewordRead ch d _ cw _ => chanOk ch && chipOk d && decide (cw < 4)
  | .retryWindowEnd ch d => chanOk ch && chipOk d
  | .garbageCollection g d => chanOk g && chipOk d
  | .guardEnable fn _ => fnOk fn
  | .guardDisable fn => fnOk fn
  | .guardResync fn => fnOk fn
  | .guardRebuild fn => fnOk fn
  | .guardCommandEnd n t _ => decide (n < 64) && tenantOk t
  | .vocabBind fn => fnOk fn
  | .vocabUnbind fn => fnOk fn
  | .grammarBind fn => fnOk fn
  | .grammarUnbind fn => fnOk fn
  | .bindComplete v n => decide (n < (if v then 16 else 64))
  | .unbindComplete v n => decide (n < (if v then 16 else 64))
  | .clearCounters fn => fnOk fn
  | .clearLog fn => fnOk fn
  | .eventLogHeadWrite fn _ => fnOk fn
  | .barUnimpl fn _ _ _ => fnOk fn
  | .registerWrite fn _ _ _ => fnOk fn
  | .sleep fn _ => fnOk fn
  | .wake fn _ => fnOk fn
  | .nodeFunctionReset c => match c with | .register fn _ => fnOk fn | _ => true
  | .functionLevelReset v => decide (1 ≤ v) && decide (v ≤ 64)
  | .recoveryLoad fn _ => fnOk fn
  | .powerOnReset straps => decide (straps < 4)
  | .sensorReading n _ => sensorOk n
  | .hostReadCompletion q _ _ _ _ => queueOk q
  | .vccqSenseChange conn k => decide (conn < 8) && carrierOk k
  | .syncFlit l _ => linkOk l
  | .linkUp l _ _ => linkOk l
  | .linkTrainingTimeout l => linkOk l
  | .flitReceive l f => linkOk l && flitOk f
  | .retryRequest l _ => linkOk l
  | .linkRetryLimit l => linkOk l
  | .load l p => linkOk l && packetOk p
  | .store l p => linkOk l && packetOk p
  | .storeFlag l p => linkOk l && packetOk p
  | .storeFlagSend t _ => tenantOk t
  | .atomic l p => linkOk l && packetOk p
  | .gread l p => linkOk l && packetOk p
  | .data l p => linkOk l && packetOk p
  | .ack l p => linkOk l && packetOk p
  | .nack l p => linkOk l && packetOk p
  | .queryMessage l m => linkOk l && messageOk m
  | .listMessage l m => linkOk l && messageOk m
  | .journalMessage l m => linkOk l && messageOk m
  | .journalAck l m => linkOk l && messageOk m
  | .guardDelta l m => linkOk l && messageOk m
  | .scanSlice l m => linkOk l && messageOk m
  | .rerankMessage l m => linkOk l && messageOk m
  | .servingContextPlace _ | .moveBoundary | .admitPosition _ _ | .recompositionStart | .stagingEnd | .recompositionActivate
  | .retirePosition _ | .retirementBoundary | .promote _ | .castlingFreeze | .castlingCopyEnd | .castlingSwitch | .sramRowSwitch
  | .stackRowSwitch | .tenantReset _ | .teardown _ | .setCal _ | .loadFirmware _ _ | .baseLayerActivate | .baseLayerDeactivate
  | .rankPowerBoundary | .formatEnd _ | .flashRecovery | .flashRecoveryEnd _ | .bar4Access _ _ _ | .quiesceEnd | .pmeTurnOff
  | .watchdogExpiry | .powerLoss | .perstNAssert _ | .perstNDeassert _ | .overcurrent _ _ | .hostLinkDown
  | .hostLinkUp | .tempoRefChange _ | .setNode _ _ _ _ | .setGroup _ _ | .setPaths _ _ _ | .linkCtrlEnable _ _ | .linkCtrlDisable _ _ | .linkCtrlRetrain _ _ | .tempoSource _ _ | .tempoSet _ _ _
  | .adopt _ _ _ | .query _ | .remoteTimeout _ | .sidebandWrite _ _ | .sidebandVerify | .readReg _ | .sidebandReset | .sidebandWake
  | .setdasa _ | .entdaa _ | .getVersion _ | .getCapabilities _ | .negotiateAlgorithms _ _ _ | .getDigests _ | .getCertificate _ _ _ _
  | .challenge _ _ _ | .getMeasurements _ _ _ _ | .unsupportedRequest _ _ | .pcieErr _ _ | .resizableBar _ => true

end Sys2Proof
end

