-- ==== Sys2Proof/Machine/Ops.lean ====
section
/-! DEFINITION. The named operations over tables, memories, registers, queues, objects and the event log. -/

namespace Sys2Proof.Machine

open Sys2Proof

/-- The answer of a command. -/
abbrev Res := Host.Outcome State Fault Refusal

/-- A command whose unit exists takes the state `s` to `t`; the commands that wait are no part of any command's effect. One that names no unit of the node, or whose operands fit no field of the spec, reaches nothing and changes nothing (DESIGN CHOICE, log entry 56). -/
def onUnit (s : State) (ok : Bool) (t : State) : Res :=
  .next (if ok then { t with pending := s.pending } else s)

/-! ### Tables -/

def tget {β : Type} (d : β) (t : Tab β) (k : Nat) : β :=
  match t with
  | [] => d
  | (a, b) :: r => if a = k then b else tget d r k

def tset {β : Type} (t : Tab β) (k : Nat) (v : β) : Tab β :=
  match t with
  | [] => [(k, v)]
  | (a, b) :: r =>
    if k < a then (k, v) :: (a, b) :: r
    else if k = a then (k, v) :: r
    else (a, b) :: tset r k v

def thas {β : Type} (t : Tab β) (k : Nat) : Bool := t.any (fun e => e.1 == k)

def tdel {β : Type} (t : Tab β) (k : Nat) : Tab β := t.filter (fun e => e.1 != k)

/-- Insertion sort; of two elements the earlier one stays first where `le` holds. -/
def insertBy {α : Type} (le : α → α → Bool) (a : α) : List α → List α
  | [] => [a]
  | b :: r => if le a b then a :: b :: r else b :: insertBy le a r

def sortBy {α : Type} (le : α → α → Bool) (l : List α) : List α := l.foldr (insertBy le) []

/-! ### Numbers and bits -/

/-- Bits [lo+len-1:lo] of a number (00 R2). -/
def bits (v lo len : Nat) : Nat := v / 2 ^ lo % 2 ^ len

/-- One bit of a number. -/
def bit (v lo : Nat) : Bool := v / 2 ^ lo % 2 = 1

/-- A field placed at its bits of a register. -/
def fld (v lo : Nat) : Nat := v * 2 ^ lo

def b2n (b : Bool) : Nat := if b then 1 else 0

/-- Saturating count of `w` bits. -/
def satAdd (w v n : Nat) : Nat := Nat.min (v + n) (2 ^ w - 1)

/-- A signed value as `w` bits, two's complement. -/
def toBits (w : Nat) (i : Int) : Nat := (i % (2 ^ w : Nat)).toNat

/-- The signed value of `w` bits. -/
def ofBits (w v : Nat) : Int := if v % 2 ^ w < 2 ^ (w - 1) then (v % 2 ^ w : Nat) else (v % 2 ^ w : Nat) - (2 ^ w : Nat)

def ceilDiv (a b : Nat) : Nat := (a + b - 1) / b
def roundUp (a b : Nat) : Nat := ceilDiv a b * b

def clampI (lo hi v : Int) : Int := min (max v lo) hi

/-! ### Bytes -/

/-- A little-endian number (00 R1). -/
def leNat : List Byte → Nat
  | [] => 0
  | b :: r => b.toNat + 256 * leNat r

def toLE : Nat → Nat → List Byte
  | 0, _ => []
  | n + 1, v => BitVec.ofNat 8 v :: toLE n (v / 256)

def zeros (n : Nat) : List Byte := List.replicate n 0

/-- The little-endian field of `n` bytes at byte `o`; absent bytes count as 0. -/
def fieldAt (bs : List Byte) (o n : Nat) : Nat := leNat ((bs.drop o).take n)

def allZero (bs : List Byte) : Bool := bs.all (fun b => b == 0)

/-- Bytes o to o + n - 1 are 0. -/
def zeroAt (bs : List Byte) (o n : Nat) : Bool := allZero ((bs.drop o).take n)

def xorBytes (a b : List Byte) : List Byte := List.zipWith (fun x y => x ^^^ y) a b

/-- CRC-32 with the IEEE 802.3 polynomial (10 R297, 12 R388), bit by bit, reflected. -/
def crcBit (c : Nat) : Nat := if c % 2 = 1 then (c / 2) ^^^ 0xEDB88320 else c / 2
def crcByte (c : Nat) (b : Byte) : Nat := Nat.repeat crcBit 8 (c ^^^ b.toNat)
def crc32 (bs : List Byte) : Nat := bs.foldl crcByte 0xFFFFFFFF ^^^ 0xFFFFFFFF

/-! ### Memories -/

def memGet (m : Mem) (a : Nat) : Byte :=
  match m with
  | [] => 0
  | (k, b) :: r => if k = a then b else memGet r a

/-- The cells of bytes placed from address `a`, zeros left out. -/
def cellsOf (a : Nat) : List Byte → Mem
  | [] => []
  | b :: r => if b = 0 then cellsOf (a + 1) r else (a, b) :: cellsOf (a + 1) r

/-- Writes bytes from address `a`; the canonical form is kept. -/
def memWrite (m : Mem) (a : Nat) (bs : List Byte) : Mem :=
  m.filter (fun c => decide (c.1 < a)) ++ (cellsOf a bs ++ m.filter (fun c => decide (a + bs.length ≤ c.1)))

def memRead (m : Mem) (a n : Nat) : List Byte := (List.range n).map (fun i => memGet m (a + i))

def memLE (m : Mem) (a n : Nat) : Nat := leNat (memRead m a n)

/-- Clears n bytes from address `a`. -/
def memClear (m : Mem) (a n : Nat) : Mem :=
  m.filter (fun c => decide (c.1 < a)) ++ m.filter (fun c => decide (a + n ≤ c.1))

/-- The canonical form: addresses strictly rising, no entry equal to what an unlisted address reads as. -/
def memWf : Mem → Bool
  | [] => true
  | [(_, b)] => b != 0
  | (a, b) :: (a', b') :: r => b != 0 && decide (a < a') && memWf ((a', b') :: r)

/-! ### Time -/

def ticksPerMove : Nat := 4096
def moveOf (s : State) : Nat := s.tempo / ticksPerMove
def tickOf (s : State) : Nat := s.tempo % ticksPerMove

/-! ### Registers and tables of the state -/

def getQ (s : State) : QId → Queue
  | .admin => s.qe.adminSt
  | .tenant t q => tget {} s.qe.queues (t * 64 + q)

def setQ (s : State) (q : QId) (v : Queue) : State :=
  match q with
  | .admin => { s with qe := { s.qe with adminSt := v } }
  | .tenant t n => { s with qe := { s.qe with queues := tset s.qe.queues (t * 64 + n) v } }

/-- The tenant of a queue; the admin queue is tenant 0's (11 R342). -/
def tenantOf : QId → Nat
  | .admin => 0
  | .tenant t _ => t

def isAdmin : QId → Bool
  | .admin => true
  | .tenant _ _ => false

def getT (s : State) (t : Nat) : Tenant := tget {} s.tenants t
def setT (s : State) (t : Nat) (v : Tenant) : State := { s with tenants := tset s.tenants t v }

def getM (s : State) (t : Nat) (eg : Bool) : Meter := tget {} s.meters (t * 2 + b2n eg)
def setM (s : State) (t : Nat) (eg : Bool) (v : Meter) : State :=
  { s with meters := tset s.meters (t * 2 + b2n eg) v }

def getRank (s : State) (r : Nat) : Rank := tget {} s.ranks r
def setRank (s : State) (r : Nat) (v : Rank) : State := { s with ranks := tset s.ranks r v }
def getSq (s : State) (n : Nat) : Square := tget {} s.squares n
def setSq (s : State) (n : Nat) (v : Square) : State := { s with squares := tset s.squares n v }
def getCtx (s : State) (n c : Nat) : Ctx := tget {} (getSq s n).ctxs c
def setCtx (s : State) (n c : Nat) (v : Ctx) : State :=
  setSq s n { getSq s n with ctxs := tset (getSq s n).ctxs c v }

def getLink (s : State) (l : Nat) : Link := tget {} s.fab.links l
def setLink (s : State) (l : Nat) (v : Link) : State := { s with fab := { s.fab with links := tset s.fab.links l v } }
def getGuard (s : State) (g : Nat) : Guard := tget {} s.fab.guards g
def setGuard (s : State) (g : Nat) (v : Guard) : State := { s with fab := { s.fab with guards := tset s.fab.guards g v } }
def getCh (s : State) (c : Nat) : Channel := tget {} s.fl.chans c
def setCh (s : State) (c : Nat) (v : Channel) : State := { s with fl := { s.fl with chans := tset s.fl.chans c v } }

def posOf (s : State) (t : Nat) : Option Position := (s.bd.positions.find? (fun e => e.1 == t)).map Prod.snd
def hasPos (s : State) (t : Nat) : Bool := (posOf s t).isSome

/-- Adds n to a saturating 64-bit counter of a table. -/
def bump (t : Tab Nat) (k n : Nat) : Tab Nat := tset t k (satAdd 64 (tget 0 t k) n)

def cntQe (s : State) (k : Nat) : State := { s with qe := { s.qe with cnt := bump s.qe.cnt k 1 } }
def cntFab (s : State) (k n : Nat) : State := { s with fab := { s.fab with cnt := bump s.fab.cnt k n } }
def cntFl (s : State) (k n : Nat) : State := { s with fl := { s.fl with cnt := bump s.fl.cnt k n } }
def cntTs (s : State) (k n : Nat) : State := { s with ts := { s.ts with cnt := bump s.ts.cnt k n } }
def cntEr (s : State) (k n : Nat) : State := { s with er := { s.er with cnt := bump s.er.cnt k n } }

def emit (s : State) (o : Out) : State := { s with out := s.out ++ [o] }

/-! ### Free values -/

/-- Draws a fresh free value's number. -/
def draw (s : State) : Nat × State := (s.freeCtr, { s with freeCtr := s.freeCtr + 1 })

/-! ### Host memory (11 R343) -/

/-- Bytes of host memory as the node sees them. -/
def hostRead (s : State) (a n : Nat) : List Byte := memRead s.hostMem a n

/-- Whether the node may reach host memory for tenant t: the link is up (15 R469) and no function level reset has ended the function's access (11 R373). -/
def hostOpen (s : State) (t : Nat) : Bool := s.pw.hostUp && !(getT s t).flr

/-- A write to host memory for tenant t; discarded while access is closed. Host memory is one address space for every function (DESIGN CHOICE, log entry 57): R343 gives each access its function's requester ID and does not say how the functions' addresses relate. -/
def hostWrite (s : State) (t a : Nat) (bs : List Byte) : State :=
  if hostOpen s t then { s with hostMem := memWrite s.hostMem a bs } else s

/-- An MSI-X message of function fn; a masked entry of its table keeps it pending. -/
def msix (s : State) (fn vector : Nat) : State :=
  let k := fn * 128 + vector
  let e := tget {} s.qe.msix k
  if e.masked then { s with qe := { s.qe with msix := tset s.qe.msix k { e with pending := true } } }
  else if hostOpen s fn then emit s (.msix fn vector)
  else s

/-! ### Units and events (13 R406 to R412) -/

def unitCode (kind idx : Nat) : Nat := kind * 2 ^ 24 + idx
def sqUnit (n : Nat) : Nat := unitCode 0x01 n
def stackUnit (c : Nat) : Nat := unitCode 0x02 c
def engineUnit (c ce : Nat) : Nat := unitCode 0x04 (c + 64 * ce)
def linkUnit (l : Nat) : Nat := unitCode 0x05 l
def qeUnit : Nat := unitCode 0x06 0
def guardUnit (d : Nat) : Nat := unitCode 0x07 d
def tsUnit : Nat := unitCode 0x08 0
def nmcUnit : Nat := unitCode 0x09 0
def sensorUnit (n : Nat) : Nat := unitCode 0x0A n

def setAlert (s : State) (v : Bool) : State :=
  if s.pw.alertN = v then s else emit { s with pw := { s.pw with alertN := v } } (.pin 0 v)

/-- Raises an event (13 R409, R411, R412): it takes its SEQ; the record is written while the ring has room; then MSI-X and ALERT_n. -/
def raise (s : State) (code cls tenant unit d0 d1 d2 : Nat) : State :=
  let e := s.er
  let r : EvRec := ⟨e.nextSeq, code, cls, tenant, s.tempo, unit, d0, d1, d2⟩
  let e1 := { e with nextSeq := (e.nextSeq + 1) % 2 ^ 32, cnt := bump e.cnt 14 1 }
  if (e.tail + 1) % 1024 = e.head then
    { s with er := { e1 with lost := satAdd 32 e.lost 1 } }
  else
    let s1 := { s with er := { e1 with log := tset e.log e.tail r, tail := (e.tail + 1) % 1024 } }
    let s2 := if e.irqEn then msix s1 0 e.vector else s1
    if cls = 1 || cls = 3 || e.alertAll then setAlert s2 true else s2

/-- Counts an error at its unit (13 R406). -/
def countUnit (s : State) (unit : Nat) (corrected : Bool) (loc : Nat) : State :=
  let u := tget {} s.er.units unit
  let u' : UnitCnt :=
    { corrected := if corrected then satAdd 32 u.corrected 1 else u.corrected
      uncorrected := if corrected then u.uncorrected else satAdd 32 u.uncorrected 1
      location := loc % 2 ^ 40, time := s.tempo }
  { s with er := { s.er with units := tset s.er.units unit u' } }

/-- An error that is logged at once: counter n, unit, then the event. -/
def errEvent (s : State) (cnt code tenant unit loc d0 d1 d2 : Nat) : State :=
  raise (countUnit (cntEr s cnt 1) unit false loc) code 2 tenant unit d0 d1 d2

/-- An error that is logged at the end of the move (13 R410): counted now. -/
def moveError (s : State) (cnt code unit w1 w2 loc : Nat) : State :=
  let s1 := countUnit (cntEr s cnt 1) unit true loc
  let es := s1.er.moveCnts
  let es' :=
    if es.any (fun e => e.code == code && e.unit == unit) then
      es.map (fun e => if e.code = code ∧ e.unit = unit then { e with count := e.count + 1, word1 := w1, word2 := w2 } else e)
    else es ++ [⟨code, unit, 1, w1, w2⟩]
  { s1 with er := { s1.er with moveCnts := es' } }

/-- A report of R328: sent to the fabric manager and recorded as an event. -/
def report (s : State) (code cls tenant unit d0 d1 d2 : Nat) : State :=
  raise (emit s (.report code [d0, d1, d2])) code cls tenant unit d0 d1 d2

/-- An access to an unimplemented offset (00 R7, 13 R410). -/
def barUnimplEvent (s : State) (fn off : Nat) (write : Bool) : State :=
  errEvent s 0 0x0001 fn qeUnit off off (b2n write) fn

/-! ### Calibration (13 R426) -/

/-- The effective values of the items that `which` names take effect (R427). -/
def calTake (s : State) (which : Nat → Bool) : State :=
  { s with cal := { s.cal with items := s.cal.items.map (fun e => if which e.1 then (e.1, { e.2 with pending := false }) else e) } }

/-- Items of one kind. -/
def calOf (item k : Nat) : Bool := k / 2 ^ 24 == item

/-! ### Objects (08 R221) -/

def findObj (s : State) (t n : Nat) : Option Obj :=
  s.ms.objs.find? (fun o => o.tenant == t && o.num == n)

def setObjs (s : State) (os : List Obj) : State := { s with ms := { s.ms with objs := os } }

def putObj (s : State) (o : Obj) : State :=
  if (findObj s o.tenant o.num).isSome then
    setObjs s (s.ms.objs.map (fun x => if x.tenant = o.tenant ∧ x.num = o.num then o else x))
  else setObjs s (s.ms.objs ++ [o])

def delObj (s : State) (t n : Nat) : State :=
  setObjs s (s.ms.objs.filter (fun o => !(o.tenant == t && o.num == n)))

def unitOf (tier sqCount : Nat) : Nat :=
  match tier with
  | 0 => 65536 * sqCount
  | 3 => 16384
  | _ => 524288

def findIndex (s : State) (t n : Nat) : Option Index :=
  s.indexes.find? (fun i => i.tenant == t && i.num == n)

def putIndex (s : State) (i : Index) : State :=
  if (findIndex s i.tenant i.num).isSome then
    { s with indexes := s.indexes.map (fun x => if x.tenant = i.tenant ∧ x.num = i.num then i else x) }
  else { s with indexes := s.indexes ++ [i] }

/-! ### Squares and ranks -/

/-- Physical index of a Square (02 R32). -/
def physIdx (die rank file : Nat) : Nat := die * 136 + rank * 17 + file
def rankIdx (die rank : Nat) : Nat := die * 8 + rank
def rankOfSq (n : Nat) : Nat := n / 136 * 8 + n % 136 / 17
def fileOfSq (n : Nat) : Nat := n % 17 -- 136 is a multiple of 17

/-- The physical Square that carries the work of an active Square (03 R88, R90). -/
def carrierOf (s : State) (e : SqEntry) : Nat :=
  let r := getRank s (rankIdx e.die e.rank)
  if r.castled && r.castleFile == e.file then physIdx e.die e.rank 16 else physIdx e.die e.rank e.file

/-- The physical Square that carries what stands under a physical index in the base layer (03 R88, R89). -/
def carrierOfPhys (s : State) (n : Nat) : Nat :=
  let r := getRank s (rankOfSq n)
  if r.castled && r.castleFile == fileOfSq n then physIdx (n / 136) (n % 136 / 17) 16 else n

/-- Physical Squares of a Position, by logical index. -/
def carriers (s : State) (p : Position) : List Nat := p.squares.map (carrierOf s)

def ctxBusy (c : Ctx) : Bool := c.st != .free

/-- Occupied context slots of a tenant. -/
def busyOf (s : State) (t : Nat) : Nat :=
  (s.squares.map (fun e => (e.2.ctxs.filter (fun c => ctxBusy c.2 && c.2.tenant == t)).length)).sum

def busyRank (s : State) (r : Nat) : Nat :=
  (s.squares.map (fun e => if rankOfSq e.1 = r then (e.2.ctxs.filter (fun c => ctxBusy c.2)).length else 0)).sum

/-- The part of a read that has not left: a request of context c for read r lies in the Square's request buffer until it has (03 R71). -/
def inReqBuf (s : State) (n c r : Nat) : Bool := (getSq s n).reqBuf.contains (c, r)
def addReqBuf (s : State) (n c r : Nat) : State := setSq s n { getSq s n with reqBuf := (getSq s n).reqBuf ++ [(c, r)] }

/-- Takes a request out of the buffer once every element of it has left. -/
def trimReqBuf (s : State) (n c r : Nat) : State :=
  if (getCtx s n c).elems.any (fun e => e.1 / 16 == r && !e.2.left) then s
  else setSq s n { getSq s n with reqBuf := (getSq s n).reqBuf.filter (fun x => x != (c, r)) }

/-- Frees a context slot, or marks it ended while reads are outstanding (03 R78). -/
def endCtx (s : State) (n c : Nat) (status : Nat) : State :=
  let x := getCtx s n c
  if x.elems.all (fun e => e.2.returned) then setCtx s n c {}
  else setCtx s n c { x with ended := some status, st := .waitMem, job := .none }

/-! ### Streams (02 R35, R38) -/

def stKey (owner stream : Nat) : Nat := owner * 256 + stream
def getStream (s : State) (owner stream : Nat) : StreamSt := tget {} s.bd.streams (stKey owner stream)
def setStream (s : State) (owner stream : Nat) (v : StreamSt) : State :=
  { s with bd := { s.bd with streams := tset s.bd.streams (stKey owner stream) v } }

def streamOf (s : State) (owner stream : Nat) : Option Stream :=
  if owner = 0x7F then (s.bd.layer.map (fun b => b.streams)).bind (fun l => l[stream]?)
  else (posOf s owner).bind (fun p => p.streams[stream]?)

/-- A payload becomes a token of the stream. -/
def addToken (s : State) (owner stream : Nat) (t : Token) : State :=
  let st := getStream s owner stream
  setStream s owner stream { st with tokens := st.tokens ++ [t] }

/-- The physical Square behind a unit code, as the owner of the stream names it (02 R32; 03 R89). -/
def sqOfUnit (s : State) (owner code : Nat) : Option Nat :=
  if code / 2 ^ 24 ≠ 1 then none
  else if owner = 0x7F then some (carrierOfPhys s (code % 2 ^ 24))
  else (posOf s owner).bind (fun p => (carriers s p)[code % 2 ^ 24]?)

/-- The runs that an owner holds, and its streams. -/
def ownerRuns (s : State) (owner : Nat) : List Run :=
  if owner = 0x7F then (match s.bd.layer with | some b => b.runs | none => []) else (match posOf s owner with | some p => p.runs | none => [])
def ownerStreams (s : State) (owner : Nat) : List Stream :=
  if owner = 0x7F then (match s.bd.layer with | some b => b.streams | none => []) else (match posOf s owner with | some p => p.streams | none => [])

/-- The first stream of the owner, by number, of which `f` holds. -/
def findStream (s : State) (owner : Nat) (f : Nat → Stream → Bool) : Option Nat :=
  let l := ownerStreams s owner
  ((List.zip (List.range l.length) l).find? (fun x => f x.1 x.2)).map Prod.fst

/-- The runs of the loaded image: of the base layer and of every Position (02 R37). -/
def allRuns (s : State) : List Run :=
  (match s.bd.layer with | some b => b.runs | none => []) ++ (s.bd.positions.map (fun e => e.2.runs)).flatten

/-! ### Descriptors and completions (11 R351 to R364) -/

def descOp (d : Desc) : Nat := fieldAt d.bytes 0 1
def descTag (d : Desc) : Nat := fieldAt d.bytes 8 8
def descIrq (d : Desc) : Bool := bit (fieldAt d.bytes 1 1) 0
def dfield (d : Desc) (o n : Nat) : Nat := fieldAt d.bytes o n

def findDesc (s : State) (q : QId) (seq : Nat) : Option Desc :=
  s.qe.descs.find? (fun d => d.q == q && d.seq == seq)

def setDescs (s : State) (ds : List Desc) : State := { s with qe := { s.qe with descs := ds } }

def putDesc (s : State) (d : Desc) : State :=
  setDescs s (s.qe.descs.map (fun x => if x.n = d.n then d else x))

def addRec (s : State) (r : Rec) : State := { s with qe := { s.qe with recs := s.qe.recs ++ [r] } }

def getTt (s : State) (q : QId) (seq : Nat) : TtEntry := tget {} (getQ s q).tt (seq % 1024)
def setTt (s : State) (q : QId) (seq : Nat) (e : TtEntry) : State :=
  setQ s q { getQ s q with tt := tset (getQ s q).tt (seq % 1024) e }

/-- The commit step (11 R359): PENDING becomes COMMITTED. -/
def commit (s : State) (d : Desc) : State := setTt s d.q d.seq ⟨d.seq, .committed, 0⟩

/-- Whether a descriptor is still PENDING. -/
def isPending (s : State) (d : Desc) : Bool := (getTt s d.q d.seq).st == .pending
def isCommitted (s : State) (d : Desc) : Bool := (getTt s d.q d.seq).st == .committed

/-- Records of the duplicates that wait on an original, in acceptance order (11 R353, R364). -/
def dupRecs (s : State) (q : QId) (seq status : Nat) : State :=
  let mine := s.qe.dups.filter (fun u => u.q == q && u.seq == seq)
  let s1 := { s with qe := { s.qe with dups := s.qe.dups.filter (fun u => !(u.q == q && u.seq == seq)) } }
  mine.foldl (fun a u => addRec a { n := u.n, q := q, seq := seq, status := 0x02, orig := status, opcode := u.opcode, tag := u.tag, irq := u.irq }) s1

/-- Frees the entry context of a descriptor, if it holds one. -/
def freeEntry (s : State) (d : Desc) (status : Nat) : State :=
  match d.phase with
  | .placed n c => endCtx s n c status
  | _ => s

/-- The record of a descriptor. -/
def recOf (d : Desc) (status rflags detail epoch notBefore : Nat) : Rec :=
  { n := d.n, q := d.q, seq := d.seq, status := status, orig := status, opcode := descOp d, rflags := rflags,
    deferred := d.deferred, yellow := d.yellow, detail := detail, tag := descTag d, epoch := epoch,
    notBefore := notBefore, irq := descIrq d }

/-- The chunks of a BANK_OP that has ended run no more (08 R248). -/
def dropChunks (s : State) (d : Desc) : State :=
  match d.work with
  | .bank _ _ => { s with bd := { s.bd with streams := s.bd.streams.map (fun e =>
      (e.1, { e.2 with tokens := e.2.tokens.filter (fun t => t.load != .chunk d.q d.seq) })) } }
  | _ => s

/-- Takes a descriptor off the list of the uncompleted ones and frees its context. -/
def dropDesc (s : State) (d : Desc) (status : Nat) : State :=
  let s1 := dropChunks (freeEntry s d status) d
  let s2 := setDescs s1 (s1.qe.descs.filter (fun x => x.n != d.n))
  { s2 with fab := { s2.fab with sent := s2.fab.sent.filter (fun m => !(m.q == d.q && m.seq == d.seq)) } }

/-- Completes a descriptor: its table entry becomes COMPLETE with the status (11 R354), its record waits, then those between it and its duplicates (`mid`, the ABORT's), then the duplicates'. -/
def completeWith (s : State) (d : Desc) (status rflags detail epoch notBefore : Nat) (mid : List Rec) : State :=
  let s1 := setTt (dropDesc s d status) d.q d.seq ⟨d.seq, .complete, status⟩
  dupRecs ((recOf d status rflags detail epoch notBefore :: mid).foldl addRec s1) d.q d.seq status

def complete (s : State) (d : Desc) (status : Nat) : State := completeWith s d status 0 0 0 0 []
def completeDetail (s : State) (d : Desc) (status detail : Nat) : State := completeWith s d status 0 detail 0 0 []

/-! ### Statuses (11 R362) -/

def stDone : Nat := 0x00
def stDoneShort : Nat := 0x01
def stAlready : Nat := 0x03
def stAborted : Nat := 0x04
def stStale : Nat := 0x11
def stRate : Nat := 0x12
def stNoRes : Nat := 0x13
def stProtected : Nat := 0x14
def stMalformed : Nat := 0x15
def stMedia : Nat := 0x20
def stMemory : Nat := 0x21
def stRemote : Nat := 0x22
def stTeardown : Nat := 0x23
def stHost : Nat := 0x24

/-! ### Access to BAR0 (14 R443, R448, R459) -/

/-- Every block of BAR0 answers: the node is ACTIVE or QUIESCING with its host link up. -/
def barFull (s : State) : Bool :=
  s.pw.hostUp && (s.pw.pstate == 2 || s.pw.pstate == 3) && !s.nmc.recovery

/-- The NMC_ and PW_ blocks answer. -/
def barNmc (s : State) : Bool :=
  s.pw.hostUp && (s.pw.pstate == 2 || s.pw.pstate == 3 || s.pw.pstate == 4 || s.nmc.recovery)

/-- Whether tenant t's credits are stopped (11 R357). -/
def creditsStopped (s : State) (t : Nat) : Bool :=
  let x := getT s t
  x.tornDown || x.retiring || x.resetting.isSome

/-- Whether a queue's credits are stopped; the admin queue's are only by quiescing (14 R458). -/
def qStopped (s : State) (q : QId) : Bool :=
  match q with
  | .admin => s.pw.pstate == 3
  | .tenant t _ => creditsStopped s t

/-- A queue enters ENABLED (11 R349, R357): ring and window anew, and a credit record with the credits that it grants; none while the credits are stopped. -/
def enterEnabled (s : State) (q : QId) : State :=
  let v := getQ s q
  let cm := if v.creditsMax = 0 ∨ 64 < v.creditsMax then 64 else v.creditsMax
  let n := if qStopped s q then 0 else cm
  addRec (setQ s q { v with qstate := 2, tail := 0, phase := true, high := none, tt := [], avail := n }) { q := q, creditOnly := true, creditReset := true, grant := n }

/-- A queue is drained: no accepted descriptor of it is uncompleted, and every record of one is written. -/
def drained (s : State) (q : QId) : Bool :=
  s.qe.descs.all (fun d => d.q != q) && s.qe.dups.all (fun d => d.q != q) && s.qe.recs.all (fun r => r.q != q || r.creditOnly)

/-- A queue enters DISABLED (11 R348): a credit record that still waits is not written, and AVAIL stays, since no rule of R357 changes it then. -/
def disableQueue (s : State) (q : QId) : State :=
  let s1 := setQ s q { getQ s q with qstate := 0 }
  { s1 with qe := { s1.qe with recs := s1.qe.recs.filter (fun r => r.q != q) } }

/-- Free pool queues out of 4,095 (11 R346, R374). -/
def poolUsed (s : State) : List Nat :=
  (s.bd.positions.map (fun e => (List.range e.2.queues).map (fun q => (getQ s (.tenant e.1 q)).pool))).flatten

def poolFree (s : State) : Nat := 4095 - (poolUsed s).length

/-- Requester checks: only tenant 0 writes the node's blocks (00, 11 R377). -/
def isPf (fn : Nat) : Bool := fn == 0

/-- The NMC runs firmware or the boot ROM's loader. -/
def nmcRuns (s : State) : Bool := s.pw.powered && (s.nmc.recovery || s.nmc.fwDigest.isSome)

/-- A write of one of tenant 0's registers with a row of its own: carried out when the block answers and the physical function asks; else treated as R7 or ignored. -/
def pfWrite (s : State) (fn off : Nat) (eff : State → State) : State :=
  if barFull s then (if isPf fn then eff s else s)
  else if barNmc s then barUnimplEvent s fn off true
  else s

end Sys2Proof.Machine
end

