-- ==== Sys2Proof/Machine/Float.lean ====
section
/-! DEFINITION. FP32 arithmetic, exact and then rounded to nearest even (04 R100 to R105), and the conversions to narrower formats. -/

namespace Sys2Proof.Machine

open Sys2Proof

/-- A decoded value: a finite one is sign, m and e, for m × 2^e. -/
inductive FV where
  | nan
  | inf (neg : Bool)
  | fin (neg : Bool) (m : Nat) (e : Int)
  deriving DecidableEq, Repr

/-- The exponent of the least subnormal of a format with `eb` exponent bits and `mb` fraction bits. -/
def fmtMin (eb mb : Nat) : Int := 2 - (2 ^ (eb - 1) : Int) - mb

/-- Decodes the IEEE-like encoding; `ieee` says whether the top exponent holds infinity and NaN (E4M3 has only one NaN code). -/
def decodeF (eb mb : Nat) (ieee : Bool) (v : Nat) : FV :=
  let f := v % 2 ^ mb
  let x := v / 2 ^ mb % 2 ^ eb
  let neg := v / 2 ^ (mb + eb) % 2 = 1
  if ieee ∧ x = 2 ^ eb - 1 then (if f = 0 then .inf neg else .nan)
  else if ¬ ieee ∧ x = 2 ^ eb - 1 ∧ f = 2 ^ mb - 1 then .nan
  else if x = 0 then .fin neg f (fmtMin eb mb)
  else .fin neg (2 ^ mb + f) (fmtMin eb mb + (x - 1 : Int))

/-- Rounds m × 2^e, plus a positive remainder below the last bit when `sticky`, to the encoding without its sign; nearest, ties to even; no overflow check. -/
def roundMag (eb mb m : Nat) (e : Int) (sticky : Bool) : Nat :=
  if m = 0 then 0
  else
    let lo := fmtMin eb mb
    let q := max (e + (Nat.log2 m : Int) - mb) lo
    let sh := q - e
    let r :=
      if sh ≤ 0 then m * 2 ^ (-sh).toNat
      else
        let k := sh.toNat
        let w := m / 2 ^ k
        let rem := m % 2 ^ k
        let half := 2 ^ (k - 1)
        if half < rem ∨ (rem = half ∧ (sticky ∨ w % 2 = 1)) then w + 1 else w
    if r < 2 ^ mb then r else (q - lo + 1).toNat * 2 ^ mb + (r - 2 ^ mb)

def signed (eb mb : Nat) (neg : Bool) (mag : Nat) : Nat := b2n neg * 2 ^ (eb + mb) + mag

/-- Rounds to FP32; overflow gives infinity (R102). -/
def rnMag32 (neg : Bool) (m : Nat) (e : Int) (sticky : Bool) : F32 :=
  BitVec.ofNat 32 (signed 8 23 neg (min (roundMag 8 23 m e sticky) 0x7F800000))

def fNaN : F32 := 0x7FC00000
def fZero : F32 := 0x00000000
def fOne : F32 := 0x3F800000

def dec (x : F32) : FV := decodeF 8 23 true x.toNat

def enc : FV → F32
  | .nan => fNaN
  | .inf neg => BitVec.ofNat 32 (signed 8 23 neg 0x7F800000)
  | .fin neg m e => rnMag32 neg m e false

def isNaN (x : F32) : Bool := decide (0x7F800000 < x.toNat % 2 ^ 31)
def isFinite (x : F32) : Bool := decide (x.toNat % 2 ^ 31 < 0x7F800000)
def isZero (x : F32) : Bool := x.toNat % 2 ^ 31 == 0
def fneg (x : F32) : F32 := x ^^^ 0x80000000
def fabs (x : F32) : F32 := x &&& 0x7FFFFFFF

/-- The value's place in the order of numbers; both zeros are 0. -/
def ord (x : F32) : Int := if x.toNat < 2 ^ 31 then x.toNat else -((x.toNat - 2 ^ 31 : Nat) : Int)
def flt (a b : F32) : Bool := !isNaN a && !isNaN b && decide (ord a < ord b)
def fle (a b : F32) : Bool := !isNaN a && !isNaN b && decide (ord a ≤ ord b)
def feq (a b : F32) : Bool := !isNaN a && !isNaN b && decide (ord a = ord b)
/-- Finite and greater than 0. -/
def fpos (x : F32) : Bool := isFinite x && decide (0 < ord x)

def sgn (neg : Bool) (m : Nat) : Int := if neg then -(m : Int) else m

/-- Exact sum, rounded once (R102). An exact zero is +0 unless both operands are −0. -/
def fadd (a b : F32) : F32 :=
  match dec a, dec b with
  | .nan, _ => fNaN
  | _, .nan => fNaN
  | .inf x, .inf y => if x = y then a else fNaN
  | .inf _, _ => a
  | _, .inf _ => b
  | .fin x m e, .fin y n f =>
    let q := min e f
    let v := sgn x (m * 2 ^ (e - q).toNat) + sgn y (n * 2 ^ (f - q).toNat)
    if v = 0 then (if x && y then 0x80000000 else fZero) else rnMag32 (decide (v < 0)) v.natAbs q false

def fsub (a b : F32) : F32 := if isNaN b then fNaN else fadd a (fneg b)

def fmul (a b : F32) : F32 :=
  match dec a, dec b with
  | .nan, _ => fNaN
  | _, .nan => fNaN
  | .inf x, .inf y => enc (.inf (x != y))
  | .inf x, .fin y n _ => if n = 0 then fNaN else enc (.inf (x != y))
  | .fin x m _, .inf y => if m = 0 then fNaN else enc (.inf (x != y))
  | .fin x m e, .fin y n f => rnMag32 (x != y) (m * n) (e + f) false

/-- The quotient of two values rounded once to a format. -/
def divTo (eb mb : Nat) (a b : FV) : FV ⊕ (Bool × Nat) :=
  match a, b with
  | .nan, _ => .inl .nan
  | _, .nan => .inl .nan
  | .inf _, .inf _ => .inl .nan
  | .inf x, .fin y _ _ => .inl (.inf (x != y))
  | .fin x _ _, .inf y => .inr (x != y, 0)
  | .fin x m e, .fin y n f =>
    if n = 0 then (if m = 0 then .inl .nan else .inl (.inf (x != y)))
    else
      let w := m * 2 ^ 64
      .inr (x != y, roundMag eb mb (w / n) (e - f - 64) (w % n != 0))

def fdiv (a b : F32) : F32 :=
  match divTo 8 23 (dec a) (dec b) with
  | .inl v => enc v
  | .inr (neg, r) => BitVec.ofNat 32 (signed 8 23 neg (min r 0x7F800000))

/-- Integer square root, bit by bit from bit k − 1. -/
def isqrtFrom (n : Nat) : Nat → Nat → Nat
  | 0, r => r
  | k + 1, r => let c := r + 2 ^ k; isqrtFrom n k (if c * c ≤ n then c else r)

def isqrt (n : Nat) : Nat := isqrtFrom n (Nat.log2 n / 2 + 1) 0

/-- m × 2^e with an even exponent. -/
def evenExp (m : Nat) (e : Int) : Nat × Int := if e % 2 = 0 then (m, e) else (2 * m, e - 1)

def fsqrt (a : F32) : F32 :=
  match dec a with
  | .nan => fNaN
  | .inf neg => if neg then fNaN else a
  | .fin neg m e =>
    if m = 0 then a
    else if neg then fNaN
    else
      let (m1, e1) := evenExp m e
      let w := m1 * 2 ^ 80
      let r := isqrt w
      rnMag32 false r (e1 / 2 - 40) (r * r != w)

/-- rn32(1 ÷ sqrt(a)), correctly rounded in one step (R111); a is greater than 0. -/
def frsqrt (a : F32) : F32 :=
  match dec a with
  | .fin false m e =>
    if m = 0 then 0x7F800000
    else
      let (m1, e1) := evenExp m e
      let w := 2 ^ 128 / m1
      let r := isqrt w
      rnMag32 false r (-64 - e1 / 2) (r * r * m1 != 2 ^ 128)
  | .inf false => fZero
  | _ => fNaN

/-- FP32 of an integer, rounded to nearest even. -/
def fofInt (i : Int) : F32 := rnMag32 (decide (i < 0)) i.natAbs 0 false
def fofNat (n : Nat) : F32 := rnMag32 false n 0 false

/-! ### Narrower formats (R103) -/

def bfOfMag (neg : Bool) (mag : Nat) : BitVec 16 := BitVec.ofNat 16 (signed 8 7 neg (min mag 0x7F80))

/-- rn_bf16 of an FP32 value. R103's column for finite values above the largest finite BF16 is read of the value as rounded: one that rounds to nearest to 0x7F7F does so (DESIGN CHOICE, log entry 76). -/
def toBf (x : F32) : BitVec 16 :=
  match dec x with
  | .nan => 0x7FC0
  | .inf neg => bfOfMag neg 0x7F80
  | .fin neg m e => bfOfMag neg (roundMag 8 7 m e false)

def ofBf (b : BitVec 16) : F32 := BitVec.ofNat 32 (b.toNat * 65536)

/-- rn_bf16(a ÷ b), correctly rounded in one step (R112, R117). -/
def bfDiv (a b : F32) : BitVec 16 :=
  match divTo 8 7 (dec a) (dec b) with
  | .inl .nan => 0x7FC0
  | .inl (.inf neg) => bfOfMag neg 0x7F80
  | .inl (.fin neg _ _) => bfOfMag neg 0
  | .inr (neg, r) => bfOfMag neg r

def toE5 (x : F32) : Byte :=
  match dec x with
  | .nan => 0x7F
  | .inf neg => BitVec.ofNat 8 (signed 5 2 neg 0x7C)
  | .fin neg m e => BitVec.ofNat 8 (signed 5 2 neg (min (roundMag 5 2 m e false) 0x7B))

def toE4 (x : F32) : Byte :=
  match dec x with
  | .nan => 0x7F
  | .inf neg => BitVec.ofNat 8 (signed 4 3 neg 0x7E)
  | .fin neg m e => BitVec.ofNat 8 (signed 4 3 neg (min (roundMag 4 3 m e false) 0x7E))

def ofE5 (b : Byte) : F32 := enc (decodeF 5 2 true b.toNat)
def ofE4 (b : Byte) : F32 := enc (decodeF 4 3 false b.toNat)

/-- INT8, toward zero (R103). -/
def toI8 (x : F32) : Int :=
  match dec x with
  | .nan => 0
  | .inf neg => if neg then -127 else 127
  | .fin neg m e =>
    let mag := if e < 0 then m / 2 ^ (-e).toNat else m * 2 ^ e.toNat
    sgn neg (min mag 127)

/-! ### Sums (R118) -/

/-- Terms cut into groups of 32; the last may be shorter. -/
def groupsOf {α : Type} : Nat → List α → List (List α)
  | 0, _ => []
  | n + 1, l => if l.isEmpty then [] else l.take 32 :: groupsOf n (l.drop 32)

def chunk32 {α : Type} (l : List α) : List (List α) := groupsOf (l.length / 32 + 1) l

def sum32 (l : List F32) : F32 := l.foldl fadd fZero

/-- score_sum without weights. -/
def sumPlain (t : List F32) : F32 := (chunk32 t).foldl (fun s g => fadd s (sum32 g)) fZero

/-- score_sum with a weight for each group. -/
def sumWeighted (t w : List F32) : F32 :=
  (List.zip (chunk32 t) w).foldl (fun s gw => fadd s (fmul (sum32 gw.1) gw.2)) fZero

/-- score_sum of integer terms with weights. -/
def sumInts (t : List Int) (w : List F32) : F32 :=
  (List.zip (chunk32 t) w).foldl (fun s gw => fadd s (fmul (fofInt (gw.1.foldl (· + ·) 0)) gw.2)) fZero

/-- A list of FP32 values from bytes. -/
def f32s : List Byte → List F32
  | a :: b :: c :: d :: r => BitVec.ofNat 32 (leNat [a, b, c, d]) :: f32s r
  | _ => []

def f32Bytes (l : List F32) : List Byte := l.flatMap (fun x => toLE 4 x.toNat)

end Sys2Proof.Machine
end

