-- ==== Sys2Proof/Machine/Layout.lean ====
section
/-! DEFINITION. The layouts that descriptors and records share: reserved fields of each opcode (11 R350, R361), the index record (05 R128, R129; 04 R106, R107), tensor shapes (08 R235 to R237) and the bytes a descriptor reads from host memory (11 R369). -/

namespace Sys2Proof.Machine

open Sys2Proof

/-! ### Opcodes (11 R361) -/

def entryOps : List Nat := [0x01, 0x02, 0x03, 0x08, 0x09, 0x0A]
def tenantOps : List Nat := entryOps ++ [0x10, 0x11, 0x12, 0x14, 0x15, 0x16, 0x18, 0x28, 0x29, 0x2A]
def anyOps : List Nat := [0x30, 0x38, 0x3F]
def adminOps : List Nat := [0x80, 0x81, 0x82, 0x83, 0x84, 0x85, 0x86]

/-- Whether the opcode occupies an entry context (03 R76). -/
def needsEntry (op : Nat) : Bool := entryOps.contains op

/-- Known, and valid on the queue that it stands on. -/
def opOnQueue (q : QId) (op : Nat) : Bool :=
  anyOps.contains op || (if isAdmin q then adminOps.contains op else tenantOps.contains op)

/-- ABORT and the admin opcodes are not metered (11 R361). -/
def metered (op : Nat) : Bool := tenantOps.contains op || op == 0x38 || op == 0x3F

/-- The reserved fields of a descriptor are 0 (00 R8, 11 R350). PROMOTE checks its own (13 R420). -/
def reservedOk (b : List Byte) : Bool :=
  let z := zeroAt b
  let hi (o k : Nat) : Bool := decide (fieldAt b o 1 / 2 ^ k = 0)
  hi 1 1 && z 2 2 &&
  match fieldAt b 0 1 with
  | 0x01 => hi 46 4 && z 60 4
  | 0x02 => hi 47 4 && z 60 4
  | 0x03 => hi 52 2 && z 53 3
  | 0x08 => z 41 1 && z 48 16
  | 0x09 => z 38 2 && z 48 16
  | 0x0A => z 41 1 && z 48 16
  | 0x10 => hi 38 3 && z 39 1
  | 0x11 => z 39 1
  | 0x12 => z 41 1 && z 46 18
  | 0x14 => z 40 24
  | 0x15 => z 48 16
  | 0x16 => z 20 4 && z 36 28
  | 0x18 => z 42 22
  | 0x28 => hi 53 2 && z 54 10
  | 0x29 => hi 57 2 && z 58 6
  | 0x2A => hi 29 2 && z 30 2 && z 36 28
  | 0x30 => z 20 44
  | 0x38 => z 17 47
  | 0x3F => z 16 48
  | 0x80 => z 28 36
  | 0x81 => hi 17 1 && z 18 46
  | 0x82 => true
  | 0x83 => hi 17 1 && z 18 46
  | 0x84 => z 17 47
  | 0x85 => hi 22 1 && z 23 41
  | 0x86 => hi 28 1 && z 29 35
  | _ => true

/-! ### The index record -/

structure IdxRec where
  parts : Nat
  degree : Nat
  tomb : Bool                      -- UPDATE_MODE TOMBSTONE
  attr : Nat
  routerOff : Nat
  dirOff : Nat
  delObj : Nat
  fmt : Nat
  metric : Nat
  pre : Nat
  lb : Nat
  dim : Nat
  adapt : Bool
  shift : Nat
  alpha : F32
  seed : Nat
  cb : List F32
  scales : List (BitVec 16)
  factors : List F32
  len : Nat                        -- bytes of the whole record
  deriving DecidableEq, Repr

/-- The padded dimension count D′ (04 R108). -/
def padDim (pre lb dim : Nat) : Nat := if pre = 1 then roundUp dim (2 ^ lb) else roundUp dim 32

def IdxRec.dp (r : IdxRec) : Nat := padDim r.pre r.lb r.dim
def IdxRec.groups (r : IdxRec) : Nat := r.dp / 32
def IdxRec.codeLen (r : IdxRec) : Nat := if r.fmt = 1 then r.dp / 8 else if r.fmt = 2 then r.dp / 2 else r.dp
def IdxRec.hasNorm (r : IdxRec) : Bool := r.metric == 0 && r.fmt != 1

/-- L_nav (05 R129). -/
def IdxRec.lnav (r : IdxRec) : Nat := roundUp (16 + r.codeLen + (if r.hasNorm then 4 else 0)) 8
def IdxRec.lside (r : IdxRec) : Nat := r.lnav + 24

/-- Router table stride (05 R131). -/
def IdxRec.stride (r : IdxRec) : Nat := roundUp (2 * r.dim + 4) 64

/-- Vector record size V_r (05 R134). -/
def IdxRec.vr (r : IdxRec) : Nat := roundUp (4 * r.dim + r.attr) 64

/-- Input entry size of an INSERT (07 R201). -/
def IdxRec.entrySize (r : IdxRec) : Nat := roundUp (16 + 4 * r.dim + r.attr) 64

def bfAt (m : Mem) (o : Nat) : BitVec 16 := BitVec.ofNat 16 (memLE m o 2)
def bfOk (b : BitVec 16) : Bool := isFinite (ofBf b) && b != 0x8000

def ascending : List F32 → Bool
  | a :: b :: r => flt a b && ascending (b :: r)
  | _ => true

def disjointR (a n b m : Nat) : Bool := decide (a + n ≤ b) || decide (b + m ≤ a) || n == 0 || m == 0

/-- Reads an index record at offset 0 of `avail` bytes and applies the refusals of R107 and R129. -/
def parseIdx (m : Mem) (avail : Nat) : Option IdxRec :=
  let rd (o n : Nat) := memLE m o n
  let fmt := rd 32 1
  let pre := rd 34 1
  let lb := rd 35 1
  let dim := rd 36 2
  let e := if fmt = 2 then 16 else if fmt = 3 then 256 else 0
  let g := padDim pre lb dim / 32
  let sOff := 64 + 2 * e
  let fOff := sOff + (if fmt = 1 then 0 else 2 * g)
  let len := fOff + (if pre = 2 then 4 * dim else 0)
  let al := BitVec.ofNat 16 (rd 40 2)
  let headOk :=
    decide (64 ≤ avail) && decide (1 ≤ rd 0 2 ∧ rd 0 2 ≤ 16384) && decide (8 ≤ rd 2 1 ∧ rd 2 1 ≤ 64 ∧ rd 2 1 % 8 = 0)
      && decide (rd 3 1 ≤ 1) && decide (rd 4 2 ≤ 256 ∧ rd 4 2 % 8 = 0) && rd 6 2 == 0 && rd 8 4 % 4096 == 0 && rd 12 4 % 4096 == 0
      && (if rd 3 1 = 0 then decide (rd 16 4 ≤ 0xFFFE) else rd 16 4 == 0xFFFFFFFF) && rd 20 12 == 0
      && decide (1 ≤ fmt ∧ fmt ≤ 3) && decide (rd 33 1 ≤ 2) && decide (pre ≤ 2)
      && (if pre = 1 then decide (6 ≤ lb ∧ lb ≤ 12) else lb == 0) && decide (1 ≤ dim ∧ dim ≤ 8192)
      && decide (rd 38 1 ≤ 1) && !(fmt == 1 && rd 38 1 == 1) && decide (rd 39 1 ≤ 7)
      && (al == 0 || (fpos (ofBf al) && fle (ofBf al) fOne)) && rd 42 6 == 0 && rd 56 8 == 0 && !(fmt == 1 && pre == 2)
  if !headOk ∨ avail < len then none
  else
    let cbB := (List.range e).map (fun i => bfAt m (64 + 2 * i))
    let cb := cbB.map ofBf
    let scales := if fmt = 1 then [] else (List.range g).map (fun i => bfAt m (sOff + 2 * i))
    let factors := if pre = 2 then (List.range dim).map (fun i => BitVec.ofNat 32 (rd (fOff + 4 * i) 4)) else []
    let r : IdxRec :=
      { parts := rd 0 2, degree := rd 2 1, tomb := rd 3 1 == 1, attr := rd 4 2, routerOff := rd 8 4, dirOff := rd 12 4,
        delObj := rd 16 4, fmt := fmt, metric := rd 33 1, pre := pre, lb := lb, dim := dim, adapt := rd 38 1 == 1, shift := rd 39 1,
        alpha := if al = 0 then (if fmt = 2 then 0x3F000000 else 0x3E800000) else ofBf al, seed := rd 48 8,
        cb := cb, scales := scales, factors := factors, len := len }
    let ok :=
      cbB.all bfOk && ascending cb && scales.all (fun s => decide (0x0D80 ≤ s.toNat ∧ s.toNat ≤ 0x7180)) && factors.all fpos
        && decide (r.lnav ≤ 3568) && disjointR 0 len r.routerOff (r.parts * r.stride) && disjointR 0 len r.dirOff (r.parts * 48)
        && disjointR r.routerOff (r.parts * r.stride) r.dirOff (r.parts * 48)
    if ok then some r else none

/-- The record of a tenant's index. -/
def idxRec (s : State) (t num : Nat) : Option IdxRec :=
  match findIndex s t num, findObj s t num with
  | some _, some o => parseIdx o.data o.size
  | _, _ => none

/-! ### Parameter tensors (08 R235, R236) -/

structure Tensor where
  fmt : Nat
  rows : Nat
  cols : Nat
  deriving DecidableEq, Repr

def tileRows (f : Nat) : Nat := match f with | 8 => 32 | 7 => 64 | _ => 128
def tileCols (f : Nat) : Nat := if f = 2 then 128 else 64
def tileRowBytes (f : Nat) : Nat := match f with | 8 => 256 | 7 => 128 | _ => 64
/-- Factor bytes of a tile, FB. -/
def tileFb (f : Nat) : Nat := match f with | 2 => 1024 | 3 => 512 | 4 => 512 | 5 => 512 | 6 => 512 | _ => 0
def cbBytes (f : Nat) : Nat := match f with | 2 => 32 | 3 => 512 | _ => 0
def tileCb (f : Nat) : Nat := match f with | 2 => 64 | 3 => 512 | _ => 0
def tileHdr (f : Nat) : Nat := 64 + tileCb f + tileFb f
def elemBits (f : Nat) : Nat := match f with | 2 => 4 | 7 => 16 | 8 => 32 | _ => 8

def Tensor.ntr (t : Tensor) : Nat := ceilDiv t.rows (tileRows t.fmt)
def Tensor.ntc (t : Tensor) : Nat := ceilDiv t.cols (tileCols t.fmt)
def Tensor.tiles (t : Tensor) : Nat := t.ntr * t.ntc
def Tensor.bodyOff (t : Tensor) : Nat := roundUp (4096 + tileFb t.fmt * t.tiles) 8192

/-- Reads FORMAT, ROWS and COLS of a tensor header. -/
def tensorOf (h : List Byte) : Tensor := ⟨fieldAt h 4 1, fieldAt h 8 8, fieldAt h 16 4⟩

/-- The rules of R235 for bytes 0 to 23 and the codebook, every other byte 0. -/
def tensorHdrOk (h : List Byte) : Bool :=
  let t := tensorOf h
  let n := cbBytes t.fmt
  let cb := (List.range (n / 2)).map (fun i => BitVec.ofNat 16 (fieldAt h (64 + 2 * i) 2))
  fieldAt h 0 4 == 0x4D52504C && decide (2 ≤ t.fmt ∧ t.fmt ≤ 8) && zeroAt h 5 3 && decide (1 ≤ t.rows ∧ t.rows ≤ 2 ^ 40)
    && decide (1 ≤ t.cols ∧ t.cols ≤ 65536) && zeroAt h 20 44 && cb.all bfOk && ascending (cb.map ofBf) && zeroAt h (64 + n) (4032 - n)

/-- Payload of one slot of a path, in bytes (02 R34). -/
def slotPayload (kind : Nat) : Nat :=
  match kind with
  | 0 => 1024 | 1 => 1024 | 2 => 640 | 3 => 640 | 4 => 384 | 5 => 368 | 6 => 2560 | 7 => 2560 | _ => 704

/-! ### Bytes read from host memory (11 R369) -/

/-- The header of a tenant's tensor, read through `rd`. -/
def descHostBytes (hdr : Nat → Option Tensor) (s : State) (t : Nat) (b : List Byte) : Nat :=
  let f := fieldAt b
  let dim := (idxRec s t (f 32 4)).map (fun r => r.dim)
  match f 0 1 with
  | 0x01 =>
    let terms := f 47 1
    match dim with
    | none => 16 * terms
    | some d => if terms = 0 then 4 * d else roundUp (4 * d) 64 + 16 * terms
  | 0x02 => match dim with | none => 0 | some d => f 38 2 * roundUp (4 * d) 64
  | 0x03 => match hdr (f 32 4) with | none => 0 | some h => f 38 2 * roundUp (4 * h.cols) 64
  | 0x08 => match idxRec s t (f 32 4) with | none => 0 | some r => f 38 2 * r.entrySize
  | 0x09 => 8 * f 40 4
  | 0x11 => match hdr (f 32 4) with | none => 8192 * f 36 2 | some h => f 36 2 * (8192 + tileHdr h.fmt)
  | 0x12 => if f 16 8 = 0 then 0 else 4096
  | 0x15 => f 36 4
  | 0x18 => 16 * f 40 2
  | 0x28 => f 40 4 + (if f 32 8 ≠ 0 ∧ f 53 1 % 2 = 0 then 128 else 0)
  | 0x29 =>
    4 * f 40 4 + (if f 48 8 = 0 then 0 else 8 + 72 * leNat (hostRead s (f 48 8) 1))
      + (if f 32 8 ≠ 0 ∧ f 57 1 % 2 = 0 then 128 else 0)
  | _ => 0

end Sys2Proof.Machine
end

