-- ==== Sys2Proof/Machine/Queue.lean ====
section
/-! DEFINITION. The queue engine: apertures, credits, the transposition table, meters, dispatch, completion records, ABORT, FENCE and NOP (11 R346 to R377; 03 R74 to R78, R93 to R95). -/

namespace Sys2Proof.Machine

open Sys2Proof

/-! ### Entry and serving slots (03 R74, R77) -/

/-- Slots 0 to CTX − serve − 1 of a logical Square are its entry slots, the others its serving slots: which are which stands in the private program (DESIGN CHOICE, log entry 72). -/
def sqServe (p : Position) (i : Nat) : Nat := match p.prog.squares[i]? with | some q => q.serve | none => 0
def sqEntry (p : Position) (i : Nat) : Nat := match p.squares[i]? with | some e => e.ctx - sqServe p i | none => 0

/-- Entry slots of a tenant's Position. -/
def entrySlots (s : State) (t : Nat) : Nat :=
  match posOf s t with
  | none => 0
  | some p => ((List.range p.squares.length).map (sqEntry p)).sum

/-- Whether the physical Square is held still by a castling (03 R86). -/
def sqFrozen (s : State) (n : Nat) : Bool :=
  match s.bd.castling with
  | none => false
  | some c => (c.phase == 2 || c.phase == 3) && (n == physIdx c.die c.rank (if c.revert then 16 else c.file))

/-- The first free slot among slots lo to hi − 1 of a physical Square. -/
def freeSlot (s : State) (n lo hi : Nat) : Option Nat :=
  if sqFrozen s n then none
  else ((List.range hi).drop lo).find? (fun c => !ctxBusy (getCtx s n c))

/-- The lowest free entry slot on the lowest logical Square that has one (03 R77). -/
def freeEntrySlot (s : State) (p : Position) : Option (Nat × Nat) :=
  (List.zip (List.range p.squares.length) (carriers s p)).findSome? (fun ic =>
    (freeSlot s ic.2 0 (sqEntry p ic.1)).map (fun c => (ic.2, c)))

/-- Work is placed in a context: the rank's clock starts if it is stopped (03 R81). -/
def occupy (s : State) (n c : Nat) (job : CtxJob) (t : Nat) : State :=
  let s1 := setCtx s n c { st := .ready, job := job, tenant := t }
  let r := getRank s1 (rankOfSq n)
  setRank s1 (rankOfSq n) { r with clock := if r.clock = 0 then 1 else r.clock, idle := 0 }

/-! ### Dispatch (11 R365, R366) -/

def fenceScope (f : Desc) (q : QId) : Bool :=
  if dfield f 16 1 = 0 then f.q == q else dfield f 16 1 == 1 && tenantOf f.q == tenantOf q

/-- A FENCE accepted earlier, not yet completed, covers the descriptor's queue. -/
def fenceHeld (s : State) (d : Desc) : Bool :=
  s.qe.descs.any (fun f => descOp f == 0x38 && decide (f.n < d.n) && fenceScope f d.q)

/-- An earlier descriptor of its queue, not yet dispatched, holds it back (R366): any does, but one that needs an entry context holds back only those that need one. An ABORT is carried out before (step 8). -/
def orderHeld (s : State) (d : Desc) : Bool :=
  s.qe.descs.any (fun x => x.q == d.q && decide (x.n < d.n) && (x.phase == .ready || x.phase == .meter) && descOp x != 0x30
    && (needsEntry (descOp d) || !needsEntry (descOp x) || x.phase == .meter))

/-- A descriptor past step 9 of R351 that step 10 may dispatch now. -/
def dispatchable (s : State) (d : Desc) : Bool := d.phase == .ready && !fenceHeld s d && !orderHeld s d

/-- The dispatchable descriptor that a command names, if it has the opcode. -/
def dueDesc (s : State) (q : QId) (seq op : Nat) : Option Desc :=
  (findDesc s q seq).bind (fun d => if descOp d = op ∧ dispatchable s d then some d else none)

/-- A descriptor that holds an entry context and may still act, if it has the opcode. -/
def placedDesc (s : State) (q : QId) (seq op : Nat) : Option Desc :=
  (findDesc s q seq).bind (fun d =>
    match d.phase with
    | .placed n c => if descOp d = op ∧ (getCtx s n c).st != .frozen then some d else none
    | _ => none)

/-- The first move of a SEARCH or SEARCH_SCAN is move 2 (07 R186). -/
def epochReady (s : State) (op : Nat) : Bool := !(op == 0x01 || op == 0x02) || decide (2 ≤ moveOf s)
def queryEpoch (m : Nat) : Nat := (m - 2) * 65536 + 0xFFFF

/-- The descriptor of a queue that waits next for an entry context: the earliest that needs one, once it may be placed. -/
def waitingOf (s : State) (q : QId) : Option Desc :=
  (s.qe.descs.find? (fun d => d.q == q && needsEntry (descOp d) && (d.phase == .ready || d.phase == .meter))).bind (fun d =>
    if dispatchable s d && epochReady s (descOp d) then some d else none)

/-- Queue numbers in the order of R94: ascending, starting after the queue last served. -/
def serviceOrder (s : State) (t : Nat) : List Nat :=
  let l := tget 63 s.qe.lastServed t
  (List.range 64).map (fun i => (l + 1 + i) % 64)

/-- Places one waiting descriptor of the tenant in a free entry context (03 R77, R94). -/
def placeOne (s : State) (t : Nat) : State :=
  match posOf s t with
  | none => s
  | some p =>
    match freeEntrySlot s p, (serviceOrder s t).findSome? (fun q => waitingOf s (.tenant t q)) with
    | some (n, c), some d =>
      let s1 := occupy s n c (.entry d.q d.seq) t
      let e := if descOp d = 0x01 ∨ descOp d = 0x02 then queryEpoch (moveOf s) else 0
      let s2 := putDesc s1 { d with phase := .placed n c, epoch := e }
      match d.q with
      | .tenant _ q => { s2 with qe := { s2.qe with lastServed := tset s2.qe.lastServed t q } }
      | .admin => s2
    | _, _ => s

/-! ### The objects that a descriptor names (08 R228) -/

/-- Object numbers in the fields of a descriptor. -/
def namedObjs (d : Desc) : List Nat :=
  match descOp d with
  | 0x01 => [dfield d 32 4, dfield d 48 4]
  | 0x02 => [dfield d 32 4, dfield d 48 4]
  | 0x03 => [dfield d 32 4]
  | 0x08 => [dfield d 32 4]
  | 0x09 => [dfield d 32 4]
  | 0x0A => [dfield d 24 4]
  | 0x10 => [dfield d 32 4]
  | 0x11 => [dfield d 32 4]
  | 0x12 => [dfield d 24 4]
  | 0x14 => [dfield d 32 4]
  | 0x15 => [dfield d 32 4]
  | 0x16 => [dfield d 16 4]
  | 0x18 => [dfield d 24 4, dfield d 28 4, dfield d 32 4, dfield d 36 4]
  | _ => []

/-- A descriptor that names an object whose FREE was accepted before it (R228). -/
def namesFreed (s : State) (d : Desc) : Bool :=
  s.ms.jobs.any (fun j => j.tenant == d.tenant && j.dest.isNone && (namedObjs d).contains j.num
    && (match findDesc s j.q j.seq with | some f => decide (f.n < d.n) | none => false))

/-! ### Meters (11 R367 to R371) -/

inductive Colour where
  | green | yellow | red
  deriving DecidableEq, Repr

/-- Marks an item of length L (R368) and counts its colour (R376). -/
def markMeter (m : Meter) (len : Nat) : Colour × Meter :=
  if !m.en then (.green, { m with green := satAdd 64 m.green 1 })
  else if m.tp < len then (.red, { m with red := satAdd 64 m.red 1 })
  else if m.tc < len then (.yellow, { m with tp := m.tp - len, yellow := satAdd 64 m.yellow 1 })
  else (.green, { m with tc := m.tc - len, tp := m.tp - len, green := satAdd 64 m.green 1 })

/-- Refills both buckets of an enabled meter at the first tick of a move (R367). -/
def refillMeter (m : Meter) : Meter :=
  if m.en then { m with tc := min m.cbs (m.tc + m.cir), tp := min m.pbs (m.tp + m.pir) } else m

/-- Fills both buckets (R367: EN from 0 to 1, and the end of a per-tenant reset). -/
def fillMeter (m : Meter) : Meter := { m with tc := m.cbs, tp := m.pbs }

/-- The header of a tensor object in T0, T1 or T2, or its first page in T3; kept in the object's table entry. -/
def tensorHdr (s : State) (t num : Nat) : Option Tensor :=
  match findObj s t num with
  | some o => if o.type = 0x05 then some (tensorOf (memRead o.hdr 0 24)) else none
  | none => none

/-- The length of a descriptor at the submission meter (R369). -/
def descLen (s : State) (m : Meter) (d : Desc) : Nat :=
  if m.mode then 64 + descHostBytes (tensorHdr s d.tenant) s d.tenant d.bytes + m.overhead else 1

/-- A descriptor passes step 9. A NOP commits here: R361 has it commit at acceptance, and R370 has a deferred descriptor PENDING (DEDUCED, log entry 73). -/
def passMeter (s : State) (d : Desc) : State :=
  let s1 := putDesc s { d with phase := .ready }
  if descOp d = 0x3F then commit s1 d else s1

/-- Marks a descriptor at step 9: green and yellow go on, red is refused or deferred (R370). -/
def markDesc (s : State) (d : Desc) : State :=
  let m := getM s d.tenant false
  let r := markMeter m (descLen s m d)
  let s1 := setM s d.tenant false r.2
  match r.1 with
  | .green => passMeter s1 d
  | .yellow => passMeter s1 { d with yellow := true }
  | .red =>
    let s2 := cntQe s1 6
    if m.action then cntQe (putDesc s2 { d with deferred := true }) 7
    else complete s2 d stRate

/-- Step 9 for a newly accepted descriptor: it is not marked while an earlier one of its queue waits for the meter, which defers it too (R370 and its example). -/
def meterStep (s : State) (d : Desc) : State :=
  if !metered (descOp d) then passMeter s d
  else if s.qe.descs.any (fun x => x.q == d.q && decide (x.n < d.n) && x.phase == .meter) then putDesc s { d with deferred := true }
  else markDesc s d

/-- Marks the waiting descriptors of one queue in acceptance order until one stays. -/
def remarkQueue : Nat → State → QId → State
  | 0, s, _ => s
  | k + 1, s, q =>
    match s.qe.descs.find? (fun d => d.q == q && d.phase == .meter) with
    | none => s
    | some d =>
      let s1 := markDesc s d
      if s1.qe.descs.any (fun x => x.n == d.n && x.phase == .meter) then s1
      else remarkQueue k (placeOne s1 d.tenant) q

/-- The queues of a tenant in service order; tenant 0's admin queue first. -/
def queuesOf (s : State) (t : Nat) : List QId :=
  (if t = 0 then [QId.admin] else []) ++ (serviceOrder s t).map (fun q => .tenant t q)

/-- Deferred descriptors are marked again at the first tick of a move, after the refill (R370). -/
def remarkAll (s : State) : State :=
  ((s.qe.descs.filter (fun d => d.phase == .meter)).map (fun d => d.tenant)).dedup.foldl (fun a t =>
    (queuesOf a t).foldl (fun b q => remarkQueue 65 b q) a) s

/-! ### Acceptance (11 R347, R351 to R354) -/

/-- Sets a TN_EVENTS bit, counts it and raises the tenant's event vector. -/
def tnEvent (s : State) (t : Nat) (overrun : Bool) : State :=
  let x := getT s t
  let x1 : Tenant :=
    if overrun then { x with overrun := true, cntOverrun := satAdd 32 x.cntOverrun 1 }
    else { x with aperture := true, cntAperture := satAdd 32 x.cntAperture 1 }
  let s1 := cntQe (setT s t x1) (if overrun then 1 else 2)
  if x.evtEn then msix s1 t x.evtVector else s1

/-- The queue whose aperture lies at the offset; none when R347 ignores the write. The first number is the tenant that is told. -/
def apertureOf (s : State) (vf : Option Nat) (off : Nat) : Nat × Option QId :=
  let a := off / 4096
  match vf with
  | none =>
    if a = 0 then (0, some .admin)
    else (0, ((posOf s 0).bind (fun p => (List.range p.queues).find? (fun q => (getQ s (.tenant 0 q)).pool == a))).map (fun q => .tenant 0 q))
  | some v =>
    match posOf s v with
    | some p => (v, if a < p.queues then some (.tenant v a) else none)
    | none => (v, none)

inductive TtResult where
  | new | dup (e : TtEntry) | range | stale
  deriving DecidableEq, Repr

def ttAt (q : Queue) (n : Nat) : TtEntry := tget {} q.tt (n % 1024)
def ttLive (e : TtEntry) : Bool := e.st == .pending || e.st == .committed

/-- tt_check of R352: the class of the number and the queue's table after it. -/
def ttCheck (q : Queue) (n : Nat) : TtResult × Queue :=
  let high := match q.high with | some h => h | none => (2 ^ 32 - 1 + n) % 2 ^ 32
  let q0 := { q with high := some high }
  let d := (2 ^ 32 + n - high) % 2 ^ 32
  if 1 ≤ d ∧ d ≤ 960 then
    if (List.range d).any (fun i => ttLive (ttAt q (high + 1 + i))) then (.range, q0)
    else
      let skipped := (List.range (d - 1)).foldl (fun t i => tset t ((high + 1 + i) % 1024) ⟨(high + 1 + i) % 2 ^ 32, .empty, 0⟩) q.tt
      (.new, { q0 with tt := tset skipped (n % 1024) ⟨n, .pending, 0⟩, high := some n })
  else if d = 0 ∨ 2 ^ 32 - 1023 ≤ d then
    let e := ttAt q n
    if e.st = .empty then (.new, { q0 with tt := tset q.tt (n % 1024) ⟨n, .pending, 0⟩ })
    else (.dup e, q0)
  else if d < 2 ^ 31 then (.range, q0)
  else (.stale, q0)

/-- A record of an accepted write that enters no table entry. -/
def loneRec (s : State) (q : QId) (n status orig : Nat) (data : List Byte) : State :=
  addRec s { n := n, q := q, seq := fieldAt data 4 4, status := status, orig := orig, opcode := fieldAt data 0 1,
             tag := fieldAt data 8 8, irq := bit (fieldAt data 1 1) 0 }

/-- The 32-byte result of a CONSOLIDATE (07 R212). -/
def consResult (first last : Option Nat) (steps folded repaired freed : Nat) : List Byte :=
  toLE 8 (first.getD 0) ++ toLE 8 (last.getD 0) ++ toLE 4 steps ++ toLE 4 folded ++ toLE 4 repaired ++ toLE 4 freed

/-- Ends an uncommitted descriptor; `mid` follow its record at once (R364). A CONSOLIDATE writes the result of the steps it took, and its record carries their LAST_EPOCH (R355, R360). -/
def endDesc (s : State) (d : Desc) (status : Nat) (mid : List Rec) : State :=
  let s0 := if isAdmin d.q then { s with bd := { s.bd with recomps := s.bd.recomps.filter (fun r => r.seq != d.seq) } } else s
  let (last, bytes) := match d.work with
    | .consolidate first last steps folded repaired freed _ _ => (last, consResult first last steps folded repaired freed)
    | _ => (none, zeros 32)
  let nb := match last with | some e => e / 65536 + 2 | none => 0
  let s1 := if descOp d = 0x0A ∧ !isAdmin d.q then hostWrite s0 d.tenant (dfield d 16 8) bytes else s0
  completeWith s1 d status 0 0 (last.getD 0) nb (mid.map (fun r => { r with notBefore := nb }))

/-- Steps 5 to 10 of R351 for a new descriptor; one accepted during a retirement ends by step 2 of R57. An ABORT commits at acceptance (R361). -/
def acceptNew (s : State) (d : Desc) : State :=
  let op := descOp d
  let s0 := setDescs s (s.qe.descs ++ [d])
  if !isAdmin d.q && (getT s d.tenant).tornDown then endDesc s0 d stTeardown []
  else if !isAdmin d.q && (getT s d.tenant).retiring then endDesc s0 d stAborted []
  else if !isAdmin d.q && needsEntry op && entrySlots s d.tenant == 0 then complete s0 d stNoRes
  else if !opOnQueue d.q op || !reservedOk d.bytes then complete s0 d stMalformed
  else placeOne (meterStep (if op = 0x30 then commit s0 d else s0) d) d.tenant

/-- Steps 3 to 10 of R351: the write is accepted and one credit is consumed. -/
def acceptWrite (s : State) (q : QId) (data : List Byte) : State :=
  let v := getQ s q
  let seq := fieldAt data 4 4
  let n := s.qe.accepted
  let r := ttCheck { v with avail := v.avail - 1, accepted := satAdd 48 v.accepted 1 } seq
  let s1 := cntQe (setQ { s with qe := { s.qe with accepted := n + 1 } } q r.2) 0
  match r.1 with
  | .range => loneRec s1 q n stMalformed stMalformed data
  | .stale => cntQe (loneRec s1 q n stStale stStale data) 4
  | .dup e =>
    let s2 := cntQe s1 3
    if e.st = .complete then loneRec s2 q n 0x02 e.status data
    else { s2 with qe := { s2.qe with dups := s2.qe.dups ++ [⟨n, q, seq, fieldAt data 0 1, fieldAt data 8 8, bit (fieldAt data 1 1) 0⟩] } }
  | .new => acceptNew s1 { n := n, q := q, tenant := tenantOf q, seq := seq, bytes := data, phase := .meter, move := moveOf s1 }

/-- An aperture write through its steps (R351). While BAR0 does not answer, the host port drops it (14 R443, R459). -/
def execApertureWrite (vf : Option Nat) (off : Nat) (data : List Byte) (s : State) : Res :=
  onUnit s (wellFormed (.apertureWrite vf off data)) <|
  if !barFull s then s
  else
    let a := apertureOf s vf off
    match a.2 with
    | none => tnEvent s a.1 false
    | some q =>
      let v := getQ s q
      if data.length ≠ 64 ∨ off % 64 ≠ 0 ∨ v.qstate ≠ 2 then tnEvent s a.1 false
      else if v.avail = 0 then tnEvent (setQ s q { v with dropped := satAdd 16 v.dropped 1 }) a.1 true
      else acceptWrite s q data

/-- DESCRIPTOR_PLACE (R77): the tenant's next waiting descriptor takes a free entry context. -/
def execDescriptorPlace (t : Nat) (s : State) : Res := onUnit s (wellFormed (.descriptorPlace t)) (placeOne s t)

/-! ### Completion records (11 R355 to R358) -/

def ringSize (v : Queue) : Nat := 2 ^ (min 16 (max 6 v.log2))
def creditLimit (v : Queue) : Nat := if v.creditsMax = 0 ∨ 64 < v.creditsMax then 64 else v.creditsMax

def queueByte : QId → Nat
  | .admin => 0xFF
  | .tenant _ q => q

/-- The 32 bytes of a completion record. -/
def recBytes (v : Queue) (r : Rec) (credits : Nat) : List Byte :=
  let cf := b2n v.phase + 2 * b2n r.creditOnly + 4 * b2n r.creditReset + 8 * b2n r.deferred + 16 * b2n r.yellow
  toLE 4 r.seq ++ toLE 1 r.status ++ toLE 1 r.orig ++ toLE 1 r.opcode ++ toLE 1 credits ++ toLE 2 r.rflags
    ++ toLE 1 (queueByte r.q) ++ toLE 1 cf ++ toLE 4 r.detail ++ toLE 8 r.tag ++ toLE 8 r.epoch

/-- The first record of the queue that may be written: its move has come, and no earlier record of its SEQ waits (R353, R364; 07 R188). -/
def nextRec (s : State) (q : QId) : Option (Nat × Rec) :=
  let all := List.zip (List.range s.qe.recs.length) s.qe.recs
  all.find? (fun ir => ir.2.q == q && decide (ir.2.notBefore ≤ moveOf s)
    && !all.any (fun jr => decide (jr.1 < ir.1) && jr.2.q == q && jr.2.seq == ir.2.seq && jr.2.creditOnly == ir.2.creditOnly))

/-- A DRAINING queue that is drained becomes DISABLED; one whose EN was written 1 meanwhile enters anew (R348). -/
def settleQueue (s : State) (q : QId) : State :=
  if (getQ s q).qstate = 3 ∧ drained s q then
    let s1 := disableQueue s q
    if !(getQ s1 q).en then s1
    else if isAdmin q || (hasPos s1 (tenantOf q) && !(getT s1 (tenantOf q)).resetting.isSome) then enterEnabled s1 q
    else setQ s1 q { getQ s1 q with qstate := 1 }
  else s

/-- The completion of a castling is written: DONE is set and PHASE reads 0 (03 R96). Phase 4 stands for the time from the switch to this write. -/
def castleWritten (s : State) (r : Rec) : State :=
  match s.bd.castling with
  | some c => if isAdmin r.q ∧ r.seq = c.seq ∧ c.phase = 4 ∧ ¬ r.creditOnly then { s with bd := { s.bd with castling := none, castDone := true } } else s
  | none => s

/-- Writes one record: the ring entry, the credit, MSI-X. -/
def writeRec (s : State) (q : QId) (i : Nat) (r : Rec) : State :=
  let v := getQ s q
  let t := tenantOf q
  let lim := creditLimit v
  let credits := if qStopped s q || decide (v.qstate < 2) then 0 else if r.creditOnly then r.grant else 1
  let s1 := hostWrite s t (v.cqBase * 4096 + 32 * v.tail) (recBytes v r credits)
  let tail := (v.tail + 1) % ringSize v
  let avail := if r.creditOnly then v.avail else min lim (v.avail + credits)
  let s2 := setQ s1 q { v with tail := tail, phase := if tail = 0 then !v.phase else v.phase, avail := avail }
  let s3 := { s2 with qe := { s2.qe with recs := s2.qe.recs.eraseIdx i } }
  let s4 := if v.irqMode = 2 ∨ (v.irqMode = 1 ∧ r.irq ∧ ¬ r.creditOnly) then msix s3 t v.vector else s3
  settleQueue (castleWritten s4 r) q

/-- Records of a tenant under a function level reset are discarded (R373). -/
def recLost (s : State) (q : QId) : Bool := !isAdmin q && (getT s (tenantOf q)).flr

/-- COMPLETION_RECORD_WRITE (R356): a record is written only when (TAIL + 1) mod the ring's size is not HEAD. -/
def execCompletionRecordWrite (q : QId) (s : State) : Res :=
  onUnit s (wellFormed (.completionRecordWrite q)) <|
  match nextRec s q with
  | none => s
  | some (i, r) =>
    let v := getQ s q
    if recLost s q then { s with qe := { s.qe with recs := s.qe.recs.eraseIdx i } }
    else if (v.tail + 1) % ringSize v = v.head then s else writeRec s q i r

/-- BAR0 offset of a queue's register: of QE_ for the admin queue, else of the tenant's page (R374, R375). -/
def queueReg (q : QId) (o : Nat) : Nat :=
  match q with
  | .admin => 0x100000 + o
  | .tenant t n => 0x200000 + 4096 * t + 0x100 + 32 * n + o

/-- A write of a queue's register: carried out where the block answers. In recovery and in SLEEP_READY the physical function's write meets no register (00 R7; 14 R448, R459). -/
def queueWrite (s : State) (fn off : Nat) (t : State) : State :=
  if barFull s then t
  else if barNmc s && isPf fn then barUnimplEvent s fn off true
  else s

/-- COMPLETION_HEAD_WRITE (R356, R377): a HEAD outside the ring is treated as TAIL. -/
def execCompletionHeadWrite (fn : Nat) (q : QId) (head : BitVec 16) (s : State) : Res :=
  onUnit s (wellFormed (.completionHeadWrite fn q head)) <|
  queueWrite s fn (queueReg q 0xC) (
    let v := getQ s q
    setQ s q { v with head := if head.toNat < ringSize v then head.toNat else v.tail })

/-! ### Queue and meter configuration -/

/-- The fields of a queue's CFG register that a write sets: LOG2_ENTRIES and CREDITS_MAX only while DISABLED (R348, R377). -/
def cfgQueue (v : Queue) (q : QId) (cfg : Nat) : Queue :=
  match q with
  | .admin => { v with log2 := if v.qstate = 0 then bits cfg 0 5 else v.log2, irqMode := bits cfg 6 2, vector := bits cfg 8 7 }
  | .tenant _ _ =>
    { v with log2 := if v.qstate = 0 then bits cfg 0 5 else v.log2, creditsMax := if v.qstate = 0 then bits cfg 5 7 else v.creditsMax,
             irqMode := bits cfg 13 2, vector := bits cfg 15 7 }

/-- EN written 1 (R348). -/
def enableQueue (s : State) (q : QId) : State :=
  let v := { getQ s q with en := true }
  let s1 := setQ s q v
  if v.qstate ≠ 0 then s1
  else if isAdmin q || (hasPos s (tenantOf q) && !(getT s (tenantOf q)).resetting.isSome) then enterEnabled s1 q
  else setQ s1 q { v with qstate := 1 }

/-- EN written 0 (R348). -/
def stopQueue (s : State) (q : QId) : State :=
  let v := { getQ s q with en := false }
  let s1 := setQ s q v
  if v.qstate = 2 then (if drained s q then disableQueue s1 q else setQ s1 q { v with qstate := 3 })
  else if v.qstate = 1 then setQ s1 q { v with qstate := 0 }
  else s1

/-- A write of a queue's CFG register. -/
def writeQueueCfg (s : State) (q : QId) (cfg : Nat) (en : Bool) : State :=
  let s1 := setQ s q (cfgQueue (getQ s q) q cfg)
  if en then enableQueue s1 q else stopQueue s1 q

/-- QUEUE_ENABLE (R348): a CFG write with EN = 1. -/
def execQueueEnable (fn : Nat) (q : QId) (cfg : BitVec 32) (s : State) : Res :=
  onUnit s (wellFormed (.queueEnable fn q cfg)) (queueWrite s fn (queueReg q 8) (writeQueueCfg s q cfg.toNat true))

/-- QUEUE_DISABLE (R348): a CFG write with EN = 0. -/
def execQueueDisable (fn : Nat) (q : QId) (cfg : BitVec 32) (s : State) : Res :=
  onUnit s (wellFormed (.queueDisable fn q cfg)) (queueWrite s fn (queueReg q 8) (writeQueueCfg s q cfg.toNat false))

/-- A WAITING queue of the tenant enters ENABLED once its Position is active and no per-tenant reset is finishing (R348). -/
def wakeQueues (s : State) (t : Nat) : State :=
  if hasPos s t && !(getT s t).resetting.isSome then
    (List.range 64).foldl (fun a q => if (getQ a (.tenant t q)).qstate = 1 then enterEnabled a (.tenant t q) else a) s
  else s

/-- A write of MT_CFG: EN from 0 to 1 fills both buckets (R367, R376). -/
def writeMeterCfg (s : State) (t : Nat) (eg : Bool) (cfg : Nat) : State :=
  let m := getM s t eg
  let m1 := { m with en := bit cfg 0, mode := bit cfg 1, action := bit cfg 2, overhead := bits cfg 16 16 }
  setM s t eg (if m1.en && !m.en then fillMeter m1 else m1)

/-- METER_ENABLE (R367): tenant 0 writes MT_CFG with EN = 1. -/
def execMeterEnable (fn t : Nat) (egress : Bool) (cfg : BitVec 32) (s : State) : Res :=
  onUnit s (wellFormed (.meterEnable fn t egress cfg)) <|
  pfWrite s fn (0x300000 + 128 * t + (if egress then 0x40 else 0)) (fun x => writeMeterCfg x t egress (cfg.toNat ||| 1))

/-! ### ABORT, FENCE, NOP (11 R359 to R365) -/

/-- What an ABORT finds at its TARGET (R363). -/
inductive AbortTarget where
  | malformed | stale | pending (d : Desc) | done
  deriving DecidableEq, Repr

def abortTarget (s : State) (d : Desc) : AbortTarget :=
  let q := getQ s d.q
  let tgt := dfield d 16 4
  let dist := (2 ^ 32 + tgt - q.high.getD 0) % 2 ^ 32
  if tgt = d.seq then .malformed
  else if 1 ≤ dist ∧ dist < 2 ^ 31 then .malformed
  else if dist = 0 ∨ 2 ^ 32 - 1023 ≤ dist then
    let e := ttAt q tgt
    if e.st = .empty ∨ e.num ≠ tgt then .malformed
    else if e.st = .pending then
      match findDesc s d.q tgt with
      | some x => .pending x
      | none => .done
    else .done
  else .stale

/-- Carries out an ABORT: when it ends its target, the records follow in the order of R364. -/
def runAbort (s : State) (d : Desc) : State :=
  let s1 := cntQe s 5
  match abortTarget s d with
  | .malformed => complete s1 d stMalformed
  | .stale => complete s1 d stStale
  | .done => complete s1 d stAlready
  | .pending x =>
    let s2 := endDesc s1 x stAborted [recOf d stDone 0 0 0 0]
    dupRecs (setTt (dropDesc s2 d stDone) d.q d.seq ⟨d.seq, .complete, stDone⟩) d.q d.seq stDone

/-- ABORT (R363): never waits behind its target, a FENCE or a deferral. -/
def execAbort (q : QId) (seq : Nat) (s : State) : Res :=
  onUnit s (wellFormed (.abort q seq)) <|
  match findDesc s q seq with
  | some d => if descOp d = 0x30 ∧ d.phase = .ready then runAbort s d else s
  | none => s

/-- Every descriptor in a FENCE's scope accepted before it has completed: its commit point (R361). -/
def fenceReached (s : State) (f : Desc) : Bool :=
  s.qe.descs.all (fun d => !(decide (d.n < f.n) && fenceScope f d.q)) && s.qe.dups.all (fun d => !(decide (d.n < f.n) && fenceScope f d.q))

/-- And each one's record has been written (R365). -/
def fenceDue (s : State) (f : Desc) : Bool :=
  fenceReached s f && s.qe.recs.all (fun r => !(!r.creditOnly && decide (r.n < f.n) && fenceScope f r.q))

/-- FENCE (R365). SCOPE is 0 or 1. -/
def execFence (q : QId) (seq : Nat) (s : State) : Res :=
  onUnit s (wellFormed (.fence q seq)) <|
  match dueDesc s q seq 0x38 with
  | none => s
  | some d =>
    if 1 < dfield d 16 1 then complete s d stMalformed
    else if fenceDue s d then complete s d stDone
    else if fenceReached s d then commit s d
    else s

/-- NOP (R361). -/
def execNop (q : QId) (seq : Nat) (s : State) : Res :=
  onUnit s (wellFormed (.nop q seq)) <|
  match dueDesc s q seq 0x3F with
  | none => s
  | some d => complete s d stDone

/-! ### Ending a tenant's descriptors (02 R57, 10 R324, 11 R372) -/

/-- Ends every uncommitted descriptor of a tenant's queues with a status, in acceptance order. -/
def endTenant (s : State) (t status : Nat) : State :=
  (s.qe.descs.filter (fun d => d.tenant == t && !isAdmin d.q && isPending s d)).foldl (fun a d =>
    match a.qe.descs.find? (fun x => x.n == d.n) with
    | some x => endDesc a x status []
    | none => a) s

end Sys2Proof.Machine
end

