-- ==== Sys2Proof/Machine/Calib.lean ====
section
/-! DEFINITION. Calibration: factory values, user offsets, effective values, and SET_CAL (13 R425 to R428, R432). -/

namespace Sys2Proof.Machine

open Sys2Proof

def calKey (item sub idx : Nat) : Nat := item * 2 ^ 24 + sub * 2 ^ 16 + idx

def stackFitted (s : State) (ch : Nat) : Bool := s.ms.present.getLsbD (ch / 32)

/-- A flash die that the channel has: an active one, or the spare at chip enable 8. -/
def dieFitted (s : State) (c chip : Nat) : Bool :=
  let x := getCh s c
  decide (chip < x.dies) || (chip == 8 && (x.spare || x.migrated.isSome))

/-- ITEM, SUB and INDEX name an item whose target is fitted (R427). -/
def calItemOk (s : State) (item sub idx : Nat) : Bool :=
  match item with
  | 1 => decide (idx / 8 < 24) && decide (idx % 8 < 5) && decide (sub < 4)
  | 2 => decide (idx / 8 < 24) && decide (idx % 8 < 5) && decide (sub < 2)
  | 3 => decide (idx < 24) && sub == 0 && (decide (idx < 16) || s.ms.present.getLsbD (idx - 16))
  | 4 => decide (idx < 32) && sub == 0
  | 5 => decide (sub < 16) && decide (idx < 2 ^ 14) && decide (bits idx 6 4 < 9) && decide (1 ≤ bits idx 10 4) && dieFitted s (bits idx 0 6) (bits idx 6 4)
  | 6 => decide (idx < 256) && decide (sub < 3) && stackFitted s idx
  | 7 => idx == 0 && sub == 0
  | _ => false

/-- The largest offset either way. -/
def calOffsetMax (item : Nat) : Int :=
  match item with | 1 => 16 | 2 => 8 | 3 => 40 | 4 => 20 | 5 => 32 | 6 => 16 | _ => 2000

/-- The effective range. -/
def calRange (item sub : Nat) : Int × Int :=
  match item, sub with
  | 1, 0 => (-8, 0)
  | 1, 2 => (32, 63)
  | 1, _ => (-24, 0)
  | 2, 0 => (0, 31)
  | 2, _ => (0, 15)
  | 3, _ => (-320, 1200)
  | 4, _ => (0, 2000)
  | 5, _ => (-128, 127)
  | 6, 2 => (0, 63)
  | 6, _ => (0, 127)
  | _, _ => (-50000, 50000)

/-- The factory value: from fuses or the verified record, else the built-in nominal value (R425). -/
def calFactory (s : State) (item sub idx : Nat) : Int :=
  if Config.calFromRecord item sub idx && !s.cal.recordOk then Config.calNominal item sub idx else Config.calFactory item sub idx

def calEntry (s : State) (k : Nat) : CalItem := tget {} s.cal.items k

/-- Factory value plus user offset, before the clamp (R426). -/
def calSum (s : State) (item sub idx : Nat) : Int := calFactory s item sub idx + (calEntry s (calKey item sub idx)).offset

def calEffective (s : State) (item sub idx : Nat) : Int := clampI (calRange item sub).1 (calRange item sub).2 (calSum s item sub idx)

def calClamped (s : State) (item sub idx : Nat) : Bool := calEffective s item sub idx != calSum s item sub idx

/-- Items that take effect at a move boundary, or at the next sample within a move: TEMPO_TRIM and VMON. -/
def calEdge (s : State) : State := calTake s (fun k => calOf 7 k || calOf 4 k)

/-- Items of a link's training. -/
def calLink (s : State) (l : Nat) : State := calTake s (fun k => (calOf 1 k || calOf 2 k) && k % 2 ^ 16 / 8 == l)

/-- Items of the stacks' training: stack `n`. -/
def calStack (s : State) (n : Nat) : State := calTake s (fun k => calOf 6 k && k % 2 ^ 16 / 32 == n)

/-- Stores an offset and answers (R428). -/
def setCal (s : State) (d : Desc) : State :=
  let item := dfield d 16 1
  let sub := dfield d 17 1
  let idx := dfield d 18 2
  let zero := bit (dfield d 22 1) 0
  let off : Int := if zero then 0 else ofBits 16 (dfield d 20 2)
  if !calItemOk s item sub idx || !(decide (-calOffsetMax item ≤ off) && decide (off ≤ calOffsetMax item)) then completeDetail s d stMalformed 0x12
  else
    let s1 := { commit s d with cal := { s.cal with items := tset s.cal.items (calKey item sub idx) { offset := off, pending := true } } }
    let s2 :=
      if calClamped s1 item sub idx then
        raise s1 0x00A0 0 0x7F nmcUnit (item + sub * 2 ^ 8 + idx * 2 ^ 16) (toBits 32 (calSum s1 item sub idx)) (toBits 32 (calEffective s1 item sub idx))
      else s1
    complete s2 d stDone

/-- SET_CAL (R428): commands of one item take effect in the order of their acceptance. -/
def execSetCal (seq : Nat) (s : State) : Res :=
  onUnit s true <|
  match dueDesc s .admin seq 0x85 with
  | some d => if s.qe.descs.any (fun x => decide (x.n < d.n) && descOp x == 0x85) then s else setCal s d
  | none => s

end Sys2Proof.Machine
end

