-- ==== Sys2Proof/Machine/FlashCore.lean ====
section
/-! DEFINITION. Flash pages, stripes, superblocks and the map: reading a unit, programming a page, closing a stripe, checkpoints (09 R256 to R290). -/

namespace Sys2Proof.Machine

open Sys2Proof

def pageBytes : Nat := 16384

/-- Exclusive-or of two memories. -/
def memXor : Mem → Mem → Mem
  | [], b => b
  | (a, x) :: r, b =>
    let lo := b.takeWhile (fun c => decide (c.1 < a))
    let hi := b.dropWhile (fun c => decide (c.1 < a))
    match hi with
    | (k, y) :: t =>
      if k = a then (if x ^^^ y = 0 then lo ++ memXor r t else lo ++ (a, x ^^^ y) :: memXor r t)
      else lo ++ (a, x) :: memXor r hi
    | [] => lo ++ (a, x) :: r

/-! ### Geometry -/

def pagesOf (c : Channel) : Nat := c.geom.pages
def blocksOf (c : Channel) : Nat := c.geom.planes * c.geom.blocks
def pageKey (chip page : Nat) : Nat := chip * 2 ^ 23 + page
def getDie (c : Channel) (chip : Nat) : Die := tget {} c.dieSt chip
def getBlock (c : Channel) (chip b : Nat) : Block := tget {} (getDie c chip).blocks b
def setDie (c : Channel) (chip : Nat) (d : Die) : Channel := { c with dieSt := tset c.dieSt chip d }
def setBlock (c : Channel) (chip b : Nat) (v : Block) : Channel :=
  setDie c chip { getDie c chip with blocks := tset (getDie c chip).blocks b v }

/-- The chip that holds die position d once every migration has ended (R282). -/
def posChip (c : Channel) (d : Nat) : Nat := if c.migrated = some d then 8 else d

/-- The die position that a chip serves, or is to serve once its migration has ended. -/
def chipPos (c : Channel) (chip : Nat) : Option Nat := if chip = 8 then (match c.migrated with | some d => some d | none => c.migrating.map Prod.snd) else some chip

/-- The two root blocks of die 0: its two lowest good blocks. A spare die that serves position 0 has them too. -/
def rootBlocks (c : Channel) (chip : Nat) : List Nat :=
  if chipPos c chip = some 0 then ((List.range (blocksOf c)).filter (fun b => !(getBlock c chip b).bad)).take 2 else []

/-- Good blocks of a die; the root blocks are not counted (R261). -/
def goodBlocks (c : Channel) (chip : Nat) : Nat :=
  ((List.range (blocksOf c)).filter (fun b => !(getBlock c chip b).bad && !(rootBlocks c chip).contains b)).length

/-- The channels of stripe group g (R260). -/
def groupChans (w g : Nat) : List Nat := (List.range w).map (fun m => w * g + m)

/-- S(g, d), the smallest good-block count of the group's members (R261). -/
def groupGood (s : State) (w g d : Nat) : Nat :=
  (groupChans w g).foldl (fun a c => min a (goodBlocks (getCh s c) (posChip (getCh s c) d))) (2 ^ 32)

/-- D_c (R261). -/
def dataPages (s : State) (w c : Nat) : Nat :=
  ((List.range (getCh s c).dies).map (fun d => groupGood s w (c / w) d * pagesOf (getCh s c) * (w - 1) / w)).sum

def luOf (s : State) (w op c : Nat) : Nat := dataPages s w c * (100 - op) / 100

def fittedChans (s : State) : List Nat := (List.range 64).filter (fun c => (getCh s c).dies != 0)

/-- Raw capacity (R255). -/
def rawCapacity (s : State) : Nat :=
  ((fittedChans s).map (fun c => let x := getCh s c; x.dies * blocksOf x * pagesOf x * pageBytes)).sum

/-- Map reservation: 1 GiB per 4 × 10^12 bytes, rounded up to 64 MiB (R262). -/
def mapReservation (raw : Nat) : Nat := roundUp (ceilDiv (2 ^ 30 * raw) (4 * 10 ^ 12)) (2 ^ 26)

/-- T3 capacity of the format; 0 without one (R261, R292). -/
def t3Capacity (s : State) : Nat := if s.fl.fmtW = 0 then 0 else ((fittedChans s).map (fun c => (getCh s c).luCount * pageBytes)).sum

/-! ### Superblocks and stripes -/

def setSupers (s : State) (l : List Super) : State := { s with fl := { s.fl with supers := l } }
def sameSuper (a b : Super) : Bool := a.g == b.g && a.d == b.d && a.num == b.num
def putSuper (s : State) (x : Super) : State := setSupers s (s.fl.supers.map (fun y => if sameSuper y x then x else y))
def findSuper (s : State) (g d num : Nat) : Option Super := s.fl.supers.find? (fun x => x.g == g && x.d == d && x.num == num)

def memberChip (x : Super) (m : Nat) : Nat := if x.onSpare.getD m false then 8 else x.d
def parityMember (w : Nat) (x : Super) : Nat := x.num % w
def memberNext (x : Super) (m : Nat) : Nat := x.next.getD m 0
def memberAbsent (x : Super) (m : Nat) : Nat := x.absentFrom.getD m 0
def memberBlock (x : Super) (m : Nat) : Nat := x.block.getD m 0

/-- The key of page k of member m. -/
def memberKey (s : State) (w : Nat) (x : Super) (m k : Nat) : Nat :=
  pageKey (memberChip x m) (memberBlock x m * pagesOf (getCh s (w * x.g + m)) + k)

def findPage (s : State) (c key : Nat) : Option Page := ((getCh s c).pages.find? (fun e => e.1 == key)).map Prod.snd

def dataMembers (w : Nat) (x : Super) : List Nat := (List.range w).filter (fun m => m != parityMember w x)

/-- Every data member has programmed stripe k, or is ABSENT there. -/
def stripeFull (w : Nat) (x : Super) (k : Nat) : Bool :=
  (dataMembers w x).all (fun m => decide (k < memberNext x m) || decide (memberAbsent x m ≤ k))

/-- Member m's page of stripe k is programmed, and not ABSENT. -/
def hasPage (x : Super) (m k : Nat) : Bool := decide (k < memberNext x m) && decide (k < memberAbsent x m) && !x.absent.contains (m, k)

def openStripes (x : Super) : Nat := x.opened.length

/-- Blocks of a die that no superblock uses, lowest erase count first (R279). While a position lies on two dies, a number that one of them uses is not free on the other, so that a map entry, which holds the position and the block number (R264), names one page. -/
def freeBlocks (s : State) (c chip : Nat) : List Nat :=
  let x := getCh s c
  let m := c % s.fl.fmtW
  let used := s.fl.supers.filterMap (fun u =>
    if u.g = c / s.fl.fmtW ∧ (memberChip u m = chip ∨ chipPos x chip = some u.d) then some (memberBlock u m) else none)
  let l := (List.range (blocksOf x)).filter (fun b => !(getBlock x chip b).bad && !used.contains b && !(rootBlocks x chip).contains b)
  sortBy (fun a b => decide ((getBlock x chip a).erases ≤ (getBlock x chip b).erases)) l

/-- The block that a die takes next: the first of its recorded queue that is still free (R288), or the first free one where the queue has run out. -/
def nextBlock (s : State) (c chip : Nat) : Option Nat :=
  match (tget [] (getCh s c).queue chip).find? (fun b => (freeBlocks s c chip).contains b) with
  | some b => some b
  | none => (freeBlocks s c chip).head?

/-- The block leaves the queue, with what stood before it. -/
def takeBlock (s : State) (c chip b : Nat) : State :=
  let x := getCh s c
  let l := tget [] x.queue chip
  if l.contains b then setCh s c { x with queue := tset x.queue chip ((l.dropWhile (fun y => y != b)).drop 1) } else s

/-- The chip that position d of channel c takes new blocks from (R282). -/
def chipOf (s : State) (c d : Nat) : Nat :=
  let x := getCh s c
  if x.migrated = some d ∨ (x.migrating.map Prod.snd) = some d then 8 else d

/-- Opens a superblock of group (g, d), if every member has a free block beyond the reserve. -/
def openSuper (s : State) (g d reserve : Nat) : Option State :=
  let w := s.fl.fmtW
  let picks := (groupChans w g).map (fun c => (freeBlocks s c (chipOf s c d))[reserve]? |>.bind (fun _ => nextBlock s c (chipOf s c d)))
  if picks.any (fun p => p.isNone) then none
  else
    let num := ((s.fl.supers.filter (fun x => x.g == g && x.d == d)).foldl (fun a x => max a (x.num + 1)) (tget 0 s.fl.superNum (g * 16 + d)))
    let p := pagesOf (getCh s (w * g))
    let x : Super :=
      { g := g, d := d, num := num, block := picks.map (fun b => b.getD 0), onSpare := (groupChans w g).map (fun c => chipOf s c d == 8),
        next := List.replicate w 0, absentFrom := List.replicate w p, unprotectedFrom := p }
    let s1 := { s with fl := { s.fl with supers := s.fl.supers ++ [x], superNum := tset s.fl.superNum (g * 16 + d) (num + 1) } }
    some ((List.zip (groupChans w g) picks).foldl (fun a cb => takeBlock a cb.1 (chipOf s cb.1 d) (cb.2.getD 0)) s1)

/-- Stores a programmed page: header, sequence number, counters. -/
def storePage (s : State) (c key kind member lu sb : Nat) (data : Mem) (hx : List Byte) : State :=
  let x := getCh s c
  let p : Page :=
    { kind := kind, width := s.fl.fmtW, member := member, lu := lu, seq := x.seq, sb := sb, ckpt := x.ckptNum, fmtId := s.fl.fmtId,
      data := data, hdrXor := hx }
  let s1 := setCh s c { x with pages := tset x.pages key p, seq := x.seq + 1, since := x.since + 1 }
  let s2 := { s1 with fl := { s1.fl with badCw := s1.fl.badCw.filter (fun b => !(b.1 == c && b.2.1 == key)) } }
  cntFl s2 4 1

/-- The 64-byte header of a page (R257). -/
def headerBytes (p : Page) : List Byte :=
  toLE 1 p.kind ++ toLE 1 p.width ++ toLE 2 p.member ++ toLE 4 p.lu ++ toLE 8 p.seq ++ toLE 4 p.sb ++ toLE 4 p.ckpt ++ toLE 8 p.fmtId ++ zeros 32

def noLu : Nat := 0xFFFFFFFF

/-- Data pages of stripe k that are programmed. -/
def stripePages (s : State) (w : Nat) (x : Super) (k : Nat) : List Page :=
  (dataMembers w x).filterMap (fun m => if hasPage x m k then findPage s (w * x.g + m) (memberKey s w x m k) else none)

/-- Programs the parity page of the next stripe of a superblock, or passes it by where the stripe is unprotected (R274, R276, R277). -/
def closeParity (s : State) (x : Super) : State :=
  let w := s.fl.fmtW
  let k := x.closed
  let m := parityMember w x
  let c := w * x.g + m
  let x1 := { x with closed := k + 1, opened := x.opened.drop 1, next := x.next.set m (k + 1) }
  if x.unprotectedFrom ≤ k then putSuper s x1
  else
    let ps := stripePages s w x k
    let data := ps.foldl (fun a p => memXor a p.data) []
    let hx := ps.foldl (fun a p => xorBytes a (headerBytes p)) (zeros 64)
    putSuper (storePage s c (memberKey s w x m k) 1 m noLu x.num data hx) x1

/-- Programs the parity of every stripe that is complete, in order. -/
def closeFull : Nat → State → Nat → Nat → Nat → State
  | 0, s, _, _, _ => s
  | n + 1, s, g, d, num =>
    match findSuper s g d num with
    | none => s
    | some x => if openStripes x ≠ 0 ∧ stripeFull s.fl.fmtW x x.closed then closeFull n (closeParity s x) g d num else s

/-- Programs page `next` of member m of a superblock; opens the stripe if no member has reached it. -/
def programAt (s : State) (x : Super) (m kind lu : Nat) (data : Mem) : State :=
  let w := s.fl.fmtW
  let k := memberNext x m
  let s1 := storePage s (w * x.g + m) (memberKey s w x m k) kind m lu x.num data []
  let opened := if x.closed + openStripes x ≤ k then x.opened ++ [s.tempo] else x.opened
  let s2 := putSuper s1 { x with next := x.next.set m (k + 1), opened := opened }
  closeFull 65 (if kind = 2 then cntFl s2 8 1 else s2) x.g x.d x.num

/-- PAD pages on one member from its next page up to page k. -/
def padMember : Nat → State → Nat → Nat → Nat → Nat → Nat → State
  | 0, s, _, _, _, _, _ => s
  | n + 1, s, g, d, num, m, k =>
    match findSuper s g d num with
    | none => s
    | some x =>
      if memberNext x m ≤ k ∧ memberNext x m < memberAbsent x m then padMember n (programAt s x m 2 noLu []) g d num m k else s

/-- Closes the oldest open stripe of a superblock (R275). -/
def closeOldest (s : State) (x : Super) : State :=
  let s1 := (dataMembers s.fl.fmtW x).foldl (fun a m => padMember (x.closed + 1) a x.g x.d x.num m x.closed) s
  match findSuper s1 x.g x.d x.num with
  | some y => if y.closed = x.closed ∧ openStripes y ≠ 0 then closeParity s1 y else s1
  | none => s1

/-- The superblock of a group that holds its oldest open stripe. -/
def oldestOpen (s : State) (g d : Nat) : Option Super :=
  (s.fl.supers.filter (fun x => x.g == g && x.d == d && openStripes x != 0)).foldl (fun a x =>
    match a with
    | none => some x
    | some y => if x.opened.headD 0 < y.opened.headD 0 then some x else a) none

def groupOpen (s : State) (g d : Nat) : Nat := ((s.fl.supers.filter (fun x => x.g == g && x.d == d)).map openStripes).sum

/-- A superblock of the group in which member m may program a data page. -/
def roomFor (s : State) (g d m : Nat) : Option Super :=
  let w := s.fl.fmtW
  s.fl.supers.find? (fun x => x.g == g && x.d == d && m != parityMember w x
    && decide (memberNext x m < memberAbsent x m)
    && !(x.retiredOpen && decide (x.closed + openStripes x ≤ memberNext x m)))

/-- Programs a data page on a channel: on the next die in rotation, in a superblock with room or a new one; at most 64 stripes of a group are open (R273, R275). None: no free block (R280). -/
def programOn (s : State) (c d reserve kind lu : Nat) (data : Mem) : Option (Nat × State) :=
  let w := s.fl.fmtW
  let g := c / w
  let m := c % w
  let rec seek : Nat → State → Option State
    | 0, _ => none
    | n + 1, a => match roomFor a g d m with
      | some _ => some a
      | none => (openSuper a g d reserve).bind (seek n)
  (seek 3 s).bind (fun a => (roomFor a g d m).bind (fun x =>
    let a1 :=
      if x.closed + openStripes x ≤ memberNext x m ∧ 64 ≤ groupOpen a g d then
        match oldestOpen a g d with
        | some y => closeOldest a y
        | none => a
      else a
    (roomFor a1 g d m).map (fun y => (memberKey a1 w y m (memberNext y m), programAt a1 y m kind lu data))))

/-- Programs a page on a channel, trying its dies in rotation; answers the page's die position and its key. -/
def programPage (s : State) (c reserve kind lu : Nat) (data : Mem) : Option (Nat × Nat × State) :=
  let x := getCh s c
  (List.range x.dies).findSome? (fun i =>
    let d := (x.nextDie + i) % x.dies
    (programOn s c d reserve kind lu data).map (fun r =>
      let y := getCh r.2 c
      (d, r.1, setCh r.2 c { y with nextDie := (d + 1) % x.dies })))

/-- Free blocks that the node keeps for its own parity, pads and checkpoints (R280). -/
def flashReserve : Nat := 1

/-! ### The map (R264 to R267) -/

def luEntry (s : State) (c lu : Nat) : Option MapEntry := ((getCh s c).map.find? (fun e => e.1 == lu)).map Prod.snd

def markDirty (c : Channel) (lu : Nat) : Channel :=
  { c with dirty := if c.dirty.contains (lu / 4096) then c.dirty else c.dirty ++ [lu / 4096] }

def setLu (s : State) (c lu : Nat) (e : MapEntry) : State :=
  let x := markDirty (getCh s c) lu
  setCh s c { x with map := tset x.map lu e }

def clearLu (s : State) (c lu : Nat) : State :=
  let x := markDirty (getCh s c) lu
  setCh s c { x with map := tdel x.map lu }

/-- The superblock, member and stripe of a physical page. -/
def stripeOf (s : State) (c chip page : Nat) : Option (Super × Nat × Nat) :=
  let w := s.fl.fmtW
  let p := pagesOf (getCh s c)
  if w = 0 ∨ p = 0 then none
  else (s.fl.supers.find? (fun x => x.g == c / w && memberChip x (c % w) == chip && memberBlock x (c % w) == page / p)).map (fun x => (x, c % w, page % p))

/-- Key of the page at die position d: the superblock that holds the block says which die (R283). -/
def keyOf (s : State) (c d page : Nat) : Nat :=
  let w := s.fl.fmtW
  match s.fl.supers.find? (fun x => x.g == c / w && x.d == d && memberBlock x (c % w) == page / pagesOf (getCh s c)) with
  | some x => pageKey (memberChip x (c % w)) page
  | none => pageKey d page

/-- Codewords read from a die: counted, and in the die's window (R272, R284). -/
def countReads (s : State) (c chip n : Nat) : State :=
  let x := getCh s c
  cntFl (setCh s c (setDie x chip { getDie x chip with reads := (getDie x chip).reads + n })) 0 n

/-- The tenant of the object that a channel's logical unit belongs to; 0x7F for none (R409). -/
def luOwner (s : State) (c lu : Nat) : Nat :=
  match s.ms.objs.find? (fun o => o.tier == 3 && (List.range o.lus.length).any (fun u => o.chans.getD (u % o.chans.length) 0 == c && o.lus.getD u 0 == lu)) with
  | some o => o.tenant
  | none => 0x7F

/-! ### Reading a page (R270 to R272) -/

/-- The medium's state of a codeword: 0 where it decodes at once, the retry set that decodes it, or 16 where none does. -/
def cwSet (s : State) (c key j : Nat) : Nat :=
  match s.fl.badCw.find? (fun b => b.1 == c && b.2.1 == key && b.2.2.1 == j) with
  | some b => b.2.2.2
  | none => 0

/-- No set decodes it. -/
def cwLost (s : State) (c key j : Nat) : Bool := decide (15 < cwSet s c key j)

def setCw (s : State) (c key j set : Nat) : State :=
  let l := s.fl.badCw.filter (fun b => !(b.1 == c && b.2.1 == key && b.2.2.1 == j))
  { s with fl := { s.fl with badCw := if set = 0 then l else l ++ [(c, key, j, set)] } }

/-- A codeword needed retry sets up to `set`. -/
def countRetry (s : State) (c chip set : Nat) : State :=
  let x := getCh s c
  let s1 := setCh s c (setDie x chip { getDie x chip with retries := (getDie x chip).retries + 1 })
  calTake (cntFl s1 1 1) (fun k => calOf 5 k && k % 64 == c && bits k 6 4 == chip && decide (1 ≤ bits k 10 4) && decide (bits k 10 4 ≤ set))

/-- One codeword is read and corrected, apart from the rebuild step; false when no set decodes it. -/
def readRaw (s : State) (c key j : Nat) : State × Bool :=
  let s1 := countReads s c (key / 2 ^ 23) 1
  match cwSet s c key j with
  | 0 => (s1, true)
  | n => (countRetry s1 c (key / 2 ^ 23) (min n 15), decide (n ≤ 15))

/-- The other programmed pages of a page's stripe: the data members', and in a closed stripe the parity member's; members by number. -/
def otherPages (s : State) (x : Super) (m k : Nat) : List (Nat × Nat) :=
  let w := s.fl.fmtW
  ((List.range w).filter (fun o => o != m && hasPage x o k && (o != parityMember w x || decide (k < x.closed)))).map (fun o => (w * x.g + o, memberKey s w x o k))

/-- Reads codeword j of each page, until one cannot be read. -/
def readEach (j : Nat) : State → List (Nat × Nat) → State × Bool
  | s, [] => (s, true)
  | s, p :: r => let a := readRaw s p.1 p.2 j; if a.2 then readEach j a.1 r else (a.1, false)

/-- What the stripe's other pages give for a lost page: their exclusive-or, with the running parity in place of the parity page where the stripe is open (R271). -/
def rebuiltPage (s : State) (x : Super) (m k : Nat) : Mem :=
  let others := (otherPages s x m k).filterMap (fun p => findPage s p.1 p.2)
  let running := if k < x.closed then [] else (stripePages s s.fl.fmtW x k).foldl (fun a p => memXor a p.data) []
  others.foldl (fun a p => memXor a p.data) running

/-- A codeword that no set decodes is rebuilt; none when a contribution cannot be read, or the stripe has no parity. -/
def rebuildCw (s : State) (c key j : Nat) : State × Option Mem :=
  match stripeOf s c (key / 2 ^ 23) (key % 2 ^ 23) with
  | none => (s, none)
  | some (x, m, k) =>
    if x.unprotectedFrom ≤ k then (s, none)
    else
      let r := readEach j s (otherPages s x m k)
      if r.2 then (cntFl r.1 2 1, some (rebuiltPage s x m k)) else (r.1, none)

/-- Reads one codeword: the page contents from which its bytes come, or none (R270). A page that is not programmed reads as zeros. -/
def readCw (s : State) (c key j : Nat) : State × Option Mem :=
  let a := readRaw s c key j
  if a.2 then (a.1, some (match findPage s c key with | some p => p.data | none => []))
  else rebuildCw a.1 c key j

/-- A read ends with FAULT_MEDIA: counted and logged (R272; 13 R410). -/
def mediaFault (s : State) (owner c key j : Nat) : State :=
  let page := key % 2 ^ 23
  errEvent (cntFl s 3 1) 6 0x0030 owner (engineUnit c (key / 2 ^ 23)) page page j 0

/-- Bytes o to o + n - 1 of a page, codeword by codeword from codeword j. -/
def readCws : Nat → State → Nat → Nat → Nat → Nat → Nat → Nat → State × Except Nat (List Byte)
  | 0, s, _, _, _, _, _, _ => (s, .ok [])
  | f + 1, s, owner, c, key, j, o, n =>
    if n = 0 then (s, .ok [])
    else
      let m := min n (4096 * (j + 1) - o)
      let r := readCw s c key j
      match r.2 with
      | none => (mediaFault r.1 owner c key j, .error stMedia)
      | some d =>
        let q := readCws f r.1 owner c key (j + 1) (o + m) (n - m)
        (q.1, match q.2 with | .ok b => .ok (memRead d o m ++ b) | .error e => .error e)

/-- Bytes of a page: only the codewords that hold them are read (R258). -/
def readPage (s : State) (owner c key o n : Nat) : State × Except Nat (List Byte) := readCws 5 s owner c key (o / 4096) o n

/-- The parts of a page that the named codewords hold; none where one of them cannot be read. -/
def readPageParts (c key : Nat) : State → List Nat → State × Except Nat Mem
  | s, [] => (s, .ok [])
  | s, j :: l =>
    let r := readCw s c key j
    match r.2 with
    | none => (r.1, .error j)
    | some d =>
      let q := readPageParts c key r.1 l
      (q.1, match q.2 with | .ok m => .ok (d.filter (fun x => decide (4096 * j ≤ x.1) && decide (x.1 < 4096 * (j + 1))) ++ m) | .error e => .error e)

/-- What a read of bytes of a unit gives: the bytes, or the fault (R265, R270). A FAULT_MEDIA is counted (R272). -/
def readUnit (s : State) (c lu o n : Nat) : State × Except Nat (List Byte) :=
  match luEntry s c lu with
  | none => (s, .ok (zeros n))
  | some .lost => (cntFl s 3 1, .error stMedia)
  | some (.page d page) => if (getCh s c).dies = 0 then (s, .error stMedia) else readPage s (luOwner s c lu) c (keyOf s c d page) o n

/-! ### Checkpoints (R286 to R288) -/

/-- The entries of a map segment as they lie in its page. -/
def segmentData (c : Channel) (seg : Nat) : Mem :=
  let mine := c.map.filter (fun e => e.1 / 4096 == seg)
  let put (m : Mem) (e : Nat × MapEntry) : Mem :=
    memWrite m (e.1 % 4096 * 4) (toLE 4 (match e.2 with | .lost => 0xFFFFFFFE | .page d p => d + 8 * p))
  mine.foldl put (memWrite [] 0 (List.replicate 16384 0xFF))

/-- The map entries that a segment's page holds (R264). -/
def segmentMap (seg : Nat) (d : Mem) : Tab MapEntry :=
  (List.range 4096).filterMap (fun i =>
    let v := memLE d (4 * i) 4
    if v = 0xFFFFFFFF then none else some (seg * 4096 + i, if v = 0xFFFFFFFE then .lost else .page (v % 8) (v / 8 % 2 ^ 23)))

/-- Pages that a root takes: one for what is fixed, and the segments' addresses of 4 bytes (log entry 67). -/
def rootPages (x : Channel) : Nat := 1 + ceilDiv (4 * ceilDiv x.luCount 4096) pageBytes

/-- Chip enables that take blocks. -/
def liveChips (x : Channel) : List Nat := List.range x.dies ++ (if (chipPos x 8).isSome then [8] else [])

/-- The allocation queue that a root records for a die: its next 16 free blocks (R287). -/
def recordQueue (s : State) (c chip : Nat) : List Nat := (freeBlocks s c chip).take 16

/-- The open blocks of a channel, with the next page of each (R287). -/
def openBlocks (s : State) (c : Nat) : List (Nat × Nat × Nat) :=
  let m := c % s.fl.fmtW
  (s.fl.supers.filter (fun x => x.g == c / s.fl.fmtW && decide (memberNext x m < pagesOf (getCh s c)))).map (fun x => (memberChip x m, memberBlock x m, memberNext x m))

/-- Erases a block: its pages and roots are gone and its count rises. -/
def wipeBlock (s : State) (c chip b : Nat) : State :=
  let x := getCh s c
  let lo := pageKey chip (b * pagesOf x)
  let inIt (k : Nat) : Bool := decide (lo ≤ k) && decide (k < lo + pagesOf x)
  let y := setBlock { x with pages := x.pages.filter (fun e => !inIt e.1), roots := x.roots.filter (fun r => !r.pages.any inIt) } chip b
    { getBlock x chip b with erases := (getBlock x chip b).erases + 1 }
  let s1 := setCh s c y
  cntFl { s1 with fl := { s1.fl with badCw := s1.fl.badCw.filter (fun w => !(w.1 == c && inIt w.2.1)) } } 6 1

/-- Appends a root to the root blocks of die 0 in turn: where the block in use has no room, the other is erased, which then holds only older roots (R287). -/
def appendRoot (s : State) (c : Nat) (r : Root) : State :=
  let x := getCh s c
  let chip := posChip x 0
  let n := rootPages x
  let full := decide (pagesOf x < x.rootPage + n)
  let blk := if full then 1 - x.rootBlk else x.rootBlk
  let b := (rootBlocks x chip).getD blk 0
  let s1 := if full then wipeBlock s c chip b else s
  let at0 := if full then 0 else x.rootPage
  let keys := (List.range n).map (fun i => pageKey chip (b * pagesOf x + at0 + i))
  let y := getCh s1 c
  let s2 := setCh s1 c { y with rootBlk := blk, rootPage := at0 + n, roots := { r with pages := keys } :: y.roots }
  cntFl { s2 with fl := { s2.fl with badCw := s2.fl.badCw.filter (fun w => !(w.1 == c && keys.contains w.2.1)) } } 4 n

/-- Programs the changed segments' pages; none when one finds no block. -/
def programSegs (c : Nat) (x : Channel) : State → List Nat → Option State
  | s, [] => some s
  | s, seg :: l =>
    match programPage s c 0 3 seg (segmentData x seg) with
    | some (_, key, a) => programSegs c x (setCh a c { getCh a c with segs := tset (getCh a c).segs seg key }) l
    | none => none

/-- Takes a checkpoint of a channel: SEGMENT pages of every changed segment as it stands at the start, then a root with new queues. It is not taken, and stays due, where a page finds no block. `seq` is the next sequence number at the start, so that a page from it on is later than the checkpoint. -/
def takeCheckpoint (s : State) (c : Nat) : State :=
  let x := getCh s c
  match programSegs c x s x.dirty with
  | none => s
  | some s1 =>
    let y := getCh s1 c
    let q := (liveChips y).map (fun k => (k, recordQueue s1 c k))
    let r : Root := { num := x.ckptNum + 1, seq := x.seq, fmtId := s.fl.fmtId, segs := y.segs, supers := s1.fl.supers.filter (fun u => u.g == c / s.fl.fmtW),
                      opens := openBlocks s1 c, queues := q }
    appendRoot (setCh s1 c { y with ckptNum := x.ckptNum + 1, ckptTick := s.tempo, since := 0, force := false, dirty := [], queue := q }) c r

/-- A die's recorded queue has run out although it has free blocks. -/
def queueOut (s : State) (c chip : Nat) : Bool := (tget [] (getCh s c).queue chip).isEmpty && !(freeBlocks s c chip).isEmpty

/-- Before a die would take a block beyond its recorded queue, its channel takes a checkpoint (R288). -/
def ensureQueues (s : State) (c : Nat) : State :=
  let w := s.fl.fmtW
  let d := (getCh s c).nextDie
  if (roomFor s (c / w) d (c % w)).isSome then s
  else (groupChans w (c / w)).foldl (fun a k => if queueOut a k (chipOf a k d) then takeCheckpoint a k else a) s

/-- Programs a page for a request or for garbage collection. -/
def programData (s : State) (c reserve kind lu : Nat) (data : Mem) : Option (Nat × Nat × State) := programPage (ensureQueues s c) c reserve kind lu data

/-! ### Writing a unit (R266) -/

/-- The codewords of a page that a write of n bytes at o does not wholly cover. -/
def partCws (o n : Nat) : List Nat := (List.range 4).filter (fun j => !(decide (o ≤ 4096 * j) && decide (4096 * (j + 1) ≤ o + n)))

/-- What a unit holds outside the codewords that a write covers, or the fault that its read meets. -/
def restOfUnit (s : State) (c lu o n : Nat) : State × Except Nat Mem :=
  if (partCws o n).isEmpty then (s, .ok [])
  else
    match luEntry s c lu with
    | none => (s, .ok [])
    | some .lost => (cntFl s 3 1, .error stMedia)
    | some (.page d page) =>
      let key := keyOf s c d page
      let r := readPageParts c key s (partCws o n)
      match r.2 with
      | .ok m => (r.1, .ok m)
      | .error j => (mediaFault r.1 (luOwner s c lu) c key j, .error stMedia)

/-- Writes part of a unit: reads the rest, merges, programs one page and repoints the map (R266); without a free block the request ends with FAULT_MEDIA (R280). -/
def writeUnit (s : State) (c lu o : Nat) (bs : List Byte) : State × Option Nat :=
  if (getCh s c).dies = 0 then (s, some stMedia)
  else
    let old := restOfUnit s c lu o bs.length
    match old.2 with
    | .error e => (old.1, some e)
    | .ok m =>
      match programData old.1 c flashReserve 0 lu (memWrite m o bs) with
      | none => (old.1, some stMedia)
      | some (d, key, s1) => (setLu s1 c lu (.page d (key % 2 ^ 23)), none)

end Sys2Proof.Machine
end

