-- ==== Sys2Proof/Machine/Store.lean ====
section
/-! DEFINITION. Where object bytes lie, reading and writing them, and the charges against reservations (08 R220 to R233; 09 R263). -/

namespace Sys2Proof.Machine

open Sys2Proof

/-! ### Stack layout (R230, R231) -/

/-- The folded group number: the part of the hash that is common to a group of 256 rows. -/
def groupFold (g seed : Nat) : Nat :=
  let y := (g % 2 ^ 32) ^^^ (seed % 2 ^ 32)
  (y % 256) ^^^ (y / 256 % 256) ^^^ (y / 65536 % 256) ^^^ (y / 16777216 % 256)

/-- stack_channel of R230. -/
def stackChannel (r seed : Nat) : Nat := (r % 256) ^^^ groupFold (r / 256) seed ^^^ (seed / 2 ^ 32 % 256)

/-- The row of group g that lies on a channel. -/
def rowOn (g c seed : Nat) : Nat := g * 256 + (c ^^^ groupFold g seed ^^^ (seed / 2 ^ 32 % 256))

/-- Channel-local block of a row, and its pseudo-channel. -/
def rowBlock (o : Obj) (r : Nat) : Nat := o.block + r / 256
def rowPseudo (r : Nat) : Nat := r / 256 % 2

/-- The object bytes that a channel-local block holds, if the block is the object's. -/
def bytesOnBlock (s : State) (o : Obj) (c b : Nat) : Option Nat :=
  if o.block ≤ b ∧ b < o.block + o.size / 262144 then some (rowOn (b - o.block) c s.ms.seed * 1024) else none

def overlaps (a n b m : Nat) : Bool := decide (a < b + m) && decide (b < a + n)

/-- What a read of object bytes meets in the stacks: a burst that fails its check, or a row that on-die correction gives up (R233). -/
inductive StackBad where
  | check (c b u : Nat)
  | odc (c b : Nat)
  deriving DecidableEq, Repr

def stackBad (s : State) (o : Obj) (off n : Nat) : Option StackBad :=
  if o.tier ≠ 1 ∨ n = 0 then none
  else
    let odc := s.ms.badRows.find? (fun cb => match bytesOnBlock s o cb.1 cb.2 with | some a => overlaps a 1024 off n | none => false)
    match odc with
    | some cb => some (.odc cb.1 cb.2)
    | none =>
      if o.raw then none
      else
        (s.ms.badBursts.find? (fun x => match bytesOnBlock s o x.1 x.2.1 with | some a => overlaps (a + 64 * x.2.2) 64 off n | none => false)).map
          (fun x => .check x.1 x.2.1 x.2.2)

/-- Counts and logs the error that ends a read (13 R406, R410). -/
def logStackBad (s : State) (t : Nat) : StackBad → State
  | .check c b u => errEvent s 3 0x0020 t (stackUnit c) b 1 b u
  | .odc c b => errEvent s 5 0x0022 t (stackUnit c) b 1 b 0

/-- A write stores new data with new check bits (R233). A row that on-die correction had given up reads again once a write has stored the whole of it. -/
def mendBursts (s : State) (o : Obj) (off n : Nat) : State :=
  if o.tier ≠ 1 then s
  else
    { s with ms := { s.ms with
        badBursts := s.ms.badBursts.filter (fun x =>
          match bytesOnBlock s o x.1 x.2.1 with | some a => !overlaps (a + 64 * x.2.2) 64 off n | none => true),
        badRows := s.ms.badRows.filter (fun x =>
          match bytesOnBlock s o x.1 x.2 with | some a => !(decide (off ≤ a) && decide (a + 1024 ≤ off + n)) | none => true) } }

/-- A T2 object that this node holds for a peer, as the object of the stacks that it is (R231; 10 R305). -/
def exportObj (e : Export) : Obj :=
  { tenant := e.tenant, num := 0, type := 0, tier := 1, raw := e.raw, size := e.size, block := e.block, data := e.data }

/-! ### T3 units (R227, 09 R263) -/

/-- The channel and logical unit of unit u of a T3 object. -/
def unitPlace (o : Obj) (u : Nat) : Nat × Nat := (o.chans.getD (u % o.chans.length) 0, o.lus.getD u 0)

/-- Reads bytes of a T3 object with `rd`, unit by unit from unit u; the first fault ends it. -/
def readUnits (rd : State → Nat → Nat → Nat → Nat → State × Except Nat (List Byte)) : Nat → State → Obj → Nat → Nat → State × Except Nat (List Byte)
  | 0, s, _, _, _ => (s, .ok [])
  | k + 1, s, o, off, n =>
    if n = 0 then (s, .ok [])
    else
      let a := off % pageBytes
      let m := min n (pageBytes - a)
      let p := unitPlace o (off / pageBytes)
      let r := rd s p.1 p.2 a m
      match r.2 with
      | .error e => (r.1, .error e)
      | .ok b =>
        let q := readUnits rd k r.1 o (off + m) (n - m)
        (q.1, match q.2 with | .ok c => .ok (b ++ c) | .error e => .error e)

/-- Reads bytes of a T3 object as they stand. -/
def readT3 (k : Nat) (s : State) (o : Obj) (off n : Nat) : State × Except Nat (List Byte) := readUnits readUnit k s o off n

/-- The unit that a mutation after the epoch was the first to supersede, where there is one (07 R192; 09 R267). -/
def retainedAt (s : State) (c lu e : Nat) : Option Retained := s.fl.retained.find? (fun r => r.ch == c && r.lu == lu && decide (e < r.epoch))

/-- A retained record of a unit that held no page. -/
def noPage : Nat := 2 ^ 63

/-- Reads bytes of a unit as it stood at the epoch: from the page that a later mutation has superseded, while it is retained (09 R267). -/
def readUnitAt (e : Nat) (s : State) (c lu o n : Nat) : State × Except Nat (List Byte) :=
  match retainedAt s c lu e with
  | some r => if r.key = noPage then (s, .ok (zeros n)) else if (getCh s c).dies = 0 then (s, .error stMedia) else readPage s r.tenant c r.key o n
  | none => readUnit s c lu o n

/-- Writes bytes of a T3 object; the first fault ends it. -/
def writeT3 : Nat → State → Obj → Nat → List Byte → State × Option Nat
  | 0, s, _, _, _ => (s, none)
  | k + 1, s, o, off, bs =>
    if bs.isEmpty then (s, none)
    else
      let a := off % pageBytes
      let m := min bs.length (pageBytes - a)
      let p := unitPlace o (off / pageBytes)
      let r := writeUnit s p.1 p.2 a (bs.take m)
      match r.2 with
      | some e => (r.1, some e)
      | none => writeT3 k r.1 o (off + m) (bs.drop m)

def unitsOf (off n : Nat) : Nat := n / pageBytes + 2 + b2n (decide (off % pageBytes ≠ 0))

/-! ### Objects as bytes -/

/-- Flash is being discovered, formatted or recovered: a request that reads or writes T3 waits (09 R291). -/
def flashWait (s : State) : Bool := s.fl.fstate == 1 || s.fl.fstate == 3 || s.fl.fstate == 4

/-- A failed recovery ends every T3 request with FAULT_MEDIA (09 R291). -/
def flashFailed (s : State) : Bool := s.fl.fstate == 6

/-- Reads local bytes of an object at tier 0, 1 or 3. -/
def readObj (s : State) (o : Obj) (off n : Nat) : State × Except Nat (List Byte) :=
  if o.tier = 3 then
    if flashFailed s then (s, .error stMedia) else readT3 (unitsOf off n) s o off n
  else
    match stackBad s o off n with
    | some b => (logStackBad s o.tenant b, .error stMemory)
    | none => (s, .ok (memRead o.data off n))

/-- Reads local bytes of an object whose T3 units are read as at the epoch; `undo` on its other bytes is the reader's. -/
def readObjAt (s : State) (o : Obj) (e off n : Nat) : State × Except Nat (List Byte) :=
  if o.tier = 3 then
    if flashFailed s then (s, .error stMedia) else readUnits (readUnitAt e) (unitsOf off n) s o off n
  else readObj s o off n

/-- The directory's copy of a tensor's header follows the header's bytes. -/
def hdrAfter (o : Obj) (off : Nat) (bs : List Byte) : Mem :=
  if o.type = 0x05 ∧ off < 4096 then memWrite o.hdr off (bs.take (4096 - off)) else o.hdr

/-- Writes local bytes of an object at tier 0, 1 or 3. -/
def writeObj (s : State) (o : Obj) (off : Nat) (bs : List Byte) : State × Option Nat :=
  if o.tier = 3 then
    if flashFailed s then (s, some stMedia)
    else
      let r := writeT3 (unitsOf off bs.length) s o off bs
      (if r.2.isSome then r.1 else putObj r.1 { o with hdr := hdrAfter o off bs }, r.2)
  else (mendBursts (putObj s { o with hdr := hdrAfter o off bs, data := memWrite o.data off bs }) o off bs.length, none)

/-! ### Charges (R220, R226, 02 R49, R59) -/

def tierUse (l : List Obj) (t tier : Nat) : Nat := ((l.filter (fun o => o.tenant == t && o.tier == tier)).map (fun o => o.size)).sum

/-- Copies of running MOVEs: both copies are charged (R228). -/
def moveCopies (s : State) : List Obj := s.ms.jobs.filterMap (fun j => j.dest)

def useT0 (s : State) (t : Nat) : Nat := tierUse (s.ms.objs ++ moveCopies s) t 0
def useT1 (s : State) (t : Nat) : Nat := tierUse (s.ms.objs ++ moveCopies s) t 1
def useT3 (s : State) (t : Nat) : Nat := tierUse (s.ms.objs ++ moveCopies s) t 3
def useT2x (s : State) (t : Nat) : Nat := ((s.ms.exports.filter (fun e => e.tenant == t)).map (fun e => e.size)).sum

/-- Retained use counts only for a tenant without a Position (R59). -/
def retainedStack (s : State) (t : Nat) : Nat := if hasPos s t then 0 else useT1 s t + useT2x s t
def retainedT3 (s : State) (t : Nat) : Nat := if hasPos s t then 0 else useT3 s t

def allTenants : List Nat := List.range 65

/-- Free capacity less the retained use of every tenant but `t` (02 R49); `t` above 64 subtracts all (R62). -/
def freeT0 (s : State) : Nat :=
  match s.bd.layer with
  | none => 0
  | some b => b.capT0 - (s.bd.positions.map (fun e => e.2.resT0)).sum

def freeStack (s : State) (t : Nat) : Nat :=
  match s.bd.layer with
  | none => 0
  | some b => b.capStack - (s.bd.positions.map (fun e => e.2.resT1 + e.2.resT2)).sum
      - ((allTenants.filter (fun x => x != t)).map (retainedStack s)).sum

def freeT3 (s : State) (t : Nat) : Nat :=
  match s.bd.layer with
  | none => 0
  | some b => if s.fl.fmtW = 0 then 0 else b.capT3 - (s.bd.positions.map (fun e => e.2.resT3)).sum
      - ((allTenants.filter (fun x => x != t)).map (retainedT3 s)).sum

/-- The capacity registers change at recomposition boundaries and base-layer completions (02 R64). -/
def updateCaps (s : State) : State :=
  { s with bd := { s.bd with capT0 := freeT0 s, capStack := freeStack s 65, capT3 := freeT3 s 65 } }

/-- The lowest even channel-local block from which n blocks are free of other objects. -/
def allocBlock (s : State) (n : Nat) : Nat :=
  let taken := (s.ms.objs ++ moveCopies s).filterMap (fun o => if o.tier = 1 then some (o.block, o.size / 262144) else none)
    ++ s.ms.exports.map (fun e => (e.block, e.size / 262144))
  let cands := 0 :: taken.map (fun b => b.1 + b.2)
  ((sortBy (fun a b => decide (a ≤ b)) cands).find? (fun c => taken.all (fun b => !overlaps c n b.1 b.2))).getD 0

/-- Free logical units of a channel (09 R263). -/
def freeLus (s : State) (c : Nat) : Nat := (getCh s c).luCount - (getCh s c).free + (getCh s c).freed.length

def takeLu (s : State) (c : Nat) : Nat × State :=
  let x := getCh s c
  match x.freed with
  | a :: r => (a, setCh s c { x with freed := r })
  | [] => (x.free, setCh s c { x with free := x.free + 1 })

/-- Gives each unit of a channel list its logical unit. -/
def takeLus : Nat → Nat → State → List Nat → List Nat × State
  | 0, _, s, _ => ([], s)
  | n + 1, u, s, chans =>
    let a := takeLu s (chans.getD (u % chans.length) 0)
    let r := takeLus n (u + 1) a.2 chans
    (a.1 :: r.1, r.2)

/-- TRIM pages for logical units of a channel, at most 4,096 a page, and their map entries (09 R269); true when a program found no block. -/
def trimPages : Nat → State → Nat → List Nat → State × Bool
  | 0, s, _, _ => (s, false)
  | k + 1, s, c, l =>
    if l.isEmpty then (s, false)
    else
      let now := l.take 4096
      match programData s c flashReserve 4 now.length (cellsOf 0 (now.flatMap (toLE 4))) with
      | none => (s, true)
      | some (_, _, s1) => trimPages k (now.foldl (fun a u => clearLu a c u) s1) c (l.drop 4096)

/-- Discards units of a T3 object, channel by channel. -/
def trimUnits (s : State) (o : Obj) (us : List Nat) : State × Bool :=
  let ps := us.map (unitPlace o)
  o.chans.foldl (fun a c =>
    let r := trimPages (us.length / 4096 + 1) a.1 c ((ps.filter (fun p => p.1 == c)).map Prod.snd)
    (r.1, a.2 || r.2)) (s, false)

/-- Frees the units of a T3 object: they become invalid, as for DISCARD (R228), and may be given out again. -/
def freeT3Units (s : State) (o : Obj) : State :=
  if o.tier ≠ 3 then s
  else
    (List.zip (List.range o.lus.length) o.lus).foldl (fun a ul =>
      let c := o.chans.getD (ul.1 % o.chans.length) 0
      let b := clearLu a c ul.2
      setCh b c { getCh b c with freed := (getCh b c).freed ++ [ul.2] }) (trimUnits s o (List.range o.lus.length)).1

/-- Marks the BAR4 segments of an object that leaves T1. -/
def barErr (s : State) (t num : Nat) : State :=
  { s with ms := { s.ms with bar4Map := s.ms.bar4Map.map (fun e =>
      if e.2.valid ∧ e.2.tenant = t ∧ e.2.object = num then (e.1, { e.2 with err := true }) else e) } }

/-- A freed or discarded object leaves the directory; its index, if it is one, goes with it, and the BAR4 segments that show it name no T1 object any more (R252). -/
def removeObj (s : State) (o : Obj) : State :=
  let s1 := barErr (delObj (freeT3Units s o) o.tenant o.num) o.tenant o.num
  let l := s1.indexes.filter (fun i => !(i.tenant == o.tenant && i.num == o.num))
  { s1 with indexes := l.map (fun i => if i.tenant = o.tenant ∧ i.journal = some o.num then { i with journal := none } else i) }

end Sys2Proof.Machine
end

