-- ==== Sys2Proof/Machine/FabCore.lean ====
section
/-! DEFINITION. Sending remote requests and MESSAGEs, and ending what waits for them (10 R304 to R323; 03 R70, R78). -/

namespace Sys2Proof.Machine

open Sys2Proof

/-! ### Paths (R314) -/

/-- The owner, a Position or the base layer, has a stream of CLASS 1 with a slot run on the transmit path of the link. -/
def hasReqStream (s : State) (owner l : Nat) : Bool :=
  (ownerRuns s owner).any (fun r => r.kind == 6 && r.path == l && r.owner == owner && (match (ownerStreams s owner)[r.stream]? with | some x => x.cls == 1 | none => false))

def pathSet (s : State) (owner n : Nat) : List Nat :=
  (List.range 24).filter (fun l => hasReqStream s owner l && (getLink s l).st == 2 && bit (tget 0 s.fab.paths n) l)

/-- fabric_path: the link that carries an operation hashed as address `a`. -/
def fabricPath (a seed : Nat) (paths : List Nat) : Option Nat :=
  let y := (a / 256) % 2 ^ 40 ^^^ seed % 2 ^ 40
  let f := y % 256 ^^^ y / 2 ^ 8 % 256 ^^^ y / 2 ^ 16 % 256 ^^^ y / 2 ^ 24 % 256 ^^^ y / 2 ^ 32 % 256
  paths[f % paths.length]?

def fabSeed (s : State) : Nat := match s.bd.layer with | some b => b.pathSeed | none => 0

/-- The link of an operation; none: the node has no number (R304) or the path set is empty. -/
def linkFor (s : State) (owner n hash : Nat) : Option Nat :=
  if s.fab.assigned && !s.fab.standin then fabricPath hash (fabSeed s) (pathSet s owner n) else none

/-! ### Bytes of packets and MESSAGEs (R306, R315) -/

/-- The 32-byte packet header. -/
def packetHeader (p : Packet) : List Byte :=
  toLE 1 p.op ++ toLE 1 p.sub ++ toLE 1 p.tenant ++ toLE 1 p.src ++ toLE 1 p.dst ++ zeros 1 ++ toLE 2 p.len ++ toLE 8 p.addr ++ toLE 4 p.tag
    ++ toLE 4 p.seq ++ toLE 8 p.operand

def packetBytes (p : Packet) : List Byte := packetHeader p ++ p.data

/-- The packet that bytes spell. -/
def packetOf (b : List Byte) : Packet :=
  let f := fieldAt b
  { op := f 0 1, sub := f 1 1, tenant := f 2 1, src := f 3 1, dst := f 4 1, len := f 6 2, addr := f 8 8, tag := f 16 4, seq := f 20 4,
    operand := f 24 8, data := b.drop 32 }

/-- The 64-byte envelope, then the body. -/
def messageBytes (m : Message) : List Byte :=
  toLE 1 m.kind ++ toLE 1 m.tenant ++ toLE 2 m.srcDomain ++ toLE 1 m.srcNode ++ toLE 1 m.dstNode ++ toLE 2 m.dstDomain ++ toLE 4 m.body.length
    ++ toLE 4 m.msgId ++ toLE 8 m.epoch ++ toLE 4 m.partition ++ toLE 4 m.index ++ zeros 32 ++ m.body

def messageLen (m : Message) : Nat := 64 + m.body.length

/-- A packet of a MESSAGE: bytes off to off + n - 1 of it. -/
def partPacket (m : Message) (off n : Nat) : Packet :=
  { op := 5, sub := 0, tenant := m.tenant, src := m.srcNode, dst := m.dstNode, len := n, addr := 0, tag := m.tag, seq := 0, operand := 0,
    data := ((messageBytes m).drop off).take n }

/-- The packets of a MESSAGE, at most 2,048 data bytes each, as offsets and lengths. -/
def messageCuts : Nat → Nat → Nat → List (Nat × Nat)
  | 0, _, _ => []
  | k + 1, off, n => if n = 0 then [] else (off, min n 2048) :: messageCuts k (off + min n 2048) (n - min n 2048)

def messageParts (n : Nat) : List (Nat × Nat) := messageCuts (n / 2048 + 1) 0 n

/-- The bytes that a load puts on a link; none for a load that no link carries. -/
def loadBytes : Load → List Byte
  | .packet p => packetBytes p
  | .part m off n => packetBytes (partPacket m off n)
  | _ => []

/-! ### Receive buffers of the link ports (R301, R302; 03 R93) -/

/-- Buffer entries that a packet of n bytes takes at the receiving port (log entry 58). -/
def portEntries (n : Nat) : Nat := ceilDiv n 2400

/-- The stream on which an owner's packets of a class arrive over a link: its source is the link port. -/
def inStream (s : State) (owner l cls : Nat) : Option Nat := findStream s owner (fun _ x => x.source == linkUnit l && x.cls == cls)

/-- The port has freed n entries of a packet of tenant t: their credits wait for the next flit of the link (R302). -/
def freePort (s : State) (l t cls n : Nat) : State :=
  let give (owner stream : Nat) : State :=
    let k := getLink s l
    setLink s l { k with returns := k.returns ++ [(owner, stream, n)] }
  match inStream s t l cls, inStream s 0x7F l cls with
  | some st, _ => give t st
  | none, some st => give 0x7F st
  | none, none => s

/-- Entries that a MESSAGE takes: one a packet. -/
def msgEntries (m : Message) : Nat := (messageParts (messageLen m)).length

def freeMsg (s : State) (l : Nat) (m : Message) : State := freePort s l m.tenant 1 (msgEntries m)

/-! ### Sending (R301) -/

/-- The number of the owner's stream of a class with a slot run on a link's transmit path: one whose source is the Square that sends, else the first (log entry 58). -/
def linkStream (s : State) (owner l cls : Nat) (src : Option Nat) : Option Nat :=
  let on := fun (i : Nat) (x : Stream) => x.cls == cls && (ownerRuns s owner).any (fun r => r.kind == 6 && r.path == l && r.stream == i)
  match findStream s owner (fun i x => on i x && src.isSome && sqOfUnit s owner x.source == src) with
  | some i => some i
  | none => findStream s owner on

/-- The Square that a request waits for, which is its source. -/
def srcSquare : ReqSource → Option Nat
  | .elem n _ _ => some n
  | _ => none

/-- What is to leave on a link waits as a token of the owner's stream of the class; false when the owner has none there. -/
def linkToken (s : State) (owner l cls : Nat) (src : Option Nat) (ld : Load) : State × Bool :=
  match linkStream s owner l cls src with
  | some i => (addToken s owner i ⟨(loadBytes ld).length, ld⟩, true)
  | none => (s, false)

/-- The packets of a MESSAGE wait as tokens. -/
def linkParts (s : State) (owner l : Nat) (m : Message) : State :=
  (messageParts (messageLen m)).foldl (fun a c => (linkToken a owner l 1 none (.part m c.1 c.2)).1) s

/-- Whether an operation is numbered in the tenant's store sequence (R311). -/
def isStoreOp (op : Nat) : Bool := op == 2 || op == 3 || op == 4

def addReq (s : State) (r : Req) : State := { s with fab := { s.fab with nextTag := (r.tag + 1) % 2 ^ 32, reqs := s.fab.reqs ++ [r] } }

/-- Hands a request of tenant t to its link, in the slots of `owner`: a fresh TAG, the store sequence number, the entry whose timer starts when it leaves. None: no path. -/
def sendOn (s : State) (owner t dst hash : Nat) (p : Packet) (src : ReqSource) : Option (Nat × State) :=
  (linkFor s owner dst hash).map (fun l =>
    let tag := s.fab.nextTag
    let x := getT s t
    let q := if isStoreOp p.op then x.storeSeq else 0
    let s1 := if isStoreOp p.op then setT s t { x with storeSeq := (x.storeSeq + 1) % 2 ^ 32 } else s
    let s2 := addReq s1 { tag := tag, tenant := t, target := dst, op := p.op, link := l, seq := q, addr := p.addr, src := src }
    (tag, (linkToken s2 owner l 1 (srcSquare src) (.packet { p with tenant := t, src := s.fab.node, dst := dst, tag := tag, seq := q })).1))

/-- A request in the tenant's own slots. -/
def sendReq (s : State) (t dst hash : Nat) (p : Packet) (src : ReqSource) : Option (Nat × State) := sendOn s t t dst hash p src

def mkPacket (op sub len addr operand : Nat) (data : List Byte) : Packet :=
  { op := op, sub := sub, tenant := 0, src := 0, dst := 0, len := len, addr := addr, tag := 0, seq := 0, operand := operand, data := data }

/-- The longest MESSAGE (R315). -/
def messageMax : Nat := 262144

/-- Sends a MESSAGE of tenant t; its identifier is its packets' TAG. None: no path, or more bytes than a MESSAGE carries. -/
def sendMsg (s : State) (t dst kind epoch part index : Nat) (body : List Byte) (src : Nat → ReqSource) : Option (Nat × State) :=
  if messageMax < 64 + body.length then none
  else
    (linkFor s t dst (dst * 2 ^ 40)).map (fun l =>
      let tag := s.fab.nextTag
      let s1 := addReq s { tag := tag, tenant := t, target := dst, op := 5, link := l, seq := 0, addr := 0, src := src tag }
      (tag, linkParts s1 t l
        { kind := kind, tenant := t, srcDomain := s.fab.domain, srcNode := s.fab.node, dstNode := dst, dstDomain := s.fab.domain,
          msgId := tag, tag := tag, epoch := epoch, partition := part, index := index, body := body }))

/-- Sends a reply MESSAGE that returns the identifier of what it answers (R315); with no path it is lost, and the asker's timer ends the wait. -/
def sendReplyMsg (s : State) (m : Message) (kind : Nat) (body : List Byte) : State :=
  if messageMax < 64 + body.length then s
  else
    match linkFor s m.tenant m.srcNode (m.srcNode * 2 ^ 40) with
    | none => s
    | some l =>
      let tag := s.fab.nextTag
      let s1 := addReq s { tag := tag, tenant := m.tenant, target := m.srcNode, op := 5, link := l, seq := 0, addr := 0, src := .none }
      linkParts s1 m.tenant l
        { m with kind := kind, tag := tag, srcDomain := s.fab.domain, srcNode := s.fab.node, dstNode := m.srcNode, dstDomain := m.srcDomain, body := body }

/-- Answers a packet on the link it came by (R314): on the tenant's response stream there, or on the base layer's where the tenant has none (log entry 58). -/
def reply (s : State) (l : Nat) (p : Packet) (op sub : Nat) (data : List Byte) : State :=
  let ld : Load := .packet { op := op, sub := sub, tenant := p.tenant, src := s.fab.node, dst := p.src, len := data.length, addr := 0,
                             tag := p.tag, seq := 0, operand := 0, data := data }
  let r := linkToken s p.tenant l 2 none ld
  if r.2 then r.1 else (linkToken s 0x7F l 2 none ld).1

def msgPacket (m : Message) : Packet :=
  { op := 5, sub := 0, tenant := m.tenant, src := m.srcNode, dst := m.dstNode, len := 0, addr := 0, tag := m.tag, seq := 0, operand := 0, data := [] }

def ackMsg (s : State) (l : Nat) (m : Message) : State := reply s l (msgPacket m) 9 0 []
def nackMsg (s : State) (l : Nat) (m : Message) (cause : Nat) : State := reply s l (msgPacket m) 0xA cause []

def nack (s : State) (l : Nat) (p : Packet) (cause : Nat) : State := reply s l p 0xA cause []

/-- A response, which no timer waits for. -/
def isResponse (p : Packet) : Bool := p.op == 8 || p.op == 9 || p.op == 0xA

/-- A packet has left its entries of the receive buffer (R302). -/
def freePacket (s : State) (l : Nat) (p : Packet) : State := freePort s l p.tenant (if isResponse p then 2 else 1) (portEntries (32 + p.data.length))

/-- The source's status for a NACK cause (R308). Cause 0x20 carries an owner's FAULT_MEDIA (log entry 40). -/
def nackStatus (c : Nat) : Nat :=
  if c = 4 then stMemory else if c = 6 then stNoRes else if c = 7 then stMalformed else if c = 0x20 then stMedia else stRemote

/-- The cause that carries an owner's failure status. -/
def causeOf (st : Nat) : Nat :=
  if st = stMemory then 4 else if st = stNoRes then 6 else if st = stMalformed then 7 else if st = stMedia then 0x20 else 2

/-! ### Contexts whose reads return (03 R70, R78) -/

/-- The questions of something other than a descriptor are dropped, once it has its answer or has failed (10 R335). -/
def dropAsked (s : State) (q : QId) (seq : Nat) : State := { s with fab := { s.fab with sent := s.fab.sent.filter (fun m => !(m.q == q && m.seq == seq)) } }

/-- Takes work off the list, with its questions; the entries of a MESSAGE that still waited for a context are freed (03 R93). -/
def dropHeld (s : State) (w : Nat) : State :=
  let s1 := { s with fab := { s.fab with held := s.fab.held.filter (fun h => h.work != w) } }
  match s.fab.held.find? (fun h => h.work == w) with
  | some h =>
    let s2 := dropAsked s1 (.tenant h.tenant 64) w
    if h.placed.isNone then freeMsg s2 h.link h.msg else s2
  | none => s1
def findHeld (s : State) (w : Nat) : Option HeldWork := s.fab.held.find? (fun h => h.work == w)

/-- Ends a context with a fault status: its descriptor completes, or the MESSAGE that it serves is answered. -/
def faultCtx (s : State) (n c status : Nat) : State :=
  match (getCtx s n c).job with
  | .entry q seq =>
    match findDesc s q seq with
    | some d => if isPending s d then complete s d status else endCtx s n c status
    | none => endCtx s n c status
  | .serving w =>
    match findHeld s w with
    | some h => endCtx (dropHeld (nackMsg s h.link h.msg (causeOf status)) w) n c status
    | none => endCtx s n c status
  | .none => endCtx s n c status

/-- The data of a ply's elements goes to the scratch area in ascending fetch-slot order, and the ply is over (03 R70). -/
def landElems (x : Ctx) : Ctx :=
  { x with elems := [], scratch := (x.elems.filter (fun e => e.2.fault == 0)).foldl (fun m e => memWrite m e.2.dst e.2.data) x.scratch }

/-- Once every element of the ply has returned: an ended context frees, a faulted one ends, the others become READY with their data in scratch. -/
def settleCtx (s : State) (n c : Nat) : State :=
  let x := getCtx s n c
  if !x.elems.all (fun e => e.2.returned) then s
  else
    match x.ended with
    | some _ => setCtx s n c {}
    | none =>
      if x.st = .waitMem ∨ (x.st = .frozen ∧ x.held = .waitMem) then
        match x.elems.find? (fun e => e.2.fault != 0) with
        | some e => faultCtx s n c e.2.fault
        | none => setCtx s n c (if x.st = .frozen then { landElems x with held := .ready } else { landElems x with st := .ready })
      else s

/-- One element returns, with its data or with a fault. -/
def elemDone (s : State) (n c slot fault : Nat) (bs : List Byte) : State :=
  let x := getCtx s n c
  match x.elems.find? (fun e => e.1 == slot) with
  | none => s
  | some e =>
    let v : Elem := { e.2 with returned := true, left := true, fault := fault, data := if x.ended.isSome then [] else bs.take e.2.bytes }
    settleCtx (trimReqBuf (setCtx s n c { x with elems := tset x.elems slot v }) n c (slot / 16)) n c

/-! ### Responses (R311, R322) -/

/-- Queues a STORE_FLAG of a descriptor: it takes its store sequence number and waits for the earlier stores of its tenant; one of them that has ended with a fault already ends it too (R311). -/
def issueFlag (s : State) (t addr value : Nat) (src : ReqSource) : Nat × State :=
  let tag := s.fab.nextTag
  let x := getT s t
  let s1 := setT s t { x with storeSeq := (x.storeSeq + 1) % 2 ^ 32 }
  (tag, { s1 with fab := { s1.fab with nextTag := (tag + 1) % 2 ^ 32, flags := s1.fab.flags ++ [⟨tag, t, x.storeSeq, addr, value, x.storeFault, src⟩] } })

/-- The scale set that a batch has made becomes the partition's current one, at the batch's epoch (04 R125): the bytes are written, and their before-images join those of the epoch. -/
def adoptSet (s : State) (t index part epoch : Nat) (l : List (Nat × List Byte)) : State :=
  l.foldl (fun a w =>
    match findObj a t index with
    | none => a
    | some o =>
      let old := (List.zip (List.range w.2.length) (memRead o.data w.1 w.2.length)).map (fun ib => (index, w.1 + ib.1, ib.2))
      let a1 := (writeObj a o w.1 w.2).1
      match findIndex a1 t index with
      | some ix => putIndex a1 { ix with images := ix.images.map (fun i => if i.epoch = epoch ∧ i.part = part then { i with old := i.old ++ old } else i) }
      | none => a1) s

/-- First move in which the record of a mutation with this last epoch may be written (07 R188). -/
def recMove (last : Option Nat) : Nat := match last with | some e => e / 65536 + 2 | none => 0

/-- An INSERT or a DELETE in effect completes with DONE: its new scale set and its result, which only DONE writes (04 R123, R125; 07 R203). -/
def mutationDone (s : State) (d : Desc) (epoch index part : Nat) (result : List Byte) (adopt : List (Nat × List Byte)) : State :=
  completeWith (hostWrite (adoptSet s d.tenant index part epoch adopt) d.tenant (dfield d 24 8) result) d stDone 0 0 epoch (recMove (some epoch)) []

/-- A remote request of a descriptor ends; when the last one has, the descriptor completes or goes on. -/
def remoteDone (s : State) (q : QId) (seq tag fault : Nat) : State :=
  match findDesc s q seq with
  | none => s
  | some d =>
    match d.work with
    | .remote tags f st detail epoch nb =>
      let tags' := tags.filter (fun x => x != tag)
      let f' := if f = 0 then fault else f
      if tags'.isEmpty then
        (if f' = 0 then completeWith s d st 0 detail epoch nb [] else completeWith s d f' 0 0 (if descOp d = 0x0A then epoch else 0) nb [])
      else putDesc s { d with work := .remote tags' f' st detail epoch nb }
    | .mutated tags f epoch index part result adopt =>
      let tags' := tags.filter (fun x => x != tag)
      let f' := if f = 0 then fault else f
      if tags'.isEmpty then
        (if f' = 0 then mutationDone s d epoch index part result adopt else completeWith s d f' 0 0 0 (recMove (some epoch)) [])
      else putDesc s { d with work := .mutated tags' f' epoch index part result adopt }
    | .forwarding tags f =>
      let tags' := tags.filter (fun x => x != tag)
      let f' := if f = 0 then fault else f
      if tags'.isEmpty then
        (if f' ≠ 0 then completeWith s d f' 0 0 0 0 []
         else
          let r := issueFlag s d.tenant (fieldAt d.bytes 48 8) (fieldAt d.bytes 56 8) (.desc q seq)
          putDesc r.2 { d with work := .remote [r.1] 0 stDone 0 0 0 })
      else putDesc s { d with work := .forwarding tags' f' }
    | .place tags f => putDesc s { d with work := .place (tags.filter (fun x => x != tag)) (if f = 0 then fault else f) }
    | .consolidate _ last _ _ _ _ _ _ =>
      if fault = 0 then s
      else completeWith s d fault 0 0 (last.getD 0) (recMove last) []
    | _ => s

/-- Takes a request off the outstanding ones. -/
def dropReq (s : State) (tag : Nat) : State := { s with fab := { s.fab with reqs := s.fab.reqs.filter (fun r => r.tag != tag) } }

/-- Store sequence a lies before b, modulo 2^32. -/
def seqBefore (a b : Nat) : Bool := a != b && decide ((2 ^ 32 + b - a) % 2 ^ 32 < 2 ^ 31)

/-- A numbered request that ends with a fault ends every STORE_FLAG of its tenant with a higher number, those that wait and those to come (R311). -/
def markFlags (s : State) (r : Req) : State :=
  if isStoreOp r.op then
    let s := setT s r.tenant { getT s r.tenant with storeFault := true }
    { s with fab := { s.fab with flags := s.fab.flags.map (fun f => if f.tenant = r.tenant ∧ seqBefore r.seq f.seq then { f with faulted := true } else f) } }
  else s

/-- The number of a GREAD among what asks through the guard, and of an element. -/
def greadKey (p : Packet) : Nat := p.src * 2 ^ 32 + p.tag
def elemKey (n c slot : Nat) : Nat := (n * 64 + c) * 64 + slot

/-- A GREAD that waits for other members' units is refused. -/
def refuseGread (s : State) (key status : Nat) : State :=
  let mine := fun (w : FlashWait) => match w with | .read _ p => greadKey p == key | .delta _ _ => false
  (s.fab.flashHeld.filter mine).foldl (fun a w => match w with | .read l p => freePacket (nack a l p (causeOf status)) l p | .delta _ _ => a)
    { s with fab := { s.fab with flashHeld := s.fab.flashHeld.filter (fun w => !mine w) } }

/-- A question that no descriptor has asked ends with a fault: what asked it ends (10 R333, R335). -/
def faultAsker (s : State) (q : QId) (key status : Nat) : State :=
  let s1 := dropAsked s q key
  match q with
  | .tenant _ 64 =>
    match (findHeld s key).bind (fun h => h.placed) with
    | some (n, c) => faultCtx s1 n c status
    | none => s1
  | .tenant _ 66 => refuseGread s1 key status
  | .tenant _ 67 => elemDone s1 (key / 64 / 64) (key / 64 % 64) (key % 64) status []
  | _ => s1

/-- Ends what waits for a request with a fault status. -/
def faultSrc (s : State) (src : ReqSource) (tag status : Nat) : State :=
  match src with
  | .elem n c slot => elemDone s n c slot status []
  | .hostRead q seq _ => remoteDone s q seq tag status
  | .desc q seq => remoteDone s q seq tag status
  | .copy q seq _ => remoteDone s q seq tag status
  | .forward q seq _ => remoteDone s q seq tag status
  | .message q seq _ =>
    match findDesc s q seq with
    | some d =>
      let s1 := { s with indexes := s.indexes.map (fun i => { i with writes := i.writes.filter (fun w => !(w.q == q && w.seq == seq)) }) }
      match d.work with
      | .journal _ => complete s1 d status
      | _ => if isPending s d then complete s1 d status else s
    | none => if s.fab.sent.any (fun m => m.q == q && m.seq == seq) then faultAsker s q seq status else s
  | .guard set _ _ => setGuard s set { getGuard s set with asked := (getGuard s set).asked - 1, silent := true }
  | .none => s

/-- A request ends with a fault (R308, R299, R323). -/
def faultReq (s : State) (r : Req) (status : Nat) : State :=
  faultSrc (markFlags (dropReq s r.tag) r) r.src r.tag status

def findReq (s : State) (tag : Nat) : Option Req := s.fab.reqs.find? (fun r => r.tag == tag)

/-! ### Link states (R295, R299, R328) -/

/-- A link changes its state: the fabric manager hears of it, and CAUSE keeps the last one given. -/
def linkTo (s : State) (l st cause : Nat) : State :=
  let k := getLink s l
  if k.st = st then s
  else report (setLink s l { k with st := st, cause := if cause = 0 then k.cause else cause }) 0x0060 0 0x7F (linkUnit l) l st cause

/-- A link goes to DOWN: every request whose flits left on it and that has no response yet ends with a fault; tokens and credits stay (R299). -/
def linkDown (s : State) (l cause : Nat) : State :=
  if (getLink s l).st = 4 then s
  else
    let s1 := linkTo (countUnit (cntEr s 8 1) (linkUnit l) false 0) l 4 cause
    (s1.fab.reqs.filter (fun r => r.link == l && r.sent)).foldl (fun a r => if a.fab.reqs.any (fun x => x.tag == r.tag) then faultReq a r stRemote else a) s1

/-! ### What a query has asked of other nodes -/

/-- What an entry context waits for is no payload of a stream: no stream has this number. -/
def noStream : Nat := 256

/-- The reply to what was asked, once it has come. -/
def replyOf (s : State) (d : Desc) (key : List Nat) : Option (List Byte) :=
  (s.fab.sent.find? (fun m => m.q == d.q && m.seq == d.seq && m.key == key)).bind (fun m => m.reply)

def wasAsked (s : State) (d : Desc) (key : List Nat) : Bool :=
  s.fab.sent.any (fun m => m.q == d.q && m.seq == d.seq && m.key == key)

def noteAsked (s : State) (d : Desc) (tag : Nat) (key : List Nat) : State :=
  { s with fab := { s.fab with sent := s.fab.sent ++ [⟨tag, d.q, d.seq, key, none⟩] } }

/-- A question to another node: its key, the node, and what is sent. -/
structure AskOut where
  key : List Nat
  node : Nat
  kind : Nat                       -- MESSAGE kind; 0 for a GREAD
  part : Nat
  addr : Nat := 0                  -- GREAD address field
  body : List Byte
  deriving DecidableEq, Repr

/-- Sends a question unless it has been sent; none: no path leads to the node (R314). -/
def ask (s : State) (d : Desc) (index : Nat) (a : AskOut) : Option State :=
  if wasAsked s d a.key then some s
  else if a.kind = 0 then
    let p := mkPacket 6 0 8 a.addr 0 a.body
    (sendReq s d.tenant a.node (a.addr / 2 ^ 32 * 64) p (.message d.q d.seq s.fab.nextTag)).map (fun r => noteAsked r.2 d r.1 a.key)
  else
    (sendMsg s d.tenant a.node a.kind d.epoch a.part index a.body (fun tag => .message d.q d.seq tag)).map (fun r => noteAsked r.2 d r.1 a.key)

/-- Sends every question; false when one finds no path. -/
def askAll (s : State) (d : Desc) (index : Nat) : List AskOut → State × Bool
  | [] => (s, true)
  | a :: r =>
    match ask s d index a with
    | none => (s, false)
    | some s1 => askAll s1 d index r

end Sys2Proof.Machine
end

