-- ==== Sys2Proof/Machine/Guard.lean ====
section
/-! DEFINITION. The shard guard's code and guarded reads (10 R329 to R333). -/

namespace Sys2Proof.Machine

open Sys2Proof

/-! ### GF(2^8) with polynomial 0x11D (R329) -/

def gfDouble (a : Nat) : Nat := if a < 128 then 2 * a else (2 * a) ^^^ 0x11D

def gfMulN : Nat → Nat → Nat → Nat
  | 0, _, _ => 0
  | n + 1, a, b => (if b % 2 = 1 then a else 0) ^^^ gfMulN n (gfDouble a) (b / 2)

def gfMul (a b : Nat) : Nat := gfMulN 8 a b
def gfPow (a : Nat) : Nat → Nat
  | 0 => 1
  | n + 1 => gfMul a (gfPow a n)
/-- α^c, and the inverse of a nonzero element. -/
def gfAlpha (c : Nat) : Nat := gfPow 2 c
def gfInv (a : Nat) : Nat := gfPow a 254

def gfScale (a : Nat) (bs : List Byte) : List Byte := bs.map (fun b => BitVec.ofNat 8 (gfMul a b.toNat))

/-! ### Placement (R330) -/

def guardK (gsize p : Nat) : Nat := gsize - p

/-- guard_locate: stripe and column of data unit u of the member at position i. -/
def guardLocate (gsize p i u : Nat) : Nat × Nat :=
  let k := max 1 (guardK gsize p)
  (u / k * gsize + (i + 1 + u % k) % gsize, k - 1 - u % k)

/-- guard_member: role of position j in stripe s. A column c is given as (c, data unit); parity p as (k + p, parity unit). -/
def guardMember (gsize p j s : Nat) : Nat × Nat :=
  let k := guardK gsize p
  let q := s / gsize
  let r := (j + gsize - s % gsize) % gsize
  if r < p then (k + r, q * p + r) else (r - p, q * k + (k - 1 - (r - p)))

/-- A surviving shard of a stripe: role, member position, unit of its data or parity object. -/
structure Shard where
  role : Nat
  pos : Nat
  unit : Nat
  deriving DecidableEq, Repr

/-- The shards that a guarded read of position i's unit u reads: surviving columns ascending, then parity 0, then parity 1, until there are k (R333). -/
def guardShards (g : GroupCfg) (p i u : Nat) : List Shard :=
  let s := (guardLocate g.gsize p i u).1
  let all := (List.range g.gsize).map (fun j => let m := guardMember g.gsize p j s; Shard.mk m.1 j m.2)
  let ok := all.filter (fun x => x.pos != i && !bit g.lost.toNat x.pos)
  (sortBy (fun a b => decide (a.role ≤ b.role)) ok).take (guardK g.gsize p)

/-- Column c of a stripe from shards given as (role, bytes); none when they do not determine it. -/
def guardDecode (k c n : Nat) (sh : List (Nat × List Byte)) : Option (List Byte) :=
  let get (r : Nat) := (sh.find? (fun x => x.1 == r)).map Prod.snd
  let cols := sh.filter (fun x => decide (x.1 < k))
  let missing := (List.range k).filter (fun x => !cols.any (fun y => y.1 == x))
  let xorAll (l : List (List Byte)) : List Byte := l.foldl xorBytes (zeros n)
  let s0 := (get k).map (fun b => xorAll (b :: cols.map Prod.snd))
  let s1 := (get (k + 1)).map (fun b => xorAll (b :: cols.map (fun x => gfScale (gfAlpha x.1) x.2)))
  match missing with
  | [_] =>
    match s0, s1 with
    | some b, _ => some b
    | none, some b => some (gfScale (gfInv (gfAlpha c)) b)
    | none, none => none
  | [a, b] =>
    let o := if a = c then b else a
    match s0, s1 with
    | some x, some y => some (gfScale (gfInv (gfAlpha c ^^^ gfAlpha o)) (xorBytes y (gfScale (gfAlpha o) x)))
    | _, _ => none
  | _ => none

/-! ### Guarded reads (R333, R335) -/

/-- What an evaluation that may need other nodes gives: a value, a failure status, questions to send, or a wait. -/
inductive Ev (α : Type) where
  | ok (a : α)
  | err (st : Nat)
  | need (l : List AskOut)
  | wait
  deriving DecidableEq, Repr

/-- What stands for something other than a descriptor in the questions that it asks of other members: held work in its serving context (0), a channel engine's RERANK (1), a peer's GREAD (2), an element of a context (3). No queue has a number above 63. -/
def askerOf (t kind key epoch : Nat) : Desc :=
  { n := 0, q := .tenant t (64 + kind), tenant := t, seq := key, bytes := [], phase := .running, epoch := epoch }

/-- The guard set of a data object. -/
def guardOf (s : State) (t num : Nat) : Option (Nat × Guard) :=
  s.fab.guards.find? (fun g => g.2.st != 0 && g.2.tenant == t && g.2.dataObj == num)

def ownPos (s : State) (i : Nat) : Bool := match s.fab.group with | some g => g.pos == i | none => false

/-- Whether reads of the object on this node are served as guarded reads: its set is REBUILDING (R335). -/
def rebuilding (s : State) (t num : Nat) : Bool := match guardOf s t num with | some g => g.2.st == 3 | none => false

/-- The guard through which this node's own units of an object are read while its set is REBUILDING (R335). -/
def ownGuard (s : State) (t num : Nat) : Option (Guard × Nat) :=
  if rebuilding s t num then
    match guardOf s t num, s.fab.group with
    | some g, some grp => some (g.2, grp.pos)
    | _, _ => none
  else none

def gKey (node obj unit b n : Nat) : List Nat := [0x16, node, obj, unit, b, n]

/-- One shard's bytes b to b + n − 1: from this node, from a reply, or a question. -/
def readShard (s : State) (d : Desc) (g : GroupCfg) (gs : Guard) (k b n : Nat) (x : Shard) : Ev (List Byte) :=
  let obj := if x.role < k then gs.dataObj else gs.parObj
  let z := match findObj s gs.tenant gs.dataObj with | some o => o.size / pageBytes | none => 0
  if x.role < k ∧ z ≤ x.unit then .ok (zeros n)
  else if x.pos = g.pos then
    match findObj s gs.tenant obj with
    | none => .err stMedia
    | some o => match (readObj s o (x.unit * pageBytes + b) n).2 with | .ok v => .ok v | .error e => .err e
  else
    let node := g.members.getD x.pos 0
    match replyOf s d (gKey node obj x.unit b n) with
    | some v => .ok v
    | none => .need [{ key := gKey node obj x.unit b n, node := node, kind := 0, part := 0, addr := obj + x.unit * 2 ^ 32, body := toLE 4 b ++ toLE 4 n }]

/-- Joins evaluations: the first failure, else every question, else the values in order. -/
def joinEv {α : Type} : List (Ev α) → Ev (List α)
  | [] => .ok []
  | e :: r =>
    match e, joinEv r with
    | .err st, _ => .err st
    | .wait, _ => .wait
    | .ok a, .ok l => .ok (a :: l)
    | .ok _, .err st => .err st
    | .ok _, .need l => .need l
    | .ok _, .wait => .wait
    | .need l, .need m => .need (l ++ m)
    | .need l, _ => .need l

/-- A guarded read of bytes b to b + n − 1 of unit u of the member at position i. -/
def guardedRead (s : State) (d : Desc) (gs : Guard) (i u b n : Nat) : Ev (List Byte) :=
  match s.fab.group with
  | none => .err stRemote
  | some g =>
    let k := guardK g.gsize gs.p
    let sh := guardShards g gs.p i u
    match joinEv (sh.map (fun x => readShard s d g gs k b n x)) with
    | .ok l =>
      match guardDecode k (guardLocate g.gsize gs.p i u).2 n (List.zip (sh.map (fun x => x.role)) l) with
      | some v => .ok v
      | none => .err stMedia
    | .err st => .err st
    | .need l => .need l
    | .wait => .wait

/-- A guarded read of n bytes of the member's object from offset `off`, unit by unit. -/
def guardedRange : Nat → State → Desc → Guard → Nat → Nat → Nat → Ev (List Byte)
  | 0, _, _, _, _, _, _ => .ok []
  | c + 1, s, d, gs, i, off, n =>
    if n = 0 then .ok []
    else
      let b := off % pageBytes
      let m := min n (pageBytes - b)
      -- whole 64-byte blocks are asked for (R333)
      let b0 := b / 64 * 64
      let n0 := roundUp (b + m - b0) 64
      let x := match guardedRead s d gs i (off / pageBytes) b0 n0 with
        | .ok v => Ev.ok ((v.drop (b - b0)).take m)
        | e => e
      match joinEv [x, guardedRange c s d gs i (off + m) (n - m)] with
      | .ok l => .ok l.flatten
      | .err st => .err st
      | .need l => .need l
      | .wait => .wait

/-- Local bytes of an object: a T3 object whose guard set is REBUILDING is read through the guard (R335); `d` asks. -/
def readLocal (s : State) (d : Desc) (o : Obj) (off n : Nat) : State × Ev (List Byte) :=
  if o.tier == 3 && flashWait s then (s, .wait)
  else
    match (if o.tier = 3 then ownGuard s o.tenant o.num else none) with
    | some g =>
      match guardedRange (n / pageBytes + 2) s d g.1 g.2 off n with
      | .ok v => (cntFab s 9 (if n = 0 then 0 else (off + n - 1) / pageBytes - off / pageBytes + 1), .ok v)
      | e => (s, e)
    | none => (match readObj s o off n with | (s1, .ok v) => (s1, .ok v) | (s1, .error st) => (s1, .err st))

/-- The delta of a guarded write of unit u reaches the holders of the unit's parity (R332): position, parity number, parity unit, column. -/
def guardHolders (g : GroupCfg) (p u : Nat) : List (Nat × Nat × Nat × Nat) :=
  let l := guardLocate g.gsize p g.pos u
  (List.range p).map (fun i => ((l.1 % g.gsize + i) % g.gsize, i, l.1 / g.gsize * p + i, l.2))

end Sys2Proof.Machine
end

