-- ==== Sys2Proof/Machine/Select.lean ====
section
/-! DEFINITION. Keys, the sorting network, candidate lists, the final stage, masses and result records (06 R162 to R180). -/

namespace Sys2Proof.Machine

open Sys2Proof

/-! ### Keys (R163, R164) -/

/-- The canonical score: −0.0 becomes +0.0, a NaN 0x7FC0_0000. -/
def canonScore (x : F32) : F32 := if isNaN x then fNaN else if x = 0x80000000 then fZero else x

def scoreKey (x : F32) (asc : Bool) : Nat :=
  if isNaN x then 0xFFFFFFFE
  else
    let s := canonScore x
    let a : F32 := if s.toNat < 2 ^ 31 then s ^^^ 0x80000000 else ~~~s
    (if asc then a else ~~~a).toNat

/-! ### The sorting network (R165, R166) -/

def emptyLane : Nat := 0xFFFFFFFFFFFFFFFF
def laneKey (e : Nat) : Nat := e / 2 ^ 32
def laneMark (e : Nat) : Bool := bit e 31
def laneSide (e : Nat) : Bool := bit e 28
def laneIndex (e : Nat) : Nat := bits e 0 28

/-- A lane from its fields; the reserved bits are 0 (R165). -/
def mkLane (key : Nat) (mark side : Bool) (index : Nat) : Nat := key % 2 ^ 32 * 2 ^ 32 + fld (b2n mark) 31 + fld (b2n side) 28 + index % 2 ^ 28

/-- Whether entry a may stand before entry b: a smaller KEY, or an equal one that the unspecified choice puts first. -/
def laneBefore (image : Nat) (a b : Nat) : Bool :=
  decide (laneKey a < laneKey b) || (laneKey a == laneKey b && (a == b || Config.tieFirst image 0 a b))

/-- One compare-exchange: the pair in ascending order. -/
def cmpEx (image a b : Nat) : Nat × Nat := if laneBefore image a b then (a, b) else (b, a)

/-- Stage (p, q): lane i with lane i xor 2^q, ascending when bit p + 1 of i is 0; in the last level every pair is ascending. -/
def netStage (image : Nat) (p q : Nat) (l : List Nat) : List Nat :=
  (List.range l.length).map (fun i =>
    let j := i ^^^ 2 ^ q
    let lo := min i j
    let up := p == 5 || !bit i (p + 1)
    let r := cmpEx image (l.getD lo emptyLane) (l.getD (max i j) emptyLane)
    if (i == lo) == up then r.1 else r.2)

/-- Stages q = p down to 0 of level p. -/
def netLevel (image : Nat) (p : Nat) (l : List Nat) : List Nat :=
  (List.range (p + 1)).foldl (fun a k => netStage image p (p - k) a) l

/-- SORT64: 6 levels, 21 stages. -/
def sortNet (image : Nat) (l : List Nat) : List Nat := (List.range 6).foldl (fun a p => netLevel image p a) l

/-- MERGE128: lane i of the first with lane 63 − i of the second, then the last level on each register. -/
def mergeNet (image : Nat) (a b : List Nat) : List Nat × List Nat :=
  let prs := List.zipWith (cmpEx image) a b.reverse
  (netLevel image 5 (prs.map Prod.fst), netLevel image 5 (prs.map Prod.snd))

/-! ### Lists (R168, R169) -/

/-- A list entry. -/
structure Cand where
  part : Nat := 0
  userKey : Nat
  score : F32
  key : Nat
  slot : Nat
  eflags : Nat
  version : Nat
  deriving DecidableEq, Repr

/-- A list that travels to the entry context. -/
structure CList where
  part : Nat
  stale : Nat := 0
  tombs : Nat := 0
  widened : Bool := false
  scatter : Bool := false
  source : Nat := 0
  cands : List Cand
  deriving DecidableEq, Repr

def candBytes (c : Cand) : List Byte :=
  toLE 8 c.userKey ++ toLE 4 c.score.toNat ++ toLE 4 c.key ++ toLE 4 c.slot ++ toLE 2 c.eflags ++ zeros 2 ++ toLE 8 c.version

def listBytes (l : CList) : List Byte :=
  toLE 2 l.part ++ toLE 2 l.cands.length ++ toLE 4 l.stale ++ toLE 4 l.tombs ++ toLE 2 (b2n l.widened + 2 * b2n l.scatter)
    ++ toLE 2 l.source ++ zeros 16 ++ l.cands.flatMap candBytes

def candOf (part : Nat) (b : List Byte) : Cand :=
  { part := part, userKey := fieldAt b 0 8, score := BitVec.ofNat 32 (fieldAt b 8 4), key := fieldAt b 12 4, slot := fieldAt b 16 4,
    eflags := fieldAt b 20 2, version := fieldAt b 24 8 }

def candsOf : Nat → Nat → List Byte → List Cand
  | 0, _, _ => []
  | n + 1, p, b => candOf p (b.take 32) :: candsOf n p (b.drop 32)

/-- The list that a body of bytes carries (R169). -/
def listOf (b : List Byte) : CList :=
  { part := fieldAt b 0 2, stale := fieldAt b 4 4, tombs := fieldAt b 8 4, widened := bit (fieldAt b 12 2) 0, scatter := bit (fieldAt b 12 2) 1,
    source := fieldAt b 14 2, cands := candsOf (fieldAt b 2 2) (fieldAt b 0 2) (b.drop 32) }

/-- The order of keys with the unspecified choice among equal ones. -/
def candLe (image epoch : Nat) (a b : Cand) : Bool :=
  decide (a.key < b.key) || (a.key == b.key && (decide (a = b) ||
    Config.tieFirst image epoch (a.part * 2 ^ 32 + a.slot) (b.part * 2 ^ 32 + b.slot)))

def sortCands (image epoch : Nat) (l : List Cand) : List Cand := sortBy (candLe image epoch) l

/-- The best n of a list, in key order. -/
def bestOf (image epoch n : Nat) (l : List Cand) : List Cand := (sortCands image epoch l).take n

/-! ### The final stage (R170, R171) -/

/-- Of two entries of one identity the survivor: the higher VERSION, then the smaller KEY, then the first. -/
def beats (a b : Cand) : Bool :=
  decide (b.version < a.version) || (a.version == b.version && decide (a.key < b.key))

def sameId (a b : Cand) : Bool := a.part == b.part && a.slot == b.slot

def enumC (l : List Cand) : List (Nat × Cand) := List.zip (List.range l.length) l

/-- Index of the surviving entry of an identity within the sequence. -/
def survivorIdx (l : List (Nat × Cand)) (c : Nat × Cand) : Nat :=
  ((l.filter (fun x => sameId c.2 x.2)).foldl (fun (a : Option (Nat × Cand)) x =>
    match a with
    | none => some x
    | some y => if beats x.2 y.2 then some x else some y) none |>.map Prod.fst).getD c.1

/-- The entries that the duplicate pass leaves, in sequence order. -/
def livePass (dedup : Bool) (l : List Cand) : List (Nat × Cand) :=
  let e := enumC l
  if dedup then e.filter (fun c => survivorIdx e c == c.1) else e

structure Final where
  kept : List Cand
  rest : List Cand
  dups : Nat
  tie : Nat
  deriving DecidableEq, Repr

def finalStage (image epoch k : Nat) (dedup : Bool) (l : List Cand) : Final :=
  let live := livePass dedup l
  let sorted := sortBy (fun a b => candLe image epoch a.2 b.2) live
  let n := min k live.length
  let kept := sorted.take n
  let rest := live.filter (fun c => !kept.any (fun x => x.1 == c.1))
  let tie := if n = k then
      match kept.getLast? with
      | some w => (rest.filter (fun c => c.2.key == w.2.key)).length
      | none => 0
    else 0
  { kept := kept.map Prod.snd, rest := rest.map Prod.snd, dups := l.length - live.length, tie := tie }

/-! ### Masses (R174 to R176) -/

/-- exp32: exactly 1.0 at 0, +0.0 below −104, else the device's own bits. -/
def exp32 (x : F32) : F32 :=
  if isZero x then fOne else if flt x 0xC2D00000 then fZero else Config.exp32 x

def weightOf (mode : Nat) (asc : Bool) (best t : F32) (c : Cand) : F32 :=
  match mode with
  | 1 => c.score
  | 2 =>
    if isNaN c.score then fZero
    else if c.score = best then fOne
    else exp32 (fdiv (if asc then fsub best c.score else fsub c.score best) t)
  | _ => fZero

def massOf (mode : Nat) (asc : Bool) (best t : F32) (l : List Cand) : F32 :=
  if mode = 1 ∨ mode = 2 then canonNaN (l.foldl (fun m c => fadd m (weightOf mode asc best t c)) fZero) else fZero
where canonNaN (x : F32) : F32 := if isNaN x then fNaN else x

/-! ### Results (R172, R177 to R179) -/

def entryBytes (c : Cand) : List Byte :=
  toLE 8 c.userKey ++ toLE 4 c.score.toNat ++ toLE 4 (c.eflags % 8 + c.part % 65536 * 65536)

def sentinelBytes (asc : Bool) : List Byte :=
  toLE 8 0xFFFFFFFFFFFFFFFF ++ toLE 4 (if asc then 0x7F800000 else 0xFF800000) ++ toLE 4 0

def sat16 (n : Nat) : Nat := min n 65535

/-- Result flags of one result: `widened` when R149 took effect. -/
def resultFlags (f : Final) (ls : List CList) (widened : Bool) : Nat :=
  b2n (decide (0 < f.tie)) + 8 * b2n (ls.any (fun l => l.stale != 0)) + 16 * b2n (ls.any (fun l => l.tombs != 0))
    + 32 * b2n (widened || ls.any (fun l => l.widened)) + 64 * b2n (ls.any (fun l => l.scatter))

/-- One result: K entries and the trailer. -/
def resultBytes (k mode : Nat) (asc : Bool) (t : F32) (epoch : Nat) (f : Final) (ls : List CList) (widened : Bool) : List Byte :=
  let best := match f.kept.head? with | some c => c.score | none => fZero
  let n := f.kept.length
  f.kept.flatMap entryBytes ++ ((List.replicate (k - n) (sentinelBytes asc)).flatten
    ++ (toLE 4 n ++ toLE 4 f.tie
      ++ toLE 4 (if n = 0 then 0 else (massOf mode asc best t f.kept).toNat)
      ++ toLE 4 (if n = 0 then 0 else (massOf mode asc best t f.rest).toNat)
      ++ toLE 8 epoch ++ toLE 2 (resultFlags f ls widened)
      ++ toLE 2 (sat16 ((ls.map (fun l => l.stale)).sum)) ++ toLE 2 (sat16 ((ls.map (fun l => l.tombs)).sum)) ++ toLE 2 (sat16 f.dups)))

end Sys2Proof.Machine
end

