-- ==== Sys2Proof/Machine/Vec.lean ====
section
/-! DEFINITION. Vectors: preparation, codes, scores, exact distances, statistics and the next scale (04 R106 to R127). -/

namespace Sys2Proof.Machine

open Sys2Proof

/-! ### Preparation (R108 to R111) -/

/-- Step 1: under COS the vector is normalised; a zero norm refuses it (R111). -/
def prep1 (metric : Nat) (x : List F32) : Option (List F32) :=
  if metric ≠ 2 then some x
  else
    let n2 := sumPlain (x.map (fun v => fmul v v))
    if isZero n2 then none
    else some (x.map (fun v => fmul v (frsqrt n2)))

def padTo (n : Nat) (v : F32) (x : List F32) : List F32 := x ++ List.replicate (n - x.length) v

/-- The sign words of R109 from a 64-bit state. -/
def signWords : Nat → BitVec 64 → List (BitVec 64)
  | 0, _ => []
  | n + 1, st =>
    let s := st + 0x9E3779B97F4A7C15
    let z1 := (s ^^^ (s >>> 30)) * 0xBF58476D1CE4E5B9
    let z2 := (z1 ^^^ (z1 >>> 27)) * 0x94D049BB133111EB
    (z2 ^^^ (z2 >>> 31)) :: signWords n s

def signBits (seed n : Nat) : List Bool :=
  (signWords (ceilDiv n 64) (BitVec.ofNat 64 seed)).flatMap (fun w => (List.range 64).map (fun i => bit w.toNat i))

/-- One stage of the transform with half-width h on a list of blocks of 2h. -/
def hadStage : Nat → Nat → List F32 → List F32
  | 0, _, l => l
  | n + 1, h, l =>
    let u := l.take h
    let v := (l.drop h).take h
    List.zipWith fadd u v ++ (List.zipWith fsub u v ++ hadStage n h (l.drop (2 * h)))

/-- The stages h = 1, 2, … below B = 2^lb on one block. -/
def hadamard (lb : Nat) (l : List F32) : List F32 :=
  (List.range lb).foldl (fun a j => hadStage (2 ^ (lb - 1 - j)) (2 ^ j) a) l

/-- c_B of R108. -/
def hadNorm (lb : Nat) : F32 :=
  match lb with
  | 6 => 0x3E000000 | 7 => 0x3DB504F3 | 8 => 0x3D800000 | 9 => 0x3D3504F3 | 10 => 0x3D000000 | 11 => 0x3CB504F3 | _ => 0x3C800000

def rotBlocks : Nat → Nat → List F32 → List F32
  | 0, _, _ => []
  | n + 1, lb, l => (hadamard lb (l.take (2 ^ lb))).map (fun v => fmul v (hadNorm lb)) ++ rotBlocks n lb (l.drop (2 ^ lb))

/-- Step 2: padding, and rotation or smoothing; a query is smoothed by multiplying (R108, R110). -/
def prep2 (r : IdxRec) (query : Bool) (x : List F32) : List F32 :=
  let p := padTo r.dp fZero x
  if r.pre = 1 then
    rotBlocks (r.dp / 2 ^ r.lb) r.lb (List.zipWith (fun (b : Bool) v => if b then fneg v else v) (signBits r.seed r.dp) p)
  else if r.pre = 2 then
    List.zipWith (fun v f => if query then fmul v f else fdiv v f) p (padTo r.dp fOne r.factors)
  else p

/-! ### Scales and codes (R112 to R114) -/

/-- A scale set: s_g and u_g of each group. -/
structure ScaleSet where
  s : List (BitVec 16)
  u : List (BitVec 16)
  deriving DecidableEq, Repr

def decodeFactor (s : BitVec 16) : BitVec 16 := bfDiv fOne (ofBf s)
def set0 (r : IdxRec) : ScaleSet := ⟨r.scales, r.scales.map decodeFactor⟩

def enumCb (cb : List F32) : List (Nat × F32) := List.zip (List.range cb.length) cb

/-- cb_round of R113. -/
def cbRound (cb : List F32) (v : F32) : Nat :=
  let e := enumCb cb
  let pos := e.filter (fun c => flt fZero c.2 && fle c.2 v)
  let neg := e.filter (fun c => flt c.2 fZero && fle v c.2)
  let sameSign := if flt fZero v then pos.getLast? else if flt v fZero then neg.head? else none
  match sameSign with
  | some c => c.1
  | none =>
    let m := e.foldl (fun a c => if ord (fabs c.2) < a then ord (fabs c.2) else a) (2 ^ 32 : Int)
    let near := e.filter (fun c => ord (fabs c.2) == m)
    match near with
    | [c] => c.1
    | _ =>
      let want := near.filter (fun c => if flt v fZero then flt c.2 fZero else !flt c.2 fZero)
      (want.head?.map Prod.fst).getD 0

/-- The group number of each dimension, as a value drawn from a list by group. -/
def perDim {α : Type} (d : α) (gs : List α) (n : Nat) : List α := (List.range n).map (fun i => gs.getD (i / 32) d)

def scaled (set : ScaleSet) (y : List F32) : List F32 :=
  List.zipWith (fun v s => fmul v (ofBf s)) y (perDim 0 set.s y.length)

/-- The codes of a prepared vector, one number a dimension. -/
def encodeVec (r : IdxRec) (set : ScaleSet) (y : List F32) : List Nat :=
  if r.fmt = 1 then y.map (fun v => b2n (flt v fZero))
  else (scaled set y).map (cbRound r.cb)

/-- Packs one-bit, four-bit or eight-bit codes (R101). -/
def packBits : Nat → List Nat → List Byte
  | 0, _ => []
  | n + 1, l =>
    BitVec.ofNat 8 ((List.zip (List.range 8) (l.take 8)).foldl (fun a ib => a + ib.2 * 2 ^ ib.1) 0) :: packBits n (l.drop 8)

def packNib : List Nat → List Byte
  | a :: b :: r => BitVec.ofNat 8 (a % 16 + 16 * (b % 16)) :: packNib r
  | [a] => [BitVec.ofNat 8 (a % 16)]
  | [] => []

def packCodes (fmt : Nat) (l : List Nat) : List Byte :=
  match fmt with
  | 1 => packBits (ceilDiv l.length 8) l
  | 2 => packNib l
  | _ => l.map (BitVec.ofNat 8)

def unpackCodes (fmt n : Nat) (b : List Byte) : List Nat :=
  let l : List Nat := match fmt with
    | 1 => b.flatMap (fun (x : Byte) => (List.range 8).map (fun i => b2n (bit x.toNat i)))
    | 2 => b.flatMap (fun (x : Byte) => [x.toNat % 16, x.toNat / 16])
    | _ => b.map BitVec.toNat
  l.take n

/-- The decoded values rn32(u_g × cb[c]) of a code (R112). -/
def decodeVec (r : IdxRec) (set : ScaleSet) (codes : List Nat) : List F32 :=
  List.zipWith (fun c u => fmul (ofBf u) (r.cb.getD c fZero)) codes (perDim 0 set.u codes.length)

/-- N_x (R116). -/
def codeNorm (r : IdxRec) (set : ScaleSet) (codes : List Nat) : F32 :=
  sumWeighted (codes.map (fun c => let v := r.cb.getD c fZero; fmul v v)) (set.u.map (fun u => fmul (ofBf u) (ofBf u)))

/-! ### Scores (R115 to R119) -/

/-- A query made ready for navigation: B1 bits, or BF16 values and their squared norm. -/
structure NavQuery where
  bitsQ : List Nat
  vals : List F32
  q2 : F32
  deriving DecidableEq, Repr

def bfRound (v : F32) : F32 := ofBf (toBf v)

/-- Converts a prepared query by the key format (R114, R115). -/
def navQuery (r : IdxRec) (y : List F32) : NavQuery :=
  let q := y.map bfRound
  { bitsQ := if r.fmt = 1 then y.map (fun v => b2n (flt v fZero)) else [], vals := q,
    q2 := if r.metric = 0 ∧ r.fmt ≠ 1 then sumPlain (q.map (fun v => fmul v v)) else fZero }

/-- The navigation score of a stored code (R115): `nx` is the record's N_x. -/
def navScore (r : IdxRec) (q : NavQuery) (set : ScaleSet) (codes : List Nat) (nx : F32) : F32 :=
  if r.fmt = 1 then
    fofNat ((List.zipWith (fun a b => if a = b then 0 else 1) q.bitsQ codes).sum)
  else
    let t := List.zipWith (fun v c => fmul v (r.cb.getD c fZero)) q.vals codes
    let sc := sumWeighted t (set.u.map ofBf)
    if r.metric = 0 then fadd (fsub nx (fmul 0x40000000 sc)) q.q2 else sc

/-- Navigation scores rank ascending under B1 and L2 (06 R162). -/
def navAsc (r : IdxRec) : Bool := r.fmt == 1 || r.metric == 0
def exactAsc (r : IdxRec) : Bool := r.metric == 0

/-- The exact distance of two step-1-prepared vectors (R119). -/
def exactDist (metric : Nat) (q x : List F32) : F32 :=
  if metric = 0 then sumPlain (List.zipWith (fun a b => let d := fsub a b; fmul d d) q x)
  else sumPlain (List.zipWith fmul q x)

/-! ### Key sets (R115, R117; 08 R235) -/

/-- The largest magnitude of a group. -/
def groupMax (l : List F32) : F32 := l.foldl (fun a v => if flt a (fabs v) then fabs v else a) fZero

/-- L of R117. -/
def fmtMax (f : Nat) : F32 := match f with | 4 => 0x42FE0000 | 5 => 0x43E00000 | _ => 0x47600000

def queryScales (f : Nat) (q : List F32) : List (BitVec 16) :=
  (chunk32 q).map (fun g => let m := groupMax g; if isZero m then 0x3F80 else bfDiv (fmtMax f) m)

/-- S of R115 for one key row: `elems` the stored elements, `u` the decode factors, `cb` the codebook. -/
def keyScore (f : Nat) (cb : List F32) (q : List F32) (elems : List Nat) (u : List (BitVec 16)) : F32 :=
  match f with
  | 2 => sumWeighted (List.zipWith (fun v c => fmul (bfRound v) (cb.getD c fZero)) q elems) (u.map ofBf)
  | 3 => sumWeighted (List.zipWith (fun v c => fmul (bfRound v) (cb.getD c fZero)) q elems) (u.map ofBf)
  | 7 => sumPlain (List.zipWith (fun v c => fmul (bfRound v) (ofBf (BitVec.ofNat 16 c))) q elems)
  | 8 => sumPlain (List.zipWith (fun v c => fmul v (BitVec.ofNat 32 c)) q elems)
  | _ =>
    let sq := queryScales f q
    let w := List.zipWith (fun a b => fmul (ofBf a) (ofBf (decodeFactor b))) u sq
    let qs := List.zipWith (fun v s => fmul v (ofBf s)) q (perDim 0 sq q.length)
    match f with
    | 4 => sumInts (List.zipWith (fun v c => toI8 v * ofBits 8 c) qs elems) w
    | 5 => sumWeighted (List.zipWith (fun v c => fmul (ofE4 (toE4 v)) (ofE4 (BitVec.ofNat 8 c))) qs elems) w
    | _ => sumWeighted (List.zipWith (fun v c => fmul (ofE5 (toE5 v)) (ofE5 (BitVec.ofNat 8 c))) qs elems) w

/-! ### Statistics and the next scale (R122 to R126) -/

structure GroupStat where
  n : Nat
  clip : Nat
  sse : F32
  ssx : F32
  deriving DecidableEq, Repr

/-- |v| exceeds every entry of v's sign, or no entry has that sign (R122). -/
def clipped (cb : List F32) (v : F32) : Bool :=
  if flt fZero v then (cb.filter (fun c => flt fZero c)).all (fun c => flt c v)
  else if flt v fZero then (cb.filter (fun c => flt c fZero)).all (fun c => flt v c)
  else false

def statStep (r : IdxRec) (s u : BitVec 16) (g : GroupStat) (y : F32) : GroupStat :=
  let v := fmul y (ofBf s)
  let e := fsub y (fmul (ofBf u) (r.cb.getD (cbRound r.cb v) fZero))
  { n := g.n + 1, clip := g.clip + b2n (clipped r.cb v), sse := fadd g.sse (fmul e e), ssx := fadd g.ssx (fmul y y) }

/-- The statistics of a batch of prepared vectors, per group: SSX and SSE are one running sum over vectors and dimensions in R122's order, not group sums of R118 (DESIGN CHOICE, log entry 75). -/
def batchStats (r : IdxRec) (set : ScaleSet) (ys : List (List F32)) : List GroupStat :=
  (List.range r.groups).map (fun g =>
    ys.foldl (fun a y => ((y.drop (32 * g)).take 32).foldl (statStep r (set.s.getD g 0) (set.u.getD g 0)) a) ⟨0, 0, fZero, fZero⟩)

def two (e : Int) : F32 := rnMag32 false 1 e false

/-- s_next of one group (R124); `free` stands where SSX is NaN, for which the rule states no value. -/
def nextScale (r : IdxRec) (free : BitVec 16) (s : BitVec 16) (g : GroupStat) (held : Bool) : BitVec 16 × Bool :=
  if !r.adapt || g.n == 0 || isZero g.ssx || held then (s, true)
  else
    let lmax := r.cb.foldl (fun a c => if flt a (fabs c) then fabs c else a) fZero
    let rms := fsqrt (fdiv g.ssx (fofNat g.n))
    let t := fdiv (fmul r.alpha lmax) rms
    let v := toBf (fadd (ofBf s) (fmul (two (-(r.shift : Int))) (fsub t (ofBf s))))
    if isNaN (ofBf v) then (free, false)
    else if flt (ofBf v) (two (-100)) then (0x0D80, false)
    else if flt (two 100) (ofBf v) then (0x7180, false)
    else (v, false)

def statBits (sum : Nat) (v : F32) : Nat := if isNaN v then (Config.statNaN sum).toNat else v.toNat

/-- The 24 bytes of a group in the statistics block (R123). -/
def statBytes (g : GroupStat) (used next : BitVec 16) (held unchanged : Bool) : List Byte :=
  toLE 4 g.n ++ toLE 4 g.clip ++ toLE 4 (statBits 0 g.sse) ++ toLE 4 (statBits 1 g.ssx) ++ toLE 2 used.toNat ++ toLE 2 next.toNat
    ++ toLE 2 (decodeFactor next).toNat ++ toLE 1 (b2n held + 2 * b2n unchanged) ++ [0]

end Sys2Proof.Machine
end

