-- ==== Sys2Proof/Machine/IndexView.lean ====
section
/-! DEFINITION. The parts of an index as bytes at an epoch (05 R130 to R134; 07 R191 to R198). -/

namespace Sys2Proof.Machine

open Sys2Proof

/-! ### Contents at an epoch (07 R191, R192) -/

/-- Undoes on one object the before-images of every mutation above the epoch, newest first. -/
def undoAbove (ims : List BImage) (e num : Nat) (m : Mem) : Mem :=
  (ims.filter (fun i => decide (e < i.epoch))).foldr (fun i a =>
    i.old.foldr (fun x b => if x.1 = num then memWrite b x.2.1 [x.2.2] else b) a) m

/-- An object of the index as it stood at the epoch. -/
def memAt (s : State) (t : Nat) (ims : List BImage) (e num : Nat) : Mem :=
  match findObj s t num with
  | some o => undoAbove ims e num o.data
  | none => []

/-- Above every epoch and below the mark of an unfolded record: the current contents. -/
def epochNow : Nat := 2 ^ 64 - 2

/-! ### Records -/

structure DirEntry where
  owner : Nat
  scatter : Bool
  slices : Nat
  rebuild : Bool
  slots : Nat
  sliceSel : Nat
  replEpoch : Nat
  section_ : Nat
  replObj : Nat
  replBm : Nat
  group : Nat
  pos : Nat
  gsize : Nat
  deriving DecidableEq, Repr

/-- Partition directory entry p (R132). -/
def dirAt (r : IdxRec) (m : Mem) (p : Nat) : DirEntry :=
  let o := r.dirOff + 48 * p
  let f (a n : Nat) := memLE m (o + a) n
  { owner := f 0 1, scatter := f 1 1 == 1, slices := f 2 1, rebuild := bit (f 3 1) 0, slots := f 4 4, sliceSel := f 8 8, replEpoch := f 16 8,
    section_ := f 24 4, replObj := f 28 4, replBm := f 32 4, group := f 36 1, pos := f 37 1, gsize := f 38 1 }

structure PartHdr where
  navObj : Nat
  vecObj : Nat
  entry : Nat
  entryGen : Nat
  nch : Nat
  bmOff : Nat
  chans : List Nat
  deriving DecidableEq, Repr

/-- Partition header (R133). -/
def hdrAt (m : Mem) (sec : Nat) : PartHdr :=
  let f (a n : Nat) := memLE m (sec + a) n
  { navObj := f 0 4, vecObj := f 4 4, entry := f 8 4, entryGen := f 12 2, nch := f 14 1, bmOff := f 16 8,
    chans := ((memRead m (sec + 32) 64).take (f 14 1)).map BitVec.toNat }

structure NavRec where
  userKey : Nat
  gen : Nat
  set : Nat
  live : Bool
  tomb : Bool
  code : List Byte
  nx : F32
  deriving DecidableEq, Repr

/-- A navigation record at a byte offset (R133). -/
def navAt (r : IdxRec) (m : Mem) (o : Nat) : NavRec :=
  let st := memLE m (o + 12) 1
  { userKey := memLE m o 8, gen := memLE m (o + 8) 2, set := memLE m (o + 10) 2, live := bit st 0, tomb := bit st 1,
    code := memRead m (o + 16) r.codeLen, nx := if r.hasNorm then BitVec.ofNat 32 (memLE m (o + 16 + r.codeLen) 4) else fZero }

def navBytes (r : IdxRec) (n : NavRec) : List Byte :=
  let b := toLE 8 n.userKey ++ toLE 2 n.gen ++ toLE 2 n.set ++ toLE 1 (b2n n.live + 2 * b2n n.tomb) ++ zeros 3 ++ n.code
    ++ (if r.hasNorm then toLE 4 n.nx.toNat else [])
  b ++ zeros (r.lnav - b.length)

/-- Bit k of a bitmap that begins at a bit offset (R133). -/
def bitAt (m : Mem) (bm k : Nat) : Bool := bit (memGet m ((bm + k) / 8)).toNat ((bm + k) % 8)

/-- Edge list offset of a slot. -/
def edgeOff (r : IdxRec) (sec slot : Nat) : Nat := sec + 128 + 6 * r.degree * slot

/-- The edges of a slot: slot and generation, empty edges as 0xFFFF_FFFF. -/
def edgesAt (r : IdxRec) (m : Mem) (sec slot : Nat) : List (Nat × Nat) :=
  (List.range r.degree).map (fun i => let o := edgeOff r sec slot + 6 * i; (memLE m o 4, memLE m (o + 4) 2))

def noEdge : Nat := 0xFFFFFFFF

/-! ### The update area (07 R195 to R198) -/

def uaOff (r : IdxRec) (d : DirEntry) : Nat := roundUp (d.section_ + 128 + 6 * r.degree * d.slots) 4096
def verOff (r : IdxRec) (d : DirEntry) : Nat := uaOff r d + 4096
def sideOff (r : IdxRec) (d : DirEntry) : Nat := roundUp (verOff r d + 8 * d.slots) 4096

structure UpdHdr where
  ok : Bool
  sideCap : Nat
  ovlBytes : Nat
  head : Nat
  tail : Nat
  floor : Nat
  applied : Nat
  freeSlots : Nat
  setCur : Nat
  deriving DecidableEq, Repr

def updAt (r : IdxRec) (m : Mem) (d : DirEntry) : UpdHdr :=
  let f (a n : Nat) := memLE m (uaOff r d + a) n
  { ok := f 0 4 == 0x4455504C, sideCap := f 4 4, ovlBytes := f 8 8, head := f 16 8, tail := f 24 8, floor := f 32 8, applied := f 40 8,
    freeSlots := f 48 4, setCur := f 52 2 }

def ovlOff (r : IdxRec) (d : DirEntry) (u : UpdHdr) : Nat := roundUp (sideOff r d + r.lside * u.sideCap) 4096
def setOff (r : IdxRec) (d : DirEntry) (u : UpdHdr) : Nat := roundUp (ovlOff r d u + u.ovlBytes) 4096

/-- A table of scale sets read at a byte offset. -/
def setAt (r : IdxRec) (m : Mem) (base k : Nat) : ScaleSet :=
  let o := base + k * 4 * r.groups
  ⟨(List.range r.groups).map (fun g => bfAt m (o + 4 * g)), (List.range r.groups).map (fun g => bfAt m (o + 4 * g + 2))⟩

structure SideRec where
  version : Nat
  folded : Nat
  slot : Nat
  del : Bool
  nav : NavRec
  deriving DecidableEq, Repr

def notFolded : Nat := 0xFFFFFFFFFFFFFFFF

def sideAt (r : IdxRec) (m : Mem) (d : DirEntry) (u : UpdHdr) (p : Nat) : SideRec :=
  let o := sideOff r d + r.lside * (p % (max 1 u.sideCap))
  { version := memLE m o 8, folded := memLE m (o + 8) 8, slot := memLE m (o + 16) 4, del := memLE m (o + 20) 1 == 1, nav := navAt r m (o + 24) }

def sideBytes (r : IdxRec) (x : SideRec) : List Byte :=
  toLE 8 x.version ++ toLE 8 x.folded ++ toLE 4 x.slot ++ toLE 1 (b2n x.del) ++ zeros 3 ++ navBytes r x.nav

/-! ### A partition at an epoch -/

/-- All that a walk of a partition reads: graph object, codes, deletion bitmap and filter, as they stand at the epoch. -/
structure PV where
  r : IdxRec
  d : DirEntry
  h : PartHdr
  u : UpdHdr
  g : Mem
  nav : Mem
  del : Mem
  filt : Option Mem
  num : Nat
  epoch : Nat
  deriving DecidableEq, Repr

def pvAt (s : State) (t num p e : Nat) (r : IdxRec) (ix : Index) (filter : Nat) : PV :=
  let g := memAt s t ix.images e num
  let d := dirAt r g p
  let h := hdrAt g d.section_
  { r := r, d := d, h := h, u := updAt r g d, g := g, nav := memAt s t ix.images e h.navObj,
    del := if r.tomb then [] else memAt s t ix.images e r.delObj,
    filt := if filter = noEdge then none else (findObj s t filter).map (fun o => o.data), num := num, epoch := e }

def PV.nrec (v : PV) (slot : Nat) : NavRec := navAt v.r v.nav (slot * v.r.lnav)
def PV.delBit (v : PV) (slot : Nat) : Bool := !v.r.tomb && bitAt v.del v.h.bmOff slot
def PV.filtOk (v : PV) (slot : Nat) : Bool := match v.filt with | none => true | some f => bitAt f v.h.bmOff slot
def PV.edges (v : PV) (slot : Nat) : List (Nat × Nat) := edgesAt v.r v.g v.d.section_ slot
def PV.version (v : PV) (slot : Nat) : Nat := memLE v.g (verOff v.r v.d + 8 * slot) 8

/-- The scale set of a code: the partition's table; set 0 of a partition without mutations comes from the encoding record (04 R112, 07 R197). -/
def PV.set (v : PV) (k : Nat) : ScaleSet :=
  if v.r.fmt = 1 then ⟨[], []⟩ else if k = 0 then set0 v.r else setAt v.r v.g (setOff v.r v.d v.u) k

def PV.codes (v : PV) (n : NavRec) : List Nat := unpackCodes v.r.fmt v.r.dp n.code
def PV.score (v : PV) (q : NavQuery) (n : NavRec) : F32 := canonScore (navScore v.r q (v.set n.set) (v.codes n) n.nx)

/-- The main record takes part in a scan: live, no tombstone, no deletion bit, filter passed (R141, R152). -/
def PV.passes (v : PV) (slot : Nat) : Bool :=
  let n := v.nrec slot
  n.live && !n.tomb && !v.delBit slot && v.filtOk slot

/-- Side-list records from head to tail − 1, with their positions. -/
def PV.sides (v : PV) : List (Nat × SideRec) :=
  (List.range (v.u.tail - v.u.head)).map (fun i => (v.u.head + i, sideAt v.r v.g v.d v.u (v.u.head + i)))

/-- Side-list records in force at the epoch: written and not folded (R208). -/
def PV.sidesAt (v : PV) : List (Nat × SideRec) :=
  v.sides.filter (fun x => decide (x.2.version ≤ v.epoch) && !decide (x.2.folded ≤ v.epoch))

/-- An unfolded INSERT record names the slot and no later DELETE record does (R200). -/
def PV.sideLive (v : PV) (slot : Nat) : Bool :=
  match (v.sidesAt.filter (fun x => x.2.slot == slot)).getLast? with
  | some x => !x.2.del
  | none => false

/-- A slot is live (R200). -/
def PV.liveSlot (v : PV) (slot : Nat) : Bool :=
  let n := v.nrec slot
  if v.r.tomb then n.live && !n.tomb else (n.live && !v.delBit slot) || v.sideLive slot

/-- A slot is free (R199). -/
def PV.freeSlot (v : PV) (slot : Nat) : Bool :=
  memLE v.nav (slot * v.r.lnav + 12) 1 == 0 && (v.r.tomb || !v.sidesAt.any (fun x => x.2.slot == slot && !x.2.del))

def PV.freeSlots (v : PV) : List Nat := (List.range v.d.slots).filter v.freeSlot

/-! ### Vectors (R134) -/

/-- The object byte of vector record i. -/
def vecOff (r : IdxRec) (i : Nat) : Nat :=
  if r.vr ≤ 16384 then i / (16384 / r.vr) * 16384 + i % (16384 / r.vr) * r.vr else i * ceilDiv r.vr 16384 * 16384

/-- The flash channel that holds vector record i: that of its group of units. -/
def vecChan (r : IdxRec) (h : PartHdr) (i : Nat) : Nat :=
  h.chans.getD ((if r.vr ≤ 16384 then i / (16384 / r.vr) else i * ceilDiv r.vr 16384) % (max 1 h.nch)) 0

/-- Reads vector record i as at the epoch: the vector and its attribute words. Where the partition header names no object, the record reads as zeros, and so do the codes and bits of a NAV_OBJ or DEL_OBJ that names none (DESIGN CHOICE, log entry 78). -/
def readVec (s : State) (t : Nat) (ix : Index) (r : IdxRec) (h : PartHdr) (e i : Nat) : State × Except Nat (List Byte) :=
  match findObj s t h.vecObj with
  | none => (s, .ok (zeros r.vr))
  | some o =>
    let off := vecOff r i
    let x := readObjAt s o e off (4 * r.dim + r.attr)
    match x.2 with
    | .error st => (x.1, .error st)
    | .ok b =>
      let m := undoAbove ix.images e h.vecObj (cellsOf off b)
      (x.1, .ok (memRead m off (4 * r.dim + r.attr)))

/-! ### Size checks (R147) -/

/-- A bitmap object holds at least n bits. -/
def bitsFit (s : State) (t num n : Nat) : Bool :=
  match findObj s t num with
  | some o => decide (n ≤ o.size * 8)
  | none => false

end Sys2Proof.Machine
end

