-- ==== Sys2Proof/Machine/Walk.lean ====
section
/-! DEFINITION. Walking, scanning and reranking one partition on the node that holds it (05 R140 to R148, R152 to R157; 07 R208). -/

namespace Sys2Proof.Machine

open Sys2Proof

/-- An entry of a beam or a match list. -/
structure WEnt where
  key : Nat
  score : F32
  slot : Nat
  ring : Option Nat := none        -- ring index of a side-list record
  userKey : Nat := 0
  version : Nat := 0
  exp : Bool := false
  deriving DecidableEq, Repr

structure Walk where
  beam : List WEnt := []
  found : List WEnt := []          -- the match list
  plies : Nat := 0
  stale : Nat := 0
  tombs : Nat := 0
  reads : List (Nat × Nat × Nat) := []   -- object, offset, length of every read
  deriving DecidableEq, Repr

/-- What the unspecified choices follow from: image and epoch (01 R20). -/
structure Tie where
  image : Nat
  epoch : Nat
  deriving DecidableEq, Repr

/-- An entry as it stands in a lane of a vector register (06 R165). -/
def entLane (a : WEnt) : Nat :=
  mkLane a.key a.exp a.ring.isSome (match a.ring with | some r => r | none => a.slot)

def wId (a : WEnt) : Nat := match a.ring with | some r => 2 ^ 40 + r | none => a.slot

def wLe (t : Tie) (a b : WEnt) : Bool :=
  decide (a.key < b.key) || (a.key == b.key && Config.tieFirst t.image t.epoch (wId a) (wId b))

/-- offer (R141): inserts; a full list loses its worst entry to a better one, and of tied ones an unspecified one stays. -/
def offer (t : Tie) (cap : Nat) (e : WEnt) (l : List WEnt) : List WEnt := (insertBy (wLe t) e l).take cap

def inList (slot : Nat) (l : List WEnt) : Bool := l.any (fun e => e.ring.isNone && e.slot == slot)

/-- c, b and F of R140. -/
def navElems (r : IdxRec) : Nat := ceilDiv r.lnav 256
def bmWords (r : IdxRec) (filt : Bool) : Nat := b2n filt + b2n (!r.tomb)
def plyWidth (r : IdxRec) (filt : Bool) : Nat :=
  let c := navElems r
  let b := bmWords r filt
  max 1 (min (64 / (c + b)) (3584 / (r.lnav + 8 * b)))

/-- The reads of one neighbour: its record and its bitmap words. -/
def neighbourReads (v : PV) (filter slot : Nat) : List (Nat × Nat × Nat) :=
  [(v.h.navObj, slot * v.r.lnav, v.r.lnav)]
    ++ (if v.filt.isSome then [(filter, (v.h.bmOff + slot) / 64 * 8, 8)] else [])
    ++ (if v.r.tomb then [] else [(v.r.delObj, (v.h.bmOff + slot) / 64 * 8, 8)])

/-- consider (R141). -/
def consider (t : Tie) (v : PV) (q : NavQuery) (beamCap : Nat) (w : Walk) (slot gen : Nat) : Walk :=
  let n := v.nrec slot
  if n.gen ≠ gen ∨ ¬ n.live then { w with stale := w.stale + 1 }
  else if inList slot w.beam || inList slot w.found then w
  else
    let sc := v.score q n
    let e : WEnt := { key := scoreKey sc (navAsc v.r), score := sc, slot := slot, userKey := n.userKey, version := v.version slot }
    let w1 := { w with beam := offer t beamCap e w.beam }
    if n.tomb then { w1 with tombs := w1.tombs + 1 }
    else if v.delBit slot || !v.filtOk slot then w1
    else { w1 with found := offer t 128 e w1.found }

/-- The code plies over the edges of one vertex. -/
def codePlies (t : Tie) (v : PV) (q : NavQuery) (beamCap budget filter : Nat) : Nat → Walk → List (Nat × Nat) → Walk
  | 0, w, _ => w
  | n + 1, w, todo =>
    if todo.isEmpty ∨ budget ≤ w.plies then w
    else
      let f := plyWidth v.r v.filt.isSome
      let now := todo.take f
      let w1 := { w with plies := w.plies + 1, reads := w.reads ++ now.flatMap (fun e => neighbourReads v filter e.1) }
      codePlies t v q beamCap budget filter n (now.foldl (fun a e => consider t v q beamCap a e.1 e.2) w1) (todo.drop f)

/-- The expansion loop of R141. -/
def walkLoop (t : Tie) (v : PV) (q : NavQuery) (beamCap budget filter : Nat) : Nat → Walk → Walk
  | 0, w => w
  | n + 1, w =>
    if budget ≤ w.plies then w
    else
      match w.beam.find? (fun e => !e.exp) with
      | none => w
      | some x =>
        let mark := fun (e : WEnt) => if e.slot = x.slot then { e with exp := true } else e
        let w1 := { w with beam := w.beam.map mark, plies := w.plies + 1,
                           reads := w.reads ++ [(v.num, edgeOff v.r v.d.section_ x.slot, 6 * v.r.degree)] }
        let todo := (v.edges x.slot).filter (fun e => e.1 != noEdge && !inList e.1 w1.beam && !inList e.1 w1.found)
        walkLoop t v q beamCap budget filter n (codePlies t v q beamCap budget filter 65 w1 todo)

/-- One walk from ENTRY; the match list that it starts with is kept (R141, R148). -/
def walkFrom (t : Tie) (v : PV) (q : NavQuery) (beamCap budget filter : Nat) (w : Walk) : Walk :=
  let w0 := { w with beam := [], plies := 1, reads := w.reads ++ neighbourReads v filter v.h.entry }
  walkLoop t v q beamCap budget filter budget (consider t v q beamCap w0 v.h.entry v.h.entryGen)

/-- The side-list scan of R208 over a list of at most `cap` entries. -/
def sideScan (t : Tie) (v : PV) (q : NavQuery) (cap : Nat) (w : Walk) : Walk :=
  v.sidesAt.foldl (fun a x =>
    let s := x.2
    if s.del then { a with found := a.found.filter (fun e => !(e.ring.isSome && e.slot == s.slot)) }
    else if !v.filtOk s.slot then a
    else
      let sc := v.score q s.nav
      let e : WEnt := { key := scoreKey sc (navAsc v.r), score := sc, slot := s.slot, ring := some (x.1 % max 1 v.u.sideCap),
                        userKey := s.nav.userKey, version := s.version }
      { a with found := offer t cap e a.found })
    { w with reads := w.reads ++ v.sides.map (fun x => (v.num, sideOff v.r v.d + v.r.lside * (x.1 % max 1 v.u.sideCap), v.r.lside)) }

/-- What a query asks of a partition. -/
structure Ask where
  q1 : List F32                    -- step-1-prepared query
  nav : NavQuery
  k : Nat
  beam : Nat
  depth : Nat                      -- RERANK_DEPTH
  plies : Nat
  widenPlies : Nat
  filter : Nat
  preds : List (Nat × Nat × Nat)
  deriving DecidableEq, Repr

/-! ### The channel engines (R143, R144) -/

def predOk (attrs : List Byte) (p : Nat × Nat × Nat) : Bool :=
  let w := fieldAt attrs (8 * p.1) 8
  let x := p.2.2
  match p.2.1 with
  | 0 => w == x
  | 1 => w != x
  | 2 => decide (w < x)
  | 3 => decide (w ≤ x)
  | 4 => decide (w > x)
  | 5 => decide (w ≥ x)
  | 6 => w &&& x != 0
  | _ => w &&& x == x

def vecIndex (v : PV) (e : WEnt) : Nat := match e.ring with | some r => v.d.slots + r | none => e.slot

/-- Entry flags of R177. -/
def entFlags (side nav scatter : Bool) : Nat := b2n side + 2 * b2n nav + 4 * b2n scatter

/-- The list entry of a candidate whose vector record is at hand, unless the predicate drops it. -/
def engineCand (v : PV) (p : Nat) (a : Ask) (scatter : Bool) (e : WEnt) (b : List Byte) : Option Cand :=
  let d := canonScore (exactDist v.r.metric a.q1 (f32s (b.take (4 * v.r.dim))))
  if a.preds.all (predOk (b.drop (4 * v.r.dim))) then
    some { part := p, userKey := e.userKey, score := d, key := scoreKey d (exactAsc v.r), slot := e.slot,
           eflags := entFlags e.ring.isSome false scatter, version := e.version }
  else none

/-- The engine reads one candidate's vector. -/
def engineOne (s : State) (t : Nat) (ix : Index) (v : PV) (p : Nat) (a : Ask) (scatter : Bool) (e : WEnt) : State × Except Nat (Option Cand) :=
  let x := readVec s t ix v.r v.h v.epoch (vecIndex v e)
  (x.1, match x.2 with | .error st => .error st | .ok b => .ok (engineCand v p a scatter e b))

def engineAll (t : Nat) (ix : Index) (v : PV) (p : Nat) (a : Ask) (scatter : Bool) : State → List WEnt → State × Except Nat (List Cand)
  | s, [] => (s, .ok [])
  | s, e :: r =>
    let x := engineOne s t ix v p a scatter e
    match x.2 with
    | .error st => (x.1, .error st)
    | .ok c =>
      let y := engineAll t ix v p a scatter x.1 r
      (y.1, match y.2 with
        | .error st => .error st
        | .ok l => .ok (match c with | some d => d :: l | none => l))

/-- Candidates sent to the engines in ascending channel number (R143). -/
def byChannel (v : PV) (l : List WEnt) : List WEnt :=
  sortBy (fun x y => decide (vecChan v.r v.h (vecIndex v x) ≤ vecChan v.r v.h (vecIndex v y))) l

def navCand (p : Nat) (scatter : Bool) (e : WEnt) : Cand :=
  { part := p, userKey := e.userKey, score := e.score, key := e.key, slot := e.slot, eflags := entFlags e.ring.isSome true scatter, version := e.version }

/-! ### Faults met by the reads of a walk (08 R233) -/

def firstBad (s : State) (t : Nat) : List (Nat × Nat × Nat) → Option StackBad
  | [] => none
  | (o, off, n) :: r =>
    match (findObj s t o).bind (fun x => stackBad s x off n) with
    | some b => some b
    | none => firstBad s t r

/-- EPOCH_RETIRED (07 R193; 13 R410). -/
def epochRetired (s : State) (t p e : Nat) : State :=
  errEvent s 12 0x0050 t qeUnit p p (e % 2 ^ 32) (e / 2 ^ 32 % 2 ^ 32)

/-- The walk, the widening and the side-list scan of one partition at its owner (R141, R142, R148): the match list, and the list's counts. -/
def graphWalk (s : State) (t : Nat) (v : PV) (p : Nat) (a : Ask) (tie : Tie) : State × Except Nat (List WEnt × CList) :=
  if v.epoch < v.u.floor then (epochRetired s t p v.epoch, .error stMemory)
  else if a.filter ≠ noEdge ∧ ¬ bitsFit s t a.filter (v.h.bmOff + v.d.slots) then (s, .error stMalformed)
  else
    let w1 := walkFrom tie v a.nav a.beam a.plies a.filter {}
    let goal := if a.depth = 0 then min a.k 128 else a.depth
    let widen := decide (w1.found.length < goal) && decide (0 < a.widenPlies)
    let w2 := if widen then walkFrom tie v a.nav (min (2 * a.beam) 128) a.widenPlies a.filter w1 else w1
    let w3 := if v.r.tomb then w2 else sideScan tie v a.nav 128 w2
    match firstBad s t w3.reads with
    | some b => (logStackBad s t b, .error stMemory)
    | none => (s, .ok (w3.found, { part := p, stale := w3.stale, tombs := w3.tombs, widened := widen, cands := [] }))

/-! ### Scans (R152, R153, R485) -/

/-- Offers slots first to first + n − 1 to a list of `cap` entries, by the tests of consider without the generation check. -/
def scanSlots (t : Tie) (v : PV) (q : NavQuery) (cap first n : Nat) : List WEnt :=
  ((List.range n).map (fun i => first + i)).foldl (fun l slot =>
    if !v.passes slot then l
    else
      let x := v.nrec slot
      let sc := v.score q x
      offer t cap { key := scoreKey sc (navAsc v.r), score := sc, slot := slot, userKey := x.userKey, version := v.version slot } l) []

/-- The reads of a scan over slots. -/
def scanReads (v : PV) (filter first n : Nat) : List (Nat × Nat × Nat) :=
  (List.range n).flatMap (fun i => neighbourReads v filter (first + i))

/-- One scan Square's entries for one query (R152). -/
def scanSquare (s : State) (t : Nat) (v : PV) (a : Ask) (tie : Tie) (first n : Nat) : State × Except Nat (List WEnt) :=
  match firstBad s t (scanReads v a.filter first n) with
  | some b => (logStackBad s t b, .error stMemory)
  | none => (s, .ok (scanSlots tie v a.nav (max a.k a.depth) first n))

/-- The side list's entries in a NAV scan (R485). -/
def scanSide (s : State) (t : Nat) (v : PV) (a : Ask) (tie : Tie) : State × Except Nat (List WEnt) :=
  let w := sideScan tie v a.nav (max a.k a.depth) {}
  match firstBad s t w.reads with
  | some b => (logStackBad s t b, .error stMemory)
  | none => (s, .ok w.found)

/-- The live slots whose vectors a channel engine holds (R153). -/
def fullSlots (v : PV) (ch : Nat) : List WEnt :=
  ((List.range v.d.slots).filter (fun slot => vecChan v.r v.h slot == ch && v.passes slot)).map (fun slot =>
    { key := 0, score := fZero, slot := slot, userKey := (v.nrec slot).userKey, version := v.version slot })

/-- The INSERT records that a FULL scan keeps: offered by R208 and not removed by a later DELETE record (R485). -/
def sideKept (v : PV) : List WEnt :=
  v.sidesAt.foldl (fun l x =>
    let s := x.2
    if s.del then l.filter (fun e => e.slot != s.slot)
    else if !v.filtOk s.slot then l
    else l ++ [{ key := 0, score := fZero, slot := s.slot, ring := some (x.1 % max 1 v.u.sideCap), userKey := s.nav.userKey, version := s.version }]) []

/-! ### Slices (R155 to R157) -/

def sliceLen (d : DirEntry) : Nat := ceilDiv d.slots (max 1 d.slices)
def sliceCount (d : DirEntry) (j : Nat) : Nat := min ((j + 1) * sliceLen d) d.slots - min (j * sliceLen d) d.slots

/-- The group position of the holder that SLICE_SEL selects for slice j. -/
def holderPos (d : DirEntry) (j : Nat) : Nat := (d.pos + (if bit d.sliceSel j then 2 else 1) + 2 * j) % max 1 d.gsize

/-- Scans slice j from the holder's replica: the best `cap` entries with navigation scores (R156, R157). A replica record holds no epoch: the VERSION of its entry is a free value (log entry 82). -/
def scanSlice (s : State) (t num part : Nat) (r : IdxRec) (d : DirEntry) (j : Nat) (a : Ask) (cap : Nat) (tie : Tie) : State × Except Nat (List WEnt) :=
  match findObj s t d.replObj with
  | none => (s, .error stMalformed)
  | some o =>
    let n := sliceLen d
    let cnt := sliceCount d j
    let base := roundUp (n * r.lnav) 4096
    if a.filter ≠ noEdge ∧ ¬ bitsFit s t a.filter (d.replBm + n) then (s, .error stMalformed)
    else
      let fm := if a.filter = noEdge then none else (findObj s t a.filter).map (fun x => x.data)
      let dm := if r.tomb then none else (findObj s t r.delObj).map (fun x => x.data)
      let recs := (List.range cnt).map (fun i => (i, navAt r o.data (i * r.lnav)))
      if r.fmt ≠ 1 ∧ recs.any (fun x => decide (o.size < base + (x.2.set + 1) * 4 * r.groups)) then (s, .error stMalformed)
      else
        match stackBad s o 0 (cnt * r.lnav) with
        | some b => (logStackBad s t b, .error stMemory)
        | none =>
          (s, .ok (recs.foldl (fun l x =>
            let nrec := x.2
            let keep := nrec.live && !nrec.tomb && (match dm with | some m => !bitAt m d.replBm x.1 | none => true)
              && (match fm with | some m => bitAt m d.replBm x.1 | none => true)
            if !keep then l
            else
              let set := if r.fmt = 1 then ⟨[], []⟩ else setAt r o.data base nrec.set
              let sc := canonScore (navScore r a.nav set (unpackCodes r.fmt r.dp nrec.code) nrec.nx)
              offer tie cap { key := scoreKey sc (navAsc r), score := sc, slot := j * n + x.1, userKey := nrec.userKey,
                                version := (Config.replicaVersion num part d.replEpoch (j * n + x.1)).toNat } l) []))

end Sys2Proof.Machine
end

