-- ==== Sys2Proof/Machine/Search.lean ====
section
/-! DEFINITION. SEARCH, SEARCH_SCAN, TOPK_DOT and RERANK (05 R135 to R159, R485, R487; 06 R167 to R183; 04 R104, R111). -/

namespace Sys2Proof.Machine

open Sys2Proof

/-! ### Evaluations over the state -/

/-- Evaluates a list in order; questions of all are collected, a failure ends it. -/
def mapEv {α β : Type} (f : State → α → State × Ev β) : State → List α → State × Ev (List β)
  | s, [] => (s, .ok [])
  | s, a :: r =>
    let x := f s a
    match x.2 with
    | .err st => (x.1, .err st)
    | .wait => (x.1, .wait)
    | .need l => let y := mapEv f x.1 r; (y.1, match y.2 with | .need m => .need (l ++ m) | .err st => .err st | _ => .need l)
    | .ok b => let y := mapEv f x.1 r; (y.1, match y.2 with | .ok l => .ok (b :: l) | .need m => .need m | .err st => .err st | .wait => .wait)

def bindEv {α β : Type} (x : State × Ev α) (f : State → α → State × Ev β) : State × Ev β :=
  match x.2 with
  | .ok a => f x.1 a
  | .err st => (x.1, .err st)
  | .need l => (x.1, .need l)
  | .wait => (x.1, .wait)

def ofExcept {α : Type} (x : State × Except Nat α) : State × Ev α :=
  (x.1, match x.2 with | .ok a => .ok a | .error st => .err st)

/-! ### The parsed request -/

inductive QKind where
  | search | nav | full
  deriving DecidableEq, Repr

structure Batch where
  d : Desc
  num : Nat
  ix : Index
  r : IdxRec
  g : Mem                          -- the index object at the epoch
  tie : Tie
  kind : QKind
  serve : Nat
  asks : List Ask                  -- one per query
  body : List Byte                 -- queries and predicate terms as they lie in host memory
  pos : Position
  placed : Bool := false           -- the work stands in a serving context already (03 R75)
  deriving DecidableEq, Repr

def stridesOf (dim : Nat) : Nat := roundUp (4 * dim) 64

def predsAt (b : List Byte) (n : Nat) : List (Nat × Nat × Nat) :=
  (List.range n).map (fun i => (fieldAt b (16 * i) 1, fieldAt b (16 * i + 1) 1, fieldAt b (16 * i + 8) 8))

/-- A predicate term is malformed (R144). -/
def predsBad (r : IdxRec) (b : List Byte) (n : Nat) : Bool :=
  (List.range n).any (fun i => decide (r.attr / 8 ≤ fieldAt b (16 * i) 1) || decide (7 < fieldAt b (16 * i + 1) 1) || !zeroAt b (16 * i + 2) 6)

/-- TEMP is finite and greater than 0 where MASS_MODE is EXP (R136). -/
def tempOk (mass temp : Nat) : Bool := mass != 2 || fpos (BitVec.ofNat 32 temp)

/-- FILTER names no object, or an ATTR_BITMAP object of the tenant. -/
def filterOk (s : State) (t f : Nat) : Bool :=
  f == noEdge || (match findObj s t f with | some o => o.type == 0x04 | none => false)

/-- The fields of a SEARCH are in range (R136). -/
def searchFieldsOk (s : State) (d : Desc) (r : IdxRec) : Bool :=
  let f := dfield d
  decide (f 16 8 % 64 = 0) && decide (f 24 8 % 64 = 0) && decide (1 ≤ f 36 2 ∧ f 36 2 ≤ 1024) && decide (1 ≤ f 38 1 ∧ f 38 1 ≤ 128)
    && decide (f 39 1 ≤ 128) && decide (1 ≤ f 40 2 ∧ f 40 2 ≤ 4096) && decide (1 ≤ f 42 1 ∧ f 42 1 ≤ 64) && decide (f 43 1 ≤ 63)
    && decide (f 44 2 ≤ 4096) && bits (f 46 1) 0 2 != 3 && bits (f 46 1) 2 2 != 3 && decide (f 47 1 ≤ 8)
    && decide (f 42 1 + f 43 1 ≤ 64) && decide (f 42 1 + f 43 1 ≤ r.parts) && filterOk s d.tenant (f 48 4)
    && tempOk (bits (f 46 1) 0 2) (f 52 4) && decide (16 * f 36 2 + 32 ≤ f 56 4) && !(f 47 1 != 0 && f 39 1 == 0)

/-- The partitions that a scan covers. -/
def scanParts (d : Desc) (r : IdxRec) : List Nat :=
  let a := dfield d 42 2
  let n := if dfield d 44 2 = 0 then r.parts - a else dfield d 44 2
  (List.range n).map (fun i => a + i)

def scanFieldsOk (s : State) (d : Desc) (r : IdxRec) : Bool :=
  let f := dfield d
  let full := f 46 1 == 1
  decide (f 16 8 % 64 = 0) && decide (f 24 8 % 64 = 0) && decide (1 ≤ f 36 2 ∧ f 36 2 ≤ 4096)
    && decide (1 ≤ f 38 2 ∧ f 38 2 ≤ (if full then 16 else 256)) && decide (f 40 2 ≤ (if full then 0 else 4096))
    && decide (f 42 2 < r.parts) && decide (f 42 2 + f 44 2 ≤ r.parts) && decide (f 46 1 ≤ 1)
    && bits (f 47 1) 0 2 != 3 && bits (f 47 1) 2 2 != 3 && filterOk s d.tenant (f 48 4)
    && tempOk (bits (f 47 1) 0 2) (f 52 4) && decide (f 38 2 * (16 * f 36 2 + 32) ≤ f 56 4)

/-- Bytes of host memory that the request reads. -/
def queryLen (d : Desc) (r : IdxRec) : Nat :=
  if descOp d = 0x01 then (if dfield d 47 1 = 0 then 4 * r.dim else stridesOf r.dim + 16 * dfield d 47 1) else dfield d 38 2 * stridesOf r.dim

/-- A query as prepared for every part of the request; none where R104 or R111 refuses it. -/
def mkAsk (d : Desc) (r : IdxRec) (preds : List (Nat × Nat × Nat)) (q : List F32) : Option Ask :=
  if !q.all isFinite then none
  else
    (prep1 r.metric q).map (fun q1 =>
      let s := descOp d == 0x01
      { q1 := q1, nav := navQuery r (prep2 r true q1), k := dfield d 36 2, beam := if s then dfield d 38 1 else 0,
        depth := if s then dfield d 39 1 else dfield d 40 2, plies := if s then dfield d 40 2 else 0, widenPlies := if s then dfield d 44 2 else 0,
        filter := dfield d 48 4, preds := preds })

/-- Builds the request from its descriptor and the bytes read from host memory. -/
def mkBatch (s : State) (d : Desc) (body : List Byte) : Option Batch :=
  let num := dfield d 32 4
  match idxRec s d.tenant num, findIndex s d.tenant num, posOf s d.tenant with
  | some r, some ix, some p =>
    let search := descOp d == 0x01
    let n := if search then 1 else dfield d 38 2
    let terms := if search then dfield d 47 1 else 0
    let pb := body.drop (stridesOf r.dim)
    let qs := (List.range n).map (fun i => f32s ((body.drop (i * stridesOf r.dim)).take (4 * r.dim)))
    let asks := qs.filterMap (mkAsk d r (predsAt pb terms))
    if asks.length ≠ n ∨ predsBad r pb terms then none
    else some
      { d := d, num := num, ix := ix, r := r, g := memAt s d.tenant ix.images d.epoch num, tie := ⟨p.digest, d.epoch⟩,
        kind := if search then .search else if dfield d 46 1 = 1 then .full else .nav,
        serve := if search then bits (dfield d 46 1) 2 2 else bits (dfield d 47 1) 2 2, asks := asks, body := body, pos := p }
  | _, _, _ => none

/-! ### Serving contexts and scan Squares (03 R74, R75, R95; 05 R152) -/

/-- Logical Squares assigned to a partition, the lowest logical index first (R75). -/
def servSquares (p : Position) (part : Nat) : List Nat :=
  match p.prog.serveOf.find? (fun e => e.1 == part) with
  | some e => (sortBy (fun a b => decide (a ≤ b)) (e.2.filter (fun i => decide (i < p.squares.length)))).dedup
  | none => List.range p.squares.length

def scanRanges (p : Position) (part slots : Nat) : List (Nat × Nat × Nat) :=
  let l := p.prog.scans.filter (fun x => x.part == part)
  if l.isEmpty then [(0, 0, slots)]
  else (sortBy (fun a b => decide (a.square ≤ b.square)) l).map (fun x => (x.square, x.first, x.count))

/-- The scan buffer of a logical Square, in bytes: DEPTH of its scan stream times the payload per slot of the stream's path. -/
def scanBuf (p : Position) (i : Nat) : Nat :=
  match p.prog.squares[i]? with
  | none => 0
  | some q =>
    match q.scanStream with
    | none => 0
    | some n =>
      match p.streams[n]?, p.runs.find? (fun r => r.stream == n) with
      | some st, some r => st.depth * slotPayload r.kind
      | _, _ => 0

/-- A free serving slot of a logical Square. -/
def freeServing (s : State) (p : Position) (i : Nat) : Option (Nat × Nat) :=
  match (carriers s p)[i]?, p.squares[i]? with
  | some n, some e => (freeSlot s n (sqEntry p i) e.ctx).map (fun c => (n, c))
  | _, _ => none

/-- Whether work can be placed on one of the Squares: REJECT_NO_RESERVATION where none reserves a serving slot, a wait while none is free. -/
def servable (s : State) (p : Position) (sq : List Nat) : Ev Unit :=
  if sq.all (fun i => sqServe p i == 0) then .err stNoRes
  else if sq.any (fun i => (freeServing s p i).isSome) then .ok ()
  else .wait

/-- Every Square of a scan can take its part. -/
def servableAll (s : State) (p : Position) (sq : List Nat) : Ev Unit :=
  if sq.any (fun i => sqServe p i == 0) then .err stNoRes
  else if sq.all (fun i => (freeServing s p i).isSome) then .ok ()
  else .wait

/-- The scan buffers hold the batch (R152). -/
def buffersOk (b : Batch) (sq : List Nat) : Bool :=
  match b.asks.head? with
  | none => true
  | some a =>
    let f := if b.r.fmt = 1 then b.r.dp / 8 else 2 * b.r.dp
    sq.all (fun i => decide (b.asks.length * (f + 8 * max a.k a.depth) ≤ scanBuf b.pos i))

/-! ### Exact distances -/

/-- The engines' entries for candidates of the member at a group position: from this node's vectors, or through the shard guard. -/
def engineEv (s : State) (d : Desc) (ix : Index) (v : PV) (p : Nat) (a : Ask) (scatter : Bool) (guarded : Option (Guard × Nat)) (l : List WEnt) : State × Ev (List Cand) :=
  match guarded with
  | some (gs, i) =>
    let xs := l.map (fun e =>
      match guardedRange 9 s d gs i (vecOff v.r (vecIndex v e)) (4 * v.r.dim + v.r.attr) with
      | .ok bs => Ev.ok (engineCand v p a scatter e bs)
      | .err st => .err st
      | .need q => .need q
      | .wait => .wait)
    match joinEv xs with
    | .ok cs => (cntFab s 9 l.length, .ok (cs.filterMap id))
    | .err st => (s, .err st)
    | .need q => (s, .need q)
    | .wait => (s, .wait)
  | none => if flashWait s then (s, .wait) else ofExcept (engineAll d.tenant ix v p a scatter s l)

/-- Reranks the first `depth` entries and keeps the best K, or keeps entries with their navigation scores (R143). -/
def rerankEv (s : State) (b : Batch) (v : PV) (p : Nat) (a : Ask) (scatter : Bool) (guarded : Option (Guard × Nat)) (l : List WEnt) : State × Ev (List Cand) :=
  if a.depth = 0 then
    (s, .ok ((l.take (if b.kind = .search then min a.k 128 else a.k)).map (navCand p scatter)))
  else
    let x := engineEv s b.d b.ix v p a scatter guarded (byChannel v (l.take a.depth))
    (x.1, match x.2 with | .ok cs => .ok (bestOf b.tie.image b.tie.epoch a.k cs) | e => e)

/-! ### A partition that this node owns -/

def pvOf (s : State) (b : Batch) (p : Nat) : PV :=
  pvAt s b.d.tenant b.num p b.d.epoch b.r b.ix (match b.asks.head? with | some a => a.filter | none => noEdge)

def localGraph (s : State) (b : Batch) (v : PV) (p : Nat) (a : Ask) : State × Ev (List CList) :=
  bindEv (s, if b.placed then .ok () else servable s b.pos (servSquares b.pos p)) (fun s _ =>
    bindEv (ofExcept (graphWalk s b.d.tenant v p a b.tie)) (fun s1 w =>
      bindEv (rerankEv s1 b v p a false (ownGuard s b.d.tenant v.h.vecObj) w.1) (fun s2 cs => (s2, .ok [{ w.2 with cands := cs }]))))

/-- The lists of a NAV scan for one query: one per scan Square, then the side list, which the scan Square with the lowest logical index reads (R152, R485). -/
def localNav (s : State) (b : Batch) (v : PV) (p : Nat) (a : Ask) : State × Ev (List CList) :=
  let g := ownGuard s b.d.tenant v.h.vecObj
  let main := mapEv (fun s (x : Nat × Nat × Nat) =>
    bindEv (ofExcept (scanSquare s b.d.tenant v a b.tie x.2.1 x.2.2)) (fun s1 l =>
      bindEv (rerankEv s1 b v p a false g l) (fun s2 cs => (s2, .ok ({ part := p, source := x.1, cands := cs } : CList))))) s (scanRanges b.pos p v.d.slots)
  if b.r.tomb then main
  else
    bindEv main (fun s1 ls =>
      bindEv (ofExcept (scanSide s1 b.d.tenant v a b.tie)) (fun s2 l =>
        bindEv (rerankEv s2 b v p a false g l) (fun s3 cs =>
          (s3, .ok (ls ++ [{ part := p, source := ((scanRanges b.pos p v.d.slots).map Prod.fst).headD 0, cands := cs }])))))

/-- The lists of a FULL scan for one query: one per channel engine, then the side list (R153, R485). -/
def localFull (s : State) (b : Batch) (v : PV) (p : Nat) (a : Ask) : State × Ev (List CList) :=
  let g := ownGuard s b.d.tenant v.h.vecObj
  let chans := sortBy (fun x y => decide (x ≤ y)) v.h.chans
  let main := mapEv (fun s (ch : Nat) =>
    bindEv (engineEv s b.d b.ix v p a false g (fullSlots v ch)) (fun s1 cs =>
      (s1, .ok ({ part := p, source := ch, cands := bestOf b.tie.image b.tie.epoch a.k cs } : CList)))) s chans
  if b.r.tomb then main
  else
    bindEv main (fun s1 ls =>
      bindEv (engineEv s1 b.d b.ix v p a false g (byChannel v (sideKept v))) (fun s2 cs =>
        (s2, .ok (ls ++ [{ part := p, cands := bestOf b.tie.image b.tie.epoch a.k cs }]))))

/-- Serves one partition that this node owns: per query, its lists. -/
def localPart (s : State) (b : Batch) (p : Nat) : State × Ev (List (List CList)) :=
  let v := pvOf s b p
  if v.epoch < v.u.floor then (epochRetired s b.d.tenant p v.epoch, .err stMemory)
  else if b.asks.any (fun a => a.filter != noEdge && !bitsFit s b.d.tenant a.filter (v.h.bmOff + v.d.slots)) then (s, .err stMalformed)
  else
    match b.kind with
    | .search => mapEv (fun s a => localGraph s b v p a) s b.asks
    | .nav =>
      let sq := (scanRanges b.pos p v.d.slots).map Prod.fst
      bindEv (s, if b.placed then .ok () else servableAll s b.pos sq) (fun s _ => mapEv (fun s a => localNav s b v p a) s b.asks)
    | .full =>
      bindEv (s, if b.r.tomb || b.placed then .ok () else servable s b.pos (servSquares b.pos p)) (fun s _ => mapEv (fun s a => localFull s b v p a) s b.asks)

/-! ### Questions to other nodes, and their replies (R138, R156) -/

/-- The body of a question: the descriptor, extra bytes with their length, the queries. -/
def askBody (b : Batch) (extra : List Byte) : List Byte := b.d.bytes ++ (toLE 4 extra.length ++ (extra ++ b.body))

/-- The lists that stand one after another in a body. -/
def listsOf : Nat → List Byte → List CList
  | 0, _ => []
  | n + 1, b => if b.length < 32 then [] else listOf b :: listsOf n (b.drop (32 + 32 * fieldAt b 2 2))

/-- Cuts a list into pieces of n. -/
def piecesOf {α : Type} (n : Nat) : Nat → List α → List (List α)
  | 0, _ => []
  | c + 1, l => l.take n :: piecesOf n c (l.drop n)

/-- The lists of a reply, per query. -/
def replyLists (queries : Nat) (bs : List Byte) : List (List CList) :=
  let l := listsOf (bs.length / 32 + 1) bs
  piecesOf (l.length / max 1 queries) queries l

def askLists (s : State) (b : Batch) (key : List Nat) (node kind part : Nat) (extra : List Byte) : Ev (List (List CList)) :=
  match replyOf s b.d key with
  | some bs => .ok (replyLists b.asks.length bs)
  | none => .need [{ key := key, node := node, kind := kind, part := part, body := askBody b extra }]

def isOwn (s : State) (node : Nat) : Bool := s.fab.assigned && s.fab.node == node

/-! ### Scatter mode (R155 to R157, R487) -/

def entOf (c : Cand) : WEnt := { key := c.key, score := c.score, slot := c.slot, userKey := c.userKey, version := c.version }

/-- Entries that a slice keeps, and that the merge of the slices keeps. -/
def sliceCap (b : Batch) (a : Ask) : Nat :=
  if b.kind = .search then (if a.depth = 0 then min a.k 128 else a.depth) else max a.k a.depth

/-- One slice's entries, per query: scanned here, or asked of its holder. -/
def sliceEv (s : State) (b : Batch) (e : DirEntry) (g : GroupCfg) (p j : Nat) : State × Ev (List (List WEnt)) :=
  let node := g.members.getD (holderPos e j) 0
  if isOwn s node then
    bindEv (s, if b.placed then .ok () else servable s b.pos (servSquares b.pos p)) (fun s _ =>
      mapEv (fun s a => ofExcept (scanSlice s b.d.tenant b.num p b.r e j a (sliceCap b a) b.tie)) s b.asks)
  else
    bindEv (s, askLists s b [6, p, j] node 6 p (toLE 4 j)) (fun s ls => (s, .ok (ls.map (fun l => (l.flatMap (fun c => c.cands)).map entOf))))

/-- Transposes per-slice lists per query into per-query merged lists, slices in ascending number. -/
def mergeSlices (b : Batch) (per : List (List (List WEnt))) : List (List WEnt) :=
  (List.zip (List.range b.asks.length) b.asks).map (fun ia =>
    (sortBy (wLe b.tie) (per.flatMap (fun x => x.getD ia.1 []))).take (sliceCap b ia.2))

/-- Whether the partition is served in scatter mode (R138, R487). -/
def isScatter (b : Batch) (e : DirEntry) : Bool :=
  b.kind != .full && (if b.serve = 1 then false else if b.serve = 2 then true else e.scatter)

/-- This node's Squares that would scan a partition for the request: those of a partition that it owns, or of a slice that it holds (R152, R487). -/
def ownScanners (s : State) (b : Batch) (p : Nat) : List Nat :=
  let e := dirAt b.r b.g p
  let mine :=
    if isScatter b e then
      (match s.fab.group with
       | some g => (List.range e.slices).any (fun j => isOwn s (g.members.getD (holderPos e j) 0))
       | none => false)
    else isOwn s e.owner
  if mine then (scanRanges b.pos p e.slots).map Prod.fst else []

/-- The scan buffers of this node's Squares hold the batch of a NAV scan: checked before any of them scans (R152). -/
def ownBuffersOk (s : State) (b : Batch) : Bool := b.kind != .nav || (scanParts b.d b.r).all (fun p => buffersOk b (ownScanners s b p))

/-- An entry that its owner has reranked bears the version of the owner's table (R169). -/
def withVersion (v : PV) (e : WEnt) : WEnt := if e.ring.isSome then e else { e with version := v.version e.slot }

/-- Serves a partition in scatter mode: per query, one list. -/
def scatterPart (s : State) (b : Batch) (p : Nat) (e : DirEntry) : State × Ev (List (List CList)) :=
  if e.slices = 0 then (s, .err stMalformed)
  else
    match s.fab.group with
    | none => (s, .err stRemote)
    | some g =>
      if g.group ≠ e.group then (s, .err stRemote)
      else
        bindEv (mapEv (fun s j => sliceEv s b e g p j) s (List.range e.slices)) (fun s1 per =>
          let merged := mergeSlices b per
          let v := pvOf s1 b p
          let mk (cs : List Cand) : List CList := [{ part := p, scatter := true, cands := cs }]
          let here := fun (s : State) (gd : Option (Guard × Nat)) =>
            mapEv (fun s (x : Ask × List WEnt) => bindEv (rerankEv s b v p x.1 true gd x.2) (fun s2 cs => (s2, .ok (mk cs)))) s (List.zip b.asks merged)
          if b.asks.all (fun a => a.depth == 0) then here s1 none
          else if e.rebuild then
            match guardOf s1 b.d.tenant v.h.vecObj with
            | none => (s1, .err stMedia)
            | some gs => here s1 (some (gs.2, e.pos))
          else if isOwn s1 e.owner then
            mapEv (fun s (x : Ask × List WEnt) => bindEv (rerankEv s b v p x.1 true (ownGuard s b.d.tenant v.h.vecObj) (x.2.map (withVersion v))) (fun s2 cs => (s2, .ok (mk cs)))) s1
              (List.zip b.asks merged)
          else
            let lists := (List.zip b.asks merged).flatMap (fun x => listBytes { part := p, scatter := true, cands := (x.2.take x.1.depth).map (navCand p true) })
            bindEv (s1, askLists s1 b [7, p] e.owner 7 p lists) (fun s2 ls =>
              (s2, .ok (ls.map (fun l => l.map (fun c => { c with scatter := true }))))))

/-- Serves one partition of a request at its entry node: per query, its lists. -/
def evalPart (b : Batch) (s : State) (p : Nat) : State × Ev (List (List CList)) :=
  let e := dirAt b.r b.g p
  if isScatter b e then scatterPart s b p e
  else if isOwn s e.owner then localPart s b p
  else (s, askLists s b [1, p] e.owner 1 p [])

/-! ### Coarse routing (R137) -/

def routerScore (r : IdxRec) (g : Mem) (q : List F32) (p : Nat) : F32 :=
  let o := r.routerOff + p * r.stride
  let c := (List.range r.dim).map (fun i => ofBf (bfAt g (o + 2 * i)))
  let sc := sumPlain (List.zipWith (fun a x => fmul (bfRound a) x) q c)
  if r.metric = 0 then fsub (BitVec.ofNat 32 (memLE g (o + 2 * r.dim) 4)) (fmul 0x40000000 sc) else sc

/-- Partitions in rank order. -/
def rankParts (b : Batch) (q : List F32) : List Nat :=
  let l := (List.range b.r.parts).map (fun p => (scoreKey (routerScore b.r b.g q p) (b.r.metric == 0), p))
  (sortBy (fun x y => decide (x.1 < y.1) || (x.1 == y.1 && Config.tieFirst b.tie.image b.tie.epoch x.2 y.2)) l).map Prod.snd

def sortNat (l : List Nat) : List Nat := sortBy (fun a b => decide (a ≤ b)) l

/-! ### The final stage (06 R168 to R180) -/

def massModeOf (d : Desc) : Nat := if descOp d = 0x01 then bits (dfield d 46 1) 0 2 else if descOp d = 0x02 then bits (dfield d 47 1) 0 2 else bits (dfield d 52 1) 0 2
def tempOf (d : Desc) : F32 := BitVec.ofNat 32 (if descOp d = 0x03 then dfield d 56 4 else dfield d 52 4)

/-- The scores of the final stage rank ascending. -/
def finalAsc (b : Batch) : Bool :=
  match b.kind with
  | .full => exactAsc b.r
  | _ => if (b.asks.map (fun a => a.depth)).headD 0 = 0 then navAsc b.r else exactAsc b.r

/-- The lists of query i, partitions in ascending order. -/
def listsFor (per : List (List (List CList))) (i : Nat) : List CList := per.flatMap (fun x => x.getD i [])

structure Answer where
  bytes : List Byte
  flags : Nat
  valid : Nat
  short : Bool
  deriving DecidableEq, Repr

/-- One query's result from its lists. -/
def answerOf (image epoch k mass : Nat) (asc dedup widened : Bool) (temp : F32) (ls : List CList) : Answer :=
  let f := finalStage image epoch k dedup (ls.flatMap (fun l => l.cands))
  { bytes := resultBytes k mass asc temp epoch f ls widened, flags := resultFlags f ls widened, valid := f.kept.length,
    short := decide (f.kept.length < k) }

def orFlags (l : List Nat) : Nat := l.foldl (fun a b => a ||| b) 0

/-- Commits, writes the results and completes (R359, R180, R355). -/
def finishQueries (s : State) (d : Desc) (l : List Answer) : State :=
  let s1 := hostWrite s d.tenant (dfield d 24 8) (l.flatMap (fun a => a.bytes))
  completeWith s1 d (if l.any (fun a => a.short) then stDoneShort else stDone) (orFlags (l.map (fun a => a.flags))) ((l.map (fun a => a.valid)).sum) d.epoch 0 []

/-- The entry context waits for the lists of its questions. -/
def waitLists (s : State) (d : Desc) : State :=
  match d.phase with
  | .placed n c => setCtx s n c { getCtx s n c with st := .waitStream, waitOn := noStream }
  | _ => s

/-- Carries on after an evaluation: fails, waits for other nodes or for a serving context (R75), or goes on. -/
def onEv {α : Type} (s : State) (d : Desc) (num : Nat) (x : State × Ev α) (f : State → α → State) : State :=
  match x.2 with
  | .ok a => f x.1 a
  | .err st => complete x.1 d st
  | .wait => waitLists s d
  | .need l =>
    let r := askAll s d num l
    if r.2 then waitLists r.1 d else complete s d stRemote

/-- A journalled write whose epoch the request must see has not been applied (07 R189). -/
def dirPending (ix : Index) (e : Nat) : Bool := ix.writes.any (fun w => decide (w.epoch ≤ e))

/-- A DISCARD accepted earlier has still to take units of the vectors of one of the index's partitions here (09 R269). -/
def discardWaits (s : State) (d : Desc) (b : Batch) : Bool :=
  s.qe.descs.any (fun x => decide (x.n < d.n) && x.tenant == d.tenant && descOp x == 0x16 && x.work == .none
    && (List.range b.r.parts).any (fun p => let e := dirAt b.r b.g p; e.section_ != 0 && (hdrAt b.g e.section_).vecObj == dfield x 16 4))

/-- The checks that SEARCH and SEARCH_SCAN share, then the request. -/
def withBatch (s : State) (d : Desc) (fieldsOk : IdxRec → Bool) (f : Batch → State) : State :=
  match idxRec s d.tenant (dfield d 32 4) with
  | none => complete s d stMalformed
  | some r =>
    if namesFreed s d || !fieldsOk r then complete s d stMalformed
    else if d.hostFault || !hostOpen s d.tenant then complete s d stHost
    else
      match mkBatch s d (hostRead s (dfield d 16 8) (queryLen d r)) with
      | none => complete s d stMalformed
      | some b =>
        if b.ix.journal.isNone then complete s d stNoRes
        else if dirPending b.ix d.epoch || discardWaits s d b then s
        else f b

/-- Runs a SEARCH: routing, the probed partitions, widening, the final stage (R137 to R150). -/
def runSearch (s : State) (d : Desc) : State :=
  withBatch s d (searchFieldsOk s d) (fun b =>
    let q1 := (b.asks.map (fun a => a.q1)).headD []
    let ranks := rankParts b q1
    let n := dfield d 42 1
    let w := dfield d 43 1
    let k := dfield d 36 2
    let answer := fun (widened : Bool) (per : List (List (List CList))) =>
      answerOf b.tie.image d.epoch k (massModeOf d) (finalAsc b) true widened (tempOf d) (listsFor per 0)
    let first := mapEv (evalPart b) s (sortNat (ranks.take n))
    onEv s d b.num first (fun s1 per =>
      let a := answer false per
      if a.short && decide (0 < w) then
        onEv s d b.num (mapEv (evalPart b) s (sortNat (ranks.take (n + w)))) (fun s2 per2 => finishQueries s2 d [answer true per2])
      else finishQueries s1 d [a]))

/-- SEARCH (R141). -/
def execSearch (q : QId) (seq : Nat) (s : State) : Res :=
  onUnit s (wellFormed (.search q seq)) <|
  match placedDesc s q seq 0x01 with
  | none => s
  | some d => runSearch s d

/-- Runs a SEARCH_SCAN (R151 to R154, R485, R487). -/
def runScan (s : State) (d : Desc) : State :=
  withBatch s d (scanFieldsOk s d) (fun b =>
    if !ownBuffersOk s b then complete s d stMalformed
    else
    onEv s d b.num (mapEv (evalPart b) s (scanParts d b.r)) (fun s1 per =>
      finishQueries s1 d ((List.range b.asks.length).map (fun i =>
        answerOf b.tie.image d.epoch (dfield d 36 2) (massModeOf d) (finalAsc b) true false (tempOf d) (listsFor per i)))))

/-- SEARCH_SCAN (R151). -/
def execSearchScan (q : QId) (seq : Nat) (s : State) : Res :=
  onUnit s (wellFormed (.searchScan q seq)) <|
  match placedDesc s q seq 0x02 with
  | none => s
  | some d => runScan s d

/-! ### Serving other nodes' requests (R75, R138, R156, R157) -/

/-- The request that a MESSAGE's body carries: what stands before the queries, and the request. -/
def batchOfMsg (s : State) (work : Nat) (m : Message) : Option (List Byte × Batch) :=
  let db := m.body.take 64
  let n := fieldAt m.body 64 4
  let extra := (m.body.drop 68).take n
  let d : Desc := { askerOf m.tenant 0 work m.epoch with bytes := db }
  (mkBatch s d (m.body.drop (68 + n))).map (fun b => (extra, { b with placed := true }))

def listsBytes (l : List (List CList)) : List Byte := l.flatMap (fun x => x.flatMap listBytes)

/-- What a serving context answers to a QUERY, a SCAN_SLICE or a RERANK MESSAGE. -/
def serveMsg (s : State) (work : Nat) (m : Message) : State × Ev (List Byte) :=
  match batchOfMsg s work m with
  | none => (s, .err stMalformed)
  | some (extra, b) =>
    let e := dirAt b.r b.g m.partition
    if (m.kind = 1 ∨ m.kind = 6) ∧ ¬ ownBuffersOk s b then (s, .err stMalformed)
    else
    match m.kind with
    | 1 => bindEv (localPart s b m.partition) (fun s1 ls => (s1, .ok (listsBytes ls)))
    | 6 =>
      bindEv (mapEv (fun s a => ofExcept (scanSlice s b.d.tenant b.num m.partition b.r e (leNat extra) a (sliceCap b a) b.tie)) s b.asks) (fun s1 per =>
        (s1, .ok (per.flatMap (fun l => listBytes { part := m.partition, scatter := true, cands := l.map (navCand m.partition true) }))))
    | _ =>
      let v := pvOf s b m.partition
      let lists := replyLists b.asks.length extra
      bindEv (mapEv (fun s (x : Ask × List CList) =>
          bindEv (rerankEv s b v m.partition x.1 true (ownGuard s m.tenant v.h.vecObj) ((x.2.flatMap (fun c => c.cands)).map (fun c => withVersion v (entOf c)))) (fun s2 cs =>
            (s2, .ok ({ part := m.partition, scatter := true, cands := cs } : CList)))) s (List.zip b.asks lists)) (fun s1 ls =>
        (s1, .ok (ls.flatMap listBytes)))

/-! ### TOPK_DOT (06 R181 to R183) -/

/-- The tile coordinates of R236: byte offset of row r's element c within the object, in row order of the tile. -/
def elemOff (t : Tensor) (row col : Nat) : Nat × Nat :=
  let tr := row / tileRows t.fmt
  let tc := col / tileCols t.fmt
  (t.bodyOff + (tr * t.ntc + tc) * 8192 + row % tileRows t.fmt * tileRowBytes t.fmt, col % tileCols t.fmt)

/-- The stored elements of a row. -/
def rowElems (t : Tensor) (m : Mem) (row : Nat) : List Nat :=
  (List.range t.cols).map (fun c =>
    let o := elemOff t row c
    match t.fmt with
    | 2 => let b := (memGet m (o.1 + o.2 / 2)).toNat; if o.2 % 2 = 0 then b % 16 else b / 16
    | 7 => memLE m (o.1 + 2 * o.2) 2
    | 8 => memLE m (o.1 + 4 * o.2) 4
    | _ => (memGet m (o.1 + o.2)).toNat)

/-- The decode factors of a row's groups. -/
def rowFactors (t : Tensor) (m : Mem) (row : Nat) : List (BitVec 16) :=
  if tileFb t.fmt = 0 then []
  else
    let gpt := tileCols t.fmt / 32
    (List.range (ceilDiv t.cols 32)).map (fun g =>
      let tile := row / tileRows t.fmt * t.ntc + g / gpt
      bfAt m (4096 + tileFb t.fmt * tile + 2 * (row % tileRows t.fmt * gpt + g % gpt)))

def tensorCb (t : Tensor) (m : Mem) : List F32 := (List.range (cbBytes t.fmt / 2)).map (fun i => ofBf (bfAt m (64 + 2 * i)))

/-- Rows of a key set per Square, in ascending logical index: the program's ranges, cut to the requested rows. Square 0 holds all where the program names none, and the last range holds what the others leave of the set (DESIGN CHOICE, log entry 81). -/
def keyRanges (p : Position) (total first n : Nat) : List (Nat × Nat × Nat) :=
  let l := if p.prog.keyRows.isEmpty then [(0, total)] else sortBy (fun a b => decide (a.1 ≤ b.1)) p.prog.keyRows
  let ends := (List.zip (List.range l.length) l).map (fun ix =>
    let lo := ((l.take ix.1).map Prod.snd).sum
    (ix.2.1, min lo total, if ix.1 + 1 = l.length then total else min (lo + ix.2.2) total))
  ends.filterMap (fun x =>
    let lo := max x.2.1 first
    let hi := min x.2.2 (first + n)
    if lo < hi then some (x.1, lo, hi - lo) else none)

/-- Bytes of one converted query (R182). -/
def keyFoot (t : Tensor) : Nat :=
  match t.fmt with | 2 => 2 * t.cols | 3 => 2 * t.cols | 7 => 2 * t.cols | 8 => 4 * t.cols | _ => t.cols + 2 * ceilDiv t.cols 32

def topkRows (d : Desc) (t : Tensor) : Nat := if dfield d 48 4 = 0 then t.rows - dfield d 40 8 else dfield d 48 4

def topkFieldsOk (d : Desc) (o : Obj) (t : Tensor) (p : Position) : Bool :=
  let f := dfield d
  let n := topkRows d t
  decide (f 16 8 % 64 = 0) && decide (f 24 8 % 64 = 0) && decide (1 ≤ f 36 2 ∧ f 36 2 ≤ 4096) && decide (1 ≤ f 38 2 ∧ f 38 2 ≤ 256)
    && decide (f 48 4 ≤ 2 ^ 28) && bits (f 52 1) 0 2 != 3 && decide (2 ≤ t.fmt ∧ t.fmt ≤ 8) && decide (o.tier ≤ 1)
    && decide (f 40 8 < t.rows) && decide (f 40 8 + n ≤ t.rows) && decide (f 40 8 + n ≤ 2 ^ 64 - 1) && tempOk (bits (f 52 1) 0 2) (f 56 4)
    && decide (f 38 2 * (16 * f 36 2 + 32) ≤ f 60 4)
    && (keyRanges p t.rows (f 40 8) n).all (fun x => decide (f 38 2 * (keyFoot t + 8 * f 36 2) ≤ scanBuf p x.1))

/-- One Square's list of its rows for one query. -/
def keyList (image k : Nat) (t : Tensor) (m : Mem) (q : List F32) (x : Nat × Nat × Nat) : CList :=
  let cb := tensorCb t m
  let cs := (List.range x.2.2).map (fun i =>
    let row := x.2.1 + i
    let sc := canonScore (keyScore t.fmt cb q (rowElems t m row) (rowFactors t m row))
    ({ userKey := row, score := sc, key := scoreKey sc false, slot := row % 2 ^ 32, eflags := 0, version := 0 } : Cand))
  { part := 0, source := x.1, cands := bestOf image 0 k cs }

/-- Object bytes that the rows of a key set are read from. -/
def keyBad (s : State) (o : Obj) (t : Tensor) (first n : Nat) : Option StackBad :=
  let a := (elemOff t first 0).1 / 8192 * 8192
  let z := (elemOff t (first + n - 1) 0).1 / 8192 * 8192 + 8192 * t.ntc
  match stackBad s o 0 t.bodyOff with
  | some b => some b
  | none => stackBad s o a (z - a)

def runTopk (s : State) (d : Desc) : State :=
  match findObj s d.tenant (dfield d 32 4), posOf s d.tenant with
  | some o, some p =>
    let t := tensorOf (memRead o.hdr 0 24)
    if namesFreed s d ∨ o.type ≠ 0x05 ∨ ¬ topkFieldsOk d o t p then complete s d stMalformed
    else if d.hostFault || !hostOpen s d.tenant then complete s d stHost
    else
      let qs := (List.range (dfield d 38 2)).map (fun i => f32s (hostRead s (dfield d 16 8 + i * stridesOf t.cols) (4 * t.cols)))
      if !qs.all (fun q => q.all isFinite) then complete s d stMalformed
      else
        let rg := keyRanges p t.rows (dfield d 40 8) (topkRows d t)
        match keyBad s o t (dfield d 40 8) (topkRows d t) with
        | some b => complete (logStackBad s d.tenant b) d stMemory
        | none =>
          finishQueries s { d with epoch := 0 } (qs.map (fun q =>
            answerOf p.digest 0 (dfield d 36 2) (massModeOf d) false false false (tempOf d) (rg.map (keyList p.digest (dfield d 36 2) t o.data q))))
  | _, _ => complete s d stMalformed

/-- TOPK_DOT (06 R181). -/
def execTopkDot (q : QId) (seq : Nat) (s : State) : Res :=
  onUnit s (wellFormed (.topkDot q seq)) <|
  match placedDesc s q seq 0x03 with
  | none => s
  | some d => runTopk s d

/-! ### RERANK (R143) -/

/-- One channel engine's part of a rerank: it reads the vectors that lie on it, drops those that fail the predicate, and returns its partial list. -/
def runRerank (s : State) (ch : Nat) (q : RerankReq) : State :=
  match idxRec s q.tenant q.index, findIndex s q.tenant q.index with
  | some r, some ix =>
    if flashWait s then s
    else
      let v := pvAt s q.tenant q.index q.partition q.epoch r ix noEdge
      let a : Ask := { q1 := q.query, nav := ⟨[], [], fZero⟩, k := q.depthK, beam := 0, depth := q.items.length, plies := 0, widenPlies := 0,
                       filter := noEdge, preds := q.preds }
      let ents := q.items.map (fun i =>
        ({ key := 0, score := fZero, slot := i.slot, ring := if i.side then some (i.vindex - v.d.slots) else none, userKey := i.userKey, version := i.version } : WEnt))
      let d := askerOf q.tenant 1 ch q.epoch
      let x := engineEv s d ix v q.partition a false (ownGuard s q.tenant v.h.vecObj) (ents.filter (fun e => vecChan r v.h (vecIndex v e) == ch))
      match x.2 with
      | .err _ => dropAsked x.1 d.q d.seq
      | .wait => s
      | .need l => let a := askAll s d q.index l; if a.2 then a.1 else dropAsked a.1 d.q d.seq
      | .ok cs => { (dropAsked x.1 d.q d.seq) with partials := s.partials ++ [⟨ch, q.tenant, q.index, q.partition, cs.map (fun c => (c.userKey, c.score, c.key, c.slot, c.eflags, c.version))⟩] }
  | _, _ => s

/-- RERANK at one channel engine (R143, R144). A candidate that lies on another channel is not this engine's. Where the vectors' guard set is REBUILDING the engine asks the other members, and the next RERANK of the engine finds their answers (10 R335). -/
def execRerank (ch : Nat) (req : RerankReq) (s : State) : Res :=
  onUnit s (wellFormed (.rerank ch req)) (runRerank s ch req)

end Sys2Proof.Machine
end

