-- ==== Sys2Proof/Machine/Update.lean ====
section
/-! DEFINITION. INSERT, DELETE, CONSOLIDATE, their commits and steps, before-images and their retirement (07 R185 to R213; 04 R122 to R127). -/

namespace Sys2Proof.Machine

open Sys2Proof

/-! ### Guarded writes (10 R332) -/

/-- A unit of a guarded object that a write has changed: unit and delta. -/
structure Delta where
  num : Nat
  unit : Nat
  delta : List Byte
  deriving DecidableEq, Repr

/-- Sends one delta to every holder that is not lost; answers the tags to wait for, and whether a path was missing. -/
def sendDelta (s : State) (q : QId) (seq t : Nat) (x : Delta) : State × List Nat × Bool :=
  match guardOf s t x.num, s.fab.group with
  | some (n, gs), some g =>
    if gs.st ≠ 2 then (s, [], false)
    else
      (guardHolders g gs.p x.unit).foldl (fun a h =>
        if bit g.lost.toNat h.1 then a
        else
          let stripe := (guardLocate g.gsize gs.p g.pos x.unit).1
          let body := toLE 4 stripe ++ (toLE 4 h.2.2.2 ++ x.delta)
          match sendMsg a.1 t (g.members.getD h.1 0) 5 0 h.2.2.1 n body (fun _ => .desc q seq) with
          | none => (a.1, a.2.1, true)
          | some r => (r.2, a.2.1 ++ [r.1], a.2.2)) (s, [], false)
  | _, _ => (s, [], false)

def sendDeltas (s : State) (q : QId) (seq t : Nat) (l : List Delta) : State × List Nat × Bool :=
  l.foldl (fun a x => let r := sendDelta a.1 q seq t x; (r.1, a.2.1 ++ r.2.1, a.2.2 || r.2.2)) (s, [], false)

/-- Completes a write now, or once every holder of parity has acknowledged (R332); a holder that cannot be reached gives FAULT_REMOTE. -/
def completeGuarded (s : State) (d : Desc) (l : List Delta) (status detail epoch nb : Nat) : State :=
  let r := sendDeltas s d.q d.seq d.tenant l
  if r.2.2 then completeWith r.1 d stRemote 0 0 0 0 []
  else if r.2.1.isEmpty then completeWith r.1 d status 0 detail epoch nb []
  else putDesc (commit r.1 d) { d with work := .remote r.2.1 0 status detail epoch nb }

/-- Whether writes of the object send deltas: a guard set of it is ON. -/
def guardedOn (s : State) (t num : Nat) : Bool := match guardOf s t num with | some g => g.2.st == 2 | none => false

/-- Units that bytes off to off + n − 1 touch. -/
def unitsTouched (off n : Nat) : List Nat := if n = 0 then [] else (List.range ((off + n - 1) / pageBytes - off / pageBytes + 1)).map (fun i => off / pageBytes + i)

/-- The deltas of a write of `bs` at `off`, from the bytes that stood there. -/
def deltasOf (num off : Nat) (old new : List Byte) : List Delta :=
  (unitsTouched off new.length).map (fun u =>
    let lo := u * pageBytes
    let m := cellsOf off (xorBytes old new)
    { num := num, unit := u, delta := memRead m lo pageBytes })

/-! ### A mutation in the making -/

structure Draft where
  s : State
  olds : List (Nat × Nat × Byte) := []
  need : Nat := 0                  -- bytes for the overlay ring
  fault : Option Nat := none
  badRead : Option (Nat × Nat × Nat) := none   -- the read that has met the fault: object, offset, length
  deltas : List Delta := []
  kept : List Retained := []
  deriving DecidableEq, Repr

/-- The pages that a write of a T3 object supersedes, and the units that held none (R192, 09 R267). -/
def supersededPages (s : State) (o : Obj) (epoch index part off n : Nat) : List Retained :=
  (unitsTouched off n).filterMap (fun u =>
    let p := unitPlace o u
    match luEntry s p.1 p.2 with
    | some (.page d page) => some { ch := p.1, lu := p.2, key := keyOf s p.1 d page, epoch := epoch, tenant := o.tenant, index := index, part := part }
    | none => some { ch := p.1, lu := p.2, key := noPage, epoch := epoch, tenant := o.tenant, index := index, part := part }
    | some .lost => none)

/-- Writes bytes of an object of the index, keeping the before-image. -/
def dput (x : Draft) (t index part epoch num off : Nat) (bs : List Byte) : Draft :=
  match findObj x.s t num with
  | none => x
  | some o =>
    if x.fault.isSome then x
    else
      let old := readObj x.s o off bs.length
      match old.2 with
      | .error st => { x with fault := some st, badRead := some (num, off, bs.length) }
      | .ok ob =>
        let w := writeObj old.1 o off bs
        match w.2 with
        | some st => { x with fault := some st }
        | none =>
          { x with
            s := w.1, olds := x.olds ++ (List.zip (List.range ob.length) ob).map (fun ib => (num, off + ib.1, ib.2)),
            need := if o.tier = 3 then x.need else x.need + bs.length,
            deltas := if guardedOn x.s t num then x.deltas ++ deltasOf num off ob bs else x.deltas,
            kept := if o.tier = 3 then x.kept ++ supersededPages x.s o epoch index part off bs.length else x.kept }

/-- What names a partition in a mutation. -/
structure Mut where
  t : Nat
  num : Nat
  part : Nat
  epoch : Nat
  r : IdxRec
  ix : Index
  deriving DecidableEq, Repr

def Mut.put (m : Mut) (x : Draft) (num off : Nat) (bs : List Byte) : Draft := dput x m.t m.num m.part m.epoch num off bs
def Mut.view (m : Mut) (s : State) : PV := pvAt s m.t m.num m.part epochNow m.r m.ix noEdge
def Mut.ua (m : Mut) (x : Draft) (o : Nat) (bs : List Byte) : Draft := m.put x m.num (uaOff m.r (m.view x.s).d + o) bs

/-- The mutation reads parts of the index in the stacks: a burst that fails its check ends it (08 R233). -/
def Mut.look (m : Mut) (x : Draft) (l : List (Nat × Nat × Nat)) : Draft :=
  if x.fault.isSome then x
  else
    match l.find? (fun r => match findObj x.s m.t r.1 with | some o => (stackBad x.s o r.2.1 r.2.2).isSome | none => false) with
    | some r => { x with fault := some stMemory, badRead := some r }
    | none => x

/-- Carries out again, on the state that a failed mutation leaves, the read that has met the fault: it is counted and logged. -/
def noteBad (s : State) (t : Nat) (r : Option (Nat × Nat × Nat)) : State :=
  match r with
  | none => s
  | some (num, off, n) => match findObj s t num with | some o => (readObj s o off n).1 | none => s

/-- The edges of slots, and their navigation records, as reads. -/
def edgeReads (v : PV) (l : List Nat) : List (Nat × Nat × Nat) := l.map (fun i => (v.num, edgeOff v.r v.d.section_ i, 6 * v.r.degree))
def recReads (v : PV) (l : List Nat) : List (Nat × Nat × Nat) := l.flatMap (neighbourReads v noEdge)

def headerGen (v : PV) (slot : Nat) : Nat := (v.nrec slot).gen

/-! ### Linking (R205) -/

/-- A stored code as a query (R115): the decoded values, or the code's bits. -/
def codeQuery (v : PV) (n : NavRec) : NavQuery :=
  if v.r.fmt = 1 then { bitsQ := v.codes n, vals := [], q2 := fZero } else navQuery v.r (decodeVec v.r (v.set n.set) (v.codes n))

/-- An entry to be linked: its slot, whether it takes a free slot, its query, its record, its vector record. -/
structure LinkEnt where
  slot : Nat
  fresh : Bool
  q : NavQuery
  nrec : NavRec
  vec : List Byte
  deriving DecidableEq, Repr

def edgeBytes (l : List (Nat × Nat)) : List Byte := l.flatMap (fun e => toLE 4 e.1 ++ toLE 2 e.2)

def wantTie (m : Mut) : Tie := ⟨(m.num + 1) * 2 ^ 32 + m.part, m.epoch⟩

def entFor (v : PV) (q : NavQuery) (slot : Nat) : WEnt :=
  let n := v.nrec slot
  let sc := v.score q n
  { key := scoreKey sc (navAsc v.r), score := sc, slot := slot, userKey := n.userKey }

/-- The linking walk, and its live beam entries. -/
def linkWalk (m : Mut) (v : PV) (beam plies : Nat) (e : LinkEnt) : Walk := walkFrom (wantTie m) v e.q beam plies noEdge {}
def linkCands (v : PV) (w : Walk) : List WEnt := w.beam.filter (fun x => v.liveSlot x.slot)

/-- Adds the edge to slot s at one neighbour: into its first empty edge, or in place of its worst where s scores better. -/
def linkBack (m : Mut) (x : Draft) (nb s gen : Nat) : Draft :=
  let v := m.view x.s
  let es := v.edges nb
  let put (l : List (Nat × Nat)) : Draft := m.put x m.num (edgeOff v.r v.d.section_ nb) (edgeBytes l)
  match es.findIdx? (fun e => e.1 == noEdge) with
  | some i => put (es.set i (s, gen))
  | none =>
    let x := m.look x (recReads v ((es.map Prod.fst).filter (fun i => decide (i < v.d.slots))))
    let q := codeQuery v (v.nrec nb)
    let scored := (List.zip (List.range es.length) es).map (fun ie => (ie.1, entFor v q ie.2.1))
    let worst := scored.foldl (fun (a : Option (Nat × WEnt)) b =>
      match a with
      | none => some b
      | some y => if wLe (wantTie m) y.2 b.2 then some b else a) none
    match worst with
    | none => x
    | some w => if (entFor v q s).key < w.2.key then put (es.set w.1 (s, gen)) else x

/-- The partition's graph holds a live slot (R200): a record of the side list that is not folded is no part of it (DEDUCED, log entry 83). -/
def anyLive (v : PV) : Bool := (List.range v.d.slots).any (fun i => let n := v.nrec i; n.live && !n.tomb && !v.delBit i)

/-- Links one entry of a batch; `earlier` are the batch's entries before it. -/
def linkOne (m : Mut) (x : Draft) (cands : List WEnt) (earlier : List LinkEnt) (e : LinkEnt) : Draft :=
  let had := anyLive (m.view x.s)
  let v0 := m.view x.s
  let x1 := m.put x v0.h.vecObj (vecOff m.r e.slot) e.vec
  let x2 := m.put x1 v0.h.navObj (e.slot * m.r.lnav) (navBytes m.r e.nrec)
  let x3 := m.put x2 m.num (verOff m.r v0.d + 8 * e.slot) (toLE 8 m.epoch)
  if !e.fresh then x3
  else
    let v := m.view x3.s
    let old := cands.filter (fun c => !earlier.any (fun f => f.slot == c.slot))
    let all := old ++ earlier.map (fun f => entFor v e.q f.slot)
    let nbr := (sortBy (wLe (wantTie m)) all).take m.r.degree
    let es := nbr.map (fun c => (c.slot, headerGen v c.slot))
    let x4 := m.put x3 m.num (edgeOff m.r v.d.section_ e.slot) (edgeBytes (es ++ List.replicate (m.r.degree - es.length) (noEdge, 0)))
    let x5 := nbr.foldl (fun a c => linkBack m a c.slot e.slot e.nrec.gen) x4
    if had then x5 else m.put x5 m.num (v.d.section_ + 8) (toLE 4 e.slot ++ toLE 2 e.nrec.gen)

/-- Links a batch: every walk reads the partition as it stood before the batch. -/
def linkBatch (m : Mut) (x : Draft) (beam plies : Nat) (es : List LinkEnt) : Draft :=
  let v := m.view x.s
  let walks := es.map (linkWalk m v beam plies)
  let x1 := m.look x (walks.flatMap (fun w => w.reads))
  (List.zip (List.range es.length) (List.zip es (walks.map (linkCands v)))).foldl (fun a iec =>
    linkOne m a iec.2.2 (es.take iec.1) iec.2.1) x1

/-! ### Acceptance (R147, R196, R202, R215, R219) -/

/-- The checks that INSERT, DELETE and CONSOLIDATE share: a refusal status, or the record. Of a request that fails several, the spec does not order those of 0x13 against those of the input entries: these come first (DESIGN CHOICE, log entry 79). -/
def mutAccept (s : State) (d : Desc) (num part : Nat) (fieldsOk : IdxRec → DirEntry → Bool) : Except Nat (IdxRec × Index) :=
  match idxRec s d.tenant num, findIndex s d.tenant num, findObj s d.tenant num with
  | some r, some ix, some o =>
    if namesFreed s d || decide (r.parts ≤ part) then .error stMalformed
    else
      let e := dirAt r o.data part
      let h := hdrAt o.data e.section_
      if !fieldsOk r e then .error stMalformed
      else if !isOwn s e.owner || e.scatter then .error stMalformed
      else if ix.journal.isNone then .error stNoRes
      else if !(updAt r o.data e).ok then .error stNoRes
      else if !r.tomb && !bitsFit s d.tenant r.delObj (h.bmOff + e.slots) then .error stNoRes
      else .ok (r, ix)
  | _, _, _ => .error stMalformed

def statOff (count : Nat) : Nat := roundUp (32 + 8 * count) 64

def insFieldsOk (d : Desc) (r : IdxRec) : Bool :=
  let f := dfield d
  let need := if r.fmt = 1 then 32 + 8 * f 38 2 else statOff (f 38 2) + 24 * r.groups
  decide (f 16 8 % 64 = 0) && decide (f 24 8 % 64 = 0) && decide (1 ≤ f 38 2 ∧ f 38 2 ≤ 4096) && decide (need ≤ f 44 4)
    && (if r.tomb then decide (1 ≤ f 40 1 ∧ f 40 1 ≤ 128) && decide (1 ≤ f 42 2 ∧ f 42 2 ≤ 4096) else f 40 1 == 0 && f 42 2 == 0)

/-- One input entry (R201); none where R8, R104, R111 or R173 refuses it. -/
def insEntryOf (r : IdxRec) (b : List Byte) : Option InsEntry :=
  let x := f32s ((b.drop 16).take (4 * r.dim))
  if fieldAt b 0 8 = 0xFFFFFFFFFFFFFFFF ∨ fieldAt b 12 4 ≠ 0 ∨ ¬ x.all isFinite then none
  else
    (prep1 r.metric x).map (fun v =>
      { userKey := fieldAt b 0 8, target := if fieldAt b 8 4 = noEdge then none else some (fieldAt b 8 4), vec := v,
        attrs := (b.drop (16 + 4 * r.dim)).take r.attr })

/-- Accepts an INSERT: its entries are read and wait for the commit. -/
def runInsert (s : State) (d : Desc) : State :=
  match mutAccept s d (dfield d 32 4) (dfield d 36 2) (fun r _ => insFieldsOk d r) with
  | .error st => complete s d st
  | .ok (r, _) =>
    if d.hostFault || !hostOpen s d.tenant then complete s d stHost
    else
      let n := dfield d 38 2
      let body := hostRead s (dfield d 16 8) (n * r.entrySize)
      let es := (List.range n).filterMap (fun i => insEntryOf r ((body.drop (i * r.entrySize)).take r.entrySize))
      if es.length ≠ n then complete s d stMalformed else putDesc s { d with work := .insert es }

/-- INSERT (R201, R202). -/
def execInsert (q : QId) (seq : Nat) (s : State) : Res :=
  onUnit s (wellFormed (.insert q seq)) <|
  match placedDesc s q seq 0x08 with
  | some d => if d.work = .none then runInsert s d else s
  | none => s

def delFieldsOk (d : Desc) : Bool :=
  let f := dfield d
  decide (f 24 8 % 64 = 0) && decide (1 ≤ f 40 4 ∧ f 40 4 ≤ 65536) && decide (32 ≤ f 44 4)

def runDelete (s : State) (d : Desc) : State :=
  match mutAccept s d (dfield d 32 4) (dfield d 36 2) (fun _ _ => delFieldsOk d) with
  | .error st => complete s d st
  | .ok _ =>
    if d.hostFault || !hostOpen s d.tenant then complete s d stHost
    else
      let n := dfield d 40 4
      let body := hostRead s (dfield d 16 8) (8 * n)
      if (List.range n).any (fun i => fieldAt body (8 * i + 6) 2 != 0) then complete s d stMalformed
      else putDesc s { d with work := .delete ((List.range n).map (fun i => (fieldAt body (8 * i) 4, fieldAt body (8 * i + 4) 2))) }

/-- DELETE (R206). -/
def execDelete (q : QId) (seq : Nat) (s : State) : Res :=
  onUnit s (wellFormed (.delete q seq)) <|
  match placedDesc s q seq 0x09 with
  | some d => if d.work = .none then runDelete s d else s
  | none => s

/-- The repair range of a CONSOLIDATE. -/
def consEnd (d : Desc) (slots : Nat) : Nat := if dfield d 36 4 = 0 then slots else dfield d 32 4 + dfield d 36 4

def consFieldsOk (d : Desc) (e : DirEntry) : Bool :=
  let f := dfield d
  decide (1 ≤ f 30 2 ∧ f 30 2 ≤ 4096) && decide (1 ≤ f 40 1 ∧ f 40 1 ≤ 128) && decide (1 ≤ f 42 2 ∧ f 42 2 ≤ 4096) && decide (32 ≤ f 44 4)
    && decide (f 32 4 ≤ e.slots) && decide (consEnd d e.slots ≤ e.slots)

/-- CONSOLIDATE (R209): the acceptance checks; its steps follow. -/
def execConsolidate (q : QId) (seq : Nat) (s : State) : Res :=
  onUnit s (wellFormed (.consolidate q seq)) <|
  match placedDesc s q seq 0x0A with
  | some d =>
    if d.work ≠ .none then s
    else
      match mutAccept s d (dfield d 24 4) (dfield d 28 2) (fun _ e => consFieldsOk d e) with
      | .error st => complete s d st
      | .ok _ => putDesc s { d with work := .consolidate none none 0 0 0 0 0 0 }
  | none => s

/-! ### Epochs (R184, R185) -/

/-- Objects that a mutation of a partition may write (07 R191): the index, its bitmap, the partition's codes and vectors. -/
def mutatedObjs (s : State) (t num part : Nat) : List Nat :=
  match idxRec s t num, findObj s t num with
  | some r, some o =>
    let e := dirAt r o.data part
    let h := hdrAt o.data e.section_
    num :: ((if r.tomb then [] else [r.delObj]) ++ (if e.section_ = 0 then [] else [h.navObj, h.vecObj]))
  | _, _ => [num]

/-- A MOVE, accepted earlier, of an object that the mutation may write has not switched (08 R228). -/
def moveHeld (s : State) (d : Desc) (num part : Nat) : Bool :=
  s.ms.jobs.any (fun j => j.tenant == d.tenant && j.dest.isSome && (mutatedObjs s d.tenant num part).contains j.num
    && (match findDesc s j.q j.seq with | some f => decide (f.n < d.n) | none => false))

/-- The epoch that the next commit of the index takes in this move; none: a 257th commit waits, and node 255 takes none. -/
def nextEpoch (s : State) (ix : Index) : Option Nat :=
  let n := if ix.commitMove = moveOf s then ix.commitCount else 0
  if n < 256 ∧ s.fab.node ≠ 255 then some (moveOf s * 65536 + s.fab.node * 256 + n) else none

def takeEpoch (s : State) (ix : Index) : Index :=
  { ix with commitMove := moveOf s, commitCount := (if ix.commitMove = moveOf s then ix.commitCount else 0) + 1 }

/-- Bytes of the overlay ring that a partition's before-images hold: those of its stack-resident objects. -/
def ovlUsed (s : State) (t : Nat) (ix : Index) (part : Nat) : Nat :=
  ((ix.images.filter (fun i => i.part == part)).map (fun i =>
    (i.old.filter (fun x => match findObj s t x.1 with | some o => o.tier != 3 | none => false)).length)).sum

/-- Whether a drafted mutation may take its epoch now (R194). -/
inductive Fit where
  | fits | waits | never
  deriving DecidableEq, Repr

def fitOf (s : State) (m : Mut) (x : Draft) : Fit :=
  let cap := (m.view s).u.ovlBytes
  if cap < x.need then .never
  else if cap < ovlUsed s m.t m.ix m.part + x.need then .waits
  else .fits

/-- Puts a drafted mutation into effect: before-images, retained pages, the partition counts as mutated. -/
def land (m : Mut) (x : Draft) : State :=
  let ix := takeEpoch x.s m.ix
  let ix1 := { ix with images := ix.images ++ [⟨m.epoch, m.part, x.olds⟩], mutated := if ix.mutated.contains m.part then ix.mutated else ix.mutated ++ [m.part] }
  let s1 := putIndex x.s ix1
  { s1 with fl := { s1.fl with retained := s1.fl.retained ++ x.kept } }

/-- The scale-set table's entry 0, written at the partition's first mutation (R197). -/
def setEntry (set : ScaleSet) : List Byte := (List.zip set.s set.u).flatMap (fun x => toLE 2 x.1.toNat ++ toLE 2 x.2.toNat)

def putSet (m : Mut) (x : Draft) (k : Nat) (set : ScaleSet) : Draft :=
  let v := m.view x.s
  m.put x m.num (setOff m.r v.d v.u + k * 4 * m.r.groups) (setEntry set)

def firstSet (m : Mut) (x : Draft) : Draft :=
  if m.r.fmt = 1 ∨ m.ix.mutated.contains m.part then x else putSet m x 0 (set0 m.r)

/-- FREE_SLOTS and APPLIED after a mutation (R195). -/
def closeMut (m : Mut) (x : Draft) : Draft :=
  let n := ((m.view x.s).freeSlots).length
  m.ua (m.ua x 48 (toLE 4 n)) 40 (toLE 8 m.epoch)

/-! ### Commit of an INSERT (R202 to R205; 04 R122 to R127) -/

/-- The partition's current scale set, read from the table once a mutation has written it. -/
def curSet (m : Mut) (v : PV) : ScaleSet :=
  if m.r.fmt = 1 then ⟨[], []⟩ else if v.u.setCur = 0 then set0 m.r else setAt m.r v.g (setOff m.r v.d v.u) v.u.setCur

/-- Slots of the entries: named ones, or free slots in input order, lowest first. -/
def giveSlots : List InsEntry → List Nat → List Nat
  | [], _ => []
  | e :: r, free =>
    match e.target, free with
    | some s, f => s :: giveSlots r f
    | none, f :: fs => f :: giveSlots r fs
    | none, [] => 0 :: giveSlots r []

/-- The checks at the insert's epoch. -/
def insEpochBad (v : PV) (es : List InsEntry) : Option Nat :=
  let tg := es.filterMap (fun e => e.target)
  if decide (tg.dedup.length ≠ tg.length) || tg.any (fun s => decide (v.d.slots ≤ s) || !v.liveSlot s) then some stMalformed
  else if v.freeSlots.length < es.length - tg.length then some stNoRes
  else if !v.r.tomb && decide (v.u.sideCap < v.u.tail - v.u.head + es.length) then some stNoRes
  else none

/-- One group's next scale; where SSX is NaN the rule states no value, and a free one stands. -/
def nextScales (r : IdxRec) (seed : Nat) (set : ScaleSet) (st : List GroupStat) (held : Bool) : List (BitVec 16 × Bool) :=
  (List.zip (List.range st.length) st).map (fun ig => nextScale r (Config.freeScale (seed + ig.1)) (set.s.getD ig.1 0) ig.2 held)

structure InsPlan where
  slots : List Nat
  gens : List Nat
  used : Nat
  next : Nat
  stats : List GroupStat
  nexts : List (BitVec 16 × Bool)
  held : Bool
  set : ScaleSet
  ents : List LinkEnt
  deriving DecidableEq, Repr

def insPlan (s : State) (m : Mut) (es : List InsEntry) : InsPlan :=
  let v := m.view s
  let slots := giveSlots es v.freeSlots
  let set := curSet m v
  let ys := es.map (fun e => prep2 m.r false e.vec)
  let stats := if m.r.fmt = 1 then [] else batchStats m.r set ys
  let held := v.u.setCur == 65535
  let nexts := nextScales m.r s.freeCtr set stats held
  let adapt := m.r.fmt != 1 && m.r.adapt && !held
  let mk := fun (x : InsEntry × List F32 × Nat) =>
    let codes := encodeVec m.r set x.2.1
    let n := v.nrec x.2.2
    let rec_ : NavRec := { userKey := x.1.userKey, gen := n.gen, set := if m.r.fmt = 1 then 0 else v.u.setCur, live := true, tomb := false,
                           code := packCodes m.r.fmt codes, nx := if m.r.hasNorm then codeNorm m.r set codes else fZero }
    let bytes := f32Bytes x.1.vec ++ x.1.attrs
    { slot := x.2.2, fresh := x.1.target.isNone, q := navQuery m.r x.2.1, nrec := rec_, vec := bytes ++ zeros (m.r.vr - bytes.length) : LinkEnt }
  { slots := slots, gens := slots.map (headerGen v), used := v.u.setCur, next := if adapt then v.u.setCur + 1 else v.u.setCur, stats := stats,
    nexts := nexts, held := held, set := set, ents := (List.zip es (List.zip ys slots)).map mk }

/-- Appends one side-list record and the vector of its ring slot (R204, R198). -/
def appendSide (m : Mut) (x : Draft) (r : SideRec) (vec : Option (List Byte)) : Draft :=
  let v := m.view x.s
  let ring := v.u.tail % max 1 v.u.sideCap
  let x1 := m.put x m.num (sideOff m.r v.d + m.r.lside * ring) (sideBytes m.r r)
  let x2 := match vec with | some b => m.put x1 v.h.vecObj (vecOff m.r (v.d.slots + ring)) b | none => x1
  m.ua x2 24 (toLE 8 (v.u.tail + 1))

/-- The bytes of the scale set that a batch makes, and of SET_CUR, with their offsets in the index; none where it makes no set. -/
def newSet (m : Mut) (v : PV) (p : InsPlan) : List (Nat × List Byte) :=
  if p.next = p.used then []
  else [(setOff m.r v.d v.u + p.next * 4 * m.r.groups, setEntry ⟨p.nexts.map Prod.fst, (p.nexts.map Prod.fst).map decodeFactor⟩),
        (uaOff m.r v.d + 52, toLE 2 p.next)]

def draftInsert (s : State) (m : Mut) (beam plies : Nat) (p : InsPlan) : Draft :=
  let x0 := firstSet m (m.look { s := s } (recReads (m.view s) p.slots))
  let x1 :=
    if m.r.tomb then linkBatch m x0 beam plies p.ents
    else p.ents.foldl (fun a e => appendSide m a ⟨m.epoch, notFolded, e.slot, false, e.nrec⟩ (some e.vec)) x0
  closeMut m x1

/-- The result of an INSERT (R203, R123). -/
def insResult (m : Mut) (p : InsPlan) : List Byte :=
  let a := toLE 8 m.epoch ++ (toLE 4 p.slots.length ++ (toLE 2 p.used ++ (toLE 2 p.next ++ (zeros 16
    ++ (List.zip p.slots p.gens).flatMap (fun x => toLE 4 x.1 ++ (toLE 2 x.2 ++ zeros 2))))))
  if m.r.fmt = 1 then a
  else a ++ (zeros (statOff p.slots.length - a.length)
    ++ (List.zip (List.range p.stats.length) (List.zip p.stats p.nexts)).flatMap (fun x =>
        statBytes x.2.1 (p.set.s.getD x.1 0) x.2.2.1 p.held x.2.2.2))

def mutOf (s : State) (t num part : Nat) : Option Mut :=
  match idxRec s t num, findIndex s t num with
  | some r, some ix => (nextEpoch s ix).map (fun e => ⟨t, num, part, e, r, ix⟩)
  | _, _ => none

/-- A mutation refused at its epoch: the epoch is taken and never used again (R190), and the record waits for its move (R188). -/
def refuseAtEpoch (s : State) (m : Mut) (d : Desc) (st : Nat) : State :=
  completeWith (putIndex s (takeEpoch s m.ix)) d st 0 0 0 (recMove (some m.epoch)) []

/-- Ends a drafted mutation: refused, waiting, faulted, or in effect. Its result and its new scale set follow with DONE, once every holder of parity has acknowledged its deltas (10 R332). -/
def settleMut (s : State) (m : Mut) (d : Desc) (x : Draft) (result : List Byte) (adopt : List (Nat × List Byte)) : State :=
  match fitOf s m { x with need := x.need + (adopt.map (fun w => w.2.length)).sum } with
  | .never => complete s d stNoRes
  | .waits => s
  | .fits =>
    match x.fault with
    | some st => refuseAtEpoch (noteBad s m.t x.badRead) m d st
    | none =>
      let r := sendDeltas (land m x) d.q d.seq d.tenant x.deltas
      if r.2.2 then completeWith r.1 d stRemote 0 0 0 (recMove (some m.epoch)) []
      else if r.2.1.isEmpty then mutationDone r.1 d m.epoch m.num m.part result adopt
      else putDesc (commit r.1 d) { d with work := .mutated r.2.1 0 m.epoch m.num m.part result adopt }

/-- An INSERT of the partition, in effect, has not yet made its scale set: the next batch waits for it (04 R127). -/
def setPending (s : State) (t num part : Nat) : Bool :=
  s.qe.descs.any (fun x => x.tenant == t && descOp x == 0x08 && (match x.work with | .mutated _ _ _ n p _ _ => n == num && p == part | _ => false))

def commitInsert (s : State) (d : Desc) (es : List InsEntry) : State :=
  match mutOf s d.tenant (dfield d 32 4) (dfield d 36 2) with
  | none => s
  | some m =>
    if flashWait s || moveHeld s d m.num m.part || setPending s m.t m.num m.part then s
    else if d.hostFault then complete s d stHost
    else
      match insEpochBad (m.view s) es with
      | some st => refuseAtEpoch s m d st
      | none =>
        let p := insPlan s m es
        let s0 := { s with freeCtr := s.freeCtr + p.stats.length }
        settleMut s0 m d (draftInsert s0 m (dfield d 40 1) (dfield d 42 2) p) (insResult m p) (newSet m (m.view s0) p)

/-! ### Commit of a DELETE (R207) -/

/-- The entries that are not skipped, in input order. -/
def delTargets (v : PV) (es : List (Nat × Nat)) : List (Nat × Nat) :=
  es.foldl (fun a e =>
    if v.d.slots ≤ e.1 ∨ a.any (fun x => x.1 == e.1) ∨ ¬ v.liveSlot e.1 ∨ headerGen v e.1 ≠ e.2 then a else a ++ [e]) []

def setBit (b : Byte) (i : Nat) (on : Bool) : Byte :=
  if on then BitVec.ofNat 8 (b.toNat ||| 2 ^ i) else BitVec.ofNat 8 (b.toNat - (if bit b.toNat i then 2 ^ i else 0))

/-- Sets or clears a slot's deletion bit. -/
def putDelBit (m : Mut) (x : Draft) (slot : Nat) (on : Bool) : Draft :=
  let v := m.view x.s
  let k := v.h.bmOff + slot
  m.put x m.r.delObj (k / 8) [setBit (memGet v.del (k / 8)) (k % 8) on]

def deleteOne (m : Mut) (x : Draft) (e : Nat × Nat) : Draft :=
  let v := m.view x.s
  let n := v.nrec e.1
  if m.r.tomb then
    m.put (m.put x v.h.navObj (e.1 * m.r.lnav + 12) (toLE 1 (b2n n.live + 2))) m.num (verOff m.r v.d + 8 * e.1) (toLE 8 m.epoch)
  else
    let x1 := appendSide m x ⟨m.epoch, notFolded, e.1, true, ⟨0, e.2, 0, false, false, zeros m.r.codeLen, fZero⟩⟩ none
    if n.live then putDelBit m x1 e.1 true else x1

def commitDelete (s : State) (d : Desc) (es : List (Nat × Nat)) : State :=
  match mutOf s d.tenant (dfield d 32 4) (dfield d 36 2) with
  | none => s
  | some m =>
    let v := m.view s
    let tg := delTargets v es
    if moveHeld s d m.num m.part then s
    else if d.hostFault then complete s d stHost
    else if !m.r.tomb && decide (v.u.sideCap < v.u.tail - v.u.head + tg.length) then refuseAtEpoch s m d stNoRes
    else
      let x0 := m.look { s := s } (recReads v ((es.map Prod.fst).filter (fun i => decide (i < v.d.slots))))
      let x := closeMut m (tg.foldl (deleteOne m) (firstSet m x0))
      settleMut s m d x (toLE 8 m.epoch ++ (toLE 4 tg.length ++ (toLE 4 (es.length - tg.length) ++ zeros 16))) []

/-- MUTATION_COMMIT (R185): an INSERT or a DELETE takes its epoch and is applied in full, or refused. -/
def execMutationCommit (q : QId) (seq : Nat) (s : State) : Res :=
  onUnit s (wellFormed (.mutationCommit q seq)) <|
  match placedDesc s q seq 0x08, placedDesc s q seq 0x09 with
  | some d, _ => match d.work with | .insert es => commitInsert s d es | _ => s
  | none, some d => match d.work with | .delete es => commitDelete s d es | _ => s
  | none, none => s

/-! ### Consolidation (R199, R209 to R212) -/

/-- Frees a slot (R199); an ENTRY that is freed first becomes the lowest other live slot (R210). -/
def freeOne (m : Mut) (x : Draft) (slot : Nat) : Draft :=
  let v := m.view x.s
  let x0 :=
    if v.h.entry ≠ slot then x
    else
      match (List.range v.d.slots).find? (fun i => i != slot && v.liveSlot i) with
      | some i => m.put x m.num (v.d.section_ + 8) (toLE 4 i ++ toLE 2 (headerGen v i))
      | none => x
  let x1 := m.put x0 v.h.navObj (slot * m.r.lnav + 8) (toLE 2 ((headerGen v slot + 1) % 65536))
  let x2 := m.put x1 v.h.navObj (slot * m.r.lnav + 12) [0]
  let x3 := m.put x2 m.num (edgeOff m.r v.d.section_ slot) (edgeBytes (List.replicate m.r.degree (noEdge, 0)))
  let x4 := m.put x3 m.num (verOff m.r v.d + 8 * slot) (toLE 8 m.epoch)
  if m.r.tomb then x4 else putDelBit m x4 slot false

/-- Folds one side-list record (R210 phase 1); answers the slots freed. -/
def foldOne (m : Mut) (beam plies : Nat) (x : Draft) (pos : Nat) : Draft × Nat :=
  let v := m.view x.s
  let sd := sideAt m.r v.g v.d v.u pos
  let ring := pos % max 1 v.u.sideCap
  let x1 := m.put x m.num (sideOff m.r v.d + m.r.lside * ring + 8) (toLE 8 m.epoch)
  let main := v.nrec sd.slot
  if sd.del then (if main.live then (freeOne m x1 sd.slot, 1) else (x1, 0))
  else
    match (findObj x1.s m.t v.h.vecObj).map (fun o => readObj x1.s o (vecOff m.r (v.d.slots + ring)) m.r.vr) with
    | some (_, .ok b) =>
      let q := navQuery m.r (prep2 m.r false (f32s (b.take (4 * m.r.dim))))
      let e : LinkEnt := { slot := sd.slot, fresh := !main.live, q := q, nrec := sd.nav, vec := b }
      let x2 := linkBatch m x1 beam plies [e]
      (x2, 0)
    | some (_, .error st) => ({ x1 with fault := some st, badRead := some (v.h.vecObj, vecOff m.r (v.d.slots + ring), m.r.vr) }, 0)
    | none => (x1, 0)

/-- An edge whose target is not live, or whose generation differs (R210 phase 2). -/
def edgeGone (v : PV) (e : Nat × Nat) : Bool :=
  e.1 != noEdge && (decide (v.d.slots ≤ e.1) || !v.liveSlot e.1 || headerGen v e.1 != e.2)

/-- Repairs one slot's edges; answers how many were removed. -/
def repairOne (m : Mut) (x : Draft) (slot : Nat) : Draft × Nat :=
  let v := m.view x.s
  let es := v.edges slot
  let ends := (es.map Prod.fst).filter (fun i => decide (i < v.d.slots))
  let x := m.look x (edgeReads v (slot :: ends) ++ recReads v (slot :: ends))
  let gone := es.filter (edgeGone v)
  let kept := es.filter (fun e => e.1 != noEdge && !edgeGone v e)
  let pool := (gone.filter (fun e => decide (e.1 < v.d.slots))).flatMap (fun e => (v.edges e.1).map Prod.fst)
  let ok := (pool.filter (fun a => a != noEdge && decide (a < v.d.slots) && v.liveSlot a && !kept.any (fun k => k.1 == a))).dedup
  let q := codeQuery v (v.nrec slot)
  let best := sortBy (wLe (wantTie m)) (ok.map (entFor v q))
  let fill := es.foldl (fun (a : List (Nat × Nat) × List WEnt) e =>
    if e.1 = noEdge ∨ edgeGone v e then
      match a.2 with
      | b :: r => (a.1 ++ [(b.slot, headerGen v b.slot)], r)
      | [] => (a.1 ++ [(noEdge, 0)], [])
    else (a.1 ++ [e], a.2)) ([], best)
  (m.put x m.num (edgeOff m.r v.d.section_ slot) (edgeBytes fill.1), gone.length)

/-- The units of work of a phase that are left: side-list positions, slots to repair, slots to free. -/
def consWork (v : PV) (first : Option Nat) (phase cursor stop : Nat) : List Nat :=
  match phase with
  | 0 =>
    if v.r.tomb then []
    else (v.sides.filter (fun x => x.2.folded == notFolded && decide (cursor ≤ x.1)
      && (match first with | some f => decide (x.2.version < f) | none => true))).map Prod.fst
  | 1 => ((List.range stop).drop cursor).filter (fun i => (v.edges i).any (edgeGone v))
  | 2 => if v.r.tomb then ((List.range stop).drop cursor).filter (fun i => (v.nrec i).tomb) else []
  | _ => []

/-- The first phase with work left, and that work. -/
def consNext (v : PV) (first : Option Nat) (from_ stop : Nat) : Nat → Nat → Nat → Nat × List Nat
  | 0, phase, _ => (phase, [])
  | n + 1, phase, cursor =>
    let w := consWork v first phase cursor stop
    if phase < 3 ∧ w.isEmpty then consNext v first from_ stop n (phase + 1) from_ else (phase, w)

/-- Another CONSOLIDATE of the partition comes first (R209). -/
def consHeld (s : State) (d : Desc) : Bool :=
  s.qe.descs.any (fun x => x.n != d.n && x.tenant == d.tenant && descOp x == 0x0A && dfield x 24 4 == dfield d 24 4 && dfield x 28 2 == dfield d 28 2
    && (match x.work with | .consolidate f _ _ _ _ _ _ _ => f.isSome || decide (x.n < d.n) | .remote _ _ _ _ _ _ => true | _ => false))

/-- Deltas of a descriptor's steps that no holder has acknowledged yet (10 R332). -/
def openDeltas (s : State) (d : Desc) : List Nat :=
  (s.fab.reqs.filter (fun r => r.src == .desc d.q d.seq)).map (fun r => r.tag)

/-- The last step has taken effect: commit, result, completion once every delta is acknowledged. -/
def consDone (s : State) (d : Desc) (first last : Option Nat) (steps folded repaired freed : Nat) : State :=
  let s1 := hostWrite s d.tenant (dfield d 16 8) (consResult first last steps folded repaired freed)
  if (openDeltas s1 d).isEmpty then completeWith s1 d stDone 0 0 (last.getD 0) (recMove last) []
  else putDesc (commit s1 d) { d with work := .remote (openDeltas s1 d) 0 stDone 0 (last.getD 0) (recMove last) }

/-- A step that cannot be taken ends the consolidation; the steps before it stay in effect. -/
def consFail (s : State) (d : Desc) (last : Option Nat) (st : Nat) : State := completeWith s d st 0 0 (last.getD 0) (recMove last) []

/-- Takes one step, or completes when no work is left. -/
def consStep (s : State) (d : Desc) (first last : Option Nat) (steps folded repaired freed phase cursor : Nat) : State :=
  match mutOf s d.tenant (dfield d 24 4) (dfield d 28 2) with
  | none => s
  | some m =>
    let v := m.view s
    let stop := consEnd d v.d.slots
    let nx := consNext v first (dfield d 32 4) stop 4 phase cursor
    let todo := nx.2.take (dfield d 30 2)
    if todo.isEmpty then consDone s d first last steps folded repaired freed
    else if flashWait s || moveHeld s d m.num m.part then s
    else
      let x0 := firstSet m { s := s }
      let y : Draft × Nat := todo.foldl (fun a i =>
        match nx.1 with
        | 0 => let r := foldOne m (dfield d 40 1) (dfield d 42 2) a.1 i; (r.1, a.2 + r.2)
        | 1 => let r := repairOne m a.1 i; (r.1, a.2 + r.2)
        | _ => (freeOne m a.1 i, a.2 + 1)) (x0, 0)
      let x := closeMut m y.1
      match fitOf s m x, x.fault with
      | .never, _ => consFail s d last stNoRes
      | .waits, _ => s
      | .fits, some st => completeWith (putIndex (noteBad s m.t x.badRead) (takeEpoch s m.ix)) d st 0 0 (last.getD 0) (recMove (some m.epoch)) []
      | .fits, none =>
        let folded' := if nx.1 = 0 then folded + todo.length else folded
        let repaired' := if nx.1 = 1 then repaired + y.2 else repaired
        let freed' := if nx.1 = 1 then freed else freed + y.2
        let sd := sendDeltas (land m x) d.q d.seq d.tenant x.deltas
        let s1 := sd.1
        let first' := some (first.getD m.epoch)
        let cur := todo.getLast?.getD 0 + 1
        let v1 := m.view s1
        if sd.2.2 then consFail s1 d (some m.epoch) stRemote
        else if (consNext v1 first' (dfield d 32 4) stop 4 nx.1 cur).2.isEmpty then consDone s1 d first' (some m.epoch) (steps + 1) folded' repaired' freed'
        else putDesc s1 { d with work := .consolidate first' (some m.epoch) (steps + 1) folded' repaired' freed' nx.1 cur }

/-- CONSOLIDATION_STEP (R210): one step of a consolidation that is not held behind another. -/
def execConsolidationStep (q : QId) (seq : Nat) (s : State) : Res :=
  onUnit s (wellFormed (.consolidationStep q seq)) <|
  match placedDesc s q seq 0x0A with
  | some d =>
    match d.work with
    | .consolidate f l st fo re fr ph cu => if consHeld s d then s else consStep s d f l st fo re fr ph cu
    | _ => s
  | none => s

/-! ### The horizon (R192, R193, R211) -/

/-- SIDE_HEAD passes a contiguous run of folded records whose FOLDED epoch has passed the horizon. -/
def passHead (v : PV) (move : Nat) : Nat → Nat → Nat
  | 0, h => h
  | n + 1, h =>
    if h < v.u.tail then
      let x := sideAt v.r v.g v.d v.u h
      if x.folded ≠ notFolded ∧ x.folded / 65536 + 4096 ≤ move then passHead v move n (h + 1) else h
    else h

/-- The partition number under which the before-images of the router table and the directory are kept. -/
def dirPart : Nat := 2 ^ 32

/-- BEFORE_IMAGE_RETIRE: drops the before-images and retained pages of a partition whose horizon has come, raises FLOOR, advances SIDE_HEAD. -/
def retireImages (s : State) (t num part : Nat) : State :=
  match findIndex s t num, idxRec s t num, findObj s t num with
  | some ix, some r, some o =>
    let due := fun (e : Nat) => decide (e / 65536 + 4096 ≤ moveOf s)
    let gone := ix.images.filter (fun i => i.part == part && due i.epoch)
    let d := dirAt r o.data part
    let u := updAt r o.data d
    let fl := gone.foldl (fun a i => max a i.epoch) u.floor
    let s1 := putIndex s { ix with images := ix.images.filter (fun i => !((i.part == part || i.part == dirPart) && due i.epoch)) }
    let s2 := { s1 with fl := { s1.fl with retained := s1.fl.retained.filter (fun k => !(k.tenant == t && k.index == num && k.part == part && due k.epoch)) } }
    let v := pvAt s2 t num part epochNow r ix noEdge
    let head := passHead v (moveOf s) (u.tail - u.head) u.head
    let d1 := if fl = u.floor then o.data else memWrite o.data (uaOff r d + 32) (toLE 8 fl)
    let d2 := if head = u.head then d1 else memWrite d1 (uaOff r d + 16) (toLE 8 head)
    mendBursts (putObj s2 { o with data := d2 }) o (uaOff r d) (if fl = u.floor ∧ head = u.head then 0 else 64)
  | _, _, _ => s

def execBeforeImageRetire (t index part : Nat) (s : State) : Res := onUnit s (wellFormed (.beforeImageRetire t index part)) (retireImages s t index part)

/-! ### Journalled writes (R216, R217) -/

/-- Puts due journalled writes of an index into effect, in ascending epoch order: the move has come and both members have acknowledged (R187, R217). -/
def applyJournal (s : State) (t num : Nat) : State :=
  match findIndex s t num with
  | none => s
  | some ix =>
    let due := (sortBy (fun a b => decide (a.epoch ≤ b.epoch)) ix.writes).takeWhile (fun w => w.ack1 && w.ack2 && decide (w.epoch / 65536 ≤ moveOf s))
    due.foldl (fun a w =>
      match findObj a t num, findIndex a t num with
      | some o, some jx =>
        let old := (List.zip (List.range w.bytes.length) (memRead o.data w.off w.bytes.length)).map (fun ib => (num, w.off + ib.1, ib.2))
        let a1 := (writeObj a o w.off w.bytes).1
        let a2 := putIndex a1 { jx with images := jx.images ++ [⟨w.epoch, dirPart, old⟩], mutated := if jx.mutated.contains dirPart then jx.mutated else jx.mutated ++ [dirPart],
                                        writes := jx.writes.filter (fun x => !(x.q == w.q && x.seq == w.seq)) }
        match findDesc a2 w.q w.seq with
        | some d => completeWith a2 d stDone 0 0 0 0 []
        | none => a2
      | _, _ => a) s

/-- JOURNAL_WRITE_APPLY (R217). -/
def execJournalWriteApply (t index : Nat) (s : State) : Res := onUnit s (wellFormed (.journalWriteApply t index)) (applyJournal s t index)

end Sys2Proof.Machine
end

