-- ==== Sys2Proof/Machine/Place.lean ====
section
/-! DEFINITION. PLACE: creating, moving and freeing objects, the order of commands on one object, and the boundary at which a copy takes over (08 R225 to R229, R240; 12 R381). -/

namespace Sys2Proof.Machine

open Sys2Proof

/-! ### The objects that a descriptor names, and the order of writes (R228, R240) -/

/-- The objects through which an index is read: its bitmap, and its partitions' codes, vectors and replicas (05 R130). -/
def indexParts (s : State) (t num : Nat) : List Nat :=
  match idxRec s t num, findObj s t num with
  | some r, some o =>
    [r.delObj] ++ (List.range r.parts).flatMap (fun p =>
      let e := dirAt r o.data p
      let h := hdrAt o.data e.section_
      [e.replObj] ++ (if e.section_ = 0 then [] else [h.navObj, h.vecObj]))
  | _, _ => []

/-- Objects named in a partition header of an index that has taken a mutation. -/
def lockedVectors (s : State) (t num : Nat) : Bool :=
  s.indexes.any (fun ix => ix.tenant == t && !ix.mutated.isEmpty &&
    match idxRec s t ix.num, findObj s t ix.num with
    | some r, some o => (List.range r.parts).any (fun p =>
        let e := dirAt r o.data p
        e.section_ != 0 && (hdrAt o.data e.section_).vecObj == num)
    | _, _ => false)

/-- An ATTR_BITMAP that an index names as DEL_OBJ, after that index's first mutation (R234, R245). -/
def lockedDel (s : State) (o : Obj) : Bool :=
  o.type == 0x04 && s.indexes.any (fun ix => ix.tenant == o.tenant && !ix.mutated.isEmpty &&
    match idxRec s o.tenant ix.num with
    | some r => !r.tomb && r.delObj == o.num
    | none => false)

/-- Bytes that a write command may touch: object, offset, length; a PLACE and a BANK_OP count as whole objects. -/
def writeRanges (s : State) (d : Desc) : List (Nat × Nat × Nat) :=
  let whole := 2 ^ 64
  match descOp d with
  | 0x11 =>
    match tensorHdr s d.tenant (dfield d 32 4) with
    | none => [(dfield d 32 4, 0, whole)]
    | some t => [(dfield d 32 4, t.bodyOff + 8192 * dfield d 40 8, 8192 * dfield d 36 2),
                 (dfield d 32 4, 4096 + tileFb t.fmt * dfield d 40 8, tileFb t.fmt * dfield d 36 2)]
  | 0x12 => [(dfield d 24 4, 0, whole)]
  | 0x15 => [(dfield d 32 4, dfield d 24 8, dfield d 36 4)]
  | 0x16 => [(dfield d 16 4, dfield d 24 8 * pageBytes, dfield d 32 4 * pageBytes)]
  | 0x18 => ((namedObjs d).filter (fun n => n != noEdge)).map (fun n => (n, 0, whole))
  | _ => []

/-- Whether a write command has still to touch its rows: one whose bytes are stored, or that waits for its move in the journal, has not. -/
def writePending (s : State) (d : Desc) : Bool :=
  match d.work with
  | .journal _ => false
  | .remote _ _ _ _ _ _ => (namedObjs d).any (fun n => match findObj s d.tenant n with | some o => o.tier == 2 | none => false)
  | _ => true

def rowsMeet (a b : Nat × Nat × Nat) : Bool :=
  a.1 == b.1 && overlaps (a.2.1 / 1024) ((a.2.1 + a.2.2 + 1023) / 1024 - a.2.1 / 1024) (b.2.1 / 1024) ((b.2.1 + b.2.2 + 1023) / 1024 - b.2.1 / 1024)

/-- An earlier write command of the tenant has not yet finished with a row of this one (R240). -/
def writeHeld (s : State) (d : Desc) : Bool :=
  let mine := writeRanges s d
  s.qe.descs.any (fun x => decide (x.n < d.n) && x.tenant == d.tenant && writePending s x
    && (writeRanges s x).any (fun a => mine.any (rowsMeet a)))

/-- The object is bound by the token service (12 R381). -/
def boundObj (s : State) (t num : Nat) : Bool :=
  (s.ts.vocabs ++ s.ts.grams).any (fun e => decide (2 ≤ e.2.st) && e.2.tenant == t && e.2.object == num)

/-! ### Checks of PLACE (R222, R226, R229) -/

def typeTiers (ty : Nat) : List Nat :=
  match ty with
  | 1 => [1]
  | 2 => [1]
  | 3 => [3]
  | 4 => [1]
  | 5 => [0, 1, 2, 3]
  | 6 => [1]
  | 7 => [1]
  | 8 => [1]
  | 9 => [0, 1, 2, 3]
  | _ => []

def regionOk (ty tier region : Nat) : Bool :=
  region == 0 || (region == 1 && (tier == 1 || tier == 2) && (ty == 4 || ty == 9))

/-- The destination fields of a CREATE or a MOVE. -/
def destOk (s : State) (d : Desc) (ty size : Nat) : Bool :=
  let f := dfield d
  let tier := f 30 1
  let cnt := f 44 2
  let squares := match posOf s d.tenant with | some p => p.squares.length | none => 0
  (typeTiers ty).contains tier && regionOk ty tier (f 31 1) && decide (size ≠ 0)
    && (if tier = 0 then decide (1 ≤ cnt ∧ cnt ≤ 256) && decide (f 42 2 + cnt ≤ squares) && decide (size % (65536 * cnt) = 0)
        else f 42 2 == 0 && cnt == 0 && decide (size % unitOf tier 0 = 0))
    && (if tier = 2 then !(s.fab.assigned && s.fab.node == f 40 1) else f 40 1 == 0)

/-- Whether the argument block is read: a channel list, or the header of a new tensor. -/
def needsArg (d : Desc) (ty : Nat) : Bool := dfield d 30 1 == 3 || (dfield d 28 1 == 0 && ty == 5)

/-- Checks 1 and 2, in part on the object that exists. -/
def placeFieldsOk (s : State) (d : Desc) (o : Option Obj) : Bool :=
  let f := dfield d
  decide (f 24 4 ≤ 0xFFFE) &&
  match f 28 1, o with
  | 0, none => destOk s d (f 29 1) (f 32 8) && decide (f 16 8 % 64 = 0) && (needsArg d (f 29 1) || f 16 8 == 0)
  | 1, some x =>
    f 29 1 == 0 && f 32 8 == 0 && destOk s d x.type x.size && decide (f 16 8 % 64 = 0) && (needsArg d x.type || f 16 8 == 0)
      && (x.type == 5 || x.type == 9 || (f 30 1 == x.tier && x.tier == 1))
  | 2, some x =>
    f 16 8 == 0 && f 29 1 == 0 && f 30 1 == 0 && f 31 1 == 0 && f 32 8 == 0 && f 40 1 == 0 && f 42 2 == 0 && f 44 2 == 0
      && !boundObj s d.tenant x.num
  | _, _ => false

/-- A channel list: 1 to 64 distinct channels that exist. Bytes of the block after the list are not read (DESIGN CHOICE, log entry 60): R225 does not say whether they are reserved. -/
def chanList (s : State) (arg : List Byte) : Option (List Nat) :=
  let n := fieldAt arg 0 1
  let l := ((arg.drop 1).take n).map BitVec.toNat
  if decide (1 ≤ n ∧ n ≤ 64) && decide (l.dedup.length = n) && l.all (fun c => decide (c < 64) && (getCh s c).dies != 0) then some l else none

/-- The header of a new tensor: bytes 0 to 23 and the codebook as supplied, and the derived fields (R235, R237). -/
def newHeader (arg : List Byte) : Mem :=
  let t := tensorOf arg
  memWrite (memWrite (memWrite (cellsOf 0 arg) 24 (toLE 8 t.ntr)) 32 (toLE 4 t.ntc)) 40 (toLE 8 t.bodyOff)

def tensorFits (arg : List Byte) (size : Nat) : Bool :=
  let t := tensorOf arg
  tensorHdrOk arg && decide (t.bodyOff + 8192 * t.tiles ≤ size)

/-- Bytes of a tenant's pieces on a logical Square. -/
def t0Used (s : State) (t i : Nat) : Nat :=
  (((s.ms.objs ++ moveCopies s).filter (fun o => o.tenant == t && o.tier == 0 && decide (o.sqFirst ≤ i) && decide (i < o.sqFirst + o.sqCount))).map
    (fun o => o.size / o.sqCount)).sum

/-- Units of a T3 object on the channel at a place of its list. -/
def unitsOn (size nch i : Nat) : Nat := size / pageBytes / nch + (if i < size / pageBytes % nch then 1 else 0)

/-- Check 4: the charge, the Squares, the channels. -/
def chargeOk (s : State) (d : Desc) (size : Nat) (chans : List Nat) : Bool :=
  match posOf s d.tenant with
  | none => false
  | some p =>
    match dfield d 30 1 with
    | 0 =>
      let first := dfield d 42 2
      let cnt := dfield d 44 2
      decide (useT0 s d.tenant + size ≤ p.resT0) && (List.range cnt).all (fun i =>
        match p.squares[first + i]? with
        | some e => decide (t0Used s d.tenant (first + i) + size / cnt ≤ e.t0 * 65536)
        | none => false)
    | 1 => decide (useT1 s d.tenant + size ≤ p.resT1)
    | 3 => decide (useT3 s d.tenant + size ≤ p.resT3) && (List.zip (List.range chans.length) chans).all (fun ic =>
        decide (unitsOn size chans.length ic.1 ≤ freeLus s ic.2))
    | _ => true

/-- The object, or its copy, where PLACE puts it: the tier's own place is taken. -/
def placed (s : State) (d : Desc) (o : Obj) (chans : List Nat) (goff : Nat) : Obj × State :=
  let tier := dfield d 30 1
  let base : Obj := { o with tier := tier, raw := dfield d 31 1 == 1, peer := dfield d 40 1, goff := goff, sqFirst := dfield d 42 2, sqCount := dfield d 44 2,
                             chans := chans, lus := [], block := 0, data := [] }
  if tier = 3 then
    let r := takeLus (o.size / pageBytes) 0 s chans
    ({ base with lus := r.1 }, r.2)
  else if tier = 1 then
    let x := { base with block := allocBlock s (o.size / 262144) }
    (x, mendBursts s x 0 o.size)
  else (base, s)

/-! ### Pieces of remote accesses (10 R307) -/

/-- Cuts n bytes at a global address into pieces of at most 256 bytes that cross no 256-byte boundary: offset within the access, and length. -/
def pieces : Nat → Nat → Nat → Nat → List (Nat × Nat)
  | 0, _, _, _ => []
  | k + 1, a, off, n =>
    if n = 0 then []
    else
      let m := min n (256 - a % 256)
      (off, m) :: pieces k (a + m) (off + m) (n - m)

def piecesAt (a n : Nat) : List (Nat × Nat) := pieces (n / 256 + 2) a 0 n

def globalOf (node off : Nat) : Nat := node * 2 ^ 40 + off % 2 ^ 40

/-- Sends one request for each piece; none when no path leads to the node. -/
def sendPieces (s : State) (t : Nat) (a n : Nat) (mk : Nat × Nat → Packet × ReqSource) : Option (List Nat × State) :=
  (piecesAt a n).foldl (fun acc p =>
    acc.bind (fun x =>
      let m := mk p
      (sendReq x.2 t (a / 2 ^ 40 % 256) (a + p.1) m.1 m.2).map (fun r => (x.1 ++ [r.1], r.2)))) (some ([], s))

/-- LOADs of n bytes at a global address; each piece's source is given by its offset. -/
def sendLoads (s : State) (t a n : Nat) (src : Nat → ReqSource) : Option (List Nat × State) :=
  sendPieces s t a n (fun p => (mkPacket 1 0 p.2 (a + p.1) 0 [], src p.1))

/-- STOREs of bytes to a global address. -/
def sendStores (s : State) (t a : Nat) (bs : List Byte) (src : ReqSource) : Option (List Nat × State) :=
  sendPieces s t a bs.length (fun p => (mkPacket 2 0 p.2 (a + p.1) 0 ((bs.drop p.1).take p.2), src))

/-! ### PLACE -/

/-- CREATE: the charge is taken and the object stands in the directory (R223). -/
def createObj (s : State) (d : Desc) (arg : List Byte) (chans : List Nat) (goff : Nat) : State :=
  let hdr := if dfield d 29 1 = 5 ∧ dfield d 30 1 ≠ 3 then newHeader arg else []
  let o : Obj := { tenant := d.tenant, num := dfield d 24 4, type := dfield d 29 1, tier := 0, raw := false, size := dfield d 32 8 }
  let r := placed (commit s d) d o chans goff
  complete (putObj r.2 { r.1 with hdr := hdr, data := if r.1.tier = 2 ∨ r.1.tier = 3 then [] else hdr }) d stDone

/-- MOVE: the destination is charged and the copy waits for its boundary; remote bytes are asked for or sent at once. -/
def startMove (s : State) (d : Desc) (o : Obj) (chans : List Nat) (goff : Nat) : State :=
  let r := placed s d o chans goff
  let run := fun (x : State × Obj) (tags : List Nat) =>
    let s1 := putObj (commit x.1 d) { o with st := 1 }
    let s2 := { s1 with ms := { s1.ms with jobs := s1.ms.jobs ++ [⟨d.q, d.seq, d.tenant, o.num, some x.2, false⟩] } }
    putDesc s2 { d with phase := .running, work := .place tags 0 }
  if o.tier = 2 then
    match sendLoads r.2 d.tenant (globalOf o.peer o.goff) o.size (fun off => .copy d.q d.seq off) with
    | none => complete s d stRemote
    | some l => run (l.2, r.1) l.1
  else if r.1.tier = 2 then
    match (readObj r.2 o 0 o.size).2 with
    | .error st => complete (readObj s o 0 o.size).1 d st
    | .ok bs =>
      match sendStores (readObj r.2 o 0 o.size).1 d.tenant (globalOf r.1.peer goff) bs (.desc d.q d.seq) with
      | none => complete s d stRemote
      | some l => run (l.2, r.1) l.1
  else run (r.2, r.1) []

/-- FREE: the object takes no further descriptor and waits for those that use it. -/
def startFree (s : State) (d : Desc) (o : Obj) : State :=
  let s1 := putObj (commit s d) { o with st := if o.st = 3 then 3 else 2 }
  let s2 := { s1 with ms := { s1.ms with jobs := s1.ms.jobs ++ [⟨d.q, d.seq, d.tenant, o.num, none, false⟩] } }
  putDesc s2 { d with phase := .running, work := .place [] 0 }

/-- The checks that follow the fields (R226 orders 3 to 5), then the action. -/
def placeGo (s : State) (d : Desc) (o : Option Obj) (peer : PeerAnswer) : State :=
  let f := dfield d
  let ty := match o with | some x => x.type | none => f 29 1
  let size := match o with | some x => x.size | none => f 32 8
  let arg := if needsArg d ty then hostRead s (f 16 8) 4096 else []
  let chans := if f 30 1 = 3 then (chanList s arg).getD [] else []
  let act := fun (goff : Nat) =>
    match o with
    | none => createObj s d arg chans goff
    | some x => startMove s d x chans goff
  if needsArg d ty && (d.hostFault || !hostOpen s d.tenant) then complete s d stHost
  else if f 30 1 = 3 ∧ (chanList s arg).isNone then complete s d stMalformed
  else if f 28 1 = 0 ∧ ty = 5 ∧ f 30 1 ≠ 3 ∧ ¬ tensorFits arg size then complete s d stMalformed
  else if !chargeOk s d size chans || (o.isNone && decide (1048576 ≤ s.ms.objs.length)) then complete s d stNoRes
  else if f 30 1 = 2 then
    if (linkFor s d.tenant (f 40 1) (globalOf (f 40 1) 0)).isNone then complete s d stRemote
    else
      match peer with
      | .granted off => act off
      | .refused => complete s d stNoRes
      | .silent => complete s d stRemote
  else act 0

/-- PLACE (R225 to R229): earlier writes and PLACEs of the object come first. -/
def runPlace (s : State) (d : Desc) (peer : PeerAnswer) : State :=
  let o := findObj s d.tenant (dfield d 24 4)
  let t3 := dfield d 30 1 == 3 || (match o with | some x => x.tier == 3 | none => false)
  if namesFreed s d then complete s d stMalformed
  else if writeHeld s d then s
  else if !placeFieldsOk s d o then complete s d stMalformed
  else if t3 && flashWait s then s
  else if t3 && flashFailed s then complete s d stMedia
  else
    match dfield d 28 1, o with
    | 2, some x => startFree s d x
    | _, _ => placeGo s d o peer

/-! ### The peer's part of a PLACE (R226 check 5, R231; 10 R305) -/

/-- This node holds a T2 object for the tenant: its charge is within what is left of RES_T2, and the offsets that it assigns are no other object's. -/
def exportOk (s : State) (t node num size off : Nat) : Bool :=
  (match posOf s t with | some p => decide (useT2x s t + size ≤ p.resT2) | none => false)
    && !(getT s t).tornDown
    && s.ms.exports.all (fun e => !(e.tenant == t && e.node == node && e.num == num) && !overlaps e.off e.size off size)

/-- Creates the object that a peer's CREATE or MOVE charges here; its bytes read as zeros, with new check bits. -/
def createExport (s : State) (t node num size : Nat) (raw : Bool) (off : Nat) : State :=
  if !exportOk s t node num size off then s
  else
    let e : Export := { tenant := t, node := node, num := num, off := off, size := size, raw := raw, block := allocBlock s (size / 262144) }
    updateCaps (mendBursts { s with ms := { s.ms with exports := s.ms.exports ++ [e] } } (exportObj e) 0 size)

/-- Frees it again, and its charge. -/
def freeExport (s : State) (t node num : Nat) : State :=
  updateCaps { s with ms := { s.ms with exports := s.ms.exports.filter (fun e => !(e.tenant == t && e.node == node && e.num == num)) } }

/-- PLACE (R225 to R229): on the node of its descriptor, or its part at the peer. -/
def execPlace (q : QId) (seq : Nat) (side : PlaceSide) (s : State) : Res :=
  onUnit s (wellFormed (.place q seq side)) <|
  match side with
  | .own peer =>
    match dueDesc s q seq 0x12 with
    | some d => if d.work = .none then runPlace s d peer else s
    | none => s
  | .create t node num size raw off => createExport s t node num size raw off
  | .free t node num => freeExport s t node num

/-! ### The switch and the removal at a move boundary (R228, R242) -/

def dropJob (s : State) (j : PlaceJob) : State := { s with ms := { s.ms with jobs := s.ms.jobs.filter (fun x => x != j) } }

/-- An earlier request still reads or writes the object. -/
def inUse (s : State) (t num n : Nat) : Bool :=
  s.qe.descs.any (fun x => decide (x.n < n) && x.tenant == t &&
      ((namedObjs x).contains num || (namedObjs x).any (fun i => (indexParts s t i).contains num)))
    || s.fab.held.any (fun h => h.tenant == t && (h.msg.index == num || (indexParts s t h.msg.index).contains num))
    || s.squares.any (fun q => q.2.ctxs.any (fun c => c.2.tenant == t && c.2.elems.any (fun e => !e.2.returned &&
        (match e.2.addr with | .object k _ => k == num | .remote _ => false))))

/-- Writes the units of a copy that are not all zeros; the others stay invalid and read as zeros (R223). -/
def copyUnits (s : State) (o : Obj) (bs : List Byte) : State × Option Nat :=
  (List.range (o.size / pageBytes)).foldl (fun a u =>
    let b := (bs.drop (u * pageBytes)).take pageBytes
    if a.2.isSome || allZero b then a else writeT3 2 a.1 o (u * pageBytes) b) (s, none)

/-- The deltas of the units that a MOVE into T3 writes while the object's guard set is ON (10 R332): the bytes move unchanged, so each delta is zeros. -/
def copyDeltas (s : State) (o : Obj) (bs : List Byte) : List Delta :=
  if o.tier = 3 && guardedOn s o.tenant o.num then
    ((List.range (o.size / pageBytes)).filter (fun u => !allZero ((bs.drop (u * pageBytes)).take pageBytes))).map (fun u => ⟨o.num, u, zeros pageBytes⟩)
  else []

/-- An element that a context reads of the object has not returned (03 R70). -/
def elemsOn (s : State) (t num : Nat) : Bool :=
  s.squares.any (fun q => q.2.ctxs.any (fun c => c.2.tenant == t && c.2.elems.any (fun e => !e.2.returned &&
    (match e.2.addr with | .object n _ => n == num | .remote _ => false))))

/-- A read of the object that was under way before the switch has not returned: an element of a context, a T2 object's bytes on their way, or a descriptor whose remote requests are open (R228). -/
def readsOpen (s : State) (o : Obj) (n : Nat) : Bool :=
  elemsOn s o.tenant o.num
    || (o.tier == 2 && (s.fab.reqs.any (fun r => r.tenant == o.tenant && r.target == o.peer && r.op != 5 && r.op != 6
          && decide (o.goff ≤ r.addr % 2 ^ 40) && decide (r.addr % 2 ^ 40 < o.goff + o.size)
          && (match r.src with | .elem _ _ _ => true | .hostRead _ _ _ => true | .forward _ _ _ => true | _ => false))))
    || s.qe.descs.any (fun x => x.n != n && x.tenant == o.tenant && (namedObjs x).contains o.num
        && (match x.work with | .forwarding _ _ => true | _ => false))

/-- Carries out a MOVE: reads the source, writes the copy, switches, frees the source. A failed read ends it, and the source stays. The switch is taken at a boundary at which no read of the source is outstanding (DESIGN CHOICE, log entry 59). -/
def switchMove (s : State) (d : Desc) (j : PlaceJob) (src dst : Obj) : State :=
  let s0 := dropJob s j
  let fail := fun (x : State) (st : Nat) => complete (freeT3Units (putObj x { src with st := 0 }) dst) d st
  let finish := fun (x : State) (o : Obj) (ds : List Delta) =>
    let z := freeT3Units (if src.tier = 1 ∧ dst.tier ≠ 1 then barErr x src.tenant src.num else x) src
    completeGuarded (putObj z { o with st := 0 }) d ds stDone 0 0 0
  if src.tier = 2 then
    -- the bytes have come in `dst.data`
    (if dst.tier = 3 then
      let bs := memRead dst.data 0 dst.size
      let w := copyUnits s0 { dst with data := [] } bs
      match w.2 with | some st => fail w.1 st | none => finish w.1 { dst with data := [] } (copyDeltas s0 dst bs)
    else finish s0 (if dst.tier = 2 then { dst with data := [] } else dst) [])
  else if dst.tier = 2 then finish s0 { dst with data := [] } []
  else if src.tier = 1 ∧ dst.tier = 1 ∧ dst.raw ∧ ¬ src.raw then finish s0 { dst with data := src.data } []
  else
    let r := readObj s0 src 0 src.size
    match r.2 with
    | .error st => fail r.1 st
    | .ok bs =>
      if dst.tier = 3 then
        let w := copyUnits r.1 dst bs
        match w.2 with | some st => fail w.1 st | none => finish w.1 dst (copyDeltas s0 dst bs)
      else finish r.1 { dst with data := if src.tier = 3 then cellsOf 0 bs else src.data } []

/-- One PLACE job at a boundary. -/
def placeJob (s : State) (j : PlaceJob) : State :=
  match findDesc s j.q j.seq, findObj s j.tenant j.num with
  | some d, some o =>
    match d.work, j.dest with
    | .place [] f, some dst =>
      if f ≠ 0 then complete (freeT3Units (putObj (dropJob s j) { o with st := 0 }) dst) d f
      else if (o.tier == 3 || dst.tier == 3) && flashWait s then s
      else if o.tier = 2 ∧ dst.tier = 2 ∧ ¬ j.stored then
        match sendStores s d.tenant (globalOf dst.peer dst.goff) (memRead dst.data 0 dst.size) (.desc d.q d.seq) with
        | none => complete (putObj (dropJob s j) { o with st := 0 }) d stRemote
        | some l =>
          let s1 := { l.2 with ms := { l.2.ms with jobs := l.2.ms.jobs.map (fun x => if x = j then { j with stored := true } else x) } }
          putDesc s1 { d with work := .place l.1 0 }
      else if readsOpen s o d.n then s
      else switchMove s d j o dst
    | .place _ _, none =>
      if inUse s j.tenant j.num d.n then s
      else complete (removeObj (dropJob s j) o) d stDone
    | _, _ => s
  | _, _ => dropJob s j

/-- The switches and removals of a move boundary, in acceptance order. -/
def placeBoundary (s : State) : State := s.ms.jobs.foldl placeJob s

end Sys2Proof.Machine
end

