-- ==== Sys2Proof/Machine/Objects.lean ====
section
/-! DEFINITION. OBJ_READ, OBJ_WRITE and journalled writes, tiles, DISCARD, BANK_OP and BAR4 (08 R234 to R251; 07 R214 to R218; 09 R268, R269). -/

namespace Sys2Proof.Machine

open Sys2Proof

/-! ### Reading and writing on behalf of a descriptor -/

/-- Writes parts of an object, each an offset and its bytes; the first fault ends it. Guarded units leave their deltas. -/
def writeParts (s : State) (t num : Nat) (l : List (Nat × List Byte)) : State × Option Nat × List Delta :=
  l.foldl (fun a p =>
    match a.2.1, findObj a.1 t num with
    | none, some x =>
      let g := guardedOn a.1 t num
      let old : State × Except Nat (List Byte) := if g then readObj a.1 x p.1 p.2.length else (a.1, .ok [])
      match old.2 with
      | .error st => (old.1, some st, a.2.2)
      | .ok ob =>
        let w := writeObj old.1 x p.1 p.2
        (w.1, w.2, if g then a.2.2 ++ deltasOf num p.1 ob p.2 else a.2.2)
    | _, _ => a) (s, none, [])

/-- Stores parts in a local object and completes; a write to T3 completes after its programs, a guarded one after its acknowledgements (R234, 10 R332). -/
def storeLocal (s : State) (d : Desc) (o : Obj) (l : List (Nat × List Byte)) : State :=
  if o.tier == 3 && flashWait s then s
  else
    let w := writeParts (commit s d) d.tenant o.num l
    match w.2.1 with
    | some st => complete w.1 d st
    | none => completeGuarded w.1 { d with phase := .running } w.2.2 stDone 0 0 0

/-- Waits for the responses of remote requests. -/
def awaitTags (s : State) (d : Desc) (tags : List Nat) : State :=
  putDesc s { d with phase := .running, work := .remote tags 0 stDone 0 0 0 }

/-- Stores parts in an object that a peer holds (R231). -/
def storeRemote (s : State) (d : Desc) (o : Obj) (l : List (Nat × List Byte)) : State :=
  let r : Option (List Nat × State) := l.foldl (fun acc p =>
    acc.bind (fun x => (sendStores x.2 d.tenant (globalOf o.peer (o.goff + p.1)) p.2 (.desc d.q d.seq)).map (fun y => (x.1 ++ y.1, y.2)))) (some ([], commit s d))
  match r with
  | none => complete s d stRemote
  | some x => awaitTags (match findObj x.2 d.tenant o.num with
      | some y => putObj x.2 { y with hdr := l.foldl (fun m p => hdrAfter { y with hdr := m } p.1 p.2) y.hdr }
      | none => x.2) d x.1

def storeParts (s : State) (d : Desc) (o : Obj) (l : List (Nat × List Byte)) : State :=
  if o.tier = 2 then (if o.st = 3 then complete s d stRemote else storeRemote s d o l) else storeLocal s d o l

/-! ### OBJ_READ (R234) -/

def accessOk (d : Desc) (o : Obj) : Bool :=
  let f := dfield d
  decide (f 16 8 % 8 = 0) && decide (f 24 8 % 8 = 0) && decide (f 36 4 % 8 = 0) && decide (8 ≤ f 36 4 ∧ f 36 4 ≤ 2 ^ 24)
    && decide (f 24 8 + f 36 4 ≤ o.size)

/-- A DISCARD accepted earlier has still to take bytes of the object: reads accepted after it return zeros for its units (09 R269). -/
def discardHeld (s : State) (d : Desc) (num off n : Nat) : Bool :=
  s.qe.descs.any (fun x => decide (x.n < d.n) && x.tenant == d.tenant && descOp x == 0x16 && x.work == .none && dfield x 16 4 == num
    && overlaps (dfield x 24 8 * pageBytes) (dfield x 32 4 * pageBytes) off n)

def runObjRead (s : State) (d : Desc) : State :=
  match findObj s d.tenant (dfield d 32 4) with
  | none => complete s d stMalformed
  | some o =>
    let a := dfield d 16 8
    let off := dfield d 24 8
    let n := dfield d 36 4
    if namesFreed s d || !accessOk d o || dfield d 40 8 != 0 then complete s d stMalformed
    else if discardHeld s d o.num off n then s
    else if o.tier = 2 then
      if o.st = 3 then complete s d stRemote
      else
        match sendLoads (commit s d) d.tenant (globalOf o.peer (o.goff + off)) n (fun k => .hostRead d.q d.seq (a + k)) with
        | none => complete s d stRemote
        | some l => awaitTags l.2 d l.1
    else onEv s d 0 (readLocal s d o off n) (fun s1 bs => complete (hostWrite (commit s1 d) d.tenant a bs) d stDone)

/-- OBJ_READ: current contents to host memory. -/
def execObjRead (q : QId) (seq : Nat) (s : State) : Res :=
  onUnit s (wellFormed (.objRead q seq)) <|
  match dueDesc s q seq 0x14 with
  | some d => if d.work = .none then runObjRead s d else s
  | none => s

/-! ### The journal (07 R214 to R218) -/

def jHead (m : Mem) (j : Nat) : Nat := memLE m (16 + 16 * j) 8
def jTail (m : Mem) (j : Nat) : Nat := memLE m (24 + 16 * j) 8
def jRing (m : Mem) : Nat := memLE m 8 8

def ringRead (m : Mem) (j p n : Nat) : List Byte :=
  (List.range n).map (fun i => memGet m (4096 + j * jRing m + (p + i) % max 1 (jRing m)))

def ringWrite (m : Mem) (j p : Nat) (bs : List Byte) : Mem :=
  let o := p % max 1 (jRing m)
  let k := jRing m - o
  memWrite (memWrite m (4096 + j * jRing m + o) (bs.take k)) (4096 + j * jRing m) (bs.drop k)

/-- Length of the record at a position. -/
def jRecLen (m : Mem) (j p : Nat) : Nat := roundUp (32 + leNat (ringRead m j (p + 12) 4)) 64

/-- Whether a record of the ring, or its end, starts at the position. -/
def jStart (m : Mem) (j target : Nat) : Nat → Nat → Bool
  | 0, _ => false
  | n + 1, p => p == target || (decide (p < target) && jStart m j target n (p + jRecLen m j p))

/-- Appends a record to a ring and advances its tail; none when it does not fit. -/
def jAppend (m : Mem) (j : Nat) (rec_ : List Byte) : Option Mem :=
  if jRing m < jTail m j + rec_.length - jHead m j then none
  else some (memWrite (ringWrite m j (jTail m j) rec_) (24 + 16 * j) (toLE 8 (jTail m j + rec_.length)))

/-- Stores a journal that a record of n bytes has been appended to: the header and the record's bytes get new check bits. -/
def storeJournal (s : State) (o : Obj) (j n : Nat) (m : Mem) : State :=
  let ring := jRing o.data
  let p := jTail o.data j % max 1 ring
  let s1 := mendBursts (putObj s { o with data := m }) o 0 64
  mendBursts (mendBursts s1 o (4096 + j * ring + p) (min n (ring - p))) o (4096 + j * ring) (n - (ring - p))

/-- A journal record, padded to a multiple of 64 bytes. -/
def jRecord (epoch object off origin : Nat) (bs : List Byte) : List Byte :=
  let b := toLE 8 epoch ++ (toLE 4 object ++ (toLE 4 bs.length ++ (toLE 8 off ++ (toLE 4 origin ++ (zeros 4 ++ bs)))))
  b ++ zeros (roundUp b.length 64 - b.length)

def isJournal (s : State) (t num : Nat) : Bool := s.indexes.any (fun i => i.tenant == t && i.journal == some num)

/-- What an OBJ_WRITE to a JOURNAL object does: refused, stored, or it makes the object the journal of an index. -/
inductive JWriteKind where
  | bad | plain | create (ix : Index)
  deriving DecidableEq, Repr

def journalWrite (s : State) (o : Obj) (off : Nat) (bs : List Byte) : JWriteKind :=
  if 64 ≤ off then .plain
  else
    let m := memWrite o.data off bs
    if isJournal s o.tenant o.num then
      let same := fun (a n : Nat) => memRead m a n == memRead o.data a n
      let headOk := fun (j : Nat) =>
        jHead m j == jHead o.data j
          || (decide (jHead o.data j < jHead m j) && decide (jHead m j ≤ jTail o.data j) && jStart o.data j (jHead m j) (jRing o.data / 64 + 1) (jHead o.data j))
      if same 0 16 && same 24 8 && same 40 8 && same 56 8 && headOk 0 && headOk 1 && headOk 2 then .plain else .bad
    else
      let num := memLE m 4 4
      let ring := jRing m
      match findIndex s o.tenant num, idxRec s o.tenant num with
      | some ix, some _ =>
        if off = 0 ∧ 64 ≤ bs.length ∧ memLE m 0 4 = 0x4E524A4C ∧ ring ≠ 0 ∧ ring % 65536 = 0 ∧ 4096 + 3 * ring ≤ o.size
            ∧ allZero (memRead m 16 48) ∧ ix.journal.isNone then .create ix
        else .bad
      | _, _ => .bad

/-- A directory entry that an OBJ_WRITE stores is checked (05 R132). -/
def dirEntryOk (r : IdxRec) (m : Mem) (p : Nat) : Bool :=
  let e := dirAt r m p
  decide (2 * e.slices + 1 ≤ e.gsize) && decide (memLE m (r.dirOff + 48 * p + 1) 1 ≤ 1) && (!e.scatter || e.slices != 0)

/-- What an OBJ_WRITE to an INDEX_GRAPH object does. One at an offset other than 0 into the index record's own bytes stores them, and later requests read the record as it then stands (DESIGN CHOICE, log entry 77). -/
inductive IWriteKind where
  | bad | plain | newIndex | journalled (ix : Index)
  deriving DecidableEq, Repr

def indexWrite (s : State) (o : Obj) (off : Nat) (bs : List Byte) : IWriteKind :=
  match findIndex s o.tenant o.num with
  | none => if off ≠ 0 then .plain else if (parseIdx (cellsOf 0 bs) bs.length).isSome then .newIndex else .bad
  | some ix =>
    if off = 0 then .bad
    else
      match idxRec s o.tenant o.num with
      | none => .plain
      | some r =>
        let n := bs.length
        let router := overlaps off n r.routerOff (r.parts * r.stride)
        let dir := overlaps off n r.dirOff (r.parts * 48)
        let m := memWrite o.data off bs
        let lo := (off - r.dirOff) / 48
        let hi := min r.parts ((off + n - r.dirOff + 47) / 48)
        if !router && !dir then .plain
        else if dir && !(((List.range hi).drop lo).all (dirEntryOk r m)) then .bad
        else if ix.journal.isNone then .plain
        else if (decide (r.routerOff ≤ off) && decide (off + n ≤ r.routerOff + r.parts * r.stride))
            || (decide (r.dirOff ≤ off) && decide (off + n ≤ r.dirOff + r.parts * 48)) then .journalled ix
        else .bad

/-- The node number at a position of the group. -/
def memberAt (g : GroupCfg) (i : Nat) : Nat := g.members.getD (i % max 1 g.gsize) 0

/-- A journalled write (R216, R217): checked, appended to ring 0, sent to the members at POS + 1 and POS + 2. -/
def runJournalled (s : State) (d : Desc) (o : Obj) (ix : Index) (off : Nat) (bs : List Byte) : State :=
  let mv := dfield d 40 8
  let e := mv * 65536 + 0xFF00
  if mv = 0 ∨ mv < d.move + 192 ∨ 2 ^ 48 ≤ mv ∨ ix.writes.any (fun w => w.epoch == e) then complete s d stMalformed
  else
    match (ix.journal.bind (findObj s d.tenant)) with
    | none => complete s d stNoRes
    | some j =>
      let rec_ := jRecord e o.num off s.fab.node bs
      match jAppend j.data 0 rec_ with
      | none => complete s d stNoRes
      | some m =>
        let s1 := storeJournal (commit s d) j 0 rec_.length m
        let d1 := { d with phase := .running, work := .journal e }
        match s1.fab.group with
        | none => putIndex (putDesc s1 d1) { ix with writes := ix.writes ++ [⟨d.q, d.seq, e, off, bs, true, true⟩] }
        | some g =>
          let send := fun (x : State) (i : Nat) => sendMsg x d.tenant (memberAt g (g.pos + i)) 3 e 0 o.num rec_ (fun tag => .message d.q d.seq tag)
          match (send s1 1).bind (fun a => send a.2 2) with
          | none => complete s1 d stRemote
          | some b => putIndex (putDesc b.2 d1) { ix with writes := ix.writes ++ [⟨d.q, d.seq, e, off, bs, false, false⟩] }

/-! ### OBJ_WRITE (R234) -/

def runObjWrite (s : State) (d : Desc) : State :=
  match findObj s d.tenant (dfield d 32 4) with
  | none => complete s d stMalformed
  | some o =>
    let off := dfield d 24 8
    let eff := dfield d 40 8
    if !accessOk d o || boundObj s d.tenant o.num || lockedDel s o then complete s d stMalformed
    else if d.hostFault || !hostOpen s d.tenant then complete s d stHost
    else
      let bs := hostRead s (dfield d 16 8) (dfield d 36 4)
      let plain := fun (x : State) => if eff ≠ 0 then complete s d stMalformed else storeParts x d o [(off, bs)]
      match o.type with
      | 0x01 =>
        match indexWrite s o off bs with
        | .bad => complete s d stMalformed
        | .plain => plain s
        | .newIndex => plain (putIndex s { tenant := d.tenant, num := o.num })
        | .journalled ix => runJournalled s d o ix off bs
      | 0x08 =>
        match journalWrite s o off bs with
        | .bad => complete s d stMalformed
        | .plain => plain s
        | .create ix => plain (putIndex s { ix with journal := some o.num })
      | _ => plain s

/-- OBJ_WRITE: earlier writes of the same rows come first (R240). -/
def execObjWrite (q : QId) (seq : Nat) (s : State) : Res :=
  onUnit s (wellFormed (.objWrite q seq)) <|
  match dueDesc s q seq 0x15 with
  | some d =>
    if d.work ≠ .none then s
    else if namesFreed s d then complete s d stMalformed
    else if writeHeld s d then s
    else runObjWrite s d
  | none => s

/-! ### Tiles (R236 to R239) -/

/-- First row and column of a tile, and how many rows and columns lie within the tensor. -/
def tileSpan (t : Tensor) (k : Nat) : Nat × Nat × Nat × Nat :=
  let r0 := k / max 1 t.ntc * tileRows t.fmt
  let c0 := k % max 1 t.ntc * tileCols t.fmt
  (r0, c0, min (tileRows t.fmt) (t.rows - r0), min (tileCols t.fmt) (t.cols - c0))

def facOff (t : Tensor) (k : Nat) : Nat := 4096 + tileFb t.fmt * k
def bodyOffOf (t : Tensor) (k : Nat) : Nat := t.bodyOff + 8192 * k

/-- The tile header up to its factors. -/
def tileHead (o : Obj) (t : Tensor) (k : Nat) : List Byte :=
  let sp := tileSpan t k
  toLE 4 0x4C49544C ++ (toLE 1 t.fmt ++ (zeros 1 ++ (toLE 2 (tileHdr t.fmt) ++ (toLE 4 o.num ++ (toLE 2 sp.2.2.1 ++ (toLE 2 sp.2.2.2 ++ (toLE 8 k
    ++ (toLE 8 sp.1 ++ (toLE 4 sp.2.1 ++ (zeros 28 ++ (memRead o.hdr 64 (cbBytes t.fmt) ++ zeros (tileCb t.fmt - cbBytes t.fmt))))))))))))

/-- Elements of a row beyond COLS are stored as 0. -/
def maskRow (fmt vc : Nat) (row : List Byte) : List Byte :=
  if fmt = 2 then
    (row.take (vc / 2)) ++ (if vc % 2 = 1 then [BitVec.ofNat 8 ((row.getD (vc / 2) 0).toNat % 16)] else []) ++ zeros (row.length - (vc + 1) / 2)
  else
    let n := vc * elemBits fmt / 8
    row.take n ++ zeros (row.length - n)

def maskBody (t : Tensor) (k : Nat) (body : List Byte) : List Byte :=
  let sp := tileSpan t k
  let rb := tileRowBytes t.fmt
  (List.range (tileRows t.fmt)).flatMap (fun r => if r < sp.2.2.1 then maskRow t.fmt sp.2.2.2 ((body.drop (r * rb)).take rb) else zeros rb)

def maskFactors (t : Tensor) (k : Nat) (fac : List Byte) : List Byte :=
  let sp := tileSpan t k
  let g := tileCols t.fmt / 32
  (List.range (fac.length / 2)).flatMap (fun i => if i / g < sp.2.2.1 ∧ i % g * 32 < sp.2.2.2 then (fac.drop (2 * i)).take 2 else zeros 2)

def tileFabric (d : Desc) : Bool := bits (dfield d 38 1) 0 2 == 1
def tileNoHdr (d : Desc) : Bool := bit (dfield d 38 1) 2

/-- The checks that TILE_READ and TILE_WRITE share. A header that an OBJ_WRITE has made unreadable names no tiles. -/
def tileOk (d : Desc) (o : Obj) (t : Tensor) (write : Bool) : Bool :=
  let f := dfield d
  o.type == 5 && decide (2 ≤ t.fmt ∧ t.fmt ≤ 8) && decide (t.bodyOff + 8192 * t.tiles ≤ o.size)
    && decide (f 16 8 % 64 = 0) && decide (f 24 8 % 64 = 0) && decide (1 ≤ f 36 2 ∧ f 36 2 ≤ 64) && decide (f 40 8 + f 36 2 ≤ t.tiles)
    && (if write then f 38 1 == 0 else decide (bits (f 38 1) 0 2 ≤ 1))
    && (if tileFabric d && !write then f 48 8 != 0 else f 48 8 == 0 && f 56 8 == 0)

def tilesOf (d : Desc) : List Nat := (List.range (dfield d 36 2)).map (fun i => dfield d 40 8 + i)

/-- Bytes to deliver, in order: the destination address, and where they come from: bytes at hand, or an offset and a length of the object. -/
def tileParts (d : Desc) (o : Obj) (t : Tensor) : List (Nat × (List Byte ⊕ (Nat × Nat))) :=
  (List.zip (List.range (dfield d 36 2)) (tilesOf d)).flatMap (fun ik =>
    let h := dfield d 24 8 + tileHdr t.fmt * ik.1
    [(dfield d 16 8 + 8192 * ik.1, Sum.inr (bodyOffOf t ik.2, 8192))] ++
    (if tileNoHdr d then []
     else [(h, Sum.inl (tileHead o t ik.2))] ++
      (if tileFb t.fmt = 0 then [] else [(h + 64 + tileCb t.fmt, Sum.inr (facOff t ik.2, tileFb t.fmt))])))

/-- The parts of a local object, read in order. -/
def readParts (s : State) (d : Desc) (o : Obj) (l : List (Nat × (List Byte ⊕ (Nat × Nat)))) : State × Ev (List (Nat × List Byte)) :=
  mapEv (fun s p =>
    match p.2 with
    | .inl bs => (s, .ok (p.1, bs))
    | .inr on => bindEv (readLocal s d o on.1 on.2) (fun s1 bs => (s1, .ok (p.1, bs)))) s l

/-- STOREs of every part to a fabric destination, then the STORE_FLAG (10 R311). -/
def tileStores (s : State) (d : Desc) (l : List (Nat × List Byte)) : State :=
  let r : Option (List Nat × State) := l.foldl (fun acc p =>
    acc.bind (fun x => (sendStores x.2 d.tenant (p.1 % 2 ^ 48) p.2 (.desc d.q d.seq)).map (fun y => (x.1 ++ y.1, y.2)))) (some ([], commit s d))
  match r with
  | none => complete s d stRemote
  | some x =>
    let f := issueFlag x.2 d.tenant (dfield d 48 8 % 2 ^ 48) (dfield d 56 8) (.desc d.q d.seq)
    awaitTags f.2 d (x.1 ++ [f.1])

/-- Parts of a peer's object: LOADs whose data goes to the host, or on to the fabric destination. -/
def tileRemote (s : State) (d : Desc) (o : Obj) (l : List (Nat × (List Byte ⊕ (Nat × Nat)))) : State :=
  let fab := tileFabric d
  let one := fun (x : List Nat × State) (p : Nat × (List Byte ⊕ (Nat × Nat))) =>
    match p.2 with
    | .inl bs =>
      if fab then (sendStores x.2 d.tenant (p.1 % 2 ^ 48) bs (.desc d.q d.seq)).map (fun y => (x.1 ++ y.1, y.2))
      else some (x.1, hostWrite x.2 d.tenant p.1 bs)
    | .inr on =>
      (sendLoads x.2 d.tenant (globalOf o.peer (o.goff + on.1)) on.2
        (fun k => if fab then .forward d.q d.seq (p.1 % 2 ^ 48 + k) else .hostRead d.q d.seq (p.1 + k))).map (fun y => (x.1 ++ y.1, y.2))
  match l.foldl (fun acc p => acc.bind (fun x => one x p)) (some ([], commit s d)) with
  | none => complete s d stRemote
  | some x =>
    if fab then putDesc x.2 { d with phase := .running, work := .forwarding x.1 0 } else awaitTags x.2 d x.1

def runTileRead (s : State) (d : Desc) : State :=
  match findObj s d.tenant (dfield d 32 4) with
  | none => complete s d stMalformed
  | some o =>
    let t := tensorOf (memRead o.hdr 0 24)
    if namesFreed s d || !tileOk d o t false then complete s d stMalformed
    else if discardHeld s d o.num 0 o.size then s
    else if o.tier = 2 then (if o.st = 3 then complete s d stRemote else tileRemote s d o (tileParts d o t))
    else
      onEv s d 0 (readParts s d o (tileParts d o t)) (fun s1 l =>
        if tileFabric d then tileStores s1 d l
        else complete (l.foldl (fun x p => hostWrite x d.tenant p.1 p.2) (commit s1 d)) d stDone)

/-- TILE_READ (R239). -/
def execTileRead (q : QId) (seq : Nat) (s : State) : Res :=
  onUnit s (wellFormed (.tileRead q seq)) <|
  match dueDesc s q seq 0x10 with
  | some d => if d.work = .none then runTileRead s d else s
  | none => s

/-- The tile headers that a TILE_WRITE supplies. -/
def suppliedHeaders (s : State) (d : Desc) (fmt : Nat) : List (List Byte) :=
  (List.range (dfield d 36 2)).map (fun i => hostRead s (dfield d 24 8 + tileHdr fmt * i) (tileHdr fmt))

/-- Bytes that a TILE_WRITE stores, with the offset of each part: bodies, and factors where the format has them. -/
def tileWriteParts (s : State) (d : Desc) (t : Tensor) (hs : List (List Byte)) : List (Nat × List Byte) :=
  (List.zip (List.range (dfield d 36 2)) (List.zip (tilesOf d) hs)).flatMap (fun x =>
    [(bodyOffOf t x.2.1, maskBody t x.2.1 (hostRead s (dfield d 16 8 + 8192 * x.1) 8192))] ++
    (if tileFb t.fmt = 0 then [] else [(facOff t x.2.1, maskFactors t x.2.1 (x.2.2.drop (tileHdr t.fmt - tileFb t.fmt)))]))

def runTileWrite (s : State) (d : Desc) : State :=
  match findObj s d.tenant (dfield d 32 4) with
  | none => complete s d stMalformed
  | some o =>
    let t := tensorOf (memRead o.hdr 0 24)
    if !tileOk d o t true then complete s d stMalformed
    else if d.hostFault || !hostOpen s d.tenant then complete s d stHost
    else
      let hs := suppliedHeaders s d t.fmt
      if hs.any (fun h => fieldAt h 0 4 != 0x4C49544C || fieldAt h 4 1 != t.fmt) then complete s d stMalformed
      else storeParts s d o (tileWriteParts s d t hs)

/-- TILE_WRITE (R239). -/
def execTileWrite (q : QId) (seq : Nat) (s : State) : Res :=
  onUnit s (wellFormed (.tileWrite q seq)) <|
  match dueDesc s q seq 0x11 with
  | some d =>
    if d.work ≠ .none then s
    else if namesFreed s d then complete s d stMalformed
    else if writeHeld s d then s
    else runTileWrite s d
  | none => s

/-! ### DISCARD (09 R268, R269) -/

def runDiscard (s : State) (d : Desc) : State :=
  match findObj s d.tenant (dfield d 16 4) with
  | none => complete s d stMalformed
  | some o =>
    let first := dfield d 24 8
    let n := dfield d 32 4
    if o.tier ≠ 3 ∨ n = 0 ∨ 2 ^ 24 < n ∨ o.size < (first + n) * pageBytes ∨ (o.type = 3 ∧ lockedVectors s d.tenant o.num) then complete s d stMalformed
    else if flashWait s then s
    else if flashFailed s then complete s d stMedia
    else
      let us := (List.range n).map (fun i => first + i)
      -- a guarded unit's discard counts as a write of zeros (10 R332)
      let old : List (State × Except Nat (List Byte)) :=
        if guardedOn s d.tenant o.num then us.map (fun u => readObj s o (u * pageBytes) pageBytes) else []
      let ds := (List.zip us old).flatMap (fun x => match x.2.2 with | .ok b => deltasOf o.num (x.1 * pageBytes) b (zeros pageBytes) | .error _ => [])
      let r := trimUnits (commit s d) o us
      let r1 := match findObj r.1 d.tenant o.num with
        | some y => putObj r.1 { y with hdr := if y.type = 5 ∧ first = 0 then [] else y.hdr }
        | none => r.1
      if old.any (fun x => match x.2 with | .error _ => true | .ok _ => false) then complete s d stMedia
      else if r.2 then complete r1 d stMedia
      else completeGuarded r1 { d with phase := .running } ds stDone 0 0 0

/-- DISCARD: the units become invalid once their TRIM pages are programmed. -/
def execDiscard (q : QId) (seq : Nat) (s : State) : Res :=
  onUnit s (wellFormed (.discard q seq)) <|
  match dueDesc s q seq 0x16 with
  | some d =>
    if d.work ≠ .none then s
    else if namesFreed s d then complete s d stMalformed
    else if writeHeld s d then s
    else runDiscard s d
  | none => s

/-! ### BANK_OP (R243 to R247) -/

/-- One row operation of the sequence; none where it breaks R244. -/
def rowOpAt (b : List Byte) : Option RowOp :=
  let op := fieldAt b 0 1
  let os := fieldAt b 1 1
  let o := fun (i : Nat) => bits os (2 * i) 2
  let dst := fieldAt b 4 4
  let a := fieldAt b 8 4
  let c := fieldAt b 12 4
  if 5 < op ∨ bits os 6 2 ≠ 0 ∨ fieldAt b 2 2 ≠ 0 then none
  else if op = 1 then (if o 1 ≠ 0 ∨ o 2 ≠ 0 then none else some ⟨op, (o 0, dst), [], a + c * 2 ^ 32⟩)
  else if op = 0 ∨ op = 5 then (if o 2 ≠ 0 ∨ c ≠ 0 then none else some ⟨op, (o 0, dst), [(o 1, a)], 0⟩)
  else some ⟨op, (o 0, dst), [(o 1, a), (o 2, c)], 0⟩

def RowOp.rows (r : RowOp) : List (Nat × Nat) := r.dst :: r.srcs

/-- The result of an operation on whole rows. -/
def RowOp.value (r : RowOp) (a b : List Byte) : List Byte :=
  match r.op with
  | 0 => a
  | 1 => (List.replicate 128 (toLE 8 r.pattern)).flatten
  | 2 => List.zipWith (fun x y => x &&& y) a b
  | 3 => List.zipWith (fun x y => x ||| y) a b
  | 4 => xorBytes a b
  | _ => a.map (fun x => ~~~x)

/-- The Position has a slot run for a bank-unit stream on the stack channel. -/
def bankRun (s : State) (t c : Nat) : Bool :=
  match posOf s t with
  | none => false
  | some p => p.runs.any (fun r => r.kind == 4 && r.path == c && (match p.streams[r.stream]? with
      | some x => x.source == unitCode 0x03 c || x.dest == unitCode 0x03 c
      | none => false))

def bankNames (d : Desc) : List Nat := [dfield d 24 4, dfield d 28 4, dfield d 32 4, dfield d 36 4]

/-- The checks of R245 in order: a status, or none. -/
def bankCheck (s : State) (d : Desc) (ops : List RowOp) : Option Nat :=
  let names := bankNames d
  let num := fun (i : Nat) => names.getD i noEdge
  let obj := fun (i : Nat) => findObj s d.tenant (num i)
  let used := names.filter (fun n => n != noEdge)
  let objs := used.map (findObj s d.tenant)
  let seed := s.ms.seed
  let place := fun (r : Nat × Nat) => (stackChannel r.2 seed, rowPseudo r.2)
  if ops.any (fun r => r.rows.any (fun x => num x.1 == noEdge)) then some stMalformed
  else if objs.any (fun o => match o with | some x => x.tier != 1 | none => true) then some stMalformed
  else if objs.any (fun o => match o with | some x => !x.raw | none => false) then some stProtected
  else if objs.any (fun o => match o with | some x => lockedDel s x | none => false) then some stMalformed
  else if ops.any (fun r => r.rows.any (fun x => match obj x.1 with | some o => decide (o.size / 1024 ≤ x.2) | none => true)) then some stMalformed
  else if ops.any (fun r => r.srcs.any (fun x => place x != place r.dst)) then some stMalformed
  else if ops.any (fun r => !bankRun s d.tenant (stackChannel r.dst.2 seed)) then some stNoRes
  else none

/-- Carries out one operation; none when a source row cannot be read (R247). -/
def bankRow (s : State) (d : Desc) (r : RowOp) : State × Bool :=
  let obj := fun (i : Nat) => findObj s d.tenant ((bankNames d).getD i noEdge)
  let rd : List (Except Nat (List Byte)) := r.srcs.map (fun x => match obj x.1 with | some o => (readObj s o (x.2 * 1024) 1024).2 | none => .ok [])
  let bad := r.srcs.findSome? (fun x => (obj x.1).bind (fun o => stackBad s o (x.2 * 1024) 1024))
  match bad, obj r.dst.1 with
  | some b, _ => (logStackBad s d.tenant b, false)
  | none, none => (s, true)
  | none, some o =>
    let get := fun (i : Nat) => match rd[i]? with | some (.ok v) => v | _ => []
    let s1 := (writeObj s o (r.dst.2 * 1024) (r.value (get 0) (get 1))).1
    ({ s1 with ms := { s1.ms with rowOps := satAdd 48 s1.ms.rowOps 1 } }, true)

/-- Carries out a chunk's operations in order, up to one that cannot be carried out. -/
def bankRows (d : Desc) : State → List RowOp → State × Bool
  | s, [] => (s, true)
  | s, r :: l => let x := bankRow s d r; if x.2 then bankRows d x.1 l else (x.1, false)

def bankRefuse (s : State) (d : Desc) (st : Nat) : State :=
  complete { s with ms := { s.ms with refused := satAdd 16 s.ms.refused 1 } } d st

/-- The tenant's bank-unit stream of a stack channel that has a run there. -/
def bankStream (s : State) (t c : Nat) : Option Nat :=
  findStream s t (fun i x => (x.source == unitCode 0x03 c || x.dest == unitCode 0x03 c)
    && (ownerRuns s t).any (fun r => r.kind == 4 && r.path == c && r.stream == i))

/-- The operations of a sequence by stack channel, each channel's in sequence order. -/
def byBank (seed : Nat) (ops : List RowOp) : List (Nat × List RowOp) :=
  let ch := fun (r : RowOp) => stackChannel r.dst.2 seed
  ((ops.map ch).dedup).map (fun c => (c, ops.filter (fun r => ch r == c)))

/-- A chunk of at most 8 operations of a channel is ready: it is a token of the bank unit's stream (R246). -/
def chunkToken (s : State) (d : Desc) (x : Nat × List RowOp) : State :=
  match bankStream s d.tenant x.1 with
  | some i => addToken s d.tenant i ⟨0, .chunk d.q d.seq⟩
  | none => s

def runBankOp (s : State) (d : Desc) : State :=
  let n := dfield d 40 2
  if dfield d 16 8 % 64 ≠ 0 ∨ n = 0 ∨ 4096 < n then bankRefuse s d stMalformed
  else if d.hostFault || !hostOpen s d.tenant then complete s d stHost
  else
    let seq := hostRead s (dfield d 16 8) (16 * n)
    let ops := (List.range n).filterMap (fun i => rowOpAt ((seq.drop (16 * i)).take 16))
    if ops.length ≠ n then bankRefuse s d stMalformed
    else
      match bankCheck s d ops with
      | some st => bankRefuse s d st
      | none =>
        let l := byBank s.ms.seed ops
        l.foldl (fun a x => chunkToken a d x) (putDesc s { d with phase := .running, work := .bank l [] })

/-- The operations of a channel's next chunk. -/
def chunkOf (l : List (Nat × List RowOp)) (c : Nat) : List RowOp := (((l.find? (fun x => x.1 == c)).map Prod.snd).getD []).take 8

/-- The bank unit of channel c carries out a chunk of a BANK_OP: the chunk leaves the sequence, and the next one is ready; a source row that cannot be read stops the channel; after the last chunk the BANK_OP commits and completes (R246, R247; 11 R361). -/
def runChunk (s : State) (d : Desc) (c : Nat) (l : List (Nat × List RowOp)) (stopped : List Nat) : State :=
  let x := bankRows d s (chunkOf l c)
  let rest := l.map (fun e => if e.1 = c then (c, if x.2 then e.2.drop 8 else []) else e)
  let bad := if x.2 then stopped else stopped ++ [c]
  if rest.all (fun e => e.2.isEmpty) then complete (commit x.1 d) d (if bad.isEmpty then stDone else stMemory)
  else
    let s1 := putDesc x.1 { d with work := .bank rest bad }
    match rest.find? (fun e => e.1 == c && !e.2.isEmpty) with
    | some e => chunkToken s1 d e
    | none => s1

/-- BANK_OP: checked, then its chunks run in the bank unit's slots (R245, R246). -/
def execBankOp (q : QId) (seq : Nat) (s : State) : Res :=
  onUnit s (wellFormed (.bankOp q seq)) <|
  match dueDesc s q seq 0x18 with
  | some d =>
    if namesFreed s d then bankRefuse s d stMalformed
    else if writeHeld s d then s
    else runBankOp s d
  | none => s

/-! ### BAR4 (R241, R242, R251) -/

def bar4Seg (s : State) : Nat := 2 ^ (30 + s.ms.bar4Size) / 64

/-- The object byte that an offset of the window shows. -/
def bar4At (s : State) (a : Nat) : Option (Obj × Nat) :=
  let m := tget {} s.ms.bar4Map (a / bar4Seg s)
  if a < 2 ^ (30 + s.ms.bar4Size) ∧ m.valid ∧ ¬ m.err then
    (findObj s m.tenant m.object).bind (fun o =>
      let off := m.segOff * bar4Seg s + a % bar4Seg s
      if o.tier = 1 ∧ off < o.size then some (o, off) else none)
  else none

/-- Reads one byte: an uncorrectable one is a free value, and its error is logged. -/
def bar4Read (x : State × List Byte) (a : Nat) : State × List Byte :=
  match bar4At x.1 a with
  | none => (x.1, x.2 ++ [0])
  | some (o, off) =>
    match stackBad x.1 o off 1 with
    | some b =>
      let d := draw (logStackBad x.1 o.tenant b)
      (d.2, x.2 ++ [Config.freeByte d.1])
    | none => (x.1, x.2 ++ [memGet o.data off])

/-- Writes one byte; a byte that a MOVE has already sent to a peer follows it there (R240). -/
def bar4Write (s : State) (a : Nat) (b : Byte) : State :=
  match bar4At s a with
  | none => s
  | some (o, off) => (writeObj s o off [b]).1

/-- The part of a BAR4 write that a running MOVE to a peer must still carry over, as aligned 8-byte words. -/
def bar4Follow (s : State) (off n : Nat) : State :=
  s.ms.jobs.foldl (fun x j =>
    match j.dest, bar4At x off, findDesc x j.q j.seq with
    | some dst, some (o, a), some d =>
      if dst.tier = 2 ∧ o.tenant = j.tenant ∧ o.num = j.num then
        match d.work with
        | .place tags f =>
          let lo := a / 8 * 8
          match sendStores x j.tenant (globalOf dst.peer (dst.goff + lo)) (memRead o.data lo (roundUp (a + n - lo) 8)) (.desc j.q j.seq) with
          | some l => putDesc l.2 { d with work := .place (tags ++ l.1) f }
          | none => x
        | _ => x
      else x
    | _, _, _ => x) s

/-- A read or a write through BAR4, of at least one byte. -/
def bar4Run (s : State) (off n : Nat) (w : Option (List Byte)) : State :=
  let as := (List.range n).map (fun i => off + i)
  let miss := as.any (fun a => (bar4At s a).isNone)
  let s1 := if miss then barUnimplEvent s 0 off w.isSome else s
  match w with
  | none => let r := as.foldl bar4Read (s1, []); emit r.1 (.barData r.2)
  | some bs => bar4Follow ((List.zip as bs).foldl (fun x ab => bar4Write x ab.1 ab.2) s1) off n

/-- BAR4_ACCESS: the physical function's window into T1. -/
def execBar4Access (off bytes : Nat) (write : Option (List Byte)) (s : State) : Res :=
  onUnit s true (if barFull s then bar4Run s off (match write with | some b => b.length | none => bytes) write else s)

end Sys2Proof.Machine
end

