-- ==== Sys2Proof/Machine/Schedule.lean ====
section
/-! DEFINITION. Moves, slots, tokens and credits, the tick and the move boundary, and the ranks' clocks (00; 02 R37 to R41; 03 R80 to R84; 11 R367, R371). -/

namespace Sys2Proof.Machine

open Sys2Proof

/-! ### Units at the ends of a stream -/

/-- A unit code names a Square of the rank. -/
def endsIn (s : State) (owner code r : Nat) : Bool := match sqOfUnit s owner code with | some n => rankOfSq n == r | none => false

/-- Some stream of which `f` holds: its contents, then its table entry. -/
def anyStream (s : State) (f : Nat → StreamSt → Stream → Bool) : Bool :=
  s.bd.streams.any (fun e => match streamOf s (e.1 / 256) (e.1 % 256) with | some x => f (e.1 / 256) e.2 x | none => false)

/-- A receive buffer of the rank's Squares holds data. -/
def heldIn (s : State) (r : Nat) : Bool := anyStream s (fun o st x => decide (st.held ≠ 0) && endsIn s o x.dest r)

/-- A Square of the rank still has something to send: a request in its buffer, or a payload of one of its streams (log entry 61). -/
def sendsIn (s : State) (r : Nat) : Bool :=
  s.squares.any (fun e => rankOfSq e.1 == r && !e.2.reqBuf.isEmpty) || anyStream s (fun o st x => !st.tokens.isEmpty && endsIn s o x.source r)

/-- A source outside the rank holds a token for a Square of the rank. -/
def tokenFor (s : State) (r : Nat) : Bool := anyStream s (fun o st x => !st.tokens.isEmpty && endsIn s o x.dest r && !endsIn s o x.source r)

/-! ### Ranks (03 R80, R81) -/

def rankIdle (s : State) (r : Nat) : Bool := busyRank s r == 0 && !heldIn s r && !sendsIn s r

/-- A castling of the rank is in progress. -/
def castlingIn (s : State) (r : Nat) : Bool := match s.bd.castling with | some c => rankIdx c.die c.rank == r | none => false

/-- Counts n ticks for every rank: idle ticks in a row, up to 256, where the clock runs; a stopped clock starts where a token waits. -/
def tickRanks (s : State) (n : Nat) : State :=
  (List.range 16).foldl (fun a r =>
    let k := getRank a r
    if k.clock = 2 then setRank a r { k with idle := if rankIdle s r then min 256 (k.idle + n) else 0 }
    else if k.clock = 0 ∧ ¬ k.pwrOff ∧ tokenFor s r then setRank a r { k with clock := 1, idle := 0 }
    else a) s

/-- The rank's PLL keeps running while the rank is stopped (02 R28). -/
def warmRank (s : State) (r : Nat) : Bool := match s.bd.layer with | some b => b.warm.getLsbD r | none => false

/-- RANK_CLOCK_STOP (R80): acts after 256 idle ticks; the PLL stops too unless the rank is warm. A castling needs the clock of its rank (R86). -/
def execRankClockStop (r : Nat) (s : State) : Res :=
  onUnit s (wellFormed (.rankClockStop r)) <|
  let k := getRank s r
  if k.clock = 2 ∧ 256 ≤ k.idle ∧ rankIdle s r ∧ ¬ castlingIn s r then setRank s r { k with clock := 0, idle := 0, pll := warmRank s r } else s

/-- RANK_CLOCK_START (R81): a stopped clock that a token waits for starts; a starting one runs, its PLL locked. -/
def execRankClockStart (r : Nat) (s : State) : Res :=
  onUnit s (wellFormed (.rankClockStart r)) <|
  let k := getRank s r
  if k.pwrOff then s
  else if k.clock = 1 then setRank s r { k with clock := 2, idle := 0, pll := true }
  else if k.clock = 0 ∧ tokenFor s r then setRank s r { k with clock := 1, idle := 0 }
  else s

/-! ### Flits (10 R297, R298, R302) -/

/-- The bytes 0 to 251 of a flit. -/
def flitBytes (f : Flit) : List Byte :=
  toLE 2 (f.seq + f.kind * 4096) ++ toLE 2 f.ack ++ toLE 4 (f.creditOwner + f.creditStream * 2 ^ 7 + f.credits * 2 ^ 15) ++ zeros 4 ++ f.payload

/-- The flits that a port holds at most until they are acknowledged. -/
def flitHold : Nat := 512

/-- Flits of a slot, and the payload bytes that they carry (R301). -/
def slotFlits : Nat := 10
def linkRoom : Nat := 2400

/-- The credits that the next flit of a link returns, at most 63 of one stream, and those that stay. -/
def nextReturn (k : Link) : (Nat × Nat × Nat) × List (Nat × Nat × Nat) :=
  match k.returns with
  | [] => ((0, 0, 0), [])
  | (o, st, n) :: r => if n ≤ 63 then ((o, st, n), r) else ((o, st, 63), (o, st, n - 63) :: r)

/-- A flit of a link as it is sent: its number, what has been received, the credits that go back, and its check. -/
def makeFlit (k : Link) (kind seq : Nat) (payload : List Byte) : Flit :=
  let c := (nextReturn k).1
  let f : Flit := { seq := seq, kind := kind, ack := (k.rxNext + 4095) % 4096, creditOwner := c.1, creditStream := c.2.1, credits := c.2.2,
                    payload := payload, crc := 0, fecBad := false, fecCorrected := 0 }
  { f with crc := crc32 (flitBytes f) }

/-- Sends a flit, padded with zeros to 240 bytes of payload (log entry 62). A data flit takes the next number and is held for replay. -/
def sendFlit (s : State) (l kind seq : Nat) (payload : List Byte) : State :=
  let k := getLink s l
  let f := makeFlit k kind seq (payload ++ zeros (240 - payload.length))
  let k1 := { k with returns := (nextReturn k).2 }
  let k2 := if kind = 1 then { k1 with txSeq := (k1.txSeq + 1) % 4096, unacked := k1.unacked ++ [f] } else k1
  cntFab (emit (setLink s l k2) (.flit l f)) 0 1

/-- Sends bytes in data flits. -/
def sendFlits : Nat → State → Nat → List Byte → State
  | 0, s, _, _ => s
  | k + 1, s, l, b => if b.isEmpty then s else sendFlits k (sendFlit s l 1 (getLink s l).txSeq (b.take 240)) l (b.drop 240)

/-- Idle flits of a link carry back the credits that wait, for as many ticks as pass (R302). -/
def returnIdle : Nat → State → Nat → State
  | 0, s, _ => s
  | k + 1, s, l =>
    if (getLink s l).st = 2 ∧ ¬ (getLink s l).returns.isEmpty then returnIdle k (sendFlit s l 0 (getLink s l).txSeq []) l else s

def idleFlits (s : State) (ticks : Nat) : State :=
  s.fab.links.foldl (fun a e => returnIdle (min ticks e.2.returns.length) a e.1) s

/-! ### Slots (R38, R40) -/

/-- A castling holds the Square still: it is no source and no destination (03 R86). -/
def heldStill (s : State) (n : Option Nat) : Bool := match n with | some x => sqFrozen s x | none => false

/-- The clock of the Square's rank runs; any other unit always does (03 R82). -/
def clocked (s : State) (n : Option Nat) : Bool := match n with | some x => (getRank s (rankOfSq x)).clock == 2 | none => true

/-- A destination frees a buffer entry and the source holds the credit again (R40). -/
def returnCredit (s : State) (owner stream : Nat) : State :=
  let st := getStream s owner stream
  setStream s owner stream { st with credits := st.credits + 1, held := st.held - 1 }

/-- The context of the owner that waits for the stream on the Square. -/
def waiterOn (s : State) (n owner stream : Nat) : Option Nat :=
  ((getSq s n).ctxs.find? (fun c => c.2.st == .waitStream && c.2.tenant == owner && c.2.waitOn == stream)).map Prod.fst

/-- A waiting context takes a payload into its scratch area and is READY (03 R67). -/
def takePayload (x : Ctx) (dst : Nat) : Load → Ctx
  | .data b => { x with st := .ready, scratch := memWrite x.scratch dst (b.take (4096 - dst)) }
  | _ => { x with st := .ready }

/-- A payload of a context's data arrives at a Square: a context that waits for the stream takes it, or it stays in the receive buffer. -/
def arriveSquare (s : State) (owner stream n : Nat) (t : Token) : State :=
  match waiterOn s n owner stream with
  | some c => returnCredit (setCtx s n c (takePayload (getCtx s n c) (getCtx s n c).waitDst t.load)) owner stream
  | none =>
    let st := getStream s owner stream
    setStream s owner stream { st with buf := st.buf ++ [t] }

/-- The stream that carries data from a unit back to a Square, with the slot payload of its first run. -/
def backStream (s : State) (owner code n : Nat) : Option (Nat × Nat) :=
  (findStream s owner (fun _ x => x.source == code && sqOfUnit s owner x.dest == some n)).bind (fun i =>
    ((ownerRuns s owner).find? (fun r => r.stream == i)).map (fun r => (i, slotPayload r.kind)))

/-- The request of read r has left its Square: each element of the node's own memory is asked for, and its data comes back in slot payloads where a stream carries it (03 R69 to R71). -/
def leaveRead (s : State) (owner code n c r : Nat) : State :=
  let x := getCtx s n c
  let mine := x.elems.filter (fun e => e.1 / 16 == r && !e.2.returned && (match e.2.addr with | .object _ _ => true | .remote _ => false))
  let back := backStream s owner code n
  let go := fun (a : State) (e : Nat × Elem) =>
    let due := match back with | some b => ceilDiv e.2.bytes b.2 | none => 0
    let a1 := setCtx a n c { getCtx a n c with elems := tset (getCtx a n c).elems e.1 { e.2 with left := true, due := due } }
    match back with
    | some b => (List.range due).foldl (fun z i => addToken z owner b.1 ⟨min b.2 (e.2.bytes - i * b.2), .elem n c e.1⟩) a1
    | none => a1
  trimReqBuf (mine.foldl go s) n c r

/-- A slot payload of an element's data reaches its Square. -/
def arriveElem (s : State) (n c slot : Nat) : State :=
  let x := getCtx s n c
  match x.elems.find? (fun e => e.1 == slot) with
  | some e => setCtx s n c { x with elems := tset x.elems slot { e.2 with due := e.2.due - 1 } }
  | none => s

/-- A payload arrives (R38, R40). -/
def arrive (s : State) (owner stream : Nat) (x : Stream) (t : Token) : State :=
  match t.load with
  | .read n c r => leaveRead (returnCredit s owner stream) owner x.dest n c r
  | .elem n c slot => arriveElem (returnCredit s owner stream) n c slot
  | .data _ =>
    match sqOfUnit s owner x.dest with
    | some n => if owner = 0x7F then returnCredit s owner stream else arriveSquare s owner stream n t
    | none => returnCredit s owner stream
  | _ => returnCredit s owner stream

/-- The egress meter's answer for a packet of L = 32 + LEN bytes at a transmit slot (11 R369, R371): whether it is taken, and the meter after it. -/
def egressMark (s : State) (owner n : Nat) : Bool × State :=
  if 64 < owner then (true, s)
  else
    let m := getM s owner true
    let r := markMeter m (if m.mode then n + m.overhead else 1)
    match r.1 with
    | .green => (true, setM s owner true r.2)
    | .yellow => if m.action then (true, setM s owner true r.2) else (false, s)
    | .red => (false, setM s owner true r.2)

/-- L of what waits for a link (11 R369). -/
def linkCost : Load → Nat
  | .packet p => 32 + p.len
  | .part _ _ n => 32 + n
  | _ => 0

/-- What a transmit slot carries: its bytes, what has left with them, and the tokens that stay. -/
structure SlotOut where
  bytes : List Byte := []
  gone : List Load := []
  rest : List Token := []
  deriving DecidableEq, Repr

/-- As many whole pending packets as fit in the slot's flits, up to the first that the egress meter holds back (R301; 11 R371). A packet of more than a slot's bytes goes in pieces, each with a token and a credit of its own (02 R39; log entry 62). -/
def takePackets : State → Nat → Nat → SlotOut → List Token → State × SlotOut
  | s, _, _, o, [] => (s, o)
  | s, owner, room, o, t :: rest =>
    let whole := loadBytes t.load
    let now := whole.drop (whole.length - t.bytes)
    if room < t.bytes ∧ ¬ o.bytes.isEmpty then (s, { o with rest := t :: rest })
    else
      let e := if t.bytes < whole.length then (true, s) else egressMark s owner (linkCost t.load)
      if !e.1 then (e.2, { o with rest := t :: rest })
      else if t.bytes ≤ room then takePackets e.2 owner (room - t.bytes) { o with bytes := o.bytes ++ now, gone := o.gone ++ [t.load] } rest
      else (e.2, { o with bytes := now.take room, rest := { t with bytes := t.bytes - room } :: rest })

/-- Requests that have left: their timers run from now (10 R322). -/
def markSent (s : State) (tag dst : Nat) : State :=
  { s with fab := { s.fab with reqs := s.fab.reqs.map (fun r => if r.tag = tag ∧ r.target = dst then { r with sent := true } else r) } }

/-- The element whose request has left as a packet. -/
def leaveElem (s : State) (tag dst : Nat) : State :=
  match s.fab.reqs.find? (fun r => r.tag == tag && r.target == dst) with
  | some r =>
    match r.src with
    | .elem n c slot =>
      let x := getCtx s n c
      (match x.elems.find? (fun e => e.1 == slot) with
       | some e => trimReqBuf (setCtx s n c { x with elems := tset x.elems slot { e.2 with left := true } }) n c (slot / 16)
       | none => s)
    | _ => s
  | none => s

/-- The last byte of a packet has left on a link. A MESSAGE has left with its last packet. -/
def leave (s : State) (l : Nat) : Load → State
  | .packet p =>
    let s1 := emit s (.packet l p)
    if isResponse p then s1 else leaveElem (markSent s1 p.tag p.dst) p.tag p.dst
  | .part m off n => if off + n < messageLen m then s else markSent (emit s (.message l m)) m.tag m.dstNode
  | _ => s

/-- A transmit slot of a link: its flits leave, and the entries that they fill are the next hop's (R301). -/
def linkSlot (s : State) (l slot owner stream : Nat) (st : StreamSt) : State :=
  if flitHold < (getLink s l).unacked.length + slotFlits then s
  else
    let e := takePackets s owner linkRoom {} st.tokens
    if e.2.bytes.isEmpty then e.1
    else
      let s1 := setStream e.1 owner stream { st with tokens := e.2.rest, credits := st.credits - 1, held := st.held + 1 }
      let s2 := emit s1 (.slot 6 l slot owner stream e.2.bytes.length)
      e.2.gone.foldl (fun a x => leave a l x) (sendFlits slotFlits s2 l e.2.bytes)

/-- A bank unit's chunk runs where the run's slots that are left take 8 ticks an operation; its credit is free again at its end (08 R246). -/
def chunkSlot (s : State) (path slot owner stream left : Nat) (st : StreamSt) (q : QId) (seq : Nat) (rest : List Token) : State :=
  match findDesc s q seq with
  | some d =>
    match d.work with
    | .bank l bad =>
      let n := (chunkOf l path).length
      if left < 8 * n then s
      else runChunk (emit (setStream s owner stream { st with tokens := rest }) (.slot 4 path slot owner stream 0)) d path l bad
    | _ => setStream s owner stream { st with tokens := rest }
  | none => setStream s owner stream { st with tokens := rest }

/-- A slot of a path within the node: the first token's payload moves where the slot can carry it. -/
def moveToken (s : State) (kind path slot left : Nat) (r : Run) (x : Stream) (st : StreamSt) : State :=
  match st.tokens with
  | [] => s
  | t :: rest =>
    match t.load with
    | .packet _ => s
    | .part _ _ _ => s
    | .chunk q seq => if kind = 4 then chunkSlot s path slot r.owner r.stream left st q seq rest else s
    | _ =>
      if slotPayload kind < t.bytes then s
      else
        let s1 := setStream s r.owner r.stream { st with tokens := rest, credits := st.credits - 1, held := st.held + 1 }
        arrive (emit s1 (.slot kind path slot r.owner r.stream t.bytes)) r.owner r.stream x t

/-- One slot of a path: the run's owner moves one token's payload if it holds a token and a credit; otherwise the slot idles. -/
def runSlot (s : State) (kind path slot : Nat) : State :=
  match (allRuns s).find? (fun r => r.kind == kind && r.path == path && decide (r.first ≤ slot) && decide (slot ≤ r.first + r.countM1)) with
  | none => s
  | some r =>
    match streamOf s r.owner r.stream with
    | none => s
    | some x =>
      let st := getStream s r.owner r.stream
      let dst := sqOfUnit s r.owner x.dest
      let src := sqOfUnit s r.owner x.source
      let linkUp := !(kind == 6 || kind == 7) || (getLink s path).st == 2
      if st.tokens.isEmpty || st.credits = 0 || !clocked s dst || !clocked s src || !linkUp || heldStill s dst || heldStill s src then s
      else if kind = 6 then linkSlot s path slot r.owner r.stream st
      else moveToken s kind path slot (r.first + r.countM1 + 1 - slot) r x st

/-- SLOT_TRANSFER (R38). -/
def execSlotTransfer (kind path slot : Nat) (s : State) : Res :=
  onUnit s (wellFormed (.slotTransfer kind path slot)) (runSlot s kind path slot)

/-! ### The move boundary (R41) -/

/-- Events that are logged at the end of the move in which they were counted (13 R410). -/
def endOfMoveEvents (s : State) : State :=
  let l := s.er.moveCnts
  l.foldl (fun a e => raise a e.code 2 0x7F e.unit e.count e.word1 e.word2) { s with er := { s.er with moveCnts := [] } }

/-- The group and the node number that take effect at the boundary (10 R327, R337). -/
def fabricBoundary (s : State) : State :=
  let s1 := match s.fab.pendingGroup with
    | some g => { s with fab := { s.fab with group := some g, pendingGroup := none } }
    | none => s
  match s1.fab.pendingAdopt with
  | some (n, g) => { s1 with fab := { s1.fab with node := n, assigned := true, standin := false, group := some g, pendingAdopt := none } }
  | none => s1

/-- Logs a PROMOTE that has succeeded: kind and targets (13 R410, R421). -/
def promoteDone (s : State) (d : Desc) (unit : Nat) : State :=
  completeDetail (raise (cntEr s 15 1) 0x0090 0 0x7F unit (dfield d 16 1) (dfield d 20 4) (dfield d 24 4)) d stDone 0

/-- Records the stack-row repairs that have switched, and completes their PROMOTEs (13 R423 steps 4 and 5). -/
def recordRepairs (s : State) : State :=
  (s.spare.jobs.filter (fun j => j.switched)).foldl (fun a j =>
    let a1 := { a with spare := { a.spare with jobs := a.spare.jobs.filter (fun x => x.seq != j.seq), unrecorded := a.spare.unrecorded.filter (fun x => x != (j.target0, j.target1)) } }
    match findDesc a1 .admin j.seq with
    | some d => promoteDone a1 d (stackUnit j.target0)
    | none => a1) s

/-- What happens at the first tick of a move. -/
def moveEdge (s : State) : State :=
  let s1 := endOfMoveEvents s
  let s2 := { s1 with meters := s1.meters.map (fun e => (e.1, refillMeter e.2)) }
  remarkAll (placeBoundary (fabricBoundary (calEdge s2)))

/-- MOVE_BOUNDARY (R41): tempo reaches the next move. -/
def execMoveBoundary (s : State) : Res :=
  let n := ticksPerMove - tickOf s
  onUnit s true (if s.pw.powered then moveEdge { idleFlits (tickRanks (recordRepairs s) n) n with tempo := (s.tempo + n) % 2 ^ 64 } else s)

/-- One tempo tick passes while the node has power (00); tempo is a 64-bit count (10 R318). A tick that begins a move brings the boundary with it. -/
def idleTick (s : State) : State :=
  let s1 := { idleFlits (tickRanks (recordRepairs s) 1) 1 with tempo := (s.tempo + 1) % 2 ^ 64 }
  if !s.pw.powered then s else if tickOf s1 = 0 then { moveEdge s1 with pending := s.pending } else s1

end Sys2Proof.Machine
end

