-- ==== Sys2Proof/Machine/Squares.lean ====
section
/-! DEFINITION. What a Square does in a cycle, the sorting network, returning read elements, and placing served work (03 R66 to R75; 05 R145; 06 R166; 08 R233). -/

namespace Sys2Proof.Machine

open Sys2Proof

/-! ### The issue rotation (R73) -/

/-- The first READY context after the one that last issued, wrapping from 63 to 0. -/
def nextReady (s : State) (n : Nat) : Option Nat :=
  let q := getSq s n
  ((List.range 64).map (fun i => (q.last + 1 + i) % 64)).find? (fun c => (tget {} q.ctxs c).st == .ready)

/-! ### The sorting network (06 R166) -/

/-- A vector register of a context: 64 entries, empty lanes where nothing was written. -/
def vreg (x : Ctx) (r : Nat) : List Nat := let l := tget [] x.regs r; l ++ List.replicate (64 - l.length) emptyLane

/-- The image whose fixed choice orders equal keys. -/
def imageOf (s : State) (t : Nat) : Nat := match posOf s t with | some p => p.digest | none => 0

def sortReg (s : State) (n c r : Nat) : State :=
  let x := getCtx s n c
  setCtx s n c { x with regs := tset x.regs r (sortNet (imageOf s x.tenant) (vreg x r)) }

def mergeRegs (s : State) (n c a b : Nat) : State :=
  let x := getCtx s n c
  let m := mergeNet (imageOf s x.tenant) (vreg x a) (vreg x b)
  setCtx s n c { x with regs := tset (tset x.regs a m.1) b m.2 }

/-- The Square has a clock and its work: the rank's clock runs, no castling holds the Square still, and it is neither a castled-out Square nor an idle spare (R66, R80, R84, R86, R90). -/
def sqRuns (s : State) (n : Nat) : Bool :=
  let r := getRank s (rankOfSq n)
  let inService := if fileOfSq n = 16 then r.castled else !(r.castled && r.castleFile == fileOfSq n)
  r.clock == 2 && !r.pwrOff && !sqFrozen s n && inService

/-- One issue cycle that a context takes: the rotation must have picked it (R66, R67, R73). -/
def issueOf (s : State) (n c : Nat) (f : State → State) : State :=
  if sqRuns s n && nextReady s n == some c then f (setSq s n { getSq s n with last := c }) else s

/-- SORT64 (R166): the sorting network's instruction of the context whose turn it is. -/
def execSort64 (n c r : Nat) (s : State) : Res :=
  onUnit s (wellFormed (.sort64 n c r)) (issueOf s n c (fun x => sortReg x n c r))

/-- MERGE128 (R166): the best 64 stay in the first register. -/
def execMerge128 (n c a b : Nat) (s : State) : Res :=
  onUnit s (wellFormed (.merge128 n c a b)) (issueOf s n c (fun x => mergeRegs x n c a b))

/-! ### Reads (R69 to R71) -/

/-- The stream is the tenant's and leads out of this Square (R72). -/
def ownStream (s : State) (n t stream : Nat) : Option Stream :=
  match streamOf s t stream with
  | some x => if sqOfUnit s t x.source = some n then some x else none
  | none => none

/-- Payload of the slots that carry a stream: that of its first run; none without a run. -/
def runPayload (s : State) (t stream : Nat) : Option Nat :=
  ((ownerRuns s t).find? (fun r => r.stream == stream)).map (fun r => slotPayload r.kind)

/-- Where an element's bytes lie: an object in a peer's stacks is read at its global address (08 R221; 10 R305). -/
def elemAt (s : State) (t : Nat) : ReadAddr → ReadAddr
  | .remote a => .remote a
  | .object k off =>
    match findObj s t k with
    | some o => if o.tier = 2 then .remote (globalOf o.peer (o.goff + off)) else .object k off
    | none => .object k off

def putElem (s : State) (n c slot : Nat) (v : Elem) : State :=
  setCtx s n c { getCtx s n c with elems := tset (getCtx s n c).elems slot v }

/-- One element of a read: one of the node's own memory waits for its request to leave, a remote one is handed to its link, and one with no path completes with FAULT_REMOTE at once (10 R314). -/
def issueElem (n c slot : Nat) (s : State) (e : ReadElem) : State :=
  let t := (getCtx s n c).tenant
  let v : Elem := { bytes := e.bytes, addr := elemAt s t e.addr, dst := e.dst, tag := none, left := false, due := 0, returned := false, fault := 0, data := [] }
  match v.addr with
  | .object _ _ => putElem s n c slot v
  | .remote a =>
    match sendReq s t (a / 2 ^ 40 % 256) a (mkPacket 1 0 e.bytes a 0 []) (.elem n c slot) with
    | none => putElem s n c slot { v with left := true, returned := true, fault := stRemote }
    | some (tag, s1) => putElem s1 n c slot { v with tag := some tag }

/-- Fetch slots of the ply's read r that still wait for their data. -/
def readOpen (x : Ctx) (r : Nat) : Bool := x.elems.any (fun e => e.1 / 16 == r && !e.2.returned)

/-- The context waits until every element of its ply has returned (R68, R70). -/
def waitMem (s : State) (n c : Nat) : State := settleCtx (setCtx s n c { getCtx s n c with st := .waitMem }) n c

/-- Puts read r of the ply into the request buffer, as a payload of its stream where an element lies in the node's own memory (R71). The last read of a ply takes the context to WAIT_MEM (R68); so does one whose fetch slots are still in use, which is then not issued (R69, R93). -/
def issueRead (s : State) (n c r stream : Nat) (elems : List ReadElem) (last : Bool) : State :=
  let x := getCtx s n c
  if readOpen x r then waitMem s n c
  else
    let here := elems.any (fun e => match elemAt s x.tenant e.addr with | .object _ _ => true | .remote _ => false)
    match ownStream s n x.tenant stream, runPayload s x.tenant stream with
    | some _, some pay =>
      let s1 := (List.zip (List.range elems.length) elems).foldl (fun a ie => issueElem n c (16 * r + ie.1) a ie.2) (addReqBuf s n c r)
      let s2 := if here then addToken s1 x.tenant stream ⟨min pay (Config.requestBytes elems.length), .read n c r⟩ else s1
      let s3 := trimReqBuf s2 n c r
      if last then waitMem s3 n c else s3
    | _, _ => s

/-- The request of a remote operation. -/
def remotePacket : RemoteOp → Packet
  | .store a b => mkPacket 2 0 b.length a 0 b
  | .flag a v => mkPacket 3 0 0 a v []
  | .atomic sub a x y => mkPacket 4 sub (if sub = 1 then 8 else 0) a x (if sub = 1 then toLE 8 y else [])

/-- Issues a remote operation; a STORE_FLAG waits for the earlier stores of its tenant (10 R311). With no path it completes with FAULT_REMOTE at once. -/
def issueRemote (s : State) (n c slot : Nat) (op : RemoteOp) (dst : Nat) (last : Bool) : State :=
  let x := getCtx s n c
  let p := remotePacket op
  let node := p.addr / 2 ^ 40 % 256
  let v : Elem := { bytes := if p.op = 4 then 8 else 0, addr := .remote p.addr, dst := dst, tag := none, left := false, due := 0, returned := false, fault := 0, data := [] }
  let lost := { v with left := true, returned := true, fault := stRemote }
  if x.elems.any (fun e => e.1 == slot && !e.2.returned) then waitMem s n c
  else
    let s1 :=
      match op with
      | .flag a k =>
        if (linkFor s x.tenant node a).isNone then putElem s n c slot lost
        else
          let r := issueFlag s x.tenant a k (.elem n c slot)
          putElem r.2 n c slot { v with tag := some r.1 }
      | _ =>
        match sendReq s x.tenant node p.addr p (.elem n c slot) with
        | none => putElem s n c slot lost
        | some (tag, a) => putElem a n c slot { v with tag := some tag }
    if last then waitMem s1 n c else s1

/-! ### Streams of a context (R67, R72) -/

/-- The context serves work of another context or node (R74). -/
def isServing (x : Ctx) : Bool := match x.job with | .serving _ => true | _ => false

/-- An input stream of the Square that the context may wait for: a serving context waits for no other context's output (R74), so not for a stream that a Square feeds (log entry 63). -/
def mayWait (s : State) (n : Nat) (x : Ctx) (stream : Nat) : Bool :=
  match streamOf s x.tenant stream with
  | some e => sqOfUnit s x.tenant e.dest == some n && !(isServing x && (sqOfUnit s x.tenant e.source).isSome)
  | none => false

/-- Waits for a payload on an input stream; one that lies in the receive buffer is taken at once and its entry freed. -/
def waitStreamOp (s : State) (n c stream dst : Nat) : State :=
  let x := getCtx s n c
  if !mayWait s n x stream then s
  else
    let st := getStream s x.tenant stream
    match st.buf with
    | t :: rest => returnCredit (setStream (setCtx s n c (takePayload x dst t.load)) x.tenant stream { st with buf := rest }) x.tenant stream
    | [] => setCtx s n c { x with st := .waitStream, waitOn := stream, waitDst := dst }

/-- Splits an output into slot payloads, each a token of its own (02 R39). -/
def sendTokens : Nat → State → Nat → Nat → Nat → List Byte → State
  | 0, s, _, _, _, _ => s
  | k + 1, s, t, st, pay, b =>
    if b.isEmpty then s else sendTokens k (addToken s t st ⟨(b.take pay).length, .data (b.take pay)⟩) t st pay (b.drop pay)

/-- Puts bytes on an output stream. Those for a link are a packet, and no packet leaves a node without a number (10 R304, R306). -/
def sendOp (s : State) (n c stream : Nat) (data : List Byte) : State :=
  let t := (getCtx s n c).tenant
  match ownStream s n t stream, runPayload s t stream with
  | some x, some pay =>
    if x.dest / 2 ^ 24 = 5 then
      let p := { packetOf data with tenant := t, src := s.fab.node, len := data.length - 32 }
      if data.length < 32 ∨ ¬ s.fab.assigned ∨ s.fab.standin then s else addToken s t stream ⟨data.length, .packet p⟩
    else sendTokens (data.length / pay + 1) s t stream pay data
  | _, _ => s

/-! ### Serving work of other nodes (R75; 05 R138, R156) -/

/-- A serving context's program ends: the partial lists go back, or the failure does. It asks the other members first where the vectors' guard set is REBUILDING (10 R335). -/
def finishServing (s : State) (n c : Nat) (h : HeldWork) : State :=
  let r := serveMsg s h.work h.msg
  let fail := fun (x : State) (st : Nat) => endCtx (dropHeld (nackMsg x h.link h.msg (causeOf st)) h.work) n c st
  match r.2 with
  | .ok bs => endCtx (dropHeld (sendReplyMsg r.1 h.msg 2 bs) h.work) n c stDone
  | .err st => fail r.1 st
  | .need l =>
    let a := askAll s (askerOf h.tenant 0 h.work h.msg.epoch) h.msg.index l
    if a.2 then setCtx a.1 n c { getCtx a.1 n c with st := .waitStream, waitOn := noStream } else fail a.1 stRemote
  | .wait => s

/-- What the program's end does. A descriptor's own command ends an entry context (SEARCH and its like). -/
def finishOp (s : State) (n c : Nat) : State :=
  match (getCtx s n c).job with
  | .serving w =>
    match findHeld s w with
    | some h => finishServing s n c h
    | none => s
  | _ => s

/-- An SRAM row read with an error (13 R406 to R408): a corrected one changes nothing but counts; an uncorrectable one ends the context's request. The row number is macro × 512 + row. -/
def sramRead (s : State) (n c : Nat) (uncorrectable : Bool) (row : Nat) : State :=
  if uncorrectable then
    faultCtx (errEvent s 2 0x0011 (getCtx s n c).tenant (sqUnit n) row 1 (row / 512) (row % 512)) n c stMemory
  else moveError s 1 0x0010 (sqUnit n) (row / 512) (row % 512) row

/-- Writes within the context (R72). -/
def ctxWrite (x : Ctx) : CtxWrite → Ctx
  | .reg r l => { x with regs := tset x.regs r l }
  | .scalar o b => { x with scalar := memWrite x.scalar o b }
  | .scratch o b => { x with scratch := memWrite x.scratch o b }

/-- One issued instruction of context c (R66, R72). -/
def issue (s : State) (n c : Nat) : SqOp → State
  | .compute w => setCtx s n c (w.foldl ctxWrite (getCtx s n c))
  | .read r stream elems last => issueRead s n c r stream elems last
  | .waitStream stream dst => waitStreamOp s n c stream dst
  | .send stream data => sendOp s n c stream data
  | .sort r => sortReg s n c r
  | .merge a b => mergeRegs s n c a b
  | .remote slot op dst last => issueRemote s n c slot op dst last
  | .sramError u row => sramRead s n c u row
  | .finish => finishOp s n c

/-- SQUARE_CYCLE (R73): with no READY context the cycle is idle. -/
def execSquareCycle (n : Nat) (op : SqOp) (s : State) : Res :=
  onUnit s (wellFormed (.squareCycle n op)) <|
  if !sqRuns s n then s
  else
    match nextReady s n with
    | none => s
    | some c => issue (setSq s n { getSq s n with last := c }) n c op

/-! ### Returning elements (R70) -/

/-- What the memory unit finds as it reads the element: a fault of the medium stays with the medium. -/
def meetFault (s : State) : ElemResult → State
  | .data => s
  | .stackCheck ch b u => { s with ms := { s.ms with badBursts := if s.ms.badBursts.contains (ch, b, u) then s.ms.badBursts else s.ms.badBursts ++ [(ch, b, u)] } }
  | .stackUncorrectable ch b => { s with ms := { s.ms with badRows := if s.ms.badRows.contains (ch, b) then s.ms.badRows else s.ms.badRows ++ [(ch, b)] } }
  | .stackCorrected ch b => moveError s 4 0x0021 (stackUnit ch) b 0 b
  | .media ch key w => setCw s ch key w 16

/-- The bytes of an element in the node's own memory; bytes that no object holds read as zeros (log entry 64). -/
def readElem (s : State) (d : Desc) (num off n : Nat) : State × Ev (List Byte) :=
  match findObj s d.tenant num with
  | none => (s, .ok (zeros n))
  | some o =>
    let m := min n (o.size - off)
    bindEv (readLocal s d o off m) (fun s1 b => (s1, .ok (b ++ zeros (n - m))))

/-- The memory unit reads an element's bytes, and they reach the context, or the fault that the read meets does (08 R233; 05 R145). Units that are not rebuilt are asked of the other members, and the element stays outstanding (10 R335). -/
def returnElem (s : State) (n c slot : Nat) (e : Elem) (res : ElemResult) : State :=
  match e.addr with
  | .remote _ => s
  | .object k off =>
    let d := askerOf (getCtx s n c).tenant 3 (elemKey n c slot) 0
    let r := readElem (meetFault s res) d k off e.bytes
    match r.2 with
    | .ok b => elemDone (dropAsked r.1 d.q d.seq) n c slot 0 b
    | .err st => elemDone (dropAsked r.1 d.q d.seq) n c slot st []
    | .wait => s
    | .need l =>
      let a := askAll r.1 d k l
      if a.2 then a.1 else elemDone (dropAsked a.1 d.q d.seq) n c slot stRemote []

/-- An element that may not return yet: its request or a payload of its data is still on its way, its Square holds still (R86), or the flash that holds it is not ready (09 R291). -/
def elemWaits (s : State) (n c : Nat) (e : Elem) : Bool :=
  let onFlash := match e.addr with | .object k _ => (match findObj s (getCtx s n c).tenant k with | some o => o.tier == 3 | none => false) | .remote _ => false
  !e.left || e.due != 0 || sqFrozen s n || (onFlash && flashWait s)

/-- READ_ELEMENT_RETURN (R70): of an element of the node's own memory whose request has left and whose payloads have come. -/
def execReadElementReturn (n c r e : Nat) (res : ElemResult) (s : State) : Res :=
  onUnit s (wellFormed (.readElementReturn n c r e res)) <|
  match ((getCtx s n c).elems.find? (fun x => x.1 == 16 * r + e)).map Prod.snd with
  | some v => if v.returned || elemWaits s n c v then s else returnElem s n c (16 * r + e) v res
  | none => s

/-! ### Placing held work (R75; 07 R189) -/

/-- Takes the lowest free serving slot of the first assigned Square that has one, once the mutations of the work's epoch are applied; the link port's entries of the MESSAGE are then free (R93). -/
def placeHeld (s : State) (h : HeldWork) (p : Position) : State :=
  let sq := servSquares p h.msg.partition
  let early := match findIndex s h.tenant h.msg.index with | some ix => dirPending ix h.msg.epoch | none => false
  if early then s
  else if sq.all (fun i => sqServe p i == 0) then dropHeld (nackMsg s h.link h.msg 6) h.work
  else
    match sq.findSome? (freeServing s p) with
    | none => s
    | some (n, c) =>
      let s1 := occupy s n c (.serving h.work) h.tenant
      freeMsg { s1 with fab := { s1.fab with held := s1.fab.held.map (fun x => if x.work = h.work then { x with placed := some (n, c) } else x) } } h.link h.msg

/-- SERVING_CONTEXT_PLACE (R75). -/
def execServingContextPlace (work : Nat) (s : State) : Res :=
  onUnit s true <|
  match findHeld s work with
  | none => s
  | some h =>
    match posOf s h.tenant with
    | some p => if h.placed.isNone then placeHeld s h p else s
    | none => s

end Sys2Proof.Machine
end

