-- ==== Sys2Proof/Machine/Remote.lean ====
section
/-! DEFINITION. Packets and MESSAGEs that arrive at the link ports: what the target does, what the source does with a response, and the timers (10 R304 to R316, R322, R323, R332, R333; 03 R91; 07 R189, R217; 08 R232). -/

namespace Sys2Proof.Machine

open Sys2Proof

/-! ### The receiving port -/

/-- The port carries packets: the link is UP, a base layer is active (R295), and the node has a number outside stand-in mode (R304, R336). -/
def portOpen (s : State) (l : Nat) : Bool :=
  (getLink s l).st == 2 && s.bd.layer.isSome && s.fab.assigned && !s.fab.standin

/-- The node takes a packet of this operation that is addressed to it. -/
def takesPacket (s : State) (l op : Nat) (p : Packet) : Bool := portOpen s l && p.op == op && p.dst == s.fab.node

def takesMessage (s : State) (l kind : Nat) (m : Message) : Bool :=
  portOpen s l && m.kind == kind && m.dstNode == s.fab.node && m.dstDomain == s.fab.domain

/-- A packet that the node takes is served, and its entries are free. -/
def onPacket (s : State) (l op : Nat) (p : Packet) (f : State → State) : State := if takesPacket s l op p then freePacket (f s) l p else s

/-! ### T2 objects held for peers (R305, R308) -/

/-- The T2 object of the tenant that holds all n bytes at a global address. -/
def exportAt (s : State) (t a n : Nat) : Option Export :=
  if a / 2 ^ 40 ≠ s.fab.node then none
  else s.ms.exports.find? (fun e => e.tenant == t && decide (e.off ≤ a % 2 ^ 40) && decide (a % 2 ^ 40 + n ≤ e.off + e.size))

def putExport (s : State) (e : Export) : State :=
  { s with ms := { s.ms with exports := s.ms.exports.map (fun x => if x.tenant = e.tenant ∧ x.off = e.off then e else x) } }

def exportRead (s : State) (e : Export) (a n : Nat) : State × Except Nat (List Byte) :=
  readObj s (exportObj e) (a % 2 ^ 40 - e.off) n

def exportWrite (s : State) (e : Export) (a : Nat) (bs : List Byte) : State :=
  let o := a % 2 ^ 40 - e.off
  mendBursts (putExport s { e with data := memWrite e.data o bs }) (exportObj e) o bs.length

/-- The first check of R308 that a request fails: its cause, or the extent. -/
def checkReq (s : State) (p : Packet) (formatOk : Bool) (n : Nat) : Except Nat Export :=
  if (getT s p.tenant).tornDown then .error 3
  else if !formatOk then .error 1
  else
    match exportAt s p.tenant p.addr n with
    | none => .error 2
    | some e => if hasPos s p.tenant then .ok e else .error 5

/-- A LOAD's or a STORE's length and address (R307). -/
def spanOk (a n : Nat) : Bool := decide (8 ≤ n ∧ n ≤ 256) && decide (n % 8 = 0) && decide (a % 8 = 0) && decide (a % 256 + n ≤ 256)

def serveLoad (s : State) (l : Nat) (p : Packet) : State :=
  match checkReq s p (spanOk p.addr p.len) p.len with
  | .error c => nack s l p c
  | .ok e =>
    let r := exportRead s e p.addr p.len
    match r.2 with
    | .error _ => nack r.1 l p 4
    | .ok bs => reply r.1 l p 8 0 bs

def serveStore (s : State) (l : Nat) (p : Packet) : State :=
  match checkReq s p (spanOk p.addr p.len) p.len with
  | .error c => nack s l p c
  | .ok e => reply (exportWrite s e p.addr p.data) l p 9 0 []

def serveFlag (s : State) (l : Nat) (p : Packet) : State :=
  match checkReq s p (decide (p.addr % 8 = 0) && p.len == 0) 8 with
  | .error c => nack s l p c
  | .ok e => reply (exportWrite s e p.addr (toLE 8 p.operand)) l p 9 0 []

/-- The new value of an ATOMIC's word (R307). -/
def atomicValue (sub m operand new : Nat) : Nat :=
  match sub with
  | 0 => (m + operand) % 2 ^ 64
  | 1 => if m = operand then new else m
  | _ => max m operand

def atomicOk (p : Packet) : Bool := decide (p.sub ≤ 2) && decide (p.addr % 8 = 0) && p.len == (if p.sub = 1 then 8 else 0)

def serveAtomic (s : State) (l : Nat) (p : Packet) : State :=
  match checkReq s p (atomicOk p) 8 with
  | .error c => nack s l p c
  | .ok e =>
    let r := exportRead s e p.addr 8
    match r.2 with
    | .error _ => nack r.1 l p 4
    | .ok old => reply (exportWrite r.1 e p.addr (toLE 8 (atomicValue p.sub (leNat old) p.operand (leNat p.data)))) l p 8 0 old

/-- LOAD (R307). -/
def execLoad (l : Nat) (p : Packet) (s : State) : Res :=
  onUnit s (wellFormed (.load l p)) (onPacket s l 1 p (fun x => serveLoad x l p))

/-- STORE (R307, R309). -/
def execStore (l : Nat) (p : Packet) (s : State) : Res :=
  onUnit s (wellFormed (.store l p)) (onPacket s l 2 p (fun x => serveStore x l p))

/-- STORE_FLAG at its target (R307). -/
def execStoreFlag (l : Nat) (p : Packet) (s : State) : Res :=
  onUnit s (wellFormed (.storeFlag l p)) (onPacket s l 3 p (fun x => serveFlag x l p))

/-- ATOMIC (R307, R309). -/
def execAtomic (l : Nat) (p : Packet) (s : State) : Res :=
  onUnit s (wellFormed (.atomic l p)) (onPacket s l 4 p (fun x => serveAtomic x l p))

/-! ### Flash contents for other nodes (R332, R333) -/

def greadOk (p : Packet) : Bool :=
  let b := fieldAt p.data 0 4
  let n := fieldAt p.data 4 4
  p.len == 8 && decide (b % 64 = 0) && decide (n % 64 = 0) && decide (64 ≤ n) && decide (b + n ≤ pageBytes)

/-- Keeps a request for flash contents in the receive buffer until the flash is ready (09 R291). -/
def holdFlash (s : State) (w : FlashWait) : State := { s with fab := { s.fab with flashHeld := s.fab.flashHeld ++ [w] } }

/-- The object of a GREAD, or the cause that refuses it. -/
def greadObj (s : State) (p : Packet) : Except Nat Obj :=
  if (getT s p.tenant).tornDown then .error 3
  else if !greadOk p then .error 1
  else
    match findObj s p.tenant (p.addr % 2 ^ 32) with
    | none => .error 2
    | some o =>
      if o.tier ≠ 3 ∨ o.size < p.addr / 2 ^ 32 * pageBytes + fieldAt p.data 0 4 + fieldAt p.data 4 4 then .error 2
      else if !hasPos s p.tenant then .error 5
      else .ok o

/-- A GREAD is answered with the bytes, or refused. It waits while flash is recovered (09 R291), and for the other members' units where this node's set is REBUILDING (R335). -/
def serveGread (s : State) (l : Nat) (p : Packet) : State :=
  match greadObj s p with
  | .error c => freePacket (nack s l p c) l p
  | .ok o =>
    let d := askerOf p.tenant 2 (greadKey p) 0
    let r := readLocal s d o (p.addr / 2 ^ 32 * pageBytes + fieldAt p.data 0 4) (fieldAt p.data 4 4)
    match r.2 with
    | .ok bs => freePacket (reply (dropAsked r.1 d.q d.seq) l p 8 0 bs) l p
    | .err st => freePacket (nack (dropAsked r.1 d.q d.seq) l p (causeOf st)) l p
    | .wait => holdFlash s (.read l p)
    | .need q =>
      let a := askAll s d o.num q
      if a.2 then holdFlash a.1 (.read l p) else freePacket (nack (dropAsked a.1 d.q d.seq) l p (causeOf stRemote)) l p

/-- GREAD (R333). -/
def execGread (l : Nat) (p : Packet) (s : State) : Res :=
  onUnit s (wellFormed (.gread l p)) (if takesPacket s l 6 p then serveGread s l p else s)

/-- The parity unit with a delta of a column applied: p xor (α^c)^p · delta. -/
def parityApply (parity column : Nat) (old delta : List Byte) : List Byte :=
  xorBytes old (gfScale (gfPow (gfAlpha column) parity) delta)

/-- The parity object, the parity number and the parity unit of a delta, or the cause that refuses it. -/
def deltaObj (s : State) (m : Message) : Except Nat (Obj × Nat) :=
  let stripe := fieldAt m.body 0 4
  let column := fieldAt m.body 4 4
  if (getT s m.tenant).tornDown then .error 3
  else if !hasPos s m.tenant then .error 5
  else
    match (s.fab.guards.find? (fun g => g.1 == m.index && g.2.st != 0 && g.2.tenant == m.tenant)).map Prod.snd, s.fab.group with
    | some gs, some g =>
      let role := guardMember g.gsize gs.p g.pos stripe
      let k := guardK g.gsize gs.p
      (match findObj s m.tenant gs.parObj with
       | some o =>
         if role.1 < k ∨ role.2 ≠ m.partition ∨ k ≤ column ∨ m.body.length ≠ 8 + pageBytes ∨ o.tier ≠ 3 ∨ o.size < (m.partition + 1) * pageBytes
         then .error 1
         else .ok (o, role.1 - k)
       | none => .error 2)
    | _, _ => .error 2

/-- Applies a delta as a whole-page write, and acknowledges once the program has succeeded (R332). -/
def applyDelta (s : State) (l : Nat) (m : Message) (o : Obj) (parity : Nat) : State :=
  let r := readObj s o (m.partition * pageBytes) pageBytes
  match r.2 with
  | .error st => nackMsg r.1 l m (causeOf st)
  | .ok old =>
    let w := writeObj r.1 o (m.partition * pageBytes) (parityApply parity (fieldAt m.body 4 4) old (m.body.drop 8))
    match w.2 with
    | some st => nackMsg w.1 l m (causeOf st)
    | none => ackMsg w.1 l m

/-- A holder of parity takes a delta; while flash is recovered it waits (09 R291). -/
def serveDelta (s : State) (l : Nat) (m : Message) : State :=
  match deltaObj s m with
  | .error c => freeMsg (nackMsg s l m c) l m
  | .ok x => if flashWait s then holdFlash s (.delta l m) else freeMsg (applyDelta s l m x.1 x.2) l m

/-- GUARD_DELTA (R332). -/
def execGuardDelta (l : Nat) (m : Message) (s : State) : Res :=
  onUnit s (wellFormed (.guardDelta l m)) (if takesMessage s l 5 m then serveDelta s l m else s)

/-- Serves what has waited for the flash, or for other members' units. -/
def serveFlash (s : State) : State :=
  s.fab.flashHeld.foldl (fun a w =>
    match w with
    | .read l p => serveGread a l p
    | .delta l m => serveDelta a l m) { s with fab := { s.fab with flashHeld := [] } }

/-! ### Responses at the source (R91, R308, R316) -/

/-- The Square whose context waits for the request holds still: its response stays at the link port (R91). -/
def respHeld (s : State) (r : Req) : Bool := match r.src with | .elem n _ _ => sqFrozen s n | _ => false

/-- The response that a request waits for comes from the node it went to. -/
def reqOf (s : State) (p : Packet) : Option Req := s.fab.reqs.find? (fun r => r.tag == p.tag && r.target == p.src && r.tenant == p.tenant)

/-- A context that waits for other nodes is READY again. -/
def wakeCtx (s : State) (n c : Nat) : State :=
  let x := getCtx s n c
  if x.st = .waitStream then setCtx s n c { x with st := .ready }
  else if x.st = .frozen ∧ x.held = .waitStream then setCtx s n c { x with held := .ready }
  else s

/-- What has asked goes on: the entry context of a descriptor, the serving context of a MESSAGE, a GREAD. A channel engine and an element find the reply at their own next command. -/
def wakeAsker (s : State) (q : QId) (key : Nat) : State :=
  match q with
  | .tenant _ 64 => match (findHeld s key).bind (fun h => h.placed) with | some (n, c) => wakeCtx s n c | none => s
  | .tenant _ 66 => serveFlash s
  | _ =>
    match findDesc s q key with
    | some d => (match d.phase with | .placed n c => wakeCtx s n c | _ => s)
    | none => s

/-- Notes the reply to a question. -/
def noteReply (s : State) (msgId : Nat) (bs : List Byte) : State :=
  match s.fab.sent.find? (fun m => m.msgId == msgId) with
  | none => s
  | some m =>
    let l := s.fab.sent.map (fun x => if x.msgId = msgId then { x with reply := some bs } else x)
    wakeAsker { s with fab := { s.fab with sent := l } } m.q m.seq

/-- Bytes of a T2 object that go on to a fabric destination: STOREs take the place of the LOAD (08 R239). -/
def forwardBytes (s : State) (q : QId) (seq tag dst : Nat) (bs : List Byte) : State :=
  match findDesc s q seq with
  | none => s
  | some d =>
    match sendStores s d.tenant dst bs (.desc q seq) with
    | none => remoteDone s q seq tag stRemote
    | some r =>
      match d.work with
      | .forwarding tags f => putDesc r.2 { d with work := .forwarding (tags.filter (fun x => x != tag) ++ r.1) f }
      | _ => r.2

/-- Bytes that a MOVE copies land in its copy. -/
def copyBytes (s : State) (q : QId) (seq off : Nat) (bs : List Byte) : State :=
  let f := fun (j : PlaceJob) =>
    if j.q = q ∧ j.seq = seq then { j with dest := j.dest.map (fun o => { o with data := memWrite o.data off bs }) } else j
  { s with ms := { s.ms with jobs := s.ms.jobs.map f } }

/-- Data reaches what asked for it. -/
def takeData (s : State) (r : Req) (bs : List Byte) : State :=
  let s1 := dropReq s r.tag
  match r.src with
  | .elem n c slot => elemDone s1 n c slot 0 bs
  | .hostRead q seq host => remoteDone (hostWrite s1 r.tenant host bs) q seq r.tag 0
  | .copy q seq off => remoteDone (copyBytes s1 q seq off bs) q seq r.tag 0
  | .forward q seq dst => forwardBytes s1 q seq r.tag dst bs
  | .message _ _ m => noteReply s1 m bs
  | .desc q seq => remoteDone s1 q seq r.tag 0
  | .guard set pos stripe =>
    let g := getGuard s1 set
    setGuard s1 set { g with asked := g.asked - 1, shards := g.shards ++ [(pos, stripe, bs)] }
  | .none => s1

/-- An acknowledgement reaches what waits for it. A query's MESSAGE then waits for its LIST. -/
def takeAck (s : State) (r : Req) : State :=
  let s1 := dropReq s r.tag
  match r.src with
  | .elem n c slot => elemDone s1 n c slot 0 []
  | .desc q seq => remoteDone s1 q seq r.tag 0
  | _ => s1

/-- A T2 object that its peer no longer holds reads LOST (08 R232). -/
def markLost (s : State) (r : Req) : State :=
  setObjs s (s.ms.objs.map (fun o =>
    if o.tenant = r.tenant ∧ o.tier = 2 ∧ o.peer = r.target ∧ o.goff ≤ r.addr % 2 ^ 40 ∧ r.addr % 2 ^ 40 < o.goff + o.size then { o with st := 3 } else o))

def takeNack (s : State) (r : Req) (cause : Nat) : State :=
  faultReq (if cause = 2 ∧ r.op ≠ 5 ∧ r.op ≠ 6 then markLost s r else s) r (nackStatus cause)

/-- The operations that a response may answer (R307). -/
def answers (resp op : Nat) : Bool :=
  if resp = 8 then op == 1 || op == 4 || op == 6 else if resp = 9 then op == 2 || op == 3 || op == 5 else resp == 0xA

/-- A response of a request that is still outstanding. -/
def takeResponse (s : State) (p : Packet) : State :=
  match reqOf s p with
  | none => s
  | some r =>
    if !answers p.op r.op then s
    else if p.op = 8 then takeData s r p.data
    else if p.op = 9 then takeAck s r
    else takeNack s r p.sub

/-- A response arrives: it is held for a Square that holds still; one that nothing waits for is discarded (R323). -/
def arriveResponse (s : State) (l : Nat) (p : Packet) : State :=
  match reqOf s p with
  | none => freePacket s l p
  | some r =>
    if respHeld s r then { s with fab := { s.fab with portHeld := s.fab.portHeld ++ [(l, p)] } }
    else freePacket (takeResponse s p) l p

/-- Delivers the responses that were held for the Squares that move again (R91). -/
def deliverHeld (s : State) : State :=
  s.fab.portHeld.foldl (fun a x => arriveResponse a x.1 x.2) { s with fab := { s.fab with portHeld := [] } }

/-- DATA (R307). -/
def execData (l : Nat) (p : Packet) (s : State) : Res :=
  onUnit s (wellFormed (.data l p)) (if takesPacket s l 8 p then arriveResponse s l p else s)

/-- ACK (R307, R316). -/
def execAck (l : Nat) (p : Packet) (s : State) : Res :=
  onUnit s (wellFormed (.ack l p)) (if takesPacket s l 9 p then arriveResponse s l p else s)

/-- A NACK of a MESSAGE that was already acknowledged names it by its TAG (R95). -/
def lateNack (s : State) (p : Packet) : State :=
  match s.fab.sent.find? (fun m => m.msgId == p.tag && m.reply.isNone) with
  | some m => faultSrc s (.message m.q m.seq m.msgId) p.tag (nackStatus p.sub)
  | none => s

/-- NACK (R308): counted, and what waits ends with the cause's status. -/
def execNack (l : Nat) (p : Packet) (s : State) : Res :=
  onUnit s (wellFormed (.nack l p)) <|
  if takesPacket s l 0xA p then
    let s1 := cntFab s 7 1
    if (reqOf s p).isSome then arriveResponse s1 l p else freePacket (lateNack s1 p) l p
  else s

/-! ### Store order and timers (R311, R322, R323) -/

/-- An earlier store, flag or atomic of the tenant is still open. -/
def earlierOpen (s : State) (f : FlagWait) : Bool :=
  s.fab.reqs.any (fun r => r.tenant == f.tenant && isStoreOp r.op && seqBefore r.seq f.seq)
    || s.fab.flags.any (fun x => x.tenant == f.tenant && seqBefore x.seq f.seq)

/-- Sends a STORE_FLAG under its own tag and number, or ends it with a fault. -/
def sendFlag (s : State) (f : FlagWait) : State :=
  let s1 := { s with fab := { s.fab with flags := s.fab.flags.filter (fun x => x.tag != f.tag) } }
  let dst := f.addr / 2 ^ 40 % 256
  let req := fun (l : Nat) => ({ tag := f.tag, tenant := f.tenant, target := dst, op := 3, link := l, seq := f.seq, addr := f.addr, src := f.src } : Req)
  if f.faulted then faultReq s1 (req 0) stRemote
  else
    match linkFor s f.tenant dst f.addr with
    | none => faultReq s1 (req 0) stRemote
    | some l =>
      let p : Packet := { mkPacket 3 0 0 f.addr f.value [] with tenant := f.tenant, src := s.fab.node, dst := dst, tag := f.tag, seq := f.seq }
      (linkToken { s1 with fab := { s1.fab with reqs := s1.fab.reqs ++ [req l] } } f.tenant l 1 (srcSquare f.src) (.packet p)).1

/-- STORE_FLAG_SEND (R311): the flag leaves once every earlier store of its tenant has been answered. -/
def execStoreFlagSend (tenant tag : Nat) (s : State) : Res :=
  onUnit s (wellFormed (.storeFlagSend tenant tag)) <|
  match s.fab.flags.find? (fun f => f.tenant == tenant && f.tag == tag) with
  | some f => if earlierOpen s f then s else sendFlag s f
  | none => s

/-- The timer of a request does not run before its last flit has left (R322), while its link retrains (R300), and while its response is held (R91). -/
def timerPaused (s : State) (r : Req) : Bool :=
  !r.sent || (getLink s r.link).st == 3 || s.fab.portHeld.any (fun x => x.2.tag == r.tag)

/-- A timer expires (R323); of a torn-down tenant it is counted and not reported (R324). -/
def timeout (s : State) (r : Req) : State :=
  let s1 := countUnit (cntEr (cntFab s 6 1) 9 1) (linkUnit r.link) false 0
  let s2 := if (getT s r.tenant).tornDown then s1 else report s1 0x0061 2 r.tenant (linkUnit r.link) r.target r.op r.link
  faultReq s2 r stRemote

/-- REMOTE_TIMEOUT (R323). -/
def execRemoteTimeout (tag : Nat) (s : State) : Res :=
  onUnit s true <|
  match findReq s tag with
  | some r => if timerPaused s r then s else timeout s r
  | none => s

/-! ### MESSAGEs (R315, R316) -/

/-- Work for a serving context: acknowledged once it lies in the receive buffer, and held there (R93, R316). -/
def holdWork (s : State) (l : Nat) (m : Message) : State :=
  if (getT s m.tenant).tornDown then freeMsg (nackMsg s l m 3) l m
  else if !hasPos s m.tenant then freeMsg (nackMsg s l m 5) l m
  else
    let s1 := ackMsg s l m
    { s1 with fab := { s1.fab with nextWork := s1.fab.nextWork + 1, held := s1.fab.held ++ [{ work := s1.fab.nextWork, tenant := m.tenant, msg := m, link := l }] } }

/-- QUERY (R138, R315). -/
def execQueryMessage (l : Nat) (m : Message) (s : State) : Res :=
  onUnit s (wellFormed (.queryMessage l m)) (if takesMessage s l 1 m then holdWork s l m else s)

/-- SCAN_SLICE (R156). -/
def execScanSlice (l : Nat) (m : Message) (s : State) : Res :=
  onUnit s (wellFormed (.scanSlice l m)) (if takesMessage s l 6 m then holdWork s l m else s)

/-- RERANK (R156). -/
def execRerankMessage (l : Nat) (m : Message) (s : State) : Res :=
  onUnit s (wellFormed (.rerankMessage l m)) (if takesMessage s l 7 m then holdWork s l m else s)

/-- A reply that names a MESSAGE: refused with the tenant's state, else acknowledged and given to the one that asked. -/
def admitMsg (s : State) (l : Nat) (m : Message) (f : State → State) : State :=
  let s1 :=
    if (getT s m.tenant).tornDown then nackMsg s l m 3
    else if !hasPos s m.tenant then nackMsg s l m 5
    else f (ackMsg s l m)
  freeMsg s1 l m

/-- LIST (R169): partial lists return to the entry context; of a request that has ended they are discarded (R158). -/
def execListMessage (l : Nat) (m : Message) (s : State) : Res :=
  onUnit s (wellFormed (.listMessage l m)) (if takesMessage s l 2 m then admitMsg s l m (fun x => noteReply x m.msgId m.body) else s)

/-- The ring of this node's journal that takes a member's records: 1 from POS − 1, 2 from POS − 2 (R217). -/
def ringFor (s : State) (node : Nat) : Option Nat :=
  match s.fab.group with
  | none => none
  | some g =>
    if memberAt g (g.pos + g.gsize - 1) = node then some 1
    else if memberAt g (g.pos + g.gsize - 2) = node then some 2
    else none

/-- A peer's journal record goes to ring 1 or ring 2 of the journal of the same index; one that does not fit is refused (R217, R218). -/
def takeJournal (s : State) (l : Nat) (m : Message) : State :=
  if (getT s m.tenant).tornDown then nackMsg s l m 3
  else if !hasPos s m.tenant then nackMsg s l m 5
  else
    match ringFor s m.srcNode, ((findIndex s m.tenant m.index).bind (fun ix => ix.journal)).bind (findObj s m.tenant) with
    | none, _ => nackMsg s l m 1
    | some _, none => nackMsg s l m 2
    | some j, some o =>
      match jAppend o.data j m.body with
      | none => nackMsg s l m 6
      | some d => sendReplyMsg (ackMsg (storeJournal s o j m.body.length d) l m) m 4 []

/-- JOURNAL (R217). -/
def execJournalMessage (l : Nat) (m : Message) (s : State) : Res :=
  onUnit s (wellFormed (.journalMessage l m)) (if takesMessage s l 3 m then freeMsg (takeJournal s l m) l m else s)

/-- A member's acknowledgement of a journalled write. -/
def ackJournal (s : State) (m : Message) : State :=
  match s.fab.group, findIndex s m.tenant m.index with
  | some g, some ix =>
    let first := memberAt g (g.pos + 1) == m.srcNode
    let second := memberAt g (g.pos + 2) == m.srcNode
    putIndex s { ix with writes := ix.writes.map (fun w =>
      if w.epoch = m.epoch then { w with ack1 := w.ack1 || first, ack2 := w.ack2 || second } else w) }
  | _, _ => s

/-- JOURNAL_ACK (R217). -/
def execJournalAck (l : Nat) (m : Message) (s : State) : Res :=
  onUnit s (wellFormed (.journalAck l m)) (if takesMessage s l 4 m then admitMsg s l m (fun x => ackJournal x m) else s)

end Sys2Proof.Machine
end

