-- ==== Sys2Proof/Machine/FlashCmds.lean ====
section
/-! DEFINITION. Flash as a medium: format, checkpoints, stripe closing, program and erase failures, codeword reads, garbage collection and recovery (09 R254 to R291). -/

namespace Sys2Proof.Machine

open Sys2Proof

def failFlash (s : State) (e : Nat) : State := { s with fl := { s.fl with fail := true, err := e } }

/-- The flash carries a format and is in service. -/
def flashReady (s : State) : Bool := s.fl.fmtW != 0 && s.fl.fstate == 5

/-! ### Health events (R284, R285) -/

/-- Spare pages of a channel as a share of their value at format, in percent (R284). -/
def spareLeft (s : State) (c : Nat) : Nat :=
  let x := getCh s c
  if x.spareAtFormat = 0 then 0 else (dataPages s s.fl.fmtW c - x.luCount) * 100 / x.spareAtFormat

/-- EW_SPARE_LOW on every channel of a group whose spare pages have fallen below the threshold. -/
def checkSpare (s : State) (g : Nat) : State :=
  (groupChans s.fl.fmtW g).foldl (fun a c =>
    let x := getCh a c
    if !x.spareLowRaised && decide ((dataPages a a.fl.fmtW c - x.luCount) * 100 < a.fl.ewSpare * x.spareAtFormat) then
      raise (setCh a c { x with spareLowRaised := true }) 0x0040 1 0x7F (engineUnit c 0) c (spareLeft a c) 0
    else a) s

/-- Mean erase count of a die. -/
def meanErases (x : Channel) (chip : Nat) : Nat :=
  if blocksOf x = 0 then 0 else ((getDie x chip).blocks.map (fun e => e.2.erases)).sum / blocksOf x

/-- EW_WEAR, once for a die. -/
def checkWear (s : State) (c chip : Nat) : State :=
  let x := getCh s c
  if !(getDie x chip).wearRaised && decide (s.fl.ewWear * x.geom.peRated ≤ meanErases x chip * 100) then
    raise (setCh s c (setDie x chip { getDie x chip with wearRaised := true })) 0x0041 1 0x7F (engineUnit c chip) c chip (meanErases x chip)
  else s

/-- EW_DIE_DEGRADED, once for a die. -/
def degrade (s : State) (c chip : Nat) (notReady : Bool) : State :=
  let x := getCh s c
  if (getDie x chip).degraded then s
  else
    raise (setCh s c (setDie x chip { getDie x chip with degraded := true })) 0x0044 1 0x7F (engineUnit c chip) c chip (Config.degradeCause notReady)

/-! ### Format (R259 to R262) -/

/-- A die that the node supports (R255). -/
def geomOk (g : DieGeom) : Bool :=
  g.nvlp && g.pageData == pageBytes && g.planeReads && g.onePass && g.levels
    && (g.planes == 1 || g.planes == 2 || g.planes == 4) && decide (64 ≤ g.blocks ∧ g.blocks ≤ 8191) && decide (256 ≤ g.pages ∧ g.pages ≤ 4096)
    && decide (g.planes * g.blocks * g.pages ≤ 2 ^ 23) && decide (2048 ≤ g.spareBytes) && g.suspend

/-- The stripe width that FL_FORMAT_ARG names; 0 for the reserved code. -/
def widthOf (code : Nat) : Nat := match code with | 0 => 16 | 1 => 8 | 2 => 32 | _ => 0

/-- Every populated channel alike, and only channels of complete groups populated (R255, R259, R260). -/
def geometryOk (s : State) (w op : Nat) : Bool :=
  let l := fittedChans s
  decide (w ≠ 0) && decide (7 ≤ op ∧ op ≤ 28) && !l.isEmpty
    && l.all (fun c =>
        let x := getCh s c
        let y := getCh s (l.headD 0)
        geomOk x.geom && decide (x.dies ≤ 8) && x.dies == y.dies && x.geom == y.geom && (groupChans w (c / w)).all (fun m => (getCh s m).dies != 0))

/-- FL_FORMAT_CMD written with FORMAT = 1. -/
def startFormat (s : State) (confirm : Nat) : State :=
  let w := widthOf s.fl.stripeW
  if confirm ≠ 0xF1A5 then failFlash s 5
  else if s.bd.layer.isNone ∨ !s.bd.positions.isEmpty ∨ s.fl.fstate = 3 ∨ s.fl.fstate = 4 then failFlash s 1
  else if !geometryOk s w s.fl.opPct then failFlash s 2
  else if 64 * 10 ^ 12 < rawCapacity s then failFlash s 3
  else { s with fl := { s.fl with fstate := 3, format := some (w, s.fl.opPct, s.fl.fstate) } }

/-- FORMAT (R259). -/
def execFormat (fn : Nat) (value : BitVec 32) (s : State) : Res :=
  onUnit s (wellFormed (.format fn value)) (pfWrite s fn 0x700018 (fun x => if bit value.toNat 0 then startFormat x (bits value.toNat 16 16) else x))

def chipsOf (x : Channel) : List Nat := List.range x.dies ++ (if x.spare || x.migrated.isSome then [8] else [])

/-- Marks the factory bad blocks that the format has found. -/
def markBad (s : State) (bad : List (Nat × Nat × Nat)) : State :=
  bad.foldl (fun a b =>
    let x := getCh a b.1
    if b.2.2 < blocksOf x ∧ (chipsOf x).contains b.2.1 then setCh a b.1 (setBlock x b.2.1 b.2.2 { getBlock x b.2.1 b.2.2 with bad := true }) else a) s

/-- A die with every good block erased once more; what is counted since format starts anew. -/
def eraseDie (x : Channel) (chip : Nat) : Channel :=
  let d := getDie x chip
  setDie x chip
    { d with retired := 0, degraded := false, wearRaised := false, reads := 0, retries := 0,
             blocks := (List.range (blocksOf x)).map (fun b => (b, let k := tget {} d.blocks b; if k.bad then k else { k with erases := k.erases + 1 })) }

/-- A channel emptied, with its format record and its first root. -/
def formatChannel (s : State) (w op fmt c : Nat) : State :=
  let x := (chipsOf (getCh s c)).foldl eraseDie (getCh s c)
  let s1 := setCh s c
    { x with luCount := luOf s w op c, spareAtFormat := dataPages s w c - luOf s w op c, spareLowRaised := false, ckptNum := x.ckptNum + 1,
             ckptTick := s.tempo, since := 0, force := false, dirty := [], nextDie := 0, map := [], free := 0, freed := [], pages := [],
             roots := [], rootBlk := 0, rootPage := 0, segs := [], fmt := some ⟨w, op, fmt⟩ }
  let q := (liveChips x).map (fun k => (k, recordQueue s1 c k))
  let s2 := appendRoot (setCh s1 c { getCh s1 c with queue := q }) c { num := x.ckptNum + 1, seq := x.seq, fmtId := fmt, pages := [], queues := q }
  (chipsOf x).foldl (fun a k => checkWear a c k) s2

/-- Blocks of a channel that a format erases: every good one. -/
def erasedBlocks (x : Channel) : Nat :=
  ((chipsOf x).map (fun k => ((List.range (blocksOf x)).filter (fun b => !(getBlock x k b).bad)).length)).sum

def endFormat (s : State) (w op prior : Nat) (bad : List (Nat × Nat × Nat)) : State :=
  let s1 := markBad s bad
  let l := fittedChans s1
  let cap := (l.map (fun c => luOf s1 w op c * pageBytes)).sum
  let need := match s.bd.layer with | some b => b.capT3 | none => 0
  if cap < need then failFlash { s with fl := { s.fl with fstate := prior, format := none } } 3
  else
    let d := draw s1
    let fmt := Config.fmtId d.1
    let s2 := { d.2 with fl := { d.2.fl with supers := [], superNum := [], badCw := [], retained := [], fmtW := w, fmtOp := op, fmtId := fmt } }
    let s3 := cntFl (l.foldl (fun a c => formatChannel a w op fmt c) s2) 6 ((l.map (fun c => erasedBlocks (getCh s1 c))).sum)
    let s4 := setObjs s3 (s3.ms.objs.filter (fun o => o.tier != 3))
    serveFlash { s4 with fl := { s4.fl with fstate := 5, done := true, err := 0, format := none } }

/-- FORMAT_END (R259): the factory bad blocks found, by channel, chip enable and block. -/
def execFormatEnd (bad : List (Nat × Nat × Nat)) (s : State) : Res :=
  onUnit s true <|
  match s.fl.format with
  | some (w, op, prior) => endFormat s w op prior bad
  | none => s

/-! ### Checkpoints (R286, R287) -/

/-- CHECKPOINT_FORCE (R286): tenant 0 writes FL_CKPT_CMD.FORCE. -/
def execCheckpointForce (fn : Nat) (s : State) : Res :=
  onUnit s (wellFormed (.checkpointForce fn)) (pfWrite s fn 0x700060 (fun x => (fittedChans x).foldl (fun a c => setCh a c { getCh a c with force := true }) x))

def ticksPerMs : Nat := 156250

/-- A checkpoint of the channel is due: 65,536 pages, 5 s with a page programmed, or a command. -/
def checkpointDue (s : State) (c : Nat) : Bool :=
  let x := getCh s c
  decide (x.dies ≠ 0) && (x.force || decide (65536 ≤ x.since) || (decide (0 < x.since) && decide (5000 * ticksPerMs ≤ s.tempo - x.ckptTick)))

/-- CHECKPOINT (R286, R287). -/
def execCheckpoint (ch : Nat) (s : State) : Res :=
  onUnit s (wellFormed (.checkpoint ch)) (if flashReady s && checkpointDue s ch then takeCheckpoint s ch else s)

/-! ### Stripes -/

def closeTicks (s : State) : Nat := (if 1 ≤ s.fl.closeMs ∧ s.fl.closeMs ≤ 5000 then s.fl.closeMs else 5000) * ticksPerMs

/-- STRIPE_CLOSE_TIMER (R275): the oldest open stripe of a group has been open for CLOSE_MS. -/
def execStripeCloseTimer (g d : Nat) (s : State) : Res :=
  onUnit s (wellFormed (.stripeCloseTimer g d)) <|
  match oldestOpen s g d with
  | some x => if flashReady s && decide (closeTicks s ≤ s.tempo - x.opened.headD 0) then closeOldest s x else s
  | none => s

/-! ### A failed program (R277) -/

/-- A parity page whose program failed: its stripe and every later one of the superblock are unprotected, and no further stripe opens in it. -/
def parityFailed (s : State) (x : Super) (k : Nat) : State :=
  putSuper s { x with unprotectedFrom := min x.unprotectedFrom k, retiredOpen := true }

/-- The parity of a stripe that closed in the same step is programmed without the failed page. -/
def parityAnew (s : State) (x : Super) (k : Nat) : State :=
  let w := s.fl.fmtW
  let c := w * x.g + parityMember w x
  let key := memberKey s w x (parityMember w x) k
  match findPage s c key with
  | some p =>
    let ps := stripePages s w x k
    let y := getCh s c
    setCh s c { y with pages := tset y.pages key { p with data := ps.foldl (fun a q => memXor a q.data) [], hdrXor := ps.foldl (fun a q => xorBytes a (headerBytes q)) (zeros 64) } }
  | none => s

/-- A data member's page whose program failed: it and every later page of the block are ABSENT, and its data is programmed as the channel's next page. With no free block left for that the unit is LOST, so that its reads end with FAULT_MEDIA (R280 speaks of a request, and this write's may have completed; DESIGN CHOICE, log entry 68). -/
def dataFailed (s : State) (x : Super) (m k : Nat) (p : Page) (c d : Nat) : State :=
  let w := s.fl.fmtW
  let y := { x with absentFrom := x.absentFrom.set m k, next := x.next.set m k }
  let s1 := putSuper s y
  let s2 := if k < y.closed then parityAnew s1 y k else closeFull 65 s1 y.g y.d y.num
  let old := memberBlock x m * pagesOf (getCh s (w * x.g + m)) + k
  let mine := p.kind = 0 ∧ luEntry s c p.lu = some (.page d old)
  match programData s2 c 0 p.kind p.lu p.data with
  | some (nd, key, s3) =>
    if mine then setLu s3 c p.lu (.page nd (key % 2 ^ 23))
    else if p.kind = 3 ∧ (tget 0 (getCh s c).segs p.lu) = pageKey (memberChip x m) old then setCh s3 c { getCh s3 c with segs := tset (getCh s3 c).segs p.lu key }
    else s3
  | none => if mine then setLu s2 c p.lu .lost else s2

/-- The page leaves the medium, and the failure is counted and logged. -/
def programFailed (s : State) (c chip page : Nat) : State :=
  match stripeOf s c chip page, findPage s c (pageKey chip page) with
  | some (x, m, k), some p =>
    if memberNext x m ≠ k + 1 then s
    else
      let y := getCh s c
      let s1 := setCh s c { y with pages := tdel y.pages (pageKey chip page) }
      let s2 := errEvent (cntFl s1 5 1) 7 0x0031 0x7F (engineUnit c chip) page page 0 0
      if m = parityMember s.fl.fmtW x then parityFailed s2 x k else dataFailed s2 x m k p c x.d
  | _, _ => s

/-- PROGRAM_FAIL (R277): the last page programmed of a block reports a failure. -/
def execProgramFail (ch die page : Nat) (s : State) : Res :=
  onUnit s (wellFormed (.programFail ch die page)) (programFailed s ch die page)

/-! ### A failed erase (R281) -/

def retireBlock (s : State) (c chip b : Nat) : State :=
  let x := setBlock (getCh s c) chip b { getBlock (getCh s c) chip b with bad := true }
  let d := getDie x chip
  let s1 := cntFl (setCh s c (setDie x chip { d with retired := d.retired + 1 })) 7 1
  let s2 := raise { s1 with er := { s1.er with retired := true } } 0x0043 3 0x7F (engineUnit c chip) c chip b
  let s3 := if s.fl.ewRetired ≤ d.retired + 1 then degrade s2 c chip false else s2
  checkSpare s3 (c / s.fl.fmtW)

/-- ERASE_FAIL (R281): a block that no superblock uses fails to erase. -/
def execEraseFail (ch die block : Nat) (s : State) : Res :=
  onUnit s (wellFormed (.eraseFail ch die block)) <|
  if decide (s.fl.fmtW ≠ 0) && dieFitted s ch die && (freeBlocks s ch die).contains block then retireBlock s ch die block else s

/-- DIE_READY_TIMEOUT (R284): no ready status within 100 ms. -/
def execDieReadyTimeout (ch die : Nat) (s : State) : Res :=
  onUnit s (wellFormed (.dieReadyTimeout ch die)) (if dieFitted s ch die then degrade s ch die true else s)

/-! ### Codewords (R270 to R272) -/

/-- The tenant whose object's unit stands on a page; 0x7F for none. -/
def pageOwner (s : State) (c chip page : Nat) : Nat :=
  match (getCh s c).map.find? (fun e => match e.2 with | .page d p => keyOf s c d p == pageKey chip page | .lost => false) with
  | some e => luOwner s c e.1
  | none => 0x7F

/-- A codeword is read, and its decoding goes as `res` says: the medium's state of it follows, and the read is one of R270. -/
def readCodeword (s : State) (c chip page cw : Nat) (res : CwOutcome) : State :=
  let key := pageKey chip page
  let owner := pageOwner s c chip page
  match res with
  | .decoded n => (readCw (setCw s c key cw (min n 15)) c key cw).1
  | .rebuilt =>
    let r := readCw (setCw s c key cw 16) c key cw
    if r.2.isSome then r.1 else mediaFault r.1 owner c key cw
  | .lost => mediaFault (readRaw (setCw s c key cw 16) c key cw).1 owner c key cw

/-- The page is programmed: in a stripe, or as a page of a root. -/
def programmed (s : State) (c key : Nat) : Bool := (findPage s c key).isSome || (getCh s c).roots.any (fun r => r.pages.contains key)

/-- CODEWORD_READ (R270): an engine reads one codeword of a programmed page. -/
def execCodewordRead (ch die page cw : Nat) (res : CwOutcome) (s : State) : Res :=
  onUnit s (wellFormed (.codewordRead ch die page cw res)) <|
  if dieFitted s ch die && programmed s ch (pageKey die page) then readCodeword s ch die page cw res else s

/-- RETRY_WINDOW_END (R284, R285): 2^20 codewords of a die have been read. -/
def execRetryWindowEnd (ch die : Nat) (s : State) : Res :=
  onUnit s (wellFormed (.retryWindowEnd ch die)) <|
  let x := getCh s ch
  let d := getDie x die
  if d.reads < 2 ^ 20 then s
  else
    let s1 := setCh s ch (setDie x die { d with reads := d.reads - 2 ^ 20, retries := 0 })
    if s.fl.ewRetry * 2 ^ 20 < d.retries * 10 ^ 6 then raise s1 0x0042 1 0x7F (engineUnit ch die) ch die d.retries else s1

/-! ### Garbage collection (R278, R279) -/

/-- Every stripe of the superblock is closed, and no member takes a further page. -/
def superDone (w : Nat) (x : Super) : Bool :=
  openStripes x == 0 && (dataMembers w x).all (fun m => decide (memberAbsent x m ≤ memberNext x m) || (x.retiredOpen && decide (x.closed ≤ memberNext x m)))

/-- The page numbers of a member's block that hold a unit's current contents, with their units. -/
def validPages (s : State) (x : Super) (m : Nat) : List (Nat × Nat) :=
  let c := s.fl.fmtW * x.g + m
  let p := pagesOf (getCh s c)
  let lo := memberBlock x m * p
  (getCh s c).map.filterMap (fun e => match e.2 with
    | .page d n => if d = x.d ∧ lo ≤ n ∧ n < lo + p ∧ keyOf s c d n = pageKey (memberChip x m) n then some (e.1, n) else none
    | .lost => none)

def retainedIn (s : State) (x : Super) (m : Nat) : Nat :=
  let c := s.fl.fmtW * x.g + m
  let lo := pageKey (memberChip x m) (memberBlock x m * pagesOf (getCh s c))
  (s.fl.retained.filter (fun r => r.ch == c && decide (lo ≤ r.key) && decide (r.key < lo + pagesOf (getCh s c)))).length

def keptPages (s : State) (x : Super) : Nat :=
  ((List.range s.fl.fmtW).map (fun m => (validPages s x m).length + retainedIn s x m)).sum

/-- A member's block holds what the next recovery needs beside mapped units: a discard record that no checkpoint covers yet (R269, R289), or the newest page of a map segment (R287). -/
def needsCheckpoint (s : State) (x : Super) (m : Nat) : Bool :=
  let c := s.fl.fmtW * x.g + m
  let y := getCh s c
  let lo := pageKey (memberChip x m) (memberBlock x m * pagesOf y)
  let inIt (k : Nat) : Bool := decide (lo ≤ k) && decide (k < lo + pagesOf y)
  let from0 := match y.roots.head? with | some r => r.seq | none => 0
  y.pages.any (fun e => inIt e.1 && e.2.kind == 4 && decide (from0 ≤ e.2.seq)) || y.segs.any (fun e => inIt e.2)

/-- Before such a block is erased, its channel programs those segments anew and takes a checkpoint (DESIGN CHOICE, log entry 69: R278 counts valid pages and does not speak of these). -/
def coverBlock (s : State) (x : Super) (m : Nat) : State :=
  if needsCheckpoint s x m then
    let c := s.fl.fmtW * x.g + m
    let y := getCh s c
    let lo := pageKey (memberChip x m) (memberBlock x m * pagesOf y)
    let segs := (y.segs.filter (fun e => decide (lo ≤ e.2) && decide (e.2 < lo + pagesOf y) && !y.dirty.contains e.1)).map Prod.fst
    takeCheckpoint (setCh s c { y with dirty := y.dirty ++ segs }) c
  else s

/-- Erase counts of one of the group's dies differ by more than a tenth of PE_RATED (R279). -/
def wearUneven (s : State) (g d : Nat) : Bool :=
  (groupChans s.fl.fmtW g).any (fun c =>
    let x := getCh s c
    let l := ((List.range (blocksOf x)).filter (fun b => !(getBlock x (posChip x d) b).bad)).map (fun b => (getBlock x (posChip x d) b).erases)
    decide (x.geom.peRated < 10 * (l.foldl max 0 - l.foldl min (l.headD 0))))

def superErases (s : State) (x : Super) : Nat :=
  ((List.range s.fl.fmtW).map (fun m => (getBlock (getCh s (s.fl.fmtW * x.g + m)) (memberChip x m) (memberBlock x m)).erases)).sum

/-- The least element by a measure; of equal ones the first. -/
def leastBy (f : Super → Nat) : List Super → Option Super
  | [] => none
  | x :: r => match leastBy f r with | some y => if f y < f x then some y else some x | none => some x

def gcChoice (s : State) (g d : Nat) : Option Super :=
  let l := s.fl.supers.filter (fun x => x.g == g && x.d == d && superDone s.fl.fmtW x)
  leastBy (if wearUneven s g d then superErases s else keptPages s) l

/-- Moves the valid pages of one member to new pages of the channel; none when a program finds no free block. A page that cannot be read, nor rebuilt, stays where it is. -/
def movePages (s : State) (x : Super) (m : Nat) : Option State :=
  let c := s.fl.fmtW * x.g + m
  (validPages s x m).foldl (fun a e => a.bind (fun b =>
    let r := readPageParts c (pageKey (memberChip x m) e.2) b [0, 1, 2, 3]
    match r.2 with
    | .error _ => some r.1
    | .ok d => (programData r.1 c 0 0 e.1 d).map (fun p => setLu p.2.2 c e.1 (.page p.1 (p.2.1 % 2 ^ 23))))) (some s)

/-- Erases one block. -/
def eraseBlock (s : State) (c chip b : Nat) : State := checkWear (wipeBlock s c chip b) c chip

/-- Reclaims a superblock: valid pages move; its blocks are erased once no valid or retained page, and nothing else that a recovery needs, remains in them. -/
def reclaim (s : State) (x : Super) : State :=
  let ms := List.range s.fl.fmtW
  match ms.foldl (fun a m => a.bind (fun b => movePages b x m)) (some s) with
  | none => s
  | some s1 =>
    if keptPages s1 x ≠ 0 then s1
    else
      let s2 := ms.foldl (fun a m => coverBlock a x m) s1
      if ms.any (fun m => needsCheckpoint s2 x m) then s2
      else
        let s3 := setSupers s2 (s2.fl.supers.filter (fun y => !sameSuper x y))
        ms.foldl (fun a m => eraseBlock a (s.fl.fmtW * x.g + m) (memberChip x m) (memberBlock x m)) s3

/-- GARBAGE_COLLECTION (R278). -/
def execGarbageCollection (g d : Nat) (s : State) : Res :=
  onUnit s (wellFormed (.garbageCollection g d)) <|
  if !flashReady s then s
  else match gcChoice s g d with
    | some x => reclaim s x
    | none => s

/-! ### Recovery (R289 to R291) -/

/-- Reads every codeword of pages, apart from the rebuild step; false when one cannot be read. -/
def readWhole : State → Nat → List Nat → State × Bool
  | s, _, [] => (s, true)
  | s, c, key :: l =>
    let r := (List.range 4).foldl (fun a j => let b := readRaw a.1 c key j; (b.1, a.2 && b.2)) (s, true)
    let q := readWhole r.1 c l
    (q.1, r.2 && q.2)

/-- The map that a root's segments hold; none where a segment's page cannot be read, nor rebuilt. -/
def loadSegs (c : Nat) : State → List (Nat × Nat) → State × Option (Tab MapEntry)
  | s, [] => (s, some [])
  | s, e :: l =>
    if (findPage s c e.2).isNone then (s, none)
    else
      let r := readPageParts c e.2 s [0, 1, 2, 3]
      match r.2 with
      | .error _ => (r.1, none)
      | .ok d =>
        let q := loadSegs c r.1 l
        (q.1, q.2.map (fun m => segmentMap e.1 d ++ m))

/-- The newest root whose pages all decode and whose FMT_ID is the format's, with the map at it; an older one where that fails (R289, R291). -/
def chooseRoot (c : Nat) : State → Bool → List Root → State × Option (Root × Tab MapEntry)
  | s, _, [] => (s, none)
  | s, older, r :: l =>
    if r.fmtId ≠ s.fl.fmtId then chooseRoot c s older l
    else
      let a := readWhole s c r.pages
      let b := if a.2 then loadSegs c a.1 r.segs else (a.1, none)
      match b.2 with
      | some m => ({ b.1 with fl := { b.1.fl with recovOlder := b.1.fl.recovOlder || older } }, some (r, m))
      | none => chooseRoot c b.1 true l

/-- The map position of a physical page: a page on the spare die stands at the position that its superblock serves. -/
def positionOf (s : State) (c chip page : Nat) : Nat :=
  match stripeOf s c chip page with
  | some (x, _, _) => x.d
  | none => chip

/-- The units that a TRIM page lists (R269). -/
def listedUnits (n : Nat) (d : Mem) : List Nat := (List.range n).map (fun i => memLE d (4 * i) 4)

/-- Reads headers of a block from page k on: the pages found, up to one that is erased, whose header does not decode, or that another format wrote (R289). -/
def headersFrom (c chip b : Nat) : Nat → State → Nat → State × List (Nat × Page)
  | 0, s, _ => (s, [])
  | n + 1, s, k =>
    let key := pageKey chip (b * pagesOf (getCh s c) + k)
    match findPage s c key with
    | none => (countReads s c chip 1, [])
    | some p =>
      let r := readRaw s c key 0
      if r.2 && p.fmtId == s.fl.fmtId then
        let q := headersFrom c chip b n r.1 (k + 1)
        (q.1, (key, p) :: q.2)
      else (r.1, [])

/-- The pages that the replay finds in a block: the last is read whole, and is an interrupted program where a codeword does not decode. -/
def findIn (s : State) (c chip b first : Nat) : State × List (Nat × Page) :=
  let r := headersFrom c chip b (pagesOf (getCh s c) - first) s first
  match r.2.getLast? with
  | none => r
  | some e => let q := readWhole r.1 c [e.1]; (q.1, if q.2 then r.2 else r.2.dropLast)

/-- The blocks that the replay walks: a root's open blocks from the first page that it does not cover, then its queues. -/
def replayBlocks (r : Root) : List (Nat × Nat × Nat) := r.opens ++ r.queues.flatMap (fun e => e.2.map (fun b => (e.1, b, 0)))

/-- One page found by the replay. -/
def replayPage (c : Nat) (s : State) (e : Nat × Page) : State :=
  match e.2.kind with
  | 0 => setLu s c e.2.lu (.page (positionOf s c (e.1 / 2 ^ 23) (e.1 % 2 ^ 23)) (e.1 % 2 ^ 23))
  | 4 =>
    let r := readPageParts c e.1 s (List.range (ceilDiv (4 * e.2.lu) 4096))
    match r.2 with
    | .ok d => (listedUnits e.2.lu d).foldl (fun a u => clearLu a c u) r.1
    | .error _ => r.1
  | _ => s

/-- Rebuilds the map of a channel: the segments of its root, then the later pages by sequence number (R289); false without a valid root. -/
def replayChannel (s : State) (c : Nat) : State × Bool :=
  let a := chooseRoot c s false (getCh s c).roots
  match a.2 with
  | none => (a.1, false)
  | some (r, m) =>
    let s1 := setCh a.1 c { getCh a.1 c with map := sortBy (fun x y => decide (x.1 ≤ y.1)) m, dirty := [], segs := r.segs, queue := r.queues }
    let f := (replayBlocks r).foldl (fun (b : State × List (Nat × Page)) k => let q := findIn b.1 c k.1 k.2.1 k.2.2; (q.1, b.2 ++ q.2)) (s1, [])
    let found := sortBy (fun (x y : Nat × Page) => decide (x.2.seq ≤ y.2.seq)) (f.2.filter (fun e => decide (r.seq ≤ e.2.seq)))
    (found.foldl (replayPage c) f.1, true)

/-- A page of an open stripe that cannot be read is ABSENT, counts as zeros, and its unit is LOST (R290). -/
def losePage (s : State) (x : Super) (m k : Nat) : State :=
  let w := s.fl.fmtW
  let c := w * x.g + m
  let key := memberKey s w x m k
  match findSuper s x.g x.d x.num with
  | none => s
  | some z =>
    if !hasPage z m k then s
    else
      let r := readWhole s c [key]
      if r.2 then r.1
      else
        let s1 := putSuper r.1 { z with absent := z.absent ++ [(m, k)] }
        match (getCh s1 c).map.find? (fun e => e.2 == .page x.d (key % 2 ^ 23)) with
        | some e =>
          let s2 := setLu s1 c e.1 .lost
          { s2 with fl := { s2.fl with recovLost := min (s2.fl.recovLost + 1) (2 ^ 20 - 1) } }
        | none => s1

/-- Closes every open stripe of a superblock. -/
def closeStripes : Nat → State → Nat → Nat → Nat → State
  | 0, s, _, _, _ => s
  | n + 1, s, g, d, num =>
    match findSuper s g d num with
    | none => s
    | some x => if openStripes x = 0 then s else closeStripes n (closeOldest s x) g d num

def closeSuper (s : State) (x : Super) : State :=
  let ks := (List.range (openStripes x)).map (fun i => x.closed + i)
  let s1 := (dataMembers s.fl.fmtW x).foldl (fun a m => ks.foldl (fun b k => losePage b x m k) a) s
  let s2 := { s1 with fl := { s1.fl with recovStripes := min (s1.fl.recovStripes + openStripes x) (2 ^ 20 - 1) } }
  closeStripes (openStripes x) s2 x.g x.d x.num

/-- Replays every channel; false where one has no valid root. -/
def replayAll (s : State) : State × Bool :=
  (fittedChans s).foldl (fun a c => let r := replayChannel a.1 c; (r.1, a.2 && r.2))
    ({ s with fl := { s.fl with recovStripes := 0, recovLost := 0, recovOlder := false, retained := [] } }, true)

/-- Closes the open stripes of every group. -/
def closeGroups (s : State) : State :=
  let s1 := (s.fl.supers.filter (fun x => openStripes x != 0)).foldl closeSuper s
  { s1 with fl := { s1.fl with replayed := true } }

/-- FLASH_RECOVERY (R291): a channel without a valid root fails it. -/
def execFlashRecovery (s : State) : Res :=
  onUnit s true <|
  if s.fl.fstate ≠ 4 ∨ s.fl.replayed then s
  else
    let r := replayAll s
    if r.2 then closeGroups r.1 else serveFlash (failFlash { r.1 with fl := { r.1.fl with fstate := 6 } } 4)

/-- FLASH_RECOVERY_END (R291): every channel takes its checkpoint, and waiting requests proceed. -/
def execFlashRecoveryEnd (ms : Nat) (s : State) : Res :=
  onUnit s true <|
  if s.fl.fstate = 4 ∧ s.fl.replayed then
    let s1 := (fittedChans s).foldl takeCheckpoint s
    serveFlash { s1 with fl := { s1.fl with fstate := 5, done := true, err := 0, replayed := false, recovMs := min ms (2 ^ 20 - 1) } }
  else s

end Sys2Proof.Machine
end

