-- ==== Sys2Proof/Machine/Hash.lean ====
section
/-! DEFINITION. SHAKE256 and SHA3-512, and Ed448 verification, which the spec names for digests and signatures (02 R26; 13 R425; 14 R447, R455). They follow FIPS 202 and RFC 8032, to which those names refer. -/

namespace Sys2Proof.Machine

open Sys2Proof

/-! ### Keccak-f[1600], lanes as numbers below 2^64, lane (x, y) at x + 5y -/

def rotl64 (v n : Nat) : Nat := (v * 2 ^ n + v / 2 ^ (64 - n)) % 2 ^ 64

def keccakRot : List Nat := [0, 1, 62, 28, 27, 36, 44, 6, 55, 20, 3, 10, 43, 25, 39, 41, 45, 15, 21, 8, 18, 2, 61, 56, 14]

/-- Round constants of the 24 rounds. -/
def keccakRc : List Nat :=
  [0x0000000000000001, 0x0000000000008082, 0x800000000000808A, 0x8000000080008000, 0x000000000000808B, 0x0000000080000001]
    ++ [0x8000000080008081, 0x8000000000008009, 0x000000000000008A, 0x0000000000000088, 0x0000000080008009, 0x000000008000000A]
    ++ [0x000000008000808B, 0x800000000000008B, 0x8000000000008089, 0x8000000000008003, 0x8000000000008002, 0x8000000000000080]
    ++ [0x000000000000800A, 0x800000008000000A, 0x8000000080008081, 0x8000000000008080, 0x0000000080000001, 0x8000000080008008]

def lane (l : List Nat) (x y : Nat) : Nat := l.getD (x % 5 + 5 * (y % 5)) 0

/-- θ: column parities mixed into every lane. -/
def keccakTheta (l : List Nat) : List Nat :=
  let c := (List.range 5).map (fun x => (List.range 5).foldl (fun a y => a ^^^ lane l x y) 0)
  (List.zip (List.range 25) l).map (fun iv => iv.2 ^^^ c.getD ((iv.1 + 4) % 5) 0 ^^^ rotl64 (c.getD ((iv.1 + 1) % 5) 0) 1)

/-- ρ and π: the lane at (x, y) comes from (x + 3y, x), rotated. -/
def keccakRhoPi (l : List Nat) : List Nat :=
  (List.range 25).map (fun i =>
    let x := i % 5
    let y := i / 5
    let j := (x + 3 * y) % 5 + 5 * x
    rotl64 (l.getD j 0) (keccakRot.getD j 0))

/-- χ: the nonlinear step. -/
def keccakChi (l : List Nat) : List Nat :=
  (List.range 25).map (fun i =>
    let x := i % 5
    let y := i / 5
    lane l x y ^^^ (((2 ^ 64 - 1) ^^^ lane l (x + 1) y) &&& lane l (x + 2) y))

def keccakRound (l : List Nat) (rc : Nat) : List Nat :=
  match keccakChi (keccakRhoPi (keccakTheta l)) with
  | [] => []
  | a :: r => (a ^^^ rc) :: r

def keccakF (l : List Nat) : List Nat := keccakRc.foldl keccakRound l

/-- The lanes of a block of bytes. -/
def lanesOf : Nat → List Byte → List Nat
  | 0, _ => []
  | n + 1, b => leNat (b.take 8) :: lanesOf n (b.drop 8)

def absorbBlock (st : List Nat) (b : List Byte) : List Nat :=
  keccakF (List.zipWith (fun a x => a ^^^ x) st (lanesOf 25 b))

/-- Absorbs a padded message block by block of `rate` bytes. -/
def absorb (rate : Nat) : Nat → List Nat → List Byte → List Nat
  | 0, st, _ => st
  | n + 1, st, b => if b.isEmpty then st else absorb rate n (absorbBlock st (b.take rate)) (b.drop rate)

/-- Padding: the suffix byte, zeros, and the top bit of the block's last byte. -/
def keccakPad (rate : Nat) (suffix : Byte) (b : List Byte) : List Byte :=
  let n := rate - b.length % rate
  if n = 1 then b ++ [suffix ^^^ 0x80] else b ++ (suffix :: (zeros (n - 2) ++ [0x80]))

/-- Squeezes n bytes. -/
def squeeze (rate : Nat) : Nat → List Nat → Nat → List Byte
  | 0, _, _ => []
  | k + 1, st, n =>
    let out := (st.flatMap (toLE 8)).take (min rate n)
    if n ≤ rate then out else out ++ squeeze rate k (keccakF st) (n - rate)

def sponge (rate : Nat) (suffix : Byte) (n : Nat) (b : List Byte) : List Byte :=
  let p := keccakPad rate suffix b
  squeeze rate (n / rate + 1) (absorb rate (p.length / rate + 1) (List.replicate 25 0) p) n

def shake256 (n : Nat) (b : List Byte) : List Byte := sponge 136 0x1F n b
def sha3_512 (b : List Byte) : List Byte := sponge 72 0x06 64 b

/-! ### Ed448 (RFC 8032) -/

def edP : Nat := 2 ^ 448 - 2 ^ 224 - 1
/-- Order of the base point. -/
def edL : Nat := 2 ^ 446 - 13818066809895115352007386748515426880336692474882178609894547503885
def edD : Nat := edP - 39081

def edMul (a b : Nat) : Nat := a * b % edP
def edSub (a b : Nat) : Nat := (a + (edP - b % edP)) % edP

/-- a^e mod p over the lowest n bits of e. -/
def edPow : Nat → Nat → Nat → Nat
  | 0, _, _ => 1
  | n + 1, a, e => edMul (if e % 2 = 1 then a else 1) (edPow n (edMul a a) (e / 2))

/-- A point in projective coordinates. -/
structure EdPoint where
  x : Nat
  y : Nat
  z : Nat
  deriving DecidableEq, Repr

/-- Point addition, complete on this curve. -/
def edAdd (p q : EdPoint) : EdPoint :=
  let a := edMul p.z q.z
  let b := edMul a a
  let c := edMul p.x q.x
  let d := edMul p.y q.y
  let e := edMul edD (edMul c d)
  let f := edSub b e
  let g := (b + e) % edP
  let h := edMul (p.x + p.y) (q.x + q.y)
  { x := edMul a (edMul f (edSub (edSub h c) d)), y := edMul a (edMul g (edSub d c)), z := edMul f g }

def edScale : Nat → Nat → EdPoint → EdPoint
  | 0, _, _ => ⟨0, 1, 1⟩
  | n + 1, k, p => edAdd (if k % 2 = 1 then p else ⟨0, 1, 1⟩) (edScale n (k / 2) (edAdd p p))

def edBase : EdPoint :=
  { x := 224580040295924300187604334099896036246789641632564134246125461686950415467406032909029192869357953282578032075146446173674602635247710
    y := 298819210078481492676017930443930673437544040154080242095928241372331506189835876003536878655418784733982303233503462500531545062832660
    z := 1 }

def edEq (p q : EdPoint) : Bool := edMul p.x q.z == edMul q.x p.z && edMul p.y q.z == edMul q.y p.z

/-- Decodes 57 bytes to a point. -/
def edDecode (b : List Byte) : Option EdPoint :=
  let v := leNat b
  let y := v % 2 ^ 455
  let sgn := v / 2 ^ 455 % 2
  if b.length ≠ 57 ∨ edP ≤ y then none
  else
    let u := edSub (edMul y y) 1
    let w := edSub (edMul edD (edMul y y)) 1
    let u3v := edMul (edMul u (edMul u u)) w
    let u5v3 := edMul (edMul u3v (edMul u u)) (edMul w w)
    let x := edMul u3v (edPow 448 u5v3 ((edP - 3) / 4))
    if edMul w (edMul x x) ≠ u % edP then none
    else if x = 0 ∧ sgn = 1 then none
    else some ⟨if x % 2 = sgn then x else (edP - x) % edP, y, 1⟩

/-- "SigEd448", the flag byte and the length of an empty context. -/
def edDom : List Byte := [0x53, 0x69, 0x67, 0x45, 0x64, 0x34, 0x34, 0x38, 0x00, 0x00]

/-- Verifies an Ed448 signature of 114 bytes over a message under a public key of 57 bytes. -/
def ed448Verify (key sig msg : List Byte) : Bool :=
  let s := leNat ((sig.drop 57).take 57)
  match edDecode key, edDecode (sig.take 57) with
  | some a, some r =>
    let k := leNat (shake256 114 (edDom ++ (sig.take 57 ++ (key ++ msg)))) % edL
    sig.length == 114 && decide (s < edL) && edEq (edScale 448 (4 * s) edBase) (edScale 3 4 (edAdd r (edScale 446 k a)))
  | _, _ => false

end Sys2Proof.Machine
end

