-- ==== Sys2Proof/Machine/Images.lean ====
section
/-! DEFINITION. Base layers and Positions: loading, unloading, admission, staging, activation and retirement (02 R25 to R36, R42 to R61, R64, R486; 03 R79; 08 R246; 11 R346). -/

namespace Sys2Proof.Machine

open Sys2Proof

/-! ### Image parts -/

/-- The digest of an image or a record: SHAKE256 over it with DIGEST, bytes 96 to 127, read as zero (R26). -/
def imgDigest (b : List Byte) : Nat := leNat (shake256 32 (b.take 96 ++ (zeros 32 ++ b.drop 128)))

def digestOk (b : List Byte) : Bool := imgDigest b == fieldAt b 96 32

/-- A slot run (R33). -/
def runOf (v : Nat) : Run := ⟨bits v 0 12, bits v 12 12, bits v 24 7, bits v 32 4, bits v 36 10, bits v 46 8⟩

def runReserved (v : Nat) : Bool := bits v 31 1 == 0 && bits v 54 10 == 0

def words (n w : Nat) (b : List Byte) (o : Nat) : List Nat := (List.range n).map (fun i => fieldAt b (o + w * i) w)

/-- A stream table entry (R35). -/
def streamOfBytes (b : List Byte) (o : Nat) : Stream := ⟨fieldAt b o 4, fieldAt b (o + 4) 4, fieldAt b (o + 8) 2, fieldAt b (o + 10) 1⟩

def streamsAt (n : Nat) (b : List Byte) (o : Nat) : List Stream := (List.range n).map (fun i => streamOfBytes b (o + 16 * i))

/-- Slots that a run takes on its path. -/
def runsMeet (a b : Run) : Bool :=
  a.kind == b.kind && a.path == b.path && overlaps a.first (a.countM1 + 1) b.first (b.countM1 + 1)

/-- No two elements of a list are related. -/
def apart {α : Type} (f : α → α → Bool) : List α → Bool
  | [] => true
  | a :: r => r.all (fun b => !f a b) && apart f r

/-! ### Loading a base layer (R43 to R46, R486) -/

/-- A section table entry (R27). -/
structure Section where
  type : Nat
  len : Nat
  off : Nat
  deriving DecidableEq, Repr

def sectionsOf (b : List Byte) : List Section :=
  (List.range (fieldAt b 24 4)).map (fun i =>
    let o := fieldAt b 28 4 + 16 * i
    ⟨fieldAt b o 2, fieldAt b (o + 4) 4, fieldAt b (o + 8) 8⟩)

def knownSection (t : Nat) : Bool := t == 1 || t == 2 || t == 3 || t == 4 || t == 0x8010

/-- Header fields by R25. -/
def baseHeaderOk (b : List Byte) (len : Nat) : Bool :=
  fieldAt b 0 4 == 0x4942584C && fieldAt b 4 2 == 3 && fieldAt b 6 2 == 128 && fieldAt b 8 8 == len && decide (len ≤ 2 ^ 26)
    && decide (1 ≤ fieldAt b 24 4 ∧ fieldAt b 24 4 ≤ 256) && zeroAt b 40 56

/-- Sections by R27 and R28, unknown types apart. -/
def baseSectionsOk (b : List Byte) (len : Nat) : Bool :=
  let l := sectionsOf b
  let once (t : Nat) : Bool := (l.filter (fun x => x.type == t)).length == 1
  let sized (t n : Nat) (whole : Bool) : Bool := l.all (fun x => x.type != t || (if whole then x.len == n else decide (x.len % n = 0)))
  decide (fieldAt b 28 4 + 16 * fieldAt b 24 4 ≤ len) && l.all (fun x => decide (x.off + x.len ≤ len))
    && apart (fun x y => overlaps x.off x.len y.off y.len) l && once 1 && once 2 && once 3 && once 4
    && sized 1 32 true && sized 2 8 false && sized 3 16 false && sized 4 24 true

def sectionAt (b : List Byte) (t : Nat) : Section := ((sectionsOf b).find? (fun x => x.type == t)).getD ⟨t, 0, 0⟩

def baseOf (b : List Byte) : BaseLayer :=
  let p := sectionAt b 1
  let r := sectionAt b 2
  let st := sectionAt b 3
  let c := sectionAt b 4
  { baseId := fieldAt b 16 8, compiler := fieldAt b 32 4, linkSched := fieldAt b 36 4, digest := imgDigest b,
    stackSeed := fieldAt b p.off 8, pathSeed := fieldAt b (p.off + 8) 8, warm := BitVec.ofNat 16 (fieldAt b (p.off + 16) 2),
    capT0 := fieldAt b c.off 8, capStack := fieldAt b (c.off + 8) 8, capT3 := fieldAt b (c.off + 16) 8,
    runs := (words (r.len / 8) 8 b r.off).map runOf, streams := streamsAt (st.len / 16) b st.off }

/-- Bytes of the stacks that are present: 64 GiB a stack, 512 GiB in all (R45). -/
def stackPresent (s : State) : Nat := 64 * 2 ^ 30 * ((List.range 8).filter (fun i => s.ms.present.getLsbD i)).length

/-- The format record that the fitted dies carry (09 R291 step 1). -/
def formatRecord (s : State) : Option FmtRec := (fittedChans s).findSome? (fun c => (getCh s c).fmt)

/-- The discovery of the fitted dies during a base-layer load (R45; 09 R292). -/
def discover (s : State) : State :=
  let f := (formatRecord s).getD ⟨0, 0, 0⟩
  { s with fl := { s.fl with found := true, capRaw := rawCapacity s, mapRes := mapReservation (rawCapacity s), fmtW := f.w, fmtOp := f.op, fmtId := f.id } }

/-- The fitted dies, once discovered, carry a valid format. -/
def validFormat (s : State) : Bool := s.fl.fmtW != 0

/-- CAPACITY exceeds what is present (R45); T3 is compared only with the capacity of a valid format. -/
def capacityBad (s : State) (b : BaseLayer) : Bool :=
  decide (stackPresent s < b.capStack + mapReservation (rawCapacity s) + Config.baseStack s.nmc.fwVersion)
    || decide (2 ^ 21 * 256 < b.capT0) || (validFormat s && decide (t3Capacity s < b.capT3))

/-- Retained objects forbid the load (R46). -/
def retainedBad (s : State) (b : BaseLayer) : Bool :=
  let stack := (allTenants.map (retainedStack s)).sum
  let t3 := (allTenants.map (retainedT3 s)).sum
  (stack != 0 && (b.stackSeed != s.ms.seed || decide (b.capStack < stack))) || (t3 != 0 && decide (b.capT3 < t3))

/-- A recomposition is accepted and its completion is not yet written (R44, R48). -/
def recompOpen (s : State) : Bool :=
  !s.bd.recomps.isEmpty || s.qe.recs.any (fun r => isAdmin r.q && (r.opcode == 0x80 || r.opcode == 0x81) && r.status != 0x02)
    || s.qe.descs.any (fun d => isAdmin d.q && (descOp d == 0x80 || descOp d == 0x81))

def baseBusy (s : State) : Bool := !s.bd.positions.isEmpty || recompOpen s || s.bd.job.isSome

def failBase (s : State) (e : Nat) : State := { s with bd := { s.bd with fail := true, err := e } }

/-- Checks 2 to 9 of R486, then the wait for the boundary; `readOk`: no host read of the image failed. -/
def loadBase (s : State) (readOk : Bool) : State :=
  let len := s.bd.baseLen
  if len < 128 ∨ 2 ^ 26 < len then failBase s 3
  else if !readOk || !hostOpen s 0 then failBase s 5
  else
    let b := hostRead s (s.bd.baseAddr * 4096) len
    if !baseHeaderOk b len then failBase s 3
    else if !digestOk b then failBase s 2
    else if !baseSectionsOk b len then failBase s 3
    else if (sectionsOf b).any (fun x => x.type < 0x8000 && !knownSection x.type) then failBase s 6
    else
      let s1 := discover s
      if capacityBad s1 (baseOf b) then failBase s1 4
      else if retainedBad s1 (baseOf b) then failBase s1 7
      else { s1 with bd := { s1.bd with base := 1, job := some (.load (baseOf b)) } }

/-- BASE_LOAD (R43, R486): tenant 0 writes BD_BASE_CMD.LOAD. -/
def execBaseLoad (w : ImageRead) (s : State) : Res :=
  onUnit s (wellFormed (.baseLoad w)) (pfWrite s w.fn 0x900024 (fun x => if baseBusy x then failBase x 1 else loadBase x w.readOk))

/-- An unload: with no base layer nothing changes, and DONE is set (R44). -/
def unloadBase (s : State) : State :=
  if baseBusy s then failBase s 1
  else if s.bd.layer.isNone then { s with bd := { s.bd with done := true, err := 0 } }
  else { s with bd := { s.bd with job := some .unload } }

/-- BASE_UNLOAD (R44): tenant 0 writes BD_BASE_CMD.UNLOAD. -/
def execBaseUnload (fn : Nat) (s : State) : Res := onUnit s (wellFormed (.baseUnload fn)) (pfWrite s fn 0x900024 unloadBase)

/-- A base layer that leaves clears every token binding (12 R378). -/
def clearBindings (s : State) : State := { s with ts := { s.ts with vocabs := [], grams := [] } }

/-- Streams start with no tokens and with DEPTH credits (R52). -/
def freshStreams (owner : Nat) (l : List Stream) (t : Tab StreamSt) : Tab StreamSt :=
  (List.zip (List.range l.length) l).foldl (fun a ix => tset a (stKey owner ix.1) { credits := ix.2.depth })
    (t.filter (fun e => e.1 / 256 != owner))

/-- The flash's state once a base layer is active for the first time after a reset (09 R291): it is recovered if it carries a valid format. -/
def startFlash (s : State) : State :=
  if s.fl.fstate ≠ 0 then s
  else if validFormat s then
    { s with fl := { s.fl with fstate := 4, replayed := false } }
  else { s with fl := { s.fl with fstate := 2 } }

/-- A move boundary: the first tick of a move. -/
def atBoundary (s : State) : Bool := tickOf s == 0

def activateBase (s : State) (b : BaseLayer) : State :=
  let s1 := if s.bd.layer.isSome then clearBindings s else s
  let s2 := { s1 with ms := { s1.ms with seed := b.stackSeed },
                      bd := { s1.bd with layer := some b, base := 2, done := true, err := 0, job := none,
                                         streams := freshStreams 0x7F b.streams s1.bd.streams } }
  updateCaps (startFlash s2)

/-- BASE_LAYER_ACTIVATE (R43). -/
def execBaseLayerActivate (s : State) : Res :=
  onUnit s true <|
  match s.bd.job with
  | some (.load b) => if atBoundary s then activateBase s b else s
  | _ => s

def deactivateBase (s : State) : State :=
  let s1 := clearBindings s
  updateCaps { s1 with bd := { s1.bd with layer := none, base := 0, done := true, err := 0, job := none,
                                          streams := s1.bd.streams.filter (fun e => e.1 / 256 != 0x7F) } }

/-- BASE_LAYER_DEACTIVATE (R62): the boot schedule runs again, and the capacity registers read 0. -/
def execBaseLayerDeactivate (s : State) : Res :=
  onUnit s true <|
  match s.bd.job with
  | some .unload => if atBoundary s then deactivateBase s else s
  | _ => s

/-! ### Position records (R29, R30, R32, R49 check 3) -/

def sqEntryOf (v : Nat) : SqEntry := { die := bits v 0 1, file := bits v 1 4, rank := bits v 5 3, ctx := bits v 8 7, t0 := bits v 15 6 }

def recordOf (b : List Byte) (prog : ProgInfo) : Position :=
  { tenant := fieldAt b 12 1, queues := fieldAt b 14 1, baseId := fieldAt b 16 8, actMove := fieldAt b 24 8, contexts := fieldAt b 40 4,
    resT0 := fieldAt b 48 8, resT1 := fieldAt b 56 8, resT2 := fieldAt b 64 8, resT3 := fieldAt b 72 8,
    squares := (words (fieldAt b 32 2) 4 b (fieldAt b 80 4)).map sqEntryOf,
    runs := (words (fieldAt b 36 4) 8 b (fieldAt b 84 4)).map runOf, streams := streamsAt (fieldAt b 34 2) b (fieldAt b 88 4),
    digest := fieldAt b 96 32, prog := prog, program := b.drop (fieldAt b 92 4) }

/-- A unit of the Position's own, or a unit of the node that a Position may name (R32). -/
def unitRefOk (squares code : Nat) : Bool :=
  let i := code % 2 ^ 24
  match code / 2 ^ 24 with
  | 1 => decide (i < squares)
  | 2 => decide (i < 256)
  | 3 => decide (i < 256)
  | 4 => decide (i < 64)
  | 5 => decide (i < 24)
  | 6 => i == 0
  | 7 => decide (i < 2)
  | 8 => i == 0
  | _ => false

/-- Header fields, counts and offsets are in range, read before the tables. -/
def recordHeaderOk (b : List Byte) : Bool :=
  let f := fieldAt b
  let prog := f 92 4
  let tab (o n : Nat) : Bool := decide (128 ≤ f o 4) && decide (f o 4 + n ≤ prog)
  f 0 4 == 0x534F504C && f 4 2 == 3 && f 6 2 == 128 && decide (f 12 1 ≤ 64) && f 13 1 == 0 && decide (1 ≤ f 14 1 ∧ f 14 1 ≤ 64)
    && f 15 1 == 0 && decide (1 ≤ f 32 2 ∧ f 32 2 ≤ 256) && decide (1 ≤ f 34 2 ∧ f 34 2 ≤ 256) && decide (1 ≤ f 36 4 ∧ f 36 4 ≤ 2 ^ 20)
    && f 44 4 == 0 && decide (f 48 8 % 65536 = 0) && decide (f 56 8 % 2 ^ 20 = 0) && decide (f 64 8 % 2 ^ 20 = 0) && decide (f 72 8 % 16384 = 0)
    && decide (128 ≤ prog) && decide (prog ≤ f 8 4) && tab 80 (4 * f 32 2) && tab 84 (8 * f 36 4) && tab 88 (16 * f 34 2)

/-- A bank unit's stream has runs of at least 64 slots (08 R246). -/
def isBankStream (x : Stream) : Bool := x.source / 2 ^ 24 == 3 || x.dest / 2 ^ 24 == 3

def bankRunsOk (p : Position) : Bool :=
  p.runs.all (fun r => r.kind != 4 || !(match p.streams[r.stream]? with | some x => isBankStream x | none => false) || decide (63 ≤ r.countM1))

/-- Bytes of the areas of R79 on a logical Square. An entry of a receive buffer takes the slot payload of the stream's first run, and no bytes where the stream has none (DESIGN CHOICE, log entry 37): R79 does not say which payload a stream with runs on paths of several kinds has. -/
def areaBytes (p : Position) (i : Nat) (e : SqEntry) : Nat :=
  let prog := match p.prog.squares[i]? with | some q => q.progBytes | none => 0
  let bufs := (List.zip (List.range p.streams.length) p.streams).map (fun jx =>
    if jx.2.dest = unitCode 1 i then
      (match p.runs.find? (fun r => r.stream == jx.1) with | some r => jx.2.depth * slotPayload r.kind | none => 0)
    else 0)
  prog + bufs.sum + 4096 * e.ctx + 65536 * e.t0

/-- Check 3 of R49. -/
def recordOk (b : List Byte) (p : Position) : Bool :=
  let ents := words (fieldAt b 32 2) 4 b (fieldAt b 80 4)
  let rw := words (fieldAt b 36 4) 8 b (fieldAt b 84 4)
  ents.all (fun v => bits v 21 11 == 0) && p.squares.all (fun e => decide (1 ≤ e.ctx ∧ e.ctx ≤ 64) && decide (e.t0 ≤ 32))
    && apart (fun x y => x.die == y.die && x.file == y.file && x.rank == y.rank) p.squares
    && p.contexts == (p.squares.map (fun e => e.ctx)).sum && p.resT0 == 65536 * (p.squares.map (fun e => e.t0)).sum
    && (List.range p.streams.length).all (fun i => zeroAt b (fieldAt b 88 4 + 16 * i + 11) 5)
    && p.streams.all (fun x => unitRefOk p.squares.length x.source && unitRefOk p.squares.length x.dest
        && decide (1 ≤ x.depth ∧ x.depth ≤ 1024) && decide (x.cls ≤ 2))
    && rw.all runReserved && p.runs.all (fun r => r.owner == p.tenant && decide (r.kind < 10) && decide (r.path < pathsOf r.kind)
        && decide (r.first + r.countM1 < slotsPerMove r.kind) && decide (r.stream < p.streams.length))
    && apart runsMeet p.runs && bankRunsOk p && p.prog.unitsOk
    && (List.zip (List.range p.squares.length) p.squares).all (fun ie => decide (areaBytes p ie.1 ie.2 ≤ 2 ^ 21))

/-- Check 7 of R49. -/
def squareConflict (s : State) (e : SqEntry) : Bool :=
  let code := unitCode 1 (physIdx e.die e.rank e.file)
  s.bd.positions.any (fun q => q.2.squares.any (fun x => x.die == e.die && x.file == e.file && x.rank == e.rank))
    || (match s.bd.layer with | some b => b.streams.any (fun x => x.source == code || x.dest == code) | none => false)
    || (getRank s (rankIdx e.die e.rank)).pwrOff

/-- Checks 3 to 12 of R49 in order, with the pool check of R346; none when all pass. -/
def admitFails (s : State) (b : List Byte) (p : Position) (acceptMove : Nat) : Option (Nat × Nat) :=
  if !recordHeaderOk b || !recordOk b p then some (0x03, stMalformed)
  else if !(match s.bd.layer with | some l => l.baseId == p.baseId | none => false) then some (0x04, stMalformed)
  else if hasPos s p.tenant then some (0x05, stMalformed)
  else if p.actMove ≠ 0 ∧ acceptMove + 256 < p.actMove then some (0x06, stMalformed)
  else if p.squares.any (squareConflict s) then some (0x07, stNoRes)
  else if p.runs.any (fun r => (allRuns s).any (runsMeet r)) then some (0x08, stNoRes)
  else if freeT0 s < p.resT0 ∨ p.squares.length * 2 ^ 21 < p.resT0 then some (0x09, stNoRes)
  else if freeStack s p.tenant < p.resT1 + p.resT2 then some (0x0A, stNoRes)
  else if freeT3 s p.tenant < p.resT3 then some (0x0B, stNoRes)
  else if poolFree s < p.queues then some (0x0F, stNoRes)
  else if p.resT1 < useT1 s p.tenant ∨ p.resT2 < useT2x s p.tenant ∨ p.resT3 < useT3 s p.tenant then some (0x0C, stNoRes)
  else none

/-! ### Recompositions (R48, R53) -/

/-- The admin descriptor of a recomposition. -/
def adminDesc (s : State) (seq : Nat) : Option Desc := findDesc s .admin seq

def dropRecomp (s : State) (seq : Nat) : State := { s with bd := { s.bd with recomps := s.bd.recomps.filter (fun r => r.seq != seq) } }

def putRecomp (s : State) (r : Recomp) : State :=
  { s with bd := { s.bd with recomps := s.bd.recomps.map (fun x => if x.seq = r.seq then r else x) } }

/-- A recomposition completes: its reason goes to BD_ADMIT_STATUS, a refusal's also to DETAIL. -/
def endRecomp (s : State) (r : Recomp) (status reason : Nat) : State :=
  let s1 := dropRecomp s r.seq
  let s2 := { s1 with bd := { s1.bd with admTenant := r.tenant % 128, admOp := b2n r.retire, admReason := reason, admValid := true } }
  match adminDesc s2 r.seq with
  | some d => completeDetail s2 d status reason
  | none => s2

/-- Verification of an admission (R49): it commits, reads the record, and stages it or fails. BD_ADMIT_STATUS.TENANT is the record's once its digest matches; before, no part of the record is used (R26), and it reads 0x7F (DESIGN CHOICE, log entry 65). REASON is 0x00 where the host read of the record fails, a case for which R49 gives no code (DESIGN CHOICE, log entry 65). -/
def verifyAdmit (s : State) (d : Desc) (r : Recomp) : State :=
  let s1 := commit s d
  let addr := dfield d 16 8
  let len := dfield d 24 4
  let r0 := { r with tenant := 0x7F }
  if s.bd.layer.isNone then endRecomp s1 r0 stMalformed 0x01
  else if len < 128 ∨ 2 ^ 24 < len then endRecomp s1 r0 stMalformed 0x03
  else if d.hostFault || !hostOpen s 0 then endRecomp s1 r0 stHost 0
  else
    let b := hostRead s addr len
    if fieldAt b 8 4 ≠ len then endRecomp s1 r0 stMalformed 0x03
    else if !digestOk b then endRecomp s1 r0 stMalformed 0x02
    else
      let r1 := { r with tenant := fieldAt b 12 1 }
      let p := recordOf b (r.prog.getD ⟨[], [], [], [], true⟩)
      match admitFails s b p r.acceptMove with
      | some (reason, status) => endRecomp s1 r1 status reason
      | none => putRecomp s1 { r1 with stage := .staging p }

/-- A castling of one of the Position's Squares is in progress (03 R92). -/
def castlingOn (s : State) (p : Position) : Bool :=
  match s.bd.castling with
  | none => false
  | some c => p.squares.any (fun e => e.die == c.die && e.file == c.file && e.rank == c.rank)

/-- Retirement steps 1 and 2 (R57): credits stop, and every uncommitted descriptor ends with ABORTED. The whole retirement waits while a castling of the Position's Squares is in progress (03 R92). -/
def startRetire (s : State) (d : Desc) (r : Recomp) : State :=
  let s1 := commit s d
  if !hasPos s r.tenant then endRecomp s1 r stMalformed 0x0E
  else if (match posOf s r.tenant with | some p => castlingOn s p | none => false) then s
  else endTenant (putRecomp (setT s1 r.tenant { getT s1 r.tenant with retiring := true }) { r with stage := .draining }) r.tenant stAborted

/-- The recomposition at the head starts. -/
def startRecomp (s : State) (r : Recomp) : State :=
  match adminDesc s r.seq with
  | none => dropRecomp s r.seq
  | some d => if r.retire then startRetire s d r else verifyAdmit s d r

/-- The completion of an earlier recomposition still waits to be written. -/
def recompUnwritten (s : State) : Bool := s.qe.recs.any (fun r => isAdmin r.q && (r.opcode == 0x80 || r.opcode == 0x81) && r.status != 0x02)

/-- An earlier accepted recomposition has not entered the order yet. -/
def earlierRecomp (s : State) (d : Desc) : Bool :=
  s.qe.descs.any (fun x => isAdmin x.q && (descOp x == 0x80 || descOp x == 0x81) && decide (x.n < d.n)
    && !s.bd.recomps.any (fun r => r.seq == x.seq))

/-- Enters an accepted recomposition into the order and starts it if no earlier one is open (R48). One that is accepted while a LOAD or an UNLOAD waits for its boundary is verified against the layer in force, and both take effect (DESIGN CHOICE, log entry 66): R44 refuses only the LOAD that comes second. -/
def enterRecomp (s : State) (d : Desc) (prog : Option ProgInfo) : State :=
  if s.bd.recomps.any (fun r => r.seq == d.seq) || earlierRecomp s d then s
  else
    let r : Recomp :=
      { seq := d.seq, tenant := dfield d 16 1, retire := descOp d == 0x81, release := bit (dfield d 17 1) 0, acceptMove := d.move, prog := prog,
        stage := .waiting }
    let s1 := { s with bd := { s.bd with recomps := s.bd.recomps ++ [r] } }
    if s.bd.recomps.isEmpty && !recompUnwritten s then startRecomp s1 r else s1

/-- ADMIT_POSITION (R49). -/
def execAdmitPosition (seq : Nat) (prog : ProgInfo) (s : State) : Res :=
  onUnit s true <|
  match dueDesc s .admin seq 0x80 with
  | some d => enterRecomp s d (some prog)
  | none => s

/-- RETIRE_POSITION (R57). -/
def execRetirePosition (seq : Nat) (s : State) : Res :=
  onUnit s true <|
  match dueDesc s .admin seq 0x81 with
  | some d => enterRecomp s d none
  | none => s

/-- RECOMPOSITION_START (R53): once the earlier one's completion is written, or the castling that a retirement waits for has ended (03 R92). -/
def execRecompositionStart (s : State) : Res :=
  onUnit s true <|
  match s.bd.recomps with
  | r :: _ => if r.stage = .waiting ∧ !recompUnwritten s then startRecomp s r else s
  | [] => s

/-- The first move that begins at least 4,096 ticks after now (R51). -/
def firstActMove (s : State) : Nat := ceilDiv (s.tempo + ticksPerMove) ticksPerMove

/-- STAGING_END (R51): the activation move is fixed, or check 13 fails. -/
def execStagingEnd (s : State) : Res :=
  onUnit s true <|
  match s.bd.recomps with
  | r :: _ =>
    match r.stage with
    | .staging p =>
      if p.actMove ≠ 0 ∧ p.actMove < firstActMove s then endRecomp s r stMalformed 0x0D
      else putRecomp s { r with stage := .staged p (if p.actMove = 0 then firstActMove s else p.actMove) }
    | _ => s
  | [] => s

/-! ### Activation (R51, R52; 11 R346) -/

/-- The lowest n free pool queues out of 1 to 4,095. -/
def poolTake (s : State) (n : Nat) : List Nat :=
  let used := poolUsed s
  (((List.range 4096).drop 1).filter (fun q => !used.contains q)).take n

/-- A recomposition has taken effect at the boundary of `s` (R55, R62). -/
def atMove (x s : State) : State := { x with bd := { x.bd with admMove := moveOf s, recompAt := some s.tempo } }

/-- The new Position's slots, Squares, streams and queues take effect together. -/
def activatePos (s : State) (p : Position) : State :=
  let pool := poolTake s p.queues
  let s1 := (List.zip (List.range p.queues) pool).foldl (fun a qp => setQ a (.tenant p.tenant qp.1) { getQ a (.tenant p.tenant qp.1) with pool := qp.2 }) s
  let s2 := { s1 with bd := { s1.bd with positions := tset s1.bd.positions p.tenant p, streams := freshStreams p.tenant p.streams s1.bd.streams } }
  updateCaps (wakeQueues (setT s2 p.tenant { getT s2 p.tenant with storeFault := false }) p.tenant)

/-- RECOMPOSITION_ACTIVATE (R51): at the boundary of the activation move. -/
def execRecompositionActivate (s : State) : Res :=
  onUnit s true <|
  match s.bd.recomps with
  | r :: _ =>
    match r.stage with
    | .staged p m =>
      if atBoundary s && decide (m ≤ moveOf s) then
        endRecomp (atMove (activatePos s p) s) r stDone 0
      else s
    | _ => s
  | [] => s

/-! ### The retirement boundary (R57 to R59, R92) -/

/-- A bound object that a release would discard (12 R381). -/
def releaseBound (s : State) (t : Nat) : Bool :=
  (s.ts.vocabs ++ s.ts.grams).any (fun e => e.2.st == 2 && e.2.tenant == t)

/-- Unbinds every bound object of the tenant (12 R380, R381). -/
def unbindAll (s : State) (t : Nat) : State :=
  let f := fun (e : Nat × Binding) => if e.2.st = 2 ∧ e.2.tenant = t then (e.1, { e.2 with st := 3, drain := s.qe.accepted }) else e
  { s with ts := { s.ts with vocabs := s.ts.vocabs.map f, grams := s.ts.grams.map f } }

/-- A binding of the tenant still drains. -/
def draining (s : State) (t : Nat) : Bool := (s.ts.vocabs ++ s.ts.grams).any (fun e => e.2.st == 3 && e.2.tenant == t)

/-- No descriptor of the tenant is uncompleted, its contexts are empty, its streams are idle (R57 step 3). -/
def tenantIdle (s : State) (t : Nat) : Bool :=
  s.qe.descs.all (fun d => d.tenant != t || isAdmin d.q) && busyOf s t == 0
    && s.bd.streams.all (fun e => e.1 / 256 != t || e.2.held == 0)

/-- Objects that go: those of T0 always, all of them with RELEASE (R59). -/
def retireObjs (s : State) (t : Nat) (release : Bool) : State :=
  let s1 := (s.ms.objs.filter (fun o => o.tenant == t && (o.tier == 0 || release))).foldl removeObj s
  if release then { s1 with ms := { s1.ms with exports := s1.ms.exports.filter (fun e => e.tenant != t) } } else s1

/-- MESSAGEs that wait for the tenant's serving contexts are refused: no Position (10 R308). -/
def nackHeld (s : State) (t cause : Nat) : State :=
  (s.fab.held.filter (fun h => h.tenant == t)).foldl (fun a h => dropHeld (nackMsg a h.link h.msg cause) h.work) s

/-- Clears the Squares, the streams and the queues of a retired Position. -/
def retirePos (s : State) (p : Position) (release : Bool) : State :=
  let t := p.tenant
  let s1 := (carriers s p).foldl (fun a n => setSq a n { getSq a n with ctxs := [], reqBuf := [] }) (nackHeld s t 5)
  let s2 := retireObjs s1 t release
  let s3 := { s2 with bd := { s2.bd with positions := tdel s2.bd.positions t, streams := s2.bd.streams.filter (fun e => e.1 / 256 != t) } }
  let s4 := (List.range 64).foldl (fun a q =>
    let v := getQ a (.tenant t q)
    setQ a (.tenant t q) { v with pool := 0, qstate := if v.qstate = 2 then 1 else v.qstate, avail := 0 }) s3
  updateCaps (setT s4 t { getT s4 t with retiring := false, flr := false, tornDown := false, storeFault := false })

/-- The retirement at the head takes effect at the next boundary. -/
def retireReady (s : State) : Bool :=
  match s.bd.recomps with
  | r :: _ =>
    (match r.stage, posOf s r.tenant with
     | .draining, some p => !(r.release && (releaseBound s r.tenant || draining s r.tenant)) && tenantIdle s r.tenant && !castlingOn s p
     | _, _ => false)
  | [] => false

/-- RETIREMENT_BOUNDARY (R58). A release first unbinds what it would discard, and waits for the drain. -/
def execRetirementBoundary (s : State) : Res :=
  onUnit s true <|
  match s.bd.recomps with
  | r :: _ =>
    match r.stage, posOf s r.tenant with
    | .draining, some p =>
      if r.release && releaseBound s r.tenant then unbindAll s r.tenant
      else if r.release && draining s r.tenant then s
      else if atBoundary s && tenantIdle s r.tenant && !castlingOn s p then
        endRecomp (atMove (retirePos s p r.release) s) r stDone 0
      else s
    | _, _ => s
  | [] => s

end Sys2Proof.Machine
end

