-- ==== Sys2Proof/Machine/Spares.lean ====
section
/-! DEFINITION. Spares: PROMOTE, castling, the row switches and the end of a die migration (13 R417 to R424; 03 R85 to R92; 09 R282, R283; 10 R300; 02 R55). -/

namespace Sys2Proof.Machine

open Sys2Proof

/-! ### Checks (R420) -/

def pKind (d : Desc) : Nat := dfield d 16 1
def pRevert (d : Desc) : Bool := bit (dfield d 17 1) 0
def pT0 (d : Desc) : Nat := dfield d 20 4
def pT1 (d : Desc) : Nat := dfield d 24 4

/-- Bits that R419 does not use are 0. -/
def targetBitsOk (kind t0 t1 : Nat) : Bool :=
  match kind with
  | 1 => decide (t0 < 512) && t1 == 0
  | 2 => decide (t0 < 512) && decide (t1 < 2 ^ 15)
  | 3 => decide (t0 < 256)
  | 4 => bits t0 5 3 == 0 && decide (t0 < 2 ^ 10) && t1 == 0
  | _ => bits t0 6 2 == 0 && decide (t0 < 2 ^ 11) && t1 == 0

/-- Check 1. -/
def promoteFieldsOk (d : Desc) : Bool :=
  decide (1 ≤ pKind d ∧ pKind d ≤ 5) && decide (dfield d 17 1 ≤ 1) && (!pRevert d || pKind d == 1) && dfield d 18 2 == 0
    && zeroAt d.bytes 28 36 && targetBitsOk (pKind d) (pT0 d) (pT1 d)

def tDie (t : Nat) : Nat := bits t 0 1
def tFile (t : Nat) : Nat := bits t 1 5
def tRank (t : Nat) : Nat := bits t 6 3

/-- Check 2: the target exists. -/
def promoteTargetOk (s : State) (d : Desc) : Bool :=
  let t := pT0 d
  match pKind d with
  | 1 => decide (tFile t ≤ 15)
  | 2 => decide (tFile t ≤ 16)
  | 3 => stackFitted s t && decide (pT1 d < 2 ^ 21)
  | 4 => decide (bits t 0 5 < 24)
  | _ => decide (bits t 8 3 < (getCh s (bits t 0 6)).dies)

/-- The SRAM macro of a target: Square and macro. -/
def macroOf (t0 t1 : Nat) : Nat × Nat := (physIdx (tDie t0) (tRank t0) (tFile t0), bits t1 0 6)

/-- Check 3: another PROMOTE of the same macro, pseudo-channel, link or flash channel runs. -/
def promoteBusy (s : State) (d : Desc) : Bool :=
  let t := pT0 d
  match pKind d with
  | 2 => s.spare.jobs.any (fun j => j.square && macroOf j.target0 j.target1 == macroOf t (pT1 d))
  | 3 => s.spare.jobs.any (fun j => !j.square && j.target0 == t && j.target1 % 2 == pT1 d % 2)
  | 4 => (getLink s (bits t 0 5)).promote.isSome
  | 5 => (getCh s (bits t 0 6)).migrating.isSome
  | _ => false

/-- Check 4: the row is already served by a spare row. -/
def promoteInUse (s : State) (d : Desc) : Bool :=
  let m := macroOf (pT0 d) (pT1 d)
  match pKind d with
  | 2 => s.spare.sramRows.contains (m.1, m.2, bits (pT1 d) 6 9)
  | 3 => s.spare.stackRows.contains (pT0 d, pT1 d)
  | _ => false

/-- Check 5: the spare rows are used up, 4 a macro and 16 a pseudo-channel (R417). -/
def promoteSpent (s : State) (d : Desc) : Bool :=
  let m := macroOf (pT0 d) (pT1 d)
  match pKind d with
  | 2 => decide (4 ≤ (s.spare.sramRows.filter (fun r => r.1 == m.1 && r.2.1 == m.2)).length)
  | 3 => decide (16 ≤ (s.spare.stackRows.filter (fun r => r.1 == pT0 d && r.2 % 2 == pT1 d % 2)).length)
  | _ => false

/-- The first check that fails: status and REASON. -/
def promoteFails (s : State) (d : Desc) : Option (Nat × Nat) :=
  if !promoteFieldsOk d then some (stMalformed, 0x11)
  else if !promoteTargetOk s d then some (stMalformed, 0x12)
  else if promoteBusy s d then some (stMalformed, 0x13)
  else if promoteInUse s d then some (stMalformed, 0x14)
  else if promoteSpent s d then some (stNoRes, 0x15)
  else none

/-! ### Castling (03 R85 to R92) -/

/-- The check of R85 that a castling fails. -/
def castleFails (s : State) (d : Desc) : Option Nat :=
  let r := getRank s (rankIdx (tDie (pT0 d)) (tRank (pT0 d)))
  if s.bd.castling.isSome then some 1
  else if !pRevert d && r.castled then some 3
  else if r.pwrOff then some 4
  else if pRevert d && !(r.castled && r.castleFile == tFile (pT0 d)) then some 5
  else none

def startCastling (s : State) (d : Desc) : State :=
  let t := pT0 d
  let s0 := { s with bd := { s.bd with castDie := tDie t, castFile := tFile t, castRank := tRank t, castRevert := pRevert d } }
  match castleFails s d with
  | some e => completeDetail { s0 with bd := { s0.bd with castFail := true, castReason := e } } d stMalformed e
  | none =>
    let ri := rankIdx (tDie t) (tRank t)
    let s1 := putDesc (commit s0 d) { d with phase := .running }
    let s2 := setRank s1 ri { getRank s1 ri with clock := if (getRank s1 ri).clock = 0 then 1 else (getRank s1 ri).clock, idle := 0 }
    { s2 with bd := { s2.bd with castReason := 0,
                                 castling := some { seq := d.seq, die := tDie t, file := tFile t, rank := tRank t, revert := pRevert d, phase := 1 } } }

/-- A recomposition takes effect at this boundary, or is due at it (02 R55). -/
def recompAtBoundary (s : State) : Bool :=
  s.bd.recompAt == some s.tempo || retireReady s
    || (match s.bd.recomps with
        | r :: _ => (match r.stage with | .staged _ m => decide (m ≤ moveOf s) | _ => false)
        | [] => false)

def castSource (c : Castling) : Nat := physIdx c.die c.rank (if c.revert then 16 else c.file)
def castDest (c : Castling) : Nat := physIdx c.die c.rank (if c.revert then c.file else 16)

/-- Every context of the target enters FROZEN (R86). -/
def freezeSq (s : State) (n : Nat) : State :=
  let q := getSq s n
  setSq s n { q with ctxs := q.ctxs.map (fun c => if c.2.st = .free then c else (c.1, { c.2 with st := .frozen, held := c.2.st })) }

/-- CASTLING_FREEZE (R86). -/
def execCastlingFreeze (s : State) : Res :=
  onUnit s true <|
  match s.bd.castling with
  | none => s
  | some c =>
    if c.phase = 1 && atBoundary s && (getRank s (rankIdx c.die c.rank)).clock == 2 && !recompAtBoundary s then
      let s1 := freezeSq s (castSource c)
      { s1 with bd := { s1.bd with castling := some { c with phase := 2 } } }
    else s

/-- CASTLING_COPY_END (R87): the copy is the frozen Square's state, which stands still until the switch; it waits for the next boundary (R88). -/
def execCastlingCopyEnd (s : State) : Res :=
  onUnit s true <|
  match s.bd.castling with
  | some c => if c.phase = 2 then { s with bd := { s.bd with castling := some { c with phase := 3, due := moveOf s + 1 } } } else s
  | none => s

/-- What names a context of Square a names the same context of Square b. -/
def moveSrc (a b : Nat) : ReqSource → ReqSource
  | .elem n c k => .elem (if n = a then b else n) c k
  | x => x

def moveLoad (a b : Nat) : Load → Load
  | .read n c r => .read (if n = a then b else n) c r
  | .elem n c k => .elem (if n = a then b else n) c k
  | x => x

def renameSq (s : State) (a b : Nat) : State :=
  let ds := s.qe.descs.map (fun d => match d.phase with
    | .placed n c => if n = a then { d with phase := .placed b c } else d
    | _ => d)
  let f := fun (t : Token) => { t with load := moveLoad a b t.load }
  let ss := s.bd.streams.map (fun e => (e.1, { e.2 with tokens := e.2.tokens.map f, buf := e.2.buf.map f }))
  { setDescs s ds with bd := { s.bd with streams := ss }, fab := { s.fab with
      reqs := s.fab.reqs.map (fun r => { r with src := moveSrc a b r.src }),
      flags := s.fab.flags.map (fun f => { f with src := moveSrc a b f.src }),
      held := s.fab.held.map (fun h => { h with placed := h.placed.map (fun p => if p.1 = a then (b, p.2) else p) }) } }

/-- The routing is rewritten: the contexts stand on the other Square, as they were before FROZEN, and the rotation starts anew (R88); the Square left behind is cleared (R90). -/
def switchCastling (s : State) (c : Castling) : State :=
  let a := castSource c
  let b := castDest c
  let q := getSq s a
  let s1 := setSq (setSq s b { last := 63, reqBuf := q.reqBuf, ctxs := q.ctxs.map (fun x => if x.2.st = .frozen then (x.1, { x.2 with st := x.2.held, held := .free }) else x) }) a {}
  let ri := rankIdx c.die c.rank
  let s2 := setRank (renameSq s1 a b) ri { getRank s1 ri with castled := !c.revert, castleFile := if c.revert then 0 else c.file }
  let s3 := deliverHeld { s2 with bd := { s2.bd with castling := some { c with phase := 4 } } }
  match findDesc s3 .admin c.seq with
  | some d => promoteDone s3 d (sqUnit (physIdx c.die c.rank c.file))
  | none => s3

/-- CASTLING_SWITCH (R88). -/
def execCastlingSwitch (s : State) : Res :=
  onUnit s true <|
  match s.bd.castling with
  | some c => if c.phase = 3 && atBoundary s && decide (c.due ≤ moveOf s) && !recompAtBoundary s then switchCastling s c else s
  | none => s

/-! ### The other kinds -/

/-- LANE (10 R300): the link retrains with lane 4 in place of the named lane. -/
def promoteLane (s : State) (d : Desc) : State :=
  let l := bits (pT0 d) 0 5
  let k := getLink s l
  if k.spareIn then completeDetail s d stMalformed 0x10
  else
    let s1 := putDesc (commit s d) { d with phase := .running }
    linkTo (setLink s1 l { k with promote := some d.seq }) l 3 0

/-- Blocks of a die position in superblocks that still lie on the old die. -/
def superBlocksOn (s : State) (c d : Nat) : List Super :=
  s.fl.supers.filter (fun x => s.fl.fmtW != 0 && x.g == c / s.fl.fmtW && x.d == d && !x.onSpare.getD (c % s.fl.fmtW) false)

/-- DIE (09 R282). -/
def promoteDie (s : State) (d : Desc) : State :=
  let c := bits (pT0 d) 0 6
  let die := bits (pT0 d) 8 3
  let x := getCh s c
  if !x.spare || x.migrated.isSome then completeDetail s d stMalformed 0x10
  else if goodBlocks x 8 < (superBlocksOn s c die).length then completeDetail s d stNoRes 0x10
  else
    let s1 := putDesc (commit s d) { d with phase := .running }
    let y := setDie (setDie x 8 { getDie x 8 with st := 3 }) die { getDie x die with st := 4 }
    setCh s1 c { y with migrating := some (d.seq, die) }

def startRow (s : State) (d : Desc) : State :=
  let s1 := putDesc (commit s d) { d with phase := .running }
  { s1 with spare := { s1.spare with jobs := s1.spare.jobs ++ [{ seq := d.seq, square := pKind d == 2, target0 := pT0 d, target1 := pT1 d }] } }

/-- PROMOTE (R418 to R421). -/
def execPromote (seq : Nat) (s : State) : Res :=
  onUnit s true <|
  match dueDesc s .admin seq 0x82 with
  | none => s
  | some d =>
    match promoteFails s d with
    | some (st, reason) => completeDetail s d st reason
    | none =>
      match pKind d with
      | 1 => startCastling s d
      | 4 => promoteLane s d
      | 5 => promoteDie s d
      | _ => startRow s d

/-! ### Row switches (R422, R423) -/

/-- A job that was accepted in an earlier move. -/
def rowDue (s : State) (j : RowJob) : Bool :=
  match findDesc s .admin j.seq with
  | some d => decide (d.move < moveOf s)
  | none => false

def dropRow (s : State) (seq : Nat) : State := { s with spare := { s.spare with jobs := s.spare.jobs.filter (fun x => x.seq != seq) } }

def switchSram (s : State) (j : RowJob) : State :=
  let m := macroOf j.target0 j.target1
  let s1 := dropRow s j.seq
  let s2 := { s1 with spare := { s1.spare with sramRows := s1.spare.sramRows ++ [(m.1, m.2, bits j.target1 6 9)] } }
  match findDesc s2 .admin j.seq with
  | some d => promoteDone s2 d (sqUnit m.1)
  | none => s2

/-- SRAM_ROW_SWITCH (R422): the row decoders switch at the first move boundary after acceptance. -/
def execSramRowSwitch (s : State) : Res :=
  onUnit s true <|
  if atBoundary s then (s.spare.jobs.filter (fun j => j.square && rowDue s j)).foldl switchSram s else s

/-- The repair table switches. A row that on-die correction had given up holds what was read from it: its bursts fail their check until they are written. -/
def switchStack (s : State) (j : RowJob) : State :=
  let n := j.target0 / 32
  let bad := s.ms.badRows.contains (j.target0, j.target1)
  let fresh := ((List.range 16).map (fun u => (j.target0, j.target1, u))).filter (fun b => !s.ms.badBursts.contains b)
  { s with
    spare := { s.spare with
      stackRows := s.spare.stackRows ++ [(j.target0, j.target1)], unrecorded := s.spare.unrecorded ++ [(j.target0, j.target1)],
      jobs := s.spare.jobs.map (fun x => if x.seq = j.seq then { x with switched := true } else x) },
    ms := { s.ms with
      pprUsed := tset s.ms.pprUsed n (tget 0 s.ms.pprUsed n + 1),
      badRows := s.ms.badRows.filter (fun r => r != (j.target0, j.target1)),
      badBursts := if bad then s.ms.badBursts ++ fresh else s.ms.badBursts } }

/-- STACK_ROW_SWITCH (R423): at the first move boundary after the copy. The recording follows with the next tick. -/
def execStackRowSwitch (s : State) : Res :=
  onUnit s true <|
  if atBoundary s then (s.spare.jobs.filter (fun j => !j.square && !j.switched && rowDue s j)).foldl switchStack s else s

/-! ### The end of a die migration (09 R282) -/

/-- Copies a page: each codeword as its read, or its rebuild, gives it. One that neither gives is copied as it stands, and no set decodes the copy either (DESIGN CHOICE, log entry 71). -/
def copyPage (s : State) (c old new : Nat) (p : Page) : State :=
  let r := (List.range 4).foldl (fun (a : State × Mem × List Nat) j =>
    let q := readCw a.1 c old j
    let part := (q.2.getD p.data).filter (fun x => decide (4096 * j ≤ x.1) && decide (x.1 < 4096 * (j + 1)))
    (q.1, a.2.1 ++ part, if q.2.isSome then a.2.2 else a.2.2 ++ [j])) (s, [], [])
  let x := getCh r.1 c
  r.2.2.foldl (fun a j => setCw a c new j 16) (cntFl (setCh r.1 c { x with pages := tset x.pages new { p with data := r.2.1 } }) 4 1)

/-- The block of the spare die that takes a superblock's pages: the one of the same number where it is free, else the one with the lowest erase count (R279). -/
def spareBlock (s : State) (c : Nat) (x : Super) : Option Nat :=
  let m := c % s.fl.fmtW
  let y := getCh s c
  let b := memberBlock x m
  if !(getBlock y 8 b).bad && !(rootBlocks y 8).contains b && s.fl.supers.all (fun u => !(u.g == x.g && memberChip u m == 8 && memberBlock u m == b)) then some b
  else (freeBlocks s c 8).head?

/-- Copies one superblock's block of the die position to a block of the spare die, page for page; the map, the retained pages and the segments follow. -/
def migrateSuper (s : State) (c : Nat) (x : Super) : State :=
  let m := c % s.fl.fmtW
  match spareBlock s c x with
  | none => s
  | some b =>
    let p := pagesOf (getCh s c)
    let old := pageKey x.d (memberBlock x m * p)
    let inIt (k : Nat) : Bool := decide (old ≤ k) && decide (k < old + p)
    let follow (k : Nat) : Nat := if inIt k then pageKey 8 (b * p) + (k - old) else k
    let s0 := ((getCh s c).pages.filter (fun e => inIt e.1 && hasPage x m (e.1 - old))).foldl (fun a e => copyPage a c e.1 (follow e.1) e.2) s
    let ch := getCh s0 c
    let map := ch.map.map (fun e => match e.2 with
      | .page d n => if d = x.d ∧ n / p = memberBlock x m then (e.1, MapEntry.page d (b * p + n % p)) else e
      | .lost => e)
    let s1 := setCh s0 c { ch with pages := ch.pages.filter (fun e => !inIt e.1), map := map, segs := ch.segs.map (fun e => (e.1, follow e.2)),
                                   dirty := (ch.dirty ++ (map.filter (fun e => !ch.map.contains e)).map (fun (e : Nat × MapEntry) => e.1 / 4096)).dedup }
    let s2 := putSuper s1 { x with block := x.block.set m b, onSpare := x.onSpare.set m true }
    { s2 with fl := { s2.fl with
        retained := s2.fl.retained.map (fun r => if r.ch = c then { r with key := follow r.key } else r),
        badCw := s2.fl.badCw.filter (fun w => !(w.1 == c && inIt w.2.1)) } }

/-- A superblock that holds no valid or retained data is reclaimed instead (R278). -/
def migrateOne (s : State) (c : Nat) (x : Super) : State := if superDone s.fl.fmtW x && keptPages s x == 0 then reclaim s x else migrateSuper s c x

/-- The root blocks of position 0 lie on the spare die from now on; a checkpoint puts the superblock table and the open blocks as they are now into a root (R283, R287). -/
def rootsMoved (s : State) (c die : Nat) : State :=
  let x := getCh s c
  let y := if die = 0 then { x with roots := [], rootBlk := 0, rootPage := 0 } else x
  if s.fl.fmtW = 0 then s else takeCheckpoint (setCh s c y) c

def endMigration (s : State) (c seq die : Nat) : State :=
  let s1 := (superBlocksOn s c die).foldl (fun a x => migrateOne a c x) s
  if !(superBlocksOn s1 c die).isEmpty then s1
  else
    let x := getCh s1 c
    let y := setDie (setDie x 8 { getDie x 8 with st := 1 }) die { getDie x die with st := 5 }
    let s2 := rootsMoved (setCh s1 c { y with migrating := none, migrated := some die, spare := false }) c die
    match findDesc s2 .admin seq with
    | some d => promoteDone s2 d (engineUnit c die)
    | none => s2

/-- DIE_MIGRATION_END (R282): no superblock uses the old die, and the PROMOTE completes. -/
def execDieMigrationEnd (ch : Nat) (s : State) : Res :=
  onUnit s (wellFormed (.dieMigrationEnd ch)) <|
  match (getCh s ch).migrating with
  | some (seq, die) => endMigration s ch seq die
  | none => s

end Sys2Proof.Machine
end

