-- ==== Sys2Proof/Machine/Tenants.lean ====
section
/-! DEFINITION. Per-tenant reset, teardown, and the function level reset of a virtual function (10 R324 to R326; 11 R372, R373). -/

namespace Sys2Proof.Machine

open Sys2Proof

/-! ### Per-tenant reset (11 R372) -/

/-- Changes every queue of a tenant. -/
def mapQueues (s : State) (t : Nat) (f : Queue → Queue) : State :=
  (List.range 64).foldl (fun a q => setQ a (.tenant t q) (f (getQ a (.tenant t q)))) s

/-- Steps 1 and 2: credits stop, AVAIL is 0, every PENDING descriptor ends with ABORTED. -/
def startReset (s : State) (t : Nat) (disable : Bool) (seq : Option Nat) : State :=
  let s1 := setT s t { getT s t with resetting := some (disable, seq) }
  endTenant (mapQueues s1 t (fun v => { v with avail := 0 })) t stAborted

/-- TENANT_RESET (R372). -/
def execTenantReset (seq : Nat) (s : State) : Res :=
  onUnit s true <|
  match dueDesc s .admin seq 0x83 with
  | none => s
  | some d =>
    let t := dfield d 16 1
    if 64 < t || !hasPos s t || (getT s t).retiring || (getT s t).resetting.isSome then complete s d stMalformed
    else startReset (putDesc (commit s d) { d with phase := .running }) t (bit (dfield d 17 1) 0) (some seq)

/-- Step 3: no descriptor of the tenant's own queues is uncompleted, and its contexts are FREE. -/
def resetDue (s : State) (t : Nat) : Bool :=
  s.qe.descs.all (fun d => d.tenant != t || isAdmin d.q) && busyOf s t == 0

/-- Credits granted afresh, with TAIL and PHASE kept. -/
def regrant (s : State) (q : QId) : State :=
  let v := getQ s q
  addRec (setQ s q { v with avail := creditLimit v }) { q := q, creditOnly := true, creditReset := true, grant := creditLimit v }

/-- A queue becomes DISABLED and EN reads 0; no credit record of it is written. -/
def resetDisable (s : State) (q : QId) : State :=
  let s1 := setQ s q { getQ s q with en := false, qstate := 0, avail := 0 }
  { s1 with qe := { s1.qe with recs := s1.qe.recs.filter (fun r => !(r.q == q && r.creditOnly)) } }

/-- The records that still wait at the end of a function level reset are discarded with it (R373). -/
def dropRecs (s : State) (t : Nat) : State :=
  { s with qe := { s.qe with recs := s.qe.recs.filter (fun r => isAdmin r.q || tenantOf r.q != t) } }

/-- Step 4: the transposition tables are empty, the meters full, and the tenant is torn down no more. -/
def resetTables (s : State) (t : Nat) : State :=
  let s1 := mapQueues s t (fun v => { v with tt := [], high := none })
  let s2 := setM (setM s1 t false (fillMeter (getM s1 t false))) t true (fillMeter (getM s1 t true))
  setT s2 t { getT s2 t with tornDown := false, storeFault := false }

/-- Steps 4 to 6. A function level reset (no SEQ) has taken step 4 at its start, and leaves its queues and meters as they have become since; what its committed descriptors have left in the tables goes. -/
def endReset (s : State) (t : Nat) (disable : Bool) (seq : Option Nat) : State :=
  let s1 := if seq.isSome then resetTables s t else mapQueues s t (fun v => { v with tt := [], high := none })
  let s2 := if (getT s t).flr then dropRecs s1 t else s1
  let s3 := setT s2 t { getT s2 t with resetting := none, flr := false }
  let qs := (List.range 64).map (fun q => QId.tenant t q)
  let s4 :=
    if seq.isSome && disable then qs.foldl resetDisable s3
    else
      let live := qs.filter (fun q => (getQ s3 q).qstate == 2)
      wakeQueues (if seq.isSome then live.foldl regrant s3 else s3) t
  match seq.bind (findDesc s4 .admin) with
  | some d => complete s4 d stDone
  | none => s4

/-- TENANT_RESET_END (R372, R373). -/
def execTenantResetEnd (t : Nat) (s : State) : Res :=
  onUnit s (wellFormed (.tenantResetEnd t)) <|
  match (getT s t).resetting with
  | some (dis, seq) => if resetDue s t then endReset s t dis seq else s
  | none => s

/-! ### Function level reset (11 R373) -/

/-- The function's queue fields, event settings and MSI-X table at their reset values; its records and waiting duplicates are discarded. -/
def flrRegisters (s : State) (t : Nat) : State :=
  let s1 := mapQueues s t (fun v => { ({} : Queue) with pool := v.pool })
  let s2 := setT s1 t { getT s1 t with evtEn := false, evtVector := 0 }
  { s2 with qe := { s2.qe with msix := s2.qe.msix.filter (fun e => e.1 / 128 != t),
                               recs := s2.qe.recs.filter (fun r => isAdmin r.q || tenantOf r.q != t),
                               dups := s2.qe.dups.filter (fun u => isAdmin u.q || tenantOf u.q != t) } }

def flr (s : State) (t : Nat) : State :=
  if !hasPos s t then flrRegisters s t
  else
    let s1 := setT s t { getT s t with flr := true }
    if (getT s t).retiring || (getT s t).resetting.isSome then flrRegisters s1 t
    else flrRegisters (resetTables (startReset s1 t true none) t) t

/-- FUNCTION_LEVEL_RESET of a virtual function, over the host link (R373). -/
def execFunctionLevelReset (vf : Nat) (s : State) : Res :=
  onUnit s (wellFormed (.functionLevelReset vf)) (if s.pw.hostUp then flr s vf else s)

/-! ### Teardown (10 R324 to R326) -/

/-- The tenant's MESSAGEs that wait in the receive buffers, for a serving context or for the flash, are discarded and their entries freed (R324 step 3). -/
def discardMsgs (s : State) (t : Nat) : State :=
  let s1 := (s.fab.held.filter (fun h => h.tenant == t && h.placed.isNone)).foldl (fun a h => dropHeld a h.work) s
  let mine := fun (w : FlashWait) => match w with | .delta _ m => m.tenant == t | .read _ _ => false
  (s1.fab.flashHeld.filter mine).foldl (fun a w => match w with | .delta l m => freeMsg a l m | .read _ _ => a)
    { s1 with fab := { s1.fab with flashHeld := s1.fab.flashHeld.filter (fun w => !mine w) } }

/-- Steps 1 to 3: credits stop, uncommitted descriptors end, MESSAGEs that wait are discarded. -/
def startTeardown (s : State) (t : Nat) (seq : Option Nat) : State :=
  let s1 := setT (cntFab s 8 1) t { getT s t with tornDown := true, teardownBusy := true, teardownSeq := seq }
  discardMsgs (endTenant s1 t stTeardown) t

/-- Nothing is to be torn down: the tenant is torn down already or holds no Position (R326). -/
def teardownIdle (s : State) (t : Nat) : Bool := (getT s t).tornDown || !hasPos s t

def adminTeardown (s : State) (d : Desc) : State :=
  let t := dfield d 16 1
  if 64 < t then complete s d stMalformed
  else if teardownIdle s t then complete s d stDone
  else startTeardown (putDesc (commit s d) { d with phase := .running }) t (some d.seq)

/-- The fabric manager's commands are answered with their TAG and a status: 0 done, 1 refused, 2 malformed (10 R327). -/
def answer (s : State) (tag status : Nat) : State := emit s (.answer tag status)

def managerTeardown (s : State) (tag t : Nat) : State :=
  if !nmcRuns s then s
  else if 64 < t then answer s tag 2
  else if teardownIdle s t then answer s tag 0
  else answer (startTeardown s t none) tag 0

/-- TEARDOWN (R324). -/
def execTeardown (src : TeardownSource) (s : State) : Res :=
  onUnit s true <|
  match src with
  | .admin seq =>
    match dueDesc s .admin seq 0x84 with
    | some d => adminTeardown s d
    | none => s
  | .manager tag t => managerTeardown s tag t

/-- TEARDOWN_DONE (R324 step 5): the tenant's contexts are empty. -/
def execTeardownDone (t : Nat) (s : State) : Res :=
  onUnit s (wellFormed (.teardownDone t)) <|
  let x := getT s t
  if x.teardownBusy && busyOf s t == 0 then
    let s1 := report (setT s t { x with teardownBusy := false, teardownSeq := none }) 0x0064 0 t nmcUnit t 0 0
    match x.teardownSeq.bind (findDesc s1 .admin) with
    | some d => complete s1 d stDone
    | none => s1
  else s

end Sys2Proof.Machine
end

