-- ==== Sys2Proof/Machine/Fabric.lean ====
section
/-! DEFINITION. Links, flits, the tempo counter, the fabric manager's commands and the guard sets' commands (10 R294 to R300, R304, R318 to R321, R327, R328, R331, R335 to R340). -/

namespace Sys2Proof.Machine

open Sys2Proof

/-! ### Training (R295, R300) -/

/-- A link trains: it has left DISABLED or DOWN, or trains again. -/
def training (s : State) (l : Nat) : Bool := (getLink s l).st == 1 || (getLink s l).st == 3

/-- Sends the flits held for replay again, as they were, in order (R298). -/
def replayFrom (s : State) (l : Nat) (fs : List Flit) : State :=
  if fs.isEmpty then s else cntFab (fs.foldl (fun a f => cntFab (emit a (.flit l f)) 0 1) s) 5 1

/-- Lane 4 is in service in place of the promoted lane, and the PROMOTE completes (R300, 13 R424). -/
def laneServed (s : State) (l seq : Nat) : State :=
  match findDesc s .admin seq with
  | none => setLink s l { getLink s l with promote := none }
  | some d =>
    let lane := bits (dfield d 20 4) 8 2
    let s1 := setLink s l { getLink s l with promote := none, spareIn := true, spareFor := lane }
    promoteDone { s1 with spare := { s1.spare with lanes := s1.spare.lanes ++ [(l, lane)] } } d (linkUnit l)

/-- The link is UP with its partner's port and the measured delay. -/
def trained (s : State) (l port delay : Nat) : State :=
  let s1 := linkTo (setLink (calLink s l) l { getLink s l with partner := port % 256, delay := delay % 2 ^ 16, replays := 0 }) l 2 0
  let s2 := match (getLink s l).promote with | some seq => laneServed s1 l seq | none => s1
  replayFrom s2 l (getLink s2 l).unacked

/-- LINK_UP (R295). -/
def execLinkUp (link port delay : Nat) (s : State) : Res :=
  onUnit s (wellFormed (.linkUp link port delay)) (if training s link then trained s link port delay else s)

/-- LINK_TRAINING_TIMEOUT (R295): no UP within 100 ms. -/
def execLinkTrainingTimeout (link : Nat) (s : State) : Res :=
  onUnit s (wellFormed (.linkTrainingTimeout link)) (if training s link then linkDown s link 1 else s)

/-! ### Flits (R297, R298, R302) -/

/-- Sequence number a lies at or before b, modulo 4,096. -/
def flitUpTo (a b : Nat) : Bool := decide ((4096 + b - a) % 4096 < 2048)

/-- An acknowledgement frees the flits up to it. -/
def takeFlitAck (s : State) (l ack : Nat) : State :=
  let k := getLink s l
  let left := k.unacked.filter (fun f => !flitUpTo f.seq ack)
  setLink s l { k with unacked := left, replays := if left.length < k.unacked.length then 0 else k.replays }

/-- Credits of a transmit stream come back (R40, R302). -/
def takeCredits (s : State) (l owner stream n : Nat) : State :=
  match streamOf s owner stream with
  | some x =>
    if n = 0 ∨ x.dest ≠ linkUnit l then s
    else
      let st := getStream s owner stream
      setStream s owner stream { st with credits := st.credits + min n st.held, held := st.held - n }
  | none => s

/-- A retry request that names the first missing sequence number. -/
def askRetry (s : State) (l : Nat) : State := sendFlit s l 3 (getLink s l).rxNext []

/-- The partner asks for every flit from a sequence number on: what lies before it has arrived, the rest is replayed; how often in a row the same flit is asked for is counted. -/
def takeRetry (s : State) (l seq : Nat) : State :=
  let k := getLink s l
  if !k.unacked.any (fun f => f.seq == seq) then s
  else
    let left := k.unacked.dropWhile (fun f => f.seq != seq)
    replayFrom (setLink s l { k with unacked := left, replays := if k.unacked.head?.map (fun f => f.seq) = some seq then k.replays + 1 else 1 }) l left

/-- A data or control flit is delivered in sequence order only, and the credits that it returns with it; a gap is asked for again, a repetition is discarded. -/
def takeInOrder (s : State) (l : Nat) (f : Flit) : State :=
  let k := getLink s l
  if s.bd.layer.isNone then s
  else if f.seq = k.rxNext then
    takeCredits (setLink s l { k with rxNext := (k.rxNext + 1) % 4096 }) l f.creditOwner f.creditStream f.credits
  else if flitUpTo k.rxNext f.seq then askRetry s l
  else s

/-- A received flit (R298). An idle flit and a retry request stand outside the sequence: they are never repeated, so their credits are taken at once (log entry 62). -/
def receiveFlit (s : State) (l : Nat) (f : Flit) : State :=
  let s0 := if f.fecCorrected = 0 then s else cntFab s 2 f.fecCorrected
  if f.fecBad then askRetry (cntFab s0 3 1) l
  else if f.crc ≠ crc32 (flitBytes f) then askRetry (cntFab s0 4 1) l
  else
    let s1 := takeFlitAck (cntFab s0 1 1) l f.ack
    let now := fun (a : State) => takeCredits a l f.creditOwner f.creditStream f.credits
    match f.kind with
    | 0 => now s1
    | 1 => takeInOrder s1 l f
    | 2 => takeInOrder s1 l f
    | 3 => takeRetry (now s1) l f.seq
    | _ => s1

/-- FLIT_RECEIVE (R298). -/
def execFlitReceive (link : Nat) (flit : Flit) (s : State) : Res :=
  onUnit s (wellFormed (.flitReceive link flit)) (if (getLink s link).st = 2 then receiveFlit s link flit else s)

/-- RETRY_REQUEST (R298). -/
def execRetryRequest (link seq : Nat) (s : State) : Res :=
  onUnit s (wellFormed (.retryRequest link seq)) (if (getLink s link).st = 2 then takeRetry s link seq else s)

/-- LINK_RETRY_LIMIT (R298): eight successive replays have failed to deliver the same flit. -/
def execLinkRetryLimit (link : Nat) (s : State) : Res :=
  onUnit s (wellFormed (.linkRetryLimit link)) (if (getLink s link).st = 2 ∧ 8 ≤ (getLink s link).replays then linkDown s link 2 else s)

/-! ### The tempo counter (R318 to R321, 15 R480) -/

/-- TEMPO_REF_CHANGE (15 R480; 10 R318). -/
def execTempoRefChange (valid : Bool) (s : State) : Res :=
  onUnit s true <|
  if !s.pw.powered ∨ s.fab.refOk = valid then s
  else
    let s1 := { s with fab := { s.fab with refOk := valid } }
    if valid then s1 else report s1 0x0063 0 0x7F nmcUnit 0 0 0

/-- The counter takes a slew in 1/256 tick: whole ticks move tempo, but never back into an earlier move. -/
def slew (s : State) (d : Int) : State :=
  let f := s.tempoFrac + d
  if 256 ≤ f then idleTick { s with tempoFrac := f - 256 }
  else if f ≤ -256 ∧ tickOf s ≠ 0 then { s with tempoFrac := f + 256, tempo := s.tempo - 1 }
  else { s with tempoFrac := f }

/-- Offset of the counter from the master, in 1/256 tick, by a count sent and the link's delay in 0.1 ns: a tick is 64 of these. -/
def masterOffset (s : State) (l count : Nat) : Int :=
  (s.tempo * 256 : Nat) + s.tempoFrac - (count * 256 + (getLink s l).delay * 4 : Nat)

def takeSync (s : State) (l count : Nat) : State :=
  let off := masterOffset s l count
  let inside := decide (-256 ≤ off ∧ off ≤ 256)
  let s1 := { s with fab := { s.fab with offset := off, synced := inside, offOut := !inside } }
  let s2 := if !inside && !s.fab.offOut then report s1 0x0062 0 0x7F (linkUnit l) 0 0 0 else s1
  slew s2 (-(clampI (-16) 16 off))

/-- SYNC_FLIT (R319): of the master, on the link that TEMPO_SOURCE names; under the boot schedule no link carries it (R295). -/
def execSyncFlit (link count : Nat) (s : State) : Res :=
  onUnit s (wellFormed (.syncFlit link count)) (if (getLink s link).st = 2 ∧ s.bd.layer.isSome ∧ s.fab.syncLink = link then takeSync s link count else s)

/-! ### The fabric manager's commands (R327) -/

/-- A command body that reaches the NMC: answered with its TAG and a status, and carried out when the status is 0. -/
def manager (s : State) (tag : Nat) (status : Nat) (eff : State → State) : State :=
  if !nmcRuns s then s else answer (if status = 0 then eff s else s) tag status

/-- Malformed before refused. -/
def verdict (malformed refused : Bool) : Nat := if malformed then 2 else if refused then 1 else 0

/-- SET_NODE (R327, R336). -/
def execSetNode (tag node domain : Nat) (standin : Bool) (s : State) : Res :=
  onUnit s true <|
  manager s tag (verdict (decide (256 ≤ node) || decide (65536 ≤ domain)) (!s.bd.positions.isEmpty)) (fun x =>
    { x with fab :=
        if standin then { x.fab with node := 0, domain := domain, assigned := false, standin := true, group := none, pendingGroup := none, pendingAdopt := none }
        else { x.fab with node := node, domain := domain, assigned := true, standin := false, pendingAdopt := none } })

def groupMalformed (g : GroupCfg) : Bool :=
  decide (256 ≤ g.group) || decide (g.gsize < 8) || decide (64 < g.gsize) || g.members.length != 64 || g.members.any (fun n => decide (256 ≤ n))

/-- Some guard set is enabled. -/
def guardOn (s : State) : Bool := s.fab.guards.any (fun g => g.2.st != 0)

/-- The group that is in force once what is pending has taken effect. -/
def nextGroup (s : State) : Option GroupCfg := match s.fab.pendingGroup with | some g => some g | none => s.fab.group

/-- More than the LOST mask would change. -/
def changesGroup (s : State) (g : GroupCfg) : Bool := nextGroup s != some { g with lost := match nextGroup s with | some x => x.lost | none => g.lost }

/-- SET_GROUP (R327): in force from the next move boundary. -/
def execSetGroup (tag : Nat) (cfg : GroupCfg) (s : State) : Res :=
  onUnit s true <|
  manager s tag (verdict (groupMalformed cfg) (decide (cfg.gsize ≤ cfg.pos) || s.fab.standin || (guardOn s && changesGroup s cfg)))
    (fun x => { x with fab := { x.fab with pendingGroup := some cfg } })

/-- LINK_CTRL names a link; no state of the node refuses it (R327), and a port without power has no state to change. -/
def linkCtrl (s : State) (tag link : Nat) (eff : State → State) : State :=
  manager s tag (verdict (!linkOk link) false) (fun x => if x.pw.linksOn then eff x else x)

/-- LINK_CTRL_ENABLE (R295). -/
def execLinkCtrlEnable (tag link : Nat) (s : State) : Res :=
  onUnit s true (linkCtrl s tag link (fun x => if (getLink x link).st = 0 ∨ (getLink x link).st = 4 then linkTo x link 1 0 else x))

/-- LINK_CTRL_DISABLE (R295). -/
def execLinkCtrlDisable (tag link : Nat) (s : State) : Res :=
  onUnit s true (linkCtrl s tag link (fun x => linkTo x link 0 3))

/-- LINK_CTRL_RETRAIN (R295, R472): an UP or DOWN link trains again on command. -/
def execLinkCtrlRetrain (tag link : Nat) (s : State) : Res :=
  onUnit s true (linkCtrl s tag link (fun x =>
    if (getLink x link).st = 2 ∨ (getLink x link).st = 4 then linkTo x link 3 0 else x))

/-- SET_PATHS (R314, R327). -/
def execSetPaths (tag node : Nat) (mask : BitVec 24) (s : State) : Res :=
  onUnit s true (manager s tag (verdict (decide (256 ≤ node)) false) (fun x => { x with fab := { x.fab with paths := tset x.fab.paths node mask.toNat } }))

/-- TEMPO_SOURCE (R319, R327). -/
def execTempoSource (tag link : Nat) (s : State) : Res :=
  onUnit s true (manager s tag (verdict (!linkOk link) false) (fun x => { x with fab := { x.fab with syncLink := link } }))

/-- TEMPO_SET (R321): the carried count plus the delay of the link it came by; over the sideband there is none. -/
def execTempoSet (tag link count : Nat) (s : State) : Res :=
  onUnit s true (manager s tag (verdict (decide (2 ^ 64 ≤ count)) (!s.bd.positions.isEmpty)) (fun x =>
    { x with tempo := (count + (getLink x link).delay / 64) % 2 ^ 64, tempoFrac := ((getLink x link).delay % 64 * 4 : Nat) }))

/-- ADOPT (R337): in force from the next move boundary. -/
def execAdopt (tag node : Nat) (cfg : GroupCfg) (s : State) : Res :=
  onUnit s true (manager s tag (verdict (decide (256 ≤ node) || groupMalformed cfg || decide (cfg.gsize ≤ cfg.pos)) (!s.fab.standin || !s.fab.synced))
    (fun x => { x with fab := { x.fab with pendingAdopt := some (node, cfg) } }))

/-- QUERY (R328): QUERY_REPLY gives the state, partner port and delay of every link. -/
def execQuery (tag : Nat) (s : State) : Res :=
  onUnit s true (manager s tag 0 (fun x => emit x (.queryReply ((List.range 24).map (fun l => let k := getLink x l; (k.st, k.partner, k.delay))))))

/-! ### Guard sets (R330, R331, R335, R340) -/

/-- Units of the data object. -/
def guardUnits (s : State) (g : Guard) : Nat := match findObj s g.tenant g.dataObj with | some o => o.size / pageBytes | none => 0

/-- The set's objects stand here, in T3, and every member has the data object at one SIZE. -/
def guardObjects (s : State) (g : Guard) (peersAgree : Bool) : Bool :=
  match findObj s g.tenant g.dataObj, findObj s g.tenant g.parObj with
  | some d, some p => peersAgree && d.tier == 3 && p.tier == 3 && p.type == 9 && d.num != p.num
  | _, _ => false

/-- The parity object holds P × ceil(Z ÷ k) units. -/
def guardSized (s : State) (g : Guard) : Bool :=
  match s.fab.group, findObj s g.tenant g.parObj with
  | some x, some o => decide (g.p * ceilDiv (guardUnits s g) (guardK x.gsize g.p) * pageBytes ≤ o.size)
  | _, _ => true

/-- The checks of ENABLE in their order; the code of the first that fails. -/
def guardFails (s : State) (g : Guard) (peersAgree : Bool) : Option Nat :=
  if g.p ≠ 1 ∧ g.p ≠ 2 then some 6
  else if !guardObjects s g peersAgree then some 2
  else if !guardSized s g then some 5
  else if s.fab.group.isNone then some 3
  else none

/-- A FAB_GUARD_CMD on the selected set; ignored while a command of the set runs. -/
def guardCmd (s : State) (fn : Nat) (eff : State → Nat → Guard → State) : State :=
  pfWrite s fn 0x600218 (fun x =>
    let g := getGuard x x.fab.guardSel
    if g.running then x else eff x x.fab.guardSel g)

/-- A guard set's command asks for a unit of another member, in base-layer slots. -/
def askUnit (set : Nat) (g : Guard) (x : GroupCfg) (stripe : Nat) (s : State) (h : Shard) : State :=
  let obj := if h.role < guardK x.gsize g.p then g.dataObj else g.parObj
  let p := mkPacket 6 0 8 (obj + h.unit * 2 ^ 32) 0 (toLE 4 0 ++ toLE 4 pageBytes)
  let now := getGuard s set
  match sendOn s 0x7F g.tenant (x.members.getD h.pos 0) (h.unit * 64) p (.guard set h.pos stripe) with
  | some r => setGuard r.2 set { now with asked := now.asked + 1 }
  | none => setGuard s set { now with silent := true }

/-- The stripes of a guard set. -/
def guardStripeCount (x : GroupCfg) (g : Guard) (z : Nat) : Nat := x.gsize * ceilDiv z (guardK x.gsize g.p)

/-- The units of other members from which this position's unit of a stripe follows: surviving columns ascending, then parity (R333). Units beyond Z are zeros, and need no read. -/
def unitsFor (x : GroupCfg) (g : Guard) (z stripe : Nat) : List Shard :=
  let k := guardK x.gsize g.p
  let m := guardMember x.gsize g.p x.pos stripe
  if m.1 < k ∧ (g.st = 1 ∨ z ≤ m.2) then []
  else
    let all := (List.range x.gsize).map (fun j => let r := guardMember x.gsize g.p j stripe; Shard.mk r.1 j r.2)
    let ok := all.filter (fun h => h.pos != x.pos && !bit x.lost.toNat h.pos)
    ((sortBy (fun a b => decide (a.role ≤ b.role)) ok).take k).filter (fun h => !(decide (h.role < k) && decide (z ≤ h.unit)))

/-- A RESYNC or a REBUILD of a set starts: it asks the other members for what it needs, stripe by stripe (R331, R335). -/
def startGuard (s : State) (set st : Nat) : State :=
  let g := { getGuard s set with st := st, running := true, units := 0, asked := 0, shards := [], silent := false }
  let s1 := setGuard s set g
  match s.fab.group with
  | none => s1
  | some x =>
    let z := guardUnits s g
    (List.range (guardStripeCount x g z)).foldl (fun a i => (unitsFor x g z i).foldl (askUnit set g x i) a) s1

/-- Runs a set's command; a set that is OFF is checked as ENABLE checks it (log entry 35). -/
def runGuardCmd (s : State) (set st : Nat) (peersAgree : Bool) : State :=
  let g := getGuard s set
  match if g.st = 0 then guardFails s g peersAgree else none with
  | some e => setGuard s set { g with fail := true, err := e }
  | none => startGuard s set st

/-- ENABLE: checked, then a RESYNC. -/
def enableGuard (s : State) (set : Nat) (peersAgree : Bool) : State :=
  match guardFails s (getGuard s set) peersAgree with
  | some e => setGuard s set { getGuard s set with fail := true, err := e }
  | none => startGuard s set 1

def disableGuard (s : State) (set : Nat) : State := setGuard s set { getGuard s set with st := 0, done := true, err := 0 }

/-- GUARD_ENABLE (R331). -/
def execGuardEnable (fn : Nat) (peersAgree : Bool) (s : State) : Res :=
  onUnit s (wellFormed (.guardEnable fn peersAgree)) (guardCmd s fn (fun x set _ => enableGuard x set peersAgree))

/-- GUARD_DISABLE (R331). -/
def execGuardDisable (fn : Nat) (s : State) : Res :=
  onUnit s (wellFormed (.guardDisable fn)) (guardCmd s fn (fun x set _ => disableGuard x set))

/-- GUARD_RESYNC (R334). -/
def execGuardResync (fn : Nat) (s : State) : Res :=
  onUnit s (wellFormed (.guardResync fn)) (guardCmd s fn (fun x set _ => runGuardCmd x set 1 true))

/-- GUARD_REBUILD (R335). -/
def execGuardRebuild (fn : Nat) (s : State) : Res :=
  onUnit s (wellFormed (.guardRebuild fn)) (guardCmd s fn (fun x set _ => runGuardCmd x set 3 true))

/-- What position j holds of stripe n: units beyond Z count as zeros; the others come from the members' answers. -/
def shardAt (gsize p z : Nat) (shards : List (Nat × Nat × List Byte)) (n j : Nat) : Option (Nat × List Byte) :=
  let m := guardMember gsize p j n
  if m.1 < guardK gsize p ∧ z ≤ m.2 then some (m.1, zeros pageBytes)
  else (shards.find? (fun x => x.1 == j && x.2.1 == n)).map (fun x => (m.1, x.2.2))

/-- Parity r of a stripe over its columns (R329). -/
def parityOf (r : Nat) (cols : List (List Byte)) : List Byte :=
  (List.zip (List.range cols.length) cols).foldl (fun a x => xorBytes a (gfScale (gfPow (gfAlpha x.1) r) x.2)) (zeros pageBytes)

/-- The column c of a stripe, as read or as decoded from the other shards. -/
def columnOf (k c : Nat) (sh : List (Nat × List Byte)) : Option (List Byte) :=
  match sh.find? (fun x => x.1 == c) with
  | some x => some x.2
  | none => guardDecode k c pageBytes sh

/-- What this position's shard of stripe n must hold, from the other members' shards. -/
def shardDue (gsize p z pos n : Nat) (shards : List (Nat × Nat × List Byte)) : Option (List Byte) :=
  let k := guardK gsize p
  let sh := ((List.range gsize).filter (fun j => j != pos)).filterMap (shardAt gsize p z shards n)
  let role := (guardMember gsize p pos n).1
  if role < k then columnOf k role sh
  else
    let cols := (List.range k).map (fun c => columnOf k c sh)
    if cols.any (fun c => c.isNone) then none else some (parityOf (role - k) (cols.map (fun c => c.getD [])))

/-- This position's unit of stripe n is found by decoding: it is a column, or a column that its parity needs has not come. -/
def decodes (p : Nat) (x : GroupCfg) (z pos n : Nat) (shards : List (Nat × Nat × List Byte)) : Bool :=
  let k := guardK x.gsize p
  let got := ((List.range x.gsize).filter (fun j => j != pos)).filterMap (shardAt x.gsize p z shards n)
  (List.range k).any (fun c => !got.any (fun h => h.1 == c))

/-- Recomputes the units of the stripes in ascending order: RESYNC the parity units, REBUILD the data units too; a unit that takes a decoding counts as one. An error code ends it. -/
def guardStripes (g : Guard) (x : GroupCfg) (z : Nat) (shards : List (Nat × Nat × List Byte)) : List Nat → State → Nat → State × Nat × Nat
  | [], s, n => (s, n, 0)
  | i :: r, s, n =>
    let m := guardMember x.gsize g.p x.pos i
    let data := decide (m.1 < guardK x.gsize g.p)
    if data && (g.st == 1 || decide (z ≤ m.2)) then guardStripes g x z shards r s n
    else
      match shardDue x.gsize g.p z x.pos i shards, findObj s g.tenant (if data then g.dataObj else g.parObj) with
      | some b, some o =>
        let w := writeObj (if decodes g.p x z x.pos i shards then cntFab s 9 1 else s) o (m.2 * pageBytes) b
        (match w.2 with
         | none => guardStripes g x z shards r w.1 (n + 1)
         | some _ => (w.1, n, 2))
      | none, _ => (s, n, 4)
      | _, none => (s, n, 2)

def endGuard (s : State) (set : Nat) : State :=
  let g := getGuard s set
  let e := { g with running := false, shards := [] }
  match s.fab.group with
  | none => setGuard s set { e with fail := true, err := 3 }
  | some x =>
    if g.silent then setGuard s set { e with fail := true, err := 4 }
    else
      let z := guardUnits s g
      let r := guardStripes g x z g.shards (List.range (guardStripeCount x g z)) s 0
      if r.2.2 = 0 then setGuard r.1 set { e with st := 2, done := true, err := 0, units := r.2.1 }
      else setGuard r.1 set { e with fail := true, err := r.2.2, units := r.2.1 }

/-- The set's command of this kind runs for the tenant, and every unit that it asked for has come or is past hope. -/
def guardDue (s : State) (set tenant : Nat) (rebuild : Bool) : Bool :=
  let g := getGuard s set
  g.running && g.tenant == tenant && (g.st == 3) == rebuild && g.asked == 0 && !flashWait s

/-- GUARD_COMMAND_END (R331, R335): every unit asked for has come, or a member has not answered. -/
def execGuardCommandEnd (set tenant : Nat) (rebuild : Bool) (s : State) : Res :=
  onUnit s (wellFormed (.guardCommandEnd set tenant rebuild)) (if guardDue s set tenant rebuild then endGuard s set else s)

end Sys2Proof.Machine
end

