-- ==== Sys2Proof/Machine/Firmware.lean ====
section
/-! DEFINITION. The firmware store: verifying an image, booting it, LOAD_FIRMWARE, the recovery load and the watchdog (13 R425; 14 R446 to R453). -/

namespace Sys2Proof.Machine

open Sys2Proof

/-! ### Verification (R447) -/

/-- What a verified image says of itself. -/
structure FwImage where
  version : Nat
  svn : Nat
  digest : Nat
  deriving DecidableEq, Repr

/-- The 64-byte digest D over the image with SIGNATURE read as zero. -/
def fwDigestOf (img : List Byte) : List Byte := shake256 64 (img.take 96 ++ (zeros 114 ++ img.drop 210))

def fwHeaderOk (b : List Byte) (avail : Nat) : Bool :=
  fieldAt b 0 4 == 0x4957464C && fieldAt b 4 2 == 1 && fieldAt b 6 2 == 256 && decide (4096 ≤ fieldAt b 8 4 ∧ fieldAt b 8 4 ≤ 2 ^ 25)
    && zeroAt b 14 2 && zeroAt b 24 8 && zeroAt b 89 7 && zeroAt b 210 46 && decide (fieldAt b 8 4 ≤ avail)

/-- The checks of R447 in order: the REASON of the first that fails, or the image. -/
def verifyImage (minSvn : Nat) (b : List Byte) (avail : Nat) : Except Nat FwImage :=
  if !fwHeaderOk b avail then .error 2
  else
    let img := b.take (fieldAt b 8 4)
    let key := (img.drop 32).take 57
    if leNat (shake256 32 key) ≠ Config.fwKeyDigest then .error 3
    else if !ed448Verify key ((img.drop 96).take 114) (fwDigestOf img) then .error 4
    else if fieldAt b 12 2 < minSvn then .error 5
    else .ok ⟨fieldAt b 16 8, fieldAt b 12 2, leNat (fwDigestOf img)⟩

/-- Bytes of the firmware store that are written; the store holds 2^25 bytes. -/
def storeBytes (m : Mem) (len : Nat) : List Byte := memRead m 0 (min len (2 ^ 25))

/-- Verifies what the store holds. The factory image passed checks 1 to 3 at manufacture (DESIGN CHOICE, log entry 9). -/
def verifyStore (s : State) : Except Nat FwImage :=
  match s.nmc.store with
  | .factory =>
    if Config.factoryFwSvn < s.nmc.minSvn then .error 5 else .ok ⟨Config.factoryFwVersion, Config.factoryFwSvn, Config.factoryFwDigest⟩
  | .bytes m len => verifyImage s.nmc.minSvn (storeBytes m len) len

/-- NMC_FW_STORED: the VERSION of the image in the store; 0 when it fails R447. -/
def storedVersion (s : State) : Nat := match verifyStore s with | .ok i => i.version | .error _ => 0

def setStore (s : State) (f : FwStore) : State :=
  let s1 := { s with nmc := { s.nmc with store := f } }
  { s1 with nmc := { s1.nmc with fwStored := storedVersion s1 } }

/-! ### Booting (R440 steps 2 to 4, R448) -/

/-- The boot ROM verifies the image: the NMC runs it, or the node enters recovery. -/
def bootImage (s : State) : State :=
  match verifyStore s with
  | .ok i =>
    { s with nmc := { s.nmc with recovery := false, recovCause := 0, fwVersion := i.version, fwStored := i.version, imageSvn := i.svn, fwDigest := some i.digest } }
  | .error e =>
    { s with nmc := { s.nmc with recovery := true, recovCause := e, fwVersion := 0, fwStored := 0, imageSvn := 0, fwDigest := none } }

/-- Steps 2 to 4 after a power-on reset: fuses, factory record, firmware (13 R425). -/
def bootRom (s : State) : State :=
  if nmcRuns s then s
  else
    let s1 := { s with cal := { s.cal with recordOk := Config.factoryRecordOk } }
    bootImage (if Config.factoryRecordOk then s1 else raise (countUnit s1 nmcUnit false 0) 0x00A1 2 0x7F nmcUnit 0 0 0)

/-! ### LOAD_FIRMWARE (R450 to R452) -/

/-- MIN_SVN rises to the image's SVN; a raise is used up when the value changes. -/
def raiseSvn (s : State) (svn : Nat) : State :=
  if s.nmc.minSvn < svn then { s with nmc := { s.nmc with minSvn := svn, raisesLeft := s.nmc.raisesLeft - 1 } } else s

/-- Erases the store, writes the image and reads it back. -/
def writeStore (s : State) (img : List Byte) (ok : Bool) : State :=
  setStore s (if ok then .bytes (cellsOf 0 img) img.length else .bytes [] 0)

def loadFirmware (s : State) (d : Desc) (storeOk : Bool) : State :=
  let addr := dfield d 16 8
  let len := dfield d 24 4
  let rs := bit (dfield d 28 1) 0
  if d.hostFault || !hostOpen s 0 then complete s d stHost
  else if addr % 4096 ≠ 0 ∨ 2 ^ 25 < len then completeDetail s d stMalformed 2
  else
    let img := hostRead s addr len
    if fieldAt img 8 4 ≠ len then completeDetail s d stMalformed 2
    else
      match verifyImage s.nmc.minSvn img len with
      | .error e => completeDetail s d stMalformed e
      | .ok i =>
        if rs && s.nmc.raisesLeft == 0 then completeDetail s d stMalformed 7
        else
          let s1 := writeStore (commit s d) img storeOk
          if storeOk then complete (if rs then raiseSvn s1 i.svn else s1) d stDone
          else completeDetail s1 d stMedia 6

/-- LOAD_FIRMWARE (R451, R452); `storeOk`: the store is written and read back without a failure. -/
def execLoadFirmware (seq : Nat) (storeOk : Bool) (s : State) : Res :=
  onUnit s true <|
  match dueDesc s .admin seq 0x86 with
  | some d => loadFirmware s d storeOk
  | none => s

/-! ### Loading in recovery (R453) -/

def recovEnd (s : State) (err : Nat) : State :=
  { s with nmc := { s.nmc with recovDone := s.nmc.recovDone || err == 0, recovFail := s.nmc.recovFail || err != 0, recovErr := err } }

def recoveryLoad (s : State) (storeOk : Bool) : State :=
  let len := s.nmc.recovLen
  let img := hostRead s (s.nmc.recovAddr * 4096) len
  if len < 4096 ∨ 2 ^ 25 < len ∨ fieldAt img 8 4 ≠ len then recovEnd s 2
  else
    match verifyImage s.nmc.minSvn img len with
    | .error e => recovEnd s e
    | .ok _ => recovEnd (writeStore s img storeOk) (if storeOk then 0 else 6)

/-- RECOVERY_LOAD: a write of NMC_RECOV_CMD.LOAD; ignored outside recovery and of other functions (R453, R464). -/
def execRecoveryLoad (fn : Nat) (storeOk : Bool) (s : State) : Res :=
  onUnit s (wellFormed (.recoveryLoad fn storeOk)) (if s.pw.hostUp && s.nmc.recovery && isPf fn then recoveryLoad s storeOk else s)

/-! ### The watchdog (R449) -/

/-- WATCHDOG_EXPIRY: the NMC core restarts from the verified image; nothing else changes. -/
def execWatchdogExpiry (s : State) : Res :=
  onUnit s true (if s.pw.powered && s.nmc.fwDigest.isSome then { s with nmc := { s.nmc with restarts := satAdd 16 s.nmc.restarts 1 } } else s)

end Sys2Proof.Machine
end

