-- ==== Sys2Proof/Machine/Power.lean ====
section
/-! DEFINITION. Power states, resets, sleep and wake, rank power, sensors and trips (14 R434 to R445, R458 to R461, R464; 13 R414 to R416; 03 R98; 15 R469, R475 to R477). -/

namespace Sys2Proof.Machine

open Sys2Proof

/-! ### What a reset clears (R440, R441) -/

/-- A T3 object after a reset: retained, with no PLACE of it running. -/
def keepT3 (s : State) : List Obj := (s.ms.objs.filter (fun o => o.tier == 3)).map (fun o => { o with st := 0 })

/-- The logical units that an unfinished MOVE had taken for its copy are free again. -/
def freeCopies (s : State) : State :=
  (moveCopies s).foldl (fun a o =>
    if o.tier ≠ 3 then a
    else (List.zip (List.range o.lus.length) o.lus).foldl (fun b ul =>
      let c := o.chans.getD (ul.1 % o.chans.length) 0
      setCh b c { getCh b c with freed := (getCh b c).freed ++ [ul.2] }) a) s

/-- A channel after a reset: the media stay as they are, and the map is rebuilt by the next recovery. A die migration must be commanded again (09 R283). -/
def resetChannel (c : Channel) : Channel :=
  { c with
    map := [], dirty := [], since := 0, force := false, segs := [], queue := [], migrating := none, spareLowRaised := false,
    dieSt := c.dieSt.map (fun e => (e.1, { e.2 with
      st := if e.2.st = 3 then 2 else if e.2.st = 4 then 1 else e.2.st, tempWarned := false, degraded := false, wearRaised := false, reads := 0, retries := 0 })) }

/-- The flash block after a reset: registers at their reset values, FL_FMT and FL_FMT_ID among them until the dies are discovered (09 R292); the media, with their format records, as they are. A format that was running leaves the flash unformatted. -/
def resetFlash (f : FlSt) : FlSt :=
  let base : FlSt := { chans := f.chans.map (fun e => (e.1, resetChannel e.2)), supers := f.supers, superNum := f.superNum, badCw := f.badCw }
  if f.fstate = 3 then { base with supers := [], chans := base.chans.map (fun e => (e.1, { e.2 with pages := [], roots := [], luCount := 0, fmt := none })) }
  else base

/-- A repair that had switched and was not recorded is undone when the stacks lose power (13 R423); `unrecorded` names it until the next training. -/
def undoRepairs (s : State) : State :=
  let gone := s.spare.unrecorded
  { s with
    spare := { s.spare with stackRows := s.spare.stackRows.filter (fun r => !gone.contains r) },
    ms := { s.ms with pprUsed := s.ms.pprUsed.map (fun e => (e.1, e.2 - (gone.filter (fun r => r.1 / 32 == e.1)).length)) } }

/-- Sensors of the domains that have lost power: VALID is cleared (13 R429). -/
def sensorsOff (s : State) (which : Nat → Bool) : State :=
  { s with er := { s.er with sensors := s.er.sensors.map (fun e => if which e.1 then (e.1, { e.2 with valid := false, warned := false }) else e) } }

/-- What every reset level clears: all of the fast domains' state and their registers. The tempo domain, the flash media and the retained T3 objects stay (R440, R441, R464). -/
def clearFast (s : State) : State :=
  let s1 := freeCopies s
  { s1 with
    pw := { s1.pw with pstate := 0, sleepFail := false, err := 0, rankReq := 0, rankAsked := false, stacksOn := 0, linksOn := false, flashOn := false,
                       bridgeOn := false, queueOn := false, tokenOn := false, spdmPcie := 0, sleepFmt := [] },
    nmc := { s1.nmc with ready := false, recovAddr := 0, recovLen := 0, recovDone := false, recovFail := false, recovErr := 0 },
    spare := { s1.spare with jobs := [] },
    bd := {}, ranks := [], squares := [], qe := {}, tenants := [], meters := [],
    ms := { present := s1.ms.present, pprUsed := s1.ms.pprUsed, objs := keepT3 s1, badRows := s1.ms.badRows, badBursts := s1.ms.badBursts },
    indexes := [], partials := [], fl := resetFlash s1.fl,
    fab := { refOk := s1.fab.refOk }, ts := {} }

/-- Removes the power of every fast domain (R442, R444): the stacks lose their contents. -/
def powerDown (s : State) : State :=
  let s1 := sensorsOff (undoRepairs (clearFast s)) (fun _ => true)
  { s1 with pw := { s1.pw with hostUp := false }, ms := { s1.ms with badBursts := [] } }

/-! ### Starting up (R440 steps 5 to 7) -/

/-- Logs the repairs that were not recorded (13 R423). -/
def trainStacks (s : State) : State :=
  let s1 := s.spare.unrecorded.foldl (fun a r => raise (countUnit a (stackUnit r.1) false r.2) 0x0023 2 0x7F (stackUnit r.1) r.2 0 0) { s with spare := { s.spare with unrecorded := [] } }
  let here := (List.range 8).filter (fun n => s.ms.present.getLsbD n)
  here.foldl (fun a n => calStack { a with ms := { a.ms with stackState := tset a.ms.stackState n 2 } } n) { s1 with pw := { s1.pw with stacksOn := s1.ms.present } }

/-- A promoted lane is in service again at every power-up of the links (13 R424; 10 R339). -/
def restoreLane (s : State) (l : Nat) : State :=
  match s.spare.lanes.find? (fun x => x.1 == l) with
  | some x => setLink s l { getLink s l with spareIn := true, spareFor := x.2 }
  | none => s

/-- Every link begins to train, with the lanes that have been promoted (10 R295). -/
def trainLinks (s : State) : State := (List.range 24).foldl (fun a l => linkTo (restoreLane a l) l 1 0) s

/-- Steps 5 to 7: the fast domains have power, the stacks are trained, the links train, and the node is ACTIVE. -/
def startUp (s : State) (cause : Nat) : State :=
  let s1 := trainLinks (trainStacks s)
  { s1 with
    pw := { s1.pw with pstate := 2, linksOn := true, flashOn := true, bridgeOn := true, queueOn := true, tokenOn := true, hostUp := true, tripCause := 0, tripPerst := false },
    nmc := { s1.nmc with ready := true, bootCause := cause } }

/-- Steps 5 to 7, or in recovery the host port alone (R448). -/
def goOn (s : State) (cause : Nat) : State :=
  if s.nmc.recovery then { s with pw := { s.pw with hostUp := true }, nmc := { s.nmc with bootCause := cause } } else startUp s cause

/-! ### Power (R434, R436) -/

/-- POWER_LOSS: the conversion stops; the flash media, the firmware store, the fuses and the repairs stay. -/
def execPowerLoss (s : State) : Res :=
  onUnit s true <|
  if !s.pw.powered then s
  else
    let s1 := powerDown s
    { s1 with
      pw := { s1.pw with powered := false, perst := true, wakeN := false, alertN := false, tripCause := 0, tripPerst := false, dynAddr := none, spdmMctp := 0 },
      nmc := { s1.nmc with recovery := false, fwDigest := none } }

/-- POWER_ON_RESET (R440): the tempo domain starts anew, SB_ADDR is sampled (15 R478), and the boot ROM runs. -/
def execPowerOnReset (straps : Nat) (s : State) : Res :=
  onUnit s (wellFormed (.powerOnReset straps)) <|
  if s.pw.powered then s
  else
    bootRom { s with
      tempo := 0, tempoFrac := 0, er := {}, cal := {}, pw := { straps := straps },
      spare := { stackRows := s.spare.stackRows, unrecorded := s.spare.unrecorded }, fab := {},
      nmc := { minSvn := s.nmc.minSvn, raisesLeft := s.nmc.raisesLeft, store := s.nmc.store } }

/-! ### PERST_n (R440, R442, R460; 15 R477) -/

/-- A PERST_n reset: the fast domains lose power, and the boot ROM verifies the image again. -/
def perstReset (s : State) : State :=
  let s1 := powerDown s
  let s2 := bootImage { s1 with pw := { s1.pw with perst := true, spdmMctp := 0 } }
  { s2 with nmc := { s2.nmc with bootCause := 1 } }

/-- PERST_N_ASSERT: shorter than 200 ns it is ignored; from SLEEP_READY it leads to ASLEEP; while TRIPPED the domains stay off (13 R416). -/
def execPerstNAssert (ns : Nat) (s : State) : Res :=
  onUnit s true <|
  if ns < 200 || !s.pw.powered || s.pw.perst then s
  else if s.pw.pstate = 4 then { s with pw := { s.pw with pstate := 5, perst := true, hostUp := false, spdmPcie := 0 } }
  else if s.pw.pstate = 6 then
    let s1 := perstReset s
    { s1 with pw := { s1.pw with pstate := 6, tripPerst := true } }
  else perstReset s

def tripLimit (n : Nat) : Int := if n < 16 then 115 * 8 else 105 * 8
def sensorOf (s : State) (n : Nat) : Sensor := tget {} s.er.sensors n

/-- Every sensor reads at least 15 °C below its trip threshold; an over-current shutdown ends once the current is below OC_LIMIT (13 R416). -/
def tripOver (s : State) : Bool :=
  if s.pw.tripCause = 2 then decide (s.pw.current < 340)
  else (List.range 24).all (fun n => decide ((sensorOf s n).raw ≤ tripLimit n - 120))

/-! ### Sleep (R458 to R461; 15 R475) -/

/-- What a carrier's channels look like at sleep. -/
def carrierView (s : State) : List (Nat × Nat × Bool × DieGeom × Nat) :=
  (fittedChans s).map (fun c => let x := getCh s c; (c, x.dies, x.spare, x.geom, match x.fmt with | some f => f.id | none => 0))

/-- Something that R458 waits for is in progress. -/
def sleepBusy (s : State) : Bool :=
  s.bd.job.isSome || !s.bd.recomps.isEmpty || s.bd.castling.isSome || !s.spare.jobs.isEmpty
    || (List.range 24).any (fun l => (getLink s l).promote.isSome) || (List.range 64).any (fun c => (getCh s c).migrating.isSome)
    || s.fl.fstate == 1 || s.fl.fstate == 3 || s.fl.fstate == 4 || s.fab.guards.any (fun g => g.2.running) || s.qe.descs.any (fun d => isAdmin d.q)

def sleepFails (s : State) (confirm : Nat) : Option Nat :=
  if confirm ≠ 0x51EE then some 3 else if !s.bd.positions.isEmpty then some 2 else if sleepBusy s then some 1 else none

def requestSleep (s : State) (confirm : Nat) : State :=
  match sleepFails s confirm with
  | some e => { s with pw := { s.pw with sleepFail := true, err := e } }
  | none => { s with pw := { s.pw with pstate := 3 } }

/-- SLEEP: a write of PW_CTRL with SLEEP = 1 and WAKE = 0 (R458, R462). -/
def execSleep (fn : Nat) (value : BitVec 32) (s : State) : Res :=
  onUnit s (wellFormed (.sleep fn value)) <|
  if barNmc s && isPf fn && s.pw.pstate == 2 && bit value.toNat 0 && !bit value.toNat 1 then requestSleep s (value.toNat / 65536) else s

/-- Closes every open stripe of every group (09 R275). -/
def closeAll : Nat → State → State
  | 0, s => s
  | n + 1, s =>
    match s.fl.supers.find? (fun x => openStripes x != 0) with
    | some x => closeAll n (closeOldest s x)
    | none => s

def openTotal (s : State) : Nat := (s.fl.supers.map openStripes).sum

/-- Steps 2 to 5 of R458. -/
def enterSleep (s : State) : State :=
  let s1 := if s.fl.fmtW = 0 then s else (fittedChans s).foldl takeCheckpoint s
  let s2 := closeAll (openTotal s1) s1
  let s3 := (List.range 24).foldl (fun a l => linkTo a l 4 3) s2
  let s4 := sensorsOff { s3 with ms := { s3.ms with stackState := s3.ms.stackState.map (fun e => (e.1, 3)) } } (fun n => decide (n < 16))
  { s4 with pw := { s4.pw with pstate := 4, linksOn := false, flashOn := false, bridgeOn := false, queueOn := false, tokenOn := false, sleepFmt := carrierView s4 } }

/-- QUIESCE_END (R458): STATE reads SLEEP_READY. -/
def execQuiesceEnd (s : State) : Res := onUnit s true (if s.pw.pstate = 3 then enterSleep s else s)

/-- What a wake returns to its reset value: the queue engine, the meters, the token bindings, the PW_ and NMC_ registers that R464 does not keep (R460). -/
def wakeClear (s : State) : State :=
  { s with
    qe := {}, tenants := [], meters := [], ts := { s.ts with vocabs := [], grams := [], vocabSel := 0, gramSel := 0 },
    pw := { s.pw with sleepFail := false, err := 0, rankReq := 0, rankAsked := false, wakeN := false, spdmPcie := 0 },
    nmc := { s.nmc with recovAddr := 0, recovLen := 0, recovDone := false, recovFail := false, recovErr := 0 },
    ranks := s.ranks.map (fun e => (e.1, { e.2 with clock := 0, pll := warmRank s e.1, pwrOff := false, idle := 0 })),
    bd := match s.bd.layer with
      | some b => { s.bd with streams := freshStreams 0x7F b.streams s.bd.streams }
      | none => s.bd }

/-- The carriers are compared with what they were at sleep; a difference leaves the flash failed (15 R475). -/
def checkCarriers (s : State) : State :=
  if s.pw.sleepFmt = carrierView s then s else { s with fl := { s.fl with fstate := 6, fail := true, err := 4 } }

/-- A wake: steps 5 to 7, with everything of R460 kept. -/
def wakeUp (s : State) : State := startUp (checkCarriers (wakeClear s)) 3

/-- WAKE: a write of PW_CTRL with WAKE = 1, SLEEP = 0 and CONFIRM in SLEEP_READY (R459). -/
def execWake (fn : Nat) (value : BitVec 32) (s : State) : Res :=
  onUnit s (wellFormed (.wake fn value)) <|
  if barNmc s && isPf fn && s.pw.pstate == 4 && bit value.toNat 1 && !bit value.toNat 0 && value.toNat / 65536 == 0x51EE then wakeUp s else s

/-- PME_TURN_OFF (R459). -/
def execPmeTurnOff (s : State) : Res := onUnit s true (if s.pw.pstate = 4 ∨ s.pw.pstate = 5 then emit s .pmeToAck else s)

/-- PERST_N_DEASSERT (R440 step 5, R460): the fast domains start, or the node wakes from ASLEEP, or a trip still holds them off. -/
def execPerstNDeassert (ns : Nat) (s : State) : Res :=
  onUnit s true <|
  if ns < 200 || !s.pw.powered || !s.pw.perst then s
  else
    let s1 := { s with pw := { s.pw with perst := false, wakeN := false } }
    if s.pw.pstate = 5 then wakeUp (if s.pw.wakeN then emit s1 (.pin 1 false) else s1)
    else if s.pw.pstate = 6 then (if s.pw.tripPerst && tripOver s then goOn s1 1 else s1)
    else let s2 := bootRom s1; goOn s2 s2.nmc.bootCause

/-! ### Node function reset (R440, R443) -/

/-- A node function reset: everything that PERST_n clears but for fast-domain power and the host link; the stored image runs and the stacks train again. -/
def nodeReset (s : State) : State :=
  let up := s.pw.hostUp
  let held := s.pw.pstate
  let s1 := clearFast { s with spare := { s.spare with unrecorded := [] } }
  let s2 := bootImage { s1 with pw := { s1.pw with hostUp := up, spdmMctp := 0 } }
  if held = 6 || (s.pw.perst && held == 0) then { s2 with pw := { s2.pw with pstate := held, hostUp := false }, nmc := { s2.nmc with bootCause := 2 } }
  else
    let s3 := goOn s2 2
    { s3 with pw := { s3.pw with hostUp := up } }

/-- NODE_FUNCTION_RESET: NMC_RESET.NODE with its CONFIRM, a function level reset of the physical function, or the sideband RESET, which SLEEP_READY and ASLEEP refuse (R454, R463, R464). -/
def execNodeFunctionReset (cause : ResetCause) (s : State) : Res :=
  onUnit s (wellFormed (.nodeFunctionReset cause)) <|
  match cause with
  | .register fn v => if barNmc s && isPf fn && bit v.toNat 0 && v.toNat / 65536 == 0x4E46 then nodeReset s else s
  | .physicalFlr => if s.pw.hostUp then nodeReset s else s
  | .sideband => if nmcRuns s && s.pw.pstate != 4 && s.pw.pstate != 5 then nodeReset s else s

/-! ### The host link (15 R469) -/

/-- HOST_LINK_DOWN: configuration, Positions and objects stay; what cannot be written is discarded. -/
def execHostLinkDown (s : State) : Res := onUnit s true { s with pw := { s.pw with hostUp := false, spdmPcie := 0 } }

/-- HOST_LINK_UP: the node retrains the link when its partner returns. -/
def execHostLinkUp (s : State) : Res :=
  onUnit s true <|
  if s.pw.powered && !s.pw.perst && (s.pw.pstate == 2 || s.pw.pstate == 3 || s.pw.pstate == 4 || s.nmc.recovery) then { s with pw := { s.pw with hostUp := true } } else s

/-! ### Rank power (R438, R439) -/

/-- RANK_POWER_REQUEST: a write of PW_RANK_REQ. -/
def execRankPowerRequest (fn : Nat) (value : BitVec 32) (s : State) : Res :=
  onUnit s (wellFormed (.rankPowerRequest fn value)) <|
  if barNmc s && isPf fn then { s with pw := { s.pw with rankReq := value.truncate 16, rankAsked := true } } else s

/-- Nothing needs the rank (R438). -/
def rankFree (s : State) (r : Nat) : Bool :=
  let isIn := fun (code : Nat) => code / 2 ^ 24 == 1 && rankOfSq (code % 2 ^ 24) == r
  s.bd.positions.all (fun p => p.2.squares.all (fun e => rankIdx e.die e.rank != r))
    && (match s.bd.layer with
        | some b => b.streams.all (fun x => !isIn x.source && !isIn x.dest) && b.runs.all (fun x => !(x.kind == 0 && x.path == r))
        | none => true)
    && !(getRank s r).castled
    && (match s.bd.castling with | some c => rankIdx c.die c.rank != r | none => true)

/-- The boundary's effect on one rank. Power-off discards its SRAM and contexts; power-on leaves them clear and the clock stopped. -/
def rankPower (s : State) (r : Nat) : State :=
  let k := getRank s r
  if s.pw.rankReq.getLsbD r then
    if s.pw.rankAsked && !k.pwrOff && rankFree s r then
      setRank { s with squares := s.squares.filter (fun e => rankOfSq e.1 != r) } r { k with clock := 0, pll := false, pwrOff := true, idle := 0 }
    else s
  else if k.pwrOff then setRank s r { k with clock := 0, pll := warmRank s r, pwrOff := false, idle := 0 }
  else s

/-- RANK_POWER_BOUNDARY (R438, R439). -/
def execRankPowerBoundary (s : State) : Res :=
  onUnit s true <|
  if atBoundary s && s.pw.pstate == 2 then
    let s1 := (List.range 16).foldl rankPower s
    { s1 with pw := { s1.pw with rankAsked := false } }
  else s

/-! ### Sensors and trips (13 R414 to R416, R427, R429) -/

/-- The sensor's die or stack has power. -/
def sensorOn (s : State) (n : Nat) : Bool :=
  if n < 16 then s.pw.linksOn else s.pw.stacksOn.getLsbD (n - 16)

/-- A trip or a shutdown: every fast domain loses its power (R414, R416). -/
def tripNode (s : State) (cause : Nat) : State :=
  let s1 := powerDown s
  { s1 with pw := { s1.pw with pstate := 6, tripCause := cause, tripPerst := false } }

def thermalTrip (s : State) (n : Nat) (raw : Int) : State :=
  let s1 := tripNode s 1
  raise { s1 with er := { s1.er with thermalTrip := true, tripSensor := n } } 0x00F0 3 0x7F (sensorUnit n) n (toBits 32 raw) (toBits 32 (tripLimit n))

/-- The reading with the user offset (R426, R427). -/
def effectiveOf (s : State) (n : Nat) (raw : Int) : Int := clampI (-320) 1200 (raw + (calEntry s (calKey 3 0 n)).offset)

/-- TEMP_WARN on an upward crossing of WARN_C; armed again 5 °C below. -/
def warnSensor (s : State) (n : Nat) (eff : Int) : State :=
  let x := sensorOf s n
  let lim : Int := s.er.warnC * 8
  if !x.warned && decide (lim ≤ eff) then
    raise { s with er := { s.er with sensors := tset s.er.sensors n { x with warned := true } } } 0x0046 1 0x7F (sensorUnit n) (toBits 32 eff) (toBits 32 lim) 0
  else if x.warned && decide (eff ≤ lim - 40) then { s with er := { s.er with sensors := tset s.er.sensors n { x with warned := false } } }
  else s

/-- A reading of a sensor with power. -/
def readSensor (s : State) (n : Nat) (raw : Int) : State :=
  let eff := effectiveOf s n raw
  let x := sensorOf s n
  let s1 := calTake { s with er := { s.er with sensors := tset s.er.sensors n { x with raw := raw, effective := eff, valid := true } } } (fun k => k == calKey 3 0 n)
  let s2 := if n < 16 then s1 else { s1 with ms := { s1.ms with stackTemp := tset s1.ms.stackTemp (n - 16) (eff / 8).toNat } }
  if tripLimit n ≤ raw then thermalTrip s2 n raw else warnSensor s2 n eff

/-- A reading while TRIPPED: the fast domains start once every sensor has cooled, if a PERST_n reset has asked for it (R416). -/
def coolSensor (s : State) (n : Nat) (raw : Int) : State :=
  let s1 := { s with er := { s.er with sensors := tset s.er.sensors n { sensorOf s n with raw := raw } } }
  if s1.pw.tripPerst && !s1.pw.perst && tripOver s1 then goOn s1 1 else s1

/-- A flash die's temperature, read once per second: EW_TEMP on each upward crossing of TEMP_C, armed again 5 °C below (09 R284, R285). No THERM item names a die (R427), so that the reading bears no offset (log entry 12). -/
def readDie (s : State) (c chip : Nat) (eighths : Int) : State :=
  let x := getCh s c
  let d := getDie x chip
  let lim : Int := s.fl.ewTemp * 8
  let put (v : Die) : State := setCh s c (setDie x chip v)
  let d1 := { d with temp := min 255 (eighths / 8).toNat }
  if !d.tempWarned && decide (lim ≤ eighths) then
    raise (put { d1 with tempWarned := true }) 0x0045 1 0x7F (engineUnit c chip) c chip d1.temp
  else if d.tempWarned && decide (eighths ≤ lim - 40) then put { d1 with tempWarned := false }
  else put d1

/-- SENSOR_READING: the factory-calibrated reading in 1/8 °C (R414, R427), or that of a flash die with power. -/
def execSensorReading (sensor : SensorId) (eighths : Int) (s : State) : Res :=
  onUnit s (wellFormed (.sensorReading sensor eighths)) <|
  if !s.pw.powered then s
  else match sensor with
    | .module n => if s.pw.pstate = 6 then coolSensor s n eighths else if sensorOn s n then readSensor s n eighths else s
    | .die c chip => if s.pw.flashOn && dieFitted s c chip then readDie s c chip eighths else s

/-- OVERCURRENT: the monitor sees this input current for so long (R415). -/
def execOvercurrent (deciAmps micros : Nat) (s : State) : Res :=
  onUnit s true <|
  if !s.pw.powered then s
  else
    let s0 := { s with pw := { s.pw with current := min deciAmps 65535 } }
    if 340 < deciAmps ∧ 20 ≤ micros ∧ s.pw.pstate ≠ 0 ∧ s.pw.pstate ≠ 6 then
      let s1 := tripNode s0 2
      raise { s1 with er := { s1.er with overcurrent := true } } 0x00F1 3 0x7F (sensorUnit Config.currentMonitor) deciAmps 340 0
    else s0

end Sys2Proof.Machine
end

