-- ==== Sys2Proof/Machine/Token.lean ====
section
/-! DEFINITION. The token service: bindings, UTF-8, TOKENIZE, DETOKENIZE and MASK_LOOKUP (12 R378 to R405). -/

namespace Sys2Proof.Machine

open Sys2Proof

/-! ### UTF-8 (R384; Unicode Table 3-7) -/

/-- The ranges of the bytes that follow a first byte; none for a byte that starts no character. -/
def utf8Tail (b : Nat) : Option (List (Nat × Nat)) :=
  let c := (0x80, 0xBF)
  if b < 0x80 then some []
  else if 0xC2 ≤ b ∧ b ≤ 0xDF then some [c]
  else if b = 0xE0 then some [(0xA0, 0xBF), c]
  else if b = 0xED then some [(0x80, 0x9F), c]
  else if 0xE1 ≤ b ∧ b ≤ 0xEF then some [c, c]
  else if b = 0xF0 then some [(0x90, 0xBF), c, c]
  else if 0xF1 ≤ b ∧ b ≤ 0xF3 then some [c, c, c]
  else if b = 0xF4 then some [(0x80, 0x8F), c, c]
  else none

/-- What stands at the front of a byte sequence: a character or a maximal subpart of an ill-formed sequence, with its length, or a proper prefix of a character that the sequence ends in. -/
inductive Seg where
  | char (n : Nat) | bad (n : Nat) | partial_ (n : Nat)
  deriving DecidableEq, Repr

def follow : List (Nat × Nat) → List Byte → Nat → Seg
  | [], _, n => .char n
  | _ :: _, [], n => .partial_ n
  | r :: rs, b :: bs, n => if r.1 ≤ b.toNat ∧ b.toNat ≤ r.2 then follow rs bs (n + 1) else .bad n

def segAt : List Byte → Seg
  | [] => .partial_ 0
  | b :: bs =>
    match utf8Tail b.toNat with
    | none => .bad 1
    | some rs => follow rs bs 1

/-- A character of the text: its bytes, the source bytes it stands for, and whether it replaces them. -/
structure TChar where
  out : List Byte
  src : Nat
  repl : Bool
  deriving DecidableEq, Repr

def replChar (n : Nat) : TChar := { out := [0xEF, 0xBF, 0xBD], src := n, repl := true }

/-- The characters of a byte sequence, ill-formed parts replaced, and the incomplete character that it ends in. -/
def textChars : Nat → List Byte → List TChar × List Byte
  | 0, bs => ([], bs)
  | k + 1, bs =>
    if bs.isEmpty then ([], [])
    else
      match segAt bs with
      | .partial_ _ => ([], bs)
      | .char n => let r := textChars k (bs.drop n); ({ out := bs.take n, src := n, repl := false } :: r.1, r.2)
      | .bad n => let r := textChars k (bs.drop n); (replChar n :: r.1, r.2)

def wellFormedText (bs : List Byte) : Bool :=
  let r := textChars (bs.length + 1) bs
  r.2.isEmpty && r.1.all (fun c => !c.repl)

def replCount (l : List TChar) : Nat := (l.filter (fun c => c.repl)).length

/-! ### Vocabularies and tablebases (R382, R383, R398, R399) -/

structure Voc where
  m : Mem
  space : Bool
  n : Nat
  byteBase : Nat
  merges : Nat
  strOff : Nat
  mergeOff : Nat
  vocabId : Nat
  deriving DecidableEq, Repr

def vocOf (m : Mem) : Voc :=
  { m := m, space := memLE m 6 1 == 1, n := memLE m 8 4, byteBase := memLE m 12 4, merges := memLE m 16 4, strOff := memLE m 24 8,
    mergeOff := memLE m 32 8, vocabId := memLE m 40 8 }

def Voc.strAt (v : Voc) (t : Nat) : Nat × Nat := (memLE v.m (v.strOff + 8 * t) 4, memLE v.m (v.strOff + 8 * t + 4) 2)
def Voc.str (v : Voc) (t : Nat) : List Byte := memRead v.m (v.strAt t).1 (v.strAt t).2
def Voc.merge (v : Voc) (r : Nat) : Nat × Nat × Nat :=
  let o := v.mergeOff + 12 * r
  (memLE v.m o 4, memLE v.m (o + 4) 4, memLE v.m (o + 8) 4)

/-- Bind errors: FORMAT, STRINGS and MERGES of a vocabulary; FORMAT and RUNS of a grammar. -/
def errFormat : Nat := 3

def vocErr (m : Mem) (size : Nat) : Option Nat :=
  let v := vocOf m
  let ts := List.range v.n
  let headOk :=
    decide (64 ≤ size) && memLE m 0 4 == 0x434F564C && memLE m 4 2 == 1 && decide (memLE m 6 1 ≤ 1) && memLE m 7 1 == 0
      && decide (257 ≤ v.n ∧ v.n ≤ 524288) && decide (v.byteBase + 256 ≤ v.n) && decide (v.merges ≤ 4194304) && memLE m 20 4 == 0
      && v.strOff % 64 == 0 && v.mergeOff % 64 == 0 && memLE m 48 16 == 0 && decide (v.strOff + 8 * v.n ≤ size)
      && decide (v.mergeOff + 12 * v.merges ≤ size)
  if !headOk || ts.any (fun t => let x := v.strAt t; decide (x.2 = 0) || decide (256 < x.2) || decide (size < x.1 + x.2)) then some errFormat
  else if (List.range 256).any (fun b => v.str (v.byteBase + b) != [BitVec.ofNat 8 b]) || decide ((ts.map v.str).dedup.length ≠ v.n) then some 4
  else
    let ms := (List.range v.merges).map v.merge
    if ms.any (fun x => decide (v.n ≤ x.1) || decide (v.n ≤ x.2.1) || decide (v.n ≤ x.2.2) || v.str x.2.2 != v.str x.1 ++ v.str x.2.1)
        || decide (((ms.map (fun x => (x.1, x.2.1))).dedup).length ≠ v.merges) then some 5
    else none

structure Tbl where
  m : Mem
  n : Nat
  states : Nat
  stateOff : Nat
  runOff : Nat
  vocabId : Nat
  deriving DecidableEq, Repr

def tblOf (m : Mem) : Tbl :=
  { m := m, n := memLE m 8 4, states := memLE m 12 4, stateOff := memLE m 24 8, runOff := memLE m 32 8, vocabId := memLE m 40 8 }

/-- First run, number of runs and ACCEPT of a state. -/
def Tbl.state (t : Tbl) (i : Nat) : Nat × Nat × Bool :=
  let w := memLE t.m (t.stateOff + 8 * i) 8
  (bits w 0 32, bits w 32 16, bit w 48)

/-- First token, token count and next state of a run. -/
def Tbl.run (t : Tbl) (i : Nat) : Nat × Nat × Nat :=
  let w := memLE t.m (t.runOff + 8 * i) 8
  (bits w 0 19, bits w 19 20 + 1, bits w 39 20)

def Tbl.runs (t : Tbl) (i : Nat) : List (Nat × Nat × Nat) := (List.range (t.state i).2.1).map (fun k => t.run ((t.state i).1 + k))

/-- Runs in ascending order that do not overlap, within the tokens and the states. -/
def runsOk (t : Tbl) : List (Nat × Nat × Nat) → Bool
  | [] => true
  | [a] => decide (a.1 + a.2.1 ≤ t.n) && decide (a.2.2 < t.states)
  | a :: b :: r => decide (a.1 + a.2.1 ≤ b.1) && decide (a.2.2 < t.states) && runsOk t (b :: r)

def tblErr (m : Mem) (size : Nat) : Option Nat :=
  let t := tblOf m
  let ss := List.range t.states
  let headOk :=
    decide (64 ≤ size) && memLE m 0 4 == 0x5342544C && memLE m 4 2 == 1 && memLE m 6 2 == 0 && decide (257 ≤ t.n ∧ t.n ≤ 524288)
      && decide (1 ≤ t.states ∧ t.states ≤ 1048576) && decide (memLE m 16 4 < t.states) && memLE m 20 4 == 0 && t.stateOff % 64 == 0
      && t.runOff % 64 == 0 && memLE m 48 16 == 0 && decide (t.stateOff + 8 * t.states ≤ size)
  if !headOk || ss.any (fun i => decide (size < t.runOff + 8 * ((t.state i).1 + (t.state i).2.1))) then some errFormat
  else if ss.any (fun i => !runsOk t (t.runs i)) then some 5
  else none

/-! ### Bindings (R378 to R380, R404, R405) -/

def getBind (s : State) (vocab : Bool) (n : Nat) : Binding := tget {} (if vocab then s.ts.vocabs else s.ts.grams) n
def setBind (s : State) (vocab : Bool) (n : Nat) (b : Binding) : State :=
  if vocab then { s with ts := { s.ts with vocabs := tset s.ts.vocabs n b } } else { s with ts := { s.ts with grams := tset s.ts.grams n b } }

def bindSel (s : State) (vocab : Bool) : Nat := if vocab then s.ts.vocabSel else s.ts.gramSel

/-- States of the bound grammars. -/
def statesUsed (s : State) : Nat := ((s.ts.grams.filter (fun e => decide (2 ≤ e.2.st))).map (fun e => e.2.size)).sum

def failBind (s : State) (vocab : Bool) (n err : Nat) : State :=
  let b := getBind s vocab n
  setBind s vocab n { b with st := if b.st = 1 then 0 else b.st, fail := true, err := err }

/-- BIND of the selection: busy while it is not UNBOUND, or with no base layer. -/
def startBind (s : State) (vocab : Bool) : State :=
  let n := bindSel s vocab
  let b := getBind s vocab n
  if b.st ≠ 0 then setBind s vocab n { b with fail := true, err := 1 }
  else if s.bd.layer.isNone then failBind s vocab n 1
  else setBind s vocab n { b with st := 1 }

/-- UNBIND of the selection (R380). -/
def drainBind (s : State) (vocab : Bool) (n : Nat) : State :=
  let b := getBind s vocab n
  if b.st = 2 then setBind s vocab n { b with st := 3, drain := s.qe.accepted } else s

/-- The checks of a bind, and its end. -/
def finishBind (s : State) (vocab : Bool) (n : Nat) : State :=
  let b := getBind s vocab n
  if b.st ≠ 1 then s
  else
    match findObj s b.tenant b.object with
    | none => failBind s vocab n 2
    | some o =>
      if o.tier ≠ 1 ∨ o.type ≠ (if vocab then 6 else 7) then failBind s vocab n 2
      else
        match stackBad s o 0 o.size with
        | some x => failBind (logStackBad s o.tenant x) vocab n 2
        | none =>
          let e := if vocab then vocErr o.data o.size
            else match tblErr o.data o.size with
              | some x => some x
              | none => if 1048576 < statesUsed s + (tblOf o.data).states then some 4 else none
          match e with
          | some x => failBind s vocab n x
          | none =>
            setBind s vocab n { b with st := 2, done := true, err := 0, size := if vocab then (vocOf o.data).n else (tblOf o.data).states,
                                       vocabId := memLE o.data 40 8 }

/-- The vocabulary slot or grammar that a request names. -/
def namesBind (d : Desc) (vocab : Bool) (n : Nat) : Bool :=
  match descOp d with
  | 0x28 => vocab && dfield d 52 1 == n
  | 0x29 => vocab && dfield d 56 1 == n
  | 0x2A => !vocab && dfield d 28 1 == n
  | _ => false

/-- A DRAINING binding whose earlier requests have completed becomes UNBOUND. -/
def finishUnbind (s : State) (vocab : Bool) (n : Nat) : State :=
  let b := getBind s vocab n
  if b.st = 3 ∧ ¬ s.qe.descs.any (fun d => decide (d.n < b.drain) && namesBind d vocab n) then
    setBind s vocab n { b with st := 0, done := true, size := 0, vocabId := 0 }
  else s

def execVocabBind (fn : Nat) (s : State) : Res := onUnit s (wellFormed (.vocabBind fn)) (pfWrite s fn 0xA00010 (fun x => startBind x true))
def execVocabUnbind (fn : Nat) (s : State) : Res := onUnit s (wellFormed (.vocabUnbind fn)) (pfWrite s fn 0xA00010 (fun x => drainBind x true x.ts.vocabSel))
def execGrammarBind (fn : Nat) (s : State) : Res := onUnit s (wellFormed (.grammarBind fn)) (pfWrite s fn 0xA00110 (fun x => startBind x false))
def execGrammarUnbind (fn : Nat) (s : State) : Res := onUnit s (wellFormed (.grammarUnbind fn)) (pfWrite s fn 0xA00110 (fun x => drainBind x false x.ts.gramSel))

/-- BIND_COMPLETE (R378). -/
def execBindComplete (vocab : Bool) (n : Nat) (s : State) : Res := onUnit s (wellFormed (.bindComplete vocab n)) (finishBind s vocab n)
/-- UNBIND_COMPLETE (R380). -/
def execUnbindComplete (vocab : Bool) (n : Nat) (s : State) : Res := onUnit s (wellFormed (.unbindComplete vocab n)) (finishUnbind s vocab n)

/-! ### What every request needs (R379, R402) -/

/-- The Position has a stream to or from the token service engine. -/
def hasTsStream (s : State) (t : Nat) : Bool :=
  match posOf s t with
  | none => false
  | some p => p.streams.any (fun x => x.source == tsUnit || x.dest == tsUnit)

/-- The object behind a binding that serves the request. -/
def servedBy (s : State) (d : Desc) (vocab : Bool) (n : Nat) : Option Obj :=
  let b := getBind s vocab n
  if (b.st = 2 ∨ (b.st = 3 ∧ d.n < b.drain)) ∧ (b.share ∨ b.tenant = d.tenant) ∧ hasTsStream s d.tenant then findObj s b.tenant b.object else none

/-! ### TOKENIZE (R385 to R387) -/

/-- Requests of the token service. -/
def isToken (op : Nat) : Bool := op == 0x28 || op == 0x29 || op == 0x2A

/-- A tenant's requests that the engine holds in progress (R402). -/
def tokensIn (s : State) (t : Nat) : Nat := (s.qe.descs.filter (fun d => d.tenant == t && isToken (descOp d) && d.phase == .running)).length

/-- The tenant's next waiting request, in the order of R94: each queue's earliest, the queues in service order. -/
def nextToken (s : State) (t : Nat) : Option Desc :=
  (serviceOrder s t).findSome? (fun q =>
    (s.qe.descs.find? (fun d => d.q == .tenant t q && isToken (descOp d) && (d.phase == .ready || d.phase == .meter))).bind (fun d =>
      if dispatchable s d then some d else none))

/-- The engine takes requests of the tenant while it holds fewer than 4 (R402). -/
def fillTokens : Nat → State → Nat → State
  | 0, s, _ => s
  | k + 1, s, t =>
    if 4 ≤ tokensIn s t then s
    else
      match nextToken s t with
      | none => s
      | some d =>
        let s1 := putDesc s { d with phase := .running }
        fillTokens k (match d.q with | .tenant _ q => { s1 with qe := { s1.qe with lastServed := tset s1.qe.lastServed t q } } | .admin => s1) t

/-- The request that a command names, once the engine holds it in progress. -/
def tokenDesc (s : State) (q : QId) (seq op : Nat) : Option (State × Desc) :=
  let s1 := fillTokens 4 s (tenantOf q)
  (findDesc s1 q seq).bind (fun d => if descOp d = op ∧ d.phase = .running then some (s1, d) else none)

/-- Reads of the vocabulary object that tokens take: each one's table entry and string (DESIGN CHOICE, log entry 80). -/
def vocBad (s : State) (o : Obj) (v : Voc) (ts : List Nat) : Option StackBad :=
  ts.findSome? (fun t => match stackBad s o (v.strOff + 8 * t) 8 with | some b => some b | none => stackBad s o (v.strAt t).1 (v.strAt t).2)

/-- Splits characters into chunks. -/
def chunksOf (space : Bool) : List TChar → Option Byte → List TChar → List (List TChar)
  | [], _, acc => if acc.isEmpty then [] else [acc.reverse]
  | c :: r, prev, acc =>
    let b := c.out.headD 0
    let cut := space && !acc.isEmpty && ((b == 0x20 && prev != some 0x20) || b == 0x0A || prev == some 0x0A)
    if cut then acc.reverse :: chunksOf space r (some b) [c] else chunksOf space r (some b) (c :: acc)

/-- The first symbols of a character: its token, or its bytes' tokens. -/
def charSyms (v : Voc) (c : TChar) : List Nat :=
  match (List.range v.n).find? (fun t => v.str t == c.out) with
  | some t => [t]
  | none => c.out.map (fun b => v.byteBase + b.toNat)

/-- The rank and the result of the merge of a pair. -/
def mergeOf (v : Voc) (a b : Nat) : Option (Nat × Nat) :=
  ((List.range v.merges).find? (fun r => let m := v.merge r; m.1 == a && m.2.1 == b)).map (fun r => (r, (v.merge r).2.2))

/-- The adjacent pair of lowest rank, leftmost: its position and the result. -/
def bestPair (v : Voc) : Nat → List Nat → Option (Nat × Nat × Nat)
  | i, a :: b :: r =>
    let here := (mergeOf v a b).map (fun x => (x.1, i, x.2))
    match here, bestPair v (i + 1) (b :: r) with
    | some x, some y => if y.1 < x.1 then some y else some x
    | some x, none => some x
    | none, y => y
  | _, _ => none

def mergeAll (v : Voc) : Nat → List Nat → List Nat
  | 0, l => l
  | n + 1, l =>
    match bestPair v 0 l with
    | none => l
    | some (_, i, t) => mergeAll v n (l.take i ++ (t :: l.drop (i + 2)))

def tokensOf (v : Voc) (cs : List TChar) : List Nat :=
  (chunksOf v.space cs none []).flatMap (fun c => let l := c.flatMap (charSyms v); mergeAll v l.length l)

/-- Running sums. -/
def sums : Nat → List Nat → List Nat
  | a, [] => [a]
  | a, x :: r => a :: sums (a + x) r

/-- The longest prefix of at most `max` tokens that ends on a character boundary, and how many characters it covers. -/
def keepTokens (v : Voc) (cs : List TChar) (ts : List Nat) (most : Nat) : Nat × Nat :=
  let cb := sums 0 (cs.map (fun c => c.out.length))
  let tb := (sums 0 (ts.map (fun t => (v.str t).length))).take (most + 1)
  let ok := (List.zip (List.range tb.length) tb).filterMap (fun ib => (cb.findIdx? (fun x => x == ib.2)).map (fun k => (ib.1, k)))
  ok.getLastD (0, 0)

/-- Cuts characters at the last boundary at or before `most` source bytes. -/
def cutChars (most : Nat) (cs : List TChar) : List TChar :=
  cs.take (((sums 0 (cs.map (fun c => c.src))).filter (fun x => decide (x ≤ most))).length - 1)

/-! ### Streams (R394, R395) -/

structure Stream0 where
  stopped : Bool := false
  carry : List Byte := []
  serial : Nat := 0
  hold : List Byte := []
  deriving DecidableEq, Repr

def streamBytes (kind vocab check : Nat) (x : Stream0) : List Byte :=
  [toLE 4 0x5353544C, toLE 1 kind, toLE 1 (b2n x.stopped), toLE 1 vocab, toLE 1 x.carry.length, x.carry, zeros (4 - x.carry.length), toLE 4 check,
   toLE 8 x.serial, toLE 1 x.hold.length, zeros 7, x.hold, zeros (64 - x.hold.length), zeros 32].flatten

/-- Reads a stream's state; none where R395 refuses it. -/
def streamOfBlock (kind vocab check : Nat) (b : List Byte) : Option Stream0 :=
  let n := fieldAt b 7 1
  let h := fieldAt b 24 1
  if fieldAt b 0 4 ≠ 0x5353544C ∨ fieldAt b 4 1 ≠ kind ∨ fieldAt b 6 1 ≠ vocab ∨ fieldAt b 12 4 ≠ check ∨ fieldAt b 5 1 ≠ 0 ∨ 3 < n ∨ 63 < h
      ∨ ¬ zeroAt b 25 7 ∨ ¬ zeroAt b 96 32 then none
  else some { stopped := false, carry := (b.drop 8).take n, serial := fieldAt b 16 8, hold := (b.drop 32).take h }

/-- FIRST and LAST of a request with its SFLAGS at byte `o`. -/
def isFirst (d : Desc) (o : Nat) : Bool := dfield d 32 8 == 0 || bit (dfield d o 1) 0
def isLast (d : Desc) (o : Nat) : Bool := dfield d 32 8 == 0 || bit (dfield d o 1) 1

/-- The stream that a request carries on. -/
def streamOfReq (s : State) (d : Desc) (o kind vocab check : Nat) : Option Stream0 :=
  if isFirst d o then some {} else streamOfBlock kind vocab check (hostRead s (dfield d 32 8) 128)

/-- Writes the state block of a request that names one. -/
def writeStream (s : State) (d : Desc) (kind vocab check : Nat) (x : Stream0) : State :=
  if dfield d 32 8 = 0 then s
  else hostWrite s d.tenant (dfield d 32 8) (streamBytes kind vocab check { x with serial := (x.serial + 1) % 2 ^ 64 })

/-- The 32-byte result header (R397). -/
def tsHeader (count consumed flags oflags which index token replaced vocabId : Nat) : List Byte :=
  toLE 4 count ++ (toLE 4 consumed ++ (toLE 2 flags ++ (toLE 1 oflags ++ (toLE 1 which ++ (toLE 4 index ++ (toLE 4 token ++ (toLE 4 replaced ++ toLE 8 vocabId)))))))

def tokFieldsOk (d : Desc) : Bool :=
  let f := dfield d
  decide (f 24 8 % 64 = 0) && decide (f 32 8 % 64 = 0) && decide (f 40 4 ≤ 2 ^ 24) && decide (1 ≤ f 48 4 ∧ f 48 4 ≤ 131072)
    && decide (32 + 4 * f 48 4 ≤ f 44 4) && decide (f 52 1 < 16)

def runTokenize (s : State) (d : Desc) : State :=
  let f := dfield d
  if !tokFieldsOk d then complete s d stMalformed
  else
    match servedBy s d true (f 52 1) with
    | none => complete s d stNoRes
    | some o =>
      if d.hostFault || !hostOpen s d.tenant then complete s d stHost
      else
        match streamOfReq s d 53 1 (f 52 1) 0 with
        | none => complete s d stMalformed
        | some st =>
          let v := vocOf o.data
          let text := st.carry ++ hostRead s (f 16 8) (f 40 4)
          let seg := textChars (text.length + 1) text
          let all := if seg.2.isEmpty then seg.1 else seg.1 ++ [replChar seg.2.length]
          let cut := decide (1048576 < text.length)
          let carry := if cut || isLast d 53 then [] else seg.2
          let cs := if cut then cutChars 1048576 all else if isLast d 53 then all else seg.1
          let ts := tokensOf v cs
          let tooMany := decide (f 48 4 < ts.length)
          let keep := if tooMany then keepTokens v cs ts (f 48 4) else (ts.length, cs.length)
          let out := ts.take keep.1
          let covered := ((cs.take keep.2).map (fun c => c.src)).sum + (if tooMany then 0 else carry.length)
          let carry' := if tooMany then [] else carry
          let repl := replCount cs
          let flags := fld (b2n (cut || tooMany)) 1 + fld (b2n (repl != 0)) 2
          let hdr := tsHeader out.length (covered - st.carry.length) flags (fld (b2n (!carry'.isEmpty)) 1) 0xFF 0xFFFFFFFF 0xFFFFFFFF repl v.vocabId
          match vocBad s o v out with
          | some b => complete (logStackBad s o.tenant b) d stMemory
          | none =>
          let s1 := hostWrite (cntTs (cntTs (cntTs (commit s d) 0 1) 3 out.length) 4 repl) d.tenant (f 24 8) (hdr ++ out.flatMap (toLE 4))
          complete (writeStream s1 d 1 (f 52 1) 0 { carry := carry', serial := st.serial }) d stDone

/-- TOKENIZE (R386). -/
def execTokenize (q : QId) (seq : Nat) (s : State) : Res :=
  onUnit s (wellFormed (.tokenize q seq)) <|
  match tokenDesc s q seq 0x28 with
  | some (s1, d) => runTokenize s1 d
  | none => fillTokens 4 s (tenantOf q)

/-! ### DETOKENIZE (R388 to R393) -/

/-- The stop strings of a stop block; none where it breaks R388. -/
def stopsOf (b : List Byte) : Option (List (List Byte)) :=
  let n := fieldAt b 0 1
  let at_ := fun (i : Nat) => (b.drop (8 + 72 * i)).take 72
  let es := (List.range n).map at_
  let strs := es.map (fun e => (e.drop 8).take (fieldAt e 0 1))
  if n = 0 ∨ 8 < n ∨ ¬ zeroAt b 1 7 then none
  else if es.any (fun e => decide (fieldAt e 0 1 = 0) || decide (64 < fieldAt e 0 1) || !zeroAt e 1 7 || !allZero (e.drop (8 + fieldAt e 0 1))) then none
  else if !strs.all wellFormedText || decide (strs.dedup.length ≠ n) then none
  else some strs

def flatChars (l : List TChar) : List Byte := l.flatMap (fun c => c.out)

/-- How many pending characters are released: all but the longest suffix that is a proper prefix of a stop string. -/
def releasable (stops : List (List Byte)) (p : List TChar) : Nat :=
  ((List.range (p.length + 1)).find? (fun i =>
    let b := flatChars (p.drop i)
    b.isEmpty || stops.any (fun x => decide (b.length < x.length) && b.isPrefixOf x))).getD p.length

/-- The stop string that the last pending character completes: how many characters stand before it, and its index. -/
def completedStop (stops : List (List Byte)) (p : List TChar) : Option (Nat × Nat) :=
  (List.range p.length).findSome? (fun i => (stops.findIdx? (fun x => x == flatChars (p.drop i))).map (fun k => (i, k)))

/-- Passes characters on one by one: the pending text, replacements passed, and the stop that one of them completed. -/
def passChars (stops : List (List Byte)) : List TChar → List TChar → Nat → List TChar × Nat × Option (Nat × Nat)
  | p, [], n => (p, n, none)
  | p, c :: r, n =>
    let p1 := p ++ [c]
    let n1 := n + b2n c.repl
    match completedStop stops p1 with
    | some x => (p1, n1, some x)
    | none => passChars stops p1 r n1

structure Detok where
  out : List Byte := []
  carry : List Byte := []
  pend : List TChar := []
  repl : Nat := 0
  used : Nat := 0                  -- tokens processed
  stop : Option (Nat × Nat) := none   -- token index and stop string
  full : Bool := false
  deriving DecidableEq, Repr

/-- Processes one token; a token whose release would pass the room is not taken (R393). -/
def detokOne (v : Voc) (stops : List (List Byte)) (room : Nat) (x : Detok) (t : Nat) : Detok :=
  if x.stop.isSome || x.full then x
  else
    let bs := x.carry ++ v.str t
    let seg := textChars (bs.length + 1) bs
    let r := passChars stops x.pend seg.1 0
    match r.2.2 with
    | some (i, k) =>
      let out := x.out ++ flatChars (r.1.take i)
      if room < out.length then { x with full := true }
      else { out := out, carry := [], pend := [], repl := x.repl + r.2.1, used := x.used + 1, stop := some (x.used, k), full := false }
    | none =>
      let n := releasable stops r.1
      let out := x.out ++ flatChars (r.1.take n)
      if room < out.length then { x with full := true }
      else { x with out := out, carry := seg.2, pend := r.1.drop n, repl := x.repl + r.2.1, used := x.used + 1 }

/-- The flush of a LAST request (R392). -/
def detokFlush (room : Nat) (x : Detok) : Detok :=
  if x.stop.isSome || x.full then x
  else
    let tail := if x.carry.isEmpty then [] else [replChar x.carry.length]
    let out := x.out ++ flatChars (x.pend ++ tail)
    if room < out.length then { x with full := true }
    else { x with out := out, carry := [], pend := [], repl := x.repl + replCount tail }

def detFieldsOk (d : Desc) : Bool :=
  let f := dfield d
  decide (f 24 8 % 64 = 0) && decide (f 32 8 % 64 = 0) && decide (f 48 8 % 64 = 0) && decide (f 40 4 ≤ 131072) && decide (32 ≤ f 44 4)
    && decide (f 56 1 < 16) && (f 40 4 != 0 || isLast d 57)

/-- The result of a DETOKENIZE that nothing refuses. -/
def detokEnd (s : State) (d : Desc) (v : Voc) (st : Stream0) (check : Nat) (ts : List Nat) (x : Detok) : State :=
  let f := dfield d
  let which := match x.stop with | some y => y.2 | none => 0xFF
  let index := match x.stop with | some y => y.1 | none => 0xFFFFFFFF
  let token := match x.stop with | some y => ts.getD y.1 0 | none => 0xFFFFFFFF
  let oflags := b2n x.stop.isSome + fld (b2n (!x.carry.isEmpty)) 1 + fld (b2n (!x.pend.isEmpty)) 2
  let flags := fld (b2n x.full) 1 + fld (b2n (x.repl != 0)) 2
  let hdr := tsHeader x.out.length x.used flags oflags which index token x.repl v.vocabId
  let s1 := cntTs (cntTs (cntTs (commit s d) 1 1) 4 x.repl) 5 (b2n x.stop.isSome)
  let s2 := hostWrite s1 d.tenant (f 24 8) (hdr ++ x.out)
  complete (writeStream s2 d 2 (f 56 1) check { stopped := x.stop.isSome, carry := x.carry, serial := st.serial, hold := flatChars x.pend }) d stDone

def runDetokenize (s : State) (d : Desc) : State :=
  let f := dfield d
  if !detFieldsOk d then complete s d stMalformed
  else
    match servedBy s d true (f 56 1) with
    | none => complete s d stNoRes
    | some o =>
      if d.hostFault || !hostOpen s d.tenant then complete s d stHost
      else
        let v := vocOf o.data
        let ts := (List.range (f 40 4)).map (fun i => leNat (hostRead s (f 16 8 + 4 * i) 4))
        let blk := if f 48 8 = 0 then [] else hostRead s (f 48 8) (8 + 72 * leNat (hostRead s (f 48 8) 1))
        let check := if f 48 8 = 0 then 0 else crc32 blk
        let stops := if f 48 8 = 0 then some [] else stopsOf blk
        match stops, streamOfReq s d 57 2 (f 56 1) check with
        | some l, some st =>
          if ts.any (fun t => decide (v.n ≤ t)) then complete s d stMalformed
          else
          match vocBad s o v ts with
          | some b => complete (logStackBad s o.tenant b) d stMemory
          | none =>
            let room := min (f 44 4 - 32) 1048576
            let x0 : Detok := { carry := st.carry, pend := (textChars 64 st.hold).1 }
            let x1 := ts.foldl (detokOne v l room) x0
            detokEnd s d v st check ts (if isLast d 57 then detokFlush room x1 else x1)
        | _, _ => complete s d stMalformed

/-- DETOKENIZE (R388). -/
def execDetokenize (q : QId) (seq : Nat) (s : State) : Res :=
  onUnit s (wellFormed (.detokenize q seq)) <|
  match tokenDesc s q seq 0x29 with
  | some (s1, d) => runDetokenize s1 d
  | none => fillTokens 4 s (tenantOf q)

/-! ### MASK_LOOKUP (R400, R401) -/

/-- The mask: bit t is set when a run covers token t. -/
def maskBytes (n : Nat) (rs : List (Nat × Nat × Nat)) : List Byte :=
  (List.range (8 * ceilDiv n 64)).map (fun i => BitVec.ofNat 8 (((List.range 8).map (fun j =>
    let t := 8 * i + j
    if rs.any (fun r => decide (r.1 ≤ t) && decide (t < r.1 + r.2.1)) then 2 ^ j else 0)).sum))

def runMask (s : State) (d : Desc) : State :=
  let f := dfield d
  let form := f 29 1
  if f 16 8 % 64 ≠ 0 ∨ 64 ≤ f 28 1 ∨ form % 4 = 0 then complete s d stMalformed
  else
    match servedBy s d false (f 28 1) with
    | none => complete s d stNoRes
    | some o =>
      let t := tblOf o.data
      let st := f 24 4
      let rs := t.runs st
      let e := t.state st
      let need := 32 + (if bit form 0 then 8 * ceilDiv t.n 64 else 0) + (if bit form 1 then 8 * rs.length else 0)
      if t.states ≤ st then complete s d stMalformed
      else
        match stackBad s o (t.stateOff + 8 * st) 8 with
        | some b => complete (logStackBad s o.tenant b) d stMemory
        | none =>
          if f 32 4 < need then complete s d stMalformed
          else
            match stackBad s o (t.runOff + 8 * e.1) (8 * e.2.1) with
            | some b => complete (logStackBad s o.tenant b) d stMemory
            | none =>
              let hdr := toLE 4 st ++ (toLE 4 rs.length ++ (toLE 4 t.n ++ (toLE 4 ((rs.map (fun r => r.2.1)).sum) ++ (toLE 1 (b2n e.2.2) ++ (zeros 7 ++ toLE 8 t.vocabId)))))
              let body := (if bit form 0 then maskBytes t.n rs else []) ++ (if bit form 1 then memRead o.data (t.runOff + 8 * e.1) (8 * e.2.1) else [])
              complete (hostWrite (cntTs (commit s d) 2 1) d.tenant (f 16 8) (hdr ++ body)) d stDone

/-- MASK_LOOKUP (R400). -/
def execMaskLookup (q : QId) (seq : Nat) (s : State) : Res :=
  onUnit s (wellFormed (.maskLookup q seq)) <|
  match tokenDesc s q seq 0x2A with
  | some (s1, d) => runMask s1 d
  | none => fillTokens 4 s (tenantOf q)

end Sys2Proof.Machine
end

