-- ==== Sys2Proof/Machine/RegRead.lean ====
section
/-! DEFINITION. The register map of BAR0 and the value that each register reads as (00 R1 to R7; 01 R16; 02 R62, R63; 03 R96, R97; 08 R252, R253; 09 R292, R293; 10 R339, R340; 11 R374 to R377; 12 R404, R405; 13 R429 to R432; 14 R462, R463). -/

namespace Sys2Proof.Machine

open Sys2Proof

/-! ### The map: which register an aligned 32-bit word belongs to -/

/-- A word of an array of n registers of `w` bytes from offset `lo`. -/
def inArray (o lo w n : Nat) : Bool := decide (lo ≤ o) && decide (o < lo + w * n)

/-- Offset and width of the register of a block that holds the aligned word at offset o, from the block's 64-bit offsets, 32-bit offsets and arrays (offset, width, count). -/
def pick (o : Nat) (r64 r32 : List Nat) (arr : List (Nat × Nat × Nat)) : Option (Nat × Nat) :=
  if r64.contains (o / 8 * 8) then some (o / 8 * 8, 8)
  else if r32.contains o then some (o, 4)
  else (arr.find? (fun a => inArray o a.1 a.2.1 a.2.2)).map (fun a => (o / a.2.1 * a.2.1, a.2.1))

/-- A tenant's page. -/
def tnReg (o : Nat) : Option (Nat × Nat) :=
  if o < 0x100 then pick o [0x10] [0, 0x8, 0xC] []
  else if o < 0x100 + 32 * 64 then
    let k := o % 32
    if k = 8 ∨ k = 12 then some (o, 4) else some (o / 8 * 8, 8)
  else none

/-- The register that holds the aligned 32-bit word at a BAR0 offset (R16); none: unimplemented. -/
def regAt (off : Nat) : Option (Nat × Nat) :=
  let o := off % 2 ^ 20
  let base (r : Option (Nat × Nat)) : Option (Nat × Nat) := r.map (fun x => (off - o + x.1, x.2))
  match off / 2 ^ 20 with
  | 0x0 => base (pick o [0x8, 0x10, 0x18, 0x30] [0, 0x20, 0x28, 0x38, 0x3C, 0x40] [])
  | 0x1 => base (pick o [0, 0x10] [0x8, 0xC, 0x18] [(0x100, 8, 8)])
  | 0x2 => if o < 4096 * 65 then (tnReg (o % 4096)).map (fun x => (off - o % 4096 + x.1, x.2)) else none
  | 0x3 => if o < 128 * 65 then (pick (o % 64) [0x8, 0x10, 0x18, 0x20, 0x28, 0x30] [0] []).map (fun x => (off - o % 64 + x.1, x.2)) else none
  | 0x4 => base (pick o [0x10, 0x28, 0x108, 0x110, 0x118] [0, 0x8, 0x18, 0x20, 0x100] [(0x200, 8, 16), (0x400, 4, 24), (0x8000, 4, 8192)])
  | 0x5 => base (pick o [0x8, 0x18] [0, 0x10] [])
  | 0x6 => base (pick o [0x10, 0x28, 0x30, 0x210, 0x220] [0, 0x8, 0x20, 0x200, 0x208, 0x218] [(0x100, 4, 64), (0x400, 8, 24), (0x800, 8, 10), (0x1000, 4, 256)])
  | 0x7 => base (pick o [0x28, 0x30, 0x38, 0x48, 0x50, 0x70, 0x108, 0x110, 0x118, 0x120, 0x128] [0x10, 0x18, 0x20, 0x40, 0x60, 0x68, 0x100] [(0x200, 8, 9)])
  | 0x8 => base (pick o [0x40, 0x300, 0x308, 0x310, 0x328, 0x330, 0x338, 0x340, 0x400] [0x48, 0x320] [(0, 8, 8), (0x100, 8, 64)])
  | 0x9 => base (pick o [0x8, 0x10, 0x18, 0x30, 0x38, 0x40, 0x48, 0x50, 0x58, 0x60, 0x68, 0x88, 0x1008]
                   [0, 0x20, 0x24, 0x28, 0x70, 0x78, 0x7C, 0x80, 0x1000, 0x1200] [(0x1100, 4, 16), (0x1400, 4, 65)])
  | 0xA => base (pick o [0x8, 0x18, 0x20, 0x108, 0x118, 0x200] [0, 0x10, 0x100, 0x110] [(0x300, 8, 6)])
  | 0xB => base (pick o [0x10, 0x18] [0, 0x8, 0x20, 0x24, 0x28] [])
  | _ => none

/-! ### Values, block by block -/

def nmcVal (s : State) (o : Nat) : Nat :=
  let n := s.nmc
  match o with
  | 0x00 => b2n n.ready + fld (b2n n.recovery) 1 + fld n.bootCause 4 + fld n.recovCause 8
  | 0x08 => n.fwVersion
  | 0x10 => n.fwStored
  | 0x18 => n.imageSvn + fld n.minSvn 16 + fld n.raisesLeft 32
  | 0x28 => n.restarts
  | 0x30 => n.recovAddr * 4096
  | 0x38 => n.recovLen
  | 0x40 => b2n n.recovDone + fld (b2n n.recovFail) 1 + fld n.recovErr 8
  | _ => 0

def pwVal (s : State) (o : Nat) : Nat :=
  let p := s.pw
  match o with
  | 0x00 => p.pstate + fld (b2n p.sleepFail) 3 + fld p.err 8
  | 0x10 => p.voltage + fld p.current 16 + fld p.power 32
  | 0x18 => p.energy
  | 0x20 => p.rankReq.toNat
  | 0x24 => ((List.range 16).map (fun r => fld (b2n (getRank s r).pwrOff) r)).sum
  | 0x28 => p.stacksOn.toNat + fld (b2n p.linksOn) 8 + fld (b2n p.flashOn) 9 + fld (b2n p.bridgeOn) 10 + fld (b2n p.queueOn) 11 + fld (b2n p.tokenOn) 12
  | _ => 0

def highVal (v : Queue) : Nat := v.high.getD 0 + fld (b2n v.high.isSome) 32

def qeVal (s : State) (o : Nat) : Nat :=
  let v := s.qe.adminSt
  match o with
  | 0x00 => v.cqBase * 4096
  | 0x08 => v.log2 + fld (b2n v.en) 5 + fld v.irqMode 6 + fld v.vector 8
  | 0x0C => v.head + fld v.tail 16
  | 0x10 => highVal v + fld v.avail 33 + fld v.qstate 39
  | 0x18 => poolFree s
  | _ => if 0x100 ≤ o then tget 0 s.qe.cnt ((o - 0x100) / 8) else 0

def tnState (s : State) (t : Nat) : Nat :=
  let x := getT s t
  if x.resetting.isSome || x.retiring then 3 else if x.tornDown then 2 else if hasPos s t then 1 else 0

/-- Accepted and uncompleted descriptors of a queue, the duplicates that wait among them (R353). -/
def inflight (s : State) (q : QId) : Nat := (s.qe.descs.filter (fun d => d.q == q)).length + (s.qe.dups.filter (fun u => u.q == q)).length

def tnVal (s : State) (t o : Nat) : Nat :=
  let x := getT s t
  if o < 0x100 then
    match o with
    | 0x00 => tnState s t + fld (b2n (creditsStopped s t)) 2 + fld (match posOf s t with | some p => p.queues | none => 0) 3
    | 0x08 => b2n x.overrun + fld (b2n x.aperture) 1
    | 0x0C => b2n x.evtEn + fld x.evtVector 1
    | 0x10 => x.cntOverrun + fld x.cntAperture 32
    | _ => 0
  else
    let q : QId := .tenant t ((o - 0x100) / 32)
    let v := getQ s q
    match o % 32 with
    | 0x00 => v.cqBase * 4096
    | 0x08 => v.log2 + fld v.creditsMax 5 + fld (b2n v.en) 12 + fld v.irqMode 13 + fld v.vector 15
    | 0x0C => v.head + fld v.tail 16
    | 0x10 => highVal v + fld v.avail 33 + fld (if 2 ≤ v.qstate then v.pool else 0) 40 + fld v.qstate 52 + fld (inflight s q) 54
    | _ => v.accepted + fld v.dropped 48

def mtVal (m : Meter) (o : Nat) : Nat :=
  match o with
  | 0x00 => b2n m.en + fld (b2n m.mode) 1 + fld (b2n m.action) 2 + fld m.overhead 16
  | 0x08 => m.cir + fld m.pir 32
  | 0x10 => m.cbs + fld m.pbs 32
  | 0x18 => m.tc + fld m.tp 32
  | 0x20 => m.green
  | 0x28 => m.yellow
  | 0x30 => m.red
  | _ => 0

/-- The 32 bytes of a log record (R409). -/
def evBytes (r : EvRec) : List Byte :=
  toLE 4 r.seq ++ toLE 2 r.code ++ toLE 1 r.cls ++ toLE 1 r.tenant ++ toLE 8 r.time ++ toLE 4 r.unit ++ toLE 4 r.d0 ++ toLE 4 r.d1 ++ toLE 4 r.d2

def erVal (s : State) (o : Nat) : Nat :=
  let e := s.er
  let u := tget ({} : UnitCnt) e.units e.unitSel
  match o with
  | 0x00 => b2n e.irqEn + fld e.vector 1 + fld (b2n e.alertAll) 8
  | 0x08 => e.head + fld e.tail 16
  | 0x10 => e.nextSeq + fld e.lost 32
  | 0x18 => b2n e.thermalTrip + fld (b2n e.overcurrent) 1 + fld (b2n e.retired) 2 + fld e.tripSensor 8
  | 0x28 => e.warnC + fld 115 8 + fld 105 16 + fld 340 32
  | 0x100 => e.unitSel
  | 0x108 => u.corrected + fld u.uncorrected 32
  | 0x110 => u.location
  | 0x118 => u.time
  | _ =>
    if 0x8000 ≤ o then fieldAt (evBytes (tget {} e.log ((o - 0x8000) / 32))) (o % 32) 4
    else if 0x400 ≤ o then
      let x := sensorOf s ((o - 0x400) / 4)
      if x.valid then toBits 12 x.effective + fld (toBits 12 x.raw) 16 + fld 1 28 else 0
    else if 0x200 ≤ o then tget 0 e.cnt ((o - 0x200) / 8)
    else 0

def calVal (s : State) (o : Nat) : Nat :=
  let i := s.cal.selItem
  let u := s.cal.selSub
  let x := s.cal.selIdx
  match o with
  | 0x00 => i + fld u 8 + fld x 16
  | 0x08 =>
    if calItemOk s i u x then
      toBits 16 (calFactory s i u x) + fld (toBits 16 (calEntry s (calKey i u x)).offset) 16 + fld (toBits 16 (calEffective s i u x)) 32
        + fld (b2n (calClamped s i u x)) 48 + fld (b2n (Config.calFromRecord i u x && s.cal.recordOk)) 49 + fld (b2n (calEntry s (calKey i u x)).pending) 50
    else 0
  | 0x10 => b2n s.cal.recordOk + fld (b2n Config.fusesOk) 1
  | 0x18 => Config.serial % 2 ^ 32 + fld (Config.recordVersion % 2 ^ 16) 32
  | _ => 0

/-- A signed number to `w` bits, the nearer limit when it does not fit. -/
def satBits (w : Nat) (lo hi i : Int) : Nat := toBits w (clampI lo hi i)

def fabVal (s : State) (o : Nat) : Nat :=
  let f := s.fab
  let g := getGuard s f.guardSel
  match o with
  | 0x00 => f.node + fld f.domain 8 + fld (b2n f.assigned) 24 + fld (b2n f.standin) 25
  | 0x08 => match f.group with | some x => x.group + fld x.gsize 8 + fld 1 15 + fld x.pos 16 | none => 0
  | 0x10 => match f.group with | some x => x.lost.toNat | none => 0
  | 0x20 => f.timeoutUs
  | 0x28 => fabSeed s
  | 0x30 => b2n f.refOk + fld (b2n f.synced) 1 + fld f.syncLink 8 + fld (satBits 16 (-32768) 32767 f.offset) 16
              + fld (satBits 32 (-(2 ^ 31 - 1)) (2 ^ 31 - 1) (f.offset.tdiv 256)) 32
  | 0x200 => f.guardSel
  | 0x208 => g.tenant + fld g.p 8
  | 0x210 => g.dataObj + fld g.parObj 32
  | 0x220 => g.st + fld (b2n g.done) 3 + fld (b2n g.fail) 4 + fld g.err 8 + fld g.units 32
  | _ =>
    if 0x1000 ≤ o then tget 0 f.paths ((o - 0x1000) / 4)
    else if 0x800 ≤ o then tget 0 f.cnt ((o - 0x800) / 8)
    else if 0x400 ≤ o then
      let k := getLink s ((o - 0x400) / 8)
      k.st + fld (b2n k.spareIn) 3 + fld k.spareFor 4 + fld k.partner 8 + fld k.cause 16 + fld k.delay 32
    else if 0x100 ≤ o then
      match f.group with
      | some x => if (o - 0x100) / 4 < x.gsize then x.members.getD ((o - 0x100) / 4) 0 + fld 1 8 else 0
      | none => 0
    else 0

/-- STATE of the flash: 0 with no base layer, and 1 while a load without one, which has discovered the dies, waits for its boundary (DESIGN CHOICE, log entry 70). -/
def flState (s : State) : Nat :=
  if s.bd.layer.isSome then s.fl.fstate
  else match s.bd.job with
    | some (.load _) => 1
    | _ => 0

def chInfo (s : State) (c : Nat) : Nat :=
  let x := getCh s c
  if x.dies = 0 ∨ !s.fl.found then 0
  else 1 + fld x.dies 1 + fld (b2n x.spare) 5 + fld (b2n x.migrating.isSome) 6 + fld (min 255 (spareLeft s c)) 8 + fld (if s.fl.fmtW = 0 then 0 else x.luCount) 32

def dieInfo (s : State) (c chip : Nat) : Nat :=
  let x := getCh s c
  let d := getDie x chip
  if !dieFitted s c chip || !s.fl.found then 0
  else d.st + fld (b2n d.degraded) 3 + fld (d.retired % 2 ^ 16) 4 + fld (goodBlocks x chip % 2 ^ 16) 20 + fld (min (2 ^ 16 - 1) (meanErases x chip)) 36 + fld (d.temp % 256) 52

def dieGeom (s : State) (c chip : Nat) : Nat :=
  let g := (getCh s c).geom
  if !dieFitted s c chip || !s.fl.found then 0 else g.planes + fld g.blocks 3 + fld g.pages 16 + fld g.peRated 32

def flVal (s : State) (o : Nat) : Nat :=
  let f := s.fl
  let x := getCh s f.selCh
  let fitted := f.found && decide (x.dies ≠ 0)
  match o with
  | 0x10 => f.stripeW + fld f.opPct 8
  | 0x20 => flState s + fld (b2n f.done) 3 + fld (b2n f.fail) 4 + fld f.err 8
  | 0x28 => f.capRaw
  | 0x30 => t3Capacity s
  | 0x38 => f.mapRes
  | 0x40 => f.fmtW + fld f.fmtOp 8
  | 0x48 => f.fmtId
  | 0x50 => f.recovMs + fld f.recovStripes 20 + fld f.recovLost 40 + fld (b2n f.recovOlder) 60
  | 0x68 => f.closeMs
  | 0x70 => f.ewSpare + fld f.ewWear 8 + fld f.ewRetry 16 + fld f.ewRetired 32 + fld f.ewTemp 48
  | 0x100 => f.selCh + fld f.selDie 6
  | 0x108 => chInfo s f.selCh
  | 0x110 => if fitted then x.seq else 0
  | 0x118 => if fitted then x.ckptNum + fld (min (2 ^ 32 - 1) ((s.tempo - x.ckptTick) / ticksPerMs)) 32 else 0
  | 0x120 => dieInfo s f.selCh f.selDie
  | 0x128 => dieGeom s f.selCh f.selDie
  | _ => if 0x200 ≤ o then tget 0 f.cnt ((o - 0x200) / 8) else 0

def objInfo (s : State) : Nat :=
  match findObj s s.ms.selTenant s.ms.selObject with
  | some o => 1 + fld o.type 1 + fld o.tier 9 + fld (b2n o.raw) 11 + fld o.st 12 + fld o.peer 14 + fld (o.size / 16384) 32
  | none => 0

def bar4Val (m : Bar4Map) : Nat := b2n m.valid + fld (b2n m.err) 1 + fld m.tenant 2 + fld m.object 16 + fld m.segOff 48

def msVal (s : State) (o : Nat) : Nat :=
  let m := s.ms
  match o with
  | 0x40 => m.seed
  | 0x48 => m.bar4Size
  | 0x300 => m.selObject + fld m.selTenant 32
  | 0x308 => objInfo s
  | 0x310 => match findObj s m.selTenant m.selObject with | some o => o.size | none => 0
  | 0x320 => m.useSel
  | 0x328 => useT0 s m.useSel
  | 0x330 => useT1 s m.useSel
  | 0x338 => useT2x s m.useSel
  | 0x340 => useT3 s m.useSel
  | 0x400 => m.rowOps % 2 ^ 48 + fld m.refused 48
  | _ =>
    if 0x100 ≤ o then bar4Val (tget {} m.bar4Map ((o - 0x100) / 8))
    else
      let n := o / 8
      let st := tget 0 m.stackState n
      let used := tget 0 m.pprUsed n
      b2n (m.present.getLsbD n) + fld st 1 + fld (min 255 (tget 0 m.stackTemp n)) 8 + (if st = 0 then 0 else fld used 16 + fld (1024 - used) 28)

/-! ### BD_ -/

/-- Slots per move on a path that runs of these own. -/
def slotsOn (l : List Run) (kind path : Nat) : Nat := ((l.filter (fun r => r.kind == kind && r.path == path)).map (fun r => r.countM1 + 1)).sum

/-- BD_SLOT_FREE (R63): 0 until BD_SLOT_QUERY has been written since the reset. -/
def slotFree (s : State) : Nat :=
  let k := s.bd.slotKind
  let p := s.bd.slotPath
  if ¬ s.bd.slotAsked ∨ pathsOf k ≤ p then 0
  else
    let base := slotsOn (match s.bd.layer with | some b => b.runs | none => []) k p
    (slotsPerMove k - slotsOn (allRuns s) k p) + fld base 13

/-- Active Squares that an admission could claim (R49 check 7). -/
def claimable (s : State) : Nat :=
  match s.bd.layer with
  | none => 0
  | some b =>
    let named := fun (n : Nat) => b.streams.any (fun x => x.source == sqUnit n || x.dest == sqUnit n)
    ((List.range 272).filter (fun n => n % 17 != 16 && !(getRank s (rankOfSq n)).pwrOff && !named n
      && !s.bd.positions.any (fun p => p.2.squares.any (fun e => physIdx e.die e.rank e.file == n)))).length

/-- The Position and logical index whose work a physical Square carries. -/
def carried (s : State) (n : Nat) : Option (Nat × Position × Nat) :=
  s.bd.positions.findSome? (fun p => ((List.range p.2.squares.length).find? (fun i => (carriers s p.2).getD i 272 == n)).map (fun i => (p.1, p.2, i)))

def sqState (s : State) (die file rank : Nat) : Nat :=
  let r := getRank s (rankIdx die rank)
  if r.pwrOff then 4 else if file = 16 then (if r.castled then 3 else 2) else if r.castled ∧ r.castleFile = file then 1 else 0

def carrierFile (s : State) (die file rank : Nat) : Nat :=
  let r := getRank s (rankIdx die rank)
  if r.castled then (if file = 16 then r.castleFile else if r.castleFile = file then 16 else file) else file

def sqInfo (s : State) : Nat :=
  let die := bits s.bd.sqSel 0 1
  let file := bits s.bd.sqSel 1 5
  let rank := bits s.bd.sqSel 6 3
  if 16 < file then 0x7F
  else
    let n := physIdx die rank file
    let busy := ((getSq s n).ctxs.filter (fun c => ctxBusy c.2)).length
    let own := match carried s n with
      | some (t, p, i) =>
        let e := p.squares.getD i ⟨0, 0, 0, 0, 0⟩
        t + fld i 8 + fld e.ctx 16 + fld (match p.prog.squares[i]? with | some x => x.serve | none => 0) 23 + fld (scanBuf p i / 16) 45
      | none => 0x7F
    own + fld busy 30 + fld (sqState s die file rank) 37 + fld (carrierFile s die file rank) 40

def rankState (s : State) (r : Nat) : Nat :=
  let k := getRank s r
  let warm := match s.bd.layer with | some b => b.warm.getLsbD r | none => false
  let pend := match s.bd.castling with | some c => rankIdx c.die c.rank == r | none => false
  k.clock + fld (b2n warm) 2 + fld (b2n k.pwrOff) 3 + fld (b2n k.castled) 4 + fld k.castleFile 5 + fld (b2n pend) 10

def castleStatus (s : State) : Nat :=
  let b := s.bd
  let phase := match b.castling with | some c => min 3 c.phase | none => 0
  b2n b.castDone + fld (b2n b.castFail) 1 + fld phase 2 + fld b.castReason 8 + fld b.castDie 16 + fld b.castFile 17 + fld b.castRank 22 + fld (b2n b.castRevert) 25

def posMap (s : State) : Nat := ((allTenants.filter (fun t => decide (t < 64) && hasPos s t)).map (fun t => 2 ^ t)).sum

/-- RECOMP_BUSY reads 1 from a recomposition's acceptance until its end, also while it waits behind another (DESIGN CHOICE, log entry 74). -/
def bdVal (s : State) (o : Nat) : Nat :=
  let b := s.bd
  match o with
  | 0x00 => b.base + fld (b2n !b.recomps.isEmpty) 2 + fld b.positions.length 8
  | 0x08 => match b.layer with | some l => l.baseId | none => 0
  | 0x10 => match b.layer with | some l => l.linkSched + fld l.compiler 32 | none => 0
  | 0x18 => b.baseAddr * 4096
  | 0x20 => b.baseLen
  | 0x28 => b2n b.done + fld (b2n b.fail) 1 + fld b.err 8
  | 0x30 => s.tempo
  | 0x38 => b.admTenant + fld b.admOp 7 + fld b.admReason 8 + fld (b2n b.admValid) 16
  | 0x40 => b.admMove % 2 ^ 52
  | 0x48 => posMap s
  | 0x50 => b2n (hasPos s 64)
  | 0x58 => b.capT0
  | 0x60 => b.capStack
  | 0x68 => b.capT3
  | 0x70 => 64 * claimable s + fld (claimable s) 16
  | 0x78 => b.slotKind + fld b.slotPath 4
  | 0x7C => slotFree s
  | 0x80 => match b.layer with | some l => l.warm.toNat | none => 0
  | 0x88 => Config.baseStack s.nmc.fwVersion
  | 0x1000 => b.sqSel
  | 0x1008 => sqInfo s
  | 0x1200 => castleStatus s
  | _ =>
    if 0x1400 ≤ o then
      let t := (o - 0x1400) / 4
      (match posOf s t with | some p => p.contexts | none => 0) + fld (busyOf s t) 15
    else if 0x1100 ≤ o then rankState s ((o - 0x1100) / 4)
    else 0

/-! ### TS_ -/

def bindVal (b : Binding) : Nat := b.object + fld b.tenant 32 + fld (b2n b.share) 39
def bindStatus (b : Binding) : Nat := b.st + fld (b2n b.done) 2 + fld (b2n b.fail) 3 + fld b.err 8 + fld b.size 16

def tsVal (s : State) (o : Nat) : Nat :=
  let v := getBind s true s.ts.vocabSel
  let g := getBind s false s.ts.gramSel
  match o with
  | 0x00 => s.ts.vocabSel
  | 0x08 => bindVal v
  | 0x18 => bindStatus v
  | 0x20 => v.vocabId
  | 0x100 => s.ts.gramSel
  | 0x108 => bindVal g
  | 0x118 => bindStatus g
  | 0x200 => statesUsed s + fld (1048576 - statesUsed s) 32
  | _ => if 0x300 ≤ o then tget 0 s.ts.cnt ((o - 0x300) / 8) else 0

/-- The value of the register at a BAR0 offset where a register stands. -/
def regVal (s : State) (off : Nat) : Nat :=
  let o := off % 2 ^ 20
  match off / 2 ^ 20 with
  | 0x0 => nmcVal s o
  | 0x1 => qeVal s o
  | 0x2 => tnVal s (o / 4096) (o % 4096)
  | 0x3 => mtVal (getM s (o / 128) (decide (64 ≤ o % 128))) (o % 64)
  | 0x4 => erVal s o
  | 0x5 => calVal s o
  | 0x6 => fabVal s o
  | 0x7 => flVal s o
  | 0x8 => msVal s o
  | 0x9 => bdVal s o
  | 0xA => tsVal s o
  | 0xB => pwVal s o
  | _ => 0

/-! ### Accesses (R6, R7, R342) -/

/-- The function's window: BAR0 of the physical function, or the tenant's page for a virtual one. None: beyond the page. -/
def barOffset (fn off : Nat) : Option Nat :=
  if fn = 0 then some off else if off < 4096 then some (0x200000 + 4096 * fn + off) else none

/-- The block answers (14 R448, R459). -/
def blockOpen (s : State) (off : Nat) : Bool := barFull s || off / 2 ^ 20 == 0 || off / 2 ^ 20 == 0xB

/-- The register of an aligned word, where the block answers. -/
def openReg (s : State) (fn off : Nat) : Option (Nat × Nat) :=
  (barOffset fn off).bind (fun a => if blockOpen s a then regAt a else none)

/-- A size and alignment that R6 allows. -/
def wordAccess (off bytes : Nat) : Bool := (bytes == 4 || bytes == 8) && off % (max 1 bytes) == 0

/-- The 32-bit half of a register at word `a`. -/
def regWord (s : State) (r : Nat × Nat) (a : Nat) : Nat := bits (regVal s r.1) (8 * (a - r.1)) 32

/-- What a read of a submission aperture returns: zeros (11 R347). -/
def apertureRead (bytes : Nat) : List Byte := zeros bytes

/-- The value of the 32-bit word at an offset: 0 where no register stands. -/
def readWord (s : State) (fn off : Nat) : Nat :=
  match openReg s fn off, barOffset fn off with
  | some r, some a => regWord s r a
  | _, _ => 0

/-- The function's window answers: a virtual function's only while every block does. -/
def barAnswers (s : State) (fn : Nat) : Bool := if fn = 0 then barNmc s else barFull s

/-- The value that a read of a register returns. -/
def barRead (s : State) (fn off bytes : Nat) : Nat :=
  if !barAnswers s fn || !wordAccess off bytes then 0
  else if bytes = 4 then readWord s fn off
  else readWord s fn off + readWord s fn (off + 4) * 2 ^ 32

/-- The words of an access at which no register stands (R6, R7): each is an access of its own, but for an ill-formed access, which is one. -/
def unimplWords (s : State) (fn off bytes : Nat) : List Nat :=
  if !wordAccess off bytes then [off]
  else
    let l := if bytes = 4 then [off] else [off, off + 4]
    let miss := l.filter (fun a => (openReg s fn a).isNone)
    if miss.length = 2 then [off] else miss

/-- BAR_UNIMPL (R7): an access that meets no register is counted and logged. -/
def execBarUnimpl (fn off bytes : Nat) (write : Bool) (s : State) : Res :=
  onUnit s (wellFormed (.barUnimpl fn off bytes write)) (if barAnswers s fn then (unimplWords s fn off bytes).foldl (fun a o => barUnimplEvent a fn o write) s else s)

end Sys2Proof.Machine
end

