-- ==== Sys2Proof/Machine/Registers.lean ====
section
/-! DEFINITION. Writes of registers (00 R3 to R7 and the rules that each block adds: 02 R62; 03 R96; 08 R252, R253; 09 R292, R293; 10 R339, R340; 11 R374 to R377; 12 R404, R405; 13 R411, R412, R429 to R432; 14 R462 to R464), and the host port's other events (08 R241; 11 R344; 13 R410; 15 R474). -/

namespace Sys2Proof.Machine

open Sys2Proof

/-! ### The event log (13 R411, R412, R429) -/

/-- ALERT_n is released once HEAD equals TAIL. -/
def logHead (s : State) (head : Nat) : State :=
  let s1 := { s with er := { s.er with head := head } }
  if head = s.er.tail then setAlert s1 false else s1

def clearCounters (s : State) : State := { s with er := { s.er with cnt := [], units := [] } }

def clearLog (s : State) : State := setAlert { s with er := { s.er with head := 0, tail := 0, lost := 0 } } false

/-- CLEAR_COUNTERS: ER_CLEAR.COUNTERS. -/
def execClearCounters (fn : Nat) (s : State) : Res := onUnit s (wellFormed (.clearCounters fn)) (pfWrite s fn 0x400020 clearCounters)

/-- CLEAR_LOG: ER_CLEAR.LOG. -/
def execClearLog (fn : Nat) (s : State) : Res := onUnit s (wellFormed (.clearLog fn)) (pfWrite s fn 0x400020 clearLog)

/-- EVENT_LOG_HEAD_WRITE: ER_LOG_PTR.HEAD. -/
def execEventLogHeadWrite (fn : Nat) (head : BitVec 32) (s : State) : Res :=
  onUnit s (wellFormed (.eventLogHeadWrite fn head)) (pfWrite s fn 0x400008 (fun x => logHead x (bits head.toNat 0 10)))

/-! ### The blocks: `m` is the register's value with the written half or halves in place, `w` the written bits alone -/

def writeNmc (s : State) (o m w : Nat) : State :=
  match o with
  | 0x20 => if bit w 0 ∧ w / 65536 = 0x4E46 then nodeReset s else s
  | 0x30 => { s with nmc := { s.nmc with recovAddr := m / 4096 } }
  | 0x38 => { s with nmc := { s.nmc with recovLen := bits m 0 26 } }
  | 0x40 => { s with nmc := { s.nmc with recovDone := s.nmc.recovDone && !bit w 0, recovFail := s.nmc.recovFail && !bit w 1 } }
  | _ => s

def writePw (s : State) (o m w : Nat) : State :=
  match o with
  | 0x00 => { s with pw := { s.pw with sleepFail := s.pw.sleepFail && !bit w 3 } }
  | 0x08 =>
    if bit w 0 && !bit w 1 && s.pw.pstate == 2 then requestSleep s (w / 65536)
    else if bit w 1 && !bit w 0 && s.pw.pstate == 4 && w / 65536 == 0x51EE then wakeUp s
    else s
  | 0x20 => { s with pw := { s.pw with rankReq := BitVec.ofNat 16 m, rankAsked := true } }
  | _ => s

/-- The base of a queue's ring, fixed unless the queue is DISABLED (R348, R377). -/
def writeCqBase (s : State) (q : QId) (m : Nat) : State :=
  if (getQ s q).qstate = 0 then setQ s q { getQ s q with cqBase := m / 4096 } else s

/-- A HEAD outside the ring is treated as TAIL (R377). -/
def writeHead (s : State) (q : QId) (h : Nat) : State :=
  setQ s q { getQ s q with head := if h < ringSize (getQ s q) then h else (getQ s q).tail }

def writeQe (s : State) (o m w : Nat) : State :=
  match o with
  | 0x00 => writeCqBase s .admin m
  | 0x08 => writeQueueCfg s .admin m (bit w 5)
  | 0x0C => writeHead s .admin (bits w 0 16)
  | _ => s

def writeTn (s : State) (t o m w : Nat) : State :=
  let x := getT s t
  if o < 0x100 then
    match o with
    | 0x08 => setT s t { x with overrun := x.overrun && !bit w 0, aperture := x.aperture && !bit w 1 }
    | 0x0C => setT s t { x with evtEn := bit w 0, evtVector := bits w 1 7 }
    | _ => s
  else
    let q : QId := .tenant t ((o - 0x100) / 32)
    match o % 32 with
    | 0x00 => writeCqBase s q m
    | 0x08 => writeQueueCfg s q m (bit w 12)
    | 0x0C => writeHead s q (bits w 0 16)
    | _ => s

def writeMt (s : State) (t : Nat) (eg : Bool) (o m : Nat) : State :=
  let x := getM s t eg
  match o with
  | 0x00 => writeMeterCfg s t eg m
  | 0x08 => if x.en then s else setM s t eg { x with cir := bits m 0 32, pir := bits m 32 32 }
  | 0x10 => if x.en then s else setM s t eg { x with cbs := bits m 0 32, pbs := bits m 32 32 }
  | _ => s

def writeEr (s : State) (o m w : Nat) : State :=
  let e := s.er
  match o with
  | 0x00 => { s with er := { e with irqEn := bit m 0, vector := bits m 1 7, alertAll := bit m 8 } }
  | 0x08 => logHead s (bits w 0 10)
  | 0x18 => { s with er := { e with thermalTrip := e.thermalTrip && !bit w 0, overcurrent := e.overcurrent && !bit w 1, retired := e.retired && !bit w 2 } }
  | 0x20 => let s1 := if bit w 0 then clearCounters s else s; if bit w 1 then clearLog s1 else s1
  | 0x28 => { s with er := { e with warnC := bits m 0 8 } }
  | 0x100 => { s with er := { e with unitSel := m } }
  | _ => s

def writeCal (s : State) (o m : Nat) : State :=
  match o with
  | 0x00 => { s with cal := { s.cal with selItem := bits m 0 8, selSub := bits m 8 8, selIdx := bits m 16 16 } }
  | _ => s

/-- A command of a guard set, written as a register: the peers' sets agree (log entry 35). -/
def guardCommand (s : State) (set cmd : Nat) : State :=
  match cmd with
  | 1 => enableGuard s set true
  | 2 => disableGuard s set
  | 3 => runGuardCmd s set 1 true
  | 4 => runGuardCmd s set 3 true
  | _ => s

def writeFab (s : State) (o m w : Nat) : State :=
  let f := s.fab
  let g := getGuard s f.guardSel
  match o with
  | 0x20 => { s with fab := { f with timeoutUs := bits m 0 16 } }
  | 0x200 => { s with fab := { f with guardSel := bits m 0 6 } }
  | 0x208 => if g.st = 0 then setGuard s f.guardSel { g with tenant := bits m 0 7, p := bits m 8 2 } else s
  | 0x210 => if g.st = 0 then setGuard s f.guardSel { g with dataObj := bits m 0 32, parObj := bits m 32 32 } else s
  | 0x218 => if g.running then s else guardCommand s f.guardSel (bits w 0 3)
  | 0x220 => setGuard s f.guardSel { g with done := g.done && !bit w 3, fail := g.fail && !bit w 4 }
  | _ => s

def writeFl (s : State) (o m w : Nat) : State :=
  let f := s.fl
  match o with
  | 0x10 => { s with fl := { f with stripeW := bits m 0 2, opPct := bits m 8 5 } }
  | 0x18 => if bit w 0 then startFormat s (bits w 16 16) else s
  | 0x20 => { s with fl := { f with done := f.done && !bit w 3, fail := f.fail && !bit w 4 } }
  | 0x60 => if bit w 0 then (fittedChans s).foldl (fun a c => setCh a c { getCh a c with force := true }) s else s
  | 0x68 => { s with fl := { f with closeMs := bits m 0 13 } }
  | 0x70 => { s with fl := { f with ewSpare := bits m 0 8, ewWear := bits m 8 8, ewRetry := bits m 16 16, ewRetired := bits m 32 16, ewTemp := bits m 48 8 } }
  | 0x100 => { s with fl := { f with selCh := bits m 0 6, selDie := bits m 6 4 } }
  | _ => s

/-- A BAR4 mapping; it is in error when it names no T1 object (08 R252). -/
def bar4MapOf (s : State) (m : Nat) : Bar4Map :=
  let named := match findObj s (bits m 2 7) (bits m 16 32) with | some o => o.tier == 1 | none => false
  { valid := bit m 0, err := bit m 0 && !named, tenant := bits m 2 7, object := bits m 16 32, segOff := bits m 48 16 }

def writeMs (s : State) (o m : Nat) : State :=
  if 0x100 ≤ o ∧ o < 0x300 then { s with ms := { s.ms with bar4Map := tset s.ms.bar4Map ((o - 0x100) / 8) (bar4MapOf s m) } }
  else
    match o with
    | 0x300 => { s with ms := { s.ms with selObject := bits m 0 32, selTenant := bits m 32 7 } }
    | 0x320 => { s with ms := { s.ms with useSel := bits m 0 7 } }
    | _ => s

def writeBd (s : State) (o m w : Nat) : State :=
  let b := s.bd
  match o with
  | 0x18 => { s with bd := { b with baseAddr := m / 4096 } }
  | 0x20 => { s with bd := { b with baseLen := bits m 0 27 } }
  | 0x24 =>
    if bit w 0 && !bit w 1 then (if baseBusy s then failBase s 1 else loadBase s true)
    else if bit w 1 && !bit w 0 then unloadBase s
    else s
  | 0x28 => { s with bd := { b with done := b.done && !bit w 0, fail := b.fail && !bit w 1 } }
  | 0x78 => { s with bd := { b with slotKind := bits m 0 4, slotPath := bits m 4 10, slotAsked := true } }
  | 0x1000 => { s with bd := { b with sqSel := bits m 0 9 } }
  | 0x1200 => { s with bd := { b with castDone := b.castDone && !bit w 0, castFail := b.castFail && !bit w 1 } }
  | _ => s

/-- A binding's three registers: BIND, CMD and STATUS. -/
def writeBind (s : State) (vocab : Bool) (o m w : Nat) : State :=
  let n := bindSel s vocab
  let b := getBind s vocab n
  match o with
  | 0x08 => if b.st = 0 then setBind s vocab n { b with object := bits m 0 32, tenant := bits m 32 7, share := bit m 39 } else s
  | 0x10 => if bit w 0 then startBind s vocab else if bit w 1 then drainBind s vocab n else s
  | 0x18 => setBind s vocab n { b with done := b.done && !bit w 2, fail := b.fail && !bit w 3 }
  | _ => s

def writeTs (s : State) (o m w : Nat) : State :=
  match o with
  | 0x00 => { s with ts := { s.ts with vocabSel := bits m 0 4 } }
  | 0x100 => { s with ts := { s.ts with gramSel := bits m 0 6 } }
  | _ => if o < 0x100 then writeBind s true o m w else writeBind s false (o - 0x100) m w

/-- A write of the register at a BAR0 offset. -/
def writeReg (s : State) (off m w : Nat) : State :=
  let o := off % 2 ^ 20
  match off / 2 ^ 20 with
  | 0x0 => writeNmc s o m w
  | 0x1 => writeQe s o m w
  | 0x2 => writeTn s (o / 4096) (o % 4096) m w
  | 0x3 => writeMt s (o / 128) (decide (64 ≤ o % 128)) (o % 64) m
  | 0x4 => writeEr s o m w
  | 0x5 => writeCal s o m
  | 0x6 => writeFab s o m w
  | 0x7 => writeFl s o m w
  | 0x8 => writeMs s o m
  | 0x9 => writeBd s o m w
  | 0xA => writeTs s o m w
  | 0xB => writePw s o m w
  | _ => s

/-! ### Write accesses (R6, R7) -/

/-- A register's value with one 32-bit half replaced. -/
def putHalf (old : Nat) (high : Bool) (v : Nat) : Nat := if high then old % 2 ^ 32 + v * 2 ^ 32 else old / 2 ^ 32 * 2 ^ 32 + v

/-- A 32-bit write at an aligned word; one that meets no register is discarded, counted and logged. -/
def writeWord (s : State) (fn off v : Nat) : State :=
  match openReg s fn off, barOffset fn off with
  | some r, some a =>
    if r.2 = 4 then writeReg s r.1 v v
    else writeReg s r.1 (putHalf (regVal s r.1) (a != r.1) v) (if a = r.1 then v else v * 2 ^ 32)
  | _, _ => barUnimplEvent s fn off true

/-- A 64-bit write: of a 64-bit register as one access, of two words as two, the lower first, of none as one access. -/
def writeLong (s : State) (fn off v : Nat) : State :=
  match openReg s fn off, openReg s fn (off + 4) with
  | none, none => barUnimplEvent s fn off true
  | some r, _ => if r.2 = 8 then writeReg s r.1 v v else writeWord (writeWord s fn off (v % 2 ^ 32)) fn (off + 4) (v / 2 ^ 32)
  | none, some _ => writeWord (writeWord s fn off (v % 2 ^ 32)) fn (off + 4) (v / 2 ^ 32)

def barWrite (s : State) (fn off bytes v : Nat) : State :=
  if !barAnswers s fn then s
  else if !wordAccess off bytes then barUnimplEvent s fn off true
  else if bytes = 4 then writeWord s fn off (v % 2 ^ 32)
  else writeLong s fn off v

/-- REGISTER_WRITE (00 R3). -/
def execRegisterWrite (fn off bytes : Nat) (value : BitVec 64) (s : State) : Res := onUnit s (wellFormed (.registerWrite fn off bytes value)) (barWrite s fn off bytes value.toNat)

/-! ### The host port (08 R241; 11 R344; 13 R410) -/

/-- The status of a host read that did not succeed, by kind. -/
def hostKind : HostReadStatus → Nat
  | .success => 0
  | .unsupportedRequest => 1
  | .completerAbort => 2
  | .poisoned => 3

/-- A host read of a descriptor ends: its data is there, or the descriptor must end with FAULT_HOST. -/
def hostReadDone (s : State) (d : Desc) (addr : Nat) (data : List Byte) (st : HostReadStatus) : State :=
  if st = .success then { s with hostMem := memWrite s.hostMem addr data }
  else
    raise (countUnit (putDesc s { d with hostFault := true }) qeUnit false addr) 0x0071 2 d.tenant qeUnit (addr % 2 ^ 32) (addr / 2 ^ 32) (Config.hostStatus (hostKind st))

/-- HOST_READ_COMPLETION (11 R344). -/
def execHostReadCompletion (q : QId) (seq : Nat) (addr : Nat) (data : List Byte) (status : HostReadStatus) (s : State) : Res :=
  onUnit s (wellFormed (.hostReadCompletion q seq addr data status)) <|
  match findDesc s q seq with
  | some d => if hostOpen s d.tenant then hostReadDone s d addr data status else s
  | none => s

/-- PCIE_ERR (13 R410). -/
def execPcieErr (uncorrectable : Bool) (aer : BitVec 32) (s : State) : Res :=
  onUnit s true <|
  if !s.pw.hostUp then s
  else
    let s1 := countUnit (cntEr s (if uncorrectable then 11 else 10) 1) qeUnit (!uncorrectable) 0
    raise s1 0x0070 2 0x7F qeUnit aer.toNat (b2n uncorrectable) 0

/-- RESIZABLE_BAR (08 R241): the capability offers windows of 1 to 64 GiB. -/
def execResizableBar (sizeLog2 : Nat) (s : State) : Res :=
  onUnit s true (if s.pw.hostUp ∧ sizeLog2 ≤ 6 then { s with ms := { s.ms with bar4Size := sizeLog2 } } else s)

/-! ### The flash connectors (15 R473 to R475) -/

/-- A channel of dies that the node has not seen. -/
def freshChannel (k : CarrierCh) : Channel :=
  { dies := k.dies, spare := k.spare, geom := k.geom,
    dieSt := (List.range k.dies).map (fun d => (d, { st := 1 })) ++ (if k.spare then [(8, { st := 2 })] else []) }

/-- A channel whose carrier's supply has left the range, or come back with the dies that it had, or stands with other dies. -/
def senseChannel (x : Channel) (k : Option CarrierCh) : Channel :=
  match k with
  | none => if x.dies = 0 then x else { x with gone := some (x.dies, x.spare), dies := 0, spare := false }
  | some c =>
    match x.gone with
    | some g => if g.1 = c.dies ∧ g.2 = c.spare ∧ x.geom = c.geom then { x with dies := c.dies, spare := c.spare, gone := none } else freshChannel c
    | none => if x.dies = c.dies ∧ x.spare = c.spare ∧ x.geom = c.geom then x else freshChannel c

/-- VCCQ_SENSE_CHANGE (15 R474): connector N carries channels 8N to 8N + 7. -/
def execVccqSenseChange (conn : Nat) (carrier : Option (List CarrierCh)) (s : State) : Res :=
  onUnit s (wellFormed (.vccqSenseChange conn carrier)) <|
  (List.range 8).foldl (fun a i => setCh a (8 * conn + i) (senseChannel (getCh a (8 * conn + i)) (carrier.bind (fun l => l[i]?)))) s

end Sys2Proof.Machine
end

