-- ==== Sys2Proof/Machine/Sideband.lean ====
section
/-! DEFINITION. The sideband's management messages and its addresses (14 R453, R454, R459; 15 R478). -/

namespace Sys2Proof.Machine

open Sys2Proof

/-- A management message that reaches the NMC is answered: its command byte, a status, further bytes. -/
def sideband (s : State) (cmd status : Nat) (more : List Byte) (eff : State → State) : State :=
  if !nmcRuns s then s
  else emit (if status = 0 then eff s else s) (.sideband (toLE 1 cmd ++ toLE 1 status ++ more))

/-- Bytes in the store; the factory image gives way to what is written. -/
def putStore (f : FwStore) (off : Nat) (bytes : List Byte) : FwStore :=
  match f with
  | .factory => .bytes (memWrite [] off bytes) (off + bytes.length)
  | .bytes m len => .bytes (memWrite m off bytes) (max len (off + bytes.length))

/-- 0 done, 1 refused, 2 malformed (R454). -/
def writeStatus (s : State) (off n : Nat) : Nat :=
  if !s.nmc.recovery then 1 else if n = 0 ∨ 1024 < n ∨ 2 ^ 25 < off + n then 2 else 0

/-- SIDEBAND_WRITE (R454). -/
def execSidebandWrite (off : Nat) (bytes : List Byte) (s : State) : Res :=
  onUnit s true (sideband s 1 (writeStatus s off bytes.length) [] (fun x => setStore x (putStore x.nmc.store off bytes)))

/-- REASON of the stored image; 0 when it passes. -/
def storeReason (s : State) : Nat := match verifyStore s with | .ok _ => 0 | .error e => e

/-- SIDEBAND_VERIFY (R454). -/
def execSidebandVerify (s : State) : Res :=
  onUnit s true (sideband s 2 (if s.nmc.recovery then 0 else 1) (if s.nmc.recovery then toLE 1 (storeReason s) else []) (fun x => x))

/-- An offset of a register of the NMC_ or PW_ block. -/
def sidebandReg (off : Nat) : Bool :=
  (off / 2 ^ 20 == 0 || off / 2 ^ 20 == 0xB) && (match regAt off with | some r => r.1 == off | none => false)

/-- READ_REG (R454): served in every state. -/
def execReadReg (off : Nat) (s : State) : Res :=
  onUnit s true (if sidebandReg off then sideband s 3 0 (zeros 2 ++ toLE 8 (regVal s off)) (fun x => x) else sideband s 3 2 [] (fun x => x))

def asleep (s : State) : Bool := s.pw.pstate == 4 || s.pw.pstate == 5

/-- SIDEBAND_RESET (R454): a node function reset, refused in SLEEP_READY and ASLEEP. -/
def execSidebandReset (s : State) : Res := onUnit s true (sideband s 4 (if asleep s then 1 else 0) [] nodeReset)

/-- WAKE_n asserted. -/
def assertWake (s : State) : State := if s.pw.wakeN then s else emit { s with pw := { s.pw with wakeN := true } } (.pin 1 true)

/-- SIDEBAND_WAKE (R454, R459): refused in every state but SLEEP_READY and ASLEEP. -/
def execSidebandWake (s : State) : Res := onUnit s true (sideband s 5 (if asleep s then 0 else 1) [] assertWake)

/-- A dynamic address of the I3C bus, of 7 bits. -/
def takeAddress (s : State) (addr : Nat) : State :=
  if nmcRuns s ∧ addr < 128 then { s with pw := { s.pw with dynAddr := some addr } } else s

/-- SETDASA (15 R478). -/
def execSetdasa (addr : Nat) (s : State) : Res := onUnit s true (takeAddress s addr)

/-- ENTDAA (15 R478). -/
def execEntdaa (addr : Nat) (s : State) : Res := onUnit s true (takeAddress s addr)

end Sys2Proof.Machine
end

