-- ==== Sys2Proof/Machine/Spdm.lean ====
section
/-! DEFINITION. The SPDM responder (14 R455 to R457). Request and response codes, and the order of the requests, are those of SPDM 1.3, which R455 names (log entry 11). -/

namespace Sys2Proof.Machine

open Sys2Proof

def spdmConn (s : State) (pcie : Bool) : Nat := if pcie then s.pw.spdmPcie else s.pw.spdmMctp

/-- Each transport has its own connection state. -/
def setConn (s : State) (pcie : Bool) (v : Nat) : State :=
  { s with pw := if pcie then { s.pw with spdmPcie := v } else { s.pw with spdmMctp := v } }

/-- The responder serves the sideband whenever the NMC runs, and PCIe while the host port is up (R457). -/
def spdmReach (s : State) (pcie : Bool) : Bool := nmcRuns s && (!pcie || s.pw.hostUp)

/-- ERROR with a code: 0x01 invalid request, 0x04 unexpected request, 0x07 unsupported request. -/
def spdmError (s : State) (pcie : Bool) (code data : Nat) : State := emit s (.spdm pcie 0x7F (toLE 1 code ++ toLE 1 data))

/-- A request that the connection's state allows; else ERROR with UnexpectedRequest. -/
def spdmServe (s : State) (pcie : Bool) (least : Nat) (f : State → State) : State :=
  if !spdmReach s pcie then s else if spdmConn s pcie < least then spdmError s pcie 4 0 else f s

/-- A response whose fields the spec does not give, in part or in whole, ends with free bytes. -/
def answerFree (s : State) (pcie : Bool) (req resp : Nat) (given : List Byte) : State :=
  let d := draw s
  emit d.2 (.spdm pcie resp (given ++ Config.spdmBody req d.1))

/-- GET_VERSION starts a connection. -/
def execGetVersion (pcie : Bool) (s : State) : Res :=
  onUnit s true (spdmServe s pcie 0 (fun x => setConn (answerFree x pcie 0x84 0x04 []) pcie 1))

/-- CERT_CAP, CHAL_CAP and MEAS_CAP with signatures, and nothing else. -/
def spdmFlags : Nat := 0x16

/-- GET_CAPABILITIES. -/
def execGetCapabilities (pcie : Bool) (s : State) : Res :=
  onUnit s true (spdmServe s pcie 1 (fun x => setConn (answerFree x pcie 0xE1 0x61 (toLE 4 spdmFlags)) pcie 2))

/-- Bits of Ed448 among the asymmetric algorithms and of SHA3-512 among the hashes. -/
def ed448Bit : Nat := 11
def sha3Bit : Nat := 5

/-- NEGOTIATE_ALGORITHMS: Ed448 and SHA3-512 only. -/
def execNegotiateAlgorithms (pcie : Bool) (asym hash : Nat) (s : State) : Res :=
  onUnit s true (spdmServe s pcie 2 (fun x =>
    if bit asym ed448Bit && bit hash sha3Bit then
      setConn (answerFree x pcie 0xE3 0x63 (toLE 4 (2 ^ ed448Bit) ++ toLE 4 (2 ^ sha3Bit))) pcie 3
    else spdmError x pcie 1 0))

def chainOf (s : State) : List Byte := Config.certChain (s.nmc.fwDigest.getD 0) s.nmc.recovery

/-- GET_DIGESTS: slot 0 only, the SHA3-512 digest of its chain. -/
def execGetDigests (pcie : Bool) (s : State) : Res :=
  onUnit s true (spdmServe s pcie 3 (fun x => emit x (.spdm pcie 0x01 (toLE 1 1 ++ sha3_512 (chainOf x)))))

/-- GET_CERTIFICATE: a portion of slot 0's chain, its length and what remains. -/
def certPortion (s : State) (off len : Nat) : List Byte :=
  let p := ((chainOf s).drop off).take len
  toLE 2 p.length ++ toLE 2 ((chainOf s).length - off - p.length) ++ p

def execGetCertificate (pcie : Bool) (slot off len : Nat) (s : State) : Res :=
  onUnit s true (spdmServe s pcie 3 (fun x =>
    if slot ≠ 0 ∨ (chainOf x).length ≤ off then spdmError x pcie 1 0 else emit x (.spdm pcie 0x02 (certPortion x off len))))

/-- A signature by the alias key over a response and the requester's nonce. -/
def signOver (s : State) (nonce body : List Byte) : List Byte := body ++ Config.sign (s.nmc.fwDigest.getD 0) (nonce ++ body)

/-- CHALLENGE: the digest of slot 0's chain, the responder's own nonce and further fields, with its signature. -/
def challenge (s : State) (pcie : Bool) (nonce : List Byte) : State :=
  let d := draw s
  emit d.2 (.spdm pcie 0x03 (signOver s nonce (sha3_512 (chainOf s) ++ Config.spdmBody 0x83 d.1)))

def execChallenge (pcie : Bool) (slot : Nat) (nonce : List Byte) (s : State) : Res :=
  onUnit s true (spdmServe s pcie 3 (fun x => if slot ≠ 0 then spdmError x pcie 1 0 else challenge x pcie nonce))

/-! ### Measurements (R456, R457) -/

/-- The value of a measurement block; none: absent. In recovery only blocks 1, 3 and 4 are reported. -/
def measure (s : State) (i : Nat) : Option (List Byte) :=
  if i = 1 ∨ i = 3 ∨ i = 4 then some (Config.measurement i s.nmc.minSvn)
  else if s.nmc.recovery then none
  else if i = 2 then some (toLE 64 (s.nmc.fwDigest.getD 0))
  else if i = 5 then some (match s.bd.layer with | some b => Config.digestValue b.digest | none => zeros 64)
  else if 0x10 ≤ i ∧ i ≤ 0x50 then (posOf s (i - 0x10)).map (fun p => Config.digestValue p.digest)
  else none

/-- Every block that is present, in order of its index. -/
def measureAll (s : State) : List (Nat × List Byte) := (List.range 0x51).filterMap (fun i => (measure s i).map (fun v => (i, v)))

def blockBytes (b : Nat × List Byte) : List Byte := toLE 1 b.1 ++ b.2

/-- GET_MEASUREMENTS: 0 asks for the number of blocks, 0xFF for all of them, another index for one. -/
def measurements (s : State) (index : Nat) : Option (List Byte) :=
  if index = 0 then some (toLE 1 (measureAll s).length)
  else if index = 0xFF then some ((measureAll s).flatMap blockBytes)
  else (measure s index).map (fun v => blockBytes (index, v))

def execGetMeasurements (pcie : Bool) (index : Nat) (sign : Bool) (nonce : List Byte) (s : State) : Res :=
  onUnit s true (spdmServe s pcie 3 (fun x =>
    match measurements x index with
    | none => spdmError x pcie 1 0
    | some b => emit x (.spdm pcie 0x60 (if sign then signOver x nonce b else b))))

/-- UNSUPPORTED_REQUEST: ERROR with UnsupportedRequest and the request's code. -/
def execUnsupportedRequest (pcie : Bool) (code : Nat) (s : State) : Res :=
  onUnit s true (if spdmReach s pcie then spdmError s pcie 7 code else s)

end Sys2Proof.Machine
end

