-- ==== Sys2Proof/Machine/Dispatch.lean ====
section
/-! DEFINITION. The commands dispatched to their meanings, one arm a row of spec/opcode_table.json. -/

namespace Sys2Proof.Machine

open Sys2Proof

def exec (i : Instr) (s : State) : Host.Outcome State Fault Refusal :=
  match i with
  | .apertureWrite vf off data => Sys2Proof.Machine.execApertureWrite vf off data s
  | .descriptorPlace t => Sys2Proof.Machine.execDescriptorPlace t s
  | .servingContextPlace work => Sys2Proof.Machine.execServingContextPlace work s
  | .completionRecordWrite q => Sys2Proof.Machine.execCompletionRecordWrite q s
  | .completionHeadWrite fn q head => Sys2Proof.Machine.execCompletionHeadWrite fn q head s
  | .queueEnable fn q cfg => Sys2Proof.Machine.execQueueEnable fn q cfg s
  | .queueDisable fn q cfg => Sys2Proof.Machine.execQueueDisable fn q cfg s
  | .meterEnable fn t egress cfg => Sys2Proof.Machine.execMeterEnable fn t egress cfg s
  | .moveBoundary => Sys2Proof.Machine.execMoveBoundary s
  | .slotTransfer kind path slot => Sys2Proof.Machine.execSlotTransfer kind path slot s
  | .squareCycle sq op => Sys2Proof.Machine.execSquareCycle sq op s
  | .sort64 sq ctx r => Sys2Proof.Machine.execSort64 sq ctx r s
  | .merge128 sq ctx a b => Sys2Proof.Machine.execMerge128 sq ctx a b s
  | .readElementReturn sq ctx read elem res => Sys2Proof.Machine.execReadElementReturn sq ctx read elem res s
  | .rankClockStop r => Sys2Proof.Machine.execRankClockStop r s
  | .rankClockStart r => Sys2Proof.Machine.execRankClockStart r s
  | .search q seq => Sys2Proof.Machine.execSearch q seq s
  | .searchScan q seq => Sys2Proof.Machine.execSearchScan q seq s
  | .topkDot q seq => Sys2Proof.Machine.execTopkDot q seq s
  | .rerank ch req => Sys2Proof.Machine.execRerank ch req s
  | .insert q seq => Sys2Proof.Machine.execInsert q seq s
  | .delete q seq => Sys2Proof.Machine.execDelete q seq s
  | .consolidate q seq => Sys2Proof.Machine.execConsolidate q seq s
  | .mutationCommit q seq => Sys2Proof.Machine.execMutationCommit q seq s
  | .consolidationStep q seq => Sys2Proof.Machine.execConsolidationStep q seq s
  | .beforeImageRetire t index part => Sys2Proof.Machine.execBeforeImageRetire t index part s
  | .journalWriteApply t index => Sys2Proof.Machine.execJournalWriteApply t index s
  | .tileRead q seq => Sys2Proof.Machine.execTileRead q seq s
  | .tileWrite q seq => Sys2Proof.Machine.execTileWrite q seq s
  | .place q seq side => Sys2Proof.Machine.execPlace q seq side s
  | .objRead q seq => Sys2Proof.Machine.execObjRead q seq s
  | .objWrite q seq => Sys2Proof.Machine.execObjWrite q seq s
  | .discard q seq => Sys2Proof.Machine.execDiscard q seq s
  | .bankOp q seq => Sys2Proof.Machine.execBankOp q seq s
  | .tokenize q seq => Sys2Proof.Machine.execTokenize q seq s
  | .detokenize q seq => Sys2Proof.Machine.execDetokenize q seq s
  | .maskLookup q seq => Sys2Proof.Machine.execMaskLookup q seq s
  | .abort q seq => Sys2Proof.Machine.execAbort q seq s
  | .fence q seq => Sys2Proof.Machine.execFence q seq s
  | .nop q seq => Sys2Proof.Machine.execNop q seq s
  | .admitPosition seq prog => Sys2Proof.Machine.execAdmitPosition seq prog s
  | .recompositionStart => Sys2Proof.Machine.execRecompositionStart s
  | .stagingEnd => Sys2Proof.Machine.execStagingEnd s
  | .recompositionActivate => Sys2Proof.Machine.execRecompositionActivate s
  | .retirePosition seq => Sys2Proof.Machine.execRetirePosition seq s
  | .retirementBoundary => Sys2Proof.Machine.execRetirementBoundary s
  | .promote seq => Sys2Proof.Machine.execPromote seq s
  | .castlingFreeze => Sys2Proof.Machine.execCastlingFreeze s
  | .castlingCopyEnd => Sys2Proof.Machine.execCastlingCopyEnd s
  | .castlingSwitch => Sys2Proof.Machine.execCastlingSwitch s
  | .sramRowSwitch => Sys2Proof.Machine.execSramRowSwitch s
  | .stackRowSwitch => Sys2Proof.Machine.execStackRowSwitch s
  | .dieMigrationEnd ch => Sys2Proof.Machine.execDieMigrationEnd ch s
  | .tenantReset seq => Sys2Proof.Machine.execTenantReset seq s
  | .tenantResetEnd t => Sys2Proof.Machine.execTenantResetEnd t s
  | .teardown src => Sys2Proof.Machine.execTeardown src s
  | .teardownDone t => Sys2Proof.Machine.execTeardownDone t s
  | .setCal seq => Sys2Proof.Machine.execSetCal seq s
  | .loadFirmware seq storeOk => Sys2Proof.Machine.execLoadFirmware seq storeOk s
  | .baseLoad w => Sys2Proof.Machine.execBaseLoad w s
  | .baseUnload fn => Sys2Proof.Machine.execBaseUnload fn s
  | .baseLayerActivate => Sys2Proof.Machine.execBaseLayerActivate s
  | .baseLayerDeactivate => Sys2Proof.Machine.execBaseLayerDeactivate s
  | .rankPowerRequest fn value => Sys2Proof.Machine.execRankPowerRequest fn value s
  | .rankPowerBoundary => Sys2Proof.Machine.execRankPowerBoundary s
  | .format fn value => Sys2Proof.Machine.execFormat fn value s
  | .formatEnd bad => Sys2Proof.Machine.execFormatEnd bad s
  | .checkpointForce fn => Sys2Proof.Machine.execCheckpointForce fn s
  | .checkpoint ch => Sys2Proof.Machine.execCheckpoint ch s
  | .stripeCloseTimer g d => Sys2Proof.Machine.execStripeCloseTimer g d s
  | .programFail ch die page => Sys2Proof.Machine.execProgramFail ch die page s
  | .eraseFail ch die block => Sys2Proof.Machine.execEraseFail ch die block s
  | .dieReadyTimeout ch die => Sys2Proof.Machine.execDieReadyTimeout ch die s
  | .codewordRead ch die page cw res => Sys2Proof.Machine.execCodewordRead ch die page cw res s
  | .retryWindowEnd ch die => Sys2Proof.Machine.execRetryWindowEnd ch die s
  | .garbageCollection g d => Sys2Proof.Machine.execGarbageCollection g d s
  | .flashRecovery => Sys2Proof.Machine.execFlashRecovery s
  | .flashRecoveryEnd ms => Sys2Proof.Machine.execFlashRecoveryEnd ms s
  | .guardEnable fn peersAgree => Sys2Proof.Machine.execGuardEnable fn peersAgree s
  | .guardDisable fn => Sys2Proof.Machine.execGuardDisable fn s
  | .guardResync fn => Sys2Proof.Machine.execGuardResync fn s
  | .guardRebuild fn => Sys2Proof.Machine.execGuardRebuild fn s
  | .guardCommandEnd set tenant rebuild => Sys2Proof.Machine.execGuardCommandEnd set tenant rebuild s
  | .vocabBind fn => Sys2Proof.Machine.execVocabBind fn s
  | .vocabUnbind fn => Sys2Proof.Machine.execVocabUnbind fn s
  | .grammarBind fn => Sys2Proof.Machine.execGrammarBind fn s
  | .grammarUnbind fn => Sys2Proof.Machine.execGrammarUnbind fn s
  | .bindComplete vocab n => Sys2Proof.Machine.execBindComplete vocab n s
  | .unbindComplete vocab n => Sys2Proof.Machine.execUnbindComplete vocab n s
  | .clearCounters fn => Sys2Proof.Machine.execClearCounters fn s
  | .clearLog fn => Sys2Proof.Machine.execClearLog fn s
  | .eventLogHeadWrite fn head => Sys2Proof.Machine.execEventLogHeadWrite fn head s
  | .barUnimpl fn off bytes write => Sys2Proof.Machine.execBarUnimpl fn off bytes write s
  | .bar4Access off bytes write => Sys2Proof.Machine.execBar4Access off bytes write s
  | .registerWrite fn off bytes value => Sys2Proof.Machine.execRegisterWrite fn off bytes value s
  | .sleep fn value => Sys2Proof.Machine.execSleep fn value s
  | .quiesceEnd => Sys2Proof.Machine.execQuiesceEnd s
  | .wake fn value => Sys2Proof.Machine.execWake fn value s
  | .pmeTurnOff => Sys2Proof.Machine.execPmeTurnOff s
  | .nodeFunctionReset cause => Sys2Proof.Machine.execNodeFunctionReset cause s
  | .functionLevelReset vf => Sys2Proof.Machine.execFunctionLevelReset vf s
  | .recoveryLoad fn storeOk => Sys2Proof.Machine.execRecoveryLoad fn storeOk s
  | .watchdogExpiry => Sys2Proof.Machine.execWatchdogExpiry s
  | .powerOnReset straps => Sys2Proof.Machine.execPowerOnReset straps s
  | .powerLoss => Sys2Proof.Machine.execPowerLoss s
  | .perstNAssert ns => Sys2Proof.Machine.execPerstNAssert ns s
  | .perstNDeassert ns => Sys2Proof.Machine.execPerstNDeassert ns s
  | .sensorReading sensor eighths => Sys2Proof.Machine.execSensorReading sensor eighths s
  | .overcurrent deciAmps micros => Sys2Proof.Machine.execOvercurrent deciAmps micros s
  | .hostLinkDown => Sys2Proof.Machine.execHostLinkDown s
  | .hostLinkUp => Sys2Proof.Machine.execHostLinkUp s
  | .hostReadCompletion q seq addr data status => Sys2Proof.Machine.execHostReadCompletion q seq addr data status s
  | .vccqSenseChange conn carrier => Sys2Proof.Machine.execVccqSenseChange conn carrier s
  | .tempoRefChange valid => Sys2Proof.Machine.execTempoRefChange valid s
  | .syncFlit link count => Sys2Proof.Machine.execSyncFlit link count s
  | .linkUp link port delay => Sys2Proof.Machine.execLinkUp link port delay s
  | .linkTrainingTimeout link => Sys2Proof.Machine.execLinkTrainingTimeout link s
  | .flitReceive link flit => Sys2Proof.Machine.execFlitReceive link flit s
  | .retryRequest link seq => Sys2Proof.Machine.execRetryRequest link seq s
  | .linkRetryLimit link => Sys2Proof.Machine.execLinkRetryLimit link s
  | .setNode tag node domain standin => Sys2Proof.Machine.execSetNode tag node domain standin s
  | .setGroup tag cfg => Sys2Proof.Machine.execSetGroup tag cfg s
  | .linkCtrlEnable tag link => Sys2Proof.Machine.execLinkCtrlEnable tag link s
  | .linkCtrlDisable tag link => Sys2Proof.Machine.execLinkCtrlDisable tag link s
  | .linkCtrlRetrain tag link => Sys2Proof.Machine.execLinkCtrlRetrain tag link s
  | .setPaths tag node mask => Sys2Proof.Machine.execSetPaths tag node mask s
  | .tempoSource tag link => Sys2Proof.Machine.execTempoSource tag link s
  | .tempoSet tag link count => Sys2Proof.Machine.execTempoSet tag link count s
  | .adopt tag node cfg => Sys2Proof.Machine.execAdopt tag node cfg s
  | .query tag => Sys2Proof.Machine.execQuery tag s
  | .load link p => Sys2Proof.Machine.execLoad link p s
  | .store link p => Sys2Proof.Machine.execStore link p s
  | .storeFlag link p => Sys2Proof.Machine.execStoreFlag link p s
  | .storeFlagSend tenant tag => Sys2Proof.Machine.execStoreFlagSend tenant tag s
  | .atomic link p => Sys2Proof.Machine.execAtomic link p s
  | .gread link p => Sys2Proof.Machine.execGread link p s
  | .data link p => Sys2Proof.Machine.execData link p s
  | .ack link p => Sys2Proof.Machine.execAck link p s
  | .nack link p => Sys2Proof.Machine.execNack link p s
  | .queryMessage link m => Sys2Proof.Machine.execQueryMessage link m s
  | .listMessage link m => Sys2Proof.Machine.execListMessage link m s
  | .journalMessage link m => Sys2Proof.Machine.execJournalMessage link m s
  | .journalAck link m => Sys2Proof.Machine.execJournalAck link m s
  | .guardDelta link m => Sys2Proof.Machine.execGuardDelta link m s
  | .scanSlice link m => Sys2Proof.Machine.execScanSlice link m s
  | .rerankMessage link m => Sys2Proof.Machine.execRerankMessage link m s
  | .remoteTimeout tag => Sys2Proof.Machine.execRemoteTimeout tag s
  | .sidebandWrite off bytes => Sys2Proof.Machine.execSidebandWrite off bytes s
  | .sidebandVerify => Sys2Proof.Machine.execSidebandVerify s
  | .readReg off => Sys2Proof.Machine.execReadReg off s
  | .sidebandReset => Sys2Proof.Machine.execSidebandReset s
  | .sidebandWake => Sys2Proof.Machine.execSidebandWake s
  | .setdasa addr => Sys2Proof.Machine.execSetdasa addr s
  | .entdaa addr => Sys2Proof.Machine.execEntdaa addr s
  | .getVersion pcie => Sys2Proof.Machine.execGetVersion pcie s
  | .getCapabilities pcie => Sys2Proof.Machine.execGetCapabilities pcie s
  | .negotiateAlgorithms pcie asym hash => Sys2Proof.Machine.execNegotiateAlgorithms pcie asym hash s
  | .getDigests pcie => Sys2Proof.Machine.execGetDigests pcie s
  | .getCertificate pcie slot off len => Sys2Proof.Machine.execGetCertificate pcie slot off len s
  | .challenge pcie slot nonce => Sys2Proof.Machine.execChallenge pcie slot nonce s
  | .getMeasurements pcie index sign nonce => Sys2Proof.Machine.execGetMeasurements pcie index sign nonce s
  | .unsupportedRequest pcie code => Sys2Proof.Machine.execUnsupportedRequest pcie code s
  | .pcieErr uncorrectable aer => Sys2Proof.Machine.execPcieErr uncorrectable aer s
  | .resizableBar sizeLog2 => Sys2Proof.Machine.execResizableBar sizeLog2 s

end Sys2Proof.Machine
end

