-- ==== Sys2Proof/Laws/Memory.lean ====
section
/-! SUPPORT. Tables by number and byte memories: a read after a write, and the canonical form. -/

namespace Sys2Proof.Machine

open Sys2Proof

/-! ### Tables -/

@[simp] theorem tget_tset_same {β : Type} (d : β) (t : Tab β) (k : Nat) (v : β) : tget d (tset t k v) k = v := by
  induction t with
  | nil => simp [tset, tget]
  | cons e r ih =>
    obtain ⟨a, b⟩ := e
    simp only [tset]
    split
    · simp [tget]
    · split
      · simp [tget]
      · simp only [tget]; rw [if_neg (by omega)]; exact ih

theorem tget_tset_other {β : Type} (d : β) (t : Tab β) {k j : Nat} (v : β) (h : j ≠ k) : tget d (tset t k v) j = tget d t j := by
  induction t with
  | nil => simp [tset, tget, h.symm]
  | cons e r ih =>
    obtain ⟨a, b⟩ := e
    simp only [tset]
    split
    · simp only [tget]; rw [if_neg (Ne.symm h)]
    · split
      · rename_i _ hk; subst hk; simp only [tget]; rw [if_neg (Ne.symm h), if_neg (Ne.symm h)]
      · simp only [tget]; split
        · rfl
        · exact ih

theorem tget_tset {β : Type} (d : β) (t : Tab β) (k j : Nat) (v : β) : tget d (tset t k v) j = if j = k then v else tget d t j := by
  split
  · rename_i h; subst h; simp
  · rename_i h; exact tget_tset_other d t v h

/-- A table whose values all pass through one function, which keeps the default, reads through it. -/
theorem tget_map {β : Type} (d : β) (f : β → β) (h : f d = d) (t : Tab β) (k : Nat) : tget d (t.map (fun e => (e.1, f e.2))) k = f (tget d t k) := by
  induction t with
  | nil => simp [tget, h]
  | cons e r ih =>
    simp only [List.map_cons, tget]
    split
    · rfl
    · exact ih

/-! ### Byte memories -/

/-- The canonical form as two facts: strictly rising keys and no byte 0. -/
theorem memWf_iff (m : Mem) : memWf m = true ↔ m.Pairwise (fun x y => x.1 < y.1) ∧ ∀ c ∈ m, c.2 ≠ 0 := by
  induction m with
  | nil => simp [memWf]
  | cons e r ih =>
    obtain ⟨a, b⟩ := e
    cases r with
    | nil => simp [memWf]
    | cons e' r' =>
      obtain ⟨a', b'⟩ := e'
      simp only [memWf, Bool.and_eq_true, ih, decide_eq_true_eq, bne_iff_ne, List.pairwise_cons, List.mem_cons, forall_eq_or_imp]
      constructor
      · rintro ⟨⟨hb, ha⟩, ⟨hp1, hp2⟩, hb', hr⟩
        exact ⟨⟨⟨ha, fun c hc => lt_trans ha (hp1 c hc)⟩, hp1, hp2⟩, hb, hb', hr⟩
      · rintro ⟨⟨⟨ha, _⟩, hp1, hp2⟩, hb, hb', hr⟩
        exact ⟨⟨hb, ha⟩, ⟨hp1, hp2⟩, hb', hr⟩

theorem cellsOf_mem (bs : List Byte) (a : Nat) : ∀ c ∈ cellsOf a bs, a ≤ c.1 ∧ c.1 < a + bs.length ∧ c.2 ≠ 0 := by
  induction bs generalizing a with
  | nil => simp [cellsOf]
  | cons b r ih =>
    intro c hc
    simp only [cellsOf] at hc
    split at hc
    · have h := ih (a + 1) c hc
      simp only [List.length_cons]
      exact ⟨by omega, by omega, h.2.2⟩
    · rename_i hb
      rcases List.mem_cons.mp hc with rfl | hc
      · exact ⟨le_refl _, by simp, hb⟩
      · have h := ih (a + 1) c hc
        simp only [List.length_cons]
        exact ⟨by omega, by omega, h.2.2⟩

theorem cellsOf_pairwise (bs : List Byte) (a : Nat) : (cellsOf a bs).Pairwise (fun x y => x.1 < y.1) := by
  induction bs generalizing a with
  | nil => simp [cellsOf]
  | cons b r ih =>
    simp only [cellsOf]
    split
    · exact ih (a + 1)
    · refine List.pairwise_cons.mpr ⟨fun c hc => ?_, ih (a + 1)⟩
      have h := cellsOf_mem r (a + 1) c hc
      simp only; omega

theorem memWf_memWrite (m : Mem) (a : Nat) (bs : List Byte) (h : memWf m = true) : memWf (memWrite m a bs) = true := by
  rw [memWf_iff] at h ⊢
  obtain ⟨hp, hz⟩ := h
  constructor
  · simp only [memWrite, List.pairwise_append, List.mem_append, List.mem_filter, decide_eq_true_eq]
    refine ⟨hp.filter _, ⟨cellsOf_pairwise bs a, hp.filter _, ?_⟩, ?_⟩
    · intro x hx y hy
      have := cellsOf_mem bs a x hx
      omega
    · rintro x ⟨_, hx⟩ y (hy | ⟨_, hy⟩)
      · have := cellsOf_mem bs a y hy
        omega
      · omega
  · intro c hc
    simp only [memWrite, List.mem_append, List.mem_filter] at hc
    rcases hc with ⟨hc, _⟩ | hc | ⟨hc, _⟩
    · exact hz c hc
    · exact (cellsOf_mem bs a c hc).2.2
    · exact hz c hc

theorem memWf_memClear (m : Mem) (a n : Nat) (h : memWf m = true) : memWf (memClear m a n) = true := by
  rw [memWf_iff] at h ⊢
  obtain ⟨hp, hz⟩ := h
  constructor
  · simp only [memClear, List.pairwise_append, List.mem_filter, decide_eq_true_eq]
    refine ⟨hp.filter _, hp.filter _, ?_⟩
    rintro x ⟨_, hx⟩ y ⟨_, hy⟩
    omega
  · intro c hc
    simp only [memClear, List.mem_append, List.mem_filter] at hc
    rcases hc with ⟨hc, _⟩ | ⟨hc, _⟩ <;> exact hz c hc

theorem memGet_append (m n : Mem) (a : Nat) (h : ∀ c ∈ m, c.1 ≠ a) : memGet (m ++ n) a = memGet n a := by
  induction m with
  | nil => rfl
  | cons e r ih =>
    obtain ⟨k, b⟩ := e
    simp only [List.cons_append, memGet]
    rw [if_neg (h (k, b) (by simp))]
    exact ih (fun c hc => h c (by simp [hc]))

theorem memGet_append_left (m n : Mem) (a : Nat) (h : ∀ c ∈ n, c.1 ≠ a) : memGet (m ++ n) a = memGet m a := by
  induction m with
  | nil =>
    simp only [List.nil_append, memGet]
    induction n with
    | nil => rfl
    | cons e r ih => obtain ⟨k, b⟩ := e; simp only [memGet]; rw [if_neg (h (k, b) (by simp))]; exact ih (fun c hc => h c (by simp [hc]))
  | cons e r ih =>
    obtain ⟨k, b⟩ := e
    simp only [List.cons_append, memGet]
    split
    · rfl
    · exact ih

theorem memGet_filter (m : Mem) (p : Nat → Bool) (a : Nat) (h : p a = true) : memGet (m.filter (fun c => p c.1)) a = memGet m a := by
  induction m with
  | nil => rfl
  | cons e r ih =>
    obtain ⟨k, b⟩ := e
    by_cases hk : p k = true
    · simp [hk, memGet, ih]
    · have : k ≠ a := by rintro rfl; exact hk h
      simp [hk, memGet, ih, this]

theorem memGet_cellsOf (bs : List Byte) (a i : Nat) (h : i < bs.length) : memGet (cellsOf a bs) (a + i) = bs[i] := by
  induction bs generalizing a i with
  | nil => simp at h
  | cons b r ih =>
    simp only [cellsOf]
    cases i with
    | zero =>
      split
      · rename_i hb
        have : ∀ c ∈ cellsOf (a + 1) r, c.1 ≠ a + 0 := fun c hc => by have := cellsOf_mem r (a + 1) c hc; omega
        have h2 := memGet_append_left [] (cellsOf (a + 1) r) (a + 0) this
        simpa [memGet, hb] using h2
      · simp [memGet]
    | succ j =>
      have hj : j < r.length := by simpa using h
      have e : a + (j + 1) = (a + 1) + j := by omega
      split
      · rw [e]; simpa using ih (a + 1) j hj
      · simp only [memGet]; rw [if_neg (by omega), e]; simpa using ih (a + 1) j hj

/-- A byte within the written ones reads as written. -/
theorem memGet_memWrite_in (m : Mem) (a i : Nat) (bs : List Byte) (h : i < bs.length) : memGet (memWrite m a bs) (a + i) = bs[i] := by
  rw [memWrite, memGet_append _ _ _ (fun c hc => by simp only [List.mem_filter, decide_eq_true_eq] at hc; omega), memGet_append_left _ _ _ (fun c hc => by
    simp only [List.mem_filter, decide_eq_true_eq] at hc; omega), memGet_cellsOf bs a i h]

/-- Every byte outside the written ones reads as before. -/
theorem memGet_memWrite_out (m : Mem) (a b : Nat) (bs : List Byte) (h : b < a ∨ a + bs.length ≤ b) : memGet (memWrite m a bs) b = memGet m b := by
  have hc : ∀ c ∈ cellsOf a bs, c.1 ≠ b := fun c hc => by have := cellsOf_mem bs a c hc; omega
  rw [memWrite]
  rcases h with h | h
  · rw [memGet_append_left _ _ _ (fun c hm => by
      rcases List.mem_append.mp hm with hm | hm
      · exact hc c hm
      · simp only [List.mem_filter, decide_eq_true_eq] at hm; omega)]
    exact memGet_filter m (fun k => decide (k < a)) b (by simpa using h)
  · rw [memGet_append _ _ _ (fun c hm => by simp only [List.mem_filter, decide_eq_true_eq] at hm; omega), memGet_append _ _ _ hc]
    exact memGet_filter m (fun k => decide (a + bs.length ≤ k)) b (by simpa using h)

theorem memGet_memClear (m : Mem) (a n b : Nat) : memGet (memClear m a n) b = if a ≤ b ∧ b < a + n then 0 else memGet m b := by
  rw [memClear]
  by_cases h1 : b < a
  · rw [if_neg (by omega), memGet_append_left _ _ _ (fun c hm => by simp only [List.mem_filter, decide_eq_true_eq] at hm; omega)]
    exact memGet_filter m (fun k => decide (k < a)) b (by simpa using h1)
  · rw [memGet_append _ _ _ (fun c hm => by simp only [List.mem_filter, decide_eq_true_eq] at hm; omega)]
    by_cases h2 : a + n ≤ b
    · rw [if_neg (by omega)]
      exact memGet_filter m (fun k => decide (a + n ≤ k)) b (by simpa using h2)
    · rw [if_pos (by omega)]
      have := memGet_append_left [] (m.filter (fun c => decide (a + n ≤ c.1))) b (fun c hm => by simp only [List.mem_filter, decide_eq_true_eq] at hm; omega)
      simpa [memGet] using this

theorem memRead_length (m : Mem) (a n : Nat) : (memRead m a n).length = n := by simp [memRead]

/-- Bytes just written read back whole. -/
theorem memRead_memWrite (m : Mem) (a : Nat) (bs : List Byte) : memRead (memWrite m a bs) a bs.length = bs := by
  apply List.ext_getElem
  · simp [memRead]
  · intro i h1 h2
    simp only [memRead, List.getElem_map, List.getElem_range]
    exact memGet_memWrite_in m a i bs h2

end Sys2Proof.Machine
end

