-- ==== Sys2Proof/Laws/State.lean ====
section
/-! SUPPORT. What each update helper leaves alone: one lemma a field of State and a helper. -/

namespace Sys2Proof.Machine

open Sys2Proof

section emitLaws
variable (s : State) (o : Out)

@[simp] theorem emit_pending : (emit s o).pending = s.pending := rfl
@[simp] theorem emit_freeCtr : (emit s o).freeCtr = s.freeCtr := rfl
@[simp] theorem emit_hostMem : (emit s o).hostMem = s.hostMem := rfl
@[simp] theorem emit_tempo : (emit s o).tempo = s.tempo := rfl
@[simp] theorem emit_tempoFrac : (emit s o).tempoFrac = s.tempoFrac := rfl
@[simp] theorem emit_pw : (emit s o).pw = s.pw := rfl
@[simp] theorem emit_nmc : (emit s o).nmc = s.nmc := rfl
@[simp] theorem emit_er : (emit s o).er = s.er := rfl
@[simp] theorem emit_cal : (emit s o).cal = s.cal := rfl
@[simp] theorem emit_spare : (emit s o).spare = s.spare := rfl
@[simp] theorem emit_bd : (emit s o).bd = s.bd := rfl
@[simp] theorem emit_ranks : (emit s o).ranks = s.ranks := rfl
@[simp] theorem emit_squares : (emit s o).squares = s.squares := rfl
@[simp] theorem emit_qe : (emit s o).qe = s.qe := rfl
@[simp] theorem emit_tenants : (emit s o).tenants = s.tenants := rfl
@[simp] theorem emit_meters : (emit s o).meters = s.meters := rfl
@[simp] theorem emit_ms : (emit s o).ms = s.ms := rfl
@[simp] theorem emit_indexes : (emit s o).indexes = s.indexes := rfl
@[simp] theorem emit_partials : (emit s o).partials = s.partials := rfl
@[simp] theorem emit_fl : (emit s o).fl = s.fl := rfl
@[simp] theorem emit_fab : (emit s o).fab = s.fab := rfl
@[simp] theorem emit_ts : (emit s o).ts = s.ts := rfl

end emitLaws

section setQLaws
variable (s : State) (q : QId) (v : Queue)

@[simp] theorem setQ_pending : (setQ s q v).pending = s.pending := by cases q <;> rfl
@[simp] theorem setQ_freeCtr : (setQ s q v).freeCtr = s.freeCtr := by cases q <;> rfl
@[simp] theorem setQ_out : (setQ s q v).out = s.out := by cases q <;> rfl
@[simp] theorem setQ_hostMem : (setQ s q v).hostMem = s.hostMem := by cases q <;> rfl
@[simp] theorem setQ_tempo : (setQ s q v).tempo = s.tempo := by cases q <;> rfl
@[simp] theorem setQ_tempoFrac : (setQ s q v).tempoFrac = s.tempoFrac := by cases q <;> rfl
@[simp] theorem setQ_pw : (setQ s q v).pw = s.pw := by cases q <;> rfl
@[simp] theorem setQ_nmc : (setQ s q v).nmc = s.nmc := by cases q <;> rfl
@[simp] theorem setQ_er : (setQ s q v).er = s.er := by cases q <;> rfl
@[simp] theorem setQ_cal : (setQ s q v).cal = s.cal := by cases q <;> rfl
@[simp] theorem setQ_spare : (setQ s q v).spare = s.spare := by cases q <;> rfl
@[simp] theorem setQ_bd : (setQ s q v).bd = s.bd := by cases q <;> rfl
@[simp] theorem setQ_ranks : (setQ s q v).ranks = s.ranks := by cases q <;> rfl
@[simp] theorem setQ_squares : (setQ s q v).squares = s.squares := by cases q <;> rfl
@[simp] theorem setQ_tenants : (setQ s q v).tenants = s.tenants := by cases q <;> rfl
@[simp] theorem setQ_meters : (setQ s q v).meters = s.meters := by cases q <;> rfl
@[simp] theorem setQ_ms : (setQ s q v).ms = s.ms := by cases q <;> rfl
@[simp] theorem setQ_indexes : (setQ s q v).indexes = s.indexes := by cases q <;> rfl
@[simp] theorem setQ_partials : (setQ s q v).partials = s.partials := by cases q <;> rfl
@[simp] theorem setQ_fl : (setQ s q v).fl = s.fl := by cases q <;> rfl
@[simp] theorem setQ_fab : (setQ s q v).fab = s.fab := by cases q <;> rfl
@[simp] theorem setQ_ts : (setQ s q v).ts = s.ts := by cases q <;> rfl

end setQLaws

section setTLaws
variable (s : State) (t : Nat) (v : Tenant)

@[simp] theorem setT_pending : (setT s t v).pending = s.pending := rfl
@[simp] theorem setT_freeCtr : (setT s t v).freeCtr = s.freeCtr := rfl
@[simp] theorem setT_out : (setT s t v).out = s.out := rfl
@[simp] theorem setT_hostMem : (setT s t v).hostMem = s.hostMem := rfl
@[simp] theorem setT_tempo : (setT s t v).tempo = s.tempo := rfl
@[simp] theorem setT_tempoFrac : (setT s t v).tempoFrac = s.tempoFrac := rfl
@[simp] theorem setT_pw : (setT s t v).pw = s.pw := rfl
@[simp] theorem setT_nmc : (setT s t v).nmc = s.nmc := rfl
@[simp] theorem setT_er : (setT s t v).er = s.er := rfl
@[simp] theorem setT_cal : (setT s t v).cal = s.cal := rfl
@[simp] theorem setT_spare : (setT s t v).spare = s.spare := rfl
@[simp] theorem setT_bd : (setT s t v).bd = s.bd := rfl
@[simp] theorem setT_ranks : (setT s t v).ranks = s.ranks := rfl
@[simp] theorem setT_squares : (setT s t v).squares = s.squares := rfl
@[simp] theorem setT_qe : (setT s t v).qe = s.qe := rfl
@[simp] theorem setT_meters : (setT s t v).meters = s.meters := rfl
@[simp] theorem setT_ms : (setT s t v).ms = s.ms := rfl
@[simp] theorem setT_indexes : (setT s t v).indexes = s.indexes := rfl
@[simp] theorem setT_partials : (setT s t v).partials = s.partials := rfl
@[simp] theorem setT_fl : (setT s t v).fl = s.fl := rfl
@[simp] theorem setT_fab : (setT s t v).fab = s.fab := rfl
@[simp] theorem setT_ts : (setT s t v).ts = s.ts := rfl

end setTLaws

section setMLaws
variable (s : State) (t : Nat) (e : Bool) (v : Meter)

@[simp] theorem setM_pending : (setM s t e v).pending = s.pending := rfl
@[simp] theorem setM_freeCtr : (setM s t e v).freeCtr = s.freeCtr := rfl
@[simp] theorem setM_out : (setM s t e v).out = s.out := rfl
@[simp] theorem setM_hostMem : (setM s t e v).hostMem = s.hostMem := rfl
@[simp] theorem setM_tempo : (setM s t e v).tempo = s.tempo := rfl
@[simp] theorem setM_tempoFrac : (setM s t e v).tempoFrac = s.tempoFrac := rfl
@[simp] theorem setM_pw : (setM s t e v).pw = s.pw := rfl
@[simp] theorem setM_nmc : (setM s t e v).nmc = s.nmc := rfl
@[simp] theorem setM_er : (setM s t e v).er = s.er := rfl
@[simp] theorem setM_cal : (setM s t e v).cal = s.cal := rfl
@[simp] theorem setM_spare : (setM s t e v).spare = s.spare := rfl
@[simp] theorem setM_bd : (setM s t e v).bd = s.bd := rfl
@[simp] theorem setM_ranks : (setM s t e v).ranks = s.ranks := rfl
@[simp] theorem setM_squares : (setM s t e v).squares = s.squares := rfl
@[simp] theorem setM_qe : (setM s t e v).qe = s.qe := rfl
@[simp] theorem setM_tenants : (setM s t e v).tenants = s.tenants := rfl
@[simp] theorem setM_ms : (setM s t e v).ms = s.ms := rfl
@[simp] theorem setM_indexes : (setM s t e v).indexes = s.indexes := rfl
@[simp] theorem setM_partials : (setM s t e v).partials = s.partials := rfl
@[simp] theorem setM_fl : (setM s t e v).fl = s.fl := rfl
@[simp] theorem setM_fab : (setM s t e v).fab = s.fab := rfl
@[simp] theorem setM_ts : (setM s t e v).ts = s.ts := rfl

end setMLaws

section setRankLaws
variable (s : State) (r : Nat) (v : Rank)

@[simp] theorem setRank_pending : (setRank s r v).pending = s.pending := rfl
@[simp] theorem setRank_freeCtr : (setRank s r v).freeCtr = s.freeCtr := rfl
@[simp] theorem setRank_out : (setRank s r v).out = s.out := rfl
@[simp] theorem setRank_hostMem : (setRank s r v).hostMem = s.hostMem := rfl
@[simp] theorem setRank_tempo : (setRank s r v).tempo = s.tempo := rfl
@[simp] theorem setRank_tempoFrac : (setRank s r v).tempoFrac = s.tempoFrac := rfl
@[simp] theorem setRank_pw : (setRank s r v).pw = s.pw := rfl
@[simp] theorem setRank_nmc : (setRank s r v).nmc = s.nmc := rfl
@[simp] theorem setRank_er : (setRank s r v).er = s.er := rfl
@[simp] theorem setRank_cal : (setRank s r v).cal = s.cal := rfl
@[simp] theorem setRank_spare : (setRank s r v).spare = s.spare := rfl
@[simp] theorem setRank_bd : (setRank s r v).bd = s.bd := rfl
@[simp] theorem setRank_squares : (setRank s r v).squares = s.squares := rfl
@[simp] theorem setRank_qe : (setRank s r v).qe = s.qe := rfl
@[simp] theorem setRank_tenants : (setRank s r v).tenants = s.tenants := rfl
@[simp] theorem setRank_meters : (setRank s r v).meters = s.meters := rfl
@[simp] theorem setRank_ms : (setRank s r v).ms = s.ms := rfl
@[simp] theorem setRank_indexes : (setRank s r v).indexes = s.indexes := rfl
@[simp] theorem setRank_partials : (setRank s r v).partials = s.partials := rfl
@[simp] theorem setRank_fl : (setRank s r v).fl = s.fl := rfl
@[simp] theorem setRank_fab : (setRank s r v).fab = s.fab := rfl
@[simp] theorem setRank_ts : (setRank s r v).ts = s.ts := rfl

end setRankLaws

section setSqLaws
variable (s : State) (n : Nat) (v : Square)

@[simp] theorem setSq_pending : (setSq s n v).pending = s.pending := rfl
@[simp] theorem setSq_freeCtr : (setSq s n v).freeCtr = s.freeCtr := rfl
@[simp] theorem setSq_out : (setSq s n v).out = s.out := rfl
@[simp] theorem setSq_hostMem : (setSq s n v).hostMem = s.hostMem := rfl
@[simp] theorem setSq_tempo : (setSq s n v).tempo = s.tempo := rfl
@[simp] theorem setSq_tempoFrac : (setSq s n v).tempoFrac = s.tempoFrac := rfl
@[simp] theorem setSq_pw : (setSq s n v).pw = s.pw := rfl
@[simp] theorem setSq_nmc : (setSq s n v).nmc = s.nmc := rfl
@[simp] theorem setSq_er : (setSq s n v).er = s.er := rfl
@[simp] theorem setSq_cal : (setSq s n v).cal = s.cal := rfl
@[simp] theorem setSq_spare : (setSq s n v).spare = s.spare := rfl
@[simp] theorem setSq_bd : (setSq s n v).bd = s.bd := rfl
@[simp] theorem setSq_ranks : (setSq s n v).ranks = s.ranks := rfl
@[simp] theorem setSq_qe : (setSq s n v).qe = s.qe := rfl
@[simp] theorem setSq_tenants : (setSq s n v).tenants = s.tenants := rfl
@[simp] theorem setSq_meters : (setSq s n v).meters = s.meters := rfl
@[simp] theorem setSq_ms : (setSq s n v).ms = s.ms := rfl
@[simp] theorem setSq_indexes : (setSq s n v).indexes = s.indexes := rfl
@[simp] theorem setSq_partials : (setSq s n v).partials = s.partials := rfl
@[simp] theorem setSq_fl : (setSq s n v).fl = s.fl := rfl
@[simp] theorem setSq_fab : (setSq s n v).fab = s.fab := rfl
@[simp] theorem setSq_ts : (setSq s n v).ts = s.ts := rfl

end setSqLaws

section setCtxLaws
variable (s : State) (n c : Nat) (v : Ctx)

@[simp] theorem setCtx_pending : (setCtx s n c v).pending = s.pending := rfl
@[simp] theorem setCtx_freeCtr : (setCtx s n c v).freeCtr = s.freeCtr := rfl
@[simp] theorem setCtx_out : (setCtx s n c v).out = s.out := rfl
@[simp] theorem setCtx_hostMem : (setCtx s n c v).hostMem = s.hostMem := rfl
@[simp] theorem setCtx_tempo : (setCtx s n c v).tempo = s.tempo := rfl
@[simp] theorem setCtx_tempoFrac : (setCtx s n c v).tempoFrac = s.tempoFrac := rfl
@[simp] theorem setCtx_pw : (setCtx s n c v).pw = s.pw := rfl
@[simp] theorem setCtx_nmc : (setCtx s n c v).nmc = s.nmc := rfl
@[simp] theorem setCtx_er : (setCtx s n c v).er = s.er := rfl
@[simp] theorem setCtx_cal : (setCtx s n c v).cal = s.cal := rfl
@[simp] theorem setCtx_spare : (setCtx s n c v).spare = s.spare := rfl
@[simp] theorem setCtx_bd : (setCtx s n c v).bd = s.bd := rfl
@[simp] theorem setCtx_ranks : (setCtx s n c v).ranks = s.ranks := rfl
@[simp] theorem setCtx_qe : (setCtx s n c v).qe = s.qe := rfl
@[simp] theorem setCtx_tenants : (setCtx s n c v).tenants = s.tenants := rfl
@[simp] theorem setCtx_meters : (setCtx s n c v).meters = s.meters := rfl
@[simp] theorem setCtx_ms : (setCtx s n c v).ms = s.ms := rfl
@[simp] theorem setCtx_indexes : (setCtx s n c v).indexes = s.indexes := rfl
@[simp] theorem setCtx_partials : (setCtx s n c v).partials = s.partials := rfl
@[simp] theorem setCtx_fl : (setCtx s n c v).fl = s.fl := rfl
@[simp] theorem setCtx_fab : (setCtx s n c v).fab = s.fab := rfl
@[simp] theorem setCtx_ts : (setCtx s n c v).ts = s.ts := rfl

end setCtxLaws

section setLinkLaws
variable (s : State) (l : Nat) (v : Link)

@[simp] theorem setLink_pending : (setLink s l v).pending = s.pending := rfl
@[simp] theorem setLink_freeCtr : (setLink s l v).freeCtr = s.freeCtr := rfl
@[simp] theorem setLink_out : (setLink s l v).out = s.out := rfl
@[simp] theorem setLink_hostMem : (setLink s l v).hostMem = s.hostMem := rfl
@[simp] theorem setLink_tempo : (setLink s l v).tempo = s.tempo := rfl
@[simp] theorem setLink_tempoFrac : (setLink s l v).tempoFrac = s.tempoFrac := rfl
@[simp] theorem setLink_pw : (setLink s l v).pw = s.pw := rfl
@[simp] theorem setLink_nmc : (setLink s l v).nmc = s.nmc := rfl
@[simp] theorem setLink_er : (setLink s l v).er = s.er := rfl
@[simp] theorem setLink_cal : (setLink s l v).cal = s.cal := rfl
@[simp] theorem setLink_spare : (setLink s l v).spare = s.spare := rfl
@[simp] theorem setLink_bd : (setLink s l v).bd = s.bd := rfl
@[simp] theorem setLink_ranks : (setLink s l v).ranks = s.ranks := rfl
@[simp] theorem setLink_squares : (setLink s l v).squares = s.squares := rfl
@[simp] theorem setLink_qe : (setLink s l v).qe = s.qe := rfl
@[simp] theorem setLink_tenants : (setLink s l v).tenants = s.tenants := rfl
@[simp] theorem setLink_meters : (setLink s l v).meters = s.meters := rfl
@[simp] theorem setLink_ms : (setLink s l v).ms = s.ms := rfl
@[simp] theorem setLink_indexes : (setLink s l v).indexes = s.indexes := rfl
@[simp] theorem setLink_partials : (setLink s l v).partials = s.partials := rfl
@[simp] theorem setLink_fl : (setLink s l v).fl = s.fl := rfl
@[simp] theorem setLink_ts : (setLink s l v).ts = s.ts := rfl

end setLinkLaws

section setGuardLaws
variable (s : State) (g : Nat) (v : Guard)

@[simp] theorem setGuard_pending : (setGuard s g v).pending = s.pending := rfl
@[simp] theorem setGuard_freeCtr : (setGuard s g v).freeCtr = s.freeCtr := rfl
@[simp] theorem setGuard_out : (setGuard s g v).out = s.out := rfl
@[simp] theorem setGuard_hostMem : (setGuard s g v).hostMem = s.hostMem := rfl
@[simp] theorem setGuard_tempo : (setGuard s g v).tempo = s.tempo := rfl
@[simp] theorem setGuard_tempoFrac : (setGuard s g v).tempoFrac = s.tempoFrac := rfl
@[simp] theorem setGuard_pw : (setGuard s g v).pw = s.pw := rfl
@[simp] theorem setGuard_nmc : (setGuard s g v).nmc = s.nmc := rfl
@[simp] theorem setGuard_er : (setGuard s g v).er = s.er := rfl
@[simp] theorem setGuard_cal : (setGuard s g v).cal = s.cal := rfl
@[simp] theorem setGuard_spare : (setGuard s g v).spare = s.spare := rfl
@[simp] theorem setGuard_bd : (setGuard s g v).bd = s.bd := rfl
@[simp] theorem setGuard_ranks : (setGuard s g v).ranks = s.ranks := rfl
@[simp] theorem setGuard_squares : (setGuard s g v).squares = s.squares := rfl
@[simp] theorem setGuard_qe : (setGuard s g v).qe = s.qe := rfl
@[simp] theorem setGuard_tenants : (setGuard s g v).tenants = s.tenants := rfl
@[simp] theorem setGuard_meters : (setGuard s g v).meters = s.meters := rfl
@[simp] theorem setGuard_ms : (setGuard s g v).ms = s.ms := rfl
@[simp] theorem setGuard_indexes : (setGuard s g v).indexes = s.indexes := rfl
@[simp] theorem setGuard_partials : (setGuard s g v).partials = s.partials := rfl
@[simp] theorem setGuard_fl : (setGuard s g v).fl = s.fl := rfl
@[simp] theorem setGuard_ts : (setGuard s g v).ts = s.ts := rfl

end setGuardLaws

section setChLaws
variable (s : State) (c : Nat) (v : Channel)

@[simp] theorem setCh_pending : (setCh s c v).pending = s.pending := rfl
@[simp] theorem setCh_freeCtr : (setCh s c v).freeCtr = s.freeCtr := rfl
@[simp] theorem setCh_out : (setCh s c v).out = s.out := rfl
@[simp] theorem setCh_hostMem : (setCh s c v).hostMem = s.hostMem := rfl
@[simp] theorem setCh_tempo : (setCh s c v).tempo = s.tempo := rfl
@[simp] theorem setCh_tempoFrac : (setCh s c v).tempoFrac = s.tempoFrac := rfl
@[simp] theorem setCh_pw : (setCh s c v).pw = s.pw := rfl
@[simp] theorem setCh_nmc : (setCh s c v).nmc = s.nmc := rfl
@[simp] theorem setCh_er : (setCh s c v).er = s.er := rfl
@[simp] theorem setCh_cal : (setCh s c v).cal = s.cal := rfl
@[simp] theorem setCh_spare : (setCh s c v).spare = s.spare := rfl
@[simp] theorem setCh_bd : (setCh s c v).bd = s.bd := rfl
@[simp] theorem setCh_ranks : (setCh s c v).ranks = s.ranks := rfl
@[simp] theorem setCh_squares : (setCh s c v).squares = s.squares := rfl
@[simp] theorem setCh_qe : (setCh s c v).qe = s.qe := rfl
@[simp] theorem setCh_tenants : (setCh s c v).tenants = s.tenants := rfl
@[simp] theorem setCh_meters : (setCh s c v).meters = s.meters := rfl
@[simp] theorem setCh_ms : (setCh s c v).ms = s.ms := rfl
@[simp] theorem setCh_indexes : (setCh s c v).indexes = s.indexes := rfl
@[simp] theorem setCh_partials : (setCh s c v).partials = s.partials := rfl
@[simp] theorem setCh_fab : (setCh s c v).fab = s.fab := rfl
@[simp] theorem setCh_ts : (setCh s c v).ts = s.ts := rfl

end setChLaws

section cntQeLaws
variable (s : State) (k : Nat)

@[simp] theorem cntQe_pending : (cntQe s k).pending = s.pending := rfl
@[simp] theorem cntQe_freeCtr : (cntQe s k).freeCtr = s.freeCtr := rfl
@[simp] theorem cntQe_out : (cntQe s k).out = s.out := rfl
@[simp] theorem cntQe_hostMem : (cntQe s k).hostMem = s.hostMem := rfl
@[simp] theorem cntQe_tempo : (cntQe s k).tempo = s.tempo := rfl
@[simp] theorem cntQe_tempoFrac : (cntQe s k).tempoFrac = s.tempoFrac := rfl
@[simp] theorem cntQe_pw : (cntQe s k).pw = s.pw := rfl
@[simp] theorem cntQe_nmc : (cntQe s k).nmc = s.nmc := rfl
@[simp] theorem cntQe_er : (cntQe s k).er = s.er := rfl
@[simp] theorem cntQe_cal : (cntQe s k).cal = s.cal := rfl
@[simp] theorem cntQe_spare : (cntQe s k).spare = s.spare := rfl
@[simp] theorem cntQe_bd : (cntQe s k).bd = s.bd := rfl
@[simp] theorem cntQe_ranks : (cntQe s k).ranks = s.ranks := rfl
@[simp] theorem cntQe_squares : (cntQe s k).squares = s.squares := rfl
@[simp] theorem cntQe_tenants : (cntQe s k).tenants = s.tenants := rfl
@[simp] theorem cntQe_meters : (cntQe s k).meters = s.meters := rfl
@[simp] theorem cntQe_ms : (cntQe s k).ms = s.ms := rfl
@[simp] theorem cntQe_indexes : (cntQe s k).indexes = s.indexes := rfl
@[simp] theorem cntQe_partials : (cntQe s k).partials = s.partials := rfl
@[simp] theorem cntQe_fl : (cntQe s k).fl = s.fl := rfl
@[simp] theorem cntQe_fab : (cntQe s k).fab = s.fab := rfl
@[simp] theorem cntQe_ts : (cntQe s k).ts = s.ts := rfl

end cntQeLaws

section cntFabLaws
variable (s : State) (k n : Nat)

@[simp] theorem cntFab_pending : (cntFab s k n).pending = s.pending := rfl
@[simp] theorem cntFab_freeCtr : (cntFab s k n).freeCtr = s.freeCtr := rfl
@[simp] theorem cntFab_out : (cntFab s k n).out = s.out := rfl
@[simp] theorem cntFab_hostMem : (cntFab s k n).hostMem = s.hostMem := rfl
@[simp] theorem cntFab_tempo : (cntFab s k n).tempo = s.tempo := rfl
@[simp] theorem cntFab_tempoFrac : (cntFab s k n).tempoFrac = s.tempoFrac := rfl
@[simp] theorem cntFab_pw : (cntFab s k n).pw = s.pw := rfl
@[simp] theorem cntFab_nmc : (cntFab s k n).nmc = s.nmc := rfl
@[simp] theorem cntFab_er : (cntFab s k n).er = s.er := rfl
@[simp] theorem cntFab_cal : (cntFab s k n).cal = s.cal := rfl
@[simp] theorem cntFab_spare : (cntFab s k n).spare = s.spare := rfl
@[simp] theorem cntFab_bd : (cntFab s k n).bd = s.bd := rfl
@[simp] theorem cntFab_ranks : (cntFab s k n).ranks = s.ranks := rfl
@[simp] theorem cntFab_squares : (cntFab s k n).squares = s.squares := rfl
@[simp] theorem cntFab_qe : (cntFab s k n).qe = s.qe := rfl
@[simp] theorem cntFab_tenants : (cntFab s k n).tenants = s.tenants := rfl
@[simp] theorem cntFab_meters : (cntFab s k n).meters = s.meters := rfl
@[simp] theorem cntFab_ms : (cntFab s k n).ms = s.ms := rfl
@[simp] theorem cntFab_indexes : (cntFab s k n).indexes = s.indexes := rfl
@[simp] theorem cntFab_partials : (cntFab s k n).partials = s.partials := rfl
@[simp] theorem cntFab_fl : (cntFab s k n).fl = s.fl := rfl
@[simp] theorem cntFab_ts : (cntFab s k n).ts = s.ts := rfl

end cntFabLaws

section cntFlLaws
variable (s : State) (k n : Nat)

@[simp] theorem cntFl_pending : (cntFl s k n).pending = s.pending := rfl
@[simp] theorem cntFl_freeCtr : (cntFl s k n).freeCtr = s.freeCtr := rfl
@[simp] theorem cntFl_out : (cntFl s k n).out = s.out := rfl
@[simp] theorem cntFl_hostMem : (cntFl s k n).hostMem = s.hostMem := rfl
@[simp] theorem cntFl_tempo : (cntFl s k n).tempo = s.tempo := rfl
@[simp] theorem cntFl_tempoFrac : (cntFl s k n).tempoFrac = s.tempoFrac := rfl
@[simp] theorem cntFl_pw : (cntFl s k n).pw = s.pw := rfl
@[simp] theorem cntFl_nmc : (cntFl s k n).nmc = s.nmc := rfl
@[simp] theorem cntFl_er : (cntFl s k n).er = s.er := rfl
@[simp] theorem cntFl_cal : (cntFl s k n).cal = s.cal := rfl
@[simp] theorem cntFl_spare : (cntFl s k n).spare = s.spare := rfl
@[simp] theorem cntFl_bd : (cntFl s k n).bd = s.bd := rfl
@[simp] theorem cntFl_ranks : (cntFl s k n).ranks = s.ranks := rfl
@[simp] theorem cntFl_squares : (cntFl s k n).squares = s.squares := rfl
@[simp] theorem cntFl_qe : (cntFl s k n).qe = s.qe := rfl
@[simp] theorem cntFl_tenants : (cntFl s k n).tenants = s.tenants := rfl
@[simp] theorem cntFl_meters : (cntFl s k n).meters = s.meters := rfl
@[simp] theorem cntFl_ms : (cntFl s k n).ms = s.ms := rfl
@[simp] theorem cntFl_indexes : (cntFl s k n).indexes = s.indexes := rfl
@[simp] theorem cntFl_partials : (cntFl s k n).partials = s.partials := rfl
@[simp] theorem cntFl_fab : (cntFl s k n).fab = s.fab := rfl
@[simp] theorem cntFl_ts : (cntFl s k n).ts = s.ts := rfl

end cntFlLaws

section cntTsLaws
variable (s : State) (k n : Nat)

@[simp] theorem cntTs_pending : (cntTs s k n).pending = s.pending := rfl
@[simp] theorem cntTs_freeCtr : (cntTs s k n).freeCtr = s.freeCtr := rfl
@[simp] theorem cntTs_out : (cntTs s k n).out = s.out := rfl
@[simp] theorem cntTs_hostMem : (cntTs s k n).hostMem = s.hostMem := rfl
@[simp] theorem cntTs_tempo : (cntTs s k n).tempo = s.tempo := rfl
@[simp] theorem cntTs_tempoFrac : (cntTs s k n).tempoFrac = s.tempoFrac := rfl
@[simp] theorem cntTs_pw : (cntTs s k n).pw = s.pw := rfl
@[simp] theorem cntTs_nmc : (cntTs s k n).nmc = s.nmc := rfl
@[simp] theorem cntTs_er : (cntTs s k n).er = s.er := rfl
@[simp] theorem cntTs_cal : (cntTs s k n).cal = s.cal := rfl
@[simp] theorem cntTs_spare : (cntTs s k n).spare = s.spare := rfl
@[simp] theorem cntTs_bd : (cntTs s k n).bd = s.bd := rfl
@[simp] theorem cntTs_ranks : (cntTs s k n).ranks = s.ranks := rfl
@[simp] theorem cntTs_squares : (cntTs s k n).squares = s.squares := rfl
@[simp] theorem cntTs_qe : (cntTs s k n).qe = s.qe := rfl
@[simp] theorem cntTs_tenants : (cntTs s k n).tenants = s.tenants := rfl
@[simp] theorem cntTs_meters : (cntTs s k n).meters = s.meters := rfl
@[simp] theorem cntTs_ms : (cntTs s k n).ms = s.ms := rfl
@[simp] theorem cntTs_indexes : (cntTs s k n).indexes = s.indexes := rfl
@[simp] theorem cntTs_partials : (cntTs s k n).partials = s.partials := rfl
@[simp] theorem cntTs_fl : (cntTs s k n).fl = s.fl := rfl
@[simp] theorem cntTs_fab : (cntTs s k n).fab = s.fab := rfl

end cntTsLaws

section cntErLaws
variable (s : State) (k n : Nat)

@[simp] theorem cntEr_pending : (cntEr s k n).pending = s.pending := rfl
@[simp] theorem cntEr_freeCtr : (cntEr s k n).freeCtr = s.freeCtr := rfl
@[simp] theorem cntEr_out : (cntEr s k n).out = s.out := rfl
@[simp] theorem cntEr_hostMem : (cntEr s k n).hostMem = s.hostMem := rfl
@[simp] theorem cntEr_tempo : (cntEr s k n).tempo = s.tempo := rfl
@[simp] theorem cntEr_tempoFrac : (cntEr s k n).tempoFrac = s.tempoFrac := rfl
@[simp] theorem cntEr_pw : (cntEr s k n).pw = s.pw := rfl
@[simp] theorem cntEr_nmc : (cntEr s k n).nmc = s.nmc := rfl
@[simp] theorem cntEr_cal : (cntEr s k n).cal = s.cal := rfl
@[simp] theorem cntEr_spare : (cntEr s k n).spare = s.spare := rfl
@[simp] theorem cntEr_bd : (cntEr s k n).bd = s.bd := rfl
@[simp] theorem cntEr_ranks : (cntEr s k n).ranks = s.ranks := rfl
@[simp] theorem cntEr_squares : (cntEr s k n).squares = s.squares := rfl
@[simp] theorem cntEr_qe : (cntEr s k n).qe = s.qe := rfl
@[simp] theorem cntEr_tenants : (cntEr s k n).tenants = s.tenants := rfl
@[simp] theorem cntEr_meters : (cntEr s k n).meters = s.meters := rfl
@[simp] theorem cntEr_ms : (cntEr s k n).ms = s.ms := rfl
@[simp] theorem cntEr_indexes : (cntEr s k n).indexes = s.indexes := rfl
@[simp] theorem cntEr_partials : (cntEr s k n).partials = s.partials := rfl
@[simp] theorem cntEr_fl : (cntEr s k n).fl = s.fl := rfl
@[simp] theorem cntEr_fab : (cntEr s k n).fab = s.fab := rfl
@[simp] theorem cntEr_ts : (cntEr s k n).ts = s.ts := rfl

end cntErLaws

section setObjsLaws
variable (s : State) (os : List Obj)

@[simp] theorem setObjs_pending : (setObjs s os).pending = s.pending := rfl
@[simp] theorem setObjs_freeCtr : (setObjs s os).freeCtr = s.freeCtr := rfl
@[simp] theorem setObjs_out : (setObjs s os).out = s.out := rfl
@[simp] theorem setObjs_hostMem : (setObjs s os).hostMem = s.hostMem := rfl
@[simp] theorem setObjs_tempo : (setObjs s os).tempo = s.tempo := rfl
@[simp] theorem setObjs_tempoFrac : (setObjs s os).tempoFrac = s.tempoFrac := rfl
@[simp] theorem setObjs_pw : (setObjs s os).pw = s.pw := rfl
@[simp] theorem setObjs_nmc : (setObjs s os).nmc = s.nmc := rfl
@[simp] theorem setObjs_er : (setObjs s os).er = s.er := rfl
@[simp] theorem setObjs_cal : (setObjs s os).cal = s.cal := rfl
@[simp] theorem setObjs_spare : (setObjs s os).spare = s.spare := rfl
@[simp] theorem setObjs_bd : (setObjs s os).bd = s.bd := rfl
@[simp] theorem setObjs_ranks : (setObjs s os).ranks = s.ranks := rfl
@[simp] theorem setObjs_squares : (setObjs s os).squares = s.squares := rfl
@[simp] theorem setObjs_qe : (setObjs s os).qe = s.qe := rfl
@[simp] theorem setObjs_tenants : (setObjs s os).tenants = s.tenants := rfl
@[simp] theorem setObjs_meters : (setObjs s os).meters = s.meters := rfl
@[simp] theorem setObjs_indexes : (setObjs s os).indexes = s.indexes := rfl
@[simp] theorem setObjs_partials : (setObjs s os).partials = s.partials := rfl
@[simp] theorem setObjs_fl : (setObjs s os).fl = s.fl := rfl
@[simp] theorem setObjs_fab : (setObjs s os).fab = s.fab := rfl
@[simp] theorem setObjs_ts : (setObjs s os).ts = s.ts := rfl

end setObjsLaws

section putObjLaws
variable (s : State) (o : Obj)

@[simp] theorem putObj_pending : (putObj s o).pending = s.pending := by unfold putObj; split <;> rfl
@[simp] theorem putObj_freeCtr : (putObj s o).freeCtr = s.freeCtr := by unfold putObj; split <;> rfl
@[simp] theorem putObj_out : (putObj s o).out = s.out := by unfold putObj; split <;> rfl
@[simp] theorem putObj_hostMem : (putObj s o).hostMem = s.hostMem := by unfold putObj; split <;> rfl
@[simp] theorem putObj_tempo : (putObj s o).tempo = s.tempo := by unfold putObj; split <;> rfl
@[simp] theorem putObj_tempoFrac : (putObj s o).tempoFrac = s.tempoFrac := by unfold putObj; split <;> rfl
@[simp] theorem putObj_pw : (putObj s o).pw = s.pw := by unfold putObj; split <;> rfl
@[simp] theorem putObj_nmc : (putObj s o).nmc = s.nmc := by unfold putObj; split <;> rfl
@[simp] theorem putObj_er : (putObj s o).er = s.er := by unfold putObj; split <;> rfl
@[simp] theorem putObj_cal : (putObj s o).cal = s.cal := by unfold putObj; split <;> rfl
@[simp] theorem putObj_spare : (putObj s o).spare = s.spare := by unfold putObj; split <;> rfl
@[simp] theorem putObj_bd : (putObj s o).bd = s.bd := by unfold putObj; split <;> rfl
@[simp] theorem putObj_ranks : (putObj s o).ranks = s.ranks := by unfold putObj; split <;> rfl
@[simp] theorem putObj_squares : (putObj s o).squares = s.squares := by unfold putObj; split <;> rfl
@[simp] theorem putObj_qe : (putObj s o).qe = s.qe := by unfold putObj; split <;> rfl
@[simp] theorem putObj_tenants : (putObj s o).tenants = s.tenants := by unfold putObj; split <;> rfl
@[simp] theorem putObj_meters : (putObj s o).meters = s.meters := by unfold putObj; split <;> rfl
@[simp] theorem putObj_indexes : (putObj s o).indexes = s.indexes := by unfold putObj; split <;> rfl
@[simp] theorem putObj_partials : (putObj s o).partials = s.partials := by unfold putObj; split <;> rfl
@[simp] theorem putObj_fl : (putObj s o).fl = s.fl := by unfold putObj; split <;> rfl
@[simp] theorem putObj_fab : (putObj s o).fab = s.fab := by unfold putObj; split <;> rfl
@[simp] theorem putObj_ts : (putObj s o).ts = s.ts := by unfold putObj; split <;> rfl

end putObjLaws

section delObjLaws
variable (s : State) (t n : Nat)

@[simp] theorem delObj_pending : (delObj s t n).pending = s.pending := rfl
@[simp] theorem delObj_freeCtr : (delObj s t n).freeCtr = s.freeCtr := rfl
@[simp] theorem delObj_out : (delObj s t n).out = s.out := rfl
@[simp] theorem delObj_hostMem : (delObj s t n).hostMem = s.hostMem := rfl
@[simp] theorem delObj_tempo : (delObj s t n).tempo = s.tempo := rfl
@[simp] theorem delObj_tempoFrac : (delObj s t n).tempoFrac = s.tempoFrac := rfl
@[simp] theorem delObj_pw : (delObj s t n).pw = s.pw := rfl
@[simp] theorem delObj_nmc : (delObj s t n).nmc = s.nmc := rfl
@[simp] theorem delObj_er : (delObj s t n).er = s.er := rfl
@[simp] theorem delObj_cal : (delObj s t n).cal = s.cal := rfl
@[simp] theorem delObj_spare : (delObj s t n).spare = s.spare := rfl
@[simp] theorem delObj_bd : (delObj s t n).bd = s.bd := rfl
@[simp] theorem delObj_ranks : (delObj s t n).ranks = s.ranks := rfl
@[simp] theorem delObj_squares : (delObj s t n).squares = s.squares := rfl
@[simp] theorem delObj_qe : (delObj s t n).qe = s.qe := rfl
@[simp] theorem delObj_tenants : (delObj s t n).tenants = s.tenants := rfl
@[simp] theorem delObj_meters : (delObj s t n).meters = s.meters := rfl
@[simp] theorem delObj_indexes : (delObj s t n).indexes = s.indexes := rfl
@[simp] theorem delObj_partials : (delObj s t n).partials = s.partials := rfl
@[simp] theorem delObj_fl : (delObj s t n).fl = s.fl := rfl
@[simp] theorem delObj_fab : (delObj s t n).fab = s.fab := rfl
@[simp] theorem delObj_ts : (delObj s t n).ts = s.ts := rfl

end delObjLaws

section putIndexLaws
variable (s : State) (i : Index)

@[simp] theorem putIndex_pending : (putIndex s i).pending = s.pending := by unfold putIndex; split <;> rfl
@[simp] theorem putIndex_freeCtr : (putIndex s i).freeCtr = s.freeCtr := by unfold putIndex; split <;> rfl
@[simp] theorem putIndex_out : (putIndex s i).out = s.out := by unfold putIndex; split <;> rfl
@[simp] theorem putIndex_hostMem : (putIndex s i).hostMem = s.hostMem := by unfold putIndex; split <;> rfl
@[simp] theorem putIndex_tempo : (putIndex s i).tempo = s.tempo := by unfold putIndex; split <;> rfl
@[simp] theorem putIndex_tempoFrac : (putIndex s i).tempoFrac = s.tempoFrac := by unfold putIndex; split <;> rfl
@[simp] theorem putIndex_pw : (putIndex s i).pw = s.pw := by unfold putIndex; split <;> rfl
@[simp] theorem putIndex_nmc : (putIndex s i).nmc = s.nmc := by unfold putIndex; split <;> rfl
@[simp] theorem putIndex_er : (putIndex s i).er = s.er := by unfold putIndex; split <;> rfl
@[simp] theorem putIndex_cal : (putIndex s i).cal = s.cal := by unfold putIndex; split <;> rfl
@[simp] theorem putIndex_spare : (putIndex s i).spare = s.spare := by unfold putIndex; split <;> rfl
@[simp] theorem putIndex_bd : (putIndex s i).bd = s.bd := by unfold putIndex; split <;> rfl
@[simp] theorem putIndex_ranks : (putIndex s i).ranks = s.ranks := by unfold putIndex; split <;> rfl
@[simp] theorem putIndex_squares : (putIndex s i).squares = s.squares := by unfold putIndex; split <;> rfl
@[simp] theorem putIndex_qe : (putIndex s i).qe = s.qe := by unfold putIndex; split <;> rfl
@[simp] theorem putIndex_tenants : (putIndex s i).tenants = s.tenants := by unfold putIndex; split <;> rfl
@[simp] theorem putIndex_meters : (putIndex s i).meters = s.meters := by unfold putIndex; split <;> rfl
@[simp] theorem putIndex_ms : (putIndex s i).ms = s.ms := by unfold putIndex; split <;> rfl
@[simp] theorem putIndex_partials : (putIndex s i).partials = s.partials := by unfold putIndex; split <;> rfl
@[simp] theorem putIndex_fl : (putIndex s i).fl = s.fl := by unfold putIndex; split <;> rfl
@[simp] theorem putIndex_fab : (putIndex s i).fab = s.fab := by unfold putIndex; split <;> rfl
@[simp] theorem putIndex_ts : (putIndex s i).ts = s.ts := by unfold putIndex; split <;> rfl

end putIndexLaws

section setStreamLaws
variable (s : State) (o k : Nat) (v : StreamSt)

@[simp] theorem setStream_pending : (setStream s o k v).pending = s.pending := rfl
@[simp] theorem setStream_freeCtr : (setStream s o k v).freeCtr = s.freeCtr := rfl
@[simp] theorem setStream_out : (setStream s o k v).out = s.out := rfl
@[simp] theorem setStream_hostMem : (setStream s o k v).hostMem = s.hostMem := rfl
@[simp] theorem setStream_tempo : (setStream s o k v).tempo = s.tempo := rfl
@[simp] theorem setStream_tempoFrac : (setStream s o k v).tempoFrac = s.tempoFrac := rfl
@[simp] theorem setStream_pw : (setStream s o k v).pw = s.pw := rfl
@[simp] theorem setStream_nmc : (setStream s o k v).nmc = s.nmc := rfl
@[simp] theorem setStream_er : (setStream s o k v).er = s.er := rfl
@[simp] theorem setStream_cal : (setStream s o k v).cal = s.cal := rfl
@[simp] theorem setStream_spare : (setStream s o k v).spare = s.spare := rfl
@[simp] theorem setStream_ranks : (setStream s o k v).ranks = s.ranks := rfl
@[simp] theorem setStream_squares : (setStream s o k v).squares = s.squares := rfl
@[simp] theorem setStream_qe : (setStream s o k v).qe = s.qe := rfl
@[simp] theorem setStream_tenants : (setStream s o k v).tenants = s.tenants := rfl
@[simp] theorem setStream_meters : (setStream s o k v).meters = s.meters := rfl
@[simp] theorem setStream_ms : (setStream s o k v).ms = s.ms := rfl
@[simp] theorem setStream_indexes : (setStream s o k v).indexes = s.indexes := rfl
@[simp] theorem setStream_partials : (setStream s o k v).partials = s.partials := rfl
@[simp] theorem setStream_fl : (setStream s o k v).fl = s.fl := rfl
@[simp] theorem setStream_fab : (setStream s o k v).fab = s.fab := rfl
@[simp] theorem setStream_ts : (setStream s o k v).ts = s.ts := rfl

end setStreamLaws

section addTokenLaws
variable (s : State) (o k : Nat) (n : Token)

@[simp] theorem addToken_pending : (addToken s o k n).pending = s.pending := rfl
@[simp] theorem addToken_freeCtr : (addToken s o k n).freeCtr = s.freeCtr := rfl
@[simp] theorem addToken_out : (addToken s o k n).out = s.out := rfl
@[simp] theorem addToken_hostMem : (addToken s o k n).hostMem = s.hostMem := rfl
@[simp] theorem addToken_tempo : (addToken s o k n).tempo = s.tempo := rfl
@[simp] theorem addToken_tempoFrac : (addToken s o k n).tempoFrac = s.tempoFrac := rfl
@[simp] theorem addToken_pw : (addToken s o k n).pw = s.pw := rfl
@[simp] theorem addToken_nmc : (addToken s o k n).nmc = s.nmc := rfl
@[simp] theorem addToken_er : (addToken s o k n).er = s.er := rfl
@[simp] theorem addToken_cal : (addToken s o k n).cal = s.cal := rfl
@[simp] theorem addToken_spare : (addToken s o k n).spare = s.spare := rfl
@[simp] theorem addToken_ranks : (addToken s o k n).ranks = s.ranks := rfl
@[simp] theorem addToken_squares : (addToken s o k n).squares = s.squares := rfl
@[simp] theorem addToken_qe : (addToken s o k n).qe = s.qe := rfl
@[simp] theorem addToken_tenants : (addToken s o k n).tenants = s.tenants := rfl
@[simp] theorem addToken_meters : (addToken s o k n).meters = s.meters := rfl
@[simp] theorem addToken_ms : (addToken s o k n).ms = s.ms := rfl
@[simp] theorem addToken_indexes : (addToken s o k n).indexes = s.indexes := rfl
@[simp] theorem addToken_partials : (addToken s o k n).partials = s.partials := rfl
@[simp] theorem addToken_fl : (addToken s o k n).fl = s.fl := rfl
@[simp] theorem addToken_fab : (addToken s o k n).fab = s.fab := rfl
@[simp] theorem addToken_ts : (addToken s o k n).ts = s.ts := rfl

end addTokenLaws

section setDescsLaws
variable (s : State) (ds : List Desc)

@[simp] theorem setDescs_pending : (setDescs s ds).pending = s.pending := rfl
@[simp] theorem setDescs_freeCtr : (setDescs s ds).freeCtr = s.freeCtr := rfl
@[simp] theorem setDescs_out : (setDescs s ds).out = s.out := rfl
@[simp] theorem setDescs_hostMem : (setDescs s ds).hostMem = s.hostMem := rfl
@[simp] theorem setDescs_tempo : (setDescs s ds).tempo = s.tempo := rfl
@[simp] theorem setDescs_tempoFrac : (setDescs s ds).tempoFrac = s.tempoFrac := rfl
@[simp] theorem setDescs_pw : (setDescs s ds).pw = s.pw := rfl
@[simp] theorem setDescs_nmc : (setDescs s ds).nmc = s.nmc := rfl
@[simp] theorem setDescs_er : (setDescs s ds).er = s.er := rfl
@[simp] theorem setDescs_cal : (setDescs s ds).cal = s.cal := rfl
@[simp] theorem setDescs_spare : (setDescs s ds).spare = s.spare := rfl
@[simp] theorem setDescs_bd : (setDescs s ds).bd = s.bd := rfl
@[simp] theorem setDescs_ranks : (setDescs s ds).ranks = s.ranks := rfl
@[simp] theorem setDescs_squares : (setDescs s ds).squares = s.squares := rfl
@[simp] theorem setDescs_tenants : (setDescs s ds).tenants = s.tenants := rfl
@[simp] theorem setDescs_meters : (setDescs s ds).meters = s.meters := rfl
@[simp] theorem setDescs_ms : (setDescs s ds).ms = s.ms := rfl
@[simp] theorem setDescs_indexes : (setDescs s ds).indexes = s.indexes := rfl
@[simp] theorem setDescs_partials : (setDescs s ds).partials = s.partials := rfl
@[simp] theorem setDescs_fl : (setDescs s ds).fl = s.fl := rfl
@[simp] theorem setDescs_fab : (setDescs s ds).fab = s.fab := rfl
@[simp] theorem setDescs_ts : (setDescs s ds).ts = s.ts := rfl

end setDescsLaws

section putDescLaws
variable (s : State) (d : Desc)

@[simp] theorem putDesc_pending : (putDesc s d).pending = s.pending := rfl
@[simp] theorem putDesc_freeCtr : (putDesc s d).freeCtr = s.freeCtr := rfl
@[simp] theorem putDesc_out : (putDesc s d).out = s.out := rfl
@[simp] theorem putDesc_hostMem : (putDesc s d).hostMem = s.hostMem := rfl
@[simp] theorem putDesc_tempo : (putDesc s d).tempo = s.tempo := rfl
@[simp] theorem putDesc_tempoFrac : (putDesc s d).tempoFrac = s.tempoFrac := rfl
@[simp] theorem putDesc_pw : (putDesc s d).pw = s.pw := rfl
@[simp] theorem putDesc_nmc : (putDesc s d).nmc = s.nmc := rfl
@[simp] theorem putDesc_er : (putDesc s d).er = s.er := rfl
@[simp] theorem putDesc_cal : (putDesc s d).cal = s.cal := rfl
@[simp] theorem putDesc_spare : (putDesc s d).spare = s.spare := rfl
@[simp] theorem putDesc_bd : (putDesc s d).bd = s.bd := rfl
@[simp] theorem putDesc_ranks : (putDesc s d).ranks = s.ranks := rfl
@[simp] theorem putDesc_squares : (putDesc s d).squares = s.squares := rfl
@[simp] theorem putDesc_tenants : (putDesc s d).tenants = s.tenants := rfl
@[simp] theorem putDesc_meters : (putDesc s d).meters = s.meters := rfl
@[simp] theorem putDesc_ms : (putDesc s d).ms = s.ms := rfl
@[simp] theorem putDesc_indexes : (putDesc s d).indexes = s.indexes := rfl
@[simp] theorem putDesc_partials : (putDesc s d).partials = s.partials := rfl
@[simp] theorem putDesc_fl : (putDesc s d).fl = s.fl := rfl
@[simp] theorem putDesc_fab : (putDesc s d).fab = s.fab := rfl
@[simp] theorem putDesc_ts : (putDesc s d).ts = s.ts := rfl

end putDescLaws

section addRecLaws
variable (s : State) (r : Rec)

@[simp] theorem addRec_pending : (addRec s r).pending = s.pending := rfl
@[simp] theorem addRec_freeCtr : (addRec s r).freeCtr = s.freeCtr := rfl
@[simp] theorem addRec_out : (addRec s r).out = s.out := rfl
@[simp] theorem addRec_hostMem : (addRec s r).hostMem = s.hostMem := rfl
@[simp] theorem addRec_tempo : (addRec s r).tempo = s.tempo := rfl
@[simp] theorem addRec_tempoFrac : (addRec s r).tempoFrac = s.tempoFrac := rfl
@[simp] theorem addRec_pw : (addRec s r).pw = s.pw := rfl
@[simp] theorem addRec_nmc : (addRec s r).nmc = s.nmc := rfl
@[simp] theorem addRec_er : (addRec s r).er = s.er := rfl
@[simp] theorem addRec_cal : (addRec s r).cal = s.cal := rfl
@[simp] theorem addRec_spare : (addRec s r).spare = s.spare := rfl
@[simp] theorem addRec_bd : (addRec s r).bd = s.bd := rfl
@[simp] theorem addRec_ranks : (addRec s r).ranks = s.ranks := rfl
@[simp] theorem addRec_squares : (addRec s r).squares = s.squares := rfl
@[simp] theorem addRec_tenants : (addRec s r).tenants = s.tenants := rfl
@[simp] theorem addRec_meters : (addRec s r).meters = s.meters := rfl
@[simp] theorem addRec_ms : (addRec s r).ms = s.ms := rfl
@[simp] theorem addRec_indexes : (addRec s r).indexes = s.indexes := rfl
@[simp] theorem addRec_partials : (addRec s r).partials = s.partials := rfl
@[simp] theorem addRec_fl : (addRec s r).fl = s.fl := rfl
@[simp] theorem addRec_fab : (addRec s r).fab = s.fab := rfl
@[simp] theorem addRec_ts : (addRec s r).ts = s.ts := rfl

end addRecLaws

section setTtLaws
variable (s : State) (q : QId) (n : Nat) (e : TtEntry)

@[simp] theorem setTt_pending : (setTt s q n e).pending = s.pending := by simp [setTt]
@[simp] theorem setTt_freeCtr : (setTt s q n e).freeCtr = s.freeCtr := by simp [setTt]
@[simp] theorem setTt_out : (setTt s q n e).out = s.out := by simp [setTt]
@[simp] theorem setTt_hostMem : (setTt s q n e).hostMem = s.hostMem := by simp [setTt]
@[simp] theorem setTt_tempo : (setTt s q n e).tempo = s.tempo := by simp [setTt]
@[simp] theorem setTt_tempoFrac : (setTt s q n e).tempoFrac = s.tempoFrac := by simp [setTt]
@[simp] theorem setTt_pw : (setTt s q n e).pw = s.pw := by simp [setTt]
@[simp] theorem setTt_nmc : (setTt s q n e).nmc = s.nmc := by simp [setTt]
@[simp] theorem setTt_er : (setTt s q n e).er = s.er := by simp [setTt]
@[simp] theorem setTt_cal : (setTt s q n e).cal = s.cal := by simp [setTt]
@[simp] theorem setTt_spare : (setTt s q n e).spare = s.spare := by simp [setTt]
@[simp] theorem setTt_bd : (setTt s q n e).bd = s.bd := by simp [setTt]
@[simp] theorem setTt_ranks : (setTt s q n e).ranks = s.ranks := by simp [setTt]
@[simp] theorem setTt_squares : (setTt s q n e).squares = s.squares := by simp [setTt]
@[simp] theorem setTt_tenants : (setTt s q n e).tenants = s.tenants := by simp [setTt]
@[simp] theorem setTt_meters : (setTt s q n e).meters = s.meters := by simp [setTt]
@[simp] theorem setTt_ms : (setTt s q n e).ms = s.ms := by simp [setTt]
@[simp] theorem setTt_indexes : (setTt s q n e).indexes = s.indexes := by simp [setTt]
@[simp] theorem setTt_partials : (setTt s q n e).partials = s.partials := by simp [setTt]
@[simp] theorem setTt_fl : (setTt s q n e).fl = s.fl := by simp [setTt]
@[simp] theorem setTt_fab : (setTt s q n e).fab = s.fab := by simp [setTt]
@[simp] theorem setTt_ts : (setTt s q n e).ts = s.ts := by simp [setTt]

end setTtLaws

section commitLaws
variable (s : State) (d : Desc)

@[simp] theorem commit_pending : (commit s d).pending = s.pending := by simp [commit]
@[simp] theorem commit_freeCtr : (commit s d).freeCtr = s.freeCtr := by simp [commit]
@[simp] theorem commit_out : (commit s d).out = s.out := by simp [commit]
@[simp] theorem commit_hostMem : (commit s d).hostMem = s.hostMem := by simp [commit]
@[simp] theorem commit_tempo : (commit s d).tempo = s.tempo := by simp [commit]
@[simp] theorem commit_tempoFrac : (commit s d).tempoFrac = s.tempoFrac := by simp [commit]
@[simp] theorem commit_pw : (commit s d).pw = s.pw := by simp [commit]
@[simp] theorem commit_nmc : (commit s d).nmc = s.nmc := by simp [commit]
@[simp] theorem commit_er : (commit s d).er = s.er := by simp [commit]
@[simp] theorem commit_cal : (commit s d).cal = s.cal := by simp [commit]
@[simp] theorem commit_spare : (commit s d).spare = s.spare := by simp [commit]
@[simp] theorem commit_bd : (commit s d).bd = s.bd := by simp [commit]
@[simp] theorem commit_ranks : (commit s d).ranks = s.ranks := by simp [commit]
@[simp] theorem commit_squares : (commit s d).squares = s.squares := by simp [commit]
@[simp] theorem commit_tenants : (commit s d).tenants = s.tenants := by simp [commit]
@[simp] theorem commit_meters : (commit s d).meters = s.meters := by simp [commit]
@[simp] theorem commit_ms : (commit s d).ms = s.ms := by simp [commit]
@[simp] theorem commit_indexes : (commit s d).indexes = s.indexes := by simp [commit]
@[simp] theorem commit_partials : (commit s d).partials = s.partials := by simp [commit]
@[simp] theorem commit_fl : (commit s d).fl = s.fl := by simp [commit]
@[simp] theorem commit_fab : (commit s d).fab = s.fab := by simp [commit]
@[simp] theorem commit_ts : (commit s d).ts = s.ts := by simp [commit]

end commitLaws

section endCtxLaws
variable (s : State) (n c st : Nat)

@[simp] theorem endCtx_pending : (endCtx s n c st).pending = s.pending := by unfold endCtx; dsimp only; split <;> rfl
@[simp] theorem endCtx_freeCtr : (endCtx s n c st).freeCtr = s.freeCtr := by unfold endCtx; dsimp only; split <;> rfl
@[simp] theorem endCtx_out : (endCtx s n c st).out = s.out := by unfold endCtx; dsimp only; split <;> rfl
@[simp] theorem endCtx_hostMem : (endCtx s n c st).hostMem = s.hostMem := by unfold endCtx; dsimp only; split <;> rfl
@[simp] theorem endCtx_tempo : (endCtx s n c st).tempo = s.tempo := by unfold endCtx; dsimp only; split <;> rfl
@[simp] theorem endCtx_tempoFrac : (endCtx s n c st).tempoFrac = s.tempoFrac := by unfold endCtx; dsimp only; split <;> rfl
@[simp] theorem endCtx_pw : (endCtx s n c st).pw = s.pw := by unfold endCtx; dsimp only; split <;> rfl
@[simp] theorem endCtx_nmc : (endCtx s n c st).nmc = s.nmc := by unfold endCtx; dsimp only; split <;> rfl
@[simp] theorem endCtx_er : (endCtx s n c st).er = s.er := by unfold endCtx; dsimp only; split <;> rfl
@[simp] theorem endCtx_cal : (endCtx s n c st).cal = s.cal := by unfold endCtx; dsimp only; split <;> rfl
@[simp] theorem endCtx_spare : (endCtx s n c st).spare = s.spare := by unfold endCtx; dsimp only; split <;> rfl
@[simp] theorem endCtx_bd : (endCtx s n c st).bd = s.bd := by unfold endCtx; dsimp only; split <;> rfl
@[simp] theorem endCtx_ranks : (endCtx s n c st).ranks = s.ranks := by unfold endCtx; dsimp only; split <;> rfl
@[simp] theorem endCtx_qe : (endCtx s n c st).qe = s.qe := by unfold endCtx; dsimp only; split <;> rfl
@[simp] theorem endCtx_tenants : (endCtx s n c st).tenants = s.tenants := by unfold endCtx; dsimp only; split <;> rfl
@[simp] theorem endCtx_meters : (endCtx s n c st).meters = s.meters := by unfold endCtx; dsimp only; split <;> rfl
@[simp] theorem endCtx_ms : (endCtx s n c st).ms = s.ms := by unfold endCtx; dsimp only; split <;> rfl
@[simp] theorem endCtx_indexes : (endCtx s n c st).indexes = s.indexes := by unfold endCtx; dsimp only; split <;> rfl
@[simp] theorem endCtx_partials : (endCtx s n c st).partials = s.partials := by unfold endCtx; dsimp only; split <;> rfl
@[simp] theorem endCtx_fl : (endCtx s n c st).fl = s.fl := by unfold endCtx; dsimp only; split <;> rfl
@[simp] theorem endCtx_fab : (endCtx s n c st).fab = s.fab := by unfold endCtx; dsimp only; split <;> rfl
@[simp] theorem endCtx_ts : (endCtx s n c st).ts = s.ts := by unfold endCtx; dsimp only; split <;> rfl

end endCtxLaws

section freeEntryLaws
variable (s : State) (d : Desc) (st : Nat)

@[simp] theorem freeEntry_pending : (freeEntry s d st).pending = s.pending := by unfold freeEntry; split <;> simp
@[simp] theorem freeEntry_freeCtr : (freeEntry s d st).freeCtr = s.freeCtr := by unfold freeEntry; split <;> simp
@[simp] theorem freeEntry_out : (freeEntry s d st).out = s.out := by unfold freeEntry; split <;> simp
@[simp] theorem freeEntry_hostMem : (freeEntry s d st).hostMem = s.hostMem := by unfold freeEntry; split <;> simp
@[simp] theorem freeEntry_tempo : (freeEntry s d st).tempo = s.tempo := by unfold freeEntry; split <;> simp
@[simp] theorem freeEntry_tempoFrac : (freeEntry s d st).tempoFrac = s.tempoFrac := by unfold freeEntry; split <;> simp
@[simp] theorem freeEntry_pw : (freeEntry s d st).pw = s.pw := by unfold freeEntry; split <;> simp
@[simp] theorem freeEntry_nmc : (freeEntry s d st).nmc = s.nmc := by unfold freeEntry; split <;> simp
@[simp] theorem freeEntry_er : (freeEntry s d st).er = s.er := by unfold freeEntry; split <;> simp
@[simp] theorem freeEntry_cal : (freeEntry s d st).cal = s.cal := by unfold freeEntry; split <;> simp
@[simp] theorem freeEntry_spare : (freeEntry s d st).spare = s.spare := by unfold freeEntry; split <;> simp
@[simp] theorem freeEntry_bd : (freeEntry s d st).bd = s.bd := by unfold freeEntry; split <;> simp
@[simp] theorem freeEntry_ranks : (freeEntry s d st).ranks = s.ranks := by unfold freeEntry; split <;> simp
@[simp] theorem freeEntry_qe : (freeEntry s d st).qe = s.qe := by unfold freeEntry; split <;> simp
@[simp] theorem freeEntry_tenants : (freeEntry s d st).tenants = s.tenants := by unfold freeEntry; split <;> simp
@[simp] theorem freeEntry_meters : (freeEntry s d st).meters = s.meters := by unfold freeEntry; split <;> simp
@[simp] theorem freeEntry_ms : (freeEntry s d st).ms = s.ms := by unfold freeEntry; split <;> simp
@[simp] theorem freeEntry_indexes : (freeEntry s d st).indexes = s.indexes := by unfold freeEntry; split <;> simp
@[simp] theorem freeEntry_partials : (freeEntry s d st).partials = s.partials := by unfold freeEntry; split <;> simp
@[simp] theorem freeEntry_fl : (freeEntry s d st).fl = s.fl := by unfold freeEntry; split <;> simp
@[simp] theorem freeEntry_fab : (freeEntry s d st).fab = s.fab := by unfold freeEntry; split <;> simp
@[simp] theorem freeEntry_ts : (freeEntry s d st).ts = s.ts := by unfold freeEntry; split <;> simp

end freeEntryLaws

section dropChunksLaws
variable (s : State) (d : Desc)

@[simp] theorem dropChunks_pending : (dropChunks s d).pending = s.pending := by unfold dropChunks; split <;> rfl
@[simp] theorem dropChunks_freeCtr : (dropChunks s d).freeCtr = s.freeCtr := by unfold dropChunks; split <;> rfl
@[simp] theorem dropChunks_out : (dropChunks s d).out = s.out := by unfold dropChunks; split <;> rfl
@[simp] theorem dropChunks_hostMem : (dropChunks s d).hostMem = s.hostMem := by unfold dropChunks; split <;> rfl
@[simp] theorem dropChunks_tempo : (dropChunks s d).tempo = s.tempo := by unfold dropChunks; split <;> rfl
@[simp] theorem dropChunks_tempoFrac : (dropChunks s d).tempoFrac = s.tempoFrac := by unfold dropChunks; split <;> rfl
@[simp] theorem dropChunks_pw : (dropChunks s d).pw = s.pw := by unfold dropChunks; split <;> rfl
@[simp] theorem dropChunks_nmc : (dropChunks s d).nmc = s.nmc := by unfold dropChunks; split <;> rfl
@[simp] theorem dropChunks_er : (dropChunks s d).er = s.er := by unfold dropChunks; split <;> rfl
@[simp] theorem dropChunks_cal : (dropChunks s d).cal = s.cal := by unfold dropChunks; split <;> rfl
@[simp] theorem dropChunks_spare : (dropChunks s d).spare = s.spare := by unfold dropChunks; split <;> rfl
@[simp] theorem dropChunks_ranks : (dropChunks s d).ranks = s.ranks := by unfold dropChunks; split <;> rfl
@[simp] theorem dropChunks_squares : (dropChunks s d).squares = s.squares := by unfold dropChunks; split <;> rfl
@[simp] theorem dropChunks_qe : (dropChunks s d).qe = s.qe := by unfold dropChunks; split <;> rfl
@[simp] theorem dropChunks_tenants : (dropChunks s d).tenants = s.tenants := by unfold dropChunks; split <;> rfl
@[simp] theorem dropChunks_meters : (dropChunks s d).meters = s.meters := by unfold dropChunks; split <;> rfl
@[simp] theorem dropChunks_ms : (dropChunks s d).ms = s.ms := by unfold dropChunks; split <;> rfl
@[simp] theorem dropChunks_indexes : (dropChunks s d).indexes = s.indexes := by unfold dropChunks; split <;> rfl
@[simp] theorem dropChunks_partials : (dropChunks s d).partials = s.partials := by unfold dropChunks; split <;> rfl
@[simp] theorem dropChunks_fl : (dropChunks s d).fl = s.fl := by unfold dropChunks; split <;> rfl
@[simp] theorem dropChunks_fab : (dropChunks s d).fab = s.fab := by unfold dropChunks; split <;> rfl
@[simp] theorem dropChunks_ts : (dropChunks s d).ts = s.ts := by unfold dropChunks; split <;> rfl

end dropChunksLaws

section dropDescLaws
variable (s : State) (d : Desc) (st : Nat)

@[simp] theorem dropDesc_pending : (dropDesc s d st).pending = s.pending := by simp [dropDesc]
@[simp] theorem dropDesc_freeCtr : (dropDesc s d st).freeCtr = s.freeCtr := by simp [dropDesc]
@[simp] theorem dropDesc_out : (dropDesc s d st).out = s.out := by simp [dropDesc]
@[simp] theorem dropDesc_hostMem : (dropDesc s d st).hostMem = s.hostMem := by simp [dropDesc]
@[simp] theorem dropDesc_tempo : (dropDesc s d st).tempo = s.tempo := by simp [dropDesc]
@[simp] theorem dropDesc_tempoFrac : (dropDesc s d st).tempoFrac = s.tempoFrac := by simp [dropDesc]
@[simp] theorem dropDesc_pw : (dropDesc s d st).pw = s.pw := by simp [dropDesc]
@[simp] theorem dropDesc_nmc : (dropDesc s d st).nmc = s.nmc := by simp [dropDesc]
@[simp] theorem dropDesc_er : (dropDesc s d st).er = s.er := by simp [dropDesc]
@[simp] theorem dropDesc_cal : (dropDesc s d st).cal = s.cal := by simp [dropDesc]
@[simp] theorem dropDesc_spare : (dropDesc s d st).spare = s.spare := by simp [dropDesc]
@[simp] theorem dropDesc_ranks : (dropDesc s d st).ranks = s.ranks := by simp [dropDesc]
@[simp] theorem dropDesc_tenants : (dropDesc s d st).tenants = s.tenants := by simp [dropDesc]
@[simp] theorem dropDesc_meters : (dropDesc s d st).meters = s.meters := by simp [dropDesc]
@[simp] theorem dropDesc_ms : (dropDesc s d st).ms = s.ms := by simp [dropDesc]
@[simp] theorem dropDesc_indexes : (dropDesc s d st).indexes = s.indexes := by simp [dropDesc]
@[simp] theorem dropDesc_partials : (dropDesc s d st).partials = s.partials := by simp [dropDesc]
@[simp] theorem dropDesc_fl : (dropDesc s d st).fl = s.fl := by simp [dropDesc]
@[simp] theorem dropDesc_ts : (dropDesc s d st).ts = s.ts := by simp [dropDesc]

end dropDescLaws

theorem foldl_addRec_qe (l : List Rec) (s : State) : l.foldl addRec s = { s with qe := { s.qe with recs := s.qe.recs ++ l } } := by
  induction l generalizing s with
  | nil => simp
  | cons r l ih => simp [ih, addRec]

theorem dupRecs_eq (s : State) (q : QId) (seq status : Nat) :
    dupRecs s q seq status = { s with qe := { s.qe with
      dups := s.qe.dups.filter (fun u => !(u.q == q && u.seq == seq)),
      recs := s.qe.recs ++ (s.qe.dups.filter (fun u => u.q == q && u.seq == seq)).map (fun u =>
        ({ n := u.n, q := q, seq := seq, status := 0x02, orig := status, opcode := u.opcode, tag := u.tag, irq := u.irq } : Rec)) } } := by
  rw [dupRecs, ← List.foldl_map (f := fun u : Dup =>
        ({ n := u.n, q := q, seq := seq, status := 0x02, orig := status, opcode := u.opcode, tag := u.tag, irq := u.irq } : Rec)) (g := addRec), foldl_addRec_qe]

section dupRecsLaws
variable (s : State) (q : QId) (n st : Nat)

@[simp] theorem dupRecs_pending : (dupRecs s q n st).pending = s.pending := by rw [dupRecs_eq]
@[simp] theorem dupRecs_freeCtr : (dupRecs s q n st).freeCtr = s.freeCtr := by rw [dupRecs_eq]
@[simp] theorem dupRecs_out : (dupRecs s q n st).out = s.out := by rw [dupRecs_eq]
@[simp] theorem dupRecs_hostMem : (dupRecs s q n st).hostMem = s.hostMem := by rw [dupRecs_eq]
@[simp] theorem dupRecs_tempo : (dupRecs s q n st).tempo = s.tempo := by rw [dupRecs_eq]
@[simp] theorem dupRecs_tempoFrac : (dupRecs s q n st).tempoFrac = s.tempoFrac := by rw [dupRecs_eq]
@[simp] theorem dupRecs_pw : (dupRecs s q n st).pw = s.pw := by rw [dupRecs_eq]
@[simp] theorem dupRecs_nmc : (dupRecs s q n st).nmc = s.nmc := by rw [dupRecs_eq]
@[simp] theorem dupRecs_er : (dupRecs s q n st).er = s.er := by rw [dupRecs_eq]
@[simp] theorem dupRecs_cal : (dupRecs s q n st).cal = s.cal := by rw [dupRecs_eq]
@[simp] theorem dupRecs_spare : (dupRecs s q n st).spare = s.spare := by rw [dupRecs_eq]
@[simp] theorem dupRecs_bd : (dupRecs s q n st).bd = s.bd := by rw [dupRecs_eq]
@[simp] theorem dupRecs_ranks : (dupRecs s q n st).ranks = s.ranks := by rw [dupRecs_eq]
@[simp] theorem dupRecs_squares : (dupRecs s q n st).squares = s.squares := by rw [dupRecs_eq]
@[simp] theorem dupRecs_tenants : (dupRecs s q n st).tenants = s.tenants := by rw [dupRecs_eq]
@[simp] theorem dupRecs_meters : (dupRecs s q n st).meters = s.meters := by rw [dupRecs_eq]
@[simp] theorem dupRecs_ms : (dupRecs s q n st).ms = s.ms := by rw [dupRecs_eq]
@[simp] theorem dupRecs_indexes : (dupRecs s q n st).indexes = s.indexes := by rw [dupRecs_eq]
@[simp] theorem dupRecs_partials : (dupRecs s q n st).partials = s.partials := by rw [dupRecs_eq]
@[simp] theorem dupRecs_fl : (dupRecs s q n st).fl = s.fl := by rw [dupRecs_eq]
@[simp] theorem dupRecs_fab : (dupRecs s q n st).fab = s.fab := by rw [dupRecs_eq]
@[simp] theorem dupRecs_ts : (dupRecs s q n st).ts = s.ts := by rw [dupRecs_eq]

end dupRecsLaws

section completeWithLaws
variable (s : State) (d : Desc) (st rf de ep nb : Nat) (mid : List Rec)

@[simp] theorem completeWith_pending : (completeWith s d st rf de ep nb mid).pending = s.pending := by unfold completeWith; rw [dupRecs_eq, foldl_addRec_qe]; simp
@[simp] theorem completeWith_freeCtr : (completeWith s d st rf de ep nb mid).freeCtr = s.freeCtr := by unfold completeWith; rw [dupRecs_eq, foldl_addRec_qe]; simp
@[simp] theorem completeWith_out : (completeWith s d st rf de ep nb mid).out = s.out := by unfold completeWith; rw [dupRecs_eq, foldl_addRec_qe]; simp
@[simp] theorem completeWith_hostMem : (completeWith s d st rf de ep nb mid).hostMem = s.hostMem := by unfold completeWith; rw [dupRecs_eq, foldl_addRec_qe]; simp
@[simp] theorem completeWith_tempo : (completeWith s d st rf de ep nb mid).tempo = s.tempo := by unfold completeWith; rw [dupRecs_eq, foldl_addRec_qe]; simp
@[simp] theorem completeWith_tempoFrac : (completeWith s d st rf de ep nb mid).tempoFrac = s.tempoFrac := by unfold completeWith; rw [dupRecs_eq, foldl_addRec_qe]; simp
@[simp] theorem completeWith_pw : (completeWith s d st rf de ep nb mid).pw = s.pw := by unfold completeWith; rw [dupRecs_eq, foldl_addRec_qe]; simp
@[simp] theorem completeWith_nmc : (completeWith s d st rf de ep nb mid).nmc = s.nmc := by unfold completeWith; rw [dupRecs_eq, foldl_addRec_qe]; simp
@[simp] theorem completeWith_er : (completeWith s d st rf de ep nb mid).er = s.er := by unfold completeWith; rw [dupRecs_eq, foldl_addRec_qe]; simp
@[simp] theorem completeWith_cal : (completeWith s d st rf de ep nb mid).cal = s.cal := by unfold completeWith; rw [dupRecs_eq, foldl_addRec_qe]; simp
@[simp] theorem completeWith_spare : (completeWith s d st rf de ep nb mid).spare = s.spare := by unfold completeWith; rw [dupRecs_eq, foldl_addRec_qe]; simp
@[simp] theorem completeWith_ranks : (completeWith s d st rf de ep nb mid).ranks = s.ranks := by unfold completeWith; rw [dupRecs_eq, foldl_addRec_qe]; simp
@[simp] theorem completeWith_tenants : (completeWith s d st rf de ep nb mid).tenants = s.tenants := by unfold completeWith; rw [dupRecs_eq, foldl_addRec_qe]; simp
@[simp] theorem completeWith_meters : (completeWith s d st rf de ep nb mid).meters = s.meters := by unfold completeWith; rw [dupRecs_eq, foldl_addRec_qe]; simp
@[simp] theorem completeWith_ms : (completeWith s d st rf de ep nb mid).ms = s.ms := by unfold completeWith; rw [dupRecs_eq, foldl_addRec_qe]; simp
@[simp] theorem completeWith_indexes : (completeWith s d st rf de ep nb mid).indexes = s.indexes := by unfold completeWith; rw [dupRecs_eq, foldl_addRec_qe]; simp
@[simp] theorem completeWith_partials : (completeWith s d st rf de ep nb mid).partials = s.partials := by unfold completeWith; rw [dupRecs_eq, foldl_addRec_qe]; simp
@[simp] theorem completeWith_fl : (completeWith s d st rf de ep nb mid).fl = s.fl := by unfold completeWith; rw [dupRecs_eq, foldl_addRec_qe]; simp
@[simp] theorem completeWith_ts : (completeWith s d st rf de ep nb mid).ts = s.ts := by unfold completeWith; rw [dupRecs_eq, foldl_addRec_qe]; simp

end completeWithLaws

section completeLaws
variable (s : State) (d : Desc) (st : Nat)

@[simp] theorem complete_pending : (complete s d st).pending = s.pending := by simp [complete]
@[simp] theorem complete_freeCtr : (complete s d st).freeCtr = s.freeCtr := by simp [complete]
@[simp] theorem complete_out : (complete s d st).out = s.out := by simp [complete]
@[simp] theorem complete_hostMem : (complete s d st).hostMem = s.hostMem := by simp [complete]
@[simp] theorem complete_tempo : (complete s d st).tempo = s.tempo := by simp [complete]
@[simp] theorem complete_tempoFrac : (complete s d st).tempoFrac = s.tempoFrac := by simp [complete]
@[simp] theorem complete_pw : (complete s d st).pw = s.pw := by simp [complete]
@[simp] theorem complete_nmc : (complete s d st).nmc = s.nmc := by simp [complete]
@[simp] theorem complete_er : (complete s d st).er = s.er := by simp [complete]
@[simp] theorem complete_cal : (complete s d st).cal = s.cal := by simp [complete]
@[simp] theorem complete_spare : (complete s d st).spare = s.spare := by simp [complete]
@[simp] theorem complete_ranks : (complete s d st).ranks = s.ranks := by simp [complete]
@[simp] theorem complete_tenants : (complete s d st).tenants = s.tenants := by simp [complete]
@[simp] theorem complete_meters : (complete s d st).meters = s.meters := by simp [complete]
@[simp] theorem complete_ms : (complete s d st).ms = s.ms := by simp [complete]
@[simp] theorem complete_indexes : (complete s d st).indexes = s.indexes := by simp [complete]
@[simp] theorem complete_partials : (complete s d st).partials = s.partials := by simp [complete]
@[simp] theorem complete_fl : (complete s d st).fl = s.fl := by simp [complete]
@[simp] theorem complete_ts : (complete s d st).ts = s.ts := by simp [complete]

end completeLaws

section completeDetailLaws
variable (s : State) (d : Desc) (st de : Nat)

@[simp] theorem completeDetail_pending : (completeDetail s d st de).pending = s.pending := by simp [completeDetail]
@[simp] theorem completeDetail_freeCtr : (completeDetail s d st de).freeCtr = s.freeCtr := by simp [completeDetail]
@[simp] theorem completeDetail_out : (completeDetail s d st de).out = s.out := by simp [completeDetail]
@[simp] theorem completeDetail_hostMem : (completeDetail s d st de).hostMem = s.hostMem := by simp [completeDetail]
@[simp] theorem completeDetail_tempo : (completeDetail s d st de).tempo = s.tempo := by simp [completeDetail]
@[simp] theorem completeDetail_tempoFrac : (completeDetail s d st de).tempoFrac = s.tempoFrac := by simp [completeDetail]
@[simp] theorem completeDetail_pw : (completeDetail s d st de).pw = s.pw := by simp [completeDetail]
@[simp] theorem completeDetail_nmc : (completeDetail s d st de).nmc = s.nmc := by simp [completeDetail]
@[simp] theorem completeDetail_er : (completeDetail s d st de).er = s.er := by simp [completeDetail]
@[simp] theorem completeDetail_cal : (completeDetail s d st de).cal = s.cal := by simp [completeDetail]
@[simp] theorem completeDetail_spare : (completeDetail s d st de).spare = s.spare := by simp [completeDetail]
@[simp] theorem completeDetail_ranks : (completeDetail s d st de).ranks = s.ranks := by simp [completeDetail]
@[simp] theorem completeDetail_tenants : (completeDetail s d st de).tenants = s.tenants := by simp [completeDetail]
@[simp] theorem completeDetail_meters : (completeDetail s d st de).meters = s.meters := by simp [completeDetail]
@[simp] theorem completeDetail_ms : (completeDetail s d st de).ms = s.ms := by simp [completeDetail]
@[simp] theorem completeDetail_indexes : (completeDetail s d st de).indexes = s.indexes := by simp [completeDetail]
@[simp] theorem completeDetail_partials : (completeDetail s d st de).partials = s.partials := by simp [completeDetail]
@[simp] theorem completeDetail_fl : (completeDetail s d st de).fl = s.fl := by simp [completeDetail]
@[simp] theorem completeDetail_ts : (completeDetail s d st de).ts = s.ts := by simp [completeDetail]

end completeDetailLaws

section hostWriteLaws
variable (s : State) (t a : Nat) (bs : List Byte)

@[simp] theorem hostWrite_pending : (hostWrite s t a bs).pending = s.pending := by unfold hostWrite; split <;> rfl
@[simp] theorem hostWrite_freeCtr : (hostWrite s t a bs).freeCtr = s.freeCtr := by unfold hostWrite; split <;> rfl
@[simp] theorem hostWrite_out : (hostWrite s t a bs).out = s.out := by unfold hostWrite; split <;> rfl
@[simp] theorem hostWrite_tempo : (hostWrite s t a bs).tempo = s.tempo := by unfold hostWrite; split <;> rfl
@[simp] theorem hostWrite_tempoFrac : (hostWrite s t a bs).tempoFrac = s.tempoFrac := by unfold hostWrite; split <;> rfl
@[simp] theorem hostWrite_pw : (hostWrite s t a bs).pw = s.pw := by unfold hostWrite; split <;> rfl
@[simp] theorem hostWrite_nmc : (hostWrite s t a bs).nmc = s.nmc := by unfold hostWrite; split <;> rfl
@[simp] theorem hostWrite_er : (hostWrite s t a bs).er = s.er := by unfold hostWrite; split <;> rfl
@[simp] theorem hostWrite_cal : (hostWrite s t a bs).cal = s.cal := by unfold hostWrite; split <;> rfl
@[simp] theorem hostWrite_spare : (hostWrite s t a bs).spare = s.spare := by unfold hostWrite; split <;> rfl
@[simp] theorem hostWrite_bd : (hostWrite s t a bs).bd = s.bd := by unfold hostWrite; split <;> rfl
@[simp] theorem hostWrite_ranks : (hostWrite s t a bs).ranks = s.ranks := by unfold hostWrite; split <;> rfl
@[simp] theorem hostWrite_squares : (hostWrite s t a bs).squares = s.squares := by unfold hostWrite; split <;> rfl
@[simp] theorem hostWrite_qe : (hostWrite s t a bs).qe = s.qe := by unfold hostWrite; split <;> rfl
@[simp] theorem hostWrite_tenants : (hostWrite s t a bs).tenants = s.tenants := by unfold hostWrite; split <;> rfl
@[simp] theorem hostWrite_meters : (hostWrite s t a bs).meters = s.meters := by unfold hostWrite; split <;> rfl
@[simp] theorem hostWrite_ms : (hostWrite s t a bs).ms = s.ms := by unfold hostWrite; split <;> rfl
@[simp] theorem hostWrite_indexes : (hostWrite s t a bs).indexes = s.indexes := by unfold hostWrite; split <;> rfl
@[simp] theorem hostWrite_partials : (hostWrite s t a bs).partials = s.partials := by unfold hostWrite; split <;> rfl
@[simp] theorem hostWrite_fl : (hostWrite s t a bs).fl = s.fl := by unfold hostWrite; split <;> rfl
@[simp] theorem hostWrite_fab : (hostWrite s t a bs).fab = s.fab := by unfold hostWrite; split <;> rfl
@[simp] theorem hostWrite_ts : (hostWrite s t a bs).ts = s.ts := by unfold hostWrite; split <;> rfl

end hostWriteLaws

section msixLaws
variable (s : State) (fn v : Nat)

@[simp] theorem msix_pending : (msix s fn v).pending = s.pending := by simp only [msix]; split; rfl; split <;> rfl
@[simp] theorem msix_freeCtr : (msix s fn v).freeCtr = s.freeCtr := by simp only [msix]; split; rfl; split <;> rfl
@[simp] theorem msix_hostMem : (msix s fn v).hostMem = s.hostMem := by simp only [msix]; split; rfl; split <;> rfl
@[simp] theorem msix_tempo : (msix s fn v).tempo = s.tempo := by simp only [msix]; split; rfl; split <;> rfl
@[simp] theorem msix_tempoFrac : (msix s fn v).tempoFrac = s.tempoFrac := by simp only [msix]; split; rfl; split <;> rfl
@[simp] theorem msix_pw : (msix s fn v).pw = s.pw := by simp only [msix]; split; rfl; split <;> rfl
@[simp] theorem msix_nmc : (msix s fn v).nmc = s.nmc := by simp only [msix]; split; rfl; split <;> rfl
@[simp] theorem msix_er : (msix s fn v).er = s.er := by simp only [msix]; split; rfl; split <;> rfl
@[simp] theorem msix_cal : (msix s fn v).cal = s.cal := by simp only [msix]; split; rfl; split <;> rfl
@[simp] theorem msix_spare : (msix s fn v).spare = s.spare := by simp only [msix]; split; rfl; split <;> rfl
@[simp] theorem msix_bd : (msix s fn v).bd = s.bd := by simp only [msix]; split; rfl; split <;> rfl
@[simp] theorem msix_ranks : (msix s fn v).ranks = s.ranks := by simp only [msix]; split; rfl; split <;> rfl
@[simp] theorem msix_squares : (msix s fn v).squares = s.squares := by simp only [msix]; split; rfl; split <;> rfl
@[simp] theorem msix_tenants : (msix s fn v).tenants = s.tenants := by simp only [msix]; split; rfl; split <;> rfl
@[simp] theorem msix_meters : (msix s fn v).meters = s.meters := by simp only [msix]; split; rfl; split <;> rfl
@[simp] theorem msix_ms : (msix s fn v).ms = s.ms := by simp only [msix]; split; rfl; split <;> rfl
@[simp] theorem msix_indexes : (msix s fn v).indexes = s.indexes := by simp only [msix]; split; rfl; split <;> rfl
@[simp] theorem msix_partials : (msix s fn v).partials = s.partials := by simp only [msix]; split; rfl; split <;> rfl
@[simp] theorem msix_fl : (msix s fn v).fl = s.fl := by simp only [msix]; split; rfl; split <;> rfl
@[simp] theorem msix_fab : (msix s fn v).fab = s.fab := by simp only [msix]; split; rfl; split <;> rfl
@[simp] theorem msix_ts : (msix s fn v).ts = s.ts := by simp only [msix]; split; rfl; split <;> rfl

end msixLaws

/-- A message changes nothing of the queue engine but its pending bit in the MSI-X table. -/
theorem msix_qe (s : State) (fn v : Nat) : (msix s fn v).qe = { s.qe with msix := (msix s fn v).qe.msix } := by
  simp only [msix]; split
  · rfl
  · split <;> rfl

section setAlertLaws
variable (s : State) (v : Bool)

@[simp] theorem setAlert_pending : (setAlert s v).pending = s.pending := by unfold setAlert; split <;> rfl
@[simp] theorem setAlert_freeCtr : (setAlert s v).freeCtr = s.freeCtr := by unfold setAlert; split <;> rfl
@[simp] theorem setAlert_hostMem : (setAlert s v).hostMem = s.hostMem := by unfold setAlert; split <;> rfl
@[simp] theorem setAlert_tempo : (setAlert s v).tempo = s.tempo := by unfold setAlert; split <;> rfl
@[simp] theorem setAlert_tempoFrac : (setAlert s v).tempoFrac = s.tempoFrac := by unfold setAlert; split <;> rfl
@[simp] theorem setAlert_nmc : (setAlert s v).nmc = s.nmc := by unfold setAlert; split <;> rfl
@[simp] theorem setAlert_er : (setAlert s v).er = s.er := by unfold setAlert; split <;> rfl
@[simp] theorem setAlert_cal : (setAlert s v).cal = s.cal := by unfold setAlert; split <;> rfl
@[simp] theorem setAlert_spare : (setAlert s v).spare = s.spare := by unfold setAlert; split <;> rfl
@[simp] theorem setAlert_bd : (setAlert s v).bd = s.bd := by unfold setAlert; split <;> rfl
@[simp] theorem setAlert_ranks : (setAlert s v).ranks = s.ranks := by unfold setAlert; split <;> rfl
@[simp] theorem setAlert_squares : (setAlert s v).squares = s.squares := by unfold setAlert; split <;> rfl
@[simp] theorem setAlert_qe : (setAlert s v).qe = s.qe := by unfold setAlert; split <;> rfl
@[simp] theorem setAlert_tenants : (setAlert s v).tenants = s.tenants := by unfold setAlert; split <;> rfl
@[simp] theorem setAlert_meters : (setAlert s v).meters = s.meters := by unfold setAlert; split <;> rfl
@[simp] theorem setAlert_ms : (setAlert s v).ms = s.ms := by unfold setAlert; split <;> rfl
@[simp] theorem setAlert_indexes : (setAlert s v).indexes = s.indexes := by unfold setAlert; split <;> rfl
@[simp] theorem setAlert_partials : (setAlert s v).partials = s.partials := by unfold setAlert; split <;> rfl
@[simp] theorem setAlert_fl : (setAlert s v).fl = s.fl := by unfold setAlert; split <;> rfl
@[simp] theorem setAlert_fab : (setAlert s v).fab = s.fab := by unfold setAlert; split <;> rfl
@[simp] theorem setAlert_ts : (setAlert s v).ts = s.ts := by unfold setAlert; split <;> rfl

end setAlertLaws

section raiseLaws
variable (s : State) (code cls t u a b c : Nat)

@[simp] theorem raise_pending : (raise s code cls t u a b c).pending = s.pending := by simp only [raise]; split; rfl; split <;> split <;> simp
@[simp] theorem raise_freeCtr : (raise s code cls t u a b c).freeCtr = s.freeCtr := by simp only [raise]; split; rfl; split <;> split <;> simp
@[simp] theorem raise_hostMem : (raise s code cls t u a b c).hostMem = s.hostMem := by simp only [raise]; split; rfl; split <;> split <;> simp
@[simp] theorem raise_tempo : (raise s code cls t u a b c).tempo = s.tempo := by simp only [raise]; split; rfl; split <;> split <;> simp
@[simp] theorem raise_tempoFrac : (raise s code cls t u a b c).tempoFrac = s.tempoFrac := by simp only [raise]; split; rfl; split <;> split <;> simp
@[simp] theorem raise_nmc : (raise s code cls t u a b c).nmc = s.nmc := by simp only [raise]; split; rfl; split <;> split <;> simp
@[simp] theorem raise_cal : (raise s code cls t u a b c).cal = s.cal := by simp only [raise]; split; rfl; split <;> split <;> simp
@[simp] theorem raise_spare : (raise s code cls t u a b c).spare = s.spare := by simp only [raise]; split; rfl; split <;> split <;> simp
@[simp] theorem raise_bd : (raise s code cls t u a b c).bd = s.bd := by simp only [raise]; split; rfl; split <;> split <;> simp
@[simp] theorem raise_ranks : (raise s code cls t u a b c).ranks = s.ranks := by simp only [raise]; split; rfl; split <;> split <;> simp
@[simp] theorem raise_squares : (raise s code cls t u a b c).squares = s.squares := by simp only [raise]; split; rfl; split <;> split <;> simp
@[simp] theorem raise_tenants : (raise s code cls t u a b c).tenants = s.tenants := by simp only [raise]; split; rfl; split <;> split <;> simp
@[simp] theorem raise_meters : (raise s code cls t u a b c).meters = s.meters := by simp only [raise]; split; rfl; split <;> split <;> simp
@[simp] theorem raise_ms : (raise s code cls t u a b c).ms = s.ms := by simp only [raise]; split; rfl; split <;> split <;> simp
@[simp] theorem raise_indexes : (raise s code cls t u a b c).indexes = s.indexes := by simp only [raise]; split; rfl; split <;> split <;> simp
@[simp] theorem raise_partials : (raise s code cls t u a b c).partials = s.partials := by simp only [raise]; split; rfl; split <;> split <;> simp
@[simp] theorem raise_fl : (raise s code cls t u a b c).fl = s.fl := by simp only [raise]; split; rfl; split <;> split <;> simp
@[simp] theorem raise_fab : (raise s code cls t u a b c).fab = s.fab := by simp only [raise]; split; rfl; split <;> split <;> simp
@[simp] theorem raise_ts : (raise s code cls t u a b c).ts = s.ts := by simp only [raise]; split; rfl; split <;> split <;> simp

end raiseLaws

section reportLaws
variable (s : State) (code cls t u a b c : Nat)

@[simp] theorem report_pending : (report s code cls t u a b c).pending = s.pending := by simp [report]
@[simp] theorem report_freeCtr : (report s code cls t u a b c).freeCtr = s.freeCtr := by simp [report]
@[simp] theorem report_hostMem : (report s code cls t u a b c).hostMem = s.hostMem := by simp [report]
@[simp] theorem report_tempo : (report s code cls t u a b c).tempo = s.tempo := by simp [report]
@[simp] theorem report_tempoFrac : (report s code cls t u a b c).tempoFrac = s.tempoFrac := by simp [report]
@[simp] theorem report_nmc : (report s code cls t u a b c).nmc = s.nmc := by simp [report]
@[simp] theorem report_cal : (report s code cls t u a b c).cal = s.cal := by simp [report]
@[simp] theorem report_spare : (report s code cls t u a b c).spare = s.spare := by simp [report]
@[simp] theorem report_bd : (report s code cls t u a b c).bd = s.bd := by simp [report]
@[simp] theorem report_ranks : (report s code cls t u a b c).ranks = s.ranks := by simp [report]
@[simp] theorem report_squares : (report s code cls t u a b c).squares = s.squares := by simp [report]
@[simp] theorem report_tenants : (report s code cls t u a b c).tenants = s.tenants := by simp [report]
@[simp] theorem report_meters : (report s code cls t u a b c).meters = s.meters := by simp [report]
@[simp] theorem report_ms : (report s code cls t u a b c).ms = s.ms := by simp [report]
@[simp] theorem report_indexes : (report s code cls t u a b c).indexes = s.indexes := by simp [report]
@[simp] theorem report_partials : (report s code cls t u a b c).partials = s.partials := by simp [report]
@[simp] theorem report_fl : (report s code cls t u a b c).fl = s.fl := by simp [report]
@[simp] theorem report_fab : (report s code cls t u a b c).fab = s.fab := by simp [report]
@[simp] theorem report_ts : (report s code cls t u a b c).ts = s.ts := by simp [report]

end reportLaws

section countUnitLaws
variable (s : State) (u : Nat) (b : Bool) (l : Nat)

@[simp] theorem countUnit_pending : (countUnit s u b l).pending = s.pending := rfl
@[simp] theorem countUnit_freeCtr : (countUnit s u b l).freeCtr = s.freeCtr := rfl
@[simp] theorem countUnit_out : (countUnit s u b l).out = s.out := rfl
@[simp] theorem countUnit_hostMem : (countUnit s u b l).hostMem = s.hostMem := rfl
@[simp] theorem countUnit_tempo : (countUnit s u b l).tempo = s.tempo := rfl
@[simp] theorem countUnit_tempoFrac : (countUnit s u b l).tempoFrac = s.tempoFrac := rfl
@[simp] theorem countUnit_pw : (countUnit s u b l).pw = s.pw := rfl
@[simp] theorem countUnit_nmc : (countUnit s u b l).nmc = s.nmc := rfl
@[simp] theorem countUnit_cal : (countUnit s u b l).cal = s.cal := rfl
@[simp] theorem countUnit_spare : (countUnit s u b l).spare = s.spare := rfl
@[simp] theorem countUnit_bd : (countUnit s u b l).bd = s.bd := rfl
@[simp] theorem countUnit_ranks : (countUnit s u b l).ranks = s.ranks := rfl
@[simp] theorem countUnit_squares : (countUnit s u b l).squares = s.squares := rfl
@[simp] theorem countUnit_qe : (countUnit s u b l).qe = s.qe := rfl
@[simp] theorem countUnit_tenants : (countUnit s u b l).tenants = s.tenants := rfl
@[simp] theorem countUnit_meters : (countUnit s u b l).meters = s.meters := rfl
@[simp] theorem countUnit_ms : (countUnit s u b l).ms = s.ms := rfl
@[simp] theorem countUnit_indexes : (countUnit s u b l).indexes = s.indexes := rfl
@[simp] theorem countUnit_partials : (countUnit s u b l).partials = s.partials := rfl
@[simp] theorem countUnit_fl : (countUnit s u b l).fl = s.fl := rfl
@[simp] theorem countUnit_fab : (countUnit s u b l).fab = s.fab := rfl
@[simp] theorem countUnit_ts : (countUnit s u b l).ts = s.ts := rfl

end countUnitLaws

section errEventLaws
variable (s : State) (cnt code t u l a b c : Nat)

@[simp] theorem errEvent_pending : (errEvent s cnt code t u l a b c).pending = s.pending := by simp [errEvent]
@[simp] theorem errEvent_freeCtr : (errEvent s cnt code t u l a b c).freeCtr = s.freeCtr := by simp [errEvent]
@[simp] theorem errEvent_hostMem : (errEvent s cnt code t u l a b c).hostMem = s.hostMem := by simp [errEvent]
@[simp] theorem errEvent_tempo : (errEvent s cnt code t u l a b c).tempo = s.tempo := by simp [errEvent]
@[simp] theorem errEvent_tempoFrac : (errEvent s cnt code t u l a b c).tempoFrac = s.tempoFrac := by simp [errEvent]
@[simp] theorem errEvent_nmc : (errEvent s cnt code t u l a b c).nmc = s.nmc := by simp [errEvent]
@[simp] theorem errEvent_cal : (errEvent s cnt code t u l a b c).cal = s.cal := by simp [errEvent]
@[simp] theorem errEvent_spare : (errEvent s cnt code t u l a b c).spare = s.spare := by simp [errEvent]
@[simp] theorem errEvent_bd : (errEvent s cnt code t u l a b c).bd = s.bd := by simp [errEvent]
@[simp] theorem errEvent_ranks : (errEvent s cnt code t u l a b c).ranks = s.ranks := by simp [errEvent]
@[simp] theorem errEvent_squares : (errEvent s cnt code t u l a b c).squares = s.squares := by simp [errEvent]
@[simp] theorem errEvent_tenants : (errEvent s cnt code t u l a b c).tenants = s.tenants := by simp [errEvent]
@[simp] theorem errEvent_meters : (errEvent s cnt code t u l a b c).meters = s.meters := by simp [errEvent]
@[simp] theorem errEvent_ms : (errEvent s cnt code t u l a b c).ms = s.ms := by simp [errEvent]
@[simp] theorem errEvent_indexes : (errEvent s cnt code t u l a b c).indexes = s.indexes := by simp [errEvent]
@[simp] theorem errEvent_partials : (errEvent s cnt code t u l a b c).partials = s.partials := by simp [errEvent]
@[simp] theorem errEvent_fl : (errEvent s cnt code t u l a b c).fl = s.fl := by simp [errEvent]
@[simp] theorem errEvent_fab : (errEvent s cnt code t u l a b c).fab = s.fab := by simp [errEvent]
@[simp] theorem errEvent_ts : (errEvent s cnt code t u l a b c).ts = s.ts := by simp [errEvent]

end errEventLaws

section barUnimplEventLaws
variable (s : State) (fn off : Nat) (w : Bool)

@[simp] theorem barUnimplEvent_pending : (barUnimplEvent s fn off w).pending = s.pending := by simp [barUnimplEvent]
@[simp] theorem barUnimplEvent_freeCtr : (barUnimplEvent s fn off w).freeCtr = s.freeCtr := by simp [barUnimplEvent]
@[simp] theorem barUnimplEvent_hostMem : (barUnimplEvent s fn off w).hostMem = s.hostMem := by simp [barUnimplEvent]
@[simp] theorem barUnimplEvent_tempo : (barUnimplEvent s fn off w).tempo = s.tempo := by simp [barUnimplEvent]
@[simp] theorem barUnimplEvent_tempoFrac : (barUnimplEvent s fn off w).tempoFrac = s.tempoFrac := by simp [barUnimplEvent]
@[simp] theorem barUnimplEvent_nmc : (barUnimplEvent s fn off w).nmc = s.nmc := by simp [barUnimplEvent]
@[simp] theorem barUnimplEvent_cal : (barUnimplEvent s fn off w).cal = s.cal := by simp [barUnimplEvent]
@[simp] theorem barUnimplEvent_spare : (barUnimplEvent s fn off w).spare = s.spare := by simp [barUnimplEvent]
@[simp] theorem barUnimplEvent_bd : (barUnimplEvent s fn off w).bd = s.bd := by simp [barUnimplEvent]
@[simp] theorem barUnimplEvent_ranks : (barUnimplEvent s fn off w).ranks = s.ranks := by simp [barUnimplEvent]
@[simp] theorem barUnimplEvent_squares : (barUnimplEvent s fn off w).squares = s.squares := by simp [barUnimplEvent]
@[simp] theorem barUnimplEvent_tenants : (barUnimplEvent s fn off w).tenants = s.tenants := by simp [barUnimplEvent]
@[simp] theorem barUnimplEvent_meters : (barUnimplEvent s fn off w).meters = s.meters := by simp [barUnimplEvent]
@[simp] theorem barUnimplEvent_ms : (barUnimplEvent s fn off w).ms = s.ms := by simp [barUnimplEvent]
@[simp] theorem barUnimplEvent_indexes : (barUnimplEvent s fn off w).indexes = s.indexes := by simp [barUnimplEvent]
@[simp] theorem barUnimplEvent_partials : (barUnimplEvent s fn off w).partials = s.partials := by simp [barUnimplEvent]
@[simp] theorem barUnimplEvent_fl : (barUnimplEvent s fn off w).fl = s.fl := by simp [barUnimplEvent]
@[simp] theorem barUnimplEvent_fab : (barUnimplEvent s fn off w).fab = s.fab := by simp [barUnimplEvent]
@[simp] theorem barUnimplEvent_ts : (barUnimplEvent s fn off w).ts = s.ts := by simp [barUnimplEvent]

end barUnimplEventLaws

section tnEventLaws
variable (s : State) (t : Nat) (o : Bool)

@[simp] theorem tnEvent_pending : (tnEvent s t o).pending = s.pending := by simp only [tnEvent]; split <;> split <;> simp
@[simp] theorem tnEvent_freeCtr : (tnEvent s t o).freeCtr = s.freeCtr := by simp only [tnEvent]; split <;> split <;> simp
@[simp] theorem tnEvent_hostMem : (tnEvent s t o).hostMem = s.hostMem := by simp only [tnEvent]; split <;> split <;> simp
@[simp] theorem tnEvent_tempo : (tnEvent s t o).tempo = s.tempo := by simp only [tnEvent]; split <;> split <;> simp
@[simp] theorem tnEvent_tempoFrac : (tnEvent s t o).tempoFrac = s.tempoFrac := by simp only [tnEvent]; split <;> split <;> simp
@[simp] theorem tnEvent_pw : (tnEvent s t o).pw = s.pw := by simp only [tnEvent]; split <;> split <;> simp
@[simp] theorem tnEvent_nmc : (tnEvent s t o).nmc = s.nmc := by simp only [tnEvent]; split <;> split <;> simp
@[simp] theorem tnEvent_er : (tnEvent s t o).er = s.er := by simp only [tnEvent]; split <;> split <;> simp
@[simp] theorem tnEvent_cal : (tnEvent s t o).cal = s.cal := by simp only [tnEvent]; split <;> split <;> simp
@[simp] theorem tnEvent_spare : (tnEvent s t o).spare = s.spare := by simp only [tnEvent]; split <;> split <;> simp
@[simp] theorem tnEvent_bd : (tnEvent s t o).bd = s.bd := by simp only [tnEvent]; split <;> split <;> simp
@[simp] theorem tnEvent_ranks : (tnEvent s t o).ranks = s.ranks := by simp only [tnEvent]; split <;> split <;> simp
@[simp] theorem tnEvent_squares : (tnEvent s t o).squares = s.squares := by simp only [tnEvent]; split <;> split <;> simp
@[simp] theorem tnEvent_meters : (tnEvent s t o).meters = s.meters := by simp only [tnEvent]; split <;> split <;> simp
@[simp] theorem tnEvent_ms : (tnEvent s t o).ms = s.ms := by simp only [tnEvent]; split <;> split <;> simp
@[simp] theorem tnEvent_indexes : (tnEvent s t o).indexes = s.indexes := by simp only [tnEvent]; split <;> split <;> simp
@[simp] theorem tnEvent_partials : (tnEvent s t o).partials = s.partials := by simp only [tnEvent]; split <;> split <;> simp
@[simp] theorem tnEvent_fl : (tnEvent s t o).fl = s.fl := by simp only [tnEvent]; split <;> split <;> simp
@[simp] theorem tnEvent_fab : (tnEvent s t o).fab = s.fab := by simp only [tnEvent]; split <;> split <;> simp
@[simp] theorem tnEvent_ts : (tnEvent s t o).ts = s.ts := by simp only [tnEvent]; split <;> split <;> simp

end tnEventLaws

section enterEnabledLaws
variable (s : State) (q : QId)

@[simp] theorem enterEnabled_pending : (enterEnabled s q).pending = s.pending := by simp only [enterEnabled]; split <;> simp
@[simp] theorem enterEnabled_freeCtr : (enterEnabled s q).freeCtr = s.freeCtr := by simp only [enterEnabled]; split <;> simp
@[simp] theorem enterEnabled_out : (enterEnabled s q).out = s.out := by simp only [enterEnabled]; split <;> simp
@[simp] theorem enterEnabled_hostMem : (enterEnabled s q).hostMem = s.hostMem := by simp only [enterEnabled]; split <;> simp
@[simp] theorem enterEnabled_tempo : (enterEnabled s q).tempo = s.tempo := by simp only [enterEnabled]; split <;> simp
@[simp] theorem enterEnabled_tempoFrac : (enterEnabled s q).tempoFrac = s.tempoFrac := by simp only [enterEnabled]; split <;> simp
@[simp] theorem enterEnabled_pw : (enterEnabled s q).pw = s.pw := by simp only [enterEnabled]; split <;> simp
@[simp] theorem enterEnabled_nmc : (enterEnabled s q).nmc = s.nmc := by simp only [enterEnabled]; split <;> simp
@[simp] theorem enterEnabled_er : (enterEnabled s q).er = s.er := by simp only [enterEnabled]; split <;> simp
@[simp] theorem enterEnabled_cal : (enterEnabled s q).cal = s.cal := by simp only [enterEnabled]; split <;> simp
@[simp] theorem enterEnabled_spare : (enterEnabled s q).spare = s.spare := by simp only [enterEnabled]; split <;> simp
@[simp] theorem enterEnabled_bd : (enterEnabled s q).bd = s.bd := by simp only [enterEnabled]; split <;> simp
@[simp] theorem enterEnabled_ranks : (enterEnabled s q).ranks = s.ranks := by simp only [enterEnabled]; split <;> simp
@[simp] theorem enterEnabled_squares : (enterEnabled s q).squares = s.squares := by simp only [enterEnabled]; split <;> simp
@[simp] theorem enterEnabled_tenants : (enterEnabled s q).tenants = s.tenants := by simp only [enterEnabled]; split <;> simp
@[simp] theorem enterEnabled_meters : (enterEnabled s q).meters = s.meters := by simp only [enterEnabled]; split <;> simp
@[simp] theorem enterEnabled_ms : (enterEnabled s q).ms = s.ms := by simp only [enterEnabled]; split <;> simp
@[simp] theorem enterEnabled_indexes : (enterEnabled s q).indexes = s.indexes := by simp only [enterEnabled]; split <;> simp
@[simp] theorem enterEnabled_partials : (enterEnabled s q).partials = s.partials := by simp only [enterEnabled]; split <;> simp
@[simp] theorem enterEnabled_fl : (enterEnabled s q).fl = s.fl := by simp only [enterEnabled]; split <;> simp
@[simp] theorem enterEnabled_fab : (enterEnabled s q).fab = s.fab := by simp only [enterEnabled]; split <;> simp
@[simp] theorem enterEnabled_ts : (enterEnabled s q).ts = s.ts := by simp only [enterEnabled]; split <;> simp

end enterEnabledLaws

section disableQueueLaws
variable (s : State) (q : QId)

@[simp] theorem disableQueue_pending : (disableQueue s q).pending = s.pending := by simp [disableQueue]
@[simp] theorem disableQueue_freeCtr : (disableQueue s q).freeCtr = s.freeCtr := by simp [disableQueue]
@[simp] theorem disableQueue_out : (disableQueue s q).out = s.out := by simp [disableQueue]
@[simp] theorem disableQueue_hostMem : (disableQueue s q).hostMem = s.hostMem := by simp [disableQueue]
@[simp] theorem disableQueue_tempo : (disableQueue s q).tempo = s.tempo := by simp [disableQueue]
@[simp] theorem disableQueue_tempoFrac : (disableQueue s q).tempoFrac = s.tempoFrac := by simp [disableQueue]
@[simp] theorem disableQueue_pw : (disableQueue s q).pw = s.pw := by simp [disableQueue]
@[simp] theorem disableQueue_nmc : (disableQueue s q).nmc = s.nmc := by simp [disableQueue]
@[simp] theorem disableQueue_er : (disableQueue s q).er = s.er := by simp [disableQueue]
@[simp] theorem disableQueue_cal : (disableQueue s q).cal = s.cal := by simp [disableQueue]
@[simp] theorem disableQueue_spare : (disableQueue s q).spare = s.spare := by simp [disableQueue]
@[simp] theorem disableQueue_bd : (disableQueue s q).bd = s.bd := by simp [disableQueue]
@[simp] theorem disableQueue_ranks : (disableQueue s q).ranks = s.ranks := by simp [disableQueue]
@[simp] theorem disableQueue_squares : (disableQueue s q).squares = s.squares := by simp [disableQueue]
@[simp] theorem disableQueue_tenants : (disableQueue s q).tenants = s.tenants := by simp [disableQueue]
@[simp] theorem disableQueue_meters : (disableQueue s q).meters = s.meters := by simp [disableQueue]
@[simp] theorem disableQueue_ms : (disableQueue s q).ms = s.ms := by simp [disableQueue]
@[simp] theorem disableQueue_indexes : (disableQueue s q).indexes = s.indexes := by simp [disableQueue]
@[simp] theorem disableQueue_partials : (disableQueue s q).partials = s.partials := by simp [disableQueue]
@[simp] theorem disableQueue_fl : (disableQueue s q).fl = s.fl := by simp [disableQueue]
@[simp] theorem disableQueue_fab : (disableQueue s q).fab = s.fab := by simp [disableQueue]
@[simp] theorem disableQueue_ts : (disableQueue s q).ts = s.ts := by simp [disableQueue]

end disableQueueLaws

end Sys2Proof.Machine
end

