-- ==== Sys2Proof/Safety.lean ====
section
/-! DEFINITION. What a safe state and a safe run are, in the terms the statements use. -/

namespace Sys2Proof.Machine

open Sys2Proof

/-- Host memory as the node sees it is in its canonical form. -/
def hostMemOk (s : State) : Prop := memWf s.hostMem = true

/-- An enabled meter holds no more tokens than its burst sizes (11 R369, R370). -/
def meterOk (m : Meter) : Prop := m.en = true → m.tc ≤ m.cbs ∧ m.tp ≤ m.pbs

def metersOk (s : State) : Prop := ∀ t e, meterOk (getM s t e)

/-- Every waiting command is well-formed. -/
def queueWellFormed (s : State) : Prop := ∀ c ∈ s.pending, wellFormed c = true

/-! ### What a completion leaves (11 R354, R355) -/

/-- The descriptor is off the list of the uncompleted ones, its record waits behind the records that waited already, and its table entry is COMPLETE with the status. -/
def Completed (s : State) (d : Desc) (status detail : Nat) (t : State) : Prop :=
  t.qe.descs = s.qe.descs.filter (fun x => x.n != d.n)
    ∧ (∃ dups, t.qe.recs = s.qe.recs ++ recOf d status 0 detail 0 0 :: dups)
    ∧ getTt t d.q d.seq = ⟨d.seq, .complete, status⟩

/-- A chunk of a BANK_OP that waits on its stream. -/
def isChunk (t : Token) : Bool := match t.load with | .chunk _ _ => true | _ => false

/-- The streams are as they were, but for chunks of a BANK_OP that run no more (08 R248). -/
def StreamsKept (s t : State) : Prop :=
  t.bd = { s.bd with streams := t.bd.streams }
    ∧ ∀ o k, getStream t o k = { getStream s o k with tokens := (getStream t o k).tokens }
        ∧ (getStream t o k).tokens.filter (fun x => !isChunk x) = (getStream s o k).tokens.filter (fun x => !isChunk x)

/-- Completed with the results of its queries written at its result address and nowhere else: the status says whether every result is full, the record carries the results' flags and the number of their entries (06 R180; 11 R355). -/
def Answered (s : State) (d : Desc) (l : List Answer) (t : State) : Prop :=
  t.qe.descs = s.qe.descs.filter (fun x => x.n != d.n)
    ∧ (∃ dups, t.qe.recs = s.qe.recs ++ recOf d (if l.any (fun a => a.short) then 0x01 else 0x00) (orFlags (l.map (fun a => a.flags))) ((l.map (fun a => a.valid)).sum) d.epoch 0 :: dups)
    ∧ getTt t d.q d.seq = ⟨d.seq, .complete, if l.any (fun a => a.short) then 0x01 else 0x00⟩
    ∧ hostRead t (dfield d 24 8) (l.flatMap (fun a => a.bytes)).length = l.flatMap (fun a => a.bytes)
    ∧ (∀ b, (b < dfield d 24 8 ∨ dfield d 24 8 + (l.flatMap (fun a => a.bytes)).length ≤ b) → memGet t.hostMem b = memGet s.hostMem b)
    ∧ t = { s with pending := t.pending, qe := t.qe, squares := t.squares, hostMem := t.hostMem, bd := t.bd, fab := { s.fab with sent := t.fab.sent } } ∧ StreamsKept s t

/-- Nothing but the queue engine, the entry context that a completion frees, the replies that it drops and the chunks that run no more has changed. -/
def OnlyQueues (s t : State) : Prop :=
  t = { s with qe := t.qe, squares := t.squares, bd := t.bd, fab := { s.fab with sent := t.fab.sent } } ∧ StreamsKept s t

/-- Every byte of host memory outside `n` bytes from `a` reads as before. -/
def HostOutside (s t : State) (a n : Nat) : Prop := ∀ b, (b < a ∨ a + n ≤ b) → memGet t.hostMem b = memGet s.hostMem b

/-- The response that answers a packet, with its TAG, as what waits to leave on a link (10 R306, R307). -/
def answerLoad (s : State) (p : Packet) (op sub : Nat) (data : List Byte) : Load :=
  .packet { op := op, sub := sub, tenant := p.tenant, src := s.fab.node, dst := p.src, len := data.length, addr := 0, tag := p.tag, seq := 0, operand := 0, data := data }

/-- The stream that carries a tenant's responses on a link: one of the tenant's, else one of the base layer's (02 R35; log entry 58). -/
def answerStream (s : State) (t l : Nat) : Option (Nat × Nat) :=
  match linkStream s t l 2 none with
  | some i => some (t, i)
  | none => (linkStream s 0x7F l 2 none).map (fun i => (0x7F, i))

/-- The node answers a packet on the link it came from, with its TAG: the response waits behind what waits already on the stream that carries it, and nothing else changes (10 R301, R307, R308). -/
def Replied (s t : State) (l : Nat) (p : Packet) (op sub : Nat) (data : List Byte) : Prop :=
  t = { s with bd := { s.bd with streams := t.bd.streams } }
    ∧ ∀ o k, getStream t o k = { getStream s o k with
        tokens := (getStream s o k).tokens ++
          (if (answerStream s p.tenant l).map (fun x => stKey x.1 x.2) = some (stKey o k) then [⟨32 + data.length, answerLoad s p op sub data⟩] else []) }

/-! ### How a recomposition starts (02 R48, R49, R57) -/

/-- The recompositions that are left once one of them, of tenant `u`, has ended with a reason (02 R53, R62), and nothing else changed than the queue engine. -/
def RecompEnded (s : State) (d : Desc) (left : List Recomp) (u op st reason : Nat) (t : State) : Prop :=
  Completed s d st reason t ∧ t.bd.recomps = left
    ∧ OnlyQueues { s with bd := { s.bd with recomps := left, admTenant := u, admOp := op, admReason := reason, admValid := true } } t

/-- An admission `r` of descriptor `d` starts, with `rest` behind it: it ends with the status and the reason of the first check that fails, or it is staged (02 R26, R49). -/
def AdmitStarts (s : State) (d : Desc) (r : Recomp) (rest : List Recomp) (t : State) : Prop :=
  ∀ (len : Nat) (b : List Byte) (p : Position), len = dfield d 24 4 → b = hostRead s (dfield d 16 8) len → p = recordOf b (r.prog.getD ⟨[], [], [], [], true⟩) →
    (s.bd.layer = none → RecompEnded s d rest 0x7F 0 0x15 0x01 t)
    ∧ (s.bd.layer ≠ none → len < 128 ∨ 2 ^ 24 < len → RecompEnded s d rest 0x7F 0 0x15 0x03 t)
    ∧ (s.bd.layer ≠ none → 128 ≤ len → len ≤ 2 ^ 24 →
      (d.hostFault = true ∨ hostOpen s 0 = false → RecompEnded s d rest 0x7F 0 0x24 0 t)
      ∧ (d.hostFault = false → hostOpen s 0 = true →
        (fieldAt b 8 4 ≠ len → RecompEnded s d rest 0x7F 0 0x15 0x03 t)
        ∧ (fieldAt b 8 4 = len → digestOk b = false → RecompEnded s d rest 0x7F 0 0x15 0x02 t)
        ∧ (fieldAt b 8 4 = len → digestOk b = true →
          (∀ reason st, admitFails s b p r.acceptMove = some (reason, st) → RecompEnded s d rest (fieldAt b 12 1 % 128) 0 st reason t)
          ∧ (admitFails s b p r.acceptMove = none →
            t.bd.recomps = { r with tenant := fieldAt b 12 1, stage := .staging p } :: rest ∧ t.qe.descs = s.qe.descs ∧ t.qe.recs = s.qe.recs
              ∧ t = { s with qe := t.qe, bd := { s.bd with recomps := t.bd.recomps } }))))

/-- A retirement `r` of descriptor `d` starts, with `rest` behind it: it is refused where the tenant holds no Position, waits for a castling, or ends the tenant's uncommitted descriptors with ABORTED (02 R57; 03 R92). -/
def RetireStarts (s : State) (d : Desc) (r : Recomp) (rest : List Recomp) (t : State) : Prop :=
  (posOf s r.tenant = none → RecompEnded s d rest (r.tenant % 128) 1 0x15 0x0E t)
    ∧ (∀ p, posOf s r.tenant = some p → castlingOn s p = true → t = { s with bd := { s.bd with recomps := r :: rest } })
    ∧ (∀ p, posOf s r.tenant = some p → castlingOn s p = false → (∀ e ∈ s.qe.descs, ∀ y ∈ s.qe.descs, e.n = y.n → e = y) →
      getT t r.tenant = { getT s r.tenant with retiring := true } ∧ t.bd.recomps = { r with stage := .draining } :: rest ∧ t.bd.positions = s.bd.positions
        ∧ (∀ e ∈ s.qe.descs, e.tenant = r.tenant → isAdmin e.q = false → isPending s e = true → (∀ y ∈ t.qe.descs, y.n ≠ e.n) ∧ ∃ x ∈ t.qe.recs, x.n = e.n ∧ x.status = 0x04)
        ∧ t.ms = s.ms ∧ t.fl = s.fl ∧ t.indexes = s.indexes)

/-! ### What a reset leaves (14 R440, R441, R464) -/

/-- Every register and buffer of the fast domains is at its reset value, the T3 objects are retained, and the tempo counter, the firmware store, MIN_SVN, calibration offsets, promotion records and host memory are as they were. -/
def FastCleared (s t : State) : Prop :=
  t.bd = {} ∧ t.ranks = [] ∧ t.squares = [] ∧ t.qe = {} ∧ t.tenants = [] ∧ t.meters = [] ∧ t.indexes = [] ∧ t.partials = [] ∧ t.ts = {}
    ∧ t.ms.objs = keepT3 s ∧ t.ms.jobs = [] ∧ t.ms.exports = [] ∧ t.fab = { refOk := s.fab.refOk, links := t.fab.links }
    ∧ t.nmc.minSvn = s.nmc.minSvn ∧ t.nmc.store = s.nmc.store ∧ t.tempo = s.tempo ∧ t.hostMem = s.hostMem ∧ t.freeCtr = s.freeCtr
    ∧ t.spare.lanes = s.spare.lanes ∧ t.spare.sramRows = s.spare.sramRows

end Sys2Proof.Machine
end

