-- ==== Sys2Proof/Laws/Ops.lean ====
section
/-! SUPPORT. What each shared operation can do, said once. -/

namespace Sys2Proof.Machine

open Sys2Proof

/-! ### The answer of a command -/

theorem onUnit_true (s t : State) : onUnit s true t = .next { t with pending := s.pending } := rfl

/-- A command on a unit that exists answers a next state, and leaves the queue alone. -/
theorem onUnit_ok {s t : State} {ok : Bool} (h : ok = true) : onUnit s ok t = .next { t with pending := s.pending } := by
  subst h; rfl

/-- The same for an effect that keeps the queue by itself. -/
theorem onUnit_keep {s t : State} {ok : Bool} (h : ok = true) (hp : t.pending = s.pending) : onUnit s ok t = .next t := by
  rw [onUnit_ok h, ← hp]

/-- One that names no unit of the node changes nothing. -/
theorem onUnit_absent (s t : State) : onUnit s false t = .next s := rfl

/-- A command always answers a next state, with the queue it started with. -/
theorem onUnit_total (s t : State) (ok : Bool) : ∃ u, onUnit s ok t = .next u ∧ u.pending = s.pending := by
  cases ok
  · exact ⟨s, rfl, rfl⟩
  · exact ⟨_, rfl, rfl⟩

/-- Whatever a command does, its next state is its effect, where its operands name units of the node, and the state as it was elsewhere. -/
theorem onUnit_next {s t u : State} {ok : Bool} (h : onUnit s ok t = .next u) :
    (ok = true ∧ u = { t with pending := s.pending }) ∨ (ok = false ∧ u = s) := by
  cases ok
  · exact .inr ⟨rfl, by simpa [onUnit] using h.symm⟩
  · exact .inl ⟨rfl, by simpa [onUnit] using h.symm⟩

/-! ### A setter, then its getter -/

@[simp] theorem getT_setT (s : State) (t : Nat) (v : Tenant) : getT (setT s t v) t = v := by simp [getT, setT]
@[simp] theorem getM_setM (s : State) (t : Nat) (e : Bool) (v : Meter) : getM (setM s t e v) t e = v := by simp [getM, setM]
@[simp] theorem getRank_setRank (s : State) (r : Nat) (v : Rank) : getRank (setRank s r v) r = v := by simp [getRank, setRank]
@[simp] theorem getSq_setSq (s : State) (n : Nat) (v : Square) : getSq (setSq s n v) n = v := by simp [getSq, setSq]
@[simp] theorem getCtx_setCtx (s : State) (n c : Nat) (v : Ctx) : getCtx (setCtx s n c v) n c = v := by simp [getCtx, setCtx]
@[simp] theorem getLink_setLink (s : State) (l : Nat) (v : Link) : getLink (setLink s l v) l = v := by simp [getLink, setLink]
@[simp] theorem getGuard_setGuard (s : State) (g : Nat) (v : Guard) : getGuard (setGuard s g v) g = v := by simp [getGuard, setGuard]
@[simp] theorem getCh_setCh (s : State) (c : Nat) (v : Channel) : getCh (setCh s c v) c = v := by simp [getCh, setCh]
@[simp] theorem getQ_setQ (s : State) (q : QId) (v : Queue) : getQ (setQ s q v) q = v := by cases q <;> simp [getQ, setQ]
@[simp] theorem getStream_setStream (s : State) (o k : Nat) (v : StreamSt) : getStream (setStream s o k v) o k = v := by simp [getStream, setStream]

theorem getT_setT_other (s : State) {t u : Nat} (v : Tenant) (h : u ≠ t) : getT (setT s t v) u = getT s u := tget_tset_other _ _ _ h
theorem getRank_setRank_other (s : State) {r u : Nat} (v : Rank) (h : u ≠ r) : getRank (setRank s r v) u = getRank s u := tget_tset_other _ _ _ h
theorem getSq_setSq_other (s : State) {n u : Nat} (v : Square) (h : u ≠ n) : getSq (setSq s n v) u = getSq s u := tget_tset_other _ _ _ h
theorem getLink_setLink_other (s : State) {l u : Nat} (v : Link) (h : u ≠ l) : getLink (setLink s l v) u = getLink s u := tget_tset_other _ _ _ h
theorem getGuard_setGuard_other (s : State) {g u : Nat} (v : Guard) (h : u ≠ g) : getGuard (setGuard s g v) u = getGuard s u := tget_tset_other _ _ _ h
theorem getCh_setCh_other (s : State) {c u : Nat} (v : Channel) (h : u ≠ c) : getCh (setCh s c v) u = getCh s u := tget_tset_other _ _ _ h

/-! ### Host memory -/

theorem hostWrite_wf (s : State) (t a : Nat) (bs : List Byte) (h : memWf s.hostMem = true) : memWf (hostWrite s t a bs).hostMem = true := by
  unfold hostWrite; split
  · exact memWf_memWrite _ _ _ h
  · exact h

/-- Bytes outside the written ones keep their values, whether or not the write is discarded. -/
theorem hostWrite_outside (s : State) (t a b : Nat) (bs : List Byte) (h : b < a ∨ a + bs.length ≤ b) :
    memGet (hostWrite s t a bs).hostMem b = memGet s.hostMem b := by
  unfold hostWrite; split
  · exact memGet_memWrite_out _ _ _ _ h
  · rfl

/-! ### Completing a descriptor -/

theorem getQ_qe {s t : State} (h : s.qe = t.qe) (q : QId) : getQ s q = getQ t q := by cases q <;> simp [getQ, h]

theorem getQ_setDescs (s : State) (ds : List Desc) (q : QId) : getQ (setDescs s ds) q = getQ s q := by cases q <;> rfl
theorem getQ_addRec (s : State) (r : Rec) (q : QId) : getQ (addRec s r) q = getQ s q := by cases q <;> rfl

@[simp] theorem setQ_descs (s : State) (q : QId) (v : Queue) : (setQ s q v).qe.descs = s.qe.descs := by cases q <;> rfl
@[simp] theorem setQ_recs (s : State) (q : QId) (v : Queue) : (setQ s q v).qe.recs = s.qe.recs := by cases q <;> rfl
@[simp] theorem setQ_dups (s : State) (q : QId) (v : Queue) : (setQ s q v).qe.dups = s.qe.dups := by cases q <;> rfl
@[simp] theorem setTt_descs (s : State) (q : QId) (n : Nat) (e : TtEntry) : (setTt s q n e).qe.descs = s.qe.descs := by simp [setTt]
@[simp] theorem setTt_recs (s : State) (q : QId) (n : Nat) (e : TtEntry) : (setTt s q n e).qe.recs = s.qe.recs := by simp [setTt]
@[simp] theorem setTt_dups (s : State) (q : QId) (n : Nat) (e : TtEntry) : (setTt s q n e).qe.dups = s.qe.dups := by simp [setTt]
@[simp] theorem dropDesc_descs (s : State) (d : Desc) (st : Nat) : (dropDesc s d st).qe.descs = s.qe.descs.filter (fun x => x.n != d.n) := by
  simp [dropDesc, setDescs]
@[simp] theorem dropDesc_recs (s : State) (d : Desc) (st : Nat) : (dropDesc s d st).qe.recs = s.qe.recs := by simp [dropDesc, setDescs]
@[simp] theorem dropDesc_dups (s : State) (d : Desc) (st : Nat) : (dropDesc s d st).qe.dups = s.qe.dups := by simp [dropDesc, setDescs]

@[simp] theorem addRec_descs (s : State) (r : Rec) : (addRec s r).qe.descs = s.qe.descs := rfl
@[simp] theorem addRec_dups (s : State) (r : Rec) : (addRec s r).qe.dups = s.qe.dups := rfl
@[simp] theorem addRec_recs (s : State) (r : Rec) : (addRec s r).qe.recs = s.qe.recs ++ [r] := rfl

/-- A completed descriptor is off the list of the uncompleted ones. -/
@[simp] theorem completeWith_descs (s : State) (d : Desc) (st rf de ep nb : Nat) (mid : List Rec) :
    (completeWith s d st rf de ep nb mid).qe.descs = s.qe.descs.filter (fun x => x.n != d.n) := by
  simp [completeWith, dupRecs_eq, foldl_addRec_qe]

/-- Its record waits behind those that wait already; the records of its duplicates follow. -/
theorem completeWith_recs (s : State) (d : Desc) (st rf de ep nb : Nat) (mid : List Rec) :
    ∃ l, (completeWith s d st rf de ep nb mid).qe.recs = s.qe.recs ++ recOf d st rf de ep nb :: l := by
  simp [completeWith, dupRecs_eq, foldl_addRec_qe, List.append_assoc]

/-- The records given with it follow at once, before those of its duplicates (11 R364). -/
theorem completeWith_recs_mid (s : State) (d : Desc) (st rf de ep nb : Nat) (mid : List Rec) :
    ∃ l, (completeWith s d st rf de ep nb mid).qe.recs = s.qe.recs ++ recOf d st rf de ep nb :: (mid ++ l) := by
  simp [completeWith, dupRecs_eq, foldl_addRec_qe, List.append_assoc]

/-- Without duplicates exactly one record is added. -/
theorem completeWith_recs_single (s : State) (d : Desc) (st rf de ep nb : Nat)
    (h : s.qe.dups.filter (fun u => u.q == d.q && u.seq == d.seq) = []) :
    (completeWith s d st rf de ep nb []).qe.recs = s.qe.recs ++ [recOf d st rf de ep nb] := by
  rw [List.filter_eq_nil_iff] at h
  simpa [completeWith, dupRecs_eq, foldl_addRec_qe] using h

@[simp] theorem getTt_setTt (s : State) (q : QId) (n : Nat) (e : TtEntry) : getTt (setTt s q n e) q n = e := by simp [getTt, setTt]

theorem getTt_of_queues {s t : State} (h1 : s.qe.queues = t.qe.queues) (h2 : s.qe.adminSt = t.qe.adminSt) (q : QId) (n : Nat) :
    getTt s q n = getTt t q n := by cases q <;> simp [getTt, getQ, h1, h2]

theorem foldl_addRec_queues (l : List Rec) (s : State) : (l.foldl addRec s).qe.queues = s.qe.queues := by rw [foldl_addRec_qe]
theorem foldl_addRec_admin (l : List Rec) (s : State) : (l.foldl addRec s).qe.adminSt = s.qe.adminSt := by rw [foldl_addRec_qe]

@[simp] theorem completeWith_getTt (s : State) (d : Desc) (st rf de ep nb : Nat) (mid : List Rec) :
    getTt (completeWith s d st rf de ep nb mid) d.q d.seq = ⟨d.seq, .complete, st⟩ := by
  rw [completeWith, dupRecs_eq, getTt_of_queues (t := setTt (dropDesc s d st) d.q d.seq ⟨d.seq, .complete, st⟩)]
  · simp
  · exact foldl_addRec_queues _ _
  · exact foldl_addRec_admin _ _

theorem complete_completed (s : State) (d : Desc) (st : Nat) : Completed s d st 0 (complete s d st) :=
  ⟨completeWith_descs .., completeWith_recs .., completeWith_getTt ..⟩

theorem completeDetail_completed (s : State) (d : Desc) (st de : Nat) : Completed s d st de (completeDetail s d st de) :=
  ⟨completeWith_descs .., completeWith_recs .., completeWith_getTt ..⟩

theorem dropDesc_fab (s : State) (d : Desc) (st : Nat) :
    (dropDesc s d st).fab = { s.fab with sent := s.fab.sent.filter (fun m => !(m.q == d.q && m.seq == d.seq)) } := by
  simp [dropDesc]

theorem completeWith_fab (s : State) (d : Desc) (st rf de ep nb : Nat) (mid : List Rec) :
    (completeWith s d st rf de ep nb mid).fab = { s.fab with sent := s.fab.sent.filter (fun m => !(m.q == d.q && m.seq == d.seq)) } := by
  rw [completeWith, dupRecs_eq, foldl_addRec_qe]; simp [dropDesc_fab]

/-- The chunks of a BANK_OP that run no more are all that a completion takes from the streams. -/
theorem dropChunks_streams (s : State) (d : Desc) : StreamsKept s (dropChunks s d) := by
  unfold dropChunks
  split
  · rename_i l st _
    refine ⟨rfl, fun o k => ?_⟩
    have h := tget_map (β := StreamSt) {} (fun e => { e with tokens := e.tokens.filter (fun t => t.load != .chunk d.q d.seq) }) rfl s.bd.streams (stKey o k)
    simp only [getStream, h, List.filter_filter, true_and]
    apply List.filter_congr
    rintro ⟨n, ld⟩ -
    cases ld <;> simp [isChunk]
  · exact ⟨rfl, fun o k => ⟨rfl, rfl⟩⟩

theorem StreamsKept.of_bd {s t u : State} (h : StreamsKept s t) (hb : u.bd = t.bd) : StreamsKept s u := by
  simpa only [StreamsKept, getStream, hb] using h

theorem StreamsKept.self (s : State) : StreamsKept s s := ⟨rfl, fun _ _ => ⟨rfl, rfl⟩⟩

theorem StreamsKept.trans {a b c : State} (h1 : StreamsKept a b) (h2 : StreamsKept b c) : StreamsKept a c :=
  ⟨by rw [h2.1, h1.1], fun o k => ⟨by rw [(h2.2 o k).1, (h1.2 o k).1], by rw [(h2.2 o k).2, (h1.2 o k).2]⟩⟩

theorem dropDesc_bd (s : State) (d : Desc) (st : Nat) : (dropDesc s d st).bd = (dropChunks s d).bd := by
  simp only [dropDesc, setDescs_bd]
  unfold dropChunks; split <;> simp

theorem completeWith_bd (s : State) (d : Desc) (st rf de ep nb : Nat) (mid : List Rec) : (completeWith s d st rf de ep nb mid).bd = (dropChunks s d).bd := by
  rw [completeWith, dupRecs_eq, foldl_addRec_qe]; simp [dropDesc_bd]

theorem completeWith_streams (s : State) (d : Desc) (st rf de ep nb : Nat) (mid : List Rec) : StreamsKept s (completeWith s d st rf de ep nb mid) :=
  (dropChunks_streams s d).of_bd (completeWith_bd ..)

theorem complete_only (s : State) (d : Desc) (st : Nat) : OnlyQueues s (complete s d st) := by
  refine ⟨?_, completeWith_streams ..⟩
  apply State.ext <;> simp [complete, completeWith_fab]

theorem completeDetail_only (s : State) (d : Desc) (st de : Nat) : OnlyQueues s (completeDetail s d st de) := by
  refine ⟨?_, completeWith_streams ..⟩
  apply State.ext <;> simp [completeDetail, completeWith_fab]

/-- The same for an effect that completes the descriptor of a state whose waiting descriptors and records are those of `s`. -/
theorem completed_of {s x : State} (d : Desc) (st : Nat) (h1 : x.qe.descs = s.qe.descs) (h2 : x.qe.recs = s.qe.recs) : Completed s d st 0 (complete x d st) := by
  have h := complete_completed x d st
  simp only [Completed, h1, h2] at h ⊢; exact h

theorem completedDetail_of {s x : State} (d : Desc) (st de : Nat) (h1 : x.qe.descs = s.qe.descs) (h2 : x.qe.recs = s.qe.recs) :
    Completed s d st de (completeDetail x d st de) := by
  have h := completeDetail_completed x d st de
  simp only [Completed, h1, h2] at h ⊢; exact h

theorem complete_pend (x : State) (d : Desc) (st : Nat) : (complete x d st).pending = x.pending := by simp [complete]
theorem completeDetail_pend (x : State) (d : Desc) (st de : Nat) : (completeDetail x d st de).pending = x.pending := by simp [completeDetail]
theorem hostRead_complete (x : State) (d : Desc) (st a n : Nat) : hostRead (complete x d st) a n = hostRead x a n := by simp [hostRead, complete]

/-- What is written to host memory that the node may reach reads back. -/
theorem hostRead_hostWrite (s : State) (t a : Nat) (bs : List Byte) (h : hostOpen s t = true) : hostRead (hostWrite s t a bs) a bs.length = bs := by
  simp only [hostRead, hostWrite, h, if_true, memRead_memWrite]

/-- A write of a register that the physical function makes while every block answers has its effect. -/
theorem pfWrite_full {s : State} (off : Nat) (eff : State → State) (h : barFull s = true) : pfWrite s 0 off eff = eff s := by
  simp [pfWrite, h, isPf]

/-! ### Events -/

theorem setAlert_pw (s : State) (v : Bool) : (setAlert s v).pw = { s.pw with alertN := (setAlert s v).pw.alertN } := by
  simp only [setAlert]; split <;> rfl

theorem raise_pw (s : State) (code cls t u a b c : Nat) : (raise s code cls t u a b c).pw = { s.pw with alertN := (raise s code cls t u a b c).pw.alertN } := by
  simp only [raise]; split
  · rfl
  · have hm : ∀ (x : State) (f v : Nat), (msix x f v).pw = x.pw := by intro x f v; simp
    split <;> split <;> (try rw [setAlert_pw]) <;> simp

/-- While the ring has room, the record of an event is written at TAIL (13 R411). -/
theorem raise_er_room (s : State) (code cls t u a b c : Nat) (h : (s.er.tail + 1) % 1024 ≠ s.er.head) :
    (raise s code cls t u a b c).er = { s.er with
      nextSeq := (s.er.nextSeq + 1) % 2 ^ 32, cnt := bump s.er.cnt 14 1,
      log := tset s.er.log s.er.tail ⟨s.er.nextSeq, code, cls, t, s.tempo, u, a, b, c⟩, tail := (s.er.tail + 1) % 1024 } := by
  simp only [raise, if_neg h]
  split <;> split <;> simp

/-- While the ring is full, an event takes its SEQ and LOST counts it (13 R411). -/
theorem raise_er_full (s : State) (code cls t u a b c : Nat) (h : (s.er.tail + 1) % 1024 = s.er.head) :
    raise s code cls t u a b c = { s with er := { s.er with nextSeq := (s.er.nextSeq + 1) % 2 ^ 32, cnt := bump s.er.cnt 14 1, lost := satAdd 32 s.er.lost 1 } } := by
  simp only [raise, if_pos h]

theorem raise_nextSeq (s : State) (code cls t u a b c : Nat) : (raise s code cls t u a b c).er.nextSeq = (s.er.nextSeq + 1) % 2 ^ 32 := by
  by_cases h : (s.er.tail + 1) % 1024 = s.er.head
  · rw [raise_er_full _ _ _ _ _ _ _ _ h]
  · rw [raise_er_room _ _ _ _ _ _ _ _ h]

theorem raise_cnt_other (s : State) (code cls t u a b c k : Nat) (hk : k ≠ 14) : tget 0 (raise s code cls t u a b c).er.cnt k = tget 0 s.er.cnt k := by
  by_cases h : (s.er.tail + 1) % 1024 = s.er.head
  · rw [raise_er_full _ _ _ _ _ _ _ _ h]; simp [bump, tget_tset_other _ _ _ hk]
  · rw [raise_er_room _ _ _ _ _ _ _ _ h]; simp [bump, tget_tset_other _ _ _ hk]

theorem raise_units (s : State) (code cls t u a b c : Nat) : (raise s code cls t u a b c).er.units = s.er.units := by
  by_cases h : (s.er.tail + 1) % 1024 = s.er.head
  · rw [raise_er_full _ _ _ _ _ _ _ _ h]
  · rw [raise_er_room _ _ _ _ _ _ _ _ h]

/-- The record of an event as the ring holds it. -/
theorem raise_record (s : State) (code cls t u a b c : Nat) (h : (s.er.tail + 1) % 1024 ≠ s.er.head) :
    tget {} (raise s code cls t u a b c).er.log s.er.tail = ⟨s.er.nextSeq, code, cls, t, s.tempo, u, a, b, c⟩ := by
  rw [raise_er_room _ _ _ _ _ _ _ _ h]; simp

/-! ### Objects -/

theorem findObj_putObj (s : State) (o : Obj) : findObj (putObj s o) o.tenant o.num = some o := by
  have key : ∀ l : List Obj, (l.find? (fun x => x.tenant == o.tenant && x.num == o.num)).isSome →
      (l.map (fun x => if x.tenant = o.tenant ∧ x.num = o.num then o else x)).find? (fun x => x.tenant == o.tenant && x.num == o.num) = some o := by
    intro l
    induction l with
    | nil => simp
    | cons x r ih =>
      intro h
      by_cases hx : x.tenant = o.tenant ∧ x.num = o.num
      · simp [hx]
      · have hb : (x.tenant == o.tenant && x.num == o.num) = false := by simpa using fun a => fun b => hx ⟨a, b⟩
        rw [List.find?_cons, hb] at h
        simp only [List.map_cons, if_neg hx, List.find?_cons, hb]
        exact ih h
  unfold putObj
  split
  · rename_i h; exact key _ h
  · rename_i h
    simp only [findObj, setObjs, List.find?_append]
    have : s.ms.objs.find? (fun x => x.tenant == o.tenant && x.num == o.num) = none := by simpa [findObj] using h
    rw [this]; simp

theorem findObj_putObj_other (s : State) (o : Obj) (t n : Nat) (h : t ≠ o.tenant ∨ n ≠ o.num) : findObj (putObj s o) t n = findObj s t n := by
  have hb : ∀ x : Obj, (x.tenant = o.tenant ∧ x.num = o.num) → (x.tenant == t && x.num == n) = false := by
    rintro x ⟨h1, h2⟩; simp only [Bool.and_eq_false_iff, beq_eq_false_iff_ne, h1, h2]
    exact h.imp Ne.symm Ne.symm
  have ho : (o.tenant == t && o.num == n) = false := hb o ⟨rfl, rfl⟩
  unfold putObj
  split
  · simp only [findObj, setObjs]
    induction s.ms.objs with
    | nil => rfl
    | cons x r ih =>
      by_cases hx : x.tenant = o.tenant ∧ x.num = o.num
      · simp only [List.map_cons, if_pos hx, List.find?_cons, ho, hb x hx]; exact ih
      · simp only [List.map_cons, if_neg hx, List.find?_cons]; split
        · rfl
        · exact ih
  · simp only [findObj, setObjs, List.find?_append, List.find?_cons, ho, List.find?_nil, Option.or_none]

end Sys2Proof.Machine
end

