-- ==== Sys2Proof/Certificates/Slice0/Obligations.lean ====
section
/-! DEFINITION. The statements about the node, for the provers. Each says in its docstring which rule of spec/ it rests on. -/

open Sys2Proof Sys2Proof.Machine

/-! ### The queue of commands -/

/-- A step with a command at the front is exec of that command on the state with the queue's rest. -/
def Obligations.StepRunsTheFrontCommand : Prop :=
  ∀ (c : Instr) (rest : List Instr) (s : State), s.pending = c :: rest → step s = exec c { s with pending := rest }

/-- 11 R347, R351 to R354, R357: an aligned 64-byte write to an ENABLED queue that holds a credit is accepted, takes one credit, and by the class of its number leaves a record, a waiting duplicate, or a descriptor that waits or has its record waiting. Host memory changes only where a CONSOLIDATE ends at once and writes its result. -/
def Obligations.ApertureWriteAccepted : Prop :=
  ∀ (s : State) (vf : Option Nat) (off : Nat) (data : List Byte) (q : QId),
    wellFormed (.apertureWrite vf off data) = true → barFull s = true → (apertureOf s vf off).2 = some q →
    data.length = 64 → off % 64 = 0 → (getQ s q).qstate = 2 → (getQ s q).avail ≠ 0 →
    ∃ t, exec (.apertureWrite vf off data) s = .next t
      ∧ t.qe.accepted = s.qe.accepted + 1
      ∧ (getQ t q).avail = (getQ s q).avail - 1
      ∧ (match (ttCheck (getQ s q) (fieldAt data 4 4)).1 with
        | .stale => t.qe.recs = s.qe.recs ++ [{ n := s.qe.accepted, q := q, seq := fieldAt data 4 4, status := 0x11, orig := 0x11, opcode := fieldAt data 0 1, tag := fieldAt data 8 8, irq := bit (fieldAt data 1 1) 0 }]
            ∧ t.qe.descs = s.qe.descs
        | .range => t.qe.recs = s.qe.recs ++ [{ n := s.qe.accepted, q := q, seq := fieldAt data 4 4, status := 0x15, orig := 0x15, opcode := fieldAt data 0 1, tag := fieldAt data 8 8, irq := bit (fieldAt data 1 1) 0 }]
            ∧ t.qe.descs = s.qe.descs
        | .dup e =>
          t.qe.descs = s.qe.descs
            ∧ (if e.st = .complete then
                t.qe.dups = s.qe.dups
                  ∧ t.qe.recs = s.qe.recs ++ [{ n := s.qe.accepted, q := q, seq := fieldAt data 4 4, status := 0x02, orig := e.status, opcode := fieldAt data 0 1, tag := fieldAt data 8 8, irq := bit (fieldAt data 1 1) 0 }]
              else t.qe.recs = s.qe.recs
                  ∧ t.qe.dups = s.qe.dups ++ [⟨s.qe.accepted, q, fieldAt data 4 4, fieldAt data 0 1, fieldAt data 8 8, bit (fieldAt data 1 1) 0⟩])
        | .new => (∃ d ∈ t.qe.descs, d.n = s.qe.accepted) ∨ (∃ r ∈ t.qe.recs, r.n = s.qe.accepted ∧ r.q = q ∧ r.seq = fieldAt data 4 4))
      ∧ (fieldAt data 0 1 ≠ 0x0A → t.hostMem = s.hostMem)
      ∧ t = { s with qe := t.qe, squares := t.squares, ranks := t.ranks, meters := t.meters, hostMem := t.hostMem, fab := { s.fab with sent := t.fab.sent } }

/-- 11 R347, R351 steps 1 and 2: a write that no queue takes makes an APERTURE event of the tenant, and one that finds no credit makes a QUEUE_OVERRUN event and counts in DROPPED; neither consumes a credit nor leaves a record or a descriptor. -/
def Obligations.ApertureWriteNotTaken : Prop :=
  (∀ (s : State) (vf : Option Nat) (off : Nat) (data : List Byte), wellFormed (.apertureWrite vf off data) = true → barFull s = true →
    ((apertureOf s vf off).2 = none ∨ ∃ q, (apertureOf s vf off).2 = some q ∧ (data.length ≠ 64 ∨ off % 64 ≠ 0 ∨ (getQ s q).qstate ≠ 2)) →
    ∃ t, exec (.apertureWrite vf off data) s = .next t
      ∧ (getT t (apertureOf s vf off).1).aperture = true
      ∧ (getT t (apertureOf s vf off).1).cntAperture = satAdd 32 (getT s (apertureOf s vf off).1).cntAperture 1
      ∧ t = { s with qe := { s.qe with cnt := bump s.qe.cnt 2 1, msix := t.qe.msix }, tenants := t.tenants, out := t.out }
      ∧ ∀ u, u ≠ (apertureOf s vf off).1 → getT t u = getT s u)
  ∧ (∀ (s : State) (vf : Option Nat) (off : Nat) (data : List Byte) (q : QId), wellFormed (.apertureWrite vf off data) = true → barFull s = true →
    (apertureOf s vf off).2 = some q → data.length = 64 → off % 64 = 0 → (getQ s q).qstate = 2 → (getQ s q).avail = 0 →
    ∃ t, exec (.apertureWrite vf off data) s = .next t
      ∧ (getT t (apertureOf s vf off).1).overrun = true
      ∧ (getT t (apertureOf s vf off).1).cntOverrun = satAdd 32 (getT s (apertureOf s vf off).1).cntOverrun 1
      ∧ getQ t q = { getQ s q with dropped := satAdd 16 (getQ s q).dropped 1 }
      ∧ t.qe.recs = s.qe.recs ∧ t.qe.descs = s.qe.descs ∧ t.qe.dups = s.qe.dups ∧ t.qe.accepted = s.qe.accepted
      ∧ t = { s with qe := t.qe, tenants := t.tenants, out := t.out })

/-- 11 R348, R349, R357, R377: a queue that enters ENABLED starts its ring at entry 0 with PHASE 1, an empty transposition table and HIGH unset, and a credit record grants its credits, or none where they are stopped; QUEUE_ENABLE takes a DISABLED queue there when its Position is active and no per-tenant reset is finishing. -/
def Obligations.QueueEntersEnabledAnew : Prop :=
  ∀ (s : State) (fn : Nat) (q : QId) (cfg : BitVec 32), wellFormed (.queueEnable fn q cfg) = true → barFull s = true →
    (getQ s q).qstate = 0 → (q = .admin ∨ (hasPos s (tenantOf q) = true ∧ (getT s (tenantOf q)).resetting = none)) →
    ∃ t, exec (.queueEnable fn q cfg) s = .next t
      ∧ (getQ t q).qstate = 2 ∧ (getQ t q).en = true
      ∧ (getQ t q).tail = 0 ∧ (getQ t q).phase = true ∧ (getQ t q).tt = [] ∧ (getQ t q).high = none
      ∧ (getQ t q).avail = (if qStopped s q then 0 else creditLimit (cfgQueue (getQ s q) q cfg.toNat))
      ∧ t.qe.recs = s.qe.recs ++ [{ q := q, creditOnly := true, creditReset := true, grant := (getQ t q).avail }]
      ∧ t.qe.descs = s.qe.descs ∧ (∀ k, queueOk k = true → k ≠ q → getQ t k = getQ s k) ∧ t = { s with qe := t.qe }

/-- 11 R348, R356, R367, R377: EN written 0 takes an ENABLED queue with nothing left to complete to DISABLED, one with accepted descriptors to DRAINING and a WAITING one to DISABLED, and the ring and credit fields of a queue that is not DISABLED keep their values; a HEAD outside the ring counts as TAIL; EN of a meter written from 0 to 1 fills both buckets. -/
def Obligations.QueueAndMeterRegisterWrites : Prop :=
  (∀ (s : State) (fn : Nat) (q : QId) (cfg : BitVec 32), wellFormed (.queueDisable fn q cfg) = true → barFull s = true →
    ∃ t, exec (.queueDisable fn q cfg) s = .next t
      ∧ (getQ t q).en = false
      ∧ (getQ t q).qstate = (if (getQ s q).qstate = 2 then (if drained s q then 0 else 3) else if (getQ s q).qstate = 1 then 0 else (getQ s q).qstate)
      ∧ ((getQ s q).qstate ≠ 0 → (getQ t q).log2 = (getQ s q).log2 ∧ (getQ t q).creditsMax = (getQ s q).creditsMax)
      ∧ (getQ t q).cqBase = (getQ s q).cqBase
      ∧ t.qe.descs = s.qe.descs ∧ t = { s with qe := t.qe })
  ∧ (∀ (s : State) (fn : Nat) (q : QId) (head : BitVec 16), wellFormed (.completionHeadWrite fn q head) = true → barFull s = true →
    exec (.completionHeadWrite fn q head) s =
      .next (setQ s q { getQ s q with head := if head.toNat < ringSize (getQ s q) then head.toNat else (getQ s q).tail }))
  ∧ (∀ (s : State) (t : Nat) (egress : Bool) (cfg : BitVec 32), wellFormed (.meterEnable 0 t egress cfg) = true → barFull s = true →
    ∃ u, exec (.meterEnable 0 t egress cfg) s = .next u
      ∧ (getM u t egress).en = true
      ∧ ((getM s t egress).en = false → (getM u t egress).tc = (getM s t egress).cbs ∧ (getM u t egress).tp = (getM s t egress).pbs)
      ∧ ((getM s t egress).en = true → (getM u t egress).tc = (getM s t egress).tc ∧ (getM u t egress).tp = (getM s t egress).tp)
      ∧ (∀ t' e', t' * 2 + b2n e' ≠ t * 2 + b2n egress → getM u t' e' = getM s t' e')
      ∧ u = { s with meters := u.meters })

/-- 11 R355 to R357: while the ring has room, the next record of a queue goes to entry TAIL of its ring as one 32-byte write and nothing else of host memory changes; TAIL moves on, PHASE inverts on a wrap, and the record's credit comes back up to the limit; while the ring is full the record waits. A record of a tenant under a function level reset is discarded (11 R373): neither the ring nor host memory moves. -/
def Obligations.CompletionRecordWritten : Prop :=
  (∀ (s : State) (q : QId) (i : Nat) (r : Rec), wellFormed (.completionRecordWrite q) = true → nextRec s q = some (i, r) → recLost s q = false →
    ((getQ s q).tail + 1) % ringSize (getQ s q) ≠ (getQ s q).head →
    ∃ t, exec (.completionRecordWrite q) s = .next t
      ∧ (hostOpen s (tenantOf q) = true → hostRead t ((getQ s q).cqBase * 4096 + 32 * (getQ s q).tail) 32
          = recBytes (getQ s q) r (if qStopped s q || decide ((getQ s q).qstate < 2) then 0 else if r.creditOnly then r.grant else 1))
      ∧ (hostOpen s (tenantOf q) = false → t.hostMem = s.hostMem)
      ∧ HostOutside s t ((getQ s q).cqBase * 4096 + 32 * (getQ s q).tail) 32
      ∧ t.qe.descs = s.qe.descs ∧ t.qe.dups = s.qe.dups
      ∧ ((getQ s q).qstate ≠ 3 → t.qe.recs = s.qe.recs.eraseIdx i
          ∧ (getQ t q).tail = ((getQ s q).tail + 1) % ringSize (getQ s q)
          ∧ (getQ t q).phase = (if ((getQ s q).tail + 1) % ringSize (getQ s q) = 0 then !(getQ s q).phase else (getQ s q).phase)
          ∧ ((getQ s q).qstate = 2 → qStopped s q = false → r.creditOnly = false → (getQ t q).avail = min (creditLimit (getQ s q)) ((getQ s q).avail + 1))
          ∧ (qStopped s q = true → r.creditOnly = false → (getQ t q).avail = min (creditLimit (getQ s q)) (getQ s q).avail)
          ∧ (r.creditOnly = true → (getQ t q).avail = (getQ s q).avail))
      ∧ t = { s with qe := t.qe, hostMem := t.hostMem, out := t.out, bd := { s.bd with castling := t.bd.castling, castDone := t.bd.castDone } })
  ∧ (∀ (s : State) (q : QId) (i : Nat) (r : Rec), wellFormed (.completionRecordWrite q) = true → nextRec s q = some (i, r) → recLost s q = false →
    ((getQ s q).tail + 1) % ringSize (getQ s q) = (getQ s q).head → exec (.completionRecordWrite q) s = .next s)
  ∧ (∀ (s : State) (t k i : Nat) (r : Rec), wellFormed (.completionRecordWrite (.tenant t k)) = true → nextRec s (.tenant t k) = some (i, r) →
    (getT s t).flr = true → exec (.completionRecordWrite (.tenant t k)) s = .next { s with qe := { s.qe with recs := s.qe.recs.eraseIdx i } })

/-- 03 R77, R81, R94; 07 R186: the tenant's next waiting descriptor takes the lowest-numbered free entry slot on the lowest Square that has one; the context becomes READY, the rank's clock is no longer stopped, and a query takes the epoch of its move. -/
def Obligations.DescriptorTakesLowestEntrySlot : Prop :=
  (∀ (s : State) (t n c : Nat) (p : Position) (d : Desc), wellFormed (.descriptorPlace t) = true → posOf s t = some p →
    freeEntrySlot s p = some (n, c) → (serviceOrder s t).findSome? (fun q => waitingOf s (.tenant t q)) = some d →
    ∃ u, exec (.descriptorPlace t) s = .next u
      ∧ getCtx u n c = { st := .ready, job := .entry d.q d.seq, tenant := t }
      ∧ (getRank u (rankOfSq n)).clock ≠ 0
      ∧ (∃ x ∈ u.qe.descs, x.n = d.n ∧ x.phase = .placed n c ∧ x.seq = d.seq
          ∧ x.epoch = (if descOp d = 0x01 ∨ descOp d = 0x02 then (moveOf s - 2) * 65536 + 0xFFFF else 0))
      ∧ (∀ n', n' ≠ n → getSq u n' = getSq s n') ∧ (∀ r, r ≠ rankOfSq n → getRank u r = getRank s r)
      ∧ u.qe.recs = s.qe.recs
      ∧ u = { s with qe := u.qe, squares := u.squares, ranks := u.ranks })
  ∧ (∀ (s : State) (p : Position) (n c : Nat), freeEntrySlot s p = some (n, c) →
    ∃ i, i < p.squares.length ∧ (carriers s p)[i]? = some n ∧ c < sqEntry p i ∧ ctxBusy (getCtx s n c) = false
      ∧ (∀ c', c' < c → ctxBusy (getCtx s n c') = true)
      ∧ (∀ j m, j < i → (carriers s p)[j]? = some m → sqFrozen s m = false → ∀ c', c' < sqEntry p j → ctxBusy (getCtx s m c') = true))

/-- 11 R359 to R365: NOP completes with DONE; a FENCE whose earlier descriptors have all completed with their records written does, one whose earlier descriptors have completed commits, and one with a SCOPE above 1 is malformed; an ABORT ends a PENDING target with ABORTED and its own record follows at once, and it completes with the status of R363 where the target is malformed, stale or past its commit. -/
def Obligations.AbortFenceNopComplete : Prop :=
  (∀ (s : State) (q : QId) (seq : Nat) (d : Desc), wellFormed (.nop q seq) = true → dueDesc s q seq 0x3F = some d →
    ∃ t, exec (.nop q seq) s = .next t ∧ Completed s d 0x00 0 t ∧ OnlyQueues s t)
  ∧ (∀ (s : State) (q : QId) (seq : Nat) (d : Desc), wellFormed (.fence q seq) = true → dueDesc s q seq 0x38 = some d →
    ((1 < dfield d 16 1 → ∃ t, exec (.fence q seq) s = .next t ∧ Completed s d 0x15 0 t ∧ OnlyQueues s t)
      ∧ (dfield d 16 1 ≤ 1 → fenceDue s d = true → ∃ t, exec (.fence q seq) s = .next t ∧ Completed s d 0x00 0 t ∧ OnlyQueues s t)
      ∧ (dfield d 16 1 ≤ 1 → fenceDue s d = false → exec (.fence q seq) s = .next (if fenceReached s d then commit s d else s))))
  ∧ (∀ (s : State) (q : QId) (seq : Nat) (d : Desc), wellFormed (.abort q seq) = true → findDesc s q seq = some d → descOp d = 0x30 → d.phase = .ready →
    ∃ t, exec (.abort q seq) s = .next t
      ∧ (match abortTarget s d with
        | .malformed => Completed (cntQe s 5) d 0x15 0 t ∧ OnlyQueues s t
        | .stale => Completed (cntQe s 5) d 0x11 0 t ∧ OnlyQueues s t
        | .done => Completed (cntQe s 5) d 0x03 0 t ∧ OnlyQueues s t
        | .pending x =>
          t.qe.descs = (s.qe.descs.filter (fun y => y.n != x.n)).filter (fun y => y.n != d.n)
            ∧ (∃ epoch move dups, t.qe.recs = s.qe.recs ++ recOf x 0x04 0 0 epoch move :: recOf d 0x00 0 0 0 move :: dups
                ∧ ((∀ f l st fo re fr ph cu, x.work ≠ .consolidate f l st fo re fr ph cu) → epoch = 0 ∧ move = 0))
            ∧ (descOp x ≠ 0x0A → t.hostMem = s.hostMem)
            ∧ t = { s with qe := t.qe, squares := t.squares, hostMem := t.hostMem, bd := { s.bd with streams := t.bd.streams, recomps := t.bd.recomps }, fab := { s.fab with sent := t.fab.sent } }))

/-! ### Registers, the event log and the host port -/

/-- 00 R3; 11 R375; 13 R411, R412, R429, R430: ER_CLEAR.COUNTERS clears every error count; ER_CLEAR.LOG empties the ring, clears LOST and releases ALERT_n and leaves the next SEQ; a write of HEAD takes HEAD and releases ALERT_n when HEAD equals TAIL; the node ignores writes to the block by any other function; and a write of 1 clears a bit of ER_ACTION, or of TN_EVENTS of the function's own page, and a write of 0 leaves it. -/
def Obligations.EventLogRegisterWrites : Prop :=
  (∀ s : State, barFull s = true →
    exec (.clearCounters 0) s = .next { s with er := { s.er with cnt := [], units := [] } })
  ∧ (∀ s : State, barFull s = true →
    ∃ t, exec (.clearLog 0) s = .next t ∧ t.er = { s.er with head := 0, tail := 0, lost := 0 } ∧ t.pw = { s.pw with alertN := false }
      ∧ t.out = (if s.pw.alertN then s.out ++ [.pin 0 false] else s.out) ∧ t = { s with er := t.er, pw := t.pw, out := t.out })
  ∧ (∀ (s : State) (head : BitVec 32), barFull s = true →
    ∃ t, exec (.eventLogHeadWrite 0 head) s = .next t ∧ t.er = { s.er with head := head.toNat % 1024 }
      ∧ t.pw = { s.pw with alertN := if head.toNat % 1024 = s.er.tail then false else s.pw.alertN }
      ∧ t = { s with er := t.er, pw := t.pw, out := t.out })
  ∧ (∀ (s : State) (fn : Nat) (head : BitVec 32), 1 ≤ fn → fn ≤ 64 → barFull s = true →
    exec (.clearCounters fn) s = .next s ∧ exec (.clearLog fn) s = .next s ∧ exec (.eventLogHeadWrite fn head) s = .next s)
  ∧ (∀ (s : State) (v : BitVec 64), barFull s = true →
    exec (.registerWrite 0 0x400018 4 v) s = .next { s with er := { s.er with
      thermalTrip := s.er.thermalTrip && !v.getLsbD 0, overcurrent := s.er.overcurrent && !v.getLsbD 1, retired := s.er.retired && !v.getLsbD 2 } })
  ∧ (∀ (s : State) (fn : Nat) (v : BitVec 64), 1 ≤ fn → fn ≤ 64 → barFull s = true →
    exec (.registerWrite fn 0x8 4 v) s = .next (setT s fn { getT s fn with
      overrun := (getT s fn).overrun && !v.getLsbD 0, aperture := (getT s fn).aperture && !v.getLsbD 1 }))

/-- 13 R406, R409 to R411: a PCIe error counts in its ER_CNT counter and in its unit's CORRECTED or UNCORRECTED, and the event takes the next SEQ; its record is written at TAIL while the ring has room, and else LOST counts it. -/
def Obligations.PcieErrorLogged : Prop :=
  ∀ (s : State) (uncorrectable : Bool) (aer : BitVec 32), s.pw.hostUp = true →
    ∃ t, exec (.pcieErr uncorrectable aer) s = .next t
      ∧ tget 0 t.er.cnt (if uncorrectable then 11 else 10) = satAdd 64 (tget 0 s.er.cnt (if uncorrectable then 11 else 10)) 1
      ∧ (tget {} t.er.units qeUnit).corrected = (if uncorrectable then (tget {} s.er.units qeUnit).corrected else satAdd 32 (tget {} s.er.units qeUnit).corrected 1)
      ∧ (tget {} t.er.units qeUnit).uncorrected = (if uncorrectable then satAdd 32 (tget {} s.er.units qeUnit).uncorrected 1 else (tget {} s.er.units qeUnit).uncorrected)
      ∧ t.er.nextSeq = (s.er.nextSeq + 1) % 2 ^ 32
      ∧ ((s.er.tail + 1) % 1024 ≠ s.er.head →
          tget {} t.er.log s.er.tail = ⟨s.er.nextSeq, 0x0070, 2, 0x7F, s.tempo, 0x06000000, aer.toNat, if uncorrectable then 1 else 0, 0⟩
            ∧ t.er.tail = (s.er.tail + 1) % 1024 ∧ t.er.lost = s.er.lost)
      ∧ ((s.er.tail + 1) % 1024 = s.er.head → t.er.log = s.er.log ∧ t.er.tail = s.er.tail ∧ t.er.lost = satAdd 32 s.er.lost 1 ∧ t.out = s.out)
      ∧ t = { s with er := t.er, pw := { s.pw with alertN := t.pw.alertN }, qe := { s.qe with msix := t.qe.msix }, out := t.out }

/-- 00 R5, R6; 01 R16: a write by the physical function of a register whose fields are RW and lie together from bit 0 makes it read as the written bits of its fields, with 0 in every reserved bit, and touches nothing but its own block. -/
def Obligations.RegisterWriteReadsBack : Prop :=
  ∀ (off bytes width : Nat), (off, bytes, width) ∈
      [(0x000038, 4, 26), (0x400000, 4, 9), (0x400100, 4, 32), (0x600020, 4, 16), (0x600200, 4, 6), (0x700068, 4, 13),
       (0x700100, 4, 10), (0x800300, 8, 39), (0x800320, 4, 7), (0x900020, 4, 27), (0x900078, 4, 14), (0x901000, 4, 9), (0xA00000, 4, 4), (0xA00100, 4, 6)] →
    ∀ (s : State) (v : BitVec 64), barFull s = true →
      ∃ t, exec (.registerWrite 0 off bytes v) s = .next t
        ∧ regVal t off = v.toNat % 2 ^ width
        ∧ t = { s with nmc := t.nmc, er := t.er, fab := t.fab, fl := t.fl, ms := t.ms, bd := t.bd, ts := t.ts }
        ∧ t.er.log = s.er.log ∧ t.fab.links = s.fab.links ∧ t.fl.chans = s.fl.chans ∧ t.ms.objs = s.ms.objs
        ∧ t.bd.positions = s.bd.positions ∧ t.ts.vocabs = s.ts.vocabs

/-- 02 R63; 03 R97: a write of BD_SLOT_QUERY updates BD_SLOT_FREE to the unowned and the base-layer slots of the path that it names, and to 0 for a path that does not exist; a write of BD_SQ_SEL updates BD_SQ_INFO to the Square that it selects, and a FILE above 16 reads as zeros apart from OWNER, 0x7F; neither changes anything else. -/
def Obligations.SlotAndSquareQueriesAnswer : Prop :=
  (∀ (s : State) (v : BitVec 64) (k p : Nat), barFull s = true → k = v.toNat % 16 → p = v.toNat / 16 % 1024 →
    ∃ t, exec (.registerWrite 0 0x900078 4 v) s = .next t
      ∧ t = { s with bd := { s.bd with slotKind := k, slotPath := p, slotAsked := true } }
      ∧ (pathsOf k ≤ p → regVal t 0x90007C = 0)
      ∧ (p < pathsOf k → regVal t 0x90007C = (slotsPerMove k - slotsOn (allRuns s) k p)
          + 2 ^ 13 * slotsOn (match s.bd.layer with | some b => b.runs | none => []) k p))
  ∧ (∀ (s : State) (v : BitVec 64), barFull s = true →
    ∃ t, exec (.registerWrite 0 0x901000 4 v) s = .next t
      ∧ t = { s with bd := { s.bd with sqSel := v.toNat % 512 } }
      ∧ (16 < v.toNat / 2 % 32 → regVal t 0x901008 = 0x7F)
      ∧ (v.toNat / 2 % 32 ≤ 16 → regVal t 0x901008 = sqInfo t))

/-- 00 R6, R7, R10; 11 R377; 13 R410: whatever a virtual function writes to its registers, no other tenant's control state, queues or meters, and none of the node's own registers, tables, memories, units or flash change, apart from the log of accesses that meet no register; an access of the physical function that meets no register at all, or is ill-formed, is counted and logged as BAR_UNIMPL with its offset and direction, and the node changes in nothing else. -/
def Obligations.RegisterAccessesStayConfined : Prop :=
  (∀ (s t : State) (fn off bytes : Nat) (v : BitVec 64), 1 ≤ fn → fn ≤ 64 → exec (.registerWrite fn off bytes v) s = .next t →
    (∀ u, u ≠ fn → getT t u = getT s u ∧ ∀ q, q < 64 → getQ t (.tenant u q) = getQ s (.tenant u q))
      ∧ getQ t .admin = getQ s .admin
      ∧ t.qe.descs = s.qe.descs
      ∧ t = { s with qe := t.qe, tenants := t.tenants, er := t.er, pw := { s.pw with alertN := t.pw.alertN }, out := t.out })
  ∧ (∀ (s : State) (off bytes : Nat) (write : Bool), barNmc s = true → unimplWords s 0 off bytes = [off] → (s.er.tail + 1) % 1024 ≠ s.er.head →
    ∃ t, exec (.barUnimpl 0 off bytes write) s = .next t
      ∧ tget 0 t.er.cnt 0 = satAdd 64 (tget 0 s.er.cnt 0) 1
      ∧ tget {} t.er.log s.er.tail = ⟨s.er.nextSeq, 0x0001, 2, 0, s.tempo, 0x06000000, off, if write then 1 else 0, 0⟩
      ∧ t.er.tail = (s.er.tail + 1) % 1024
      ∧ t = { s with er := t.er, pw := { s.pw with alertN := t.pw.alertN }, qe := { s.qe with msix := t.qe.msix }, out := t.out })

/-- 08 R241, R252, R253: a read of BAR4 returns, byte by byte, the bytes of the mapped T1 objects and 0 where nothing is mapped, which is logged as BAR_UNIMPL; a write within one mapped object replaces exactly its bytes; the window's size follows the resizable-BAR capability. -/
def Obligations.Bar4WindowAccess : Prop :=
  (∀ (s : State) (off n : Nat), barFull s = true → (∀ i o a, i < n → bar4At s (off + i) = some (o, a) → stackBad s o a 1 = none) →
    exec (.bar4Access off n none) s =
      .next (emit (if ∀ i, i < n → (bar4At s (off + i)).isSome = true then s else barUnimplEvent s 0 off false)
        (.barData ((List.range n).map (fun i => ((bar4At s (off + i)).map (fun x => memGet x.1.data x.2)).getD 0)))))
  ∧ (∀ (s : State) (off a : Nat) (o : Obj) (bs : List Byte), barFull s = true → s.ms.jobs = [] → bs ≠ [] →
    (∀ i, i < bs.length → bar4At s (off + i) = some (o, a + i)) →
    ∃ t o', exec (.bar4Access off 0 (some bs)) s = .next t
      ∧ findObj t o.tenant o.num = some o' ∧ o' = { o with hdr := o'.hdr, data := o'.data }
      ∧ (∀ i (h : i < bs.length), memGet o'.data (a + i) = bs[i])
      ∧ (∀ b, (b < a ∨ a + bs.length ≤ b) → memGet o'.data b = memGet o.data b)
      ∧ (∀ u k, (u ≠ o.tenant ∨ k ≠ o.num) → findObj t u k = findObj s u k)
      ∧ t = { s with ms := { s.ms with objs := t.ms.objs, badBursts := t.ms.badBursts, badRows := t.ms.badRows } })
  ∧ (∀ (s : State) (n : Nat), s.pw.hostUp = true → n ≤ 6 →
    exec (.resizableBar n) s = .next { s with ms := { s.ms with bar4Size := n } })

/-- 11 R344; 13 R410; 15 R473, R474: host data that a descriptor reads arrives at its address and nowhere else, and a host read that fails marks the descriptor and logs HOST_FAULT; a flash connector whose supply leaves the range has no channel fitted, and one with a carrier has its channels' dies. -/
def Obligations.HostReadAndCarrierSense : Prop :=
  (∀ (s : State) (q : QId) (seq addr : Nat) (data : List Byte) (d : Desc), wellFormed (.hostReadCompletion q seq addr data .success) = true →
    findDesc s q seq = some d → hostOpen s d.tenant = true →
    ∃ t, exec (.hostReadCompletion q seq addr data .success) s = .next t ∧ hostRead t addr data.length = data
      ∧ HostOutside s t addr data.length ∧ t = { s with hostMem := t.hostMem })
  ∧ (∀ (s : State) (q : QId) (seq addr : Nat) (data : List Byte) (st : HostReadStatus) (d : Desc), wellFormed (.hostReadCompletion q seq addr data st) = true →
    st ≠ .success → findDesc s q seq = some d → hostOpen s d.tenant = true →
    ∃ t, exec (.hostReadCompletion q seq addr data st) s = .next t
      ∧ (∃ x ∈ t.qe.descs, x.n = d.n ∧ x.hostFault = true) ∧ t.er.nextSeq = (s.er.nextSeq + 1) % 2 ^ 32
      ∧ t = { s with qe := { s.qe with descs := t.qe.descs, msix := t.qe.msix }, er := t.er, pw := { s.pw with alertN := t.pw.alertN }, out := t.out })
  ∧ (∀ (s : State) (conn : Nat) (carrier : Option (List CarrierCh)), wellFormed (.vccqSenseChange conn carrier) = true →
    ∃ t, exec (.vccqSenseChange conn carrier) s = .next t
      ∧ (∀ i, i < 8 → (getCh t (8 * conn + i)).dies = (match carrier with | none => 0 | some l => (l[i]?.map (fun c => c.dies)).getD 0))
      ∧ (∀ c, (c < 8 * conn ∨ 8 * conn + 8 ≤ c) → getCh t c = getCh s c)
      ∧ t = { s with fl := { s.fl with chans := t.fl.chans } })

/-! ### The fabric: manager commands, tempo, links, guard sets -/

/-- 10 R327, R328, R336: the NMC answers SET_NODE, SET_PATHS and QUERY with their TAG: done with their effect and nothing else, 1 where a Position is admitted, 2 for a number out of its field. -/
def Obligations.ManagerNodeCommands : Prop :=
  (∀ (s : State) (tag node domain : Nat) (standin : Bool), nmcRuns s = true →
    exec (.setNode tag node domain standin) s = .next
      (if 256 ≤ node ∨ 65536 ≤ domain then emit s (.answer tag 2)
       else if s.bd.positions ≠ [] then emit s (.answer tag 1)
       else emit { s with fab := { s.fab with
          node := if standin then 0 else node, domain := domain, assigned := !standin, standin := standin, pendingAdopt := none
          group := if standin then none else s.fab.group
          pendingGroup := if standin then none else s.fab.pendingGroup } } (.answer tag 0)))
  ∧ (∀ (s : State) (tag node : Nat) (mask : BitVec 24), nmcRuns s = true → node < 256 →
    exec (.setPaths tag node mask) s = .next (emit { s with fab := { s.fab with paths := tset s.fab.paths node mask.toNat } } (.answer tag 0)))
  ∧ (∀ (s : State) (tag : Nat), nmcRuns s = true →
    exec (.query tag) s = .next { s with out := s.out
      ++ [.queryReply ((List.range 24).map (fun l => ((getLink s l).st, (getLink s l).partner, (getLink s l).delay))), .answer tag 0] })

/-- 10 R327, R331, R337: SET_GROUP and ADOPT with well-formed arguments are done where nothing refuses them and wait for the move boundary; SET_GROUP is refused with a POS outside the group, in stand-in mode, and while a guard set is enabled unless it changes the LOST mask alone; ADOPT is refused outside stand-in mode or unsynchronised. -/
def Obligations.GroupCommandsWaitForBoundary : Prop :=
  (∀ (s : State) (tag : Nat) (cfg : GroupCfg), nmcRuns s = true → groupMalformed cfg = false →
    exec (.setGroup tag cfg) s = .next
      (if cfg.pos < cfg.gsize ∧ s.fab.standin = false ∧ (guardOn s = false ∨ changesGroup s cfg = false)
       then emit { s with fab := { s.fab with pendingGroup := some cfg } } (.answer tag 0) else emit s (.answer tag 1)))
  ∧ (∀ (s : State) (tag node : Nat) (cfg : GroupCfg), nmcRuns s = true → groupMalformed cfg = false → node < 256 → cfg.pos < cfg.gsize →
    exec (.adopt tag node cfg) s = .next
      (if s.fab.standin = true ∧ s.fab.synced = true
       then emit { s with fab := { s.fab with pendingAdopt := some (node, cfg) } } (.answer tag 0) else emit s (.answer tag 1)))
  ∧ (∀ (s : State) (tag : Nat) (cfg : GroupCfg), nmcRuns s = true → groupMalformed cfg = true → exec (.setGroup tag cfg) s = .next (emit s (.answer tag 2)))

/-- 10 R321: TEMPO_SET loads the counter with the carried count plus the link delay (in 1/256 tick; the delay counts 0.1 ns, of which a tick is 64), and is refused while a Position is admitted. -/
def Obligations.TempoSetOnlyWithoutPositions : Prop :=
  ∀ (s : State) (tag link count : Nat), nmcRuns s = true → count < 2 ^ 64 →
    (s.bd.positions = [] → exec (.tempoSet tag link count) s = .next (emit { s with
        tempo := (count + (getLink s link).delay / 64) % 2 ^ 64, tempoFrac := ((getLink s link).delay % 64 * 4 : Nat) } (.answer tag 0)))
    ∧ (s.bd.positions ≠ [] → exec (.tempoSet tag link count) s = .next (emit s (.answer tag 1)))

/-- 10 R318 to R320, R327: TEMPO_SOURCE names the sync link; a sync flit on it, once a base layer is active, sets the offset and SYNCED (within one tick) and slews the counter by at most 1/16 tick toward the master, and leaving one tick reports TEMPO_OFFSET once; losing the reference reports TEMPO_UNLOCK. -/
def Obligations.TempoFollowsMaster : Prop :=
  (∀ (s : State) (tag link : Nat), nmcRuns s = true → link < 24 →
    exec (.tempoSource tag link) s = .next (emit { s with fab := { s.fab with syncLink := link } } (.answer tag 0)))
  ∧ (∀ (s : State) (link count : Nat), link < 24 → (getLink s link).st = 2 → s.bd.layer ≠ none → s.fab.syncLink = link →
    ∃ u t, exec (.syncFlit link count) s = .next t ∧ t = { slew u (-(clampI (-16) 16 (masterOffset s link count))) with pending := s.pending }
      ∧ u.fab = { s.fab with offset := masterOffset s link count, synced := decide (-256 ≤ masterOffset s link count ∧ masterOffset s link count ≤ 256),
                             offOut := !decide (-256 ≤ masterOffset s link count ∧ masterOffset s link count ≤ 256) }
      ∧ ((-256 ≤ masterOffset s link count ∧ masterOffset s link count ≤ 256) ∨ s.fab.offOut = true → u.out = s.out ∧ u.er = s.er)
      ∧ (¬(-256 ≤ masterOffset s link count ∧ masterOffset s link count ≤ 256) → s.fab.offOut = false → ∃ more, u.out = s.out ++ .report 0x0062 [0, 0, 0] :: more)
      ∧ u = { s with fab := u.fab, er := u.er, pw := { s.pw with alertN := u.pw.alertN }, qe := { s.qe with msix := u.qe.msix }, out := u.out })
  ∧ (∀ (s : State) (link count : Nat), link < 24 → (getLink s link).st ≠ 2 ∨ s.bd.layer = none ∨ s.fab.syncLink ≠ link → exec (.syncFlit link count) s = .next s)
  ∧ (∀ (u : State) (d : Int), -256 < u.tempoFrac + d → u.tempoFrac + d < 256 → slew u d = { u with tempoFrac := u.tempoFrac + d })
  ∧ (∀ (s : State) (valid : Bool), s.pw.powered = true → s.fab.refOk ≠ valid →
    ∃ t, exec (.tempoRefChange valid) s = .next t ∧ t.fab = { s.fab with refOk := valid }
      ∧ (valid = false → ∃ more, t.out = s.out ++ .report 0x0063 [0, 0, 0] :: more) ∧ (valid = true → t.out = s.out ∧ t.er = s.er)
      ∧ t = { s with fab := t.fab, er := t.er, pw := { s.pw with alertN := t.pw.alertN }, qe := { s.qe with msix := t.qe.msix }, out := t.out })

/-- 10 R295, R298 to R300, R327, R328: LINK_CTRL moves a link to TRAINING, DISABLED or RETRAIN; training ends in UP with the partner's port and delay, or in DOWN with cause 1 after its time; eight failed replays take an UP link to DOWN with cause 2; each change is reported as LINK_STATE, and going DOWN ends every request that left on the link. -/
def Obligations.LinkStatesFollowCommands : Prop :=
  (∀ (s : State) (tag l : Nat), nmcRuns s = true → s.pw.linksOn = true → l < 24 →
    ((getLink s l).st = 0 ∨ (getLink s l).st = 4 → ∃ t, exec (.linkCtrlEnable tag l) s = .next t ∧ getLink t l = { getLink s l with st := 1 }
      ∧ (∃ more, t.out = s.out ++ .report 0x0060 [l, 1, 0] :: (more ++ [.answer tag 0]))
      ∧ (∀ k, k ≠ l → getLink t k = getLink s k) ∧ t = { s with fab := { s.fab with links := t.fab.links }, er := t.er, pw := { s.pw with alertN := t.pw.alertN }, qe := { s.qe with msix := t.qe.msix }, out := t.out })
    ∧ ((getLink s l).st ≠ 0 → ∃ t, exec (.linkCtrlDisable tag l) s = .next t ∧ getLink t l = { getLink s l with st := 0, cause := 3 }
      ∧ (∃ more, t.out = s.out ++ .report 0x0060 [l, 0, 3] :: (more ++ [.answer tag 0]))
      ∧ (∀ k, k ≠ l → getLink t k = getLink s k) ∧ t = { s with fab := { s.fab with links := t.fab.links }, er := t.er, pw := { s.pw with alertN := t.pw.alertN }, qe := { s.qe with msix := t.qe.msix }, out := t.out })
    ∧ ((getLink s l).st = 2 ∨ (getLink s l).st = 4 → ∃ t, exec (.linkCtrlRetrain tag l) s = .next t
      ∧ getLink t l = { getLink s l with st := 3 }
      ∧ (∀ k, k ≠ l → getLink t k = getLink s k) ∧ t = { s with fab := { s.fab with links := t.fab.links }, er := t.er, pw := { s.pw with alertN := t.pw.alertN }, qe := { s.qe with msix := t.qe.msix }, out := t.out }))
  ∧ (∀ (s : State) (l port delay : Nat), l < 24 → (getLink s l).st = 1 ∨ (getLink s l).st = 3 → (getLink s l).promote = none →
    ∃ t, exec (.linkUp l port delay) s = .next t
      ∧ getLink t l = { getLink s l with st := 2, partner := port % 256, delay := delay % 2 ^ 16, replays := 0 }
      ∧ (∃ more, t.out = s.out ++ .report 0x0060 [l, 2, 0] :: (more ++ (getLink s l).unacked.map (fun f => .flit l f)))
      ∧ (∀ k, k ≠ l → getLink t k = getLink s k)
      ∧ t = { s with fab := { s.fab with links := t.fab.links, cnt := t.fab.cnt }, cal := t.cal, er := t.er, pw := { s.pw with alertN := t.pw.alertN }, qe := { s.qe with msix := t.qe.msix }, out := t.out })
  ∧ (∀ (s : State) (l : Nat), l < 24 →
    ((getLink s l).st = 1 ∨ (getLink s l).st = 3 → ∃ t, exec (.linkTrainingTimeout l) s = .next t ∧ getLink t l = { getLink s l with st := 4, cause := 1, returns := (getLink t l).returns }
      ∧ (∀ k, k ≠ l → getLink t k = { getLink s k with returns := (getLink t k).returns }) ∧ (∀ r ∈ t.fab.reqs, r ∈ s.fab.reqs ∧ ¬ (r.link = l ∧ r.sent = true)))
    ∧ ((getLink s l).st = 2 → 8 ≤ (getLink s l).replays → ∃ t, exec (.linkRetryLimit l) s = .next t ∧ getLink t l = { getLink s l with st := 4, cause := 2, returns := (getLink t l).returns }
      ∧ (∀ k, k ≠ l → getLink t k = { getLink s k with returns := (getLink t k).returns }) ∧ (∀ r ∈ t.fab.reqs, r ∈ s.fab.reqs ∧ ¬ (r.link = l ∧ r.sent = true))))

/-- 10 R297, R298: a flit with a failed FEC codeword or CRC is asked for again by a retry request that names the next number due; a good one acknowledges what it names, and a data or control flit is delivered in sequence order only; a retry request replays every held flit from the number it names, in order. -/
def Obligations.FlitsDeliveredInOrder : Prop :=
  (∀ (s : State) (l : Nat) (f : Flit), l < 24 → flitOk f = true → (getLink s l).st = 2 → f.fecBad = true ∨ f.crc ≠ crc32 (flitBytes f) →
    ∃ t x, exec (.flitReceive l f) s = .next t ∧ t.out = s.out ++ [.flit l x] ∧ x.kind = 3 ∧ x.seq = (getLink s l).rxNext ∧ x.crc = crc32 (flitBytes x)
      ∧ getLink t l = { getLink s l with returns := (getLink t l).returns } ∧ (∀ k, k ≠ l → getLink t k = getLink s k)
      ∧ t = { s with fab := { s.fab with links := t.fab.links, cnt := t.fab.cnt }, out := t.out })
  ∧ (∀ (s : State) (l : Nat) (f : Flit), l < 24 → flitOk f = true → (getLink s l).st = 2 → f.fecBad = false → f.crc = crc32 (flitBytes f) →
    f.kind = 1 ∨ f.kind = 2 → s.bd.layer ≠ none →
    ∃ t, exec (.flitReceive l f) s = .next t
      ∧ (getLink t l).unacked = (getLink s l).unacked.filter (fun x => !flitUpTo x.seq f.ack)
      ∧ (getLink t l).rxNext = (if f.seq = (getLink s l).rxNext then ((getLink s l).rxNext + 1) % 4096 else (getLink s l).rxNext)
      ∧ (f.seq = (getLink s l).rxNext → t.out = s.out)
      ∧ (f.seq ≠ (getLink s l).rxNext → flitUpTo (getLink s l).rxNext f.seq = true → ∃ x, t.out = s.out ++ [.flit l x] ∧ x.kind = 3 ∧ x.seq = (getLink s l).rxNext)
      ∧ (∀ k, k ≠ l → getLink t k = getLink s k)
      ∧ t = { s with fab := { s.fab with links := t.fab.links, cnt := t.fab.cnt }, bd := { s.bd with streams := t.bd.streams }, out := t.out })
  ∧ (∀ (s : State) (l : Nat) (x : Flit) (pre post : List Flit), l < 24 → (getLink s l).st = 2 → (getLink s l).unacked = pre ++ x :: post → (∀ y ∈ pre, y.seq ≠ x.seq) →
    ∃ t, exec (.retryRequest l x.seq) s = .next t ∧ (getLink t l).unacked = x :: post
      ∧ t.out = s.out ++ (x :: post).map (fun f => .flit l f)
      ∧ (getLink t l).replays = (if pre = [] then (getLink s l).replays + 1 else 1)
      ∧ t = { s with fab := { s.fab with links := t.fab.links, cnt := t.fab.cnt }, out := t.out })

/-- 10 R331, R334, R335, R340: a command of the guard set that FAB_GUARD_SEL names: ENABLE fails with the code of its first failing check or starts a resync, DISABLE turns the set off, RESYNC and REBUILD start; for a set that is off they are checked as ENABLE is (the model's choice, log entry 35). A command that starts asks the other members for units in requests of its own and changes nothing else; a set whose command runs ignores the next. The end of a command that does not run, or waits for units, changes nothing; the end of one whose units have come fails with its code where the group is missing or a member was silent, else the stripes are recomputed in ascending order and the set becomes ON, or fails with the code of the first that cannot be. -/
def Obligations.GuardSetCommands : Prop :=
  let started := fun (s : State) (n st : Nat) (t : State) =>
    getGuard t n = { getGuard s n with st := st, running := true, units := 0, asked := (getGuard t n).asked, shards := [], silent := (getGuard t n).silent }
      ∧ (∀ k, k ≠ n → getGuard t k = getGuard s k)
      ∧ t.fab.reqs.length = s.fab.reqs.length + (getGuard t n).asked
      ∧ (∀ r ∈ t.fab.reqs, r ∈ s.fab.reqs ∨ (r.op = 6 ∧ r.tenant = (getGuard s n).tenant ∧ ∃ pos stripe, r.src = .guard n pos stripe))
      ∧ t = { s with fab := { s.fab with guards := t.fab.guards, reqs := t.fab.reqs, nextTag := t.fab.nextTag }, bd := { s.bd with streams := t.bd.streams } }
  (∀ (s : State) (peersAgree : Bool) (n : Nat), barFull s = true → n = s.fab.guardSel → (getGuard s n).running = false →
    (∀ e, guardFails s (getGuard s n) peersAgree = some e → exec (.guardEnable 0 peersAgree) s = .next (setGuard s n { getGuard s n with fail := true, err := e }))
    ∧ (guardFails s (getGuard s n) peersAgree = none → ∃ t, exec (.guardEnable 0 peersAgree) s = .next t ∧ started s n 1 t)
    ∧ exec (.guardDisable 0) s = .next (setGuard s n { getGuard s n with st := 0, done := true, err := 0 })
    ∧ ((getGuard s n).st ≠ 0 ∨ guardFails s (getGuard s n) true = none →
        (∃ t, exec (.guardResync 0) s = .next t ∧ started s n 1 t) ∧ (∃ t, exec (.guardRebuild 0) s = .next t ∧ started s n 3 t))
    ∧ (∀ e, (getGuard s n).st = 0 → guardFails s (getGuard s n) true = some e →
        exec (.guardResync 0) s = .next (setGuard s n { getGuard s n with fail := true, err := e })
        ∧ exec (.guardRebuild 0) s = .next (setGuard s n { getGuard s n with fail := true, err := e })))
  ∧ (∀ (s : State) (peersAgree : Bool), barFull s = true → (getGuard s s.fab.guardSel).running = true →
    exec (.guardEnable 0 peersAgree) s = .next s ∧ exec (.guardDisable 0) s = .next s ∧ exec (.guardResync 0) s = .next s ∧ exec (.guardRebuild 0) s = .next s)
  ∧ (∀ (s : State) (n u : Nat) (re : Bool), wellFormed (.guardCommandEnd n u re) = true →
    ((getGuard s n).running = false ∨ (getGuard s n).tenant ≠ u ∨ (re = true ↔ (getGuard s n).st ≠ 3) ∨ (getGuard s n).asked ≠ 0 ∨ flashWait s = true →
      exec (.guardCommandEnd n u re) s = .next s)
    ∧ ((getGuard s n).running = true → (getGuard s n).tenant = u → (re = true ↔ (getGuard s n).st = 3) → (getGuard s n).asked = 0 → flashWait s = false →
      (s.fab.group = none → exec (.guardCommandEnd n u re) s = .next (setGuard s n { getGuard s n with running := false, shards := [], fail := true, err := 3 }))
      ∧ (∀ x, s.fab.group = some x → (getGuard s n).silent = true →
          exec (.guardCommandEnd n u re) s = .next (setGuard s n { getGuard s n with running := false, shards := [], fail := true, err := 4 }))
      ∧ (∀ x r, s.fab.group = some x → (getGuard s n).silent = false →
          r = guardStripes (getGuard s n) x (guardUnits s (getGuard s n)) (getGuard s n).shards
                (List.range (x.gsize * ceilDiv (guardUnits s (getGuard s n)) (guardK x.gsize (getGuard s n).p))) s 0 →
          exec (.guardCommandEnd n u re) s = .next { setGuard r.1 n (if r.2.2 = 0
            then { getGuard s n with running := false, shards := [], st := 2, done := true, err := 0, units := r.2.1 }
            else { getGuard s n with running := false, shards := [], fail := true, err := r.2.2, units := r.2.1 }) with pending := s.pending })))

/-! ### Sideband, attestation -/

/-- 14 R453, R454, R459; 15 R478: every management message that reaches a running NMC is answered with its command byte and a status; WRITE is taken in recovery with 1 to 1,024 bytes inside the store, VERIFY in recovery, READ_REG of an NMC_ or PW_ register in every state, RESET outside sleep and WAKE in sleep, where it asserts WAKE_n; a 7-bit dynamic address is taken. -/
def Obligations.SidebandMessagesAnswered : Prop :=
  (∀ (s : State) (off : Nat) (bytes : List Byte), nmcRuns s = true →
    (s.nmc.recovery = true → bytes.length ≠ 0 → bytes.length ≤ 1024 → off + bytes.length ≤ 2 ^ 25 →
      ∃ t m len, exec (.sidebandWrite off bytes) s = .next t ∧ t.nmc.store = .bytes m len ∧ off + bytes.length ≤ len ∧ memRead m off bytes.length = bytes
        ∧ t.out = s.out ++ [.sideband [1, 0]] ∧ t = { s with nmc := { s.nmc with store := t.nmc.store, fwStored := t.nmc.fwStored }, out := t.out })
    ∧ (s.nmc.recovery = false → exec (.sidebandWrite off bytes) s = .next (emit s (.sideband [1, 1])))
    ∧ (s.nmc.recovery = true → bytes.length = 0 ∨ 1024 < bytes.length ∨ 2 ^ 25 < off + bytes.length → exec (.sidebandWrite off bytes) s = .next (emit s (.sideband [1, 2]))))
  ∧ (∀ s : State, nmcRuns s = true →
    exec .sidebandVerify s = .next (emit s (.sideband (if s.nmc.recovery then 2 :: 0 :: toLE 1 (match verifyStore s with | .ok _ => 0 | .error e => e) else [2, 1]))))
  ∧ (∀ (s : State) (off : Nat), nmcRuns s = true →
    exec (.readReg off) s = .next (emit s (.sideband (if sidebandReg off then 3 :: 0 :: 0 :: 0 :: toLE 8 (regVal s off) else [3, 2]))))
  ∧ (∀ s : State, nmcRuns s = true →
    (s.pw.pstate = 4 ∨ s.pw.pstate = 5 → exec .sidebandReset s = .next (emit s (.sideband [4, 1]))
      ∧ ∃ t, exec .sidebandWake s = .next t ∧ t = { s with pw := { s.pw with wakeN := true }, out := (if s.pw.wakeN then s.out else s.out ++ [.pin 1 true]) ++ [.sideband [5, 0]] })
    ∧ (s.pw.pstate ≠ 4 → s.pw.pstate ≠ 5 → exec .sidebandWake s = .next (emit s (.sideband [5, 1]))))
  ∧ (∀ (s : State) (addr : Nat), nmcRuns s = true → addr < 128 →
    exec (.setdasa addr) s = .next { s with pw := { s.pw with dynAddr := some addr } } ∧ exec (.entdaa addr) s = .next { s with pw := { s.pw with dynAddr := some addr } })

/-- 14 R455 to R457 (the request order, codes and body layouts are the model's, log entry 11): the responder answers on the transport of the request and keeps a connection state per transport; GET_VERSION, GET_CAPABILITIES (CERT, CHAL, MEAS) and NEGOTIATE_ALGORITHMS (Ed448 and SHA3-512 only) move it on; digests and certificates are those of slot 0; a measurement that is absent and a slot other than 0 are errors; any other request receives UnsupportedRequest. -/
def Obligations.SpdmRequestsAnswered : Prop :=
  (∀ (s : State) (pcie : Bool), nmcRuns s = true → (pcie = true → s.pw.hostUp = true) →
    (∃ t, exec (.getVersion pcie) s = .next t ∧ spdmConn t pcie = 1 ∧ spdmConn t (!pcie) = spdmConn s (!pcie)
      ∧ (∃ body, t.out = s.out ++ [.spdm pcie 0x04 body]) ∧ t = { s with pw := t.pw, out := t.out, freeCtr := t.freeCtr })
    ∧ (1 ≤ spdmConn s pcie → ∃ t, exec (.getCapabilities pcie) s = .next t ∧ spdmConn t pcie = 2 ∧ spdmConn t (!pcie) = spdmConn s (!pcie)
      ∧ (∃ body, t.out = s.out ++ [.spdm pcie 0x61 ([0x16, 0, 0, 0] ++ body)]) ∧ t = { s with pw := t.pw, out := t.out, freeCtr := t.freeCtr })
    ∧ (∀ asym hash, 2 ≤ spdmConn s pcie →
      (bit asym 11 = true → bit hash 5 = true → ∃ t, exec (.negotiateAlgorithms pcie asym hash) s = .next t ∧ spdmConn t pcie = 3
        ∧ (∃ body, t.out = s.out ++ [.spdm pcie 0x63 ([0, 8, 0, 0, 32, 0, 0, 0] ++ body)]) ∧ t = { s with pw := t.pw, out := t.out, freeCtr := t.freeCtr })
      ∧ (bit asym 11 = false ∨ bit hash 5 = false → exec (.negotiateAlgorithms pcie asym hash) s = .next (emit s (.spdm pcie 0x7F [1, 0]))))
    ∧ (3 ≤ spdmConn s pcie →
      exec (.getDigests pcie) s = .next (emit s (.spdm pcie 0x01 (1 :: sha3_512 (chainOf s))))
      ∧ (∀ off len, exec (.getCertificate pcie 0 off len) s = .next (emit s (if off < (chainOf s).length then .spdm pcie 0x02 (certPortion s off len) else .spdm pcie 0x7F [1, 0])))
      ∧ (∀ slot off len, slot ≠ 0 → exec (.getCertificate pcie slot off len) s = .next (emit s (.spdm pcie 0x7F [1, 0])))
      ∧ (∀ nonce, ∃ t sig, exec (.challenge pcie 0 nonce) s = .next t ∧ t.out = s.out ++ [.spdm pcie 0x03 (sha3_512 (chainOf s) ++ sig)] ∧ t = { s with out := t.out, freeCtr := t.freeCtr })
      ∧ (∀ index sign nonce, exec (.getMeasurements pcie index sign nonce) s = .next (emit s (match measurements s index with
          | none => .spdm pcie 0x7F [1, 0]
          | some b => .spdm pcie 0x60 (if sign then b ++ Config.sign (s.nmc.fwDigest.getD 0) (nonce ++ b) else b)))))
    ∧ (∀ code, exec (.unsupportedRequest pcie code) s = .next (emit s (.spdm pcie 0x7F (7 :: toLE 1 code))))
    ∧ (spdmConn s pcie = 0 → exec (.getCapabilities pcie) s = .next (emit s (.spdm pcie 0x7F [4, 0]))))
  ∧ (∀ s : State, s.nmc.recovery = true → ∀ i, Machine.measure s i ≠ none ↔ (i = 1 ∨ i = 3 ∨ i = 4))
  ∧ (∀ (s : State) (t : Nat), s.nmc.recovery = false → t ≤ 64 → (Machine.measure s (0x10 + t) = none ↔ posOf s t = none))

/-! ### Power, resets, sleep -/

/-- 14 R440, R441, R443, R448, R454, R463: a node function reset of an ACTIVE node, whatever its cause, clears the fast domains and keeps the host link, the T3 objects and the tempo domain; the stored image is verified again: if it passes, the node is ACTIVE with its links TRAINING and BOOT_CAUSE 2, else it is in recovery with the reason. -/
def Obligations.NodeFunctionResetClears : Prop :=
  ∀ s : State, s.pw.pstate = 2 → nmcRuns s = true →
    let after : State → Prop := fun t => FastCleared s t ∧ t.pw.hostUp = s.pw.hostUp ∧ t.nmc.bootCause = 2
      ∧ (match verifyStore s with
         | .ok i => t.pw.pstate = 2 ∧ t.nmc.ready = true ∧ t.nmc.recovery = false ∧ t.nmc.fwVersion = i.version ∧ ∀ l, l < 24 → (getLink t l).st = 1
         | .error e => t.pw.pstate = 0 ∧ t.nmc.ready = false ∧ t.nmc.recovery = true ∧ t.nmc.recovCause = e)
    (∀ v : BitVec 32, barNmc s = true → bit v.toNat 0 = true → v.toNat / 65536 = 0x4E46 → ∃ t, exec (.nodeFunctionReset (.register 0 v)) s = .next t ∧ after t)
    ∧ (s.pw.hostUp = true → ∃ t, exec (.nodeFunctionReset .physicalFlr) s = .next t ∧ after t)
    ∧ (∃ t, exec (.nodeFunctionReset .sideband) s = .next t ∧ after t)
    ∧ (∃ t, exec .sidebandReset s = .next t ∧ after t)

/-- 14 R434, R436, R440, R442, R444, R460; 15 R469, R477: losing the input, a PERST_n reset and the start after PERST_n is deasserted; a pulse under 200 ns is ignored; PERST_n in SLEEP_READY leads to ASLEEP and its release there wakes the node with BOOT_CAUSE 3; a power-on starts the counter at 0. -/
def Obligations.PowerAndPerstSequence : Prop :=
  (∀ s : State, s.pw.powered = true →
    ∃ t, exec .powerLoss s = .next t ∧ FastCleared s t ∧ t.pw.powered = false ∧ t.pw.perst = true ∧ t.pw.pstate = 0 ∧ t.pw.hostUp = false ∧ nmcRuns t = false)
  ∧ (∀ (s : State) (straps : Nat), straps < 4 → s.pw.powered = false →
    ∃ t, exec (.powerOnReset straps) s = .next t ∧ t.tempo = 0 ∧ t.tempoFrac = 0 ∧ t.pw.straps = straps ∧ t.pw.powered = true ∧ t.pw.perst = true
      ∧ t.cal.items = [] ∧ t.spare.lanes = [] ∧ t.spare.sramRows = [] ∧ t.spare.stackRows = s.spare.stackRows
      ∧ t.nmc.minSvn = s.nmc.minSvn ∧ t.nmc.store = s.nmc.store ∧ t.fl = s.fl ∧ t.ms = s.ms
      ∧ (Config.factoryRecordOk = true → t.er = {})
      ∧ (t.nmc.recovery = match verifyStore s with | .ok _ => false | .error _ => true) ∧ nmcRuns t = true)
  ∧ (∀ (s : State) (ns : Nat), s.pw.powered = true → s.pw.perst = false →
    (ns < 200 → exec (.perstNAssert ns) s = .next s)
    ∧ (200 ≤ ns → s.pw.pstate = 4 → exec (.perstNAssert ns) s = .next { s with pw := { s.pw with pstate := 5, perst := true, hostUp := false, spdmPcie := 0 } })
    ∧ (200 ≤ ns → s.pw.pstate ≠ 4 → s.pw.pstate ≠ 6 → ∃ t, exec (.perstNAssert ns) s = .next t ∧ FastCleared s t ∧ t.pw.perst = true ∧ t.pw.hostUp = false
        ∧ t.pw.pstate = 0 ∧ t.pw.linksOn = false ∧ t.pw.stacksOn = 0 ∧ t.pw.flashOn = false ∧ t.nmc.bootCause = 1
        ∧ (t.nmc.recovery = match verifyStore s with | .ok _ => false | .error _ => true)))
  ∧ (∀ (s : State) (ns : Nat), s.pw.powered = true → s.pw.perst = true →
    (ns < 200 → exec (.perstNDeassert ns) s = .next s)
    ∧ (200 ≤ ns → s.pw.pstate = 0 → nmcRuns s = true → s.nmc.recovery = false → ∃ t, exec (.perstNDeassert ns) s = .next t
        ∧ t.pw.pstate = 2 ∧ t.pw.perst = false ∧ t.pw.hostUp = true ∧ t.nmc.ready = true ∧ t.nmc.bootCause = s.nmc.bootCause ∧ (∀ l, l < 24 → (getLink t l).st = 1)
        ∧ t.bd = s.bd ∧ t.qe = { s.qe with msix := t.qe.msix } ∧ t.tenants = s.tenants ∧ t.squares = s.squares ∧ t.fl = s.fl ∧ t.tempo = s.tempo ∧ t.hostMem = s.hostMem)
    ∧ (200 ≤ ns → s.pw.pstate = 0 → nmcRuns s = true → s.nmc.recovery = true →
        exec (.perstNDeassert ns) s = .next { s with pw := { s.pw with perst := false, wakeN := false, hostUp := true } })
    ∧ (200 ≤ ns → s.pw.pstate = 5 → ∃ t, exec (.perstNDeassert ns) s = .next t ∧ t.pw.pstate = 2 ∧ t.pw.perst = false ∧ t.pw.wakeN = false ∧ t.nmc.bootCause = 3
        ∧ t.ms.objs = s.ms.objs ∧ t.bd.layer = s.bd.layer ∧ t.qe = {} ∧ t.tenants = [] ∧ t.meters = []))
  ∧ (∀ s : State, exec .hostLinkDown s = .next { s with pw := { s.pw with hostUp := false, spdmPcie := 0 } })
  ∧ (∀ s : State, s.pw.powered = true → s.pw.perst = false → s.pw.pstate = 2 → exec .hostLinkUp s = .next { s with pw := { s.pw with hostUp := true } })

/-- 14 R458 to R460: a sleep request of tenant 0 is refused with CONFIRM, POSITIONS or BUSY, in that order, else the node is QUIESCING; the end of quiescing leaves SLEEP_READY with every link DOWN and every fast domain but the host port off; WAKE with its CONFIRM returns to ACTIVE with BOOT_CAUSE 3, keeping objects, base layer, castling, promotions and the node's place in the fabric and clearing the queue engine, meters and token bindings; asleep, PME_Turn_Off is answered. -/
def Obligations.SleepAndWake : Prop :=
  (∀ (s : State) (v : BitVec 32), barNmc s = true → s.pw.pstate = 2 → bit v.toNat 0 = true → bit v.toNat 1 = false →
    exec (.sleep 0 v) s = .next (if v.toNat / 65536 ≠ 0x51EE then { s with pw := { s.pw with sleepFail := true, err := 3 } }
      else if s.bd.positions ≠ [] then { s with pw := { s.pw with sleepFail := true, err := 2 } }
      else if sleepBusy s then { s with pw := { s.pw with sleepFail := true, err := 1 } }
      else { s with pw := { s.pw with pstate := 3 } }))
  ∧ (∀ s : State, s.pw.pstate = 3 →
    ∃ t, exec .quiesceEnd s = .next t ∧ t.pw.pstate = 4 ∧ t.pw.linksOn = false ∧ t.pw.flashOn = false ∧ t.pw.bridgeOn = false ∧ t.pw.queueOn = false ∧ t.pw.tokenOn = false
      ∧ (∀ l, l < 24 → (getLink t l).st = 4) ∧ (∀ e ∈ t.ms.stackState, e.2 = 3))
  ∧ (∀ (s : State) (v : BitVec 32), barNmc s = true → s.pw.pstate = 4 → bit v.toNat 1 = true → bit v.toNat 0 = false → v.toNat / 65536 = 0x51EE →
    ∃ t, exec (.wake 0 v) s = .next t ∧ t.pw.pstate = 2 ∧ t.nmc.ready = true ∧ t.nmc.bootCause = 3 ∧ (∀ l, l < 24 → (getLink t l).st = 1)
      ∧ t.ms.objs = s.ms.objs ∧ t.indexes = s.indexes ∧ t.bd.layer = s.bd.layer ∧ t.spare.lanes = s.spare.lanes ∧ t.spare.sramRows = s.spare.sramRows
      ∧ (∀ r, (getRank t r).castled = (getRank s r).castled)
      ∧ t.fab = { s.fab with links := t.fab.links } ∧ t.qe = {} ∧ t.tenants = [] ∧ t.meters = [] ∧ t.ts.vocabs = [] ∧ t.ts.grams = []
      ∧ (s.pw.sleepFmt = carrierView s → t.fl = s.fl) ∧ t.tempo = s.tempo ∧ t.hostMem = s.hostMem)
  ∧ (∀ s : State, s.pw.pstate = 4 ∨ s.pw.pstate = 5 → exec .pmeTurnOff s = .next (emit s .pmeToAck))

/-- 09 R284, R285; 13 R414 to R416, R426, R427; 14 R436: a reading of a powered sensor below its trip threshold is recorded with the user offset added and clamped; one of a flash die is recorded, and an upward crossing of TEMP_C warns once, until the die is 5 °C below; at or above the threshold the node is TRIPPED with every fast domain cleared; an input current above 34.0 A for 20 µs shuts down in the same way, and a shorter or smaller one is only recorded. -/
def Obligations.SensorsAndTrips : Prop :=
  (∀ (s : State) (n : Nat) (raw : Int), n < 24 → s.pw.powered = true → s.pw.pstate ≠ 6 → sensorOn s n = true → raw < tripLimit n →
    ∃ t, exec (.sensorReading (.module n) raw) s = .next t ∧ (sensorOf t n).raw = raw ∧ (sensorOf t n).effective = effectiveOf s n raw ∧ (sensorOf t n).valid = true
      ∧ (∀ m, m ≠ n → sensorOf t m = sensorOf s m) ∧ t.pw.pstate = s.pw.pstate
      ∧ t = { s with er := t.er, cal := t.cal, ms := { s.ms with stackTemp := t.ms.stackTemp }, pw := { s.pw with alertN := t.pw.alertN }, qe := { s.qe with msix := t.qe.msix }, out := t.out })
  ∧ (∀ (s : State) (n : Nat) (raw : Int), n < 24 → s.pw.powered = true → s.pw.pstate ≠ 6 → sensorOn s n = true → tripLimit n ≤ raw →
    ∃ t, exec (.sensorReading (.module n) raw) s = .next t ∧ FastCleared s t ∧ t.pw.pstate = 6 ∧ t.pw.tripCause = 1 ∧ t.er.thermalTrip = true ∧ t.er.tripSensor = n ∧ t.pw.hostUp = false)
  ∧ (∀ (s : State) (c chip : Nat) (e : Int), wellFormed (.sensorReading (.die c chip) e) = true → s.pw.powered = true → s.pw.flashOn = true → dieFitted s c chip = true →
    ∃ t, exec (.sensorReading (.die c chip) e) s = .next t
      ∧ getDie (getCh t c) chip = { getDie (getCh s c) chip with
          temp := min 255 (e / 8).toNat
          tempWarned := if (getDie (getCh s c) chip).tempWarned then decide (s.fl.ewTemp * 8 - 40 < e) else decide (s.fl.ewTemp * 8 ≤ e) }
      ∧ t.er.nextSeq = (if (getDie (getCh s c) chip).tempWarned = false ∧ s.fl.ewTemp * 8 ≤ e then (s.er.nextSeq + 1) % 2 ^ 32 else s.er.nextSeq)
      ∧ (∀ k, k ≠ c → getCh t k = getCh s k)
      ∧ t = { s with fl := { s.fl with chans := t.fl.chans }, er := t.er, pw := { s.pw with alertN := t.pw.alertN }, qe := { s.qe with msix := t.qe.msix }, out := t.out })
  ∧ (∀ (s : State) (amps us : Nat), s.pw.powered = true → 340 < amps → 20 ≤ us → s.pw.pstate ≠ 0 → s.pw.pstate ≠ 6 →
    ∃ t, exec (.overcurrent amps us) s = .next t ∧ FastCleared s t ∧ t.pw.pstate = 6 ∧ t.pw.tripCause = 2 ∧ t.er.overcurrent = true ∧ t.pw.hostUp = false)
  ∧ (∀ (s : State) (amps us : Nat), s.pw.powered = true → amps ≤ 340 ∨ us < 20 →
    exec (.overcurrent amps us) s = .next { s with pw := { s.pw with current := min amps 65535 } })

/-- 02 R28; 03 R80, R81, R86, R98; 14 R438, R439: PW_RANK_REQ holds what tenant 0 writes; at the next move boundary a rank that nothing needs and whose bit was written 1 goes off and loses its contexts and SRAM, one whose bit is 0 comes back with its clock stopped, and every other rank stays; a running rank idle for a whole 256 ticks stops unless it holds a castling, with its PLL unless the base layer keeps it warm; a stopped rank that a token from outside it waits for starts, and one that starts runs once its PLL has locked. -/
def Obligations.RankPowerAndClock : Prop :=
  (∀ (s : State) (v : BitVec 32), barNmc s = true →
    exec (.rankPowerRequest 0 v) s = .next { s with pw := { s.pw with rankReq := v.truncate 16, rankAsked := true } })
  ∧ (∀ s : State, atBoundary s = true → s.pw.pstate = 2 →
    ∃ t, exec .rankPowerBoundary s = .next t
      ∧ (∀ r, r < 16 → getRank t r =
          if s.pw.rankReq.getLsbD r then
            (if s.pw.rankAsked = true ∧ (getRank s r).pwrOff = false ∧ rankFree s r = true then { getRank s r with clock := 0, pll := false, pwrOff := true, idle := 0 } else getRank s r)
          else if (getRank s r).pwrOff then { getRank s r with clock := 0, pll := warmRank s r, pwrOff := false, idle := 0 } else getRank s r)
      ∧ (∀ e ∈ t.squares, rankOfSq e.1 < 16 → ¬((getRank t (rankOfSq e.1)).pwrOff = true ∧ (getRank s (rankOfSq e.1)).pwrOff = false))
      ∧ t = { s with ranks := t.ranks, squares := t.squares, pw := { s.pw with rankAsked := false } })
  ∧ (∀ (s : State) (r : Nat), r < 16 → (getRank s r).clock = 2 → 256 ≤ (getRank s r).idle → rankIdle s r = true → castlingIn s r = false →
    exec (.rankClockStop r) s = .next (setRank s r { getRank s r with clock := 0, idle := 0, pll := warmRank s r }))
  ∧ (∀ (s : State) (r : Nat), r < 16 → (getRank s r).pwrOff = false →
    ((getRank s r).clock = 1 → exec (.rankClockStart r) s = .next (setRank s r { getRank s r with clock := 2, idle := 0, pll := true }))
    ∧ ((getRank s r).clock = 0 → tokenFor s r = true → exec (.rankClockStart r) s = .next (setRank s r { getRank s r with clock := 1, idle := 0 })))

/-- 14 R449, R451 to R453: LOAD_FIRMWARE of an image that passes every check writes it to the store, raises MIN_SVN only when asked, leaves the running image alone and completes with DONE; one that fails a check completes with MALFORMED and the reason and leaves the store; the recovery load does the same with its own result field; the watchdog restarts the verified image and changes nothing else. -/
def Obligations.FirmwareLoads : Prop :=
  (∀ (s : State) (seq : Nat) (d : Desc) (img : List Byte), dueDesc s .admin seq 0x86 = some d → d.hostFault = false → hostOpen s 0 = true →
    dfield d 16 8 % 4096 = 0 → dfield d 24 4 ≤ 2 ^ 25 → img = hostRead s (dfield d 16 8) (dfield d 24 4) → fieldAt img 8 4 = dfield d 24 4 →
    ∃ t, exec (.loadFirmware seq true) s = .next t
      ∧ (match verifyImage s.nmc.minSvn img (dfield d 24 4) with
         | .ok i =>
           if bit (dfield d 28 1) 0 = true ∧ s.nmc.raisesLeft = 0 then Completed s d 0x15 7 t ∧ OnlyQueues s t
           else Completed s d 0x00 0 t ∧ t.nmc.store = .bytes (cellsOf 0 img) img.length
             ∧ t.nmc.minSvn = (if bit (dfield d 28 1) 0 = true ∧ s.nmc.minSvn < i.svn then i.svn else s.nmc.minSvn)
             ∧ t.nmc.fwVersion = s.nmc.fwVersion ∧ t.nmc.fwDigest = s.nmc.fwDigest ∧ t.hostMem = s.hostMem
         | .error e => Completed s d 0x15 e t ∧ OnlyQueues s t))
  ∧ (∀ (s : State) (img : List Byte), s.pw.hostUp = true → s.nmc.recovery = true → 4096 ≤ s.nmc.recovLen → s.nmc.recovLen ≤ 2 ^ 25 →
    img = hostRead s (s.nmc.recovAddr * 4096) s.nmc.recovLen → fieldAt img 8 4 = s.nmc.recovLen →
    ∃ t, exec (.recoveryLoad 0 true) s = .next t
      ∧ (match verifyImage s.nmc.minSvn img s.nmc.recovLen with
         | .ok _ => t.nmc.store = .bytes (cellsOf 0 img) img.length ∧ t.nmc.recovDone = true ∧ t.nmc.recovErr = 0
         | .error e => t.nmc.store = s.nmc.store ∧ t.nmc.recovFail = true ∧ t.nmc.recovErr = e)
      ∧ t.nmc.recovery = true ∧ t = { s with nmc := t.nmc })
  ∧ (∀ s : State, s.pw.powered = true → s.nmc.fwDigest ≠ none →
    exec .watchdogExpiry s = .next { s with nmc := { s.nmc with restarts := satAdd 16 s.nmc.restarts 1 } })

/-- 13 R426, R428: SET_CAL of an item that exists, with an offset inside its range, stores the offset as pending and completes with DONE; ZERO stores 0; the effective value is the factory value plus the offset, clamped to the item's range; otherwise it completes with MALFORMED and DETAIL 0x12 and no offset changes. -/
def Obligations.SetCalStoresTheOffset : Prop :=
  (∀ (s : State) (seq : Nat) (d : Desc), dueDesc s .admin seq 0x85 = some d → (∀ x ∈ s.qe.descs, x.n < d.n → descOp x ≠ 0x85) →
    let item := dfield d 16 1
    let sub := dfield d 17 1
    let idx := dfield d 18 2
    let off : Int := if bit (dfield d 22 1) 0 then 0 else ofBits 16 (dfield d 20 2)
    (calItemOk s item sub idx = true → -calOffsetMax item ≤ off → off ≤ calOffsetMax item →
      ∃ t, exec (.setCal seq) s = .next t ∧ Completed s d 0x00 0 t ∧ calEntry t (calKey item sub idx) = { offset := off, pending := true }
        ∧ calEffective t item sub idx = clampI (calRange item sub).1 (calRange item sub).2 (calFactory s item sub idx + off)
        ∧ (∀ k, k ≠ calKey item sub idx → calEntry t k = calEntry s k)
        ∧ t = { s with qe := t.qe, squares := t.squares, cal := { s.cal with items := t.cal.items }, er := t.er, pw := { s.pw with alertN := t.pw.alertN },
                       out := t.out, bd := { s.bd with streams := t.bd.streams }, fab := { s.fab with sent := t.fab.sent } })
    ∧ (calItemOk s item sub idx = false ∨ off < -calOffsetMax item ∨ calOffsetMax item < off →
      ∃ t, exec (.setCal seq) s = .next t ∧ Completed s d 0x15 0x12 t ∧ OnlyQueues s t))
  ∧ (∀ lo hi v : Int, lo ≤ hi → lo ≤ clampI lo hi v ∧ clampI lo hi v ≤ hi ∧ (lo ≤ v → v ≤ hi → clampI lo hi v = v))

/-! ### Flash media -/

/-- 09 R255, R259 to R262, R267, R293: FORMAT is refused with CONFIRM, BUSY, GEOMETRY or CAPACITY, in that order, and else runs; its end refuses a capacity below the base layer's CAP_T3 and restores the state before it, or leaves every populated channel with an empty map, its format record and one root of the new FMT_ID, no superblock, no T3 object, and the flash READY. -/
def Obligations.FormatOfTheFlash : Prop :=
  (∀ (s : State) (v : BitVec 32), barFull s = true → bit v.toNat 0 = true →
    exec (.format 0 v) s = .next (
      if bits v.toNat 16 16 ≠ 0xF1A5 then { s with fl := { s.fl with fail := true, err := 5 } }
      else if s.bd.layer = none ∨ s.bd.positions ≠ [] ∨ s.fl.fstate = 3 ∨ s.fl.fstate = 4 then { s with fl := { s.fl with fail := true, err := 1 } }
      else if geometryOk s (widthOf s.fl.stripeW) s.fl.opPct = false then { s with fl := { s.fl with fail := true, err := 2 } }
      else if 64 * 10 ^ 12 < rawCapacity s then { s with fl := { s.fl with fail := true, err := 3 } }
      else { s with fl := { s.fl with fstate := 3, format := some (widthOf s.fl.stripeW, s.fl.opPct, s.fl.fstate) } }))
  ∧ (∀ (s : State) (bad : List (Nat × Nat × Nat)) (w op prior need cap : Nat), s.fl.format = some (w, op, prior) →
    need = (match s.bd.layer with | some b => b.capT3 | none => 0) →
    cap = ((fittedChans (markBad s bad)).map (fun c => luOf (markBad s bad) w op c * 16384)).sum →
    (cap < need → exec (.formatEnd bad) s = .next { s with fl := { s.fl with fstate := prior, format := none, fail := true, err := 3 } })
    ∧ (need ≤ cap → s.fab.flashHeld = [] → ∃ t, exec (.formatEnd bad) s = .next t
        ∧ t.fl.fmtW = w ∧ t.fl.fmtOp = op ∧ t.fl.fmtId = Config.fmtId s.freeCtr ∧ t.fl.fstate = 5 ∧ t.fl.done = true ∧ t.fl.err = 0 ∧ t.fl.format = none
        ∧ t.fl.supers = [] ∧ t.fl.badCw = [] ∧ t.fl.retained = []
        ∧ t.ms.objs = s.ms.objs.filter (fun o => o.tier != 3)
        ∧ (∀ c ∈ fittedChans s, (getCh t c).map = [] ∧ (getCh t c).pages = [] ∧ (getCh t c).ckptNum = (getCh s c).ckptNum + 1 ∧ (getCh t c).fmt = some ⟨w, op, t.fl.fmtId⟩
            ∧ ∃ r, (getCh t c).roots = [r] ∧ r.num = (getCh s c).ckptNum + 1 ∧ r.seq = (getCh s c).seq ∧ r.segs = [] ∧ r.supers = [] ∧ r.opens = [] ∧ r.fmtId = t.fl.fmtId)
        ∧ t = { s with fl := t.fl, ms := { s.ms with objs := t.ms.objs }, freeCtr := s.freeCtr + 1, er := t.er, pw := { s.pw with alertN := t.pw.alertN }, qe := { s.qe with msix := t.qe.msix }, out := t.out }))

/-- 09 R286, R287: CHECKPOINT_FORCE makes a checkpoint due on every populated channel and on no other; a checkpoint that is due programs the segments that have changed and leaves a newest root with the next number, the sequence number at its start, the segments' pages, the superblocks, the open blocks and the queues of at most 16 free blocks, adds no other root, and clears what had changed; where a segment's page finds no block, nothing is recorded and it stays due. -/
def Obligations.CheckpointsOfChannels : Prop :=
  (∀ s : State, barFull s = true →
    ∃ t, exec (.checkpointForce 0) s = .next t
      ∧ (∀ c, getCh t c = if c ∈ fittedChans s then { getCh s c with force := true } else getCh s c)
      ∧ t = { s with fl := { s.fl with chans := t.fl.chans } })
  ∧ (∀ (s : State) (c : Nat), c < 64 → flashReady s = false ∨ checkpointDue s c = false → exec (.checkpoint c) s = .next s)
  ∧ (∀ (s : State) (c : Nat), c < 64 → flashReady s = true → checkpointDue s c = true →
    (programSegs c (getCh s c) s (getCh s c).dirty = none → exec (.checkpoint c) s = .next s)
    ∧ (∀ u, programSegs c (getCh s c) s (getCh s c).dirty = some u →
      ∃ t r rest, exec (.checkpoint c) s = .next t
        ∧ (getCh t c).roots = r :: rest ∧ (∀ x ∈ rest, x ∈ (getCh s c).roots)
        ∧ r.num = (getCh s c).ckptNum + 1 ∧ r.seq = (getCh s c).seq ∧ r.fmtId = s.fl.fmtId ∧ r.segs = (getCh u c).segs
        ∧ r.supers = u.fl.supers.filter (fun x => x.g == c / s.fl.fmtW) ∧ r.opens = openBlocks u c ∧ (∀ e ∈ r.queues, e.2.length ≤ 16)
        ∧ (getCh t c).queue = r.queues ∧ (getCh t c).segs = (getCh u c).segs
        ∧ (getCh t c).ckptNum = (getCh s c).ckptNum + 1 ∧ (getCh t c).ckptTick = s.tempo ∧ (getCh t c).since = 0 ∧ (getCh t c).force = false ∧ (getCh t c).dirty = []
        ∧ t = { s with fl := t.fl }))

/-- 09 R274 to R277: the parity page of a protected stripe holds the exclusive-or of the stripe's data areas and headers; the oldest open stripe of a group closes when its time is up, at once where every data member has reached it; a failed parity page is gone and its stripe and every later one of the superblock are unprotected; a failed data page is gone and its data is programmed anew. -/
def Obligations.StripeParityAndProgramFailure : Prop :=
  (∀ (s : State) (x : Super), x.closed < x.unprotectedFrom →
    ∃ p, findPage (closeParity s x) (s.fl.fmtW * x.g + parityMember s.fl.fmtW x) (memberKey s s.fl.fmtW x (parityMember s.fl.fmtW x) x.closed) = some p
      ∧ p.kind = 1 ∧ p.lu = 0xFFFFFFFF ∧ p.sb = x.num
      ∧ p.data = (stripePages s s.fl.fmtW x x.closed).foldl (fun a q => memXor a q.data) []
      ∧ p.hdrXor = (stripePages s s.fl.fmtW x x.closed).foldl (fun a q => xorBytes a (headerBytes q)) (zeros 64))
  ∧ (∀ (s : State) (g d : Nat) (x : Super), g < 64 → d < 9 → flashReady s = true → oldestOpen s g d = some x → closeTicks s ≤ s.tempo - x.opened.headD 0 →
    ∃ t, exec (.stripeCloseTimer g d) s = .next t
      ∧ (findSuper s x.g x.d x.num = some x → openStripes x ≠ 0 → (∀ m ∈ dataMembers s.fl.fmtW x, x.closed < memberNext x m ∨ memberAbsent x m ≤ memberNext x m) → t = { closeParity s x with pending := s.pending })
      ∧ t = { s with fl := t.fl })
  ∧ (∀ (s : State) (c chip page m k : Nat) (x : Super) (p : Page), c < 64 → chip < 9 → stripeOf s c chip page = some (x, m, k) →
    findPage s c (pageKey chip page) = some p → memberNext x m = k + 1 →
    (m = parityMember s.fl.fmtW x → ∃ t, exec (.programFail c chip page) s = .next t
      ∧ findPage t c (pageKey chip page) = none ∧ tget 0 t.fl.cnt 5 = satAdd 64 (tget 0 s.fl.cnt 5) 1
      ∧ t.fl.supers = s.fl.supers.map (fun y => if sameSuper y x then { x with unprotectedFrom := min x.unprotectedFrom k, retiredOpen := true } else y)
      ∧ t = { s with fl := t.fl, er := t.er, pw := { s.pw with alertN := t.pw.alertN }, qe := { s.qe with msix := t.qe.msix }, out := t.out })
    ∧ (m ≠ parityMember s.fl.fmtW x → ∃ u, findPage u c (pageKey chip page) = none ∧ tget 0 u.fl.cnt 5 = satAdd 64 (tget 0 s.fl.cnt 5) 1
      ∧ u = { s with fl := { s.fl with chans := u.fl.chans, cnt := u.fl.cnt }, er := u.er, pw := { s.pw with alertN := u.pw.alertN }, qe := { s.qe with msix := u.qe.msix }, out := u.out }
      ∧ exec (.programFail c chip page) s = .next { dataFailed u x m k p c x.d with pending := s.pending }))

/-- 09 R270 to R272, R281, R284, R285: a block that fails to erase is bad from then on, and is counted and logged; a die that shows no ready status is degraded; a codeword read is counted, as is its retry, its rebuild from the other pages of its stripe, or its failure, which is logged, and no read changes a page; the retry window of a die starts anew after 2^20 reads. -/
def Obligations.BlocksDiesAndCodewords : Prop :=
  (∀ (s : State) (c chip b : Nat), c < 64 → chip < 9 → s.fl.fmtW ≠ 0 → dieFitted s c chip = true → b ∈ freeBlocks s c chip →
    ∃ t, exec (.eraseFail c chip b) s = .next t
      ∧ (getBlock (getCh t c) chip b).bad = true ∧ (getDie (getCh t c) chip).retired = (getDie (getCh s c) chip).retired + 1
      ∧ (∀ b', b' ≠ b → getBlock (getCh t c) chip b' = getBlock (getCh s c) chip b')
      ∧ tget 0 t.fl.cnt 7 = satAdd 64 (tget 0 s.fl.cnt 7) 1 ∧ t.er.retired = true
      ∧ t = { s with fl := t.fl, er := t.er, pw := { s.pw with alertN := t.pw.alertN }, qe := { s.qe with msix := t.qe.msix }, out := t.out })
  ∧ (∀ (s : State) (c chip : Nat), c < 64 → chip < 9 → dieFitted s c chip = true →
    ∃ t, exec (.dieReadyTimeout c chip) s = .next t ∧ (getDie (getCh t c) chip).degraded = true
      ∧ ((getDie (getCh s c) chip).degraded = true → t = s)
      ∧ t = { s with fl := { s.fl with chans := t.fl.chans }, er := t.er, pw := { s.pw with alertN := t.pw.alertN }, qe := { s.qe with msix := t.qe.msix }, out := t.out })
  ∧ (∀ (s : State) (c chip page cw : Nat) (res : CwOutcome), wellFormed (.codewordRead c chip page cw res) = true →
    (dieFitted s c chip = false ∨ programmed s c (pageKey chip page) = false → exec (.codewordRead c chip page cw res) s = .next s)
    ∧ (dieFitted s c chip = true → programmed s c (pageKey chip page) = true → page < 2 ^ 23 →
      ∃ t, exec (.codewordRead c chip page cw res) s = .next t
        ∧ (getDie (getCh t c) chip).reads = (getDie (getCh s c) chip).reads + 1
        ∧ (∀ k, (getCh t k).pages = (getCh s k).pages ∧ (getCh t k).map = (getCh s k).map)
        ∧ (∀ n, res = .decoded n → (getDie (getCh t c) chip).retries = (getDie (getCh s c) chip).retries + (if n = 0 then 0 else 1)
            ∧ tget 0 t.fl.cnt 0 = satAdd 64 (tget 0 s.fl.cnt 0) 1
            ∧ tget 0 t.fl.cnt 1 = (if n = 0 then tget 0 s.fl.cnt 1 else satAdd 64 (tget 0 s.fl.cnt 1) 1) ∧ t.er = s.er ∧ cwSet t c (pageKey chip page) cw = min n 15)
        ∧ (res = .rebuilt → cwLost t c (pageKey chip page) cw = true
            ∧ ((readCw (setCw s c (pageKey chip page) cw 16) c (pageKey chip page) cw).2.isSome = true → tget 0 t.fl.cnt 2 = satAdd 64 (tget 0 s.fl.cnt 2) 1 ∧ t.er = s.er)
            ∧ ((readCw (setCw s c (pageKey chip page) cw 16) c (pageKey chip page) cw).2 = none →
                tget 0 t.fl.cnt 3 = satAdd 64 (tget 0 s.fl.cnt 3) 1 ∧ tget 0 t.fl.cnt 2 = tget 0 s.fl.cnt 2 ∧ t.er.nextSeq = (s.er.nextSeq + 1) % 2 ^ 32))
        ∧ (res = .lost → tget 0 t.fl.cnt 3 = satAdd 64 (tget 0 s.fl.cnt 3) 1 ∧ t.er.nextSeq = (s.er.nextSeq + 1) % 2 ^ 32 ∧ cwLost t c (pageKey chip page) cw = true)
        ∧ t = { s with fl := { s.fl with chans := t.fl.chans, cnt := t.fl.cnt, badCw := t.fl.badCw }, cal := t.cal, er := t.er, pw := { s.pw with alertN := t.pw.alertN }, qe := { s.qe with msix := t.qe.msix }, out := t.out }))
  ∧ (∀ (s : State) (c chip : Nat), c < 64 → chip < 9 → 2 ^ 20 ≤ (getDie (getCh s c) chip).reads →
    ∃ t, exec (.retryWindowEnd c chip) s = .next t
      ∧ (getDie (getCh t c) chip).reads = (getDie (getCh s c) chip).reads - 2 ^ 20 ∧ (getDie (getCh t c) chip).retries = 0
      ∧ t.er.nextSeq = (if s.fl.ewRetry * 2 ^ 20 < (getDie (getCh s c) chip).retries * 10 ^ 6 then (s.er.nextSeq + 1) % 2 ^ 32 else s.er.nextSeq))

/-- 09 R278, R279: garbage collection takes, of the group's superblocks whose stripes are all closed, one with the fewest valid and retained pages, or with the lowest erase count where a die's wear is uneven; one that holds none of them, and nothing else that a recovery needs (the model's choice, log entry 69), is erased: it leaves the superblock table and none of its pages stays. -/
def Obligations.GarbageCollectionReclaims : Prop :=
  (∀ (s : State) (g d : Nat) (x : Super), gcChoice s g d = some x →
    x ∈ s.fl.supers ∧ x.g = g ∧ x.d = d ∧ superDone s.fl.fmtW x = true
      ∧ ∀ y ∈ s.fl.supers, y.g = g → y.d = d → superDone s.fl.fmtW y = true →
          (if wearUneven s g d then superErases s x ≤ superErases s y else keptPages s x ≤ keptPages s y))
  ∧ (∀ (s : State) (g d : Nat) (x : Super), g < 64 → d < 9 → flashReady s = true → gcChoice s g d = some x → keptPages s x = 0 → (∀ m, m < s.fl.fmtW → needsCheckpoint s x m = false) →
    ∃ t, exec (.garbageCollection g d) s = .next t
      ∧ t.fl.supers = s.fl.supers.filter (fun y => !sameSuper x y)
      ∧ (∀ m, m < s.fl.fmtW → ∀ e ∈ (getCh t (s.fl.fmtW * x.g + m)).pages,
          e.1 < pageKey (memberChip x m) (memberBlock x m * pagesOf (getCh s (s.fl.fmtW * x.g + m)))
          ∨ pageKey (memberChip x m) (memberBlock x m * pagesOf (getCh s (s.fl.fmtW * x.g + m))) + pagesOf (getCh s (s.fl.fmtW * x.g + m)) ≤ e.1)
      ∧ t = { s with fl := t.fl, er := t.er, pw := { s.pw with alertN := t.pw.alertN }, qe := { s.qe with msix := t.qe.msix }, out := t.out })

/-- 09 R287, R289 to R291: a recovery takes each populated channel's newest root of the format whose pages decode, an older one where a page of it does not, and then notes it; a channel without one fails the recovery with ERR 4; else the channel's map is that of the root's segments and of the later pages found in the root's open blocks and queues, an interrupted program at their end left out; and at its end the flash is READY. -/
def Obligations.FlashRecoveryRebuildsTheMap : Prop :=
  (∀ s : State, s.fl.fstate = 4 → s.fl.replayed = false → s.fab.flashHeld = [] → (∃ c ∈ fittedChans s, ∀ r ∈ (getCh s c).roots, r.fmtId ≠ s.fl.fmtId) →
    ∃ t, exec .flashRecovery s = .next t ∧ t.fl.fstate = 6 ∧ t.fl.fail = true ∧ t.fl.err = 4 ∧ t.fl.supers = s.fl.supers ∧ (∀ c, (getCh t c).pages = (getCh s c).pages)
      ∧ t = { s with fl := t.fl, cal := t.cal })
  ∧ (∀ s : State, s.fl.fstate = 4 → s.fl.replayed = false → (replayAll s).2 = true →
    ∃ t, exec .flashRecovery s = .next t ∧ t.fl.replayed = true ∧ t.fl.fstate = 4 ∧ t = { s with fl := t.fl, cal := t.cal })
  ∧ (∀ (s : State) (c : Nat) (older : Bool) (r : Root) (l : List Root), r.fmtId = s.fl.fmtId →
    ((∀ k ∈ r.pages, ∀ j, j < 4 → cwLost s c k j = false) → (∀ e ∈ r.segs, (findPage s c e.2).isSome = true ∧ ∀ j, j < 4 → cwLost s c e.2 j = false) →
      ∃ u m, chooseRoot c s older (r :: l) = (u, some (r, m)) ∧ u.fl.recovOlder = (s.fl.recovOlder || older))
    ∧ ((∃ k ∈ r.pages, ∃ j, j < 4 ∧ cwLost s c k j = true) →
      ∃ u, chooseRoot c s older (r :: l) = chooseRoot c u true l ∧ u = { s with fl := { s.fl with chans := u.fl.chans, cnt := u.fl.cnt }, cal := u.cal }))
  ∧ (∀ (s : State) (c : Nat) (r : Root) (m : Tab MapEntry), (chooseRoot c s false (getCh s c).roots).2 = some (r, m) →
    ((∀ e ∈ (getCh s c).pages, e.2.seq < r.seq) → (replayChannel s c).2 = true ∧ (getCh (replayChannel s c).1 c).map = sortBy (fun x y => decide (x.1 ≤ y.1)) m)
    ∧ (∀ (e : Nat × Page) (chip b k : Nat), (getCh s c).pages = [e] → replayBlocks r = [(chip, b, k)] → k < pagesOf (getCh s c) → e.1 = pageKey chip (b * pagesOf (getCh s c) + k) →
      r.seq ≤ e.2.seq → e.2.fmtId = s.fl.fmtId → e.2.kind = 0 →
      ((∀ j, j < 4 → cwLost s c e.1 j = false) →
        luEntry (replayChannel s c).1 c e.2.lu = some (.page (positionOf s c (e.1 / 2 ^ 23) (e.1 % 2 ^ 23)) (e.1 % 2 ^ 23)))
      ∧ ((∃ j, j < 4 ∧ cwLost s c e.1 j = true) → (getCh (replayChannel s c).1 c).map = sortBy (fun x y => decide (x.1 ≤ y.1)) m)))
  ∧ (∀ (s : State) (ms : Nat), s.fl.fstate = 4 → s.fl.replayed = true → s.fab.flashHeld = [] →
    ∃ t, exec (.flashRecoveryEnd ms) s = .next t ∧ t.fl.fstate = 5 ∧ t.fl.done = true ∧ t.fl.err = 0 ∧ t.fl.replayed = false ∧ t.fl.recovMs = min ms (2 ^ 20 - 1)
      ∧ t = { s with fl := t.fl })

/-! ### Spares -/

/-- 03 R85; 09 R282; 10 R300; 13 R418 to R420: PROMOTE is refused with the status and REASON of its first failing check; else a row repair waits for its switch, a lane retrains its link, a die starts its migration, and a castling starts unless R85 refuses it. -/
def Obligations.PromoteAnswered : Prop :=
  ∀ (s : State) (seq : Nat) (d : Desc), dueDesc s .admin seq 0x82 = some d →
    (∀ st reason, promoteFails s d = some (st, reason) → ∃ t, exec (.promote seq) s = .next t ∧ Completed s d st reason t ∧ OnlyQueues s t)
    ∧ (promoteFails s d = none → pKind d = 2 ∨ pKind d = 3 → ∃ t, exec (.promote seq) s = .next t
        ∧ t.spare = { s.spare with jobs := s.spare.jobs ++ [{ seq := d.seq, square := pKind d == 2, target0 := pT0 d, target1 := pT1 d }] }
        ∧ t.qe.recs = s.qe.recs ∧ t = { s with qe := t.qe, spare := t.spare })
    ∧ (promoteFails s d = none → pKind d = 4 →
        ((getLink s (bits (pT0 d) 0 5)).spareIn = false → (getLink s (bits (pT0 d) 0 5)).st ≠ 3 → ∃ t, exec (.promote seq) s = .next t
          ∧ getLink t (bits (pT0 d) 0 5) = { getLink s (bits (pT0 d) 0 5) with promote := some d.seq, st := 3 }
          ∧ (∀ k, k ≠ bits (pT0 d) 0 5 → getLink t k = getLink s k) ∧ t.qe.recs = s.qe.recs)
        ∧ ((getLink s (bits (pT0 d) 0 5)).spareIn = true → ∃ t, exec (.promote seq) s = .next t ∧ Completed s d 0x15 0x10 t ∧ OnlyQueues s t))
    ∧ (promoteFails s d = none → pKind d = 5 →
        ((getCh s (bits (pT0 d) 0 6)).spare = true → (getCh s (bits (pT0 d) 0 6)).migrated = none →
          (superBlocksOn s (bits (pT0 d) 0 6) (bits (pT0 d) 8 3)).length ≤ goodBlocks (getCh s (bits (pT0 d) 0 6)) 8 →
          ∃ t, exec (.promote seq) s = .next t ∧ (getCh t (bits (pT0 d) 0 6)).migrating = some (d.seq, bits (pT0 d) 8 3)
            ∧ t.qe.recs = s.qe.recs ∧ t = { s with qe := t.qe, fl := { s.fl with chans := t.fl.chans } })
        ∧ ((getCh s (bits (pT0 d) 0 6)).spare = false ∨ (getCh s (bits (pT0 d) 0 6)).migrated ≠ none → ∃ t, exec (.promote seq) s = .next t ∧ Completed s d 0x15 0x10 t ∧ OnlyQueues s t)
        ∧ ((getCh s (bits (pT0 d) 0 6)).spare = true → (getCh s (bits (pT0 d) 0 6)).migrated = none →
          goodBlocks (getCh s (bits (pT0 d) 0 6)) 8 < (superBlocksOn s (bits (pT0 d) 0 6) (bits (pT0 d) 8 3)).length →
          ∃ t, exec (.promote seq) s = .next t ∧ Completed s d 0x13 0x10 t ∧ OnlyQueues s t))
    ∧ (promoteFails s d = none → pKind d = 1 →
        (∀ e, castleFails s d = some e → ∃ t, exec (.promote seq) s = .next t ∧ Completed s d 0x15 e t ∧ t.bd.castFail = true ∧ t.bd.castReason = e ∧ t.bd.castling = s.bd.castling)
        ∧ (castleFails s d = none → ∃ t, exec (.promote seq) s = .next t
            ∧ t.bd.castling = some { seq := d.seq, die := tDie (pT0 d), file := tFile (pT0 d), rank := tRank (pT0 d), revert := pRevert d, phase := 1 }
            ∧ (getRank t (rankIdx (tDie (pT0 d)) (tRank (pT0 d)))).clock ≠ 0 ∧ t.qe.recs = s.qe.recs))

/-- 02 R55; 03 R86 to R90: at a move boundary without a recomposition every context of the target is FROZEN; the copy follows; at the first boundary after its end without a recomposition the contexts stand on the other Square as they were, the Square left behind is clear, and the rank's routing is rewritten. -/
def Obligations.CastlingSteps : Prop :=
  (∀ (s : State) (c : Castling), s.bd.castling = some c → c.phase = 1 → atBoundary s = true → (getRank s (rankIdx c.die c.rank)).clock = 2 → recompAtBoundary s = false →
    ∃ t, exec .castlingFreeze s = .next t ∧ t.bd.castling = some { c with phase := 2 }
      ∧ (∀ e ∈ (getSq t (castSource c)).ctxs, e.2.st = .free ∨ e.2.st = .frozen)
      ∧ (∀ n, n ≠ castSource c → getSq t n = getSq s n) ∧ t = { s with bd := { s.bd with castling := t.bd.castling }, squares := t.squares })
  ∧ (∀ (s : State) (c : Castling), s.bd.castling = some c → c.phase = 2 →
    exec .castlingCopyEnd s = .next { s with bd := { s.bd with castling := some { c with phase := 3, due := moveOf s + 1 } } })
  ∧ (∀ (s : State) (c : Castling) (d : Desc), s.bd.castling = some c → c.phase = 3 → atBoundary s = true → c.due ≤ moveOf s → recompAtBoundary s = false → s.fab.portHeld = [] →
    castSource c ≠ castDest c → findDesc (renameSq s (castSource c) (castDest c)) .admin c.seq = some d → d.phase = .running →
    ∃ t, exec .castlingSwitch s = .next t
      ∧ getSq t (castDest c) = { last := 63, reqBuf := (getSq s (castSource c)).reqBuf, ctxs := (getSq s (castSource c)).ctxs.map (fun x => if x.2.st = .frozen then (x.1, { x.2 with st := x.2.held, held := .free }) else x) }
      ∧ getSq t (castSource c) = {} ∧ (∀ n, n ≠ castSource c → n ≠ castDest c → getSq t n = getSq s n)
      ∧ (getRank t (rankIdx c.die c.rank)).castled = (!c.revert) ∧ (getRank t (rankIdx c.die c.rank)).castleFile = (if c.revert then 0 else c.file)
      ∧ (∃ dups, t.qe.recs = s.qe.recs ++ recOf d 0x00 0 0 0 0 :: dups) ∧ t.bd.castling = some { c with phase := 4 } ∧ tget 0 t.er.cnt 15 = satAdd 64 (tget 0 s.er.cnt 15) 1)

/-- 09 R282; 13 R422, R423: at a move boundary after its acceptance an SRAM row repair switches and completes its PROMOTE; a stack row repair switches and takes one of the stack's repairs; a die migration ends when no superblock uses the old die: the spare die serves its position and the PROMOTE completes. -/
def Obligations.RowSwitchesAndDieMigration : Prop :=
  (∀ (s : State) (j : RowJob) (d : Desc), atBoundary s = true → s.spare.jobs.filter (fun j => j.square && rowDue s j) = [j] → findDesc s .admin j.seq = some d →
    ∃ t, exec .sramRowSwitch s = .next t ∧ Completed s d 0x00 0 t
      ∧ t.spare = { s.spare with jobs := s.spare.jobs.filter (fun x => x.seq != j.seq),
                                 sramRows := s.spare.sramRows ++ [(physIdx (tDie j.target0) (tRank j.target0) (tFile j.target0), bits j.target1 0 6, bits j.target1 6 9)] }
      ∧ tget 0 t.er.cnt 15 = satAdd 64 (tget 0 s.er.cnt 15) 1)
  ∧ (∀ (s : State) (j : RowJob), atBoundary s = true → s.spare.jobs.filter (fun j => !j.square && !j.switched && rowDue s j) = [j] →
    ∃ t, exec .stackRowSwitch s = .next t
      ∧ t.spare.stackRows = s.spare.stackRows ++ [(j.target0, j.target1)] ∧ t.spare.unrecorded = s.spare.unrecorded ++ [(j.target0, j.target1)]
      ∧ tget 0 t.ms.pprUsed (j.target0 / 32) = tget 0 s.ms.pprUsed (j.target0 / 32) + 1 ∧ (j.target0, j.target1) ∉ t.ms.badRows
      ∧ t.ms.objs = s.ms.objs ∧ t.qe = s.qe ∧ t = { s with spare := t.spare, ms := t.ms })
  ∧ (∀ (s : State) (c seq die : Nat) (d : Desc), c < 64 → (getCh s c).migrating = some (seq, die) → superBlocksOn s c die = [] → findDesc s .admin seq = some d →
    ∃ t, exec (.dieMigrationEnd c) s = .next t ∧ Completed s d 0x00 0 t
      ∧ (getCh t c).migrating = none ∧ (getCh t c).migrated = some die ∧ (getCh t c).spare = false ∧ (getCh t c).map = (getCh s c).map
      ∧ (die ≠ 8 → (getDie (getCh t c) die).st = 5 ∧ (getDie (getCh t c) 8).st = 1)
      ∧ (s.fl.fmtW = 0 → (getCh t c).pages = (getCh s c).pages)
      ∧ (s.fl.fmtW = 0 ∨ (getCh s c).dirty = [] → ∀ k, k ≠ c → getCh t k = getCh s k))

/-! ### The token service -/

/-- 12 R378 to R380, R404: BIND of an UNBOUND selection starts while a base layer is active and is BUSY otherwise; it ends BOUND with the object's identifier, or UNBOUND with the error of the first check that fails; UNBIND of a BOUND selection drains, and the selection is UNBOUND once every request that was accepted before has completed. -/
def Obligations.TokenBindings : Prop :=
  (∀ s : State, barFull s = true →
    exec (.vocabBind 0) s = .next (setBind s true s.ts.vocabSel
      (if (getBind s true s.ts.vocabSel).st = 0 ∧ s.bd.layer ≠ none then { getBind s true s.ts.vocabSel with st := 1 } else { getBind s true s.ts.vocabSel with fail := true, err := 1 }))
    ∧ exec (.grammarBind 0) s = .next (setBind s false s.ts.gramSel
      (if (getBind s false s.ts.gramSel).st = 0 ∧ s.bd.layer ≠ none then { getBind s false s.ts.gramSel with st := 1 } else { getBind s false s.ts.gramSel with fail := true, err := 1 }))
    ∧ ((getBind s true s.ts.vocabSel).st = 2 → exec (.vocabUnbind 0) s = .next (setBind s true s.ts.vocabSel { getBind s true s.ts.vocabSel with st := 3, drain := s.qe.accepted }))
    ∧ ((getBind s false s.ts.gramSel).st = 2 → exec (.grammarUnbind 0) s = .next (setBind s false s.ts.gramSel { getBind s false s.ts.gramSel with st := 3, drain := s.qe.accepted })))
  ∧ (∀ (s : State) (vocab : Bool) (n : Nat), n < (if vocab then 16 else 64) → (getBind s vocab n).st = 1 →
    ((∀ o, findObj s (getBind s vocab n).tenant (getBind s vocab n).object = some o → o.tier ≠ 1 ∨ o.type ≠ (if vocab then 6 else 7)) →
      exec (.bindComplete vocab n) s = .next (setBind s vocab n { getBind s vocab n with st := 0, fail := true, err := 2 }))
    ∧ (∀ o, findObj s (getBind s vocab n).tenant (getBind s vocab n).object = some o → o.tier = 1 → o.type = (if vocab then 6 else 7) → stackBad s o 0 o.size = none →
      exec (.bindComplete vocab n) s = .next (setBind s vocab n (match (if vocab then vocErr o.data o.size else tblErr o.data o.size) with
        | some e => { getBind s vocab n with st := 0, fail := true, err := e }
        | none =>
          if vocab = false ∧ 1048576 < statesUsed s + (tblOf o.data).states then { getBind s vocab n with st := 0, fail := true, err := 4 }
          else { getBind s vocab n with st := 2, done := true, err := 0, size := if vocab then (vocOf o.data).n else (tblOf o.data).states, vocabId := memLE o.data 40 8 }))))
  ∧ (∀ (s : State) (vocab : Bool) (n : Nat), n < (if vocab then 16 else 64) → (getBind s vocab n).st = 3 →
    exec (.unbindComplete vocab n) s = .next (if s.qe.descs.any (fun d => decide (d.n < (getBind s vocab n).drain) && namesBind d vocab n) then s
      else setBind s vocab n { getBind s vocab n with st := 0, done := true, size := 0, vocabId := 0 }))

/-- 12 R379, R384 to R393, R397, R402: the engine takes a tenant's requests in their order, and never holds more than four of one tenant; a TOKENIZE or a DETOKENIZE that it holds, without a stream, that nothing refuses completes with DONE and writes its header and its tokens, or its bytes, at its result address and nowhere else; one whose fields or binding are refused, or whose vocabulary cannot be read, writes nothing; every source byte belongs to one character or to the incomplete one at the end; and the bytes that a DETOKENIZE releases never exceed its room. That a request reads the table entries and strings of the tokens it puts out, or is given, is the model's choice (log entry 80). -/
def Obligations.TokenizeAndDetokenize : Prop :=
  (∀ (s s1 : State) (q : QId) (seq op : Nat) (d : Desc), tokenDesc s q seq op = some (s1, d) →
    s1 = { s with qe := { s.qe with descs := s1.qe.descs, lastServed := s1.qe.lastServed } } ∧ d.phase = .running ∧ d ∈ s1.qe.descs)
  ∧ (∀ (s : State) (u : Nat), (∀ e ∈ s.qe.descs, ∀ y ∈ s.qe.descs, e.n = y.n → e = y) → tokensIn s u ≤ 4 → tokensIn (fillTokens 4 s u) u ≤ 4)
  ∧ (∀ (s : State) (q : QId) (seq op : Nat) (c : Instr), (op = 0x28 ∧ c = .tokenize q seq ∨ op = 0x29 ∧ c = .detokenize q seq ∨ op = 0x2A ∧ c = .maskLookup q seq) →
    wellFormed c = true → tokenDesc s q seq op = none → exec c s = .next (fillTokens 4 s (tenantOf q)))
  ∧ (∀ (s s1 : State) (q : QId) (seq : Nat) (d : Desc) (o : Obj) (cs : List TChar), wellFormed (.tokenize q seq) = true → tokenDesc s q seq 0x28 = some (s1, d) →
    tokFieldsOk d = true → servedBy s1 d true (dfield d 52 1) = some o → d.hostFault = false → hostOpen s d.tenant = true → dfield d 32 8 = 0 → dfield d 40 4 ≤ 1048576 →
    (∃ r, textChars (dfield d 40 4 + 1) (hostRead s (dfield d 16 8) (dfield d 40 4)) = r ∧ cs = if r.2.isEmpty then r.1 else r.1 ++ [replChar r.2.length]) →
    (tokensOf (vocOf o.data) cs).length ≤ dfield d 48 4 →
    (vocBad s o (vocOf o.data) (tokensOf (vocOf o.data) cs) = none → ∃ t, exec (.tokenize q seq) s = .next t ∧ Completed s1 d 0x00 0 t
      ∧ hostRead t (dfield d 24 8) (32 + 4 * (tokensOf (vocOf o.data) cs).length)
          = tsHeader (tokensOf (vocOf o.data) cs).length ((cs.map (fun c => c.src)).sum) (fld (b2n (replCount cs != 0)) 2) 0 0xFF 0xFFFFFFFF 0xFFFFFFFF (replCount cs) (vocOf o.data).vocabId
            ++ (tokensOf (vocOf o.data) cs).flatMap (toLE 4)
      ∧ HostOutside s t (dfield d 24 8) (32 + 4 * (tokensOf (vocOf o.data) cs).length))
    ∧ (∀ b, vocBad s o (vocOf o.data) (tokensOf (vocOf o.data) cs) = some b → ∃ t, exec (.tokenize q seq) s = .next t ∧ getTt t d.q d.seq = ⟨d.seq, .complete, 0x21⟩ ∧ t.hostMem = s.hostMem))
  ∧ (∀ (s s1 : State) (q : QId) (seq : Nat) (d : Desc), wellFormed (.tokenize q seq) = true → tokenDesc s q seq 0x28 = some (s1, d) →
    (tokFieldsOk d = false → ∃ t, exec (.tokenize q seq) s = .next t ∧ Completed s1 d 0x15 0 t ∧ OnlyQueues s t)
    ∧ (tokFieldsOk d = true → servedBy s1 d true (dfield d 52 1) = none → ∃ t, exec (.tokenize q seq) s = .next t ∧ Completed s1 d 0x13 0 t ∧ OnlyQueues s t))
  ∧ (∀ (s s1 : State) (q : QId) (seq : Nat) (d : Desc) (o : Obj) (ts : List Nat) (x : Detok), wellFormed (.detokenize q seq) = true → tokenDesc s q seq 0x29 = some (s1, d) →
    detFieldsOk d = true → servedBy s1 d true (dfield d 56 1) = some o → d.hostFault = false → hostOpen s d.tenant = true → dfield d 32 8 = 0 → dfield d 48 8 = 0 →
    ts = (List.range (dfield d 40 4)).map (fun i => leNat (hostRead s (dfield d 16 8 + 4 * i) 4)) → (∀ k ∈ ts, k < (vocOf o.data).n) →
    x = detokFlush (min (dfield d 44 4 - 32) 1048576) (ts.foldl (detokOne (vocOf o.data) [] (min (dfield d 44 4 - 32) 1048576)) {}) →
    (vocBad s o (vocOf o.data) ts = none → ∃ t hdr, exec (.detokenize q seq) s = .next t ∧ Completed s1 d 0x00 0 t ∧ hdr.length = 32 ∧ hdr.take 8 = toLE 4 x.out.length ++ toLE 4 x.used
      ∧ hostRead t (dfield d 24 8) (32 + x.out.length) = hdr ++ x.out ∧ HostOutside s t (dfield d 24 8) (32 + x.out.length))
    ∧ (∀ b, vocBad s o (vocOf o.data) ts = some b → ∃ t, exec (.detokenize q seq) s = .next t ∧ getTt t d.q d.seq = ⟨d.seq, .complete, 0x21⟩ ∧ t.hostMem = s.hostMem))
  ∧ (∀ (s s1 : State) (q : QId) (seq : Nat) (d : Desc), wellFormed (.detokenize q seq) = true → tokenDesc s q seq 0x29 = some (s1, d) →
    (detFieldsOk d = false → ∃ t, exec (.detokenize q seq) s = .next t ∧ Completed s1 d 0x15 0 t ∧ OnlyQueues s t)
    ∧ (detFieldsOk d = true → servedBy s1 d true (dfield d 56 1) = none → ∃ t, exec (.detokenize q seq) s = .next t ∧ Completed s1 d 0x13 0 t ∧ OnlyQueues s t))
  ∧ (∀ bs : List Byte, ((textChars (bs.length + 1) bs).1.map (fun c => c.src)).sum + (textChars (bs.length + 1) bs).2.length = bs.length)
  ∧ (∀ (v : Voc) (stops : List (List Byte)) (room : Nat) (ts : List Nat) (x : Detok), x.out.length ≤ room →
    (detokFlush room (ts.foldl (detokOne v stops room) x)).out.length ≤ room)

/-- 12 R379, R400, R401: a MASK_LOOKUP that the engine holds (R402) and nothing refuses completes with DONE and writes its header, then the mask and the runs that FORM asks for; bit t of the mask is set when a run of the state covers token t, and for no other; one whose grammar does not serve its Position, or that names a state the tablebase lacks, writes nothing. -/
def Obligations.MaskLookupReadsTheTablebase : Prop :=
  (∀ (s s1 : State) (q : QId) (seq : Nat) (d : Desc) (o : Obj) (body : List Byte), wellFormed (.maskLookup q seq) = true → tokenDesc s q seq 0x2A = some (s1, d) →
    dfield d 16 8 % 64 = 0 → dfield d 28 1 < 64 → dfield d 29 1 % 4 ≠ 0 → servedBy s1 d false (dfield d 28 1) = some o → dfield d 24 4 < (tblOf o.data).states →
    stackBad s o ((tblOf o.data).stateOff + 8 * dfield d 24 4) 8 = none →
    stackBad s o ((tblOf o.data).runOff + 8 * ((tblOf o.data).state (dfield d 24 4)).1) (8 * ((tblOf o.data).state (dfield d 24 4)).2.1) = none →
    body = (if bit (dfield d 29 1) 0 then maskBytes (tblOf o.data).n ((tblOf o.data).runs (dfield d 24 4)) else [])
      ++ (if bit (dfield d 29 1) 1 then memRead o.data ((tblOf o.data).runOff + 8 * ((tblOf o.data).state (dfield d 24 4)).1) (8 * ((tblOf o.data).state (dfield d 24 4)).2.1) else []) →
    32 + body.length ≤ dfield d 32 4 → hostOpen s d.tenant = true →
    ∃ t hdr, exec (.maskLookup q seq) s = .next t ∧ Completed s1 d 0x00 0 t ∧ hdr.length = 32
      ∧ hdr.take 12 = toLE 4 (dfield d 24 4) ++ (toLE 4 ((tblOf o.data).state (dfield d 24 4)).2.1 ++ toLE 4 (tblOf o.data).n)
      ∧ hostRead t (dfield d 16 8) (32 + body.length) = hdr ++ body ∧ HostOutside s t (dfield d 16 8) (32 + body.length))
  ∧ (∀ (s s1 : State) (q : QId) (seq : Nat) (d : Desc), wellFormed (.maskLookup q seq) = true → tokenDesc s q seq 0x2A = some (s1, d) →
    dfield d 16 8 % 64 = 0 → dfield d 28 1 < 64 → dfield d 29 1 % 4 ≠ 0 →
    (servedBy s1 d false (dfield d 28 1) = none → ∃ t, exec (.maskLookup q seq) s = .next t ∧ Completed s1 d 0x13 0 t ∧ OnlyQueues s t)
    ∧ (∀ o, servedBy s1 d false (dfield d 28 1) = some o → (tblOf o.data).states ≤ dfield d 24 4 → ∃ t, exec (.maskLookup q seq) s = .next t ∧ Completed s1 d 0x15 0 t ∧ OnlyQueues s t))
  ∧ (∀ (n t : Nat) (rs : List (Nat × Nat × Nat)), t < n →
    bit ((maskBytes n rs).getD (t / 8) 0).toNat (t % 8) = rs.any (fun r => decide (r.1 ≤ t) && decide (t < r.1 + r.2.1)))

/-! ### Time, slots and Squares -/

/-- 02 R41; 03 R80, R81; 10 R302, R318, R327, R337; 11 R367; 13 R410, R427: with no command waiting one tempo tick passes while the node has power, and none without (the model's choice, log entry 1); a tick counts the idle ticks of every rank whose clock runs, starts the stopped clock of one that a token waits for, and lets a link whose credits wait send an idle flit with them; a move boundary brings tempo to the next move, refills the meters, takes the group and the node number that wait, takes the calibration of TEMPO_TRIM and VMON, and logs the errors counted in the move. -/
def Obligations.TempoTicksAndMoveBoundaries : Prop :=
  (∀ s : State, s.pending = [] → s.pw.powered = false → step s = .next s)
  ∧ (∀ s : State, s.pending = [] → s.pw.powered = true → ∃ t, step s = .next t ∧ t.pending = [])
  ∧ (∀ s : State, s.pending = [] → s.pw.powered = true → (∀ j ∈ s.spare.jobs, j.switched = false) → (s.tempo + 1) % 4096 ≠ 0 →
    ((∀ e ∈ s.fab.links, e.2.st = 2 → e.2.returns = []) → ∃ t, step s = .next t ∧ t.tempo = (s.tempo + 1) % 2 ^ 64
      ∧ (∀ r, r < 16 → getRank t r =
          (if (getRank s r).clock = 2 then { getRank s r with idle := if rankIdle s r then min 256 ((getRank s r).idle + 1) else 0 }
           else if (getRank s r).clock = 0 ∧ (getRank s r).pwrOff = false ∧ tokenFor s r = true then { getRank s r with clock := 1, idle := 0 } else getRank s r))
      ∧ t = { s with tempo := t.tempo, ranks := t.ranks })
    ∧ (∀ l k o st n, s.fab.links = [(l, k)] → k.st = 2 → k.returns = [(o, st, n)] → n ≤ 63 →
      ∃ t, step s = .next t ∧ t.out = s.out ++ [.flit l (makeFlit k 0 k.txSeq (zeros 240))] ∧ (makeFlit k 0 k.txSeq (zeros 240)).credits = n
        ∧ getLink t l = { k with returns := [] } ∧ t = { s with tempo := t.tempo, ranks := t.ranks, out := t.out, fab := { s.fab with links := t.fab.links, cnt := t.fab.cnt } }))
  ∧ (∀ s : State, s.pw.powered = false → exec .moveBoundary s = .next s)
  ∧ (∀ s : State, s.pw.powered = true → ∃ t, exec .moveBoundary s = .next t)
  ∧ (∀ s : State, s.pw.powered = true → (∀ j ∈ s.spare.jobs, j.switched = false) → s.ms.jobs = [] → (∀ d ∈ s.qe.descs, d.phase ≠ .meter) → (∀ e ∈ s.fab.links, e.2.st = 2 → e.2.returns = []) →
    ∃ t, exec .moveBoundary s = .next t
      ∧ t.tempo = (s.tempo / 4096 + 1) * 4096 % 2 ^ 64
      ∧ (∀ u e, getM t u e = refillMeter (getM s u e))
      ∧ (∀ g, s.fab.pendingGroup = some g → s.fab.pendingAdopt = none → t.fab.group = some g ∧ t.fab.pendingGroup = none ∧ t.fab.node = s.fab.node)
      ∧ (∀ n g, s.fab.pendingAdopt = some (n, g) → t.fab.group = some g ∧ t.fab.node = n ∧ t.fab.assigned = true ∧ t.fab.standin = false ∧ t.fab.pendingAdopt = none)
      ∧ (s.fab.pendingGroup = none → s.fab.pendingAdopt = none → t.fab = s.fab)
      ∧ (∀ k, (calEntry t k).offset = (calEntry s k).offset ∧ (calEntry t k).pending = ((calEntry s k).pending && !(calOf 7 k || calOf 4 k)))
      ∧ t.er.moveCnts = [] ∧ t.er.nextSeq % 2 ^ 32 = (s.er.nextSeq + s.er.moveCnts.length) % 2 ^ 32
      ∧ t.squares = s.squares ∧ t.qe = { s.qe with msix := t.qe.msix } ∧ t.ms = s.ms ∧ t.bd = s.bd ∧ t.hostMem = s.hostMem ∧ t.pending = s.pending)

/-- 02 R34, R38, R40; 03 R67, R71, R79, R82, R86; 10 R298, R301, R322; 11 R371: a slot moves something of one stream alone, the one whose run owns it, and every stream's credits and held entries together stay what they were; a slot that no run owns, or whose stream has no token or no credit, or an end of which has its clock stopped or is frozen, or whose payload its slot cannot carry, idles. A payload at a unit that is no Square frees its entry at once; at a Square a context that waits for the stream takes it and becomes READY, or it stays in the receive buffer. A read request that moves has left its Square. On a link the flits of a slot leave unless the port holds too many unacknowledged ones or the meter holds the packet back, and a packet has left with its last byte. -/
def Obligations.SlotsCarryTokensAndCredits : Prop :=
  (∀ (s : State) (kind path slot : Nat), wellFormed (.slotTransfer kind path slot) = true → ∃ t, exec (.slotTransfer kind path slot) s = .next t
    ∧ (∀ o k, (getStream t o k).credits + (getStream t o k).held = (getStream s o k).credits + (getStream s o k).held)
    ∧ (∀ o k, (∀ r ∈ allRuns s, r.kind = kind → r.path = path → stKey r.owner r.stream ≠ stKey o k) →
      (getStream t o k).credits = (getStream s o k).credits ∧ (getStream t o k).held = (getStream s o k).held ∧ (getStream t o k).buf = (getStream s o k).buf)
    ∧ t.hostMem = s.hostMem ∧ t.tempo = s.tempo ∧ t.indexes = s.indexes
    ∧ (kind ≠ 4 → t = { s with bd := { s.bd with streams := t.bd.streams }, squares := t.squares, fab := t.fab, meters := t.meters, out := t.out })
    ∧ (kind < 6 → t.fab.links = s.fab.links ∧ t.meters = s.meters))
  ∧ (∀ (s : State) (kind path slot : Nat), wellFormed (.slotTransfer kind path slot) = true →
    (∀ r ∈ allRuns s, ¬ (r.kind = kind ∧ r.path = path ∧ r.first ≤ slot ∧ slot ≤ r.first + r.countM1)
      ∨ (getStream s r.owner r.stream).tokens = [] ∨ (getStream s r.owner r.stream).credits = 0
      ∨ (kind = 6 ∨ kind = 7) ∧ (getLink s path).st ≠ 2
      ∨ ∃ x, streamOf s r.owner r.stream = some x ∧ (clocked s (sqOfUnit s r.owner x.dest) = false ∨ clocked s (sqOfUnit s r.owner x.source) = false
          ∨ heldStill s (sqOfUnit s r.owner x.dest) = true ∨ heldStill s (sqOfUnit s r.owner x.source) = true)) → exec (.slotTransfer kind path slot) s = .next s)
  ∧ (∀ (s : State) (kind path slot : Nat) (r : Run) (x : Stream) (n : Nat) (ld : Load) (rest : List Token), wellFormed (.slotTransfer kind path slot) = true →
    allRuns s = [r] → r.kind = kind → r.path = path → r.first ≤ slot → slot ≤ r.first + r.countM1 → streamOf s r.owner r.stream = some x →
    (getStream s r.owner r.stream).tokens = ⟨n, ld⟩ :: rest → (getStream s r.owner r.stream).credits ≠ 0 → (kind = 6 ∨ kind = 7 → (getLink s path).st = 2) →
    clocked s (sqOfUnit s r.owner x.dest) = true → clocked s (sqOfUnit s r.owner x.source) = true →
    heldStill s (sqOfUnit s r.owner x.dest) = false → heldStill s (sqOfUnit s r.owner x.source) = false →
    (∀ bs, kind < 6 → ld = .data bs →
      (slotPayload kind < n → exec (.slotTransfer kind path slot) s = .next s)
      ∧ (n ≤ slotPayload kind → sqOfUnit s r.owner x.dest = none ∨ r.owner = 0x7F → ∃ t, exec (.slotTransfer kind path slot) s = .next t
        ∧ getStream t r.owner r.stream = { getStream s r.owner r.stream with tokens := rest } ∧ t.out = s.out ++ [.slot kind path slot r.owner r.stream n] ∧ t.squares = s.squares)
      ∧ (∀ q, n ≤ slotPayload kind → sqOfUnit s r.owner x.dest = some q → r.owner ≠ 0x7F →
        (waiterOn s q r.owner r.stream = none → ∃ t, exec (.slotTransfer kind path slot) s = .next t
          ∧ getStream t r.owner r.stream = ⟨rest, (getStream s r.owner r.stream).credits - 1, (getStream s r.owner r.stream).held + 1, (getStream s r.owner r.stream).buf ++ [⟨n, .data bs⟩]⟩
          ∧ t.out = s.out ++ [.slot kind path slot r.owner r.stream n] ∧ t.squares = s.squares)
        ∧ (∀ c, waiterOn s q r.owner r.stream = some c → ∃ t, exec (.slotTransfer kind path slot) s = .next t
          ∧ getStream t r.owner r.stream = { getStream s r.owner r.stream with tokens := rest }
          ∧ getCtx t q c = { getCtx s q c with st := .ready, scratch := memWrite (getCtx s q c).scratch (getCtx s q c).waitDst (bs.take (4096 - (getCtx s q c).waitDst)) })))
    ∧ (∀ m c y, kind < 6 → n ≤ slotPayload kind → ld = .read m c y → ∃ t, exec (.slotTransfer kind path slot) s = .next t
      ∧ t.out = s.out ++ [.slot kind path slot r.owner r.stream n]
      ∧ (∀ e v, (getCtx s m c).elems.filter (fun z => z.1 == e) = [(e, v)] → e / 16 = y → v.returned = false → (∃ o a, v.addr = .object o a) →
        ∃ w, (getCtx t m c).elems.find? (fun z => z.1 == e) = some (e, w) ∧ w = { v with left := true, due := w.due }))
    ∧ (∀ p, kind = 6 → ld = .packet p → rest = [] → n = (packetBytes p).length → n ≤ 2400 →
      (512 < (getLink s path).unacked.length + 10 → exec (.slotTransfer kind path slot) s = .next s)
      ∧ (∀ s1, (getLink s path).unacked.length + 10 ≤ 512 → egressMark s r.owner (32 + p.len) = (false, s1) → exec (.slotTransfer kind path slot) s = .next s1)
      ∧ (∀ s1, (getLink s path).unacked.length + 10 ≤ 512 → egressMark s r.owner (32 + p.len) = (true, s1) → ∃ t fs, exec (.slotTransfer kind path slot) s = .next t
        ∧ t.out = s.out ++ (.slot 6 path slot r.owner r.stream n :: fs) ++ [.packet path p] ∧ fs.length = ceilDiv n 240 ∧ (∀ z ∈ fs, ∃ f, z = .flit path f ∧ f.kind = 1)
        ∧ getStream t r.owner r.stream = { getStream s r.owner r.stream with tokens := [], credits := (getStream s r.owner r.stream).credits - 1, held := (getStream s r.owner r.stream).held + 1 }
        ∧ (getLink t path).unacked.length = (getLink s path).unacked.length + ceilDiv n 240
        ∧ (isResponse p = false → ∀ z ∈ t.fab.reqs, z.tag = p.tag → z.target = p.dst → z.sent = true) ∧ (isResponse p = true → t.fab.reqs = s.fab.reqs)
        ∧ t.meters = s1.meters)))

/-- 03 R66 to R69, R71 to R74, R80, R84, R86; 06 R166; 02 R39; 10 R311, R314: a Square that has its clock and its work issues from the first READY context after the one that last issued, and idles when there is none; what the context computes it writes into its own state alone; the last read of a ply puts its request into the request buffer and onto its stream and takes the context to WAIT_MEM; what a context sends goes onto a stream that leads out of its own Square, in payloads that its slots carry; it waits on an input stream of its own Square alone; a remote store leaves as a request, or ends with FAULT_REMOTE where there is no path; SORT64 writes the sorted entries of its register into it, and MERGE128 the best 64 of its two registers into the first and the others into the second, when it is the context's turn, and no other register, context or Square changes. -/
def Obligations.SquareIssueRotation : Prop :=
  (∀ (s : State) (n c : Nat), nextReady s n = some c → c < 64 ∧ (getCtx s n c).st = .ready
    ∧ ∃ k, 1 ≤ k ∧ k ≤ 64 ∧ c = ((getSq s n).last + k) % 64 ∧ ∀ j, 1 ≤ j → j < k → (getCtx s n (((getSq s n).last + j) % 64)).st ≠ .ready)
  ∧ (∀ (s : State) (n : Nat), nextReady s n = none → ∀ c, c < 64 → (getCtx s n c).st ≠ .ready)
  ∧ (∀ (s : State) (n : Nat) (op : SqOp), wellFormed (.squareCycle n op) = true → sqRuns s n = false ∨ nextReady s n = none → exec (.squareCycle n op) s = .next s)
  ∧ (∀ (s : State) (n c : Nat) (op : SqOp), wellFormed (.squareCycle n op) = true → sqRuns s n = true → nextReady s n = some c →
    (∀ w, op = .compute w → ∃ t, exec (.squareCycle n op) s = .next t ∧ (getSq t n).last = c ∧ getCtx t n c = w.foldl ctxWrite (getCtx s n c)
      ∧ (∀ k, k ≠ c → getCtx t n k = getCtx s n k) ∧ (∀ m, m ≠ n → getSq t m = getSq s m) ∧ t = { s with squares := t.squares })
    ∧ (∀ r stream elems, op = .read r stream elems true →
      (∀ y pay, ownStream s n (getCtx s n c).tenant stream = some y → runPayload s (getCtx s n c).tenant stream = some pay → readOpen (getCtx s n c) r = false →
        (∀ e ∈ elems, ∃ k off, elemAt s (getCtx s n c).tenant e.addr = .object k off) → ∃ t, exec (.squareCycle n op) s = .next t
        ∧ (getSq t n).last = c ∧ (getCtx t n c).st = .waitMem ∧ (getSq t n).reqBuf = (getSq s n).reqBuf ++ [(c, r)]
        ∧ (∀ i e, elems[i]? = some e → (getCtx t n c).elems.find? (fun z => z.1 == 16 * r + i)
            = some (16 * r + i, { bytes := e.bytes, addr := elemAt s (getCtx s n c).tenant e.addr, dst := e.dst, tag := none, left := false, due := 0, returned := false, fault := 0, data := [] }))
        ∧ (getCtx t n c).scratch = (getCtx s n c).scratch ∧ (getCtx t n c).regs = (getCtx s n c).regs ∧ (getCtx t n c).scalar = (getCtx s n c).scalar
        ∧ getStream t (getCtx s n c).tenant stream = { getStream s (getCtx s n c).tenant stream with
            tokens := (getStream s (getCtx s n c).tenant stream).tokens ++ [⟨min pay (Config.requestBytes elems.length), .read n c r⟩] }
        ∧ (∀ k, k ≠ c → getCtx t n k = getCtx s n k) ∧ (∀ m, m ≠ n → getSq t m = getSq s m)
        ∧ t = { s with squares := t.squares, bd := { s.bd with streams := t.bd.streams } })
      ∧ (readOpen (getCtx s n c) r = true → ∃ t, exec (.squareCycle n op) s = .next t ∧ getCtx t n c = { getCtx s n c with st := .waitMem } ∧ t = { s with squares := t.squares }))
    ∧ (∀ stream data, op = .send stream data →
      (ownStream s n (getCtx s n c).tenant stream = none → exec (.squareCycle n op) s = .next (setSq s n { getSq s n with last := c }))
      ∧ (∀ y pay, ownStream s n (getCtx s n c).tenant stream = some y → runPayload s (getCtx s n c).tenant stream = some pay → y.dest / 2 ^ 24 ≠ 5 →
        ∃ (t : State) (bs : List (List Byte)), exec (.squareCycle n op) s = .next t ∧ bs.flatten = data ∧ (∀ b ∈ bs, b.length ≤ pay ∧ b ≠ [])
          ∧ getStream t (getCtx s n c).tenant stream = { getStream s (getCtx s n c).tenant stream with
              tokens := (getStream s (getCtx s n c).tenant stream).tokens ++ bs.map (fun b => ⟨b.length, .data b⟩) }
          ∧ (getSq t n).last = c ∧ (∀ k, getCtx t n k = getCtx s n k) ∧ t = { s with squares := t.squares, bd := { s.bd with streams := t.bd.streams } }))
    ∧ (∀ stream dst, op = .waitStream stream dst →
      (mayWait s n (getCtx s n c) stream = false → exec (.squareCycle n op) s = .next (setSq s n { getSq s n with last := c }))
      ∧ (mayWait s n (getCtx s n c) stream = true → (getStream s (getCtx s n c).tenant stream).buf = [] →
        ∃ t, exec (.squareCycle n op) s = .next t ∧ getCtx t n c = { getCtx s n c with st := .waitStream, waitOn := stream, waitDst := dst } ∧ t = { s with squares := t.squares })
      ∧ (∀ k b rest, mayWait s n (getCtx s n c) stream = true → (getStream s (getCtx s n c).tenant stream).buf = ⟨k, .data b⟩ :: rest →
        ∃ t, exec (.squareCycle n op) s = .next t ∧ getCtx t n c = { getCtx s n c with st := .ready, scratch := memWrite (getCtx s n c).scratch dst (b.take (4096 - dst)) }
          ∧ getStream t (getCtx s n c).tenant stream = { getStream s (getCtx s n c).tenant stream with
              buf := rest, credits := (getStream s (getCtx s n c).tenant stream).credits + 1, held := (getStream s (getCtx s n c).tenant stream).held - 1 }
          ∧ t = { s with squares := t.squares, bd := { s.bd with streams := t.bd.streams } }))
    ∧ (∀ slot a bs dst, op = .remote slot (.store a bs) dst false → (getCtx s n c).elems.any (fun e => e.1 == slot && !e.2.returned) = false →
      (linkFor s (getCtx s n c).tenant (a / 2 ^ 40 % 256) a = none → ∃ t v, exec (.squareCycle n op) s = .next t
        ∧ (getCtx t n c).elems.find? (fun z => z.1 == slot) = some (slot, v) ∧ v.returned = true ∧ v.fault = 0x22 ∧ t = { s with squares := t.squares })
      ∧ (∀ l, linkFor s (getCtx s n c).tenant (a / 2 ^ 40 % 256) a = some l → ∃ t r, exec (.squareCycle n op) s = .next t
        ∧ t.fab.reqs = s.fab.reqs ++ [r] ∧ r.op = 2 ∧ r.addr = a ∧ r.link = l ∧ r.tenant = (getCtx s n c).tenant ∧ r.seq = (getT s (getCtx s n c).tenant).storeSeq ∧ r.src = .elem n c slot ∧ r.sent = false
        ∧ (getT t (getCtx s n c).tenant).storeSeq = ((getT s (getCtx s n c).tenant).storeSeq + 1) % 2 ^ 32
        ∧ t = { s with squares := t.squares, tenants := t.tenants, fab := { s.fab with nextTag := t.fab.nextTag, reqs := t.fab.reqs }, bd := { s.bd with streams := t.bd.streams } }))
    ∧ (∀ r, op = .sort r → ∃ t, exec (.squareCycle n op) s = .next t ∧ (getSq t n).last = c
      ∧ getCtx t n c = { getCtx s n c with regs := tset (getCtx s n c).regs r (sortNet (imageOf s (getCtx s n c).tenant) (vreg (getCtx s n c) r)) }
      ∧ (∀ k, k ≠ c → getCtx t n k = getCtx s n k) ∧ (∀ m, m ≠ n → getSq t m = getSq s m) ∧ t = { s with squares := t.squares })
    ∧ (op = .finish → (∀ w, (getCtx s n c).job ≠ .serving w) → exec (.squareCycle n op) s = .next (setSq s n { getSq s n with last := c })))
  ∧ (∀ (s : State) (n c r a b : Nat), wellFormed (.sort64 n c r) = true → wellFormed (.merge128 n c a b) = true →
    (sqRuns s n = false ∨ nextReady s n ≠ some c → exec (.sort64 n c r) s = .next s ∧ exec (.merge128 n c a b) s = .next s)
    ∧ (sqRuns s n = true → nextReady s n = some c →
      (∃ t, exec (.sort64 n c r) s = .next t ∧ (getSq t n).last = c
        ∧ getCtx t n c = { getCtx s n c with regs := tset (getCtx s n c).regs r (sortNet (imageOf s (getCtx s n c).tenant) (vreg (getCtx s n c) r)) }
        ∧ (∀ k, k ≠ c → getCtx t n k = getCtx s n k) ∧ (∀ m, m ≠ n → getSq t m = getSq s m) ∧ t = { s with squares := t.squares })
      ∧ (∃ t, exec (.merge128 n c a b) s = .next t ∧ (getSq t n).last = c
        ∧ tget [] (getCtx t n c).regs a = (mergeNet (imageOf s (getCtx s n c).tenant) (vreg (getCtx s n c) a) (vreg (getCtx s n c) b)).1
        ∧ tget [] (getCtx t n c).regs b = (mergeNet (imageOf s (getCtx s n c).tenant) (vreg (getCtx s n c) a) (vreg (getCtx s n c) b)).2
        ∧ (∀ r, r ≠ a → r ≠ b → tget [] (getCtx t n c).regs r = tget [] (getCtx s n c).regs r)
        ∧ getCtx t n c = { getCtx s n c with regs := (getCtx t n c).regs }
        ∧ (∀ k, k ≠ c → getCtx t n k = getCtx s n k) ∧ (∀ m, m ≠ n → getSq t m = getSq s m) ∧ t = { s with squares := t.squares })))

/-- 06 R166: SORT64 orders any 64 entries into ascending KEY order; MERGE128 of two ascending registers leaves the best 64 of their 128 entries in the first and the other 64 in the second, both ascending; no entry is lost or made. The order of equal keys is left open. -/
def Obligations.SortingNetworkSorts : Prop :=
  (∀ (image : Nat) (l : List Nat), l.length = 64 → (sortNet image l).Perm l ∧ List.Pairwise (fun a b => laneKey a ≤ laneKey b) (sortNet image l))
  ∧ (∀ (image : Nat) (a b : List Nat), a.length = 64 → b.length = 64 →
    List.Pairwise (fun x y => laneKey x ≤ laneKey y) a → List.Pairwise (fun x y => laneKey x ≤ laneKey y) b →
    ((mergeNet image a b).1 ++ (mergeNet image a b).2).Perm (a ++ b)
      ∧ (mergeNet image a b).1.length = 64
      ∧ List.Pairwise (fun x y => laneKey x ≤ laneKey y) ((mergeNet image a b).1 ++ (mergeNet image a b).2))

/-- 03 R70, R71, R74, R75, R78, R93; 05 R145; 08 R233: an element of the node's own memory whose request has left and whose payloads have come returns with the bytes of its object; when every element of the ply has returned without a fault the context is READY with their data in its scratch area, and before that it waits; an element with a fault ends the context; one that waits, or lies on another node, stays; work of another node takes the lowest free serving slot of the first of its Squares that has one, which frees the link port's entries, waits when none has, and is refused when none of its Squares has a serving slot. Which slots of a Square are the serving ones is the model's choice (log entry 72). -/
def Obligations.ReadElementsAndServing : Prop :=
  (∀ (s : State) (n c r e : Nat) (v w : Elem) (o : Obj) (num off : Nat), wellFormed (.readElementReturn n c r e .data) = true → (getCtx s n c).ended = none →
    (getCtx s n c).elems.find? (fun x => x.1 == 16 * r + e) = some (16 * r + e, v) → v.returned = false → v.left = true → v.due = 0 → sqFrozen s n = false →
    v.addr = .object num off → findObj s (getCtx s n c).tenant num = some o → o.tier < 2 → off + v.bytes ≤ o.size → stackBad s o off v.bytes = none →
    w = { v with returned := true, fault := 0, data := memRead o.data off v.bytes } →
    ∃ t, exec (.readElementReturn n c r e .data) s = .next t
      ∧ t = { s with squares := t.squares, fab := { s.fab with sent := t.fab.sent } }
      ∧ ((getCtx s n c).st = .waitMem → (∀ x ∈ tset (getCtx s n c).elems (16 * r + e) w, x.2.returned = true ∧ x.2.fault = 0) →
          getCtx t n c = { getCtx s n c with elems := [], st := .ready, scratch := (tset (getCtx s n c).elems (16 * r + e) w).foldl (fun m x => memWrite m x.2.dst x.2.data) (getCtx s n c).scratch })
      ∧ ((∃ x ∈ tset (getCtx s n c).elems (16 * r + e) w, x.2.returned = false) →
          getCtx t n c = { getCtx s n c with elems := tset (getCtx s n c).elems (16 * r + e) w })
      ∧ (∀ k, k ≠ c → getCtx t n k = getCtx s n k) ∧ (∀ m, m ≠ n → getSq t m = getSq s m))
  ∧ (∀ (s : State) (n c r e : Nat) (res : ElemResult), wellFormed (.readElementReturn n c r e res) = true →
    ((∀ x ∈ (getCtx s n c).elems, x.1 ≠ 16 * r + e)
      ∨ ∃ v, (getCtx s n c).elems.find? (fun x => x.1 == 16 * r + e) = some (16 * r + e, v) ∧ (v.returned = true ∨ elemWaits s n c v = true ∨ ∃ a, v.addr = .remote a)) →
    exec (.readElementReturn n c r e res) s = .next s)
  ∧ (∀ (s : State) (n c r e ch b u : Nat) (v : Elem) (q : QId) (seq : Nat) (d : Desc) (o : Obj) (num off : Nat) (bad : StackBad),
    wellFormed (.readElementReturn n c r e (.stackCheck ch b u)) = true →
    (getCtx s n c).ended = none → (getCtx s n c).st = .waitMem → (getCtx s n c).elems = [(16 * r + e, v)] → v.returned = false → v.left = true → v.due = 0 → sqFrozen s n = false →
    v.addr = .object num off → findObj s (getCtx s n c).tenant num = some o → o.tier = 1 → off + v.bytes ≤ o.size → stackBad (meetFault s (.stackCheck ch b u)) o off v.bytes = some bad →
    (getCtx s n c).job = .entry q seq → findDesc s q seq = some d → isPending s d = true →
    ∃ t, exec (.readElementReturn n c r e (.stackCheck ch b u)) s = .next t ∧ Completed s d 0x21 0 t ∧ (ch, b, u) ∈ t.ms.badBursts ∧ t.hostMem = s.hostMem ∧ t.ms.objs = s.ms.objs)
  ∧ (∀ (s : State) (work : Nat) (h : HeldWork) (p : Position) (n c : Nat), findHeld s work = some h → posOf s h.tenant = some p → h.placed = none →
    (∀ ix, findIndex s h.tenant h.msg.index = some ix → dirPending ix h.msg.epoch = false) → (∃ i ∈ servSquares p h.msg.partition, sqServe p i ≠ 0) →
    (servSquares p h.msg.partition).findSome? (freeServing s p) = some (n, c) →
    ∃ t, exec (.servingContextPlace work) s = .next t ∧ getCtx t n c = { st := .ready, job := .serving work, tenant := h.tenant }
      ∧ (∀ x, findHeld t work = some x → x.placed = some (n, c)) ∧ (getRank t (rankOfSq n)).clock ≠ 0
      ∧ t = { freeMsg s h.link h.msg with squares := t.squares, ranks := t.ranks, fab := { (freeMsg s h.link h.msg).fab with held := t.fab.held } })
  ∧ (∀ (s : State) (work : Nat) (h : HeldWork) (p : Position), findHeld s work = some h → posOf s h.tenant = some p → h.placed = none →
    ((∃ i ∈ servSquares p h.msg.partition, sqServe p i ≠ 0) → (∀ i ∈ servSquares p h.msg.partition, freeServing s p i = none) → exec (.servingContextPlace work) s = .next s)
    ∧ ((∀ ix, findIndex s h.tenant h.msg.index = some ix → dirPending ix h.msg.epoch = false) → (∀ i ∈ servSquares p h.msg.partition, sqServe p i = 0) →
      ∃ t, exec (.servingContextPlace work) s = .next t ∧ t.fab.held = s.fab.held.filter (fun x => x.work != work)
        ∧ Replied { freeMsg s h.link h.msg with fab := { (freeMsg s h.link h.msg).fab with held := t.fab.held, sent := t.fab.sent } } t h.link (msgPacket h.msg) 0xA 6 []))
  ∧ (∀ (s : State) (p : Position) (i n c : Nat), freeServing s p i = some (n, c) → ctxBusy (getCtx s n c) = false ∧ sqFrozen s n = false
    ∧ ∃ e, p.squares[i]? = some e ∧ sqEntry p i ≤ c ∧ c < e.ctx ∧ ∀ k, sqEntry p i ≤ k → k < c → ctxBusy (getCtx s n k) = true)

/-! ### Searching -/

/-- 05 R135 to R137, R149 to R154; 06 R168, R170 to R172, R177 to R183; 11 R355: a SEARCH, a SEARCH_SCAN and a TOPK_DOT that nothing refuses write their results at their result address and nowhere else and complete with DONE, or with DONE_SHORT when a result is not full; a SEARCH whose first result is not full and that may widen answers from the wider probe; what has to be asked of other nodes is asked, and the entry context waits for the lists; a request whose index or fields are refused, whose host memory cannot be read, or whose tenant has no open index writes nothing. -/
def Obligations.SearchCommandsAnswer : Prop :=
  (∀ (s s1 : State) (q : QId) (seq : Nat) (d : Desc) (b : Batch) (per : List (List (List CList))) (answer : Bool → List (List (List CList)) → Answer),
    wellFormed (.search q seq) = true → placedDesc s q seq 0x01 = some d → idxRec s d.tenant (dfield d 32 4) = some b.r → namesFreed s d = false →
    searchFieldsOk s d b.r = true → d.hostFault = false → hostOpen s d.tenant = true → mkBatch s d (hostRead s (dfield d 16 8) (queryLen d b.r)) = some b →
    b.ix.journal.isSome = true → dirPending b.ix d.epoch = false → discardWaits s d b = false →
    (∀ w x, answer w x = answerOf b.tie.image d.epoch (dfield d 36 2) (massModeOf d) (finalAsc b) true w (tempOf d) (listsFor x 0)) →
    mapEv (evalPart b) s (sortNat ((rankParts b ((b.asks.map (fun a => a.q1)).headD [])).take (dfield d 42 1))) = (s1, .ok per) →
    ((answer false per).short = false ∨ dfield d 43 1 = 0 → hostOpen s1 d.tenant = true → ∃ t, exec (.search q seq) s = .next t ∧ Answered s1 d [answer false per] t)
    ∧ ((answer false per).short = true → dfield d 43 1 ≠ 0 → ∀ (s2 : State) (per2 : List (List (List CList))),
      mapEv (evalPart b) s (sortNat ((rankParts b ((b.asks.map (fun a => a.q1)).headD [])).take (dfield d 42 1 + dfield d 43 1))) = (s2, .ok per2) → hostOpen s2 d.tenant = true →
      ∃ t, exec (.search q seq) s = .next t ∧ Answered s2 d [answer true per2] t))
  ∧ (∀ (s s1 : State) (q : QId) (seq : Nat) (d : Desc) (b : Batch) (per : List (List (List CList))),
    wellFormed (.searchScan q seq) = true → placedDesc s q seq 0x02 = some d → idxRec s d.tenant (dfield d 32 4) = some b.r → namesFreed s d = false →
    scanFieldsOk s d b.r = true → d.hostFault = false → hostOpen s d.tenant = true → mkBatch s d (hostRead s (dfield d 16 8) (queryLen d b.r)) = some b →
    b.ix.journal.isSome = true → dirPending b.ix d.epoch = false → discardWaits s d b = false → ownBuffersOk s b = true → mapEv (evalPart b) s (scanParts d b.r) = (s1, .ok per) → hostOpen s1 d.tenant = true →
    ∃ t, exec (.searchScan q seq) s = .next t ∧ Answered s1 d ((List.range b.asks.length).map (fun i =>
      answerOf b.tie.image d.epoch (dfield d 36 2) (massModeOf d) (finalAsc b) true false (tempOf d) (listsFor per i))) t)
  ∧ (∀ (s : State) (q : QId) (seq : Nat) (d : Desc) (o : Obj) (p : Position) (tn : Tensor) (qs : List (List F32)),
    wellFormed (.topkDot q seq) = true → placedDesc s q seq 0x03 = some d → findObj s d.tenant (dfield d 32 4) = some o → posOf s d.tenant = some p →
    namesFreed s d = false → o.type = 0x05 → tn = tensorOf (memRead o.hdr 0 24) → topkFieldsOk d o tn p = true → d.hostFault = false → hostOpen s d.tenant = true →
    qs = (List.range (dfield d 38 2)).map (fun i => f32s (hostRead s (dfield d 16 8 + i * stridesOf tn.cols) (4 * tn.cols))) → qs.all (fun x => x.all isFinite) = true →
    keyBad s o tn (dfield d 40 8) (topkRows d tn) = none →
    ∃ t, exec (.topkDot q seq) s = .next t ∧ Answered s { d with epoch := 0 } (qs.map (fun x =>
      answerOf p.digest 0 (dfield d 36 2) (massModeOf d) false false false (tempOf d) ((keyRanges p tn.rows (dfield d 40 8) (topkRows d tn)).map (keyList p.digest (dfield d 36 2) tn o.data x)))) t)
  ∧ (∀ (s : State) (q : QId) (seq op : Nat) (c : Instr) (d : Desc), (op = 0x01 ∧ c = .search q seq ∨ op = 0x02 ∧ c = .searchScan q seq) → wellFormed c = true → placedDesc s q seq op = some d →
    (idxRec s d.tenant (dfield d 32 4) = none → ∃ t, exec c s = .next t ∧ Completed s d 0x15 0 t ∧ OnlyQueues s t)
    ∧ (∀ r, idxRec s d.tenant (dfield d 32 4) = some r → namesFreed s d = true ∨ (if op = 0x01 then searchFieldsOk s d r else scanFieldsOk s d r) = false →
      ∃ t, exec c s = .next t ∧ Completed s d 0x15 0 t ∧ OnlyQueues s t)
    ∧ (∀ r, idxRec s d.tenant (dfield d 32 4) = some r → namesFreed s d = false → (if op = 0x01 then searchFieldsOk s d r else scanFieldsOk s d r) = true →
      (d.hostFault = true ∨ hostOpen s d.tenant = false → ∃ t, exec c s = .next t ∧ Completed s d 0x24 0 t ∧ OnlyQueues s t)
      ∧ (∀ b, d.hostFault = false → hostOpen s d.tenant = true → mkBatch s d (hostRead s (dfield d 16 8) (queryLen d r)) = some b →
        (b.ix.journal = none → ∃ t, exec c s = .next t ∧ Completed s d 0x13 0 t ∧ OnlyQueues s t)
        ∧ (b.ix.journal.isSome = true → dirPending b.ix d.epoch = true ∨ discardWaits s d b = true → exec c s = .next s)
        ∧ (op = 0x02 → b.ix.journal.isSome = true → dirPending b.ix d.epoch = false → discardWaits s d b = false → ownBuffersOk s b = false → ∃ t, exec c s = .next t ∧ Completed s d 0x15 0 t ∧ OnlyQueues s t)
        ∧ (∀ ps, b.ix.journal.isSome = true → dirPending b.ix d.epoch = false → discardWaits s d b = false → (op = 0x02 → ownBuffersOk s b = true) →
          ps = (if op = 0x01 then sortNat ((rankParts b ((b.asks.map (fun a => a.q1)).headD [])).take (dfield d 42 1)) else scanParts d b.r) →
          (∀ s1 st, mapEv (evalPart b) s ps = (s1, .err st) → s1.pending = s.pending → ∃ t, exec c s = .next t ∧ Completed s1 d st 0 t ∧ OnlyQueues s1 t)
          ∧ (∀ s1, mapEv (evalPart b) s ps = (s1, .wait) → exec c s = .next (waitLists s d))
          ∧ (∀ s1 l s2, mapEv (evalPart b) s ps = (s1, .need l) → askAll s d b.num l = (s2, true) → exec c s = .next { waitLists s2 d with pending := s.pending })))))

/-- 05 R143; 06 R164, R168, R170, R172, R177 to R179: the final stage keeps the smaller of K and the entries that the duplicate pass leaves, in ascending KEY order, none of which has a larger KEY than an entry left out, and with the duplicate pass no identity twice; a result is 16 bytes an entry of K and a trailer of 32; a channel engine's RERANK adds its partial list and changes nothing of the request. -/
def Obligations.FinalStageKeepsTheBest : Prop :=
  (∀ (image epoch k : Nat) (dedup : Bool) (l : List Cand),
    (finalStage image epoch k dedup l).kept.length = min k (livePass dedup l).length
      ∧ List.Pairwise (fun a b => a.key ≤ b.key) (finalStage image epoch k dedup l).kept
      ∧ (∀ a ∈ (finalStage image epoch k dedup l).kept, ∀ b ∈ (finalStage image epoch k dedup l).rest, a.key ≤ b.key)
      ∧ (dedup = true → List.Pairwise (fun a b => sameId a b = false) (finalStage image epoch k dedup l).kept)
      ∧ (∀ a ∈ (finalStage image epoch k dedup l).kept, a ∈ l))
  ∧ (∀ (k mass epoch : Nat) (asc widened : Bool) (temp : F32) (f : Final) (ls : List CList), f.kept.length ≤ k →
    (resultBytes k mass asc temp epoch f ls widened).length = 16 * k + 32)
  ∧ (∀ (s : State) (ch : Nat) (req : RerankReq) (r : IdxRec) (ix : Index) (s1 : State) (cs : List Cand), wellFormed (.rerank ch req) = true →
    idxRec s req.tenant req.index = some r → findIndex s req.tenant req.index = some ix →
    (flashWait s = true → exec (.rerank ch req) s = .next s)
    ∧ (∀ v, flashWait s = false → v = pvAt s req.tenant req.index req.partition req.epoch r ix noEdge → ownGuard s req.tenant v.h.vecObj = none →
      engineAll req.tenant ix v req.partition
        { q1 := req.query, nav := ⟨[], [], fZero⟩, k := req.depthK, beam := 0, depth := req.items.length, plies := 0, widenPlies := 0, filter := noEdge, preds := req.preds }
        false s ((req.items.map (fun i => ({ key := 0, score := fZero, slot := i.slot, ring := if i.side then some (i.vindex - v.d.slots) else none, userKey := i.userKey, version := i.version } : WEnt))).filter
          (fun e => vecChan r v.h (vecIndex v e) == ch)) = (s1, .ok cs) →
      exec (.rerank ch req) s = .next { dropAsked s1 (.tenant req.tenant 65) ch with pending := s.pending, partials := s.partials ++ [⟨ch, req.tenant, req.index, req.partition, cs.map (fun c => (c.userKey, c.score, c.key, c.slot, c.eflags, c.version))⟩] }))

/-! ### Updating an index -/

/-- 07 R185, R188 to R191, R194, R201 to R203, R206, R207, R209, R210: an INSERT, a DELETE and a CONSOLIDATE that nothing refuses wait with what they read, and are refused before that with nothing changed; their commit takes the next epoch of the index, is in effect whole, writes its result and is recorded with that epoch, or is refused at that epoch, which is then never used again; its record waits for the second move after; an index that can take no epoch in this move, or whose overlay is full, waits; a consolidation takes its steps one at a time and completes when no work is left. -/
def Obligations.IndexMutationsCommit : Prop :=
  (∀ (s : State) (q : QId) (seq op : Nat) (c : Instr) (d : Desc) (acc : Except Nat (IdxRec × Index)),
    (op = 0x08 ∧ c = .insert q seq ∧ acc = mutAccept s d (dfield d 32 4) (dfield d 36 2) (fun r _ => insFieldsOk d r)
      ∨ op = 0x09 ∧ c = .delete q seq ∧ acc = mutAccept s d (dfield d 32 4) (dfield d 36 2) (fun _ _ => delFieldsOk d)
      ∨ op = 0x0A ∧ c = .consolidate q seq ∧ acc = mutAccept s d (dfield d 24 4) (dfield d 28 2) (fun _ e => consFieldsOk d e)) →
    wellFormed c = true → placedDesc s q seq op = some d → d.work = .none →
    (∀ st, acc = .error st → ∃ t, exec c s = .next t ∧ Completed s d st 0 t ∧ OnlyQueues s t)
    ∧ (∀ x, acc = .ok x → op ≠ 0x0A → d.hostFault = true ∨ hostOpen s d.tenant = false → ∃ t, exec c s = .next t ∧ Completed s d 0x24 0 t ∧ OnlyQueues s t)
    ∧ (∀ x, acc = .ok x → op = 0x0A → exec c s = .next (putDesc s { d with work := .consolidate none none 0 0 0 0 0 0 }))
    ∧ (∀ x es, acc = .ok x → op = 0x08 → d.hostFault = false → hostOpen s d.tenant = true → es.length = dfield d 38 2 →
      es = (List.range (dfield d 38 2)).filterMap (fun i => insEntryOf x.1 (((hostRead s (dfield d 16 8) (dfield d 38 2 * x.1.entrySize)).drop (i * x.1.entrySize)).take x.1.entrySize)) →
      exec c s = .next (putDesc s { d with work := .insert es }))
    ∧ (∀ x es, acc = .ok x → op = 0x09 → d.hostFault = false → hostOpen s d.tenant = true →
      es = (List.range (dfield d 40 4)).map (fun i => (fieldAt (hostRead s (dfield d 16 8) (8 * dfield d 40 4)) (8 * i) 4, fieldAt (hostRead s (dfield d 16 8) (8 * dfield d 40 4)) (8 * i + 4) 2)) →
      (∀ i, i < dfield d 40 4 → fieldAt (hostRead s (dfield d 16 8) (8 * dfield d 40 4)) (8 * i + 6) 2 = 0) → exec c s = .next (putDesc s { d with work := .delete es })))
  ∧ (∀ (s : State) (q : QId) (seq : Nat) (d : Desc) (es : List InsEntry), wellFormed (.mutationCommit q seq) = true → placedDesc s q seq 0x08 = some d → d.work = .insert es →
    (mutOf s d.tenant (dfield d 32 4) (dfield d 36 2) = none → exec (.mutationCommit q seq) s = .next s)
    ∧ (∀ m, mutOf s d.tenant (dfield d 32 4) (dfield d 36 2) = some m →
      (flashWait s = true ∨ moveHeld s d m.num m.part = true ∨ setPending s m.t m.num m.part = true → exec (.mutationCommit q seq) s = .next s)
      ∧ (flashWait s = false → moveHeld s d m.num m.part = false → setPending s m.t m.num m.part = false →
        (d.hostFault = true → ∃ t, exec (.mutationCommit q seq) s = .next t ∧ Completed s d 0x24 0 t ∧ OnlyQueues s t)
        ∧ (∀ st, d.hostFault = false → insEpochBad (m.view s) es = some st → ∃ t, exec (.mutationCommit q seq) s = .next t
          ∧ (∃ dups, t.qe.recs = s.qe.recs ++ recOf d st 0 0 0 (m.epoch / 65536 + 2) :: dups) ∧ getTt t d.q d.seq = ⟨d.seq, .complete, st⟩
          ∧ t.indexes = (putIndex s (takeEpoch s m.ix)).indexes ∧ OnlyQueues (putIndex s (takeEpoch s m.ix)) t)
        ∧ (∀ (p : InsPlan) (s0 : State) (x : Draft) (ad : List (Nat × List Byte)) (need : Nat), d.hostFault = false → insEpochBad (m.view s) es = none → p = insPlan s m es →
          s0 = { s with freeCtr := s.freeCtr + p.stats.length } → x = draftInsert s0 m (dfield d 40 1) (dfield d 42 2) p → ad = newSet m (m.view s0) p →
          need = x.need + (ad.map (fun w => w.2.length)).sum →
          (fitOf s0 m { x with need := need } = .never → ∃ t, exec (.mutationCommit q seq) s = .next t ∧ Completed s d 0x13 0 t ∧ t.indexes = s.indexes ∧ t.ms = s.ms)
          ∧ (fitOf s0 m { x with need := need } = .waits → exec (.mutationCommit q seq) s = .next s0)
          ∧ (∀ st, fitOf s0 m { x with need := need } = .fits → x.fault = some st → ∃ t, exec (.mutationCommit q seq) s = .next t
            ∧ getTt t d.q d.seq = ⟨d.seq, .complete, st⟩ ∧ t.hostMem = s.hostMem ∧ t.indexes = (putIndex s (takeEpoch s m.ix)).indexes ∧ t.ms.objs = s.ms.objs)
          ∧ (∀ w : State, fitOf s0 m { x with need := need } = .fits → x.fault = none → x.deltas = [] → w = adoptSet (land m x) d.tenant m.num m.part m.epoch ad → hostOpen w d.tenant = true →
            ∃ t, exec (.mutationCommit q seq) s = .next t
              ∧ (∃ dups, t.qe.recs = w.qe.recs ++ recOf d 0x00 0 0 m.epoch (m.epoch / 65536 + 2) :: dups)
              ∧ getTt t d.q d.seq = ⟨d.seq, .complete, 0x00⟩
              ∧ hostRead t (dfield d 24 8) (insResult m p).length = insResult m p
              ∧ HostOutside w t (dfield d 24 8) (insResult m p).length
              ∧ t.indexes = w.indexes ∧ t.ms = w.ms ∧ t.fl = w.fl)))))
  ∧ (∀ (s : State) (q : QId) (seq : Nat) (d : Desc) (es : List (Nat × Nat)) (m : Mut) (tg : List (Nat × Nat)) (x : Draft), wellFormed (.mutationCommit q seq) = true →
    placedDesc s q seq 0x08 = none → placedDesc s q seq 0x09 = some d → d.work = .delete es → mutOf s d.tenant (dfield d 32 4) (dfield d 36 2) = some m →
    tg = delTargets (m.view s) es →
    x = closeMut m (tg.foldl (deleteOne m) (firstSet m (m.look { s := s } (recReads (m.view s) ((es.map Prod.fst).filter (fun i => decide (i < (m.view s).d.slots))))))) →
    (moveHeld s d m.num m.part = true → exec (.mutationCommit q seq) s = .next s)
    ∧ (moveHeld s d m.num m.part = false → d.hostFault = true → ∃ t, exec (.mutationCommit q seq) s = .next t ∧ Completed s d 0x24 0 t ∧ OnlyQueues s t)
    ∧ (moveHeld s d m.num m.part = false → d.hostFault = false →
      (m.r.tomb = false → (m.view s).u.sideCap < (m.view s).u.tail - (m.view s).u.head + tg.length → ∃ t, exec (.mutationCommit q seq) s = .next t
        ∧ (∃ dups, t.qe.recs = s.qe.recs ++ recOf d 0x13 0 0 0 (m.epoch / 65536 + 2) :: dups) ∧ getTt t d.q d.seq = ⟨d.seq, .complete, 0x13⟩ ∧ OnlyQueues (putIndex s (takeEpoch s m.ix)) t)
      ∧ (m.r.tomb = true ∨ (m.view s).u.tail - (m.view s).u.head + tg.length ≤ (m.view s).u.sideCap → fitOf s m x = .waits → exec (.mutationCommit q seq) s = .next s)
      ∧ (m.r.tomb = true ∨ (m.view s).u.tail - (m.view s).u.head + tg.length ≤ (m.view s).u.sideCap → fitOf s m x = .fits → x.fault = none → x.deltas = [] → hostOpen (land m x) d.tenant = true →
        ∃ t, exec (.mutationCommit q seq) s = .next t
          ∧ (∃ dups, t.qe.recs = (land m x).qe.recs ++ recOf d 0x00 0 0 m.epoch (m.epoch / 65536 + 2) :: dups)
          ∧ getTt t d.q d.seq = ⟨d.seq, .complete, 0x00⟩
          ∧ hostRead t (dfield d 24 8) 32 = toLE 8 m.epoch ++ (toLE 4 tg.length ++ (toLE 4 (es.length - tg.length) ++ zeros 16))
          ∧ HostOutside (land m x) t (dfield d 24 8) 32 ∧ t.indexes = (land m x).indexes ∧ t.ms = (land m x).ms ∧ t.fl = (land m x).fl)))
  ∧ (∀ (s : State) (q : QId) (seq : Nat) (d : Desc) (f l : Option Nat) (st fo re fr ph cu : Nat), wellFormed (.consolidationStep q seq) = true →
    placedDesc s q seq 0x0A = some d → d.work = .consolidate f l st fo re fr ph cu →
    (consHeld s d = true → exec (.consolidationStep q seq) s = .next s)
    ∧ (∀ m, consHeld s d = false → mutOf s d.tenant (dfield d 24 4) (dfield d 28 2) = some m → hostOpen s d.tenant = true → openDeltas s d = [] →
      (consNext (m.view s) f (dfield d 32 4) (consEnd d (m.view s).d.slots) 4 ph cu).2 = [] →
      ∃ t, exec (.consolidationStep q seq) s = .next t
        ∧ (∃ dups, t.qe.recs = s.qe.recs ++ recOf d 0x00 0 0 (l.getD 0) (recMove l) :: dups) ∧ getTt t d.q d.seq = ⟨d.seq, .complete, 0x00⟩
        ∧ hostRead t (dfield d 16 8) 32 = consResult f l st fo re fr ∧ HostOutside s t (dfield d 16 8) 32 ∧ t.indexes = s.indexes ∧ t.ms = s.ms)
    ∧ (∀ m x y, consHeld s d = false → mutOf s d.tenant (dfield d 24 4) (dfield d 28 2) = some m → flashWait s = false → moveHeld s d m.num m.part = false →
      (consNext (m.view s) f (dfield d 32 4) (consEnd d (m.view s).d.slots) 4 ph cu).1 = 2 →
      y = ((consNext (m.view s) f (dfield d 32 4) (consEnd d (m.view s).d.slots) 4 ph cu).2.take (dfield d 30 2)) → y ≠ [] →
      x = closeMut m (y.foldl (freeOne m) (firstSet m { s := s })) →
      (fitOf s m x = .waits → exec (.consolidationStep q seq) s = .next s)
      ∧ (fitOf s m x = .fits → x.fault = none → x.deltas = [] → x.s.pending = s.pending →
        (consNext (m.view (land m x)) (some (f.getD m.epoch)) (dfield d 32 4) (consEnd d (m.view s).d.slots) 4 2 (y.getLast?.getD 0 + 1)).2 ≠ [] →
        exec (.consolidationStep q seq) s = .next (putDesc (land m x) { d with work := .consolidate (some (f.getD m.epoch)) (some m.epoch) (st + 1) fo re (fr + y.length) 2 (y.getLast?.getD 0 + 1) }))))

/-- 07 R184, R185, R192, R193, R211, R216, R217: an epoch is the move, the node and the place among the commits of the move, so that two commits of one index never share one and a 257th waits; before-images leave once their horizon has come, and FLOOR and SIDE_HEAD follow; a journalled write takes effect once its move has come and both members have acknowledged it, not before one with an earlier epoch; it keeps its before-image and completes its request. -/
def Obligations.EpochsAndBeforeImages : Prop :=
  (∀ (s : State) (ix : Index) (e : Nat), nextEpoch s ix = some e → s.fab.node < 256 →
    s.fab.node ≠ 255 ∧ e / 65536 = moveOf s ∧ e / 256 % 256 = s.fab.node ∧ e % 256 = (if ix.commitMove = moveOf s then ix.commitCount else 0))
  ∧ (∀ (s : State) (ix : Index) (e e' : Nat), nextEpoch s ix = some e → nextEpoch s (takeEpoch s ix) = some e' → e' = e + 1)
  ∧ (∀ (s : State) (ix : Index), ix.commitMove = moveOf s → 256 ≤ ix.commitCount → nextEpoch s ix = none)
  ∧ (∀ (s : State) (t num part : Nat), wellFormed (.beforeImageRetire t num part) = true →
    (findIndex s t num = none → exec (.beforeImageRetire t num part) s = .next s)
    ∧ (∀ (ix : Index) (r : IdxRec) (o : Obj) (ua fl : Nat), findIndex s t num = some ix → idxRec s t num = some r → findObj s t num = some o → ua = uaOff r (dirAt r o.data part) →
      fl = (ix.images.filter (fun i => i.part == part && decide (i.epoch / 65536 + 4096 ≤ moveOf s))).foldl (fun a i => max a i.epoch) (updAt r o.data (dirAt r o.data part)).floor →
      ∃ u x, exec (.beforeImageRetire t num part) s = .next u
        ∧ findIndex u t num = some { ix with images := ix.images.filter (fun i => !((i.part == part || i.part == dirPart) && decide (i.epoch / 65536 + 4096 ≤ moveOf s))) }
        ∧ u.fl.retained = s.fl.retained.filter (fun k => !(k.tenant == t && k.index == num && k.part == part && decide (k.epoch / 65536 + 4096 ≤ moveOf s)))
        ∧ findObj u t num = some { o with data := x }
        ∧ memRead x (ua + 32) 8 = (if fl = (updAt r o.data (dirAt r o.data part)).floor then memRead o.data (ua + 32) 8 else toLE 8 fl)
        ∧ (∀ b, (b < ua + 16 ∨ ua + 24 ≤ b) → (b < ua + 32 ∨ ua + 40 ≤ b) → memGet x b = memGet o.data b)
        ∧ (∀ t' n', t' ≠ t ∨ n' ≠ num → findObj u t' n' = findObj s t' n' ∧ findIndex u t' n' = findIndex s t' n')
        ∧ u = { s with indexes := u.indexes, ms := u.ms, fl := { s.fl with retained := u.fl.retained } }))
  ∧ (∀ (s : State) (t num : Nat), wellFormed (.journalWriteApply t num) = true →
    (findIndex s t num = none → exec (.journalWriteApply t num) s = .next s)
    ∧ (∀ ix, findIndex s t num = some ix → (∀ w ∈ ix.writes, ¬ (w.ack1 = true ∧ w.ack2 = true ∧ w.epoch / 65536 ≤ moveOf s)) → exec (.journalWriteApply t num) s = .next s)
    ∧ (∀ ix w, findIndex s t num = some ix → w ∈ ix.writes → ¬ (w.ack1 = true ∧ w.ack2 = true ∧ w.epoch / 65536 ≤ moveOf s) → (∀ y ∈ ix.writes, y = w ∨ w.epoch < y.epoch) →
      exec (.journalWriteApply t num) s = .next s)
    ∧ (∀ ix o w d, findIndex s t num = some ix → findObj s t num = some o → o.tier < 2 → ix.writes = [w] → w.ack1 = true → w.ack2 = true → w.epoch / 65536 ≤ moveOf s →
      findDesc s w.q w.seq = some d → ∃ u x, exec (.journalWriteApply t num) s = .next u ∧ Completed s d 0x00 0 u
        ∧ findObj u t num = some x ∧ x = { o with hdr := x.hdr, data := memWrite o.data w.off w.bytes }
        ∧ (∃ jx, findIndex u t num = some jx ∧ jx.writes = [] ∧ ∃ old, jx.images = ix.images ++ [⟨w.epoch, dirPart, old⟩]
            ∧ old = (List.zip (List.range w.bytes.length) (memRead o.data w.off w.bytes.length)).map (fun ib => (num, w.off + ib.1, ib.2)))
        ∧ (∀ t' n', t' ≠ t ∨ n' ≠ num → findObj u t' n' = findObj s t' n' ∧ findIndex u t' n' = findIndex s t' n') ∧ u.hostMem = s.hostMem))

/-! ### Objects -/

/-- 08 R223 to R226, R228, R231, R234, R237, R239, R240, R243 to R248; 09 R268, R269; 10 R305: commands on local objects. A command on a missing or freed object, or with fields that its rule refuses, completes with the refusal and changes nothing; a write waits for the earlier writes of its rows, and a read for an earlier DISCARD of its units; a read delivers the object's bytes to host memory and nothing else; a write stores its bytes in its object and nothing else; a CREATE makes the object, a MOVE and a FREE mark it and wait for their boundary; a DISCARD of units trims them; a BANK_OP puts the first chunk of every channel on its bank unit's stream, and with its last chunk it completes; a row operation gives its destination row the value of its operation, and one whose source cannot be read writes nothing; the object that a peer's PLACE charges here takes an extent of its own, and is freed again. -/
def Obligations.ObjectCommands : Prop :=
  (∀ (s : State) (q : QId) (seq op : Nat) (c : Instr) (d : Desc) (num : Nat),
    (op = 0x10 ∧ c = .tileRead q seq ∨ op = 0x11 ∧ c = .tileWrite q seq ∨ op = 0x14 ∧ c = .objRead q seq ∨ op = 0x15 ∧ c = .objWrite q seq ∨ op = 0x16 ∧ c = .discard q seq) →
    num = (if op = 0x16 then dfield d 16 4 else dfield d 32 4) → wellFormed c = true → dueDesc s q seq op = some d → d.work = .none →
    (namesFreed s d = true → ∃ t, exec c s = .next t ∧ Completed s d 0x15 0 t ∧ OnlyQueues s t)
    ∧ (findObj s d.tenant num = none → op = 0x10 ∨ op = 0x14 ∨ writeHeld s d = false → ∃ t, exec c s = .next t ∧ Completed s d 0x15 0 t ∧ OnlyQueues s t)
    ∧ (namesFreed s d = false → op ≠ 0x10 → op ≠ 0x14 → writeHeld s d = true → exec c s = .next s))
  ∧ (∀ (s : State) (q : QId) (seq : Nat) (d : Desc) (o : Obj), wellFormed (.objRead q seq) = true → dueDesc s q seq 0x14 = some d → d.work = .none → namesFreed s d = false →
    findObj s d.tenant (dfield d 32 4) = some o →
    (accessOk d o = true → dfield d 40 8 = 0 → discardHeld s d o.num (dfield d 24 8) (dfield d 36 4) = true → exec (.objRead q seq) s = .next s)
    ∧ (accessOk d o = false ∨ dfield d 40 8 ≠ 0 → ∃ t, exec (.objRead q seq) s = .next t ∧ Completed s d 0x15 0 t ∧ OnlyQueues s t)
    ∧ (accessOk d o = true → dfield d 40 8 = 0 → discardHeld s d o.num (dfield d 24 8) (dfield d 36 4) = false → o.tier < 2 → stackBad s o (dfield d 24 8) (dfield d 36 4) = none →
      ∃ t, exec (.objRead q seq) s = .next t ∧ Completed s d 0x00 0 t
        ∧ (hostOpen s d.tenant = true → hostRead t (dfield d 16 8) (dfield d 36 4) = memRead o.data (dfield d 24 8) (dfield d 36 4))
        ∧ HostOutside s t (dfield d 16 8) (dfield d 36 4) ∧ OnlyQueues { s with hostMem := t.hostMem } t)
    ∧ (∀ b, accessOk d o = true → dfield d 40 8 = 0 → discardHeld s d o.num (dfield d 24 8) (dfield d 36 4) = false → o.tier < 2 → stackBad s o (dfield d 24 8) (dfield d 36 4) = some b →
      ∃ t, exec (.objRead q seq) s = .next t ∧ getTt t d.q d.seq = ⟨d.seq, .complete, 0x21⟩ ∧ t.hostMem = s.hostMem ∧ t.ms.objs = s.ms.objs))
  ∧ (∀ (s : State) (q : QId) (seq : Nat) (d : Desc) (o : Obj) (l : List (Nat × List Byte)) (c : Instr),
    findObj s d.tenant (dfield d 32 4) = some o → d.work = .none → namesFreed s d = false → writeHeld s d = false → d.hostFault = false → hostOpen s d.tenant = true →
    o.tier < 2 → guardedOn s d.tenant o.num = false →
    (c = .objWrite q seq ∧ wellFormed c = true ∧ dueDesc s q seq 0x15 = some d ∧ accessOk d o = true ∧ boundObj s d.tenant o.num = false ∧ lockedDel s o = false
        ∧ o.type ≠ 1 ∧ o.type ≠ 8 ∧ dfield d 40 8 = 0 ∧ l = [(dfield d 24 8, hostRead s (dfield d 16 8) (dfield d 36 4))]
      ∨ ∃ tn, c = .tileWrite q seq ∧ wellFormed c = true ∧ dueDesc s q seq 0x11 = some d ∧ tn = tensorOf (memRead o.hdr 0 24) ∧ tileOk d o tn true = true
        ∧ (∀ h ∈ suppliedHeaders s d tn.fmt, fieldAt h 0 4 = 0x4C49544C ∧ fieldAt h 4 1 = tn.fmt) ∧ l = tileWriteParts s d tn (suppliedHeaders s d tn.fmt)) →
    ∃ t, exec c s = .next t ∧ Completed s d 0x00 0 t
      ∧ (∃ x, findObj t d.tenant o.num = some x ∧ x.data = l.foldl (fun m p => memWrite m p.1 p.2) o.data ∧ x = { o with hdr := x.hdr, data := x.data })
      ∧ (∀ u n, u ≠ d.tenant ∨ n ≠ o.num → findObj t u n = findObj s u n)
      ∧ OnlyQueues { s with ms := { s.ms with objs := t.ms.objs, badBursts := t.ms.badBursts, badRows := t.ms.badRows } } t)
  ∧ (∀ (s : State) (q : QId) (seq : Nat) (d : Desc) (o : Obj) (tn : Tensor), wellFormed (.tileRead q seq) = true → dueDesc s q seq 0x10 = some d → d.work = .none →
    namesFreed s d = false → findObj s d.tenant (dfield d 32 4) = some o → tn = tensorOf (memRead o.hdr 0 24) →
    (tileOk d o tn false = false → ∃ t, exec (.tileRead q seq) s = .next t ∧ Completed s d 0x15 0 t ∧ OnlyQueues s t)
    ∧ (tileOk d o tn false = true → discardHeld s d o.num 0 o.size = true → exec (.tileRead q seq) s = .next s)
    ∧ (tileOk d o tn false = true → discardHeld s d o.num 0 o.size = false → tileFabric d = false → o.tier < 2 → hostOpen s d.tenant = true →
      (∀ p ∈ tileParts d o tn, ∀ x, p.2 = .inr x → stackBad s o x.1 x.2 = none) →
      ∃ t, exec (.tileRead q seq) s = .next t ∧ Completed s d 0x00 0 t
        ∧ t.hostMem = (tileParts d o tn).foldl (fun m p => memWrite m p.1 (p.2.elim id (fun x => memRead o.data x.1 x.2))) s.hostMem
        ∧ OnlyQueues { s with hostMem := t.hostMem } t))
  ∧ (∀ (s : State) (q : QId) (seq : Nat) (d : Desc) (peer : PeerAnswer), wellFormed (.place q seq (.own peer)) = true → dueDesc s q seq 0x12 = some d → d.work = .none →
    (namesFreed s d = true ∨ writeHeld s d = false ∧ placeFieldsOk s d (findObj s d.tenant (dfield d 24 4)) = false →
      ∃ t, exec (.place q seq (.own peer)) s = .next t ∧ Completed s d 0x15 0 t ∧ OnlyQueues s t)
    ∧ (namesFreed s d = false → writeHeld s d = true → exec (.place q seq (.own peer)) s = .next s)
    ∧ (namesFreed s d = false → writeHeld s d = false → dfield d 28 1 = 0 → findObj s d.tenant (dfield d 24 4) = none → placeFieldsOk s d none = true → dfield d 30 1 < 2 →
      (dfield d 29 1 = 5 → d.hostFault = false ∧ hostOpen s d.tenant = true ∧ tensorFits (hostRead s (dfield d 16 8) 4096) (dfield d 32 8) = true) →
      (chargeOk s d (dfield d 32 8) [] = false → ∃ t, exec (.place q seq (.own peer)) s = .next t ∧ Completed s d 0x13 0 t ∧ OnlyQueues s t)
      ∧ (chargeOk s d (dfield d 32 8) [] = true → s.ms.objs.length < 1048576 →
        ∃ t o, exec (.place q seq (.own peer)) s = .next t ∧ Completed s d 0x00 0 t ∧ findObj t d.tenant (dfield d 24 4) = some o
          ∧ o.type = dfield d 29 1 ∧ o.tier = dfield d 30 1 ∧ o.size = dfield d 32 8 ∧ o.raw = (dfield d 31 1 == 1) ∧ o.sqFirst = dfield d 42 2 ∧ o.sqCount = dfield d 44 2 ∧ o.st = 0
          ∧ o.data = (if dfield d 29 1 = 5 then newHeader (hostRead s (dfield d 16 8) 4096) else [])
          ∧ (∀ u n, u ≠ d.tenant ∨ n ≠ dfield d 24 4 → findObj t u n = findObj s u n)
          ∧ OnlyQueues { s with ms := { s.ms with objs := t.ms.objs, badBursts := t.ms.badBursts, badRows := t.ms.badRows } } t))
    ∧ (∀ o, namesFreed s d = false → writeHeld s d = false → findObj s d.tenant (dfield d 24 4) = some o → o.tier < 2 → dfield d 30 1 < 2 → placeFieldsOk s d (some o) = true →
      (dfield d 28 1 = 1 → chargeOk s d o.size [] = true →
        ∃ t x, exec (.place q seq (.own peer)) s = .next t ∧ findObj t d.tenant o.num = some { o with st := 1 } ∧ t.qe.recs = s.qe.recs
          ∧ t.ms.jobs = s.ms.jobs ++ [⟨d.q, d.seq, d.tenant, o.num, some x, false⟩] ∧ x.tier = dfield d 30 1 ∧ x.size = o.size ∧ x.type = o.type ∧ x.raw = (dfield d 31 1 == 1)
          ∧ (∀ u n, u ≠ d.tenant ∨ n ≠ o.num → findObj t u n = findObj s u n) ∧ t.hostMem = s.hostMem)
      ∧ (dfield d 28 1 = 2 →
        ∃ t, exec (.place q seq (.own peer)) s = .next t ∧ findObj t d.tenant o.num = some { o with st := if o.st = 3 then 3 else 2 } ∧ t.qe.recs = s.qe.recs
          ∧ t.ms.jobs = s.ms.jobs ++ [⟨d.q, d.seq, d.tenant, o.num, none, false⟩]
          ∧ (∀ u n, u ≠ d.tenant ∨ n ≠ o.num → findObj t u n = findObj s u n) ∧ t.hostMem = s.hostMem)))
  ∧ (∀ (s : State) (q : QId) (seq : Nat) (d : Desc) (o : Obj), wellFormed (.discard q seq) = true → dueDesc s q seq 0x16 = some d → d.work = .none →
    namesFreed s d = false → writeHeld s d = false → findObj s d.tenant (dfield d 16 4) = some o →
    (o.tier ≠ 3 ∨ dfield d 32 4 = 0 ∨ 2 ^ 24 < dfield d 32 4 ∨ o.size < (dfield d 24 8 + dfield d 32 4) * 16384 → ∃ t, exec (.discard q seq) s = .next t ∧ Completed s d 0x15 0 t ∧ OnlyQueues s t)
    ∧ (o.tier = 3 → dfield d 32 4 ≠ 0 → dfield d 32 4 ≤ 2 ^ 24 → (dfield d 24 8 + dfield d 32 4) * 16384 ≤ o.size → (o.type = 3 → lockedVectors s d.tenant o.num = false) →
      flashWait s = false → flashFailed s = false → guardedOn s d.tenant o.num = false →
      (trimUnits (commit s d) o ((List.range (dfield d 32 4)).map (fun i => dfield d 24 8 + i))).2 = false →
      ∃ t, exec (.discard q seq) s = .next t ∧ Completed s d 0x00 0 t
        ∧ t.fl = (trimUnits (commit s d) o ((List.range (dfield d 32 4)).map (fun i => dfield d 24 8 + i))).1.fl
        ∧ (∀ u n, u ≠ d.tenant ∨ n ≠ o.num → findObj t u n = findObj s u n) ∧ t.hostMem = s.hostMem ∧ t.indexes = s.indexes ∧ t.squares = s.squares))
  ∧ (∀ (s : State) (q : QId) (seq : Nat) (d : Desc) (ops : List RowOp), wellFormed (.bankOp q seq) = true → dueDesc s q seq 0x18 = some d →
    namesFreed s d = false → writeHeld s d = false → dfield d 16 8 % 64 = 0 → 1 ≤ dfield d 40 2 → dfield d 40 2 ≤ 4096 → d.hostFault = false → hostOpen s d.tenant = true →
    ops = (List.range (dfield d 40 2)).filterMap (fun i => rowOpAt (((hostRead s (dfield d 16 8) (16 * dfield d 40 2)).drop (16 * i)).take 16)) →
    (∀ st, (ops.length ≠ dfield d 40 2 ∧ st = 0x15 ∨ ops.length = dfield d 40 2 ∧ bankCheck s d ops = some st) →
      ∃ t, exec (.bankOp q seq) s = .next t ∧ Completed s d st 0 t ∧ t.ms.refused = satAdd 16 s.ms.refused 1 ∧ OnlyQueues { s with ms := { s.ms with refused := t.ms.refused } } t)
    ∧ (ops.length = dfield d 40 2 → bankCheck s d ops = none →
      ∃ t, exec (.bankOp q seq) s = .next t ∧ findDesc t q seq = some { d with phase := .running, work := .bank (byBank s.ms.seed ops) [] }
        ∧ (∀ c ∈ (byBank s.ms.seed ops).map Prod.fst, ∀ i, bankStream s d.tenant c = some i → (⟨0, .chunk d.q d.seq⟩ : Token) ∈ (getStream t d.tenant i).tokens)
        ∧ t.qe.recs = s.qe.recs ∧ t = { s with qe := { s.qe with descs := t.qe.descs }, bd := { s.bd with streams := t.bd.streams } }))
  ∧ (∀ (s u : State) (q : QId) (seq path slot n : Nat) (d : Desc) (r : Run) (x : Stream) (rest : List Token) (l : List (Nat × List RowOp)) (bad : List Nat),
    u = emit (setStream s r.owner r.stream { getStream s r.owner r.stream with tokens := rest }) (.slot 4 path slot r.owner r.stream 0) → wellFormed (.slotTransfer 4 path slot) = true → allRuns s = [r] → r.kind = 4 → r.path = path → r.first ≤ slot → slot ≤ r.first + r.countM1 → streamOf s r.owner r.stream = some x →
    (getStream s r.owner r.stream).tokens = ⟨n, .chunk q seq⟩ :: rest → (getStream s r.owner r.stream).credits ≠ 0 →
    sqOfUnit s r.owner x.dest = none → sqOfUnit s r.owner x.source = none → findDesc s q seq = some d → d.work = .bank l bad →
    (r.first + r.countM1 + 1 - slot < 8 * (chunkOf l path).length → exec (.slotTransfer 4 path slot) s = .next s)
    ∧ (8 * (chunkOf l path).length ≤ r.first + r.countM1 + 1 - slot →
      (∀ e ∈ l, e.1 ≠ path → e.2 = []) → (∀ e ∈ l, e.1 = path → e.2.length ≤ 8) → ∃ t, exec (.slotTransfer 4 path slot) s = .next t
        ∧ t.ms = (bankRows d u (chunkOf l path)).1.ms ∧ t.hostMem = s.hostMem ∧ t.qe.descs = s.qe.descs.filter (fun y => y.n != d.n)
        ∧ getTt t d.q d.seq = ⟨d.seq, .complete, if (bankRows d u (chunkOf l path)).2 && bad.isEmpty then 0x00 else 0x21⟩))
  ∧ (∀ (s : State) (d : Desc) (r : RowOp) (o : Obj) (a b : List Byte),
    findObj s d.tenant ((bankNames d).getD r.dst.1 noEdge) = some o → o.tier = 1 →
    (∀ x ∈ r.srcs, ∃ y, findObj s d.tenant ((bankNames d).getD x.1 noEdge) = some y ∧ y.tier = 1) →
    ((∃ x ∈ r.srcs, ∃ y bad, findObj s d.tenant ((bankNames d).getD x.1 noEdge) = some y ∧ stackBad s y (x.2 * 1024) 1024 = some bad) →
      (bankRow s d r).1.ms = s.ms ∧ (bankRow s d r).2 = false)
    ∧ ((∀ x ∈ r.srcs, ∀ y, findObj s d.tenant ((bankNames d).getD x.1 noEdge) = some y → stackBad s y (x.2 * 1024) 1024 = none) →
      (∀ x y, r.srcs[0]? = some x → findObj s d.tenant ((bankNames d).getD x.1 noEdge) = some y → a = memRead y.data (x.2 * 1024) 1024) → (r.srcs[0]? = none → a = []) →
      (∀ x y, r.srcs[1]? = some x → findObj s d.tenant ((bankNames d).getD x.1 noEdge) = some y → b = memRead y.data (x.2 * 1024) 1024) → (r.srcs[1]? = none → b = []) →
      (∃ x, findObj (bankRow s d r).1 o.tenant o.num = some x ∧ x = { o with hdr := x.hdr, data := memWrite o.data (r.dst.2 * 1024) (r.value a b) })
        ∧ (∀ u n, u ≠ o.tenant ∨ n ≠ o.num → findObj (bankRow s d r).1 u n = findObj s u n)
        ∧ (bankRow s d r).1.ms.rowOps = satAdd 48 s.ms.rowOps 1 ∧ (bankRow s d r).2 = true))
  ∧ (∀ (s : State) (q : QId) (seq u node num size off : Nat) (raw : Bool), wellFormed (.place q seq (.create u node num size raw off)) = true → wellFormed (.place q seq (.free u node num)) = true →
    (exportOk s u node num size off = false → exec (.place q seq (.create u node num size raw off)) s = .next s)
    ∧ (exportOk s u node num size off = true → ∃ t e, exec (.place q seq (.create u node num size raw off)) s = .next t ∧ t.ms.exports = s.ms.exports ++ [e]
      ∧ e = { e with tenant := u, node := node, num := num, off := off, size := size, raw := raw, data := [] } ∧ useT2x t u = useT2x s u + size ∧ t.ms.objs = s.ms.objs
      ∧ t = { s with ms := { s.ms with exports := t.ms.exports, badBursts := t.ms.badBursts, badRows := t.ms.badRows }, bd := { s.bd with capT0 := t.bd.capT0, capStack := t.bd.capStack, capT3 := t.bd.capT3 } })
    ∧ (∃ t, exec (.place q seq (.free u node num)) s = .next t ∧ t.ms.exports = s.ms.exports.filter (fun e => !(e.tenant == u && e.node == node && e.num == num))
      ∧ t = { s with ms := { s.ms with exports := t.ms.exports }, bd := { s.bd with capT0 := t.bd.capT0, capStack := t.bd.capStack, capT3 := t.bd.capT3 } }))

/-! ### Resets and teardowns of a tenant -/

/-- 10 R324 to R326; 11 R372, R373: TENANT_RESET is refused for a number that names no active tenant or one that is retiring or resetting; else the tenant's queues hold no credit and its uncommitted descriptors end with ABORTED; when nothing of the tenant is under way its queues' tables are emptied and it completes, each ENABLED queue holding fresh credits and each disabled one DISABLED. A teardown of a torn-down or absent tenant does nothing; else it ends the uncommitted descriptors with FAULT_TEARDOWN, discards the messages that wait, and is done, with its report, once no context of the tenant is busy. A function level reset returns the function's queues and event settings to their reset values. -/
def Obligations.TenantResetsAndTeardowns : Prop :=
  (∀ (s : State) (seq : Nat) (d : Desc) (x : Nat), dueDesc s .admin seq 0x83 = some d → x = dfield d 16 1 →
    (64 < x ∨ hasPos s x = false ∨ (getT s x).retiring = true ∨ (getT s x).resetting.isSome = true → ∃ t, exec (.tenantReset seq) s = .next t ∧ Completed s d 0x15 0 t ∧ OnlyQueues s t)
    ∧ (x ≤ 64 → hasPos s x = true → (getT s x).retiring = false → (getT s x).resetting = none → (∀ e ∈ s.qe.descs, ∀ y ∈ s.qe.descs, e.n = y.n → e = y) →
      ∃ t, exec (.tenantReset seq) s = .next t ∧ getT t x = { getT s x with resetting := some (bit (dfield d 17 1) 0, some seq) } ∧ (∀ u, u ≠ x → getT t u = getT s u)
        ∧ (∀ k, k < 64 → (getQ t (.tenant x k)).avail = 0)
        ∧ (∀ e ∈ s.qe.descs, e.tenant = x → isAdmin e.q = false → isPending s e = true → (∀ y ∈ t.qe.descs, y.n ≠ e.n) ∧ ∃ r ∈ t.qe.recs, r.n = e.n ∧ r.status = 0x04)
        ∧ t.ms = s.ms ∧ t.fl = s.fl ∧ t.indexes = s.indexes))
  ∧ (∀ (s : State) (x : Nat), wellFormed (.tenantResetEnd x) = true →
    ((getT s x).resetting = none ∨ resetDue s x = false → exec (.tenantResetEnd x) s = .next s)
    ∧ (∀ dis seq d, (getT s x).resetting = some (dis, some seq) → resetDue s x = true → findDesc s .admin seq = some d →
      ∃ t, exec (.tenantResetEnd x) s = .next t ∧ getT t x = { getT s x with tornDown := false, storeFault := false, resetting := none, flr := false } ∧ getTt t d.q d.seq = ⟨d.seq, .complete, 0x00⟩
        ∧ t.qe.descs = s.qe.descs.filter (fun y => y.n != d.n)
        ∧ (dis = true → ∀ k, k < 64 → getQ t (.tenant x k) = { getQ s (.tenant x k) with tt := [], high := none, en := false, qstate := 0, avail := 0 })
        ∧ (dis = false → ∀ k, k < 64 → (getQ s (.tenant x k)).qstate = 2 →
          getQ t (.tenant x k) = { getQ s (.tenant x k) with tt := [], high := none, avail := creditLimit (getQ s (.tenant x k)) }))
    ∧ (∀ dis, (getT s x).resetting = some (dis, none) → resetDue s x = true →
      ∃ t, exec (.tenantResetEnd x) s = .next t ∧ getT t x = { getT s x with resetting := none, flr := false } ∧ t.qe.descs = s.qe.descs
        ∧ ((getT s x).flr = true → ∀ r ∈ t.qe.recs, r.creditOnly = false → isAdmin r.q = true ∨ tenantOf r.q ≠ x)
        ∧ (∀ k, k < 64 → (getQ s (.tenant x k)).qstate ≠ 1 → getQ t (.tenant x k) = { getQ s (.tenant x k) with tt := [], high := none })))
  ∧ (∀ (s : State) (seq : Nat) (d : Desc) (x : Nat), dueDesc s .admin seq 0x84 = some d → x = dfield d 16 1 →
    (64 < x → ∃ t, exec (.teardown (.admin seq)) s = .next t ∧ Completed s d 0x15 0 t ∧ OnlyQueues s t)
    ∧ (x ≤ 64 → (getT s x).tornDown = true ∨ hasPos s x = false → ∃ t, exec (.teardown (.admin seq)) s = .next t ∧ Completed s d 0x00 0 t ∧ OnlyQueues s t))
  ∧ (∀ (s : State) (src : TeardownSource) (x : Nat) (q : Option Nat),
    ((∃ seq d, src = .admin seq ∧ q = some d.seq ∧ dueDesc s .admin seq 0x84 = some d ∧ x = dfield d 16 1) ∨ (∃ tag, src = .manager tag x ∧ q = none ∧ nmcRuns s = true)) →
    x ≤ 64 → (getT s x).tornDown = false → hasPos s x = true → (∀ e ∈ s.qe.descs, ∀ y ∈ s.qe.descs, e.n = y.n → e = y) →
    (∀ g ∈ s.fab.held, ∀ h ∈ s.fab.held, g.work = h.work → g = h) → ∃ t, exec (.teardown src) s = .next t ∧ getT t x = { getT s x with tornDown := true, teardownBusy := true, teardownSeq := q }
      ∧ (∀ e ∈ s.qe.descs, e.tenant = x → isAdmin e.q = false → isPending s e = true → (∀ y ∈ t.qe.descs, y.n ≠ e.n) ∧ ∃ r ∈ t.qe.recs, r.n = e.n ∧ r.status = 0x23)
      ∧ t.fab.held = s.fab.held.filter (fun h => h.tenant != x || h.placed.isSome)
      ∧ t.fab.flashHeld = s.fab.flashHeld.filter (fun w => match w with | .delta _ y => y.tenant != x | .read _ _ => true)
      ∧ (∀ tag y, src = .manager tag y → t.out = s.out ++ [.answer tag 0]) ∧ t.ms = s.ms ∧ t.fl = s.fl ∧ t.indexes = s.indexes)
  ∧ (∀ (s : State) (tag x : Nat), nmcRuns s = true →
    (64 < x → exec (.teardown (.manager tag x)) s = .next (emit s (.answer tag 2)))
    ∧ (x ≤ 64 → (getT s x).tornDown = true ∨ hasPos s x = false → exec (.teardown (.manager tag x)) s = .next (emit s (.answer tag 0))))
  ∧ (∀ (s : State) (x : Nat), wellFormed (.teardownDone x) = true →
    ((getT s x).teardownBusy = false ∨ busyOf s x ≠ 0 → exec (.teardownDone x) s = .next s)
    ∧ ((getT s x).teardownBusy = true → busyOf s x = 0 →
      ∃ t, exec (.teardownDone x) s = .next t ∧ getT t x = { getT s x with teardownBusy := false, teardownSeq := none } ∧ .report 0x64 [x, 0, 0] ∈ t.out
        ∧ (∀ d, (getT s x).teardownSeq.bind (findDesc s .admin) = some d → Completed s d 0x00 0 t) ∧ ((getT s x).teardownSeq = none → t.qe = { s.qe with msix := t.qe.msix })))
  ∧ (∀ (s : State) (vf : Nat), wellFormed (.functionLevelReset vf) = true →
    (s.pw.hostUp = false → exec (.functionLevelReset vf) s = .next s)
    ∧ (s.pw.hostUp = true → (∀ e ∈ s.qe.descs, ∀ y ∈ s.qe.descs, e.n = y.n → e = y) → ∃ t, exec (.functionLevelReset vf) s = .next t
      ∧ (∀ k, k < 64 → getQ t (.tenant vf k) = { ({} : Queue) with pool := (getQ s (.tenant vf k)).pool })
      ∧ (∀ u k, u ≠ vf → k < 64 → (getQ t (.tenant u k)).avail = (getQ s (.tenant u k)).avail)
      ∧ (getT t vf).evtEn = false ∧ (getT t vf).evtVector = 0 ∧ (hasPos s vf = true → (getT t vf).flr = true)
      ∧ (∀ r ∈ t.qe.recs, isAdmin r.q = true ∨ tenantOf r.q ≠ vf) ∧ (∀ e ∈ t.qe.dups, isAdmin e.q = true ∨ tenantOf e.q ≠ vf)))

/-! ### Base layers and recompositions -/

/-- 02 R43 to R46, R62, R486: a LOAD that tenant 0 writes fails with the error of its first failing check, and keeps what there was; one that passes waits for a move boundary, and there the base layer is active: its stack seed is the node's, its streams hold their DEPTH of credits and DONE is set; an UNLOAD without a base layer only sets DONE, and one with a base layer leaves at a move boundary; a base layer that leaves clears every token binding. -/
def Obligations.BaseLayerCommands : Prop :=
  (∀ (s : State) (readOk : Bool) (b : List Byte), barFull s = true → b = hostRead s (s.bd.baseAddr * 4096) s.bd.baseLen →
    (baseBusy s = true → exec (.baseLoad ⟨0, readOk⟩) s = .next { s with bd := { s.bd with fail := true, err := 1 } })
    ∧ (baseBusy s = false →
      (s.bd.baseLen < 128 ∨ 2 ^ 26 < s.bd.baseLen → exec (.baseLoad ⟨0, readOk⟩) s = .next { s with bd := { s.bd with fail := true, err := 3 } })
      ∧ (128 ≤ s.bd.baseLen → s.bd.baseLen ≤ 2 ^ 26 →
        (hostOpen s 0 = false ∨ readOk = false → exec (.baseLoad ⟨0, readOk⟩) s = .next { s with bd := { s.bd with fail := true, err := 5 } })
        ∧ (∀ e, hostOpen s 0 = true → readOk = true →
            (baseHeaderOk b s.bd.baseLen = false ∧ e = 3 ∨ baseHeaderOk b s.bd.baseLen = true ∧ digestOk b = false ∧ e = 2
              ∨ baseHeaderOk b s.bd.baseLen = true ∧ digestOk b = true ∧ baseSectionsOk b s.bd.baseLen = false ∧ e = 3
              ∨ baseHeaderOk b s.bd.baseLen = true ∧ digestOk b = true ∧ baseSectionsOk b s.bd.baseLen = true ∧ (∃ x ∈ sectionsOf b, x.type < 0x8000 ∧ knownSection x.type = false) ∧ e = 6) →
            exec (.baseLoad ⟨0, readOk⟩) s = .next { s with bd := { s.bd with fail := true, err := e } })
        ∧ (hostOpen s 0 = true → readOk = true → baseHeaderOk b s.bd.baseLen = true → digestOk b = true → baseSectionsOk b s.bd.baseLen = true →
            (∀ x ∈ sectionsOf b, x.type < 0x8000 → knownSection x.type = true) →
            exec (.baseLoad ⟨0, readOk⟩) s = .next (if capacityBad (discover s) (baseOf b) = true then { discover s with bd := { s.bd with fail := true, err := 4 } }
              else if retainedBad (discover s) (baseOf b) = true then { discover s with bd := { s.bd with fail := true, err := 7 } }
              else { discover s with bd := { s.bd with base := 1, job := some (.load (baseOf b)) } }))))
    ∧ (baseBusy s = true → exec (.baseUnload 0) s = .next { s with bd := { s.bd with fail := true, err := 1 } })
    ∧ (baseBusy s = false → s.bd.layer = none → exec (.baseUnload 0) s = .next { s with bd := { s.bd with done := true, err := 0 } })
    ∧ (baseBusy s = false → s.bd.layer.isSome = true → exec (.baseUnload 0) s = .next { s with bd := { s.bd with job := some .unload } }))
  ∧ (∀ (s : State) (fn : Nat) (c : Instr), fn ≠ 0 → barFull s = true → ((∃ readOk, c = .baseLoad ⟨fn, readOk⟩) ∨ c = .baseUnload fn) → wellFormed c = true → exec c s = .next s)
  ∧ (∀ (s : State) (b : BaseLayer), s.bd.job = some (.load b) →
    (atBoundary s = false → exec .baseLayerActivate s = .next s)
    ∧ (atBoundary s = true → ∃ t, exec .baseLayerActivate s = .next t ∧ t.bd.layer = some b ∧ t.bd.base = 2 ∧ t.bd.done = true ∧ t.bd.err = 0 ∧ t.bd.job = none
      ∧ t.ms = { s.ms with seed := b.stackSeed } ∧ (∀ i x, b.streams[i]? = some x → i < 256 → getStream t 0x7F i = { credits := x.depth })
      ∧ (s.bd.layer.isSome = true → t.ts.vocabs = [] ∧ t.ts.grams = []) ∧ t = { s with bd := t.bd, ms := t.ms, ts := t.ts, fl := t.fl }))
  ∧ (∀ s : State, s.bd.job = some .unload →
    (atBoundary s = false → exec .baseLayerDeactivate s = .next s)
    ∧ (atBoundary s = true → ∃ t, exec .baseLayerDeactivate s = .next t ∧ t.bd.layer = none ∧ t.bd.base = 0 ∧ t.bd.done = true ∧ t.bd.err = 0 ∧ t.bd.job = none
      ∧ t.ts.vocabs = [] ∧ t.ts.grams = [] ∧ t.ms = s.ms ∧ t = { s with bd := t.bd, ts := t.ts }))

/-- 02 R48, R49, R51 to R53, R57 to R59, R62; 03 R92; 11 R346: an ADMIT_POSITION or a RETIRE_POSITION waits while an earlier recomposition is open; the one that starts is refused with the status and the reason of its first failing check, and nothing else changes, or goes on: an admission is staged, gets its activation move, and takes effect at the boundary of that move, its streams holding their DEPTH of credits and its waiting queues enabled; a retirement ends the tenant's uncommitted descriptors with ABORTED, and at a boundary at which nothing of the tenant is under way its Position is gone, its Squares hold no context and its queues no pool queue and no credit. That BD_ADMIT_STATUS.TENANT reads 0x7F before the digest has matched, and the REASON of a failed host read, are the model's choice (log entry 65). -/
def Obligations.Recompositions : Prop :=
  (∀ (s : State) (seq : Nat) (prog : ProgInfo) (d : Desc) (r : Recomp), dueDesc s .admin seq 0x80 = some d →
    r = { seq := d.seq, tenant := dfield d 16 1, retire := false, release := bit (dfield d 17 1) 0, acceptMove := d.move, prog := some prog, stage := .waiting } →
    (s.bd.recomps.any (fun x => x.seq == d.seq) = true ∨ earlierRecomp s d = true → exec (.admitPosition seq prog) s = .next s)
    ∧ (s.bd.recomps.any (fun x => x.seq == d.seq) = false → earlierRecomp s d = false →
      (s.bd.recomps ≠ [] ∨ recompUnwritten s = true → exec (.admitPosition seq prog) s = .next { s with bd := { s.bd with recomps := s.bd.recomps ++ [r] } })
      ∧ (s.bd.recomps = [] → recompUnwritten s = false → ∃ t, exec (.admitPosition seq prog) s = .next t ∧ AdmitStarts s d r [] t)))
  ∧ (∀ (s : State) (seq : Nat) (d : Desc) (r : Recomp), dueDesc s .admin seq 0x81 = some d →
    r = { seq := d.seq, tenant := dfield d 16 1, retire := true, release := bit (dfield d 17 1) 0, acceptMove := d.move, prog := none, stage := .waiting } →
    (s.bd.recomps.any (fun x => x.seq == d.seq) = true ∨ earlierRecomp s d = true → exec (.retirePosition seq) s = .next s)
    ∧ (s.bd.recomps.any (fun x => x.seq == d.seq) = false → earlierRecomp s d = false →
      (s.bd.recomps ≠ [] ∨ recompUnwritten s = true → exec (.retirePosition seq) s = .next { s with bd := { s.bd with recomps := s.bd.recomps ++ [r] } })
      ∧ (s.bd.recomps = [] → recompUnwritten s = false → ∃ t, exec (.retirePosition seq) s = .next t ∧ RetireStarts s d r [] t)))
  ∧ (∀ s : State, s.bd.recomps = [] → exec .recompositionStart s = .next s ∧ exec .stagingEnd s = .next s ∧ exec .recompositionActivate s = .next s ∧ exec .retirementBoundary s = .next s)
  ∧ (∀ (s : State) (r : Recomp) (rest : List Recomp), s.bd.recomps = r :: rest →
    (r.stage ≠ .waiting ∨ recompUnwritten s = true → exec .recompositionStart s = .next s)
    ∧ (∀ d, r.stage = .waiting → recompUnwritten s = false → adminDesc s r.seq = some d → (∀ x ∈ rest, x.seq ≠ r.seq) →
      ∃ t, exec .recompositionStart s = .next t ∧ (r.retire = false → AdmitStarts s d r rest t) ∧ (r.retire = true → RetireStarts s d r rest t)))
  ∧ (∀ (s : State) (r : Recomp) (rest : List Recomp) (p : Position), s.bd.recomps = r :: rest → r.stage = .staging p → (∀ x ∈ rest, x.seq ≠ r.seq) →
    (∀ d, p.actMove ≠ 0 → p.actMove < firstActMove s → adminDesc s r.seq = some d →
      ∃ t, exec .stagingEnd s = .next t ∧ RecompEnded s d rest (r.tenant % 128) (b2n r.retire) 0x15 0x0D t)
    ∧ (p.actMove = 0 ∨ firstActMove s ≤ p.actMove →
      exec .stagingEnd s = .next { s with bd := { s.bd with recomps := { r with stage := .staged p (if p.actMove = 0 then firstActMove s else p.actMove) } :: rest } }))
  ∧ (∀ (s : State) (r : Recomp) (rest : List Recomp) (p : Position) (m : Nat), s.bd.recomps = r :: rest → r.stage = .staged p m →
    (atBoundary s = false ∨ moveOf s < m → exec .recompositionActivate s = .next s)
    ∧ (∀ d, atBoundary s = true → m ≤ moveOf s → adminDesc s r.seq = some d →
      ∃ t, exec .recompositionActivate s = .next t ∧ posOf t p.tenant = some p ∧ (∀ u, u ≠ p.tenant → posOf t u = posOf s u)
        ∧ t.bd.admMove = moveOf s ∧ t.bd.admReason = 0 ∧ t.bd.admValid = true ∧ t.bd.recompAt = some s.tempo ∧ t.bd.recomps = rest.filter (fun x => x.seq != r.seq)
        ∧ (∀ i x, p.streams[i]? = some x → i < 256 → getStream t p.tenant i = { credits := x.depth })
        ∧ ((getT s p.tenant).resetting = none → ∀ k, k < 64 → (getQ s (.tenant p.tenant k)).qstate = 1 →
            (getQ t (.tenant p.tenant k)).qstate = 2 ∧ (getQ t (.tenant p.tenant k)).tt = [] ∧ ∃ x ∈ t.qe.recs, x.q = .tenant p.tenant k ∧ x.creditOnly = true)
        ∧ recOf d 0x00 0 0 0 0 ∈ t.qe.recs ∧ t.qe.descs = s.qe.descs.filter (fun x => x.n != d.n) ∧ ((∀ n k, d.phase ≠ .placed n k) → t.squares = s.squares)
        ∧ t.ms = s.ms ∧ t.fl = s.fl ∧ t.hostMem = s.hostMem))
  ∧ (∀ (s : State) (r : Recomp) (rest : List Recomp) (p : Position), s.bd.recomps = r :: rest → r.stage = .draining → posOf s r.tenant = some p → p.tenant = r.tenant →
    (r.release = true → releaseBound s r.tenant = true → ∃ t, exec .retirementBoundary s = .next t ∧ releaseBound t r.tenant = false ∧ draining t r.tenant = true ∧ t = { s with ts := t.ts })
    ∧ (r.release = true → releaseBound s r.tenant = false → draining s r.tenant = true → exec .retirementBoundary s = .next s)
    ∧ (r.release = false ∨ releaseBound s r.tenant = false ∧ draining s r.tenant = false →
      (atBoundary s = false ∨ tenantIdle s r.tenant = false ∨ castlingOn s p = true → exec .retirementBoundary s = .next s)
      ∧ (∀ d, atBoundary s = true → tenantIdle s r.tenant = true → castlingOn s p = false → adminDesc s r.seq = some d →
        ∃ t, exec .retirementBoundary s = .next t ∧ posOf t r.tenant = none ∧ (∀ u, u ≠ r.tenant → posOf t u = posOf s u)
          ∧ t.bd.admMove = moveOf s ∧ t.bd.admReason = 0 ∧ t.bd.admOp = b2n r.retire ∧ t.bd.recompAt = some s.tempo ∧ t.bd.recomps = rest.filter (fun x => x.seq != r.seq)
          ∧ (∀ k, k < 64 → (getQ t (.tenant r.tenant k)).pool = 0 ∧ (getQ t (.tenant r.tenant k)).avail = 0 ∧ (getQ t (.tenant r.tenant k)).qstate ≠ 2)
          ∧ (getT t r.tenant).retiring = false ∧ (getT t r.tenant).tornDown = false ∧ recOf d 0x00 0 0 0 0 ∈ t.qe.recs ∧ t.qe.descs = s.qe.descs.filter (fun x => x.n != d.n)
          ∧ (∀ o ∈ t.ms.objs, o.tenant = r.tenant → o.tier ≠ 0 ∧ r.release = false) ∧ (∀ o ∈ s.ms.objs, o.tenant ≠ r.tenant → o ∈ t.ms.objs) ∧ t.hostMem = s.hostMem)))

/-! ### Packets and messages -/

/-- 10 R304, R307 to R309, R311, R316, R322, R323, R333: a packet for another node or at a closed port does nothing; a LOAD, STORE, STORE_FLAG, ATOMIC or GREAD that fails a check is answered by a NACK with the cause of the first that fails; else a LOAD and a GREAD return the bytes, a STORE and a STORE_FLAG store theirs and are acknowledged, and an ATOMIC returns the old value and stores the new; each then frees its entries of the receive buffer. A GREAD waits, and keeps its entries, while flash is recovered. A response that nothing waits for is discarded (a NACK is counted), one for a Square that holds still is held with its entries, and one that a request waits for ends it and gives the data or the cause's status to what asked. A STORE_FLAG leaves once no earlier store of its tenant is open, and ends with FAULT_REMOTE where an earlier one has faulted or no link leads on. A request's timer does not run before its packet has left, while its link retrains or while its response is held; one that expires ends the request and is counted. -/
def Obligations.PacketsServedAndAnswered : Prop :=
  (∀ (s : State) (l n : Nat) (p : Packet) (c : Instr),
    (c = .load l p ∧ n = 1 ∨ c = .store l p ∧ n = 2 ∨ c = .storeFlag l p ∧ n = 3 ∨ c = .atomic l p ∧ n = 4 ∨ c = .gread l p ∧ n = 6 ∨ c = .data l p ∧ n = 8 ∨ c = .ack l p ∧ n = 9 ∨ c = .nack l p ∧ n = 0xA) →
    wellFormed c = true → takesPacket s l n p = false → exec c s = .next s)
  ∧ (∀ (s : State) (l n len : Nat) (p : Packet) (c : Instr) (fmt : Bool),
    (c = .load l p ∧ n = 1 ∧ fmt = spanOk p.addr p.len ∧ len = p.len ∨ c = .store l p ∧ n = 2 ∧ fmt = spanOk p.addr p.len ∧ len = p.len
      ∨ c = .storeFlag l p ∧ n = 3 ∧ fmt = (decide (p.addr % 8 = 0) && p.len == 0) ∧ len = 8 ∨ c = .atomic l p ∧ n = 4 ∧ fmt = atomicOk p ∧ len = 8) →
    wellFormed c = true → takesPacket s l n p = true →
    ((getT s p.tenant).tornDown = true → ∃ t, exec c s = .next t ∧ Replied (freePacket s l p) t l p 0xA 3 [])
    ∧ ((getT s p.tenant).tornDown = false → fmt = false → ∃ t, exec c s = .next t ∧ Replied (freePacket s l p) t l p 0xA 1 [])
    ∧ ((getT s p.tenant).tornDown = false → fmt = true → exportAt s p.tenant p.addr len = none → ∃ t, exec c s = .next t ∧ Replied (freePacket s l p) t l p 0xA 2 [])
    ∧ (∀ e, (getT s p.tenant).tornDown = false → fmt = true → exportAt s p.tenant p.addr len = some e → hasPos s p.tenant = false → ∃ t, exec c s = .next t ∧ Replied (freePacket s l p) t l p 0xA 5 [])
    ∧ (∀ e, (getT s p.tenant).tornDown = false → fmt = true → exportAt s p.tenant p.addr len = some e → hasPos s p.tenant = true →
      (n = 1 → stackBad s (exportObj e) (p.addr % 2 ^ 40 - e.off) p.len = none →
        ∃ t, exec c s = .next t ∧ Replied (freePacket s l p) t l p 8 0 (memRead e.data (p.addr % 2 ^ 40 - e.off) p.len))
      ∧ (∀ x, n = 1 ∨ n = 4 → stackBad s (exportObj e) (p.addr % 2 ^ 40 - e.off) len = some x →
        ∃ t, exec c s = .next t ∧ Replied (freePacket (logStackBad s e.tenant x) l p) t l p 0xA 4 [])
      ∧ (∀ (bs data : List Byte) (op : Nat),
        (n = 2 ∧ bs = p.data ∧ op = 9 ∧ data = []
          ∨ n = 3 ∧ bs = toLE 8 p.operand ∧ op = 9 ∧ data = []
          ∨ n = 4 ∧ stackBad s (exportObj e) (p.addr % 2 ^ 40 - e.off) 8 = none ∧ data = memRead e.data (p.addr % 2 ^ 40 - e.off) 8
            ∧ bs = toLE 8 (atomicValue p.sub (leNat data) p.operand (leNat p.data)) ∧ op = 8) →
        ∃ t, exec c s = .next t
          ∧ t.ms.exports = s.ms.exports.map (fun x => if x.tenant = e.tenant ∧ x.off = e.off then { e with data := memWrite e.data (p.addr % 2 ^ 40 - e.off) bs } else x)
          ∧ Replied (freePacket { s with ms := { s.ms with exports := t.ms.exports, badBursts := t.ms.badBursts, badRows := t.ms.badRows } } l p) t l p op 0 data)))
  ∧ (∀ (s : State) (l : Nat) (p : Packet), wellFormed (.gread l p) = true → takesPacket s l 6 p = true →
    ((getT s p.tenant).tornDown = true → ∃ t, exec (.gread l p) s = .next t ∧ Replied (freePacket s l p) t l p 0xA 3 [])
    ∧ ((getT s p.tenant).tornDown = false → greadOk p = false → ∃ t, exec (.gread l p) s = .next t ∧ Replied (freePacket s l p) t l p 0xA 1 [])
    ∧ ((getT s p.tenant).tornDown = false → greadOk p = true →
      (∀ o, findObj s p.tenant (p.addr % 2 ^ 32) = some o → o.tier ≠ 3 ∨ o.size < p.addr / 2 ^ 32 * pageBytes + fieldAt p.data 0 4 + fieldAt p.data 4 4) →
      ∃ t, exec (.gread l p) s = .next t ∧ Replied (freePacket s l p) t l p 0xA 2 [])
    ∧ (∀ o, (getT s p.tenant).tornDown = false → greadOk p = true → findObj s p.tenant (p.addr % 2 ^ 32) = some o → o.tier = 3 →
      p.addr / 2 ^ 32 * pageBytes + fieldAt p.data 0 4 + fieldAt p.data 4 4 ≤ o.size →
      (hasPos s p.tenant = false → ∃ t, exec (.gread l p) s = .next t ∧ Replied (freePacket s l p) t l p 0xA 5 [])
      ∧ (hasPos s p.tenant = true → flashWait s = true → exec (.gread l p) s = .next { s with fab := { s.fab with flashHeld := s.fab.flashHeld ++ [.read l p] } })
      ∧ (∀ s1 v, hasPos s p.tenant = true → flashWait s = false → ownGuard s o.tenant o.num = none → readObj s o (p.addr / 2 ^ 32 * pageBytes + fieldAt p.data 0 4) (fieldAt p.data 4 4) = (s1, v) →
        ∃ t, exec (.gread l p) s = .next t
          ∧ (∀ bs, v = .ok bs → Replied (freePacket (dropAsked { s1 with pending := s.pending } (.tenant p.tenant 66) (greadKey p)) l p) t l p 8 0 bs)
          ∧ (∀ st, v = .error st → Replied (freePacket (dropAsked { s1 with pending := s.pending } (.tenant p.tenant 66) (greadKey p)) l p) t l p 0xA (causeOf st) []))))
  ∧ (∀ (s : State) (l n : Nat) (p : Packet) (c : Instr), (c = .data l p ∧ n = 8 ∨ c = .ack l p ∧ n = 9 ∨ c = .nack l p ∧ n = 0xA) → wellFormed c = true → takesPacket s l n p = true →
    (reqOf s p = none → n ≠ 0xA → exec c s = .next (freePacket s l p))
    ∧ (reqOf s p = none → n = 0xA → s.fab.sent.find? (fun m => m.msgId == p.tag && m.reply.isNone) = none → exec c s = .next (freePacket (cntFab s 7 1) l p))
    ∧ (∀ r, reqOf s p = some r → respHeld s r = true → exec c s = .next { (if n = 0xA then cntFab s 7 1 else s) with fab := { (if n = 0xA then cntFab s 7 1 else s).fab with portHeld := s.fab.portHeld ++ [(l, p)] } })
    ∧ (∀ r d tags st de ep nb, reqOf s p = some r → answers n r.op = true → findDesc s d.q d.seq = some d → d.work = .remote tags 0 st de ep nb → tags.filter (fun x => x != r.tag) = [] →
      (∀ host, n = 8 → r.src = .hostRead d.q d.seq host →
        ∃ t, exec c s = .next t ∧ t.fab.reqs = s.fab.reqs.filter (fun x => x.tag != r.tag) ∧ getTt t d.q d.seq = ⟨d.seq, .complete, st⟩ ∧ t.qe.descs = s.qe.descs.filter (fun x => x.n != d.n)
          ∧ (hostOpen s r.tenant = true → hostRead t host p.data.length = p.data) ∧ HostOutside s t host p.data.length)
      ∧ (n = 9 → r.src = .desc d.q d.seq →
        ∃ t, exec c s = .next t ∧ t.fab.reqs = s.fab.reqs.filter (fun x => x.tag != r.tag) ∧ getTt t d.q d.seq = ⟨d.seq, .complete, st⟩ ∧ t.qe.descs = s.qe.descs.filter (fun x => x.n != d.n) ∧ t.hostMem = s.hostMem)
      ∧ (n = 0xA → r.src = .desc d.q d.seq →
        ∃ t, exec c s = .next t ∧ t.fab.reqs = s.fab.reqs.filter (fun x => x.tag != r.tag) ∧ getTt t d.q d.seq = ⟨d.seq, .complete, nackStatus p.sub⟩ ∧ t.qe.descs = s.qe.descs.filter (fun x => x.n != d.n)
          ∧ tget 0 t.fab.cnt 7 = satAdd 64 (tget 0 s.fab.cnt 7) 1 ∧ t.hostMem = s.hostMem))
    ∧ (∀ r k i slot e, n = 8 → reqOf s p = some r → answers n r.op = true → r.src = .elem k i slot → respHeld s r = false → (getCtx s k i).elems.find? (fun x => x.1 == slot) = some e →
      (getCtx s k i).ended = none → (∃ y ∈ (getCtx s k i).elems, y.1 ≠ slot ∧ y.2.returned = false) →
      ∃ t, exec c s = .next t ∧ t.fab.reqs = s.fab.reqs.filter (fun x => x.tag != r.tag)
        ∧ getCtx t k i = { getCtx s k i with elems := tset (getCtx s k i).elems slot { e.2 with returned := true, left := true, fault := 0, data := p.data.take e.2.bytes } }))
  ∧ (∀ (s : State) (u tag : Nat), wellFormed (.storeFlagSend u tag) = true →
    (s.fab.flags.find? (fun f => f.tenant == u && f.tag == tag) = none → exec (.storeFlagSend u tag) s = .next s)
    ∧ (∀ f, s.fab.flags.find? (fun f => f.tenant == u && f.tag == tag) = some f →
      (earlierOpen s f = true → exec (.storeFlagSend u tag) s = .next s)
      ∧ (∀ k, earlierOpen s f = false → f.faulted = false → linkFor s f.tenant (f.addr / 2 ^ 40 % 256) f.addr = some k →
        ∃ t, exec (.storeFlagSend u tag) s = .next t
          ∧ t = { s with fab := { s.fab with flags := s.fab.flags.filter (fun x => x.tag != f.tag), reqs := s.fab.reqs ++ [⟨f.tag, f.tenant, f.addr / 2 ^ 40 % 256, 3, k, f.seq, f.addr, f.src, false⟩] }, bd := { s.bd with streams := t.bd.streams } }
          ∧ ∀ o i, getStream t o i = { getStream s o i with
              tokens := (getStream s o i).tokens ++
                (if (linkStream s f.tenant k 1 (srcSquare f.src)).map (fun x => stKey f.tenant x) = some (stKey o i) then
                  [⟨32, .packet { op := 3, sub := 0, tenant := f.tenant, src := s.fab.node, dst := f.addr / 2 ^ 40 % 256, len := 0, addr := f.addr, tag := f.tag, seq := f.seq, operand := f.value, data := [] }⟩]
                else []) })
      ∧ (∀ d tags st de ep nb, earlierOpen s f = false → f.faulted = true ∨ linkFor s f.tenant (f.addr / 2 ^ 40 % 256) f.addr = none →
        f.src = .desc d.q d.seq → findDesc s d.q d.seq = some d → d.work = .remote tags 0 st de ep nb → tags.filter (fun x => x != f.tag) = [] →
        ∃ t, exec (.storeFlagSend u tag) s = .next t ∧ getTt t d.q d.seq = ⟨d.seq, .complete, 0x22⟩ ∧ t.qe.descs = s.qe.descs.filter (fun x => x.n != d.n)
          ∧ (∀ x ∈ t.fab.flags, x.tag ≠ f.tag) ∧ t.bd.streams = s.bd.streams ∧ t.hostMem = s.hostMem)))
  ∧ (∀ (s : State) (tag : Nat),
    (findReq s tag = none → exec (.remoteTimeout tag) s = .next s)
    ∧ (∀ r, findReq s tag = some r → timerPaused s r = true → exec (.remoteTimeout tag) s = .next s)
    ∧ (∀ r, findReq s tag = some r → timerPaused s r = false →
      ∃ t, exec (.remoteTimeout tag) s = .next t ∧ t.fab.reqs = s.fab.reqs.filter (fun x => x.tag != tag) ∧ (∀ l, (getLink t l).st = (getLink s l).st)
        ∧ (r.src = .none → tget 0 t.fab.cnt 6 = satAdd 64 (tget 0 s.fab.cnt 6) 1 ∧ tget 0 t.er.cnt 9 = satAdd 64 (tget 0 s.er.cnt 9) 1
          ∧ ((getT s r.tenant).tornDown = false → .report 0x61 [r.target, r.op, r.link] ∈ t.out) ∧ ((getT s r.tenant).tornDown = true → t.out = s.out))))

/-- 03 R93; 05 R158; 06 R169; 07 R217, R218; 10 R315, R316, R332: a MESSAGE for another node or at a closed port does nothing; one of a torn-down tenant or of one without a Position is refused with its cause; a QUERY, SCAN_SLICE or RERANK is acknowledged and held for a serving context with its entries of the receive buffer; a LIST is acknowledged and reaches the request that asked; a JOURNAL record is appended to the ring of its sender, acknowledged and answered by a JOURNAL_ACK, or refused; a JOURNAL_ACK marks the write it names; a GUARD_DELTA is applied to its parity unit and then acknowledged, or refused with its cause, or waits while flash is recovered. Whatever is answered and not held frees its entries. -/
def Obligations.MessagesTakenAndAnswered : Prop :=
  (∀ (s : State) (l n : Nat) (m : Message) (c : Instr),
    (c = .queryMessage l m ∧ n = 1 ∨ c = .listMessage l m ∧ n = 2 ∨ c = .journalMessage l m ∧ n = 3 ∨ c = .journalAck l m ∧ n = 4 ∨ c = .guardDelta l m ∧ n = 5 ∨ c = .scanSlice l m ∧ n = 6 ∨ c = .rerankMessage l m ∧ n = 7) →
    wellFormed c = true →
    (takesMessage s l n m = false → exec c s = .next s)
    ∧ (takesMessage s l n m = true → (getT s m.tenant).tornDown = true → ∃ t, exec c s = .next t ∧ Replied (freeMsg s l m) t l (msgPacket m) 0xA 3 [])
    ∧ (takesMessage s l n m = true → (getT s m.tenant).tornDown = false → hasPos s m.tenant = false → ∃ t, exec c s = .next t ∧ Replied (freeMsg s l m) t l (msgPacket m) 0xA 5 [])
    ∧ (takesMessage s l n m = true → (getT s m.tenant).tornDown = false → hasPos s m.tenant = true →
      (n = 1 ∨ n = 6 ∨ n = 7 → ∃ t, exec c s = .next t
        ∧ t.fab = { s.fab with nextWork := s.fab.nextWork + 1, held := s.fab.held ++ [{ work := s.fab.nextWork, tenant := m.tenant, msg := m, link := l }] }
        ∧ Replied { s with fab := t.fab } t l (msgPacket m) 9 0 [])
      ∧ (∀ e, n = 2 → s.fab.sent.find? (fun x => x.msgId == m.msgId) = some e → (∀ u, e.q ≠ .tenant u 66) → ∃ t, exec c s = .next t
        ∧ t.fab = { (freeMsg s l m).fab with sent := s.fab.sent.map (fun x => if x.msgId = m.msgId then { x with reply := some m.body } else x) }
        ∧ (∀ d k i, e.q = d.q → (∀ v, e.q ≠ .tenant v 64) → findDesc s d.q e.seq = some d → d.phase = .placed k i → (getCtx s k i).st = .waitStream → getCtx t k i = { getCtx s k i with st := .ready })
        ∧ Replied { s with fab := t.fab, squares := t.squares } t l (msgPacket m) 9 0 [])
      ∧ (n = 2 → s.fab.sent.find? (fun x => x.msgId == m.msgId) = none → ∃ t, exec c s = .next t ∧ Replied (freeMsg s l m) t l (msgPacket m) 9 0 [])
      ∧ (∀ g ix, n = 4 → s.fab.group = some g → findIndex s m.tenant m.index = some ix → ∃ t, exec c s = .next t
        ∧ findIndex t m.tenant m.index = some { ix with writes := ix.writes.map (fun w => if w.epoch = m.epoch then { w with ack1 := w.ack1 || memberAt g (g.pos + 1) == m.srcNode, ack2 := w.ack2 || memberAt g (g.pos + 2) == m.srcNode } else w) }
        ∧ Replied (freeMsg { s with indexes := t.indexes } l m) t l (msgPacket m) 9 0 [])
      ∧ (n = 3 → ringFor s m.srcNode = none → ∃ t, exec c s = .next t ∧ Replied (freeMsg s l m) t l (msgPacket m) 0xA 1 [])
      ∧ (∀ j, n = 3 → ringFor s m.srcNode = some j → ((findIndex s m.tenant m.index).bind (fun ix => ix.journal)).bind (findObj s m.tenant) = none → ∃ t, exec c s = .next t ∧ Replied (freeMsg s l m) t l (msgPacket m) 0xA 2 [])
      ∧ (∀ j o, n = 3 → ringFor s m.srcNode = some j → ((findIndex s m.tenant m.index).bind (fun ix => ix.journal)).bind (findObj s m.tenant) = some o →
        (jAppend o.data j m.body = none → ∃ t, exec c s = .next t ∧ Replied (freeMsg s l m) t l (msgPacket m) 0xA 6 [])
        ∧ (∀ x, jAppend o.data j m.body = some x → ∃ t, exec c s = .next t
          ∧ findObj t o.tenant o.num = some { o with data := x } ∧ (∀ u k, u ≠ o.tenant ∨ k ≠ o.num → findObj t u k = findObj s u k)
          ∧ (∀ y i, answerStream s m.tenant l = some (y, i) → ⟨32, answerLoad s (msgPacket m) 9 0 []⟩ ∈ (getStream t y i).tokens)
          ∧ (∀ k, linkFor s m.tenant m.srcNode (m.srcNode * 2 ^ 40) = some k →
            ⟨s.fab.nextTag, m.tenant, m.srcNode, 5, k, 0, 0, .none, false⟩ ∈ t.fab.reqs
            ∧ ∀ i, linkStream s m.tenant k 1 none = some i → ∃ n, ⟨n, .part { m with kind := 4, tag := s.fab.nextTag, srcDomain := s.fab.domain, srcNode := s.fab.node, dstNode := m.srcNode, dstDomain := m.srcDomain, body := [] } 0 64⟩ ∈ (getStream t m.tenant i).tokens)
          ∧ t.out = s.out ∧ t.squares = s.squares
          ∧ t.qe = s.qe ∧ t.indexes = s.indexes ∧ t.hostMem = s.hostMem))))
  ∧ (∀ (s : State) (l : Nat) (m : Message), wellFormed (.guardDelta l m) = true → takesMessage s l 5 m = true → (getT s m.tenant).tornDown = false → hasPos s m.tenant = true →
    (s.fab.group = none ∨ s.fab.guards.find? (fun x => x.1 == m.index && x.2.st != 0 && x.2.tenant == m.tenant) = none → ∃ t, exec (.guardDelta l m) s = .next t ∧ Replied (freeMsg s l m) t l (msgPacket m) 0xA 2 [])
    ∧ (∀ (g : GroupCfg) (e : Nat × Guard) (role : Nat × Nat) (k : Nat), s.fab.group = some g →
      s.fab.guards.find? (fun x => x.1 == m.index && x.2.st != 0 && x.2.tenant == m.tenant) = some e → role = guardMember g.gsize e.2.p g.pos (fieldAt m.body 0 4) → k = guardK g.gsize e.2.p →
      (findObj s m.tenant e.2.parObj = none → ∃ t, exec (.guardDelta l m) s = .next t ∧ Replied (freeMsg s l m) t l (msgPacket m) 0xA 2 [])
      ∧ (∀ o, findObj s m.tenant e.2.parObj = some o →
        (role.1 < k ∨ role.2 ≠ m.partition ∨ k ≤ fieldAt m.body 4 4 ∨ m.body.length ≠ 8 + 16384 ∨ o.tier ≠ 3 ∨ o.size < (m.partition + 1) * 16384 →
          ∃ t, exec (.guardDelta l m) s = .next t ∧ Replied (freeMsg s l m) t l (msgPacket m) 0xA 1 [])
        ∧ (k ≤ role.1 → role.2 = m.partition → fieldAt m.body 4 4 < k → m.body.length = 8 + 16384 → o.tier = 3 → (m.partition + 1) * 16384 ≤ o.size →
          (flashWait s = true → exec (.guardDelta l m) s = .next { s with fab := { s.fab with flashHeld := s.fab.flashHeld ++ [.delta l m] } })
          ∧ (∀ s1 v, flashWait s = false → readObj s o (m.partition * 16384) 16384 = (s1, v) →
            (∀ st, v = .error st → ∃ t, exec (.guardDelta l m) s = .next t ∧ Replied (freeMsg { s1 with pending := s.pending } l m) t l (msgPacket m) 0xA (causeOf st) [])
            ∧ (∀ old s2 w, v = .ok old → writeObj s1 o (m.partition * 16384) (parityApply (role.1 - k) (fieldAt m.body 4 4) old (m.body.drop 8)) = (s2, w) →
              ∃ t, exec (.guardDelta l m) s = .next t
                ∧ (w = none → Replied (freeMsg { s2 with pending := s.pending } l m) t l (msgPacket m) 9 0 [])
                ∧ (∀ st, w = some st → Replied (freeMsg { s2 with pending := s.pending } l m) t l (msgPacket m) 0xA (causeOf st) [])))))))

/-! ### Every step -/

/-- The block never stops on what its neighbours may send it: from every state whose waiting commands are well-formed a step answers a next state, takes exactly one command off the queue (none from an empty one), and leaves the commands behind it well-formed and in order; and a command that names no unit of the node, or whose operands fit no field of the spec, reaches nothing: with whatever waits behind it, it leaves all but the queue as it was (the model's choice, log entry 56). -/
def Obligations.EveryStepKeepsTheQueueWellFormed : Prop :=
  (∀ s : State, queueWellFormed s → ∃ t, step s = .next t ∧ t.pending = s.pending.tail ∧ queueWellFormed t)
    ∧ (∀ (s : State) (c : Instr) (rest : List Instr), s.pending = c :: rest → wellFormed c = false → step s = .next { s with pending := rest })

/-- 14 R440, R463; 13 R429; 11 R374, R375; 10 R339; 09 R292; 03 R96; 12 R404: right after a power-on reset no command waits, nothing has been sent, host memory lists no byte and reads zero (the model's choice for memory outside the node, log entry 2), no event is logged, no rank is clocked, no tenant has a Position, no queue is enabled, no object, binding or guard set exists, and the registers with a Reset value other than 0 read it; all the others of their blocks named here read 0. The state meets what every step keeps. -/
def Obligations.StateAfterReset : Prop :=
  queueWellFormed State.reset ∧ hostMemOk State.reset ∧ metersOk State.reset
    ∧ State.reset.pending = [] ∧ State.reset.out = [] ∧ (∀ a, memGet State.reset.hostMem a = 0) ∧ State.reset.tempo = 0 ∧ State.reset.pw.perst = true ∧ State.reset.pw.pstate = 0
    ∧ State.reset.er.log = [] ∧ State.reset.qe.descs = [] ∧ State.reset.qe.recs = [] ∧ State.reset.ms.objs = [] ∧ State.reset.bd.layer = none
    ∧ (∀ n, n < 272 → ∀ c, c < 64 → ctxBusy (getCtx State.reset n c) = false)
    ∧ (∀ r, (getRank State.reset r).clock = 0)
    ∧ (∀ t, posOf State.reset t = none) ∧ (∀ q, (getQ State.reset q).qstate = 0 ∧ (getQ State.reset q).avail = 0)
    ∧ (∀ t e, (getM State.reset t e).en = false)
    ∧ (∀ o, o ∈ [0x600020, 0x600210, 0x700010, 0x700068, 0x700070, 0x901008, 0xA00008, 0xA00108, 0xA00200, 0x100008, 0x100018, 0x400028] →
        regVal State.reset o = (match o with
          | 0x600020 => 50
          | 0x600210 => 0xFFFFFFFFFFFFFFFF
          | 0x700010 => 7 * 2 ^ 8
          | 0x700068 => 1000
          | 0x700070 => 25 + 80 * 2 ^ 8 + 1000 * 2 ^ 16 + 64 * 2 ^ 32 + 80 * 2 ^ 48
          | 0x901008 => 0x7F
          | 0xA00008 => 0xFFFFFFFF
          | 0xA00108 => 0xFFFFFFFF
          | 0xA00200 => 1048576 * 2 ^ 32
          | 0x100008 => 6
          | 0x100018 => 4095
          | _ => 95 + 115 * 2 ^ 8 + 105 * 2 ^ 16 + 340 * 2 ^ 32))
    ∧ (∀ t q, t ≤ 64 → q < 64 → regVal State.reset (0x200000 + 4096 * t + 0x108 + 32 * q) = 6 + 64 * 2 ^ 5)
    ∧ (regVal State.reset 0x18) / 2 ^ 32 = 63
    ∧ (∀ n, n < 16 → regVal State.reset (0x400200 + 8 * n) = 0) ∧ (∀ n, n < 8 → regVal State.reset (0x100100 + 8 * n) = 0) ∧ (∀ n, n < 9 → regVal State.reset (0x700200 + 8 * n) = 0)
    ∧ (∀ n, n < 10 → regVal State.reset (0x600800 + 8 * n) = 0) ∧ (∀ n, n < 6 → regVal State.reset (0xA00300 + 8 * n) = 0)
end

