-- ==== Sys2Proof/Laws/Queue.lean ====
section
/-! SUPPORT. The queue engine's operations, said once: what marking, placing, completing and accepting a descriptor change. -/

namespace Sys2Proof.Machine

open Sys2Proof

theorem getQ_cntQe (s : State) (k : Nat) (q : QId) : getQ (cntQe s k) q = getQ s q := by cases q <;> rfl

theorem getQ_completeWith_avail (s : State) (d : Desc) (st rf de ep nb : Nat) (mid : List Rec) (q : QId) :
    (getQ (completeWith s d st rf de ep nb mid) q).avail = (getQ s q).avail := by
  have h1 : ∀ (x y : State), x.qe.queues = y.qe.queues → x.qe.adminSt = y.qe.adminSt → getQ x q = getQ y q := by
    intro x y a b; cases q <;> simp [getQ, a, b]
  have h2 : getQ (dropDesc s d st) q = getQ s q := by
    apply h1 <;> simp [dropDesc, setDescs]
  have h3 : getQ (completeWith s d st rf de ep nb mid) q = getQ (setTt (dropDesc s d st) d.q d.seq ⟨d.seq, .complete, st⟩) q := by
    apply h1 <;> rw [completeWith, dupRecs_eq, foldl_addRec_qe]
  rw [h3, ← h2]
  generalize dropDesc s d st = x
  rw [setTt]
  by_cases hq : d.q = q
  · subst hq; simp
  · cases hd : d.q with
    | admin => cases q with
      | admin => exact absurd hd hq
      | tenant a b => rfl
    | tenant a b => cases q with
      | admin => rfl
      | tenant a' b' =>
        simp only [getQ, setQ, tget_tset]
        split
        · rename_i h; simp [h]
        · rfl

theorem getQ_putDesc (s : State) (d : Desc) (q : QId) : getQ (putDesc s d) q = getQ s q := by cases q <;> rfl
theorem getQ_setM (s : State) (t : Nat) (e : Bool) (m : Meter) (q : QId) : getQ (setM s t e m) q = getQ s q := by cases q <;> rfl

theorem getQ_commit_avail (s : State) (d : Desc) (q : QId) : (getQ (commit s d) q).avail = (getQ s q).avail := by
  rw [commit, setTt]
  by_cases hq : d.q = q
  · subst hq; simp
  · cases hd : d.q with
    | admin => cases q with
      | admin => exact absurd hd hq
      | tenant a b => rfl
    | tenant a b => cases q with
      | admin => rfl
      | tenant a' b' =>
        simp only [getQ, setQ, tget_tset]
        split
        · rename_i h; simp [h]
        · rfl

/-- Passing step 9 touches no credit. -/
theorem passMeter_avail (s : State) (d : Desc) (q : QId) : (getQ (passMeter s d) q).avail = (getQ s q).avail := by
  simp only [passMeter]; split
  · rw [getQ_commit_avail, getQ_putDesc]
  · rw [getQ_putDesc]

theorem markDesc_avail (s : State) (d : Desc) (q : QId) : (getQ (markDesc s d) q).avail = (getQ s q).avail := by
  simp only [markDesc]
  split
  · simp [passMeter_avail, getQ_setM]
  · simp [passMeter_avail, getQ_setM]
  · split <;> simp [getQ_putDesc, getQ_setM, getQ_cntQe, complete, getQ_completeWith_avail]

theorem meterStep_avail (s : State) (d : Desc) (q : QId) : (getQ (meterStep s d) q).avail = (getQ s q).avail := by
  simp only [meterStep]; split
  · exact passMeter_avail ..
  · split
    · simp [getQ_putDesc]
    · exact markDesc_avail ..

theorem getQ_occupy (s : State) (n c : Nat) (j : CtxJob) (t : Nat) (q : QId) : getQ (occupy s n c j t) q = getQ s q := by cases q <;> rfl

theorem placeOne_avail (s : State) (t : Nat) (q : QId) : (getQ (placeOne s t) q).avail = (getQ s q).avail := by
  simp only [placeOne]
  split
  · rfl
  · split
    · split
      · cases q <;> simp [getQ, putDesc, setDescs, occupy]
      · simp [getQ_putDesc, getQ_occupy]
    · rfl

/-- An uncompleted descriptor of this acceptance number. -/
def holdsDesc (s : State) (n : Nat) : Prop := ∃ d ∈ s.qe.descs, d.n = n

/-- A waiting record of this acceptance number, queue and SEQ. -/
def hasRecord (s : State) (n : Nat) (q : QId) (k : Nat) : Prop := ∃ r ∈ s.qe.recs, r.n = n ∧ r.q = q ∧ r.seq = k

theorem putDesc_holdsDesc (s : State) (d : Desc) (n : Nat) (h : holdsDesc s n) : holdsDesc (putDesc s d) n := by
  obtain ⟨x, hx, rfl⟩ := h
  simp only [holdsDesc, putDesc, setDescs, List.mem_map]
  refine ⟨_, ⟨x, hx, rfl⟩, ?_⟩
  split
  · rename_i h; exact h.symm
  · rfl

theorem commit_descs (s : State) (d : Desc) : (commit s d).qe.descs = s.qe.descs := by
  rw [commit, setTt]; cases d.q <;> rfl

theorem passMeter_holdsDesc (s : State) (d : Desc) (n : Nat) (h : holdsDesc s n) : holdsDesc (passMeter s d) n := by
  have hp := putDesc_holdsDesc s { d with phase := .ready } n h
  simp only [passMeter]; split
  · simpa only [holdsDesc, commit_descs] using hp
  · exact hp

theorem placeOne_has (s : State) (t n : Nat) (q : QId) (k : Nat) (h : holdsDesc s n ∨ hasRecord s n q k) : holdsDesc (placeOne s t) n ∨ hasRecord (placeOne s t) n q k := by
  have hd : (placeOne s t).qe.recs = s.qe.recs := by
    simp only [placeOne]
    split
    · rfl
    · split
      · split <;> simp [putDesc, setDescs, occupy]
      · rfl
  rcases h with h | h
  · left
    simp only [placeOne]
    split
    · exact h
    · split
      · split
        · exact putDesc_holdsDesc _ _ _ h
        · exact putDesc_holdsDesc _ _ _ h
      · exact h
  · right; simpa [hasRecord, hd] using h

theorem complete_done (s : State) (d : Desc) (st : Nat) : hasRecord (complete s d st) d.n d.q d.seq := by
  obtain ⟨l, h⟩ := completeWith_recs s d st 0 0 0 0 []
  exact ⟨recOf d st 0 0 0 0, by rw [complete, h]; simp, rfl, rfl, rfl⟩

theorem markDesc_has (s : State) (d : Desc) (h : holdsDesc s d.n) : holdsDesc (markDesc s d) d.n ∨ hasRecord (markDesc s d) d.n d.q d.seq := by
  simp only [markDesc]
  split
  · left; exact passMeter_holdsDesc _ _ _ h
  · left; exact passMeter_holdsDesc _ _ _ h
  · split
    · left; exact putDesc_holdsDesc _ _ _ h
    · right; exact complete_done ..

theorem meterStep_has (s : State) (d : Desc) (h : holdsDesc s d.n) : holdsDesc (meterStep s d) d.n ∨ hasRecord (meterStep s d) d.n d.q d.seq := by
  simp only [meterStep]; split
  · left; exact passMeter_holdsDesc _ _ _ h
  · split
    · left; exact putDesc_holdsDesc _ _ _ h
    · exact markDesc_has _ _ h

/-- A descriptor ended before its commit leaves its record, then those given with it, which wait for its move (R364). -/
theorem endDesc_recs (s : State) (d : Desc) (st : Nat) (mid : List Rec) :
    ∃ e m l, (endDesc s d st mid).qe.recs = s.qe.recs ++ recOf d st 0 0 e m :: (mid.map (fun r => { r with notBefore := m }) ++ l) := by
  have key : ∀ (x : State) (e m : Nat), x.qe.recs = s.qe.recs →
      ∃ e' m' l, (completeWith x d st 0 0 e m (mid.map (fun r => { r with notBefore := m }))).qe.recs
        = s.qe.recs ++ recOf d st 0 0 e' m' :: (mid.map (fun r => { r with notBefore := m' }) ++ l) := by
    intro x e m hx
    obtain ⟨l, h⟩ := completeWith_recs_mid x d st 0 0 e m (mid.map (fun r => { r with notBefore := m }))
    exact ⟨e, m, l, by rw [h, hx]⟩
  have ite_recs : ∀ (b : Bool) (y : BdSt), (if b then { s with bd := y } else s).qe.recs = s.qe.recs := by intro b y; cases b <;> rfl
  refine key _ _ _ ?_
  split
  · simp [ite_recs]
  · simp [ite_recs]

theorem endDesc_descs (s : State) (d : Desc) (st : Nat) (mid : List Rec) :
    (endDesc s d st mid).qe.descs = s.qe.descs.filter (fun x => x.n != d.n) := by
  simp only [endDesc, completeWith_descs]
  repeat' split
  all_goals simp

theorem endDesc_has (s : State) (d : Desc) (st : Nat) : hasRecord (endDesc s d st []) d.n d.q d.seq := by
  obtain ⟨e, m, l, h⟩ := endDesc_recs s d st []
  exact ⟨recOf d st 0 0 e m, by rw [h]; simp, rfl, rfl, rfl⟩

theorem commit_holdsDesc (s : State) (d : Desc) (n : Nat) (h : holdsDesc s n) : holdsDesc (commit s d) n := by
  simpa only [holdsDesc, commit_descs] using h

/-- A newly accepted descriptor is held, or has ended with its record. -/
theorem acceptNew_has (s : State) (d : Desc) : holdsDesc (acceptNew s d) d.n ∨ hasRecord (acceptNew s d) d.n d.q d.seq := by
  have h0 : holdsDesc (setDescs s (s.qe.descs ++ [d])) d.n := ⟨d, by simp [setDescs], rfl⟩
  simp only [acceptNew]
  split
  · exact .inr (endDesc_has ..)
  · split
    · exact .inr (endDesc_has ..)
    · split
      · exact .inr (complete_done ..)
      · split
        · exact .inr (complete_done ..)
        · refine placeOne_has _ _ _ _ _ (meterStep_has _ _ ?_)
          split
          · exact commit_holdsDesc _ _ _ h0
          · exact h0

theorem getQ_hostWrite (s : State) (t a : Nat) (bs : List Byte) (q : QId) : getQ (hostWrite s t a bs) q = getQ s q := getQ_qe (by simp) q

theorem endDesc_avail (s : State) (d : Desc) (st : Nat) (mid : List Rec) (q : QId) : (getQ (endDesc s d st mid) q).avail = (getQ s q).avail := by
  have hb : ∀ (x : State) (b : Bool) (y : BdSt), getQ (if b then { x with bd := y } else x) q = getQ x q := by
    intro x b y; cases b <;> cases q <;> rfl
  simp only [endDesc, getQ_completeWith_avail]
  split <;> simp [getQ_hostWrite, hb]

theorem acceptNew_avail (s : State) (d : Desc) (q : QId) : (getQ (acceptNew s d) q).avail = (getQ s q).avail := by
  simp only [acceptNew, complete]
  repeat' split
  all_goals simp [placeOne_avail, meterStep_avail, endDesc_avail, getQ_commit_avail, getQ_completeWith_avail, getQ_setDescs]

theorem completeWith_accepted (s : State) (d : Desc) (st rf de ep nb : Nat) (mid : List Rec) :
    (completeWith s d st rf de ep nb mid).qe.accepted = s.qe.accepted := by
  have : ∀ (x : State) (q : QId) (n : Nat) (e : TtEntry), (setTt x q n e).qe.accepted = x.qe.accepted := by intro x q n e; cases q <;> rfl
  rw [completeWith, dupRecs_eq, foldl_addRec_qe]; simp [this, dropDesc, setDescs]

theorem setTt_accepted (x : State) (q : QId) (n : Nat) (e : TtEntry) : (setTt x q n e).qe.accepted = x.qe.accepted := by cases q <;> rfl

theorem passMeter_accepted (x : State) (d : Desc) : (passMeter x d).qe.accepted = x.qe.accepted := by
  simp only [passMeter, commit]; split <;> simp [setTt_accepted, putDesc, setDescs]

theorem endDesc_accepted (s : State) (d : Desc) (st : Nat) (mid : List Rec) : (endDesc s d st mid).qe.accepted = s.qe.accepted := by
  simp only [endDesc, completeWith_accepted]; repeat' split
  all_goals simp

theorem acceptNew_accepted (s : State) (d : Desc) : (acceptNew s d).qe.accepted = s.qe.accepted := by
  have hm : ∀ (x : State), (markDesc x d).qe.accepted = x.qe.accepted := by
    intro x; simp only [markDesc]; repeat' split
    all_goals simp [putDesc, setDescs, cntQe, complete, completeWith_accepted, passMeter_accepted]
  have hp : ∀ (x : State) (t : Nat), (placeOne x t).qe.accepted = x.qe.accepted := by
    intro x t; simp only [placeOne]; repeat' split
    all_goals simp [putDesc, setDescs, occupy]
  have hs : ∀ (x : State), (meterStep x d).qe.accepted = x.qe.accepted := by
    intro x; simp only [meterStep]; repeat' split
    all_goals simp [hm, passMeter_accepted, putDesc, setDescs]
  simp only [acceptNew, complete]
  repeat' split
  all_goals simp [completeWith_accepted, endDesc_accepted, setDescs, hp, hs, commit, setTt_accepted]

/-- Only the queue engine, contexts, ranks, meters, dropped replies and chunks, the waiting recompositions and the result of a CONSOLIDATE that has ended have changed. -/
def QueueWork (s t : State) : Prop :=
  t = { s with qe := t.qe, squares := t.squares, ranks := t.ranks, meters := t.meters, hostMem := t.hostMem, bd := { s.bd with streams := t.bd.streams, recomps := t.bd.recomps }, fab := { s.fab with sent := t.fab.sent } }

theorem completeWith_QueueWork (s : State) (d : Desc) (st rf de ep nb : Nat) (mid : List Rec) : QueueWork s (completeWith s d st rf de ep nb mid) := by
  have h : (completeWith s d st rf de ep nb mid).bd = { s.bd with streams := (completeWith s d st rf de ep nb mid).bd.streams } :=
    (completeWith_streams s d st rf de ep nb mid).1
  apply State.ext <;> simp [completeWith_fab]
  rw [h]

theorem QueueWork_trans {a b c : State} (h1 : QueueWork a b) (h2 : QueueWork b c) : QueueWork a c := by
  unfold QueueWork at *
  rw [h2, h1]

theorem placeOne_QueueWork (s : State) (t : Nat) : QueueWork s (placeOne s t) := by
  simp only [placeOne]; repeat' split
  all_goals (apply State.ext <;> simp [occupy])

theorem setTt_QueueWork (s : State) (q : QId) (n : Nat) (e : TtEntry) : QueueWork s (setTt s q n e) := by
  cases q <;> rfl

theorem passMeter_QueueWork (s : State) (d : Desc) : QueueWork s (passMeter s d) := by
  have h : QueueWork s (putDesc s { d with phase := .ready }) := rfl
  simp only [passMeter]; split
  · exact QueueWork_trans h (setTt_QueueWork ..)
  · exact h

theorem markDesc_QueueWork (s : State) (d : Desc) : QueueWork s (markDesc s d) := by
  have h : QueueWork s (setM s d.tenant false (markMeter (getM s d.tenant false) (descLen s (getM s d.tenant false) d)).2) := rfl
  simp only [markDesc]; split
  · exact QueueWork_trans h (passMeter_QueueWork ..)
  · exact QueueWork_trans h (passMeter_QueueWork ..)
  · split
    · rfl
    · exact QueueWork_trans (QueueWork_trans h (show QueueWork _ (cntQe _ 6) from rfl)) (completeWith_QueueWork ..)

theorem endDesc_QueueWork (s : State) (d : Desc) (st : Nat) (mid : List Rec) : QueueWork s (endDesc s d st mid) := by
  have h0 : ∀ (b : Bool) (l : List Recomp), QueueWork s (if b then { s with bd := { s.bd with recomps := l } } else s) := by intro b l; cases b <;> rfl
  have h1 : ∀ (x : State) (a : Nat) (bs : List Byte), QueueWork s x → QueueWork s (hostWrite x d.tenant a bs) := by
    intro x a bs h; refine QueueWork_trans h ?_; apply State.ext <;> simp
  have key : ∀ (x : State) (e m : Nat) (l : List Rec), QueueWork s x → QueueWork s (completeWith x d st 0 0 e m l) :=
    fun x e m l h => QueueWork_trans h (completeWith_QueueWork ..)
  refine key _ _ _ _ ?_
  split
  · exact h1 _ _ _ (h0 _ _)
  · exact h0 _ _

theorem acceptNew_QueueWork (s : State) (d : Desc) : QueueWork s (acceptNew s d) := by
  have h0 : QueueWork s (setDescs s (s.qe.descs ++ [d])) := by apply State.ext <;> simp
  have hm : ∀ x : State, QueueWork x (meterStep x d) := by
    intro x; simp only [meterStep]; repeat' split
    · exact passMeter_QueueWork ..
    · apply State.ext <;> simp
    · exact markDesc_QueueWork ..
  simp only [acceptNew]
  split
  · exact QueueWork_trans h0 (endDesc_QueueWork ..)
  · split
    · exact QueueWork_trans h0 (endDesc_QueueWork ..)
    · split
      · exact QueueWork_trans h0 (completeWith_QueueWork ..)
      · split
        · exact QueueWork_trans h0 (completeWith_QueueWork ..)
        · refine QueueWork_trans (QueueWork_trans ?_ (hm _)) (placeOne_QueueWork _ _)
          split
          · exact QueueWork_trans h0 (setTt_QueueWork ..)
          · exact h0

/-- The class of a number rests on HIGH and the table alone (11 R352). -/
theorem ttCheck_class (v w : Queue) (n : Nat) (h1 : w.high = v.high) (h2 : w.tt = v.tt) : (ttCheck w n).1 = (ttCheck v n).1 := by
  rcases hh : v.high with _ | hi <;> simp only [ttCheck, ttAt, h1, h2, hh]
  all_goals
    split
    · split <;> rfl
    · split
      · split <;> rfl
      · split <;> rfl

/-- A queue that enters DISABLED keeps everything but its state and its credits. -/
@[simp] theorem getQ_disableQueue (s : State) (q : QId) : getQ (disableQueue s q) q = { getQ s q with qstate := 0 } := by
  cases q <;> simp [disableQueue, getQ, setQ]

@[simp] theorem disableQueue_descs (s : State) (q : QId) : (disableQueue s q).qe.descs = s.qe.descs := by simp [disableQueue]

theorem toLE_length (n v : Nat) : (toLE n v).length = n := by
  induction n generalizing v with
  | zero => rfl
  | succ n ih => simp [toLE, ih]

/-- A completion record is 32 bytes (11 R355). -/
theorem recBytes_length (v : Queue) (r : Rec) (c : Nat) : (recBytes v r c).length = 32 := by
  simp [recBytes, toLE_length]

end Sys2Proof.Machine
end

