-- ==== Sys2Proof/Laws/Fabric.lean ====
section
/-! SUPPORT. Reports, link states and the requests that end when a link goes down, said once. -/

namespace Sys2Proof.Machine

open Sys2Proof

theorem msix_out (x : State) (f v : Nat) : ∃ l, (msix x f v).out = x.out ++ l := by
  simp only [msix]; split
  · exact ⟨[], by simp⟩
  · split
    · exact ⟨_, rfl⟩
    · exact ⟨[], by simp⟩

/-- An MSI-X message reaches the host, or waits in its entry: nothing else changes. -/
theorem msix_frame (x : State) (f v : Nat) : msix x f v = { x with qe := { x.qe with msix := (msix x f v).qe.msix }, out := (msix x f v).out } := by
  simp only [msix]; split
  · rfl
  · split <;> rfl

theorem raise_qe (s : State) (code cls t u a b c : Nat) : (raise s code cls t u a b c).qe = { s.qe with msix := (raise s code cls t u a b c).qe.msix } := by
  have ha : ∀ (x : State) (v : Bool), (setAlert x v).qe = x.qe := by intro x v; simp only [setAlert]; split <;> rfl
  have hm : ∀ (x : State) (f v : Nat), (msix x f v).qe = { x.qe with msix := (msix x f v).qe.msix } := by intro x f v; rw [msix_frame]
  simp only [raise]
  split
  · rfl
  · split
    · rw [ha]; split
      · exact hm _ _ _
      · rfl
    · split
      · exact hm _ _ _
      · rfl

theorem setAlert_out (x : State) (v : Bool) : ∃ l, (setAlert x v).out = x.out ++ l := by
  simp only [setAlert]; split
  · exact ⟨[], by simp⟩
  · exact ⟨_, rfl⟩

theorem raise_out (x : State) (code cls t u a b c : Nat) : ∃ l, (raise x code cls t u a b c).out = x.out ++ l := by
  have hif : ∀ (b : Prop) [Decidable b] (y z : State), (∃ l, y.out = x.out ++ l) → (∃ l, z.out = x.out ++ l) → ∃ l, (if b then y else z).out = x.out ++ l := by
    intro b _ y z hy hz; split
    · exact hy
    · exact hz
  have hal : ∀ (y : State), (∃ l, y.out = x.out ++ l) → ∃ l, (setAlert y true).out = x.out ++ l := by
    intro y hy
    obtain ⟨l1, e1⟩ := hy
    obtain ⟨l2, e2⟩ := setAlert_out y true
    exact ⟨l1 ++ l2, by rw [e2, e1, List.append_assoc]⟩
  have hm : ∀ (y : State) (v : Nat), y.out = x.out → ∃ l, (msix y 0 v).out = x.out ++ l := by
    intro y v hy; rw [← hy]; exact msix_out _ _ _
  simp only [raise]
  refine hif _ _ _ ⟨[], by simp⟩ (hif _ _ _ (hal _ (hif _ _ _ (hm _ _ rfl) ⟨[], by simp⟩)) (hif _ _ _ (hm _ _ rfl) ⟨[], by simp⟩))

/-- A report leaves the node first; what the event log then signals follows it (10 R328, 13 R412). -/
theorem report_out (s : State) (code cls t u a b c : Nat) : ∃ more, (report s code cls t u a b c).out = s.out ++ .report code [a, b, c] :: more := by
  obtain ⟨l, h⟩ := raise_out (emit s (.report code [a, b, c])) code cls t u a b c
  exact ⟨l, by rw [report, h]; simp [emit]⟩

theorem report_pw (s : State) (code cls t u a b c : Nat) : (report s code cls t u a b c).pw = { s.pw with alertN := (report s code cls t u a b c).pw.alertN } := by
  rw [report, raise_pw]; rfl

theorem report_qe (s : State) (code cls t u a b c : Nat) : (report s code cls t u a b c).qe = { s.qe with msix := (report s code cls t u a b c).qe.msix } := by
  rw [report, raise_qe]; rfl

theorem getLink_report (s : State) (code cls t u a b c k : Nat) : getLink (report s code cls t u a b c) k = getLink s k := by simp [getLink]
theorem getLink_emit (s : State) (o : Out) (k : Nat) : getLink (emit s o) k = getLink s k := rfl

/-- A link that changes its state takes it and its cause (10 R295). -/
theorem linkTo_link (s : State) (l st cause : Nat) (h : (getLink s l).st ≠ st) :
    getLink (linkTo s l st cause) l = { getLink s l with st := st, cause := if cause = 0 then (getLink s l).cause else cause } := by
  simp only [linkTo, if_neg h, getLink_report, getLink_setLink]

theorem linkTo_other (s : State) (l st cause k : Nat) (h : k ≠ l) : getLink (linkTo s l st cause) k = getLink s k := by
  simp only [linkTo]; split
  · rfl
  · rw [getLink_report, getLink_setLink_other _ _ h]

theorem linkTo_out (s : State) (l st cause : Nat) (h : (getLink s l).st ≠ st) :
    ∃ more, (linkTo s l st cause).out = s.out ++ .report 0x0060 [l, st, cause] :: more := by
  simp only [linkTo, if_neg h]; exact report_out _ _ _ _ _ _ _ _

theorem linkTo_frame (s : State) (l st cause : Nat) :
    linkTo s l st cause = { s with fab := { s.fab with links := (linkTo s l st cause).fab.links }, er := (linkTo s l st cause).er, pw := { s.pw with alertN := (linkTo s l st cause).pw.alertN }, qe := { s.qe with msix := (linkTo s l st cause).qe.msix }, out := (linkTo s l st cause).out } := by
  simp only [linkTo]; split
  · rfl
  · apply State.ext <;> simp
    · rw [report_pw]; rfl
    · rw [report_qe]; rfl
    · rfl

/-! ### Requests that end -/

/-- The requests are the same, and every link but for the credits that it has to return. -/
def KeepsLinks (s t : State) : Prop := t.fab.reqs = s.fab.reqs ∧ ∀ k, getLink t k = { getLink s k with returns := (getLink t k).returns }

theorem KeepsLinks.of_fab {s t : State} (h1 : t.fab.reqs = s.fab.reqs) (h2 : t.fab.links = s.fab.links) : KeepsLinks s t :=
  ⟨h1, fun k => by simp only [getLink, h2]⟩

theorem KeepsLinks.trans {a b c : State} (h1 : KeepsLinks a b) (h2 : KeepsLinks b c) : KeepsLinks a c :=
  ⟨h2.1.trans h1.1, fun k => by rw [h2.2 k, h1.2 k]⟩

theorem KeepsLinks.self (s : State) : KeepsLinks s s := ⟨rfl, fun _ => rfl⟩

theorem completeWith_keepsLinks (s : State) (d : Desc) (st rf de ep nb : Nat) (mid : List Rec) : KeepsLinks s (completeWith s d st rf de ep nb mid) := by
  apply KeepsLinks.of_fab <;> rw [completeWith_fab]

theorem linkToken_fab (s : State) (t l cls : Nat) (src : Option Nat) (ld : Load) : (linkToken s t l cls src ld).1.fab = s.fab := by
  simp only [linkToken]; split
  · simp [addToken, setStream]
  · rfl

theorem reply_fab (s : State) (l : Nat) (p : Packet) (op sub : Nat) (bs : List Byte) : (reply s l p op sub bs).fab = s.fab := by
  simp only [reply]; split
  · exact linkToken_fab ..
  · exact linkToken_fab ..

/-- Entries that a port frees are returned on their link, and nothing else changes (10 R302). -/
theorem freePort_keepsLinks (s : State) (l t cls n : Nat) : KeepsLinks s (freePort s l t cls n) := by
  have h : ∀ o i, KeepsLinks s (setLink s l { getLink s l with returns := (getLink s l).returns ++ [(o, i, n)] }) := by
    intro o i
    refine ⟨rfl, fun k => ?_⟩
    by_cases hk : k = l
    · subst hk; simp
    · rw [getLink_setLink_other _ _ hk]
  simp only [freePort]; split
  · exact h _ _
  · exact h _ _
  · exact .self s

theorem dropHeld_keepsLinks (s : State) (w : Nat) : KeepsLinks s (dropHeld s w) := by
  simp only [dropHeld]; split
  · split
    · exact (KeepsLinks.of_fab rfl rfl).trans (freePort_keepsLinks ..)
    · exact .of_fab rfl rfl
  · exact .of_fab rfl rfl

theorem faultCtx_keepsLinks (s : State) (n c st : Nat) : KeepsLinks s (faultCtx s n c st) := by
  simp only [faultCtx]
  split
  · split
    · split
      · exact completeWith_keepsLinks ..
      · exact .of_fab (by simp) (by simp)
    · exact .of_fab (by simp) (by simp)
  · split
    · rename_i w _ _ h _
      have h0 : KeepsLinks s (nackMsg s h.link h.msg (causeOf st)) := .of_fab (by rw [nackMsg, reply_fab]) (by rw [nackMsg, reply_fab])
      exact (h0.trans (dropHeld_keepsLinks _ w)).trans (.of_fab (by simp) (by simp))
    · exact .of_fab (by simp) (by simp)
  · exact .of_fab (by simp) (by simp)

theorem trimReqBuf_fab (s : State) (n c k : Nat) : (trimReqBuf s n c k).fab = s.fab := by
  simp only [trimReqBuf]; split <;> rfl

theorem settleCtx_keepsLinks (s : State) (n c : Nat) : KeepsLinks s (settleCtx s n c) := by
  simp only [settleCtx]
  split
  · exact .self s
  · split
    · exact .of_fab (by simp) (by simp)
    · split
      · split
        · exact faultCtx_keepsLinks ..
        · split <;> exact .of_fab (by simp) (by simp)
      · exact .self s

theorem elemDone_keepsLinks (s : State) (n c k f : Nat) (bs : List Byte) : KeepsLinks s (elemDone s n c k f bs) := by
  simp only [elemDone]
  split
  · exact .self s
  · refine KeepsLinks.trans (.of_fab ?_ ?_) (settleCtx_keepsLinks ..)
    · rw [trimReqBuf_fab]; simp
    · rw [trimReqBuf_fab]; simp

theorem refuseGread_keepsLinks (s : State) (key st : Nat) : KeepsLinks s (refuseGread s key st) := by
  have hf : ∀ (l : List FlashWait) (x : State), KeepsLinks s x →
      KeepsLinks s (l.foldl (fun a w => match w with | .read l p => freePacket (nack a l p (causeOf st)) l p | .delta _ _ => a) x) := by
    intro l
    induction l with
    | nil => intro x h; exact h
    | cons w r ih =>
      intro x h
      rw [List.foldl_cons]
      apply ih
      cases w with
      | read l p =>
        refine (h.trans (.of_fab ?_ ?_)).trans (freePort_keepsLinks (nack x l p (causeOf st)) ..)
        · rw [nack, reply_fab]
        · rw [nack, reply_fab]
      | delta l m => exact h
  exact hf _ _ (.of_fab rfl rfl)

theorem remoteDone_keepsLinks (s : State) (q : QId) (n tag f : Nat) (hf : f ≠ 0) : KeepsLinks s (remoteDone s q n tag f) := by
  have hz : ∀ g : Nat, (if g = 0 then f else g) ≠ 0 := by intro g; split <;> assumption
  simp only [remoteDone]
  split
  · exact .self s
  · split
    · simp only [hz, if_false]; split
      · exact completeWith_keepsLinks ..
      · exact .of_fab rfl rfl
    · simp only [hz, if_false]; split
      · exact completeWith_keepsLinks ..
      · exact .of_fab rfl rfl
    · simp only [hz, ne_eq, not_false_eq_true, if_true]; split
      · exact completeWith_keepsLinks ..
      · exact .of_fab rfl rfl
    · exact .of_fab rfl rfl
    · rw [if_neg hf]; exact completeWith_keepsLinks ..
    · exact .self s

theorem faultAsker_keepsLinks (s : State) (q : QId) (key st : Nat) : KeepsLinks s (faultAsker s q key st) := by
  have h0 : KeepsLinks s (dropAsked s q key) := .of_fab rfl rfl
  simp only [faultAsker]
  split
  · split
    · exact h0.trans (faultCtx_keepsLinks ..)
    · exact h0
  · exact h0.trans (refuseGread_keepsLinks ..)
  · exact h0.trans (elemDone_keepsLinks ..)
  · exact h0

/-- Ending what waits for a request touches no other request, and of a link only what it has to return. -/
theorem faultSrc_keepsLinks (s : State) (x : ReqSource) (tag st : Nat) (hst : st ≠ 0) : KeepsLinks s (faultSrc s x tag st) := by
  cases x with
  | elem n c k => exact elemDone_keepsLinks ..
  | hostRead q n h => exact remoteDone_keepsLinks _ _ _ _ _ hst
  | desc q n => exact remoteDone_keepsLinks _ _ _ _ _ hst
  | copy q n o => exact remoteDone_keepsLinks _ _ _ _ _ hst
  | forward q n o => exact remoteDone_keepsLinks _ _ _ _ _ hst
  | message q n m =>
    have key : ∀ (d : Desc) (ix : List Index), KeepsLinks s (complete { s with indexes := ix } d st) := fun d ix =>
      KeepsLinks.trans (b := { s with indexes := ix }) (.of_fab rfl rfl) (completeWith_keepsLinks ..)
    simp only [faultSrc]
    split
    · split
      · exact key _ _
      · split
        · exact key _ _
        · exact .self s
    · split
      · exact faultAsker_keepsLinks ..
      · exact .self s
  | guard g p i => exact .of_fab rfl rfl
  | none => exact .self s

theorem faultReq_links (s : State) (r : Req) (st : Nat) (hst : st ≠ 0) :
    (∀ k, getLink (faultReq s r st) k = { getLink s k with returns := (getLink (faultReq s r st) k).returns })
      ∧ (faultReq s r st).fab.reqs = s.fab.reqs.filter (fun x => x.tag != r.tag) := by
  have h := faultSrc_keepsLinks (markFlags (dropReq s r.tag) r) r.src r.tag st hst
  have hl : (markFlags (dropReq s r.tag) r).fab.links = s.fab.links := by simp only [markFlags]; split <;> rfl
  have hr : (markFlags (dropReq s r.tag) r).fab.reqs = s.fab.reqs.filter (fun x => x.tag != r.tag) := by simp only [markFlags]; split <;> rfl
  refine ⟨fun k => ?_, ?_⟩
  · have hk := h.2 k
    have hg : getLink (markFlags (dropReq s r.tag) r) k = getLink s k := by simp only [getLink, hl]
    rw [hg] at hk
    exact hk
  · rw [← hr]; exact h.1

/-- Ends a request that is still outstanding. -/
def EndReq (a : State) (r : Req) : State := if a.fab.reqs.any (fun x => x.tag == r.tag) then faultReq a r stRemote else a

/-- What ending a list of requests leaves: the links but for what they have to return, and the requests of other tags. -/
theorem endReqs_links (rs : List Req) : ∀ (x : State),
    (∀ k, getLink (rs.foldl EndReq x) k = { getLink x k with returns := (getLink (rs.foldl EndReq x) k).returns })
      ∧ ∀ y ∈ (rs.foldl EndReq x).fab.reqs, y ∈ x.fab.reqs ∧ ∀ r ∈ rs, y.tag ≠ r.tag := by
  induction rs with
  | nil => intro x; exact ⟨fun _ => rfl, fun y hy => ⟨hy, by simp⟩⟩
  | cons r rs ih =>
    intro x
    rw [List.foldl_cons]
    obtain ⟨h1, h2⟩ := ih (EndReq x r)
    by_cases ha : x.fab.reqs.any (fun y => y.tag == r.tag) = true
    · have e : EndReq x r = faultReq x r stRemote := by rw [EndReq, if_pos ha]
      rw [e] at h1 h2 ⊢
      obtain ⟨g1, g2⟩ := faultReq_links x r stRemote (by decide)
      refine ⟨fun k => by rw [h1 k, g1 k], fun y hy => ?_⟩
      obtain ⟨k1, k2⟩ := h2 y hy
      rw [g2, List.mem_filter] at k1
      refine ⟨k1.1, fun z hz => ?_⟩
      rcases List.mem_cons.mp hz with rfl | hz
      · simpa using k1.2
      · exact k2 z hz
    · have e : EndReq x r = x := by rw [EndReq, if_neg ha]
      rw [e] at h1 h2 ⊢
      refine ⟨h1, fun y hy => ?_⟩
      obtain ⟨k1, k2⟩ := h2 y hy
      refine ⟨k1, fun z hz => ?_⟩
      rcases List.mem_cons.mp hz with rfl | hz
      · intro e; apply ha; rw [List.any_eq_true]; exact ⟨y, k1, by simp [e]⟩
      · exact k2 z hz

theorem linkDown_eq (s : State) (l cause : Nat) (h : (getLink s l).st ≠ 4) :
    linkDown s l cause = ((linkTo (countUnit (cntEr s 8 1) (linkUnit l) false 0) l 4 cause).fab.reqs.filter (fun r => r.link == l && r.sent)).foldl EndReq
      (linkTo (countUnit (cntEr s 8 1) (linkUnit l) false 0) l 4 cause) := by
  rw [linkDown, if_neg h]; rfl

/-- A link that goes to DOWN takes the state and the cause, and every request whose flits left on it has ended (10 R299). -/
theorem linkDown_links (s : State) (l cause : Nat) (h : (getLink s l).st ≠ 4) (hc : cause ≠ 0) :
    getLink (linkDown s l cause) l = { getLink s l with st := 4, cause := cause, returns := (getLink (linkDown s l cause) l).returns }
      ∧ (∀ k, k ≠ l → getLink (linkDown s l cause) k = { getLink s k with returns := (getLink (linkDown s l cause) k).returns })
      ∧ (∀ r ∈ (linkDown s l cause).fab.reqs, r ∈ s.fab.reqs ∧ ¬ (r.link = l ∧ r.sent = true)) := by
  rw [linkDown_eq s l cause h]
  have hs0 : ∀ k, getLink (countUnit (cntEr s 8 1) (linkUnit l) false 0) k = getLink s k := fun _ => rfl
  have hr0 : (countUnit (cntEr s 8 1) (linkUnit l) false 0).fab.reqs = s.fab.reqs := rfl
  generalize countUnit (cntEr s 8 1) (linkUnit l) false 0 = s0 at hs0 hr0 ⊢
  have hreq : (linkTo s0 l 4 cause).fab.reqs = s.fab.reqs := by rw [linkTo_frame]; exact hr0
  have hl := linkTo_link s0 l 4 cause (by rw [hs0]; exact h)
  have ho := linkTo_other s0 l 4 cause
  generalize linkTo s0 l 4 cause = s1 at hreq hl ho ⊢
  obtain ⟨h1, h2⟩ := endReqs_links (s1.fab.reqs.filter (fun r => r.link == l && r.sent)) s1
  refine ⟨?_, ?_, ?_⟩
  · rw [h1 l, hl, hs0, if_neg hc]
  · intro k hk
    rw [h1 k, ho k hk, hs0]
  · intro r hr
    obtain ⟨k1, k2⟩ := h2 r hr
    rw [hreq] at k1 k2
    refine ⟨k1, fun e => ?_⟩
    exact k2 r (by rw [List.mem_filter]; exact ⟨k1, by simp [e]⟩) rfl

end Sys2Proof.Machine
end

