-- ==== Sys2Proof/Laws/Power.lean ====
section
/-! SUPPORT. What training, starting up and the clearing part of a reset can change, said once. -/

namespace Sys2Proof.Machine

open Sys2Proof

/-- A property that every step of a fold keeps holds after it. -/
theorem foldl_keeps {α β : Type} (P : β → Prop) (f : β → α → β) (h : ∀ x a, P x → P (f x a)) : ∀ (l : List α) (x : β), P x → P (l.foldl f x)
  | [], _, hx => hx
  | a :: l, x, hx => by rw [List.foldl_cons]; exact foldl_keeps P f h l (f x a) (h x a hx)

/-- The same where a step needs to know its element. -/
theorem foldl_keeps_mem {α β : Type} (P : β → Prop) (f : β → α → β) : ∀ (l : List α) (x : β), (∀ y, ∀ a ∈ l, P y → P (f y a)) → P x → P (l.foldl f x)
  | [], _, _, hx => hx
  | a :: l, x, h, hx => by
    rw [List.foldl_cons]
    exact foldl_keeps_mem P f l (f x a) (fun y b hb hy => h y b (List.mem_cons_of_mem _ hb) hy) (h x a (List.mem_cons_self ..) hx)

/-- What an event can change: the event log, ALERT_n, pending MSI-X entries and what leaves the node. -/
theorem raise_frame (s : State) (code cls t u a b c : Nat) :
    ∃ er al mx out, raise s code cls t u a b c = { s with er := er, pw := { s.pw with alertN := al }, qe := { s.qe with msix := mx }, out := out } :=
  ⟨(raise s code cls t u a b c).er, (raise s code cls t u a b c).pw.alertN, (raise s code cls t u a b c).qe.msix, (raise s code cls t u a b c).out, by
    apply State.ext <;> simp
    · exact raise_pw ..
    · exact raise_qe ..⟩

theorem report_frame (s : State) (code cls t u a b c : Nat) :
    ∃ er al mx out, report s code cls t u a b c = { s with er := er, pw := { s.pw with alertN := al }, qe := { s.qe with msix := mx }, out := out } :=
  ⟨(report s code cls t u a b c).er, (report s code cls t u a b c).pw.alertN, (report s code cls t u a b c).qe.msix, (report s code cls t u a b c).out, by
    apply State.ext <;> simp
    · exact report_pw ..
    · exact report_qe ..⟩

/-- Only links, the event log, ALERT_n, pending MSI-X entries and what leaves the node have changed. -/
def LinkWork (s t : State) : Prop :=
  t = { s with fab := { s.fab with links := t.fab.links }, er := t.er, pw := { s.pw with alertN := t.pw.alertN }, qe := { s.qe with msix := t.qe.msix }, out := t.out }

theorem linkWork_trans {a b c : State} (h1 : LinkWork a b) (h2 : LinkWork b c) : LinkWork a c := by
  unfold LinkWork at *
  rw [h2, h1]

theorem linkWork_linkTo (s : State) (l st cause : Nat) : LinkWork s (linkTo s l st cause) := linkTo_frame s l st cause

theorem linkWork_restoreLane (s : State) (l : Nat) : LinkWork s (restoreLane s l) := by
  simp only [restoreLane]; split
  · exact rfl
  · exact rfl

/-- Training every link is work on the links alone (10 R295). -/
theorem linkWork_trainLinks (s : State) : LinkWork s (trainLinks s) := by
  refine foldl_keeps (LinkWork s) _ ?_ _ _ rfl
  intro x k h
  exact linkWork_trans h (linkWork_trans (linkWork_restoreLane ..) (linkWork_linkTo ..))

theorem restoreLane_st (s : State) (l k : Nat) : (getLink (restoreLane s l) k).st = (getLink s k).st := by
  simp only [restoreLane]; split
  · by_cases h : k = l
    · subst h; simp
    · rw [getLink_setLink_other _ _ h]
  · rfl

/-- After the fold every link of the list is in the state. -/
theorem trainFold_state (l : List Nat) (s : State) (k : Nat) (hk : k ∈ l) :
    (getLink (l.foldl (fun a j => linkTo (restoreLane a j) j 1 0) s) k).st = 1 := by
  have keep : ∀ (x : State) (j : Nat), (getLink x k).st = 1 → (getLink (linkTo (restoreLane x j) j 1 0) k).st = 1 := by
    intro x j h
    have h' : (getLink (restoreLane x j) k).st = 1 := by rw [restoreLane_st]; exact h
    by_cases hj : k = j
    · subst hj; simp only [linkTo, if_pos h']; exact h'
    · rw [linkTo_other _ _ _ _ _ hj]; exact h'
  have hit : ∀ x : State, (getLink (linkTo (restoreLane x k) k 1 0) k).st = 1 := by
    intro x
    by_cases h : (getLink (restoreLane x k) k).st = 1
    · simp only [linkTo, if_pos h]; exact h
    · rw [linkTo_link _ _ _ _ h]
  induction l generalizing s with
  | nil => cases hk
  | cons a l ih =>
    rw [List.foldl_cons]
    rcases List.mem_cons.mp hk with rfl | hk
    · exact foldl_keeps (fun x => (getLink x k).st = 1) _ (fun x j h => keep x j h) l _ (hit s)
    · exact ih _ hk

theorem calStack_frame (s : State) (n : Nat) : ∃ cal, calStack s n = { s with cal := cal } := ⟨_, rfl⟩

/-- Only the event log, ALERT_n, pending MSI-X entries and what leaves the node have changed. -/
def EventWork (s t : State) : Prop :=
  t = { s with er := t.er, pw := { s.pw with alertN := t.pw.alertN }, qe := { s.qe with msix := t.qe.msix }, out := t.out }

theorem eventWork_trans {a b c : State} (h1 : EventWork a b) (h2 : EventWork b c) : EventWork a c := by
  unfold EventWork at *
  rw [h2, h1]

theorem eventWork_raise (s : State) (code cls t u a b c : Nat) : EventWork s (raise s code cls t u a b c) := by
  unfold EventWork; apply State.ext <;> simp
  · exact raise_pw ..
  · exact raise_qe ..

/-- Only what training the stacks changes: the record of the repairs, the stacks' states, trims and power, and what logs the repairs. -/
def StackWork (s t : State) : Prop :=
  t = { s with er := t.er, pw := { s.pw with alertN := t.pw.alertN, stacksOn := s.ms.present }, qe := { s.qe with msix := t.qe.msix }, out := t.out, cal := t.cal,
               spare := { s.spare with unrecorded := [] }, ms := { s.ms with stackState := t.ms.stackState } }

theorem trainStacks_frame (s : State) : StackWork s (trainStacks s) := by
  have h1 : EventWork { s with spare := { s.spare with unrecorded := [] } } (s.spare.unrecorded.foldl (fun a r => raise (countUnit a (stackUnit r.1) false r.2) 0x0023 2 0x7F (stackUnit r.1) r.2 0 0) { s with spare := { s.spare with unrecorded := [] } }) := by
    refine foldl_keeps (EventWork _) _ ?_ _ _ rfl
    intro x r h
    have hc : EventWork x (countUnit x (stackUnit r.1) false r.2) := rfl
    exact eventWork_trans h (eventWork_trans hc (eventWork_raise ..))
  simp only [trainStacks]
  generalize s.spare.unrecorded.foldl (fun a r => raise (countUnit a (stackUnit r.1) false r.2) 0x0023 2 0x7F (stackUnit r.1) r.2 0 0) { s with spare := { s.spare with unrecorded := [] } } = y at h1 ⊢
  have h2 : StackWork s { y with pw := { y.pw with stacksOn := y.ms.present } } := by unfold StackWork; rw [h1]
  refine foldl_keeps (StackWork s) _ ?_ _ _ h2
  intro x n h
  unfold StackWork at *
  rw [h]
  rfl

/-- Steps 5 to 7: what they set, and that the rest stays (14 R440). -/
theorem startUp_frame (s : State) (cause : Nat) : ∃ er al mx out cal st links, startUp s cause
    = { s with er := er, out := out, cal := cal, spare := { s.spare with unrecorded := [] }, ms := { s.ms with stackState := st }, qe := { s.qe with msix := mx },
               fab := { s.fab with links := links }, nmc := { s.nmc with ready := true, bootCause := cause },
               pw := { s.pw with alertN := al, stacksOn := s.ms.present, pstate := 2, linksOn := true, flashOn := true, bridgeOn := true, queueOn := true, tokenOn := true, hostUp := true, tripCause := 0, tripPerst := false } } := by
  have h1 := trainStacks_frame s
  have h2 := linkWork_trainLinks (trainStacks s)
  simp only [startUp]
  generalize trainLinks (trainStacks s) = y at h2 ⊢
  generalize trainStacks s = x at h1 h2
  refine ⟨y.er, y.pw.alertN, y.qe.msix, y.out, y.cal, y.ms.stackState, y.fab.links, ?_⟩
  unfold StackWork at h1
  unfold LinkWork at h2
  rw [h2, h1]

/-- Steps 5 to 7 leave every link in TRAINING (10 R295, 14 R440). -/
theorem startUp_links (s : State) (cause k : Nat) (hk : k < 24) : (getLink (startUp s cause) k).st = 1 := by
  have h : (getLink (trainLinks (trainStacks s)) k).st = 1 := trainFold_state (List.range 24) (trainStacks s) k (List.mem_range.mpr hk)
  unfold startUp
  generalize trainLinks (trainStacks s) = x at h ⊢
  exact h

theorem freeCopies_frame (s : State) : ∃ ch, freeCopies s = { s with fl := { s.fl with chans := ch } } := by
  refine foldl_keeps (fun x => ∃ ch, x = { s with fl := { s.fl with chans := ch } }) _ ?_ _ _ ⟨s.fl.chans, rfl⟩
  rintro x o ⟨ch, rfl⟩
  dsimp only
  split
  · exact ⟨ch, rfl⟩
  · refine foldl_keeps (fun x => ∃ ch, x = { s with fl := { s.fl with chans := ch } }) _ ?_ _ _ ⟨ch, rfl⟩
    rintro x ul ⟨ch, rfl⟩
    exact ⟨_, rfl⟩

/-- What every reset level clears and what it leaves (14 R440, R441). -/
theorem clearFast_frame (s : State) : ∃ fl pw spare, clearFast s
    = { s with pw := pw, spare := spare, fl := fl
               nmc := { s.nmc with ready := false, recovAddr := 0, recovLen := 0, recovDone := false, recovFail := false, recovErr := 0 }
               bd := {}, ranks := [], squares := [], qe := {}, tenants := [], meters := []
               ms := { present := s.ms.present, pprUsed := s.ms.pprUsed, objs := keepT3 s, badRows := s.ms.badRows, badBursts := s.ms.badBursts }
               indexes := [], partials := [], fab := { refOk := s.fab.refOk }, ts := {} }
      ∧ spare = { s.spare with jobs := [] }
      ∧ pw = { s.pw with pstate := 0, sleepFail := false, err := 0, rankReq := 0, rankAsked := false, stacksOn := 0, linksOn := false, flashOn := false,
                         bridgeOn := false, queueOn := false, tokenOn := false, spdmPcie := 0, sleepFmt := [] } := by
  obtain ⟨ch, e⟩ := freeCopies_frame s
  simp only [clearFast, e]
  exact ⟨_, _, _, rfl, rfl, rfl⟩

/-- Booting an image changes only what the NMC runs. -/
theorem bootImage_frame (s : State) : ∃ a b c d e f, bootImage s
    = { s with nmc := { s.nmc with recovery := a, recovCause := b, fwVersion := c, fwStored := d, imageSvn := e, fwDigest := f } } := by
  simp only [bootImage]; split
  · exact ⟨_, _, _, _, _, _, rfl⟩
  · exact ⟨_, _, _, _, _, _, rfl⟩

/-- An image that verifies leaves the node out of recovery. -/
theorem bootImage_recovery (s : State) : (bootImage s).nmc.recovery = (match verifyStore s with | .ok _ => false | .error _ => true) := by
  cases h : verifyStore s <;> simp [bootImage, h]

/-- Every fast domain's power goes, and the host link with it (14 R442, R444). -/
theorem powerDown_frame (s : State) : ∃ fl spare ms er, powerDown s
    = { s with fl := fl, spare := spare, ms := ms, er := er
               pw := { s.pw with pstate := 0, sleepFail := false, err := 0, rankReq := 0, rankAsked := false, stacksOn := 0, linksOn := false, flashOn := false,
                                 bridgeOn := false, queueOn := false, tokenOn := false, spdmPcie := 0, sleepFmt := [], hostUp := false }
               nmc := { s.nmc with ready := false, recovAddr := 0, recovLen := 0, recovDone := false, recovFail := false, recovErr := 0 }
               bd := {}, ranks := [], squares := [], qe := {}, tenants := [], meters := []
               indexes := [], partials := [], fab := { refOk := s.fab.refOk }, ts := {} }
      ∧ ms.objs = keepT3 s ∧ ms.badBursts = [] ∧ ms.present = s.ms.present
      ∧ er = { s.er with sensors := s.er.sensors.map (fun e => (e.1, { e.2 with valid := false, warned := false })) }
      ∧ (ms.jobs = [] ∧ ms.exports = []) ∧ spare.lanes = s.spare.lanes ∧ spare.sramRows = s.spare.sramRows := by
  obtain ⟨fl, pw, spare, e, rfl, rfl⟩ := clearFast_frame s
  simp only [powerDown, e, undoRepairs, sensorsOff, if_true]
  exact ⟨_, _, _, _, rfl, rfl, rfl, rfl, rfl, ⟨rfl, rfl⟩, rfl, rfl⟩

end Sys2Proof.Machine
end

