-- ==== Sys2Proof/Laws/Flash.lean ====
section
/-! SUPPORT. Programming pages changes the flash block alone; what finding, storing and deleting a page does, said once. -/

namespace Sys2Proof.Machine

open Sys2Proof

/-- Only the flash block has changed. -/
def OnlyFlash (s t : State) : Prop := t = { s with fl := t.fl }

theorem OnlyFlash.rfl' (s : State) : OnlyFlash s s := rfl
theorem onlyFlash_mk (s : State) (f : FlSt) : OnlyFlash s { s with fl := f } := rfl
theorem onlyFlash_trans {a b c : State} (h1 : OnlyFlash a b) (h2 : OnlyFlash b c) : OnlyFlash a c := by
  simp only [OnlyFlash] at *; rw [h2, h1]
theorem onlyFlash_fl {a b : State} (f : FlSt) (h : OnlyFlash a b) : OnlyFlash a { b with fl := f } := onlyFlash_trans h (onlyFlash_mk b f)

theorem onlyFlash_foldl {α : Type} (s : State) (f : State → α → State) (h : ∀ x a, OnlyFlash x (f x a)) (l : List α) (x : State) (hx : OnlyFlash s x) :
    OnlyFlash s (l.foldl f x) :=
  foldl_keeps (OnlyFlash s) f (fun y a hy => onlyFlash_trans hy (h y a)) l x hx

theorem onlyFlash_setCh (s : State) (c : Nat) (v : Channel) : OnlyFlash s (setCh s c v) := rfl
theorem onlyFlash_cntFl (s : State) (k n : Nat) : OnlyFlash s (cntFl s k n) := rfl
theorem onlyFlash_putSuper (s : State) (x : Super) : OnlyFlash s (putSuper s x) := rfl
theorem onlyFlash_storePage (s : State) (c key kind m lu sb : Nat) (data : Mem) (hx : List Byte) : OnlyFlash s (storePage s c key kind m lu sb data hx) := rfl
theorem onlyFlash_setLu (s : State) (c lu : Nat) (e : MapEntry) : OnlyFlash s (setLu s c lu e) := rfl
theorem onlyFlash_clearLu (s : State) (c lu : Nat) : OnlyFlash s (clearLu s c lu) := rfl

theorem onlyFlash_closeParity (s : State) (x : Super) : OnlyFlash s (closeParity s x) := by
  simp only [closeParity]; split
  · exact onlyFlash_putSuper ..
  · exact onlyFlash_trans (onlyFlash_storePage ..) (onlyFlash_putSuper ..)

theorem onlyFlash_closeFull : ∀ (n : Nat) (s : State) (g d num : Nat), OnlyFlash s (closeFull n s g d num)
  | 0, s, _, _, _ => rfl
  | n + 1, s, g, d, num => by
    simp only [closeFull]; split
    · exact rfl
    · split
      · exact onlyFlash_trans (onlyFlash_closeParity ..) (onlyFlash_closeFull ..)
      · exact rfl

theorem onlyFlash_programAt (s : State) (x : Super) (m kind lu : Nat) (data : Mem) : OnlyFlash s (programAt s x m kind lu data) := by
  simp only [programAt]
  generalize (65 : Nat) = n
  refine onlyFlash_trans ?_ (onlyFlash_closeFull n ..)
  split
  · exact onlyFlash_trans (onlyFlash_trans (onlyFlash_storePage ..) (onlyFlash_putSuper ..)) (onlyFlash_cntFl ..)
  · exact onlyFlash_trans (onlyFlash_storePage ..) (onlyFlash_putSuper ..)

theorem onlyFlash_padMember : ∀ (n : Nat) (s : State) (g d num m k : Nat), OnlyFlash s (padMember n s g d num m k)
  | 0, s, _, _, _, _, _ => rfl
  | n + 1, s, g, d, num, m, k => by
    simp only [padMember]; split
    · exact rfl
    · split
      · exact onlyFlash_trans (onlyFlash_programAt ..) (onlyFlash_padMember ..)
      · exact rfl

theorem onlyFlash_closeOldest (s : State) (x : Super) : OnlyFlash s (closeOldest s x) := by
  simp only [closeOldest]
  have h := onlyFlash_foldl s (fun a m => padMember (x.closed + 1) a x.g x.d x.num m x.closed) (fun y m => onlyFlash_padMember ..) (dataMembers s.fl.fmtW x) s rfl
  split
  · split
    · exact onlyFlash_trans h (onlyFlash_closeParity ..)
    · exact h
  · exact h

theorem onlyFlash_takeBlock (s : State) (c chip b : Nat) : OnlyFlash s (takeBlock s c chip b) := by
  simp only [takeBlock]; split
  · exact onlyFlash_setCh ..
  · rfl

theorem onlyFlash_openSuper (s t : State) (g d r : Nat) (h : openSuper s g d r = some t) : OnlyFlash s t := by
  simp only [openSuper] at h
  split at h
  · cases h
  · injection h with h; subst h
    exact onlyFlash_foldl s _ (fun x a => onlyFlash_takeBlock ..) _ _ (onlyFlash_mk s _)

theorem onlyFlash_seek (g d m r : Nat) : ∀ (n : Nat) (s t : State), programOn.seek d r g m n s = some t → OnlyFlash s t
  | 0, s, t, h => by cases h
  | n + 1, s, t, h => by
    simp only [programOn.seek] at h
    split at h
    · injection h with h; subst h; rfl
    · simp only [Option.bind_eq_some_iff] at h
      obtain ⟨u, h1, h2⟩ := h
      exact onlyFlash_trans (onlyFlash_openSuper _ _ _ _ _ h1) (onlyFlash_seek g d m r n u t h2)

theorem onlyFlash_programOn (s : State) (c d r kind lu : Nat) (data : Mem) (x : Nat × State) (h : programOn s c d r kind lu data = some x) : OnlyFlash s x.2 := by
  simp only [programOn, Option.bind_eq_some_iff, Option.map_eq_some_iff] at h
  obtain ⟨a, ha, y, hy, z, hz, rfl⟩ := h
  have h1 := onlyFlash_seek _ _ _ _ _ _ _ ha
  refine onlyFlash_trans ?_ (onlyFlash_programAt ..)
  split
  · split
    · exact onlyFlash_trans h1 (onlyFlash_closeOldest ..)
    · exact h1
  · exact h1

theorem onlyFlash_programPage (s : State) (c r kind lu : Nat) (data : Mem) (x : Nat × Nat × State) (h : programPage s c r kind lu data = some x) : OnlyFlash s x.2.2 := by
  simp only [programPage] at h
  obtain ⟨i, _, hi⟩ := List.exists_of_findSome?_eq_some h
  simp only [Option.map_eq_some_iff] at hi
  obtain ⟨y, hy, rfl⟩ := hi
  exact onlyFlash_trans (onlyFlash_programOn _ _ _ _ _ _ _ _ hy) rfl

theorem onlyFlash_wipeBlock (s : State) (c chip b : Nat) : OnlyFlash s (wipeBlock s c chip b) := rfl

theorem onlyFlash_appendRoot (s : State) (c : Nat) (r : Root) : OnlyFlash s (appendRoot s c r) := by
  simp only [appendRoot]
  refine onlyFlash_trans (onlyFlash_fl _ (onlyFlash_trans ?_ (onlyFlash_setCh ..))) (onlyFlash_cntFl ..)
  split
  · exact onlyFlash_wipeBlock ..
  · rfl

theorem onlyFlash_programSegs (c : Nat) (x : Channel) : ∀ (l : List Nat) (s t : State), programSegs c x s l = some t → OnlyFlash s t
  | [], s, t, h => by
    simp only [programSegs, Option.some.injEq] at h
    rw [h]; rfl
  | seg :: l, s, t, h => by
    simp only [programSegs] at h
    split at h
    · rename_i hp
      exact onlyFlash_trans (onlyFlash_trans (onlyFlash_programPage _ _ _ _ _ _ _ hp) (onlyFlash_setCh ..)) (onlyFlash_programSegs c x l _ _ h)
    · cases h

/-- A checkpoint changes the flash block alone (09 R286, R287). -/
theorem onlyFlash_takeCheckpoint (s : State) (c : Nat) : OnlyFlash s (takeCheckpoint s c) := by
  simp only [takeCheckpoint]
  split
  · rfl
  · rename_i h
    exact onlyFlash_trans (onlyFlash_trans (onlyFlash_programSegs _ _ _ _ _ h) (onlyFlash_setCh ..)) (onlyFlash_appendRoot ..)

theorem onlyFlash_ensureQueues (s : State) (c : Nat) : OnlyFlash s (ensureQueues s c) := by
  simp only [ensureQueues]
  split
  · rfl
  · refine onlyFlash_foldl s _ (fun y k => ?_) _ _ rfl
    split
    · exact onlyFlash_takeCheckpoint ..
    · rfl

theorem onlyFlash_programData (s : State) (c r kind lu : Nat) (data : Mem) (x : Nat × Nat × State) (h : programData s c r kind lu data = some x) : OnlyFlash s x.2.2 :=
  onlyFlash_trans (onlyFlash_ensureQueues s c) (onlyFlash_programPage _ _ _ _ _ _ _ h)

/-! ### Pages in their table -/

theorem find_tset {β : Type} (t : Tab β) (k : Nat) (v : β) : ((tset t k v).find? (fun e => e.1 == k)).map Prod.snd = some v := by
  induction t with
  | nil => simp [tset]
  | cons e r ih =>
    obtain ⟨a, b⟩ := e
    simp only [tset]
    split
    · simp
    · split
      · simp
      · rename_i h1 h2
        rw [List.find?_cons_of_neg (by simp; omega)]
        exact ih

theorem find_tset_other {β : Type} (t : Tab β) (k j : Nat) (v : β) (h : j ≠ k) :
    ((tset t k v).find? (fun e => e.1 == j)).map Prod.snd = (t.find? (fun e => e.1 == j)).map Prod.snd := by
  induction t with
  | nil => simp [tset]; omega
  | cons e r ih =>
    obtain ⟨a, b⟩ := e
    simp only [tset]
    split
    · rw [List.find?_cons_of_neg (by simp; omega)]
    · split
      · rename_i h1 h2
        subst h2
        rw [List.find?_cons_of_neg (by simp; omega), List.find?_cons_of_neg (by simp; omega)]
      · by_cases ha : a = j
        · subst ha; simp
        · rw [List.find?_cons_of_neg (by simpa using ha), List.find?_cons_of_neg (by simpa using ha)]
          exact ih

theorem onlyFlash_trimPages (k : Nat) : ∀ (s : State) (c : Nat) (l : List Nat), OnlyFlash s (trimPages k s c l).1 := by
  induction k with
  | zero => intro s c l; exact OnlyFlash.rfl' s
  | succ k ih =>
    intro s c l
    unfold trimPages
    split
    · exact OnlyFlash.rfl' s
    · simp only []
      split
      · exact OnlyFlash.rfl' s
      · rename_i h
        have h1 := onlyFlash_programData _ _ _ _ _ _ _ h
        refine onlyFlash_trans (onlyFlash_foldl s _ (fun x a => onlyFlash_clearLu x c a) _ _ h1) (ih _ _ _)

/-- Discarding units changes the flash and what the flash's events say, and nothing else. -/
theorem onlyFlash_trimUnits (s : State) (o : Obj) (us : List Nat) : OnlyFlash s (trimUnits s o us).1 := by
  unfold trimUnits
  refine foldl_keeps (fun x : State × Bool => OnlyFlash s x.1) _ ?_ _ _ (OnlyFlash.rfl' s)
  intro x a hx
  exact onlyFlash_trans hx (onlyFlash_trimPages _ _ _ _)

end Sys2Proof.Machine
end

