-- ==== Sys2Proof/Laws/Tenants.lean ====
section
/-! SUPPORT. Ending a tenant's descriptors and changing its queues, said once. -/

namespace Sys2Proof.Machine

open Sys2Proof

/-- Queues that differ in their tables alone. -/
def SameButTt (s u : State) : Prop := ∀ q, getQ u q = { getQ s q with tt := (getQ u q).tt }
theorem SameButTt.refl (s : State) : SameButTt s s := fun _ => rfl
theorem SameButTt.trans {a b c : State} (h1 : SameButTt a b) (h2 : SameButTt b c) : SameButTt a c := by
  intro q; rw [h2 q, h1 q]

theorem sbt_of_qe {s u : State} (h1 : u.qe.queues = s.qe.queues) (h2 : u.qe.adminSt = s.qe.adminSt) : SameButTt s u := by
  intro q; cases q <;> simp [getQ, h1, h2]

theorem sbt_setTt (s : State) (q : QId) (n : Nat) (e : TtEntry) : SameButTt s (setTt s q n e) := by
  intro r
  cases q with
  | admin => cases r with
    | admin => rfl
    | tenant a b => rfl
  | tenant a b => cases r with
    | admin => rfl
    | tenant c k =>
      simp only [setTt, setQ, getQ, tget_tset]
      by_cases h : c * 64 + k = a * 64 + b
      · simp only [h, if_true]
      · simp only [h, if_false]

theorem sbt_completeWith (s : State) (d : Desc) (st rf de ep nb : Nat) (mid : List Rec) : SameButTt s (completeWith s d st rf de ep nb mid) := by
  rw [completeWith, dupRecs_eq]
  refine SameButTt.trans (b := setTt (dropDesc s d st) d.q d.seq ⟨d.seq, .complete, st⟩) (SameButTt.trans (b := dropDesc s d st) (sbt_of_qe ?_ ?_) (sbt_setTt _ _ _ _)) (sbt_of_qe ?_ ?_)
  · simp [dropDesc, setDescs]
  · simp [dropDesc, setDescs]
  · exact foldl_addRec_queues _ _
  · exact foldl_addRec_admin _ _

/-- What ending a descriptor leaves: it is off the list, a record with the status follows the records that waited, and nothing but the queue engine, the entry context, host memory and the replies to it changes. -/
theorem endDesc_facts (s : State) (d : Desc) (st : Nat) (hq : isAdmin d.q = false) :
    (endDesc s d st []).qe.descs = s.qe.descs.filter (fun x => x.n != d.n)
    ∧ (∃ l r, (endDesc s d st []).qe.recs = s.qe.recs ++ r :: l ∧ r.n = d.n ∧ r.status = st)
    ∧ SameButTt s (endDesc s d st [])
    ∧ (endDesc s d st []).tenants = s.tenants ∧ (endDesc s d st []).meters = s.meters ∧ (endDesc s d st []).ms = s.ms ∧ (endDesc s d st []).fl = s.fl
    ∧ (endDesc s d st []).indexes = s.indexes ∧ (endDesc s d st []).pending = s.pending ∧ (endDesc s d st []).fab.held = s.fab.held ∧ StreamsKept s (endDesc s d st []) := by
  have hw : ∀ (x : State) (t a : Nat) (bs : List Byte), hostWrite x t a bs = { x with hostMem := (hostWrite x t a bs).hostMem } := by
    intro x t a bs; unfold hostWrite; split <;> rfl
  have cw : ∀ (y : State) (ep nb : Nat), (∃ m, y = { s with hostMem := m }) → (completeWith y d st 0 0 ep nb []).qe.descs = s.qe.descs.filter (fun x => x.n != d.n)
    ∧ (∃ l r, (completeWith y d st 0 0 ep nb []).qe.recs = s.qe.recs ++ r :: l ∧ r.n = d.n ∧ r.status = st)
    ∧ SameButTt s (completeWith y d st 0 0 ep nb [])
    ∧ (completeWith y d st 0 0 ep nb []).tenants = s.tenants ∧ (completeWith y d st 0 0 ep nb []).meters = s.meters ∧ (completeWith y d st 0 0 ep nb []).ms = s.ms ∧ (completeWith y d st 0 0 ep nb []).fl = s.fl
    ∧ (completeWith y d st 0 0 ep nb []).indexes = s.indexes ∧ (completeWith y d st 0 0 ep nb []).pending = s.pending ∧ (completeWith y d st 0 0 ep nb []).fab.held = s.fab.held ∧ StreamsKept s (completeWith y d st 0 0 ep nb []) := by
    rintro y ep nb ⟨m, hh⟩
    have hqe : y.qe = s.qe := by rw [hh]
    refine ⟨?_, ?_, ?_, ?_, ?_, ?_, ?_, ?_, ?_, ?_, ?_⟩
    · rw [completeWith_descs, hqe]
    · obtain ⟨l', h'⟩ := completeWith_recs y d st 0 0 ep nb []
      exact ⟨l', _, by rw [h', hqe], rfl, rfl⟩
    · exact SameButTt.trans (b := y) (sbt_of_qe (by rw [hqe]) (by rw [hqe])) (sbt_completeWith _ _ _ _ _ _ _ _)
    · rw [completeWith_tenants, hh]
    · rw [completeWith_meters, hh]
    · rw [completeWith_ms, hh]
    · rw [completeWith_fl, hh]
    · rw [completeWith_indexes, hh]
    · rw [completeWith_pending, hh]
    · rw [completeWith_fab, hh]
    · exact StreamsKept.trans (StreamsKept.of_bd (StreamsKept.self s) (by rw [hh])) (completeWith_streams ..)
  unfold endDesc
  simp only [hq, Bool.false_eq_true, if_false]
  split
  · exact cw _ _ _ ⟨_, hw _ _ _ _⟩
  · exact cw _ _ _ ⟨_, rfl⟩

/-- Ending the descriptor that holds a number. -/
def EndStep (st : Nat) (a : State) (d : Desc) : State := match a.qe.descs.find? (fun x => x.n == d.n) with
    | some x => endDesc a x st []
    | none => a

/-- What ending a list of descriptors leaves. -/
theorem endFold_facts (st : Nat) (l : List Desc) : ∀ (s : State), (∀ d ∈ l, ∀ x ∈ s.qe.descs, x.n = d.n → isAdmin x.q = false) →
    (∀ y ∈ (l.foldl (EndStep st) s).qe.descs, y ∈ s.qe.descs)
    ∧ (∀ r ∈ s.qe.recs, r ∈ (l.foldl (EndStep st) s).qe.recs)
    ∧ (∀ d ∈ l, d ∈ s.qe.descs → (∀ y ∈ (l.foldl (EndStep st) s).qe.descs, y.n ≠ d.n) ∧ ∃ r ∈ (l.foldl (EndStep st) s).qe.recs, r.n = d.n ∧ r.status = st)
    ∧ SameButTt s (l.foldl (EndStep st) s)
    ∧ (l.foldl (EndStep st) s).tenants = s.tenants ∧ (l.foldl (EndStep st) s).meters = s.meters ∧ (l.foldl (EndStep st) s).ms = s.ms ∧ (l.foldl (EndStep st) s).fl = s.fl
    ∧ (l.foldl (EndStep st) s).indexes = s.indexes ∧ (l.foldl (EndStep st) s).pending = s.pending ∧ (l.foldl (EndStep st) s).fab.held = s.fab.held ∧ StreamsKept s (l.foldl (EndStep st) s) := by
  induction l with
  | nil => intro s _; exact ⟨fun _ h => h, fun _ h => h, fun _ h => (nomatch h), SameButTt.refl s, rfl, rfl, rfl, rfl, rfl, rfl, rfl, StreamsKept.self s⟩
  | cons d r ih =>
    intro s hs
    rw [List.foldl_cons]
    cases hf : s.qe.descs.find? (fun x => x.n == d.n) with
    | none =>
      have e : EndStep st s d = s := by unfold EndStep; rw [hf]
      rw [e]
      obtain ⟨i1, i2, i3, i4⟩ := ih s (fun d hd => hs d (List.mem_cons_of_mem _ hd))
      refine ⟨i1, i2, ?_, i4⟩
      intro d' hd' hm
      rcases List.mem_cons.mp hd' with rfl | hd'
      · exact absurd (List.find?_eq_none.mp hf d' hm) (by simp)
      · exact i3 d' hd' hm
    | some x =>
      have e : EndStep st s d = endDesc s x st [] := by unfold EndStep; rw [hf]
      have hxm := List.mem_of_find?_eq_some hf
      have hxn : x.n = d.n := by simpa using List.find?_some hf
      obtain ⟨f1, ⟨l', r', f2, f2n, f2s⟩, f3, f4⟩ := endDesc_facts s x st (hs d (List.mem_cons_self ..) x hxm hxn)
      rw [e]
      obtain ⟨i1, i2, i3, i4, i5, i6, i7, i8, i9, i10, i11, i12⟩ := ih (endDesc s x st []) (fun d' hd' y hy => hs d' (List.mem_cons_of_mem _ hd') y (by rw [f1] at hy; exact List.mem_of_mem_filter hy))
      refine ⟨?_, ?_, ?_, SameButTt.trans f3 i4, i5.trans f4.1, i6.trans f4.2.1, i7.trans f4.2.2.1, i8.trans f4.2.2.2.1, i9.trans f4.2.2.2.2.1, i10.trans f4.2.2.2.2.2.1, i11.trans f4.2.2.2.2.2.2.1, StreamsKept.trans f4.2.2.2.2.2.2.2 i12⟩
      · intro y hy; have := i1 y hy; rw [f1] at this; exact List.mem_of_mem_filter this
      · intro q hq; exact i2 q (by rw [f2]; exact List.mem_append_left _ hq)
      · intro d' hd' hm
        by_cases hn : d'.n = d.n
        · refine ⟨?_, r', i2 r' (by rw [f2]; simp), by rw [f2n, hxn, hn], f2s⟩
          intro y hy h
          have := i1 y hy; rw [f1, List.mem_filter] at this
          have h2 := this.2; simp at h2; exact h2 (by rw [h, hn, hxn])
        · rcases List.mem_cons.mp hd' with rfl | hd'
          · exact absurd rfl hn
          · exact i3 d' hd' (by rw [f1, List.mem_filter]; exact ⟨hm, by simp [hxn, hn]⟩)

/-- What ending a tenant's uncommitted descriptors leaves (11 R372): they are off the list with a record each; no credit, table size or ring of a queue changes, nor any block but the queue engine. -/
theorem endTenant_facts (s : State) (t st : Nat) (hu : ∀ e ∈ s.qe.descs, ∀ y ∈ s.qe.descs, e.n = y.n → isAdmin e.q = isAdmin y.q) :
    (∀ y ∈ (endTenant s t st).qe.descs, y ∈ s.qe.descs)
    ∧ (∀ r ∈ s.qe.recs, r ∈ (endTenant s t st).qe.recs)
    ∧ (∀ d ∈ s.qe.descs, d.tenant = t → isAdmin d.q = false → isPending s d = true → (∀ y ∈ (endTenant s t st).qe.descs, y.n ≠ d.n) ∧ ∃ r ∈ (endTenant s t st).qe.recs, r.n = d.n ∧ r.status = st)
    ∧ SameButTt s (endTenant s t st)
    ∧ (endTenant s t st).tenants = s.tenants ∧ (endTenant s t st).meters = s.meters ∧ (endTenant s t st).ms = s.ms ∧ (endTenant s t st).fl = s.fl
    ∧ (endTenant s t st).indexes = s.indexes ∧ (endTenant s t st).pending = s.pending ∧ (endTenant s t st).fab.held = s.fab.held ∧ StreamsKept s (endTenant s t st) := by
  obtain ⟨i1, i2, i3, i4⟩ := endFold_facts st (s.qe.descs.filter (fun d => d.tenant == t && !isAdmin d.q && isPending s d)) s (by
    intro d hd x hx hn
    rw [List.mem_filter] at hd
    rw [hu x hx d hd.1 hn]; have := hd.2; simp at this; exact this.1.2)
  have e : endTenant s t st = (s.qe.descs.filter (fun d => d.tenant == t && !isAdmin d.q && isPending s d)).foldl (EndStep st) s := rfl
  rw [e]
  refine ⟨i1, i2, ?_, i4⟩
  intro d hd h1 h2 h3
  exact i3 d (by rw [List.mem_filter]; exact ⟨hd, by simp [h1, h2, h3]⟩) hd

/-! ### Changing every queue of a tenant -/
theorem mapQ_fold (x : Nat) (f : Queue → Queue) (l : List Nat) : ∀ (s : State), l.Nodup →
    (∀ k ∈ l, getQ (l.foldl (fun a q => setQ a (.tenant x q) (f (getQ a (.tenant x q)))) s) (.tenant x k) = f (getQ s (.tenant x k)))
    ∧ (∀ q, (∀ k ∈ l, ∀ u j, q = .tenant u j → u * 64 + j ≠ x * 64 + k) → getQ (l.foldl (fun a q => setQ a (.tenant x q) (f (getQ a (.tenant x q)))) s) q = getQ s q)
    ∧ (l.foldl (fun a q => setQ a (.tenant x q) (f (getQ a (.tenant x q)))) s) = { s with qe := { s.qe with queues := (l.foldl (fun a q => setQ a (.tenant x q) (f (getQ a (.tenant x q)))) s).qe.queues } } := by
  induction l with
  | nil => intro s _; exact ⟨fun _ h => (nomatch h), fun _ _ => rfl, rfl⟩
  | cons a r ih =>
    intro s hn
    rw [List.nodup_cons] at hn
    rw [List.foldl_cons]
    obtain ⟨i1, i2, i3⟩ := ih (setQ s (.tenant x a) (f (getQ s (.tenant x a)))) hn.2
    refine ⟨?_, ?_, ?_⟩
    · intro k hk
      rcases List.mem_cons.mp hk with rfl | hk
      · rw [i2 (.tenant x k) (by
          intro k' hk' u j h; cases h; intro hh
          have : k = k' := by omega
          exact hn.1 (this ▸ hk')), getQ_setQ]
      · rw [i1 k hk]
        have : getQ (setQ s (.tenant x a) (f (getQ s (.tenant x a)))) (.tenant x k) = getQ s (.tenant x k) := by
          simp only [setQ, getQ]; rw [tget_tset_other]
          intro hh; have : k = a := by omega
          exact hn.1 (this ▸ hk)
        rw [this]
    · intro q hq
      rw [i2 q (fun k hk => hq k (List.mem_cons_of_mem _ hk))]
      cases q with
      | admin => rfl
      | tenant u j =>
        simp only [setQ, getQ]; rw [tget_tset_other]
        exact hq a (List.mem_cons_self ..) u j rfl
    · rw [i3]; rfl

/-- Every queue of the tenant is changed, and no other. -/
theorem mapQueues_facts (s : State) (x : Nat) (f : Queue → Queue) :
    (∀ k, k < 64 → getQ (mapQueues s x f) (.tenant x k) = f (getQ s (.tenant x k)))
    ∧ (∀ u k, u ≠ x → k < 64 → getQ (mapQueues s x f) (.tenant u k) = getQ s (.tenant u k)) ∧ getQ (mapQueues s x f) .admin = getQ s .admin
    ∧ mapQueues s x f = { s with qe := { s.qe with queues := (mapQueues s x f).qe.queues } } := by
  obtain ⟨i1, i2, i3⟩ := mapQ_fold x f (List.range 64) s List.nodup_range
  refine ⟨fun k hk => i1 k (List.mem_range.mpr hk), ?_, ?_, i3⟩
  · intro u k hu hk
    apply i2; intro k' hk' u' j h; cases h
    have := List.mem_range.mp hk'; omega
  · apply i2; intro k' _ u' j h; cases h

/-- A part of a queue that the change keeps stays the same in every queue. -/
theorem mapQueues_keeps {α : Type} (g : Queue → α) (f : Queue → Queue) (h : ∀ v, g (f v) = g v) (s : State) (x : Nat) (q : QId) :
    g (getQ (mapQueues s x f) q) = g (getQ s q) := by
  have key : ∀ (l : List Nat) (a : State), (∀ q, g (getQ a q) = g (getQ s q)) → ∀ q, g (getQ (l.foldl (fun a q => setQ a (.tenant x q) (f (getQ a (.tenant x q)))) a) q) = g (getQ s q) := by
    intro l
    induction l with
    | nil => intro a ha; exact ha
    | cons k r ih =>
      intro a ha
      rw [List.foldl_cons]
      apply ih
      intro q
      cases q with
      | admin => exact ha .admin
      | tenant c j =>
        simp only [setQ, getQ, tget_tset]
        split
        · rename_i hk; rw [h]; have := ha (.tenant c j); simp only [getQ, hk] at this ⊢; exact this
        · exact ha (.tenant c j)
  exact key _ s (fun _ => rfl) q

end Sys2Proof.Machine
end

