-- ==== Sys2Proof/Tests/Slice0.lean ====
section
/-! SUPPORT. Small tests: ill-formed commands that the check refuses, words and values written out from the spec, and for every statement a concrete state and operands that meet its hypotheses, clause by clause. -/

namespace Sys2Proof.Tests

set_option Elab.async false

open Sys2Proof Sys2Proof.Machine

/-! ### Small states -/

/-- An ACTIVE node: power and host link on, every domain on. -/
def on : State :=
  { pw := { perst := false, pstate := 2, stacksOn := 0xFF, linksOn := true, flashOn := true, bridgeOn := true, queueOn := true, tokenOn := true, hostUp := true },
    nmc := { ready := true, fwDigest := some 1 } }

def layer0 : BaseLayer := ⟨7, 0, 0, 0, 0, 0, 0, 16777216, 2 ^ 38, 0, [], []⟩

/-- Tenant 1's Position: the Square of die 0, file 0, rank 0 with two entry slots and a serving slot. -/
def pos1 : Position := ⟨1, 4, 7, 0, 3, 2097152, 2 ^ 30, 2 ^ 30, 2 ^ 30, [⟨0, 0, 0, 3, 32⟩], [], [], 0, ⟨[⟨1, 0, none⟩], [], [], [], true⟩, []⟩

/-- The same node with a base layer and tenant 1's Position. -/
def onP : State := { on with bd := { base := 2, layer := some layer0, positions := [(1, pos1)] } }

def q1 : QId := .tenant 1 0

/-- `n` bytes with little-endian fields at offset, width, value. -/
def row (n : Nat) (l : List (Nat × Nat × Nat)) : List Byte := memRead (l.foldl (fun m x => memWrite m x.1 (toLE x.2.1 x.2.2)) []) 0 n

/-- A descriptor that is the only one of its queue. -/
def dsc (q : QId) (phase : DPhase) (l : List (Nat × Nat × Nat)) : Desc :=
  { n := 1, q := q, tenant := tenantOf q, seq := 0, bytes := row 64 l, phase := phase }

/-- The state in which the descriptor is PENDING on its ENABLED queue. -/
def has (s : State) (d : Desc) : State :=
  setTt (setQ (setDescs s (s.qe.descs ++ [d])) d.q { getQ s d.q with qstate := 2, en := true, avail := 5, high := some d.seq }) d.q d.seq ⟨d.seq, .pending, 0⟩

/-- The state with host memory holding bytes at an address. -/
def hostAt (s : State) (a : Nat) (b : List Byte) : State := { s with hostMem := memWrite s.hostMem a b }

/-! ### The queue engine -/

theorem test_step_front : ({ pending := [.moveBoundary] } : State).pending = .moveBoundary :: [] := rfl

/-- A VF write to its last queue, and a physical write to the admin queue. -/
theorem test_aperture_accepted :
    let s := setQ onP (.tenant 1 3) { qstate := 2, avail := 1 }
    let a := setQ on .admin { qstate := 2, avail := 32 }
    (wellFormed (.apertureWrite (some 1) 0x3000 (zeros 64)) = true ∧ barFull s = true ∧ (apertureOf s (some 1) 0x3000).2 = some (.tenant 1 3)
      ∧ (zeros 64).length = 64 ∧ 0x3000 % 64 = 0 ∧ (getQ s (.tenant 1 3)).qstate = 2 ∧ (getQ s (.tenant 1 3)).avail ≠ 0)
    ∧ (wellFormed (.apertureWrite none 0xFC0 (zeros 64)) = true ∧ barFull a = true ∧ (apertureOf a none 0xFC0).2 = some .admin
      ∧ 0xFC0 % 64 = 0 ∧ (getQ a .admin).qstate = 2 ∧ (getQ a .admin).avail ≠ 0) := by decide +kernel

/-- The four answers of the number check at its boundaries: 960 ahead and 1,023 behind are in the window. -/
theorem test_aperture_window :
    (ttCheck { high := some 2000 } 2960).1 = .new ∧ (ttCheck { high := some 2000 } 2961).1 = .range ∧ (ttCheck { high := some 2000 } 977).1 = .new
      ∧ (ttCheck { high := some 2000 } 976).1 = .stale ∧ (ttCheck { high := some 2000, tt := [(976, ⟨2000, .pending, 0⟩)] } 2000).1 = .dup ⟨2000, .pending, 0⟩ := by decide +kernel

theorem test_aperture_not_taken :
    (wellFormed (.apertureWrite (some 64) 0x3FFFF (zeros 1)) = true ∧ barFull onP = true ∧ (apertureOf onP (some 64) 0x3FFFF).2 = none)
    ∧ (wellFormed (.apertureWrite (some 1) 4 (zeros 64)) = true ∧ (apertureOf onP (some 1) 4).2 = some q1 ∧ 4 % 64 ≠ 0)
    ∧ (let s := setQ onP q1 { qstate := 2, avail := 0 }
       wellFormed (.apertureWrite (some 1) 0 (zeros 64)) = true ∧ barFull s = true ∧ (apertureOf s (some 1) 0).2 = some q1 ∧ (getQ s q1).qstate = 2 ∧ (getQ s q1).avail = 0) := by decide +kernel

theorem test_queue_enters_enabled :
    wellFormed (.queueEnable 1 (.tenant 1 63) 0) = true ∧ barFull onP = true ∧ (getQ onP (.tenant 1 63)).qstate = 0
      ∧ (hasPos onP (tenantOf (.tenant 1 63)) = true ∧ (getT onP (tenantOf (.tenant 1 63))).resetting = none)
      ∧ wellFormed (.queueEnable 0 .admin 0) = true ∧ barFull on = true ∧ (getQ on .admin).qstate = 0 := by decide +kernel

theorem test_queue_and_meter_writes :
    wellFormed (.queueDisable 1 q1 0) = true ∧ barFull onP = true ∧ wellFormed (.completionHeadWrite 1 q1 63) = true ∧ wellFormed (.meterEnable 0 64 true 0) = true := by decide +kernel

/-- A record in the last entry but one of a ring of 64, a full ring, and a tenant under a function level reset. -/
theorem test_completion_record :
    let r : Rec := { q := q1 }
    let s := setQ { onP with qe := { recs := [r] } } q1 { qstate := 2, tail := 62 }
    let f := setQ { onP with qe := { recs := [r] } } q1 { qstate := 2, tail := 62, head := 63 }
    let g := setT s 1 { flr := true }
    (wellFormed (.completionRecordWrite q1) = true ∧ nextRec s q1 = some (0, r) ∧ recLost s q1 = false ∧ ((getQ s q1).tail + 1) % ringSize (getQ s q1) ≠ (getQ s q1).head)
    ∧ (nextRec f q1 = some (0, r) ∧ recLost f q1 = false ∧ ((getQ f q1).tail + 1) % ringSize (getQ f q1) = (getQ f q1).head)
    ∧ (nextRec g q1 = some (0, r) ∧ (getT g 1).flr = true) := by decide +kernel

/-- A SEARCH that waits in move 2; its entry slots are 0 and 1, and slot 0 is busy. -/
theorem test_descriptor_takes_slot :
    let d := dsc q1 .ready [(0, 1, 1)]
    let s := setCtx (has { onP with tempo := 8192 } d) 0 0 { st := .ready }
    (wellFormed (.descriptorPlace 1) = true ∧ posOf s 1 = some pos1 ∧ freeEntrySlot s pos1 = some (0, 1)
      ∧ (serviceOrder s 1).findSome? (fun q => waitingOf s (.tenant 1 q)) = some d) := by decide +kernel

/-- NOP; a FENCE that is due, one with an earlier descriptor, one that waits for a record to be written, one with SCOPE 2; an ABORT of itself, of a stale number, of a finished and of a pending descriptor. -/
theorem test_abort_fence_nop :
    let n := dsc q1 .ready [(0, 1, 0x3F)]
    let f (sc : Nat) := dsc q1 .ready [(0, 1, 0x38), (16, 1, sc)]
    let a (t : Nat) := { dsc q1 .ready [(0, 1, 0x30), (4, 4, 1030), (16, 4, t)] with seq := 1030 }
    let x : Desc := { n with n := 0, seq := 1029 }
    let y : Desc := { n with n := 0, seq := 5, phase := .running }
    let u : State := { onP with qe := { recs := [{ q := q1 }] } }
    let sa (t : Nat) := setTt (has (setDescs onP [x]) (a t)) q1 1029 ⟨1029, .pending, 0⟩
    let sd := setTt (has onP (a 1029)) q1 1029 ⟨1029, .complete, 0⟩
    (wellFormed (.nop q1 0) = true ∧ dueDesc (has onP n) q1 0 0x3F = some n)
    ∧ (wellFormed (.fence q1 0) = true ∧ dueDesc (has onP (f 0)) q1 0 0x38 = some (f 0) ∧ dfield (f 0) 16 1 ≤ 1 ∧ fenceDue (has onP (f 0)) (f 0) = true)
    ∧ (dueDesc (has (setDescs onP [y]) (f 1)) q1 0 0x38 = some (f 1) ∧ dfield (f 1) 16 1 ≤ 1 ∧ fenceReached (has (setDescs onP [y]) (f 1)) (f 1) = false
      ∧ fenceReached (has u (f 0)) (f 0) = true ∧ fenceDue (has u (f 0)) (f 0) = false)
    ∧ (dueDesc (has onP (f 2)) q1 0 0x38 = some (f 2) ∧ 1 < dfield (f 2) 16 1)
    ∧ (wellFormed (.abort q1 1030) = true ∧ findDesc (sa 1029) q1 1030 = some (a 1029) ∧ descOp (a 1029) = 0x30 ∧ (a 1029).phase = .ready)
    ∧ abortTarget (sa 1029) (a 1029) = .pending x ∧ abortTarget (sa 1030) (a 1030) = .malformed ∧ abortTarget (sa 6) (a 6) = .stale ∧ abortTarget sd (a 1029) = .done := by decide +kernel

/-! ### Registers and the host port -/

theorem test_event_log_writes : barFull on = true ∧ (1 : Nat) ≤ 64 ∧ (64 : Nat) ≤ 64 := by decide +kernel

/-- With the ring empty, and full. -/
theorem test_pcie_error :
    on.pw.hostUp = true ∧ (on.er.tail + 1) % 1024 ≠ on.er.head
    ∧ (let s : State := { on with er := { head := 0, tail := 1023 } }; s.pw.hostUp = true ∧ (s.er.tail + 1) % 1024 = s.er.head) := by decide +kernel

theorem test_register_write : (0xA00100, 4, 6) ∈ [(0x000038, 4, 26), (0x400000, 4, 9), (0xA00100, 4, 6)] ∧ barFull on = true := by decide +kernel

/-- Path 63 of kind 5 is the last of its kind, 64 does not exist; FILE 16 is the spare Square, 17 none. -/
theorem test_slot_and_square_queries :
    barFull on = true ∧ pathsOf ((5 + 16 * 64) % 16) ≤ (5 + 16 * 64) / 16 % 1024 ∧ (5 + 16 * 63) / 16 % 1024 < pathsOf ((5 + 16 * 63) % 16)
      ∧ 16 < (2 * 17) / 2 % 32 ∧ (2 * 16) / 2 % 32 ≤ 16 := by decide +kernel

/-- A virtual function's write of its events answers a next state; offset 0x10 of BAR0 plus 2 is no word. -/
theorem test_register_accesses :
    (∃ t, exec (.registerWrite 64 0x8 4 3) on = .next t)
    ∧ (barNmc on = true ∧ unimplWords on 0 0xFFFFFC 4 = [0xFFFFFC] ∧ (on.er.tail + 1) % 1024 ≠ on.er.head)
    ∧ (unimplWords on 0 0x3 4 = [0x3]) := ⟨⟨_, rfl⟩, by decide +kernel⟩

/-- The last byte of an object through segment 1 of the smallest window. -/
def bar4On : State :=
  { on with ms := { bar4Map := [(1, { valid := true, tenant := 1, object := 5 })], objs := [{ tenant := 1, num := 5, type := 1, tier := 1, raw := true, size := 524288 }] } }

def bar4Obj : Obj := { tenant := 1, num := 5, type := 1, tier := 1, raw := true, size := 524288 }

theorem test_bar4_access :
    (barFull bar4On = true ∧ ∀ i o a, i < 2 → bar4At bar4On (bar4Seg bar4On + 524287 + i) = some (o, a) → stackBad bar4On o a 1 = none)
    ∧ (bar4On.ms.jobs = [] ∧ ([0xAB] : List Byte) ≠ [] ∧ ∀ i, i < ([0xAB] : List Byte).length → bar4At bar4On (bar4Seg bar4On + 524287 + i) = some (bar4Obj, 524287 + i))
    ∧ on.pw.hostUp = true ∧ (6 : Nat) ≤ 6 := by
  refine ⟨⟨by decide +kernel, ?_⟩, by decide +kernel⟩
  intro i o a _ _
  simp [stackBad, bar4On]

theorem test_host_read :
    let d := dsc q1 .ready [(0, 1, 0x14)]
    let s := has onP d
    (wellFormed (.hostReadCompletion q1 0 64 [1, 2] .success) = true ∧ findDesc s q1 0 = some d ∧ hostOpen s d.tenant = true)
    ∧ (wellFormed (.hostReadCompletion q1 0 64 [] .poisoned) = true ∧ HostReadStatus.poisoned ≠ .success)
    ∧ wellFormed (.vccqSenseChange 7 none) = true
    ∧ wellFormed (.vccqSenseChange 0 (some (List.replicate 8 ⟨8, true, { planes := 2, blocks := 512, pages := 256, peRated := 3000, spareBytes := 1952, suspend := true }⟩))) = true := by decide +kernel

/-! ### The fabric -/

def grp8 : GroupCfg := ⟨1, 8, 7, 0, List.range 64⟩

theorem test_manager_node : nmcRuns on = true ∧ (255 : Nat) < 256 := by decide +kernel

theorem test_group_commands :
    nmcRuns on = true ∧ groupMalformed grp8 = false ∧ grp8.pos < grp8.gsize ∧ (255 : Nat) < 256 ∧ groupMalformed { grp8 with gsize := 65 } = true := by decide +kernel

theorem test_tempo_set : nmcRuns on = true ∧ 2 ^ 64 - 1 < 2 ^ 64 ∧ on.bd.positions = [] ∧ onP.bd.positions ≠ [] := by decide +kernel

/-- One tick ahead is the last offset that counts as synchronised. -/
theorem test_tempo_follows :
    let s : State := { onP with tempo := 11, fab := { links := [(23, { st := 2 })], syncLink := 23 } }
    nmcRuns on = true
    ∧ ((23 : Nat) < 24 ∧ (getLink s 23).st = 2 ∧ s.bd.layer ≠ none ∧ on.bd.layer = none ∧ s.fab.syncLink = 23 ∧ masterOffset s 23 10 = 256)
    ∧ (¬(-256 ≤ masterOffset s 23 9 ∧ masterOffset s 23 9 ≤ 256) ∧ s.fab.offOut = false)
    ∧ (-256 < s.tempoFrac + 255 ∧ s.tempoFrac + 255 < 256)
    ∧ (s.pw.powered = true ∧ s.fab.refOk ≠ true ∧ ({ s with fab := { s.fab with refOk := true } } : State).fab.refOk ≠ false) := by decide +kernel

theorem test_link_states :
    let s (n : Nat) : State := { on with fab := { links := [(23, { st := n, replays := 8 })] } }
    nmcRuns (s 0) = true ∧ (s 0).pw.linksOn = true ∧ (23 : Nat) < 24 ∧ (getLink (s 0) 23).st = 0 ∧ (getLink (s 4) 23).st = 4 ∧ (getLink (s 1) 23).st = 1
      ∧ (getLink (s 3) 23).st = 3 ∧ (getLink (s 3) 23).promote = none ∧ (getLink (s 2) 23).st = 2 ∧ 8 ≤ (getLink (s 2) 23).replays := by decide +kernel

def flit0 : Flit := ⟨4095, 1, 7, 0, 0, 0, zeros 240, 0, false, 0⟩
def flitGood : Flit := { flit0 with crc := crc32 (flitBytes flit0) }
def held (n : Nat) : Flit := { flit0 with seq := n }
def linkS : State := { onP with fab := { links := [(0, { st := 2, rxNext := 4095, unacked := [held 5, held 6, held 7] })] } }

theorem test_flits :
    ((0 : Nat) < 24 ∧ flitOk flit0 = true ∧ (getLink linkS 0).st = 2 ∧ flit0.crc ≠ crc32 (flitBytes flit0))
    ∧ (flitOk flitGood = true ∧ flitGood.fecBad = false ∧ flitGood.crc = crc32 (flitBytes flitGood) ∧ flitGood.kind = 1 ∧ linkS.bd.layer ≠ none
      ∧ flitGood.seq = (getLink linkS 0).rxNext)
    ∧ (let s := setLink linkS 0 { getLink linkS 0 with rxNext := 4094 }; flitGood.seq ≠ (getLink s 0).rxNext ∧ flitUpTo (getLink s 0).rxNext flitGood.seq = true)
    ∧ ((getLink linkS 0).unacked = [held 5] ++ held 6 :: [held 7] ∧ (∀ y ∈ [held 5], y.seq ≠ 6) ∧ (getLink linkS 0).unacked = [] ++ held 5 :: [held 6, held 7]) := by decide +kernel

/-- The check value of CRC-32 for the digits 1 to 9. -/
theorem test_crc32 : crc32 [0x31, 0x32, 0x33, 0x34, 0x35, 0x36, 0x37, 0x38, 0x39] = 0xCBF43926 := by decide +kernel

/-- Sets whose P is 0, and whose objects stand here or not; a command that runs, that waits for units, whose member is silent, and without a group. -/
theorem test_guard_commands :
    let g : Guard := { tenant := 1, p := 1, dataObj := 5, parObj := 6 }
    let o (num ty : Nat) : Obj := { tenant := 1, num := num, type := ty, tier := 3, raw := true, size := 16384 }
    let s (k : Guard) : State := { onP with fab := { group := some grp8, guards := [(3, k)], guardSel := 3 }, ms := { objs := [o 5 3, o 6 9] } }
    let r (k : Guard) : State := s { k with running := true }
    (barFull (s {}) = true ∧ (getGuard (s {}) 3).running = false ∧ guardFails (s {}) (getGuard (s {}) 3) true = some 6 ∧ (getGuard (s {}) 3).st = 0)
    ∧ (guardFails (s g) (getGuard (s g) 3) true = none ∧ guardFails (s g) (getGuard (s g) 3) false = some 2 ∧ (getGuard (s { g with st := 2 }) 3).st ≠ 0)
    ∧ (barFull (r g) = true ∧ (getGuard (r g) (r g).fab.guardSel).running = true)
    ∧ (wellFormed (.guardCommandEnd 3 1 true) = true ∧ (getGuard (r g) 3).tenant = 1 ∧ (getGuard (r g) 3).st ≠ 3 ∧ (getGuard (r { g with st := 3 }) 3).st = 3 ∧ (getGuard (r g) 3).running = true ∧ (getGuard (r { g with asked := 1 }) 3).asked ≠ 0 ∧ (getGuard (r g) 3).asked = 0 ∧ flashWait (r g) = false
      ∧ ({ r g with fab := { (r g).fab with group := none } } : State).fab.group = none ∧ (r g).fab.group = some grp8 ∧ (getGuard (r { g with silent := true }) 3).silent = true ∧ (getGuard (r g) 3).silent = false
      ∧ flashWait ({ r g with fl := { fstate := 4 } } : State) = true) := by decide +kernel

/-! ### Sideband and attestation -/

theorem test_sideband :
    let rec_ : State := { on with nmc := { recovery := true } }
    let z (n : Nat) : State := { on with pw := { on.pw with pstate := n } }
    (nmcRuns rec_ = true ∧ rec_.nmc.recovery = true ∧ (List.replicate 1024 (0 : Byte)).length ≠ 0 ∧ (List.replicate 1024 (0 : Byte)).length ≤ 1024
      ∧ 2 ^ 25 - 1024 + (List.replicate 1024 (0 : Byte)).length ≤ 2 ^ 25)
    ∧ (nmcRuns on = true ∧ on.nmc.recovery = false) ∧ 1024 < (List.replicate 1025 (0 : Byte)).length
    ∧ (nmcRuns (z 4) = true ∧ (z 4).pw.pstate = 4 ∧ (z 5).pw.pstate = 5 ∧ (z 2).pw.pstate ≠ 4 ∧ (z 2).pw.pstate ≠ 5) ∧ (127 : Nat) < 128 := by decide +kernel

theorem test_spdm :
    let c (n : Nat) : State := { on with pw := { on.pw with spdmPcie := n, spdmMctp := n } }
    (nmcRuns on = true ∧ on.pw.hostUp = true ∧ spdmConn (c 0) true = 0 ∧ 1 ≤ spdmConn (c 1) true ∧ 2 ≤ spdmConn (c 2) false ∧ bit 0x800 11 = true ∧ bit 0x20 5 = true
      ∧ bit 0x400 11 = false ∧ 3 ≤ spdmConn (c 3) true ∧ (1 : Nat) ≠ 0)
    ∧ ({ on with nmc := { recovery := true } } : State).nmc.recovery = true ∧ on.nmc.recovery = false ∧ (64 : Nat) ≤ 64 := by decide +kernel

/-! ### Power -/

theorem test_node_reset :
    on.pw.pstate = 2 ∧ nmcRuns on = true ∧ barNmc on = true ∧ bit (0x4E460001#32).toNat 0 = true ∧ (0x4E460001#32).toNat / 65536 = 0x4E46 ∧ on.pw.hostUp = true := by decide +kernel

def pwr (n : Nat) (perst : Bool) : State := { on with pw := { on.pw with pstate := n, perst := perst } }

theorem test_power_and_perst :
    on.pw.powered = true ∧ ((3 : Nat) < 4 ∧ ({ pw := { powered := false } } : State).pw.powered = false)
    ∧ (on.pw.perst = false ∧ (199 : Nat) < 200 ∧ (200 : Nat) ≤ 200 ∧ (pwr 4 false).pw.pstate = 4 ∧ (pwr 2 false).pw.pstate ≠ 4 ∧ (pwr 2 false).pw.pstate ≠ 6)
    ∧ ((pwr 0 true).pw.powered = true ∧ (pwr 0 true).pw.perst = true ∧ (pwr 0 true).pw.pstate = 0 ∧ nmcRuns (pwr 0 true) = true ∧ (pwr 0 true).nmc.recovery = false)
    ∧ (let r : State := { pwr 0 true with nmc := { recovery := true } }; r.pw.powered = true ∧ r.pw.perst = true ∧ r.pw.pstate = 0 ∧ nmcRuns r = true ∧ r.nmc.recovery = true)
    ∧ ((pwr 5 true).pw.powered = true ∧ (pwr 5 true).pw.perst = true ∧ (pwr 5 true).pw.pstate = 5) := by decide +kernel

theorem test_sleep_and_wake :
    (barNmc on = true ∧ on.pw.pstate = 2 ∧ bit (0x51EE0001#32).toNat 0 = true ∧ bit (0x51EE0001#32).toNat 1 = false)
    ∧ ((pwr 3 false).pw.pstate = 3)
    ∧ (barNmc (pwr 4 false) = true ∧ (pwr 4 false).pw.pstate = 4 ∧ bit (0x51EE0002#32).toNat 1 = true ∧ bit (0x51EE0002#32).toNat 0 = false ∧ (0x51EE0002#32).toNat / 65536 = 0x51EE
      ∧ (pwr 4 false).pw.sleepFmt = carrierView (pwr 4 false))
    ∧ (pwr 5 true).pw.pstate = 5 := by decide +kernel

/-- The last reading below a trip threshold and the threshold: 115 degrees for the node's sensors, 105 for a stack's; a die at 80 degrees; 34.1 A. -/
theorem test_sensors_and_trips :
    ((15 : Nat) < 24 ∧ on.pw.powered = true ∧ on.pw.pstate ≠ 6 ∧ sensorOn on 15 = true ∧ (919 : Int) < tripLimit 15 ∧ tripLimit 15 ≤ (920 : Int))
    ∧ ((23 : Nat) < 24 ∧ sensorOn on 23 = true ∧ (839 : Int) < tripLimit 23 ∧ tripLimit 23 ≤ (840 : Int))
    ∧ (let s (w : Bool) : State := { on with pw := { on.pw with flashOn := true }, fl := { chans := [(63, { dies := 8, dieSt := [(7, { tempWarned := w })] })] } }
       wellFormed (.sensorReading (.die 63 7) 640) = true ∧ (s false).pw.flashOn = true ∧ dieFitted (s false) 63 7 = true ∧ (getDie (getCh (s false) 63) 7).tempWarned = false ∧ (s false).fl.ewTemp * 8 ≤ 640
         ∧ (getDie (getCh (s true) 63) 7).tempWarned = true)
    ∧ ((340 : Nat) < 341 ∧ (20 : Nat) ≤ 20 ∧ on.pw.pstate ≠ 0) ∧ (340 : Nat) ≤ 340 ∧ (19 : Nat) < 20 := by decide +kernel

theorem test_rank_power_and_clock :
    let s : State := { on with ranks := [(15, { clock := 2, idle := 256 }), (14, { clock := 1 })] }
    let w : State := { onP with bd := { onP.bd with positions := [(1, { pos1 with streams := [⟨0x08000000, 0x01000000, 1, 0⟩] })], streams := [(256, { tokens := [⟨8, .data (zeros 8)⟩] })] } }
    barNmc on = true ∧ (atBoundary on = true ∧ on.pw.pstate = 2)
    ∧ ((15 : Nat) < 16 ∧ (getRank s 15).clock = 2 ∧ 256 ≤ (getRank s 15).idle ∧ rankIdle s 15 = true ∧ castlingIn s 15 = false)
    ∧ ((getRank s 14).pwrOff = false ∧ (getRank s 14).clock = 1) ∧ ((getRank w 0).clock = 0 ∧ tokenFor w 0 = true) := by decide +kernel

/-- An image of 4,096 zero bytes with its own length in its header. -/
def fwImg : List Byte := row 4096 [(8, 4, 4096)]

theorem test_firmware_loads :
    let d := dsc .admin .ready [(0, 1, 0x86), (16, 8, 4096), (24, 4, 4096), (28, 1, 1)]
    let s := has (hostAt on 4096 fwImg) d
    let r : State := { hostAt on 4096 fwImg with nmc := { recovery := true, recovAddr := 1, recovLen := 4096 } }
    (dueDesc s .admin 0 0x86 = some d ∧ d.hostFault = false ∧ hostOpen s 0 = true ∧ dfield d 16 8 % 4096 = 0 ∧ dfield d 24 4 ≤ 2 ^ 25 ∧ fieldAt (hostRead s (dfield d 16 8) 12) 8 4 = dfield d 24 4)
    ∧ (r.pw.hostUp = true ∧ r.nmc.recovery = true ∧ 4096 ≤ r.nmc.recovLen ∧ r.nmc.recovLen ≤ 2 ^ 25 ∧ fieldAt (hostRead r (r.nmc.recovAddr * 4096) 12) 8 4 = r.nmc.recovLen)
    ∧ (on.pw.powered = true ∧ on.nmc.fwDigest ≠ none) := by decide +kernel

/-- TEMPO_TRIM at its largest offset; one above it; ITEM 0. -/
theorem test_set_cal :
    let d (item off : Nat) := dsc .admin .ready [(0, 1, 0x85), (16, 1, item), (20, 2, off)]
    (dueDesc (has on (d 7 2000)) .admin 0 0x85 = some (d 7 2000) ∧ (∀ x ∈ (has on (d 7 2000)).qe.descs, x.n < (d 7 2000).n → descOp x ≠ 0x85)
      ∧ calItemOk (has on (d 7 2000)) 7 0 0 = true ∧ -calOffsetMax 7 ≤ ofBits 16 2000 ∧ ofBits 16 2000 ≤ calOffsetMax 7)
    ∧ calOffsetMax 7 < ofBits 16 2001 ∧ ofBits 16 (65536 - 2001) < -calOffsetMax 7 ∧ calItemOk (has on (d 0 0)) 0 0 0 = false
    ∧ ((-5 : Int) ≤ 5) := by decide +kernel

/-! ### Flash media -/

def geo : DieGeom := { planes := 2, blocks := 512, pages := 256, peRated := 3000, spareBytes := 1952, suspend := true }
def chan8 : Channel := { dies := 8, geom := geo }

/-- Eight channels of eight dies, formatted with width 8, one superblock of group (0, 0). -/
def sup0 : Super := ⟨0, 0, 0, List.replicate 8 0, List.replicate 8 false, List.replicate 8 0, List.replicate 8 256, [], 0, 256, false, []⟩
def flashOn : State :=
  { onP with fl := { fstate := 5, fmtW := 8, fmtOp := 7, fmtId := 3, chans := (List.range 8).map (fun c => (c, chan8)), supers := [sup0] } }

/-- A base layer of CAP_T3 0 always finds room; without a channel, one of CAP_T3 1 does not. -/
theorem test_format :
    let s : State := { flashOn with fl := { flashOn.fl with fstate := 3, format := some (8, 7, 5), chans := [] } }
    (barFull flashOn = true ∧ bit (0xF1A50001#32).toNat 0 = true)
    ∧ (s.fl.format = some (8, 7, 5) ∧ s.fab.flashHeld = [] ∧ (match s.bd.layer with | some b => b.capT3 | none => 0) = 0)
    ∧ (0 ≤ ((fittedChans (markBad s [])).map (fun c => luOf (markBad s []) 8 7 c * 16384)).sum ∧ ((fittedChans (markBad s [])).map (fun c => luOf (markBad s []) 8 7 c * 16384)).sum < 1) := by
  decide +kernel

/-- A channel with nothing changed; one whose changed segment finds a block; one whose finds none; one that is not due. -/
theorem test_checkpoints :
    let g : DieGeom := { geo with blocks := 4, planes := 1 }
    let s (x : Channel) : State := { flashOn with fl := { flashOn.fl with supers := [], chans := (List.range 8).map (fun c => (c, { x with geom := g })) } }
    let x : Channel := { chan8 with force := true }
    let y : Channel := { x with dirty := [0] }
    let z : Channel := { y with dies := 8, dieSt := (List.range 8).map (fun d => (d, { blocks := (List.range 4).map (fun b => (b, { bad := true })) })) }
    barFull flashOn = true
    ∧ ((7 : Nat) < 64 ∧ flashReady (s x) = true ∧ checkpointDue (s x) 7 = true ∧ programSegs 7 (getCh (s x) 7) (s x) (getCh (s x) 7).dirty = some (s x))
    ∧ (checkpointDue (s y) 7 = true ∧ (programSegs 7 (getCh (s y) 7) (s y) (getCh (s y) 7).dirty).isSome = true)
    ∧ (checkpointDue (s z) 7 = true ∧ programSegs 7 (getCh (s z) 7) (s z) (getCh (s z) 7).dirty = none)
    ∧ checkpointDue (s chan8) 7 = false ∧ flashReady on = false := by decide +kernel

def pg (m k : Nat) : Page := ⟨0, 8, m, 5, k, 0, 0, 3, [], []⟩

/-- A superblock whose first stripe is open: six data members have reached it, the timer of 1 ms has run out; member 0 holds the parity. -/
def supOpen : Super := { sup0 with next := [0, 1, 1, 1, 1, 1, 1, 1], opened := [0], unprotectedFrom := 256 }
def supParity : Super := { sup0 with next := [1, 1, 1, 1, 1, 1, 1, 1], closed := 1 }

theorem test_stripes :
    let s : State := { flashOn with tempo := closeTicks flashOn, fl := { flashOn.fl with supers := [supOpen] } }
    let f : State := { flashOn with fl := { flashOn.fl with supers := [supParity], chans := [(0, { chan8 with pages := [(0, pg 0 1)] }), (1, { chan8 with pages := [(0, pg 1 1)] })] } }
    sup0.closed < sup0.unprotectedFrom
    ∧ ((0 : Nat) < 64 ∧ (0 : Nat) < 9 ∧ flashReady s = true ∧ oldestOpen s 0 0 = some supOpen ∧ closeTicks s ≤ s.tempo - supOpen.opened.headD 0
      ∧ findSuper s 0 0 0 = some supOpen ∧ openStripes supOpen ≠ 0 ∧ ∀ m ∈ dataMembers s.fl.fmtW supOpen, supOpen.closed < memberNext supOpen m ∨ memberAbsent supOpen m ≤ memberNext supOpen m)
    ∧ (stripeOf f 0 0 0 = some (supParity, 0, 0) ∧ findPage f 0 (pageKey 0 0) = some (pg 0 1) ∧ memberNext supParity 0 = 0 + 1 ∧ 0 = parityMember f.fl.fmtW supParity)
    ∧ (stripeOf f 1 0 0 = some (supParity, 1, 0) ∧ findPage f 1 (pageKey 0 0) = some (pg 1 1) ∧ memberNext supParity 1 = 0 + 1 ∧ 1 ≠ parityMember f.fl.fmtW supParity) := by decide +kernel

/-- A free block, a page, one of a stripe whose parity can still rebuild it and one of an open stripe, a page that is erased. -/
theorem test_blocks_and_codewords :
    let g : DieGeom := { geo with blocks := 4, planes := 1 }
    let s : State := { flashOn with fl := { flashOn.fl with chans := [(7, { dies := 8, geom := g, pages := [(pageKey 7 1, pg 7 1)], dieSt := [(7, { reads := 2 ^ 20 })] })] } }
    let p : State := { flashOn with fl := { flashOn.fl with chans := (List.range 8).map (fun c => (c, { chan8 with pages := [(0, pg c 1)] })), supers := [supParity] } }
    ((7 : Nat) < 64 ∧ (7 : Nat) < 9 ∧ s.fl.fmtW ≠ 0 ∧ dieFitted s 7 7 = true ∧ 3 ∈ freeBlocks s 7 7)
    ∧ (wellFormed (.codewordRead 7 7 1 3 .lost) = true ∧ programmed s 7 (pageKey 7 1) = true ∧ programmed s 7 (pageKey 7 2) = false ∧ dieFitted s 6 7 = false
      ∧ (readCw (setCw s 7 (pageKey 7 1) 3 16) 7 (pageKey 7 1) 3).2 = none)
    ∧ (wellFormed (.codewordRead 1 0 0 3 .rebuilt) = true ∧ dieFitted p 1 0 = true ∧ programmed p 1 (pageKey 0 0) = true ∧ (readCw (setCw p 1 (pageKey 0 0) 3 16) 1 (pageKey 0 0) 3).2.isSome = true)
    ∧ 2 ^ 20 ≤ (getDie (getCh s 7) 7).reads := by decide +kernel

/-- A superblock of fully programmed members and none of whose pages is kept. -/
def supDone : Super := { sup0 with next := List.replicate 8 256, closed := 256 }
def gcS : State := { flashOn with fl := { flashOn.fl with supers := [supDone], chans := (List.range 8).map (fun c => (c, { chan8 with geom := { geo with blocks := 4, planes := 1 } })) } }

theorem test_garbage_collection :
    gcChoice gcS 0 0 = some supDone ∧ (0 : Nat) < 64 ∧ (0 : Nat) < 9 ∧ flashReady gcS = true ∧ keptPages gcS supDone = 0 ∧ (∀ m, m < gcS.fl.fmtW → needsCheckpoint gcS supDone m = false) := by decide +kernel

def root0 : Root := { num := 1, seq := 10, fmtId := 3, pages := [9 * 2 ^ 23], opens := [(0, 0, 0)] }
/-- A flash that is recovered: channel 0 with these pages, roots and codewords that do not decode. -/
def recS (ps : Tab Page) (r : List Root) (bad : List (Nat × Nat × Nat × Nat)) : State :=
  { flashOn with fl := { flashOn.fl with fstate := 4, badCw := bad, chans := [(0, { chan8 with roots := r, pages := ps })] } }

/-- A channel without a root of the format, and with one; a root whose own page, or whose segment's page, is to be read. -/
theorem test_flash_recovery :
    let e : State := { recS [] [root0] [] with fl := { (recS [] [root0] []).fl with replayed := true } }
    ((recS [] [] []).fl.fstate = 4 ∧ (recS [] [] []).fl.replayed = false ∧ (recS [] [] []).fab.flashHeld = [] ∧ 0 ∈ fittedChans (recS [] [] []) ∧ (getCh (recS [] [] []) 0).roots = [])
    ∧ (replayAll (recS [] [root0] [])).2 = true
    ∧ (root0.fmtId = (recS [] [root0] []).fl.fmtId ∧ (∀ k ∈ root0.pages, ∀ j, j < 4 → cwLost (recS [] [root0] []) 0 k j = false) ∧ cwLost (recS [] [root0] [(0, 9 * 2 ^ 23, 3, 16)]) 0 (9 * 2 ^ 23) 3 = true)
    ∧ (findPage (recS [(0, pg 0 9)] [{ root0 with segs := [(0, 0)] }] []) 0 0).isSome = true
    ∧ (e.fl.fstate = 4 ∧ e.fl.replayed = true ∧ e.fab.flashHeld = []) := by decide +kernel

/-- A page before the checkpoint; a page that the root's open block holds, sound and torn. -/
theorem test_flash_replay :
    let a := recS [(0, pg 0 10)] [root0] []
    let b := recS [(0, pg 0 10)] [root0] [(0, 0, 3, 16)]
    ((chooseRoot 0 (recS [(0, pg 0 9)] [root0] []) false [root0]).2 = some (root0, []) ∧ ∀ e ∈ (getCh (recS [(0, pg 0 9)] [root0] []) 0).pages, e.2.seq < root0.seq)
    ∧ ((chooseRoot 0 a false (getCh a 0).roots).2 = some (root0, []) ∧ (getCh a 0).pages = [(0, pg 0 10)] ∧ replayBlocks root0 = [(0, 0, 0)] ∧ 0 < pagesOf (getCh a 0) ∧ 0 = pageKey 0 (0 * pagesOf (getCh a 0) + 0)
      ∧ root0.seq ≤ (pg 0 10).seq ∧ (pg 0 10).fmtId = 3 ∧ (pg 0 10).kind = 0 ∧ (∀ j, j < 4 → cwLost a 0 0 j = false))
    ∧ ((chooseRoot 0 b false (getCh b 0).roots).2 = some (root0, []) ∧ cwLost b 0 0 3 = true) := by decide +kernel

/-! ### Spares -/

/-- The PROMOTE of a kind with its two target words. -/
def prom (k t0 t1 : Nat) : Desc := dsc .admin .ready [(0, 1, 0x82), (16, 1, k), (20, 4, t0), (24, 4, t1)]

theorem test_promote :
    let s (d : Desc) := has { flashOn with fl := { flashOn.fl with chans := [(63, { dies := 8, spare := true, geom := { geo with blocks := 4 } })] } } d
    let n (d : Desc) := has on d
    let die := prom 5 (63 + 7 * 2 ^ 8) 0
    (dueDesc (n (prom 0 0 0)) .admin 0 0x82 = some (prom 0 0 0) ∧ promoteFails (n (prom 0 0 0)) (prom 0 0 0) = some (0x15, 0x11))
    ∧ promoteFails (n (prom 4 24 0)) (prom 4 24 0) = some (0x15, 0x12)
    ∧ (dueDesc (n (prom 2 511 0x7FFF)) .admin 0 0x82 = some (prom 2 511 0x7FFF) ∧ promoteFails (n (prom 2 (1 + 2 * 16 + 7 * 64) 0x7FFF)) (prom 2 (1 + 2 * 16 + 7 * 64) 0x7FFF) = none)
    ∧ (promoteFails (n (prom 3 255 (2 ^ 21 - 1))) (prom 3 255 (2 ^ 21 - 1)) = none ∧ pKind (prom 3 255 0) = 3 ∧ pKind (prom 2 0 0) = 2)
    ∧ (promoteFails (n (prom 4 23 0)) (prom 4 23 0) = none ∧ pKind (prom 4 23 0) = 4 ∧ (getLink (n (prom 4 23 0)) 23).spareIn = false ∧ (getLink (n (prom 4 23 0)) 23).st ≠ 3
      ∧ (getLink (setLink (n (prom 4 23 0)) 23 { spareIn := true }) 23).spareIn = true)
    ∧ (promoteFails (s die) die = none ∧ pKind die = 5 ∧ (getCh (s die) 63).spare = true ∧ (getCh (s die) 63).migrated = none
      ∧ (superBlocksOn (s die) 63 7).length ≤ goodBlocks (getCh (s die) 63) 8 ∧ (getCh (setCh (s die) 63 { dies := 8 }) 63).spare = false)
    ∧ (promoteFails (n (prom 1 30 0)) (prom 1 30 0) = none ∧ pKind (prom 1 30 0) = 1 ∧ castleFails (n (prom 1 30 0)) (prom 1 30 0) = none
      ∧ castleFails (setRank (n (prom 1 30 0)) 0 { castled := true }) (prom 1 30 0) = some 3) := by decide +kernel

theorem test_castling :
    let c (n : Nat) : Castling := { seq := 0, die := 1, file := 15, rank := 7, revert := false, phase := n }
    let d := { prom 1 0 0 with phase := .running }
    let s (n : Nat) : State := has { on with bd := { castling := some (c n) }, ranks := [(15, { clock := 2 })] } d
    ((s 1).bd.castling = some (c 1) ∧ (c 1).phase = 1 ∧ atBoundary (s 1) = true ∧ (getRank (s 1) (rankIdx 1 7)).clock = 2 ∧ recompAtBoundary (s 1) = false)
    ∧ ((s 2).bd.castling = some (c 2) ∧ (c 2).phase = 2)
    ∧ ((c 3).phase = 3 ∧ atBoundary (s 3) = true ∧ (c 3).due ≤ moveOf (s 3) ∧ recompAtBoundary (s 3) = false ∧ (s 3).fab.portHeld = [] ∧ castSource (c 3) ≠ castDest (c 3)
      ∧ findDesc (renameSq (s 3) (castSource (c 3)) (castDest (c 3))) .admin 0 = some d ∧ d.phase = .running) := by decide +kernel

theorem test_row_switches :
    let d := { prom 2 0 0 with phase := .running }
    let j (q : Bool) : RowJob := ⟨0, q, 255, 5, false⟩
    let s (q : Bool) : State := has { on with tempo := 4096, spare := { jobs := [j q] } } d
    let m : State := has { flashOn with fl := { flashOn.fl with chans := [(63, { chan8 with spare := true, migrating := some (0, 7) })] } } d
    (atBoundary (s true) = true ∧ (s true).spare.jobs.filter (fun j => j.square && rowDue (s true) j) = [j true] ∧ findDesc (s true) .admin 0 = some d)
    ∧ ((s false).spare.jobs.filter (fun j => !j.square && !j.switched && rowDue (s false) j) = [j false])
    ∧ ((63 : Nat) < 64 ∧ (getCh m 63).migrating = some (0, 7) ∧ superBlocksOn m 63 7 = [] ∧ findDesc m .admin 0 = some d) := by decide +kernel

/-! ### The token service -/

def tsPos : Position := { pos1 with streams := [⟨0x06000000, 0x08000000, 1, 0⟩] }
def tsOn (v g : Nat) : State :=
  { onP with bd := { onP.bd with positions := [(1, tsPos)] },
             ts := { vocabs := [(15, { object := 5, tenant := 1, st := v })], grams := [(63, { object := 6, tenant := 1, st := g })], vocabSel := 15, gramSel := 63 },
             ms := { objs := [{ tenant := 1, num := 5, type := 6, tier := 1, raw := true, size := 524288 }, { tenant := 1, num := 6, type := 7, tier := 1, raw := true, size := 524288, data := tblMem }] } }
where
  /-- A tablebase of one state whose run covers tokens 3 and 4 of 257. -/
  tblMem : Mem := memWrite [] 0 (row 64 [(0, 4, 0x5342544C), (4, 2, 1), (8, 4, 257), (12, 4, 1), (24, 8, 64), (32, 8, 128)] ++ row 64 [(4, 2, 1)] ++ toLE 8 (3 + 2 ^ 19))

theorem test_token_bindings :
    (barFull (tsOn 0 0) = true ∧ (getBind (tsOn 2 2) true 15).st = 2 ∧ (getBind (tsOn 2 2) false 63).st = 2)
    ∧ ((15 : Nat) < 16 ∧ (63 : Nat) < 64 ∧ (getBind (tsOn 1 1) true 15).st = 1 ∧ (getBind (tsOn 1 1) false 63).st = 1 ∧ (getBind (tsOn 3 3) true 15).st = 3)
    ∧ (findObj (tsOn 1 1) 1 5).map (fun o => (o.tier, o.type, stackBad (tsOn 1 1) o 0 o.size)) = some (1, 6, none)
    ∧ (findObj (tsOn 1 1) 1 6).map (fun o => (o.tier, o.type, stackBad (tsOn 1 1) o 0 o.size, tblErr o.data o.size)) = some (1, 7, none, none)
    ∧ findObj on 1 5 = none := by decide +kernel

/-- A request that the engine holds, and what holds of the state and the descriptor then. -/
def tokenHas (s : State) (q : QId) (seq op : Nat) (p : State → Desc → Bool) : Bool := match tokenDesc s q seq op with | some (s1, d) => p s1 d | none => false

/-- The vocabulary object of the token service has one token; the row of its table can be read or not. -/
def vocS (bad : Bool) : State :=
  let s := tsOn 2 2
  { s with ms := { s.ms with objs := [{ tenant := 1, num := 5, type := 6, tier := 1, raw := true, size := 524288, data := memWrite [] 8 [1] }], badRows := if bad then [(stackChannel 0 0, 0)] else [] } }

/-- The one token of the vocabulary, whose table entry can be read and cannot. -/
theorem test_detokenize :
    let d := dsc q1 .ready [(0, 1, 0x29), (24, 8, 4096), (40, 4, 1), (44, 4, 32), (56, 1, 15)]
    let s (bad : Bool) := has (vocS bad) d
    let b := dsc q1 .ready [(0, 1, 0x29)]
    let x := dsc q1 .ready [(0, 1, 0x29), (44, 4, 32)]
    let fits (bad : Bool) := tokenHas (s bad) q1 0 0x29 (fun s1 e => decide (detFieldsOk e = true ∧ e.hostFault = false ∧ hostOpen (s bad) e.tenant = true ∧ dfield e 32 8 = 0 ∧ dfield e 48 8 = 0 ∧ dfield e 40 4 = 1
      ∧ leNat (hostRead (s bad) 0 4) = 0 ∧ (servedBy s1 e true (dfield e 56 1)).any (fun o => (vocOf o.data).n == 1 && (vocBad (s bad) o (vocOf o.data) [0]).isSome == bad) = true))
    (wellFormed (.detokenize q1 0) = true ∧ fits false = true ∧ fits true = true)
    ∧ tokenHas (has (tsOn 2 2) b) q1 0 0x29 (fun _ e => !detFieldsOk e) = true
    ∧ tokenHas (has (tsOn 2 2) x) q1 0 0x29 (fun s1 e => detFieldsOk e && servedBy s1 e true (dfield e 56 1) == none) = true
    ∧ ({} : Detok).out.length ≤ 0 := by decide +kernel

/-- A text of one byte, whose table entry can be read and cannot; a request with wrong fields, and one of an unbound vocabulary; one that is not there; and four requests of the tenant in progress. -/
theorem test_tokenize :
    let d := dsc q1 .ready [(0, 1, 0x28), (24, 8, 4096), (40, 4, 1), (44, 4, 36), (48, 4, 1), (52, 1, 15)]
    let s (bad : Bool) := has (vocS bad) d
    let b := dsc q1 .ready [(0, 1, 0x28)]
    let x := dsc q1 .ready [(0, 1, 0x28), (44, 4, 36), (48, 4, 1)]
    let toks (o : Obj) := tokensOf (vocOf o.data) (textChars 2 (hostRead (s false) 0 1)).1
    let run : List Desc := (List.range 4).map (fun k => { dsc q1 .running [(0, 1, 0x28 + k % 3)] with n := k, seq := k })
    let f : State := { onP with qe := { descs := run } }
    let fits (bad : Bool) := tokenHas (s bad) q1 0 0x28 (fun s1 e => decide (tokFieldsOk e = true ∧ e.hostFault = false ∧ hostOpen (s bad) e.tenant = true ∧ dfield e 32 8 = 0 ∧ dfield e 40 4 ≤ 1048576
      ∧ (textChars 2 (hostRead (s bad) 0 1)).2 = [] ∧ (servedBy s1 e true (dfield e 52 1)).any (fun o => (toks o).length == 1 && (vocBad (s bad) o (vocOf o.data) (toks o)).isSome == bad) = true))
    (wellFormed (.tokenize q1 0) = true ∧ fits false = true ∧ fits true = true)
    ∧ tokenHas (has (tsOn 2 2) b) q1 0 0x28 (fun _ e => !tokFieldsOk e) = true
    ∧ tokenHas (has (tsOn 2 2) x) q1 0 0x28 (fun s1 e => tokFieldsOk e && servedBy s1 e true (dfield e 52 1) == none) = true
    ∧ (tokenDesc onP q1 0 0x28).isNone = true ∧ ((∀ e ∈ f.qe.descs, ∀ y ∈ f.qe.descs, e.n = y.n → e = y) ∧ tokensIn f 1 = 4 ∧ tokensIn f 1 ≤ 4) := by decide +kernel

/-- FORM 3 in the smallest room that holds the mask of 257 tokens and one run; state 1 is one too many. -/
theorem test_mask_lookup :
    let d (st room : Nat) := dsc q1 .ready [(0, 1, 0x2A), (16, 8, 4096), (24, 4, st), (28, 1, 63), (29, 1, 3), (32, 4, room)]
    let s (x : Desc) := has (tsOn 2 2) x
    let u := dsc q1 .ready [(0, 1, 0x2A), (16, 8, 4096), (29, 1, 1)]
    let served (x : Desc) (p : Obj → Bool) := tokenHas (s x) q1 0 0x2A (fun s1 e => dfield e 16 8 % 64 == 0 && decide (dfield e 28 1 < 64) && dfield e 29 1 % 4 != 0 && hostOpen (s x) e.tenant && (match servedBy s1 e false (dfield e 28 1) with | some o => p o | none => false))
    (wellFormed (.maskLookup q1 0) = true
      ∧ served (d 0 256) (fun o => decide (0 < (tblOf o.data).states ∧ stackBad (s (d 0 256)) o (tblOf o.data).stateOff 8 = none
          ∧ stackBad (s (d 0 256)) o ((tblOf o.data).runOff + 8 * ((tblOf o.data).state 0).1) (8 * ((tblOf o.data).state 0).2.1) = none
          ∧ 32 + (maskBytes 257 ((tblOf o.data).runs 0)).length + 8 ≤ 256)) = true)
    ∧ served (d 1 256) (fun o => decide ((tblOf o.data).states ≤ 1)) = true
    ∧ tokenHas (s u) q1 0 0x2A (fun s1 e => decide (dfield e 28 1 < 64 ∧ dfield e 29 1 % 4 ≠ 0 ∧ servedBy s1 e false (dfield e 28 1) = none)) = true
    ∧ (256 : Nat) < 257 := by decide +kernel

/-! ### Time, slots and Squares -/

/-- Ticks and boundaries, with no credits to return, and with 63 of them on an UP link. -/
theorem test_tempo_and_boundaries :
    let g : State := { on with fab := { pendingGroup := some grp8 } }
    let a : State := { on with fab := { pendingAdopt := some (5, grp8) } }
    let k : Link := { st := 2, returns := [(1, 0, 63)] }
    let r : State := { on with tempo := 4094, fab := { links := [(23, k)] } }
    (on.pending = [] ∧ ({ pw := { powered := false } } : State).pending = [] ∧ ({ pw := { powered := false } } : State).pw.powered = false)
    ∧ (on.pw.powered = true ∧ (∀ j ∈ on.spare.jobs, j.switched = false) ∧ (({ on with tempo := 4094 } : State).tempo + 1) % 4096 ≠ 0 ∧ on.ms.jobs = [] ∧ (∀ d ∈ on.qe.descs, d.phase ≠ .meter)
      ∧ (∀ e ∈ on.fab.links, e.2.st = 2 → e.2.returns = []))
    ∧ (r.pending = [] ∧ r.pw.powered = true ∧ (r.tempo + 1) % 4096 ≠ 0 ∧ r.fab.links = [(23, k)] ∧ k.st = 2 ∧ k.returns = [(1, 0, 63)])
    ∧ (g.fab.pendingGroup = some grp8 ∧ g.fab.pendingAdopt = none) ∧ a.fab.pendingAdopt = some (5, grp8) ∧ (on.fab.pendingGroup = none ∧ on.fab.pendingAdopt = none) := by decide +kernel

/-- Tenant 1's stream 0 from a unit to a unit, of class 2, with one run, these tokens and one credit; rank 0 is clocked and link 0 UP. -/
def slS (r : Run) (src dst : Nat) (toks : List Token) : State :=
  { on with bd := { base := 2, layer := some layer0, positions := [(1, { pos1 with runs := [r], streams := [⟨src, dst, 2, 0⟩] })], streams := [(256, { tokens := toks, credits := 1 })] }, ranks := [(0, { clock := 2 })], fab := { links := [(0, { st := 2 })] } }
/-- The last slot of the last path of kind 1. -/
def run1 : Run := ⟨4095, 0, 1, 1, 33, 0⟩
def tok8 : Token := ⟨8, .data (zeros 8)⟩

/-- A run that does not hold the slot; a stopped and a held Square; a payload of a slot's size and of one byte more, to a unit that is no Square, to a Square, and to one with a context that waits. -/
theorem test_slots :
    let s (d : Nat) := slS run1 0x06000000 d [tok8, ⟨1025, .data (zeros 1025)⟩]
    let w := setCtx (s 0x01000000) 0 2 { st := .waitStream, tenant := 1 }
    let stop : State := { s 0x01000000 with ranks := [] }
    (wellFormed (.slotTransfer 1 33 4095) = true ∧ ∀ r ∈ allRuns (s 0), ¬ (r.kind = 1 ∧ r.path = 33 ∧ r.first ≤ 4094 ∧ 4094 ≤ r.first + r.countM1))
    ∧ (allRuns (s 0x02000000) = [run1] ∧ streamOf (s 0x02000000) 1 0 = some ⟨0x06000000, 0x02000000, 2, 0⟩ ∧ (getStream (s 0x02000000) 1 0).tokens = tok8 :: [⟨1025, .data (zeros 1025)⟩]
      ∧ (getStream (s 0x02000000) 1 0).credits ≠ 0 ∧ clocked (s 0x02000000) (sqOfUnit (s 0x02000000) 1 0x06000000) = true ∧ heldStill (s 0x02000000) (sqOfUnit (s 0x02000000) 1 0x06000000) = false
      ∧ sqOfUnit (s 0x02000000) 1 0x02000000 = none ∧ 8 ≤ slotPayload 1 ∧ slotPayload 1 < 1025)
    ∧ (sqOfUnit (s 0x01000000) 1 0x01000000 = some 0 ∧ clocked (s 0x01000000) (some 0) = true ∧ heldStill (s 0x01000000) (some 0) = false ∧ (1 : Nat) ≠ 0x7F
      ∧ waiterOn (s 0x01000000) 0 1 0 = none ∧ waiterOn w 0 1 0 = some 2)
    ∧ clocked stop (sqOfUnit stop 1 0x01000000) = false := by decide +kernel

/-- A read request whose element waits to leave; a packet of 40 bytes in the first slot of link 0, with 502 and 503 unacknowledged flits, and with a meter that holds it back. -/
theorem test_slots_of_reads_and_packets :
    let x : Elem := ⟨8, .object 5 0, 0, none, false, 0, false, 0, []⟩
    let r := setCtx (slS run1 0x01000000 0x02000000 [⟨64, .read 0 63 3⟩]) 0 63 { st := .waitMem, tenant := 1, elems := [(63, x)] }
    let p : Packet := ⟨2, 0, 1, 9, 3, 8, 0, 77, 0, 5, zeros 8⟩
    let s (n : Nat) := setLink (slS ⟨0, 0, 1, 6, 0, 0⟩ 0x06000000 0x05000000 [⟨40, .packet p⟩]) 0 { st := 2, unacked := List.replicate n flit0 }
    let m := setM (s 0) 1 true { en := true, mode := true }
    ((getStream r 1 0).tokens = [⟨64, .read 0 63 3⟩] ∧ 64 ≤ slotPayload 1 ∧ clocked r (sqOfUnit r 1 0x01000000) = true ∧ heldStill r (sqOfUnit r 1 0x01000000) = false
      ∧ (getCtx r 0 63).elems.filter (fun z => z.1 == 63) = [(63, x)] ∧ 63 / 16 = 3 ∧ x.returned = false ∧ x.addr = .object 5 0)
    ∧ (wellFormed (.slotTransfer 6 0 0) = true ∧ (getLink (s 0) 0).st = 2 ∧ (getStream (s 0) 1 0).tokens = [⟨40, .packet p⟩] ∧ 40 = (packetBytes p).length ∧ isResponse p = false ∧ isResponse { p with op := 9 } = true
      ∧ clocked (s 0) (sqOfUnit (s 0) 1 0x05000000) = true ∧ (getLink (s 502) 0).unacked.length + 10 ≤ 512 ∧ 512 < (getLink (s 503) 0).unacked.length + 10
      ∧ (egressMark (s 502) 1 40).1 = true ∧ (egressMark m 1 40).1 = false ∧ (getLink m 0).unacked.length + 10 ≤ 512) := by decide +kernel

/-- Rank 15 with its spare Square 271 in service for file 15. -/
def sqS : State := { on with ranks := [(15, { clock := 2, castled := true, castleFile := 15 })], squares := [(271, { last := 5, ctxs := [(5, { st := .ready })] })] }

/-- Square 0 with context 63 of tenant 1 READY: stream 0 leads out of it, stream 1 into it, and link 0 to node 9 takes requests. -/
def sqT (buf : List Token) (c : Ctx) : State :=
  let p : Position := { pos1 with runs := [run1, ⟨0, 0, 1, 6, 0, 2⟩], streams := [⟨0x01000000, 0x02000000, 2, 0⟩, ⟨0x06000000, 0x01000000, 2, 0⟩, ⟨0x01000000, 0x05000000, 2, 1⟩] }
  { on with ranks := [(0, { clock := 2 })], squares := [(0, { ctxs := [(63, { c with st := .ready, tenant := 1 })] })], bd := { base := 2, layer := some layer0, positions := [(1, p)], streams := [(257, { credits := 1, held := buf.length, buf := buf })] },
            fab := { assigned := true, node := 3, links := [(0, { st := 2 })], paths := [(9, 1)] } }

/-- The only READY context is the one that issued last: the search comes round to it. -/
theorem test_square_issue :
    (nextReady sqS 271 = some 5 ∧ sqRuns sqS 271 = true ∧ wellFormed (.squareCycle 271 (.compute [.reg 3 (List.replicate 64 0)])) = true
      ∧ wellFormed (.squareCycle 271 (.sort 3)) = true ∧ wellFormed (.squareCycle 271 .finish) = true ∧ (getCtx sqS 271 5).job = .none)
    ∧ (nextReady on 0 = none ∧ sqRuns on 0 = false ∧ sqRuns ({ sqS with ranks := [(15, { clock := 2 })] } : State) 271 = false ∧ wellFormed (.squareCycle 0 (.waitStream 0 0)) = true)
    ∧ (wellFormed (.sort64 271 63 3) = true ∧ wellFormed (.merge128 271 63 3 2) = true ∧ (63 : Nat) < 64 ∧ nextReady sqS 271 ≠ some 63)
    ∧ (nextReady (sqT [] {}) 0 = some 63 ∧ sqRuns (sqT [] {}) 0 = true ∧ wellFormed (.sort64 0 63 3) = true ∧ wellFormed (.merge128 0 63 3 2) = true) := by decide +kernel

/-- A read of an object's element, with its fetch slots free and in use; a send onto an own stream, onto one that leads into the Square, and onto one to a link; a wait without data and with data, and for an output stream; a store with and without a path. -/
theorem test_square_streams :
    let s := sqT [] {}
    let u := sqT [tok8] {}
    let x : Elem := ⟨8, .object 5 0, 0, none, false, 0, false, 0, []⟩
    let o := sqT [] { elems := [(63, x)] }
    let e : ReadElem := ⟨256, .object 5 0, 3840⟩
    let c := getCtx s 0 63
    (wellFormed (.squareCycle 0 (.read 3 0 [e] true)) = true ∧ ownStream s 0 c.tenant 0 = some ⟨0x01000000, 0x02000000, 2, 0⟩ ∧ runPayload s c.tenant 0 = some 1024 ∧ readOpen c 3 = false
      ∧ elemAt s c.tenant e.addr = .object 5 0 ∧ readOpen (getCtx o 0 63) 3 = true ∧ nextReady o 0 = some 63)
    ∧ (wellFormed (.squareCycle 0 (.send 255 [])) = true ∧ wellFormed (.squareCycle 0 (.send 0 (zeros 1025))) = true ∧ ownStream s 0 1 1 = none ∧ 0x02000000 / 2 ^ 24 ≠ 5)
    ∧ (wellFormed (.squareCycle 0 (.waitStream 1 4095)) = true ∧ mayWait s 0 c 0 = false ∧ mayWait s 0 c 1 = true ∧ (getStream s 1 1).buf = [] ∧ mayWait u 0 (getCtx u 0 63) 1 = true
      ∧ (getStream u 1 1).buf = ⟨8, .data (zeros 8)⟩ :: [])
    ∧ (wellFormed (.squareCycle 0 (.remote 63 (.store (9 * 2 ^ 40 + 248) (zeros 8)) 0 false)) = true ∧ c.elems.any (fun z => z.1 == 63 && !z.2.returned) = false
      ∧ linkFor s 1 ((9 * 2 ^ 40 + 248) / 2 ^ 40 % 256) (9 * 2 ^ 40 + 248) = some 0 ∧ linkFor s 1 (8 * 2 ^ 40 / 2 ^ 40 % 256) (8 * 2 ^ 40) = none) := by decide +kernel

theorem test_sorting_network :
    (List.replicate 64 0).length = 64 ∧ List.Pairwise (fun x y => laneKey x ≤ laneKey y) (List.replicate 64 0) := by decide +kernel

/-- Entries of KEY 2 and 1 among empty lanes come out first and in ascending order (06 R166). -/
theorem test_sort64 : ((sortNet 0 (fld 2 32 :: fld 1 32 :: List.replicate 62 emptyLane)).map laneKey).take 2 = [1, 2] := by decide +kernel

def el0 : Elem := ⟨8, .object 5 524280, 4088, none, true, 0, false, 0, []⟩

/-- The last 8 bytes of object 5: with data, with an element still outstanding, with its request still in the Square, with a payload on its way, and with a burst whose check fails. -/
theorem test_read_elements :
    let d := dsc q1 (.placed 271 63) [(0, 1, 1)]
    let o : Obj := { tenant := 1, num := 5, type := 1, tier := 1, raw := false, size := 524288 }
    let s (l : Tab Elem) (j : CtxJob) : State := { on with squares := [(271, { ctxs := [(63, { st := .waitMem, elems := l, job := j, tenant := 1 })] })], ms := { objs := [o] } }
    let m := has (s [(63, el0)] (.entry q1 0)) d
    let w (x : Elem) : Elem := { x with returned := true, fault := 0, data := memRead [] 524280 8 }
    let res : ElemResult := .stackCheck (stackChannel 511 0) 1 15
    (wellFormed (.readElementReturn 271 63 3 15 .data) = true ∧ (getCtx (s [(63, el0)] .none) 271 63).ended = none
      ∧ (getCtx (s [(63, el0)] .none) 271 63).elems.find? (fun x => x.1 == 16 * 3 + 15) = some (16 * 3 + 15, el0) ∧ el0.returned = false ∧ el0.left = true ∧ el0.due = 0 ∧ sqFrozen (s [(63, el0)] .none) 271 = false
      ∧ el0.addr = .object 5 524280 ∧ findObj (s [(63, el0)] .none) 1 5 = some o ∧ o.tier < 2 ∧ 524280 + el0.bytes ≤ o.size ∧ stackBad (s [(63, el0)] .none) o 524280 el0.bytes = none
      ∧ (getCtx (s [(63, el0)] .none) 271 63).st = .waitMem ∧ ∀ x ∈ tset [(63, el0)] 63 (w el0), x.2.returned = true ∧ x.2.fault = 0)
    ∧ (∃ x ∈ tset (getCtx (s [(62, el0), (63, el0)] .none) 271 63).elems 63 (w el0), x.2.returned = false)
    ∧ (∀ x ∈ (getCtx on 271 63).elems, x.1 ≠ 16 * 3 + 15) ∧ elemWaits (s [] .none) 271 63 { el0 with left := false } = true ∧ elemWaits (s [] .none) 271 63 { el0 with due := 1 } = true
    ∧ (wellFormed (.readElementReturn 271 63 3 15 res) = true ∧ (getCtx m 271 63).elems = [(16 * 3 + 15, el0)] ∧ (getCtx m 271 63).job = .entry q1 0 ∧ findDesc m q1 0 = some d ∧ isPending m d = true
      ∧ (stackBad (meetFault m res) o 524280 8).isSome = true ∧ stackBad m o 524280 8 = none) := by decide +kernel

def msg0 : Message := ⟨1, 1, 0, 9, 3, 0, 77, 77, 0, 0, 5, []⟩
def held0 : HeldWork := ⟨4, 1, msg0, 0, none⟩

/-- Slot 2 is the Square's only serving slot: free, and busy; a Position without a serving slot. -/
theorem test_serving :
    let s : State := { onP with fab := { held := [held0] } }
    let f := setCtx s 0 2 { st := .ready }
    (findHeld s 4 = some held0 ∧ posOf s 1 = some pos1 ∧ held0.placed = none ∧ findIndex s 1 5 = none ∧ (∃ i ∈ servSquares pos1 0, sqServe pos1 i ≠ 0)
      ∧ (servSquares pos1 0).findSome? (freeServing s pos1) = some (0, 2))
    ∧ (findHeld f 4 = some held0 ∧ posOf f 1 = some pos1 ∧ ∀ i ∈ servSquares pos1 0, freeServing f pos1 i = none)
    ∧ freeServing s pos1 0 = some (0, 2) ∧ ∀ i ∈ servSquares pos1 0, sqServe { pos1 with prog := ⟨[⟨0, 0, none⟩], [], [], [], true⟩ } i = 0 := by decide +kernel

/-! ### Searching and updating an index -/

/-- An index object: `parts` partitions of node 0 with the given slots at 12,288 (and 65,536), FORMAT 1, inner product, one dimension, degree 8; its navigation object is 7, its vector object 8, its deletion bitmap 9. -/
def idxMem (tomb : Bool) (parts slots sideCap ovl tail : Nat) : Mem :=
  [(0, 2, parts), (2, 1, 8), (3, 1, b2n tomb), (8, 4, 4096), (12, 4, 8192), (16, 4, if tomb then 0xFFFFFFFF else 9), (32, 1, 1), (33, 1, 1), (36, 2, 1),
   (4096, 2, 0x3F80), (8192 + 4, 4, slots), (8192 + 24, 4, 12288), (8240 + 24, 4, 65536), (12288, 4, 7), (12288 + 4, 4, 8), (12288 + 14, 1, 1),
   (16384, 4, 0x4455504C), (16384 + 4, 4, sideCap), (16384 + 8, 8, ovl), (16384 + 24, 8, tail)].foldl (fun m x => memWrite m x.1 (toLE x.2.1 x.2.2))
    (memWrite [] (12288 + 128) ((List.replicate (8 * slots) [0xFF, 0xFF, 0xFF, 0xFF, 0, 0]).flatten))

/-- Navigation records of 24 bytes with the given states. -/
def navMem (l : List Nat) : Mem := memWrite [] 0 (l.flatMap (fun st => row 24 [(12, 1, st)]))

/-- Tenant 1's index 5 on node 0, with its journal, its navigation object and its bitmap. -/
def ixS (m : Mem) (nav : List Nat) : State :=
  { onP with
    tempo := 8192, indexes := [{ tenant := 1, num := 5, journal := some 6 }], fab := { assigned := true },
    ms := { objs := [{ tenant := 1, num := 5, type := 1, tier := 1, raw := true, size := 524288, data := m },
                     { tenant := 1, num := 7, type := 2, tier := 1, raw := true, size := 524288, data := navMem nav },
                     { tenant := 1, num := 9, type := 4, tier := 1, raw := true, size := 524288 },
                     { tenant := 1, num := 6, type := 8, tier := 1, raw := true, size := 524288 }] } }

def isOk {α β : Type} (x : Except α β) : Bool := match x with | .ok _ => true | .error _ => false
def evOk {α : Type} (x : Ev α) : Bool := match x with | .ok _ => true | _ => false

def srch (p1 p2 room : Nat) : Desc :=
  dsc q1 (.placed 0 0) [(0, 1, 1), (24, 8, 4096), (32, 4, 5), (36, 2, 1), (38, 1, 1), (40, 2, 1), (42, 1, p1), (43, 1, p2), (48, 4, 0xFFFFFFFF), (56, 4, room)]
def scan (a : Nat) : Desc :=
  dsc q1 (.placed 0 0) [(0, 1, 2), (24, 8, 4096), (32, 4, 5), (36, 2, 1), (38, 2, 1), (42, 2, a), (44, 2, 1), (46, 1, 1), (48, 4, 0xFFFFFFFF), (56, 4, 48)]

/-- What a batch needs to run, and that its partitions answer. -/
def batchRuns (s : State) (d : Desc) (parts : Batch → List Nat) : Bool :=
  match idxRec s d.tenant (dfield d 32 4) with
  | none => false
  | some r =>
    match mkBatch s d (hostRead s (dfield d 16 8) (queryLen d r)) with
    | none => false
    | some b => b.r == r && b.ix.journal.isSome && !dirPending b.ix d.epoch && !discardWaits s d b && ownBuffersOk s b && evOk (mapEv (evalPart b) s (parts b)).2 && hostOpen (mapEv (evalPart b) s (parts b)).1 d.tenant

/-- The outcome of a batch's partitions: its status, 0x100 where it waits, 0x101 where everything it needs can be asked, 0x102 where it cannot. -/
def batchEnds (s : State) (d : Desc) (parts : Batch → List Nat) : Option Nat :=
  (mkBatch s d (hostRead s (dfield d 16 8) 4)).map (fun b =>
    let x := mapEv (evalPart b) s (parts b)
    match x.2 with
    | .ok _ => 0
    | .err st => st
    | .wait => 0x100
    | .need l => if (askAll s d b.num l).2 then 0x101 else 0x102)

def fieldsHold (s : State) (d : Desc) (ok : IdxRec → Bool) : Bool := match idxRec s d.tenant (dfield d 32 4) with | some r => ok r | none => false

/-- One partition, without room for a wider probe; and two, of which the wider probe takes both: the answer of an empty partition is short. -/
theorem test_search :
    let s1 := has (ixS (idxMem true 1 0 0 4096 0) []) (srch 1 0 48)
    let s2 := has (hostAt (ixS (idxMem true 2 0 0 4096 0) []) 0 [0, 0, 0x80, 0x3F]) (srch 1 1 48)
    let rank (n : Nat) (b : Batch) := sortNat ((rankParts b ((b.asks.map (fun a => a.q1)).headD [])).take n)
    (wellFormed (.search q1 0) = true ∧ placedDesc s1 q1 0 1 = some (srch 1 0 48) ∧ namesFreed s1 (srch 1 0 48) = false ∧ fieldsHold s1 (srch 1 0 48) (searchFieldsOk s1 (srch 1 0 48)) = true
      ∧ hostOpen s1 1 = true ∧ dfield (srch 1 0 48) 43 1 = 0 ∧ batchRuns s1 (srch 1 0 48) (rank 1) = true)
    ∧ (placedDesc s2 q1 0 1 = some (srch 1 1 48) ∧ fieldsHold s2 (srch 1 1 48) (searchFieldsOk s2 (srch 1 1 48)) = true ∧ dfield (srch 1 1 48) 43 1 ≠ 0
      ∧ batchRuns s2 (srch 1 1 48) (rank 1) = true ∧ batchRuns s2 (srch 1 1 48) (rank 2) = true)
    ∧ (answerOf 0 0 1 0 false true false 0 []).short = true := by decide +kernel

theorem test_search_scan :
    let s := has (ixS (idxMem true 1 0 0 4096 0) []) (scan 0)
    wellFormed (.searchScan q1 0) = true ∧ placedDesc s q1 0 2 = some (scan 0) ∧ namesFreed s (scan 0) = false ∧ fieldsHold s (scan 0) (scanFieldsOk s (scan 0)) = true
      ∧ hostOpen s 1 = true ∧ batchRuns s (scan 0) (fun b => scanParts (scan 0) b.r) = true := by decide +kernel

/-- A search refused for its fields, for a missing index, for a failed host read, for a missing journal, and one that waits for a journalled write. -/
theorem test_search_refused :
    let m := idxMem true 1 0 0 4096 0
    let d := srch 1 0 48
    let w (s : State) (ix : Index) : State := { s with indexes := [ix] }
    let s := has (ixS m []) d
    (placedDesc (has (ixS m []) (srch 1 0 47)) q1 0 1 = some (srch 1 0 47) ∧ fieldsHold (has (ixS m []) (srch 1 0 47)) (srch 1 0 47) (searchFieldsOk (has (ixS m []) (srch 1 0 47)) (srch 1 0 47)) = false)
    ∧ (placedDesc (has onP d) q1 0 1 = some d ∧ idxRec (has onP d) 1 5 = none)
    ∧ (fieldsHold (has (ixS m []) (scan 1)) (scan 1) (scanFieldsOk (has (ixS m []) (scan 1)) (scan 1)) = false)
    ∧ (hostOpen ({ s with pw := { s.pw with hostUp := false } } : State) 1 = false)
    ∧ ((mkBatch (w s { tenant := 1, num := 5 }) d (hostRead s 0 4)).map (fun b => b.ix.journal) = some none)
    ∧ ((mkBatch (w s { tenant := 1, num := 5, journal := some 6, writes := [⟨q1, 9, 0, 0, [1], true, true⟩] }) d (hostRead s 0 4)).map (fun b => (b.ix.journal.isSome, dirPending b.ix d.epoch)) = some (true, true)) := by
  decide +kernel

/-- A partition in scatter mode without slices; one whose Squares have no free serving slot; one that another node owns, with a path to it; a NAV scan, whose Square has no scan buffer; a search that waits for an earlier DISCARD of its vectors. -/
theorem test_search_outcomes :
    let m := idxMem true 1 0 0 4096 0
    let d := srch 1 0 48
    let s (m : Mem) := has (ixS m []) d
    let p9 : Position := { pos1 with runs := [⟨0, 0, 1, 6, 0, 0⟩], streams := [⟨0x01000000, 0x05000000, 2, 1⟩] }
    let far : State := { s (memWrite m 8192 [9]) with bd := { onP.bd with positions := [(1, p9)] }, fab := { assigned := true, links := [(0, { st := 2 })], paths := [(9, 1)] } }
    let nav := { scan 0 with bytes := row 64 [(0, 1, 2), (24, 8, 4096), (32, 4, 5), (36, 2, 1), (38, 2, 1), (44, 2, 1), (48, 4, 0xFFFFFFFF), (56, 4, 48)] }
    let n := has (ixS m []) nav
    let disc : Desc := { dsc (.tenant 1 1) .ready [(0, 1, 0x16), (16, 4, 8), (32, 4, 1)] with n := 0 }
    let w : State := { s m with qe := { (s m).qe with descs := [disc, d] } }
    let first (b : Batch) := (sortNat ((rankParts b ((b.asks.map (fun a => a.q1)).headD [])).take 1))
    batchEnds (s (memWrite m 8193 [1])) d first = some 0x15 ∧ batchEnds (setCtx (s m) 0 2 { st := .ready }) d first = some 0x100 ∧ batchEnds far d first = some 0x101
    ∧ (placedDesc n q1 0 2 = some nav ∧ fieldsHold n nav (scanFieldsOk n nav) = true ∧ (mkBatch n nav (hostRead n 0 64)).map (fun b => (b.ix.journal.isSome, dirPending b.ix nav.epoch, discardWaits n nav b, ownBuffersOk n b)) = some (true, false, false, false))
    ∧ (mkBatch w d (hostRead w 0 4)).map (fun b => discardWaits w d b) = some true := by decide +kernel

/-- One query over a tensor of one row and one column of FORMAT 8, in the smallest room. -/
theorem test_topk_dot :
    let p : Position := { pos1 with runs := [⟨0, 0, 1, 4, 0, 0⟩], streams := [⟨0x03000000, 0x01000000, 4, 0⟩], prog := ⟨[⟨1, 0, some 0⟩], [], [], [], true⟩ }
    let o : Obj := { tenant := 1, num := 5, type := 5, tier := 1, raw := true, size := 524288, hdr := cellsOf 0 (row 24 [(4, 1, 8), (8, 8, 1), (16, 4, 1)]) }
    let d := dsc q1 (.placed 0 0) [(0, 1, 3), (24, 8, 4096), (32, 4, 5), (36, 2, 1), (38, 2, 1), (60, 4, 48)]
    let s := has { onP with bd := { onP.bd with positions := [(1, p)] }, ms := { objs := [o] } } d
    let tn := tensorOf (memRead o.hdr 0 24)
    wellFormed (.topkDot q1 0) = true ∧ placedDesc s q1 0 3 = some d ∧ findObj s 1 5 = some o ∧ posOf s 1 = some p ∧ namesFreed s d = false ∧ topkFieldsOk d o tn p = true
      ∧ hostOpen s 1 = true ∧ (f32s (hostRead s 0 (4 * tn.cols))).all isFinite = true ∧ keyBad s o tn (dfield d 40 8) (topkRows d tn) = none := by decide +kernel

theorem test_final_stage_and_rerank :
    let s := ixS (idxMem true 1 0 0 4096 0) []
    (finalStage 0 0 4096 true []).kept.length ≤ 4096
    ∧ (wellFormed (.rerank 63 ⟨1, 5, 0, 0, 1, [], [], []⟩) = true ∧ (idxRec s 1 5).isSome = true ∧ (findIndex s 1 5).isSome = true ∧ flashWait s = false ∧ ownGuard s 1 8 = none)
    ∧ flashWait ({ s with fl := { fstate := 4 } } : State) = true := by decide +kernel

def insD : Desc := dsc q1 (.placed 0 0) [(0, 1, 8), (16, 8, 8192), (24, 8, 4096), (32, 4, 5), (38, 2, 1), (40, 1, 1), (42, 2, 1), (44, 4, 40)]
def delD : Desc := dsc q1 (.placed 0 0) [(0, 1, 9), (16, 8, 8192), (24, 8, 4096), (32, 4, 5), (40, 4, 1), (44, 4, 32)]
def conD : Desc := dsc q1 (.placed 0 0) [(0, 1, 10), (16, 8, 4096), (24, 4, 5), (30, 2, 1), (40, 1, 1), (42, 2, 1), (44, 4, 32)]
def insE : InsEntry := ⟨3, none, [0x3F800000], []⟩
/-- Two slots, the first free or in the given states; an overlay of 4,096 bytes. -/
def mutS (tomb : Bool) (sideCap ovl : Nat) (nav : List Nat) (d : Desc) : State :=
  has (hostAt (ixS (idxMem tomb 1 2 sideCap ovl 0) nav) 8192 (row 64 [(0, 8, 3), (8, 4, 0xFFFFFFFF), (16, 4, 0x3F800000)])) d

theorem test_mutations_accepted :
    let s (d : Desc) := mutS true 0 4096 [0, 1] d
    let z (d : Desc) (part : Nat) : Desc := { d with bytes := row 64 [(0, 1, descOp d), (28, 2, part), (36, 2, part)] }
    (wellFormed (.insert q1 0) = true ∧ placedDesc (s insD) q1 0 8 = some insD ∧ insD.work = .none ∧ isOk (mutAccept (s insD) insD 5 0 (fun r _ => insFieldsOk insD r)) = true
      ∧ hostOpen (s insD) 1 = true ∧ insD.hostFault = false
      ∧ (idxRec (s insD) 1 5).map (fun r => (List.range 1).filterMap (fun i => insEntryOf r (((hostRead (s insD) 8192 (1 * r.entrySize)).drop (i * r.entrySize)).take r.entrySize))) = some [insE])
    ∧ (placedDesc (s delD) q1 0 9 = some delD ∧ isOk (mutAccept (s delD) delD 5 0 (fun _ _ => delFieldsOk delD)) = true ∧ dfield delD 40 4 = 1
      ∧ fieldAt (hostRead (hostAt (s delD) 8192 (zeros 8)) 8192 8) 6 2 = 0)
    ∧ (placedDesc (s conD) q1 0 10 = some conD ∧ isOk (mutAccept (s conD) conD 5 0 (fun _ e => consFieldsOk conD e)) = true)
    ∧ (placedDesc (s (z insD 1)) q1 0 8 = some (z insD 1) ∧ isOk (mutAccept (s (z insD 1)) (z insD 1) 0 1 (fun r _ => insFieldsOk (z insD 1) r)) = false) := by decide +kernel

/-- What holds of the mutation that index 5 would take next. -/
def withMut (s : State) (p : Mut → Bool) : Bool := match mutOf s 1 5 0 with | some m => p m | none => false

/-- A draft fits, without a fault and without deltas. -/
def landsOk (s : State) (m : Mut) (x : Draft) : Bool := fitOf s m x == .fits && x.fault.isNone && x.deltas.isEmpty && hostOpen (land m x) m.t

/-- The draft of an INSERT of one entry, with the bytes of its scale set, and the state whose free values it has drawn. -/
def insDraft (s : State) (m : Mut) : State × Draft × List (Nat × List Byte) :=
  let p := insPlan s m [insE]
  let s0 : State := { s with freeCtr := s.freeCtr + p.stats.length }
  let x := draftInsert s0 m 1 1 p
  let ad := newSet m (m.view s0) p
  (s0, { x with need := x.need + (ad.map (fun w => w.2.length)).sum }, ad)

/-- An INSERT that fits, one that never does, one that waits for room, one at a slot that the partition lacks; one without an epoch, behind a MOVE of the deletion bitmap's index, behind a batch that has not made its scale set, and with a failed host read. -/
theorem test_insert_commit :
    let d : Desc := { insD with work := .insert [insE] }
    let b : Desc := { insD with work := .insert [{ insE with target := some 2 }] }
    let s (ovl : Nat) (x : Desc) := mutS true 0 ovl [0, 1] x
    let n : State := { s 4096 d with fab := { assigned := true, node := 255 } }
    let mv : Desc := { dsc (.tenant 1 1) .running [(0, 1, 0x12), (24, 4, 7), (28, 1, 1)] with n := 0, seq := 9 }
    let held : State := { s 4096 d with qe := { (s 4096 d).qe with descs := [mv, d] }, ms := { (s 4096 d).ms with jobs := [⟨.tenant 1 1, 9, 1, 7, some bar4Obj, false⟩] } }
    let open_ : Desc := { dsc (.tenant 1 1) .running [(0, 1, 8)] with n := 0, work := .mutated [5] 0 1 5 0 [] [] }
    let wait : State := { s 4096 d with qe := { (s 4096 d).qe with descs := [open_, d] } }
    (wellFormed (.mutationCommit q1 0) = true ∧ placedDesc (s 4096 d) q1 0 8 = some d ∧ mutOf n 1 5 0 = none ∧ flashWait (s 4096 d) = false ∧ moveHeld (s 4096 d) d 5 0 = false ∧ setPending (s 4096 d) 1 5 0 = false)
    ∧ (withMut (s 4096 d) (fun m =>
        let x := insDraft (s 4096 d) m
        decide (insEpochBad (m.view (s 4096 d)) [insE] = none ∧ fitOf x.1 m x.2.1 = .fits ∧ x.2.1.fault = none ∧ x.2.1.deltas = [] ∧ hostOpen (adoptSet (land m x.2.1) 1 m.num m.part m.epoch x.2.2) 1 = true)) = true)
    ∧ (withMut (s 8 d) (fun m => decide (fitOf (insDraft (s 8 d) m).1 m (insDraft (s 8 d) m).2.1 = .never)) = true)
    ∧ (withMut (s 4096 b) (fun m => decide (placedDesc (s 4096 b) q1 0 8 = some b ∧ insEpochBad (m.view (s 4096 b)) [{ insE with target := some 2 }] = some 0x15)) = true)
    ∧ (let w : State := { s 92 d with indexes := [{ tenant := 1, num := 5, journal := some 6, images := [⟨0, 0, [(5, 0, 0)]⟩] }] }
       withMut w (fun m => decide (fitOf (insDraft w m).1 m (insDraft w m).2.1 = .waits)) = true)
    ∧ moveHeld held d 5 0 = true ∧ setPending wait 1 5 0 = true ∧ ({ d with hostFault := true } : Desc).hostFault = true := by
  decide +kernel

/-- Slot 1 is live; the side list of a DEFERRED index has room for no record. -/
theorem test_delete_commit :
    let d : Desc := { delD with work := .delete [(1, 0), (0, 0)] }
    let s (tomb : Bool) (ovl : Nat) := mutS tomb 0 ovl [0, 1] d
    let w : State := { s true 21 with indexes := [{ tenant := 1, num := 5, journal := some 6, images := [⟨0, 0, [(5, 0, 0)]⟩] }] }
    let dr (s : State) (m : Mut) := closeMut m ((delTargets (m.view s) [(1, 0), (0, 0)]).foldl (deleteOne m) (firstSet m (m.look { s := s } (recReads (m.view s) ([1, 0].filter (fun i => decide (i < (m.view s).d.slots)))))))
    (moveHeld (s true 4096) d 5 0 = false ∧ d.hostFault = false ∧ wellFormed (.mutationCommit q1 0) = true ∧ placedDesc (s true 4096) q1 0 8 = none ∧ placedDesc (s true 4096) q1 0 9 = some d
      ∧ withMut (s true 4096) (fun m => decide (m.r.tomb = true ∧ delTargets (m.view (s true 4096)) [(1, 0), (0, 0)] = [(1, 0)] ∧ landsOk (s true 4096) m (dr (s true 4096) m) = true)) = true)
    ∧ (withMut (s false 4096) (fun m => decide (m.r.tomb = false ∧ (m.view (s false 4096)).u.sideCap < (m.view (s false 4096)).u.tail - (m.view (s false 4096)).u.head + (delTargets (m.view (s false 4096)) [(1, 0)]).length)) = true)
    ∧ (withMut w (fun m => decide (fitOf w m (dr w m) = .waits)) = true) := by decide +kernel

/-- Nothing left; two tombstones with one slot a step; and a step that waits for overlay room or for another CONSOLIDATE. -/
theorem test_consolidation :
    let c (f : Option Nat) (ph : Nat) : Desc := { conD with work := .consolidate f f 0 0 0 0 ph 0 }
    let s (ovl : Nat) (nav : List Nat) := mutS true 0 ovl nav (c none 0)
    let o : Desc := { c (some 1) 0 with n := 0, seq := 9 }
    let u : State := { s 4096 [1, 1] with qe := { (s 4096 [1, 1]).qe with descs := [o, c none 0] } }
    let dr (s : State) (m : Mut) := closeMut m ([0].foldl (freeOne m) (firstSet m { s := s }))
    (wellFormed (.consolidationStep q1 0) = true ∧ flashWait (s 4096 [1, 1]) = false ∧ moveHeld (s 4096 [1, 1]) (c none 0) 5 0 = false ∧ placedDesc (s 4096 [1, 1]) q1 0 10 = some (c none 0) ∧ consHeld (s 4096 [1, 1]) (c none 0) = false ∧ hostOpen (s 4096 [1, 1]) 1 = true
      ∧ openDeltas (s 4096 [1, 1]) (c none 0) = []
      ∧ withMut (s 4096 [1, 1]) (fun m => decide ((consNext (m.view (s 4096 [1, 1])) none 0 (consEnd conD (m.view (s 4096 [1, 1])).d.slots) 4 0 0).2 = [])) = true)
    ∧ consHeld u (c none 0) = true
    ∧ (withMut (s 4096 [3, 3]) (fun m => decide (consNext (m.view (s 4096 [3, 3])) none 0 2 4 0 0 = (2, [0, 1]) ∧ landsOk (s 4096 [3, 3]) m (dr (s 4096 [3, 3]) m) = true ∧ (dr (s 4096 [3, 3]) m).s.pending = [] ∧ (consNext (m.view (land m (dr (s 4096 [3, 3]) m))) (some m.epoch) 0 2 4 2 1).2 ≠ [])) = true)
    ∧ (let w : State := { s 71 [3, 3] with indexes := [{ tenant := 1, num := 5, journal := some 6, images := [⟨0, 0, [(5, 0, 0)]⟩] }] }
       withMut w (fun m => decide ((m.view w).d.slots = 2 ∧ fitOf w m (dr w m) = .waits)) = true) := by decide +kernel

/-- Move 4,096 is the first in which the before-images of epoch 0 have passed their horizon. -/
theorem test_epochs_and_before_images :
    let ix : Index := { tenant := 1, num := 5, journal := some 6, commitMove := 2, commitCount := 255, images := [⟨0, 0, [(5, 0, 0)]⟩] }
    let s : State := { ixS (idxMem true 1 2 0 4096 0) [0, 1] with indexes := [ix], tempo := 4096 * 4096 }
    let w : JWrite := ⟨q1, 0, 0, 4096, [1, 2], true, true⟩
    let d := dsc q1 .running [(0, 1, 0x15)]
    let j : State := has { s with indexes := [{ ix with writes := [w] }] } d
    let e : State := { s with tempo := 8192 }
    (nextEpoch e ix = some (2 * 65536 + 255) ∧ e.fab.node < 256 ∧ nextEpoch e { ix with commitCount := 254 } = some (2 * 65536 + 254) ∧ nextEpoch e (takeEpoch e { ix with commitCount := 254 }) = some (2 * 65536 + 255)
      ∧ { ix with commitCount := 256 }.commitMove = moveOf e ∧ 256 ≤ { ix with commitCount := 256 }.commitCount)
    ∧ (wellFormed (.beforeImageRetire 1 5 0) = true ∧ findIndex s 1 5 = some ix ∧ (idxRec s 1 5).isSome = true ∧ (findObj s 1 5).isSome = true ∧ findIndex on 1 5 = none)
    ∧ (∀ y ∈ [{ w with ack2 := false }, { w with epoch := 1 }], ¬ (({ w with ack2 := false } : JWrite).ack1 = true ∧ ({ w with ack2 := false } : JWrite).ack2 = true ∧ ({ w with ack2 := false } : JWrite).epoch / 65536 ≤ moveOf j) ∧ (y = { w with ack2 := false } ∨ 0 < y.epoch))
    ∧ ((findObj j 1 5).map (fun o => decide (o.tier < 2)) = some true ∧ wellFormed (.journalWriteApply 1 5) = true ∧ findIndex j 1 5 = some { ix with writes := [w] } ∧ (findObj j 1 5).isSome = true ∧ w.ack1 = true ∧ w.ack2 = true
      ∧ w.epoch / 65536 ≤ moveOf j ∧ findDesc j q1 0 = some d ∧ ix.writes = []) := by decide +kernel

/-! ### Objects -/

def rawObj (num ty tier : Nat) : Obj := { tenant := 1, num := num, type := ty, tier := tier, raw := true, size := 524288 }
def objS (l : List Obj) : State := { onP with ms := { objs := l } }
/-- The state in which an earlier FREE of object 5 runs. -/
def freedS (d : Desc) : State :=
  let f : Desc := { dsc q1 .running [(0, 1, 0x12), (24, 4, 5), (28, 1, 2)] with n := 0, seq := 9 }
  let s := has (objS [{ rawObj 5 1 1 with st := 2 }]) d
  { s with qe := { s.qe with descs := [f, d] }, ms := { s.ms with jobs := [⟨q1, 9, 1, 5, none, false⟩] } }
/-- The state in which an earlier OBJ_WRITE of another queue to the first rows of object 5 has not finished. -/
def heldS (l : List Obj) (d : Desc) : State :=
  let s := has (objS l) d
  { s with qe := { s.qe with descs := [{ dsc (.tenant 1 1) .ready [(0, 1, 0x15), (32, 4, 5), (36, 4, 8)] with n := 0, seq := 9 }, d] } }

def objD (op : Nat) (l : List (Nat × Nat × Nat)) : Desc := dsc q1 .ready ((0, 1, op) :: l)

theorem test_object_refusals :
    let w := objD 0x15 [(32, 4, 5), (36, 4, 8)]
    let x := objD 0x16 [(16, 4, 5), (32, 4, 1)]
    (wellFormed (.objWrite q1 0) = true ∧ dueDesc (freedS w) q1 0 0x15 = some w ∧ w.work = .none ∧ namesFreed (freedS w) w = true)
    ∧ (dueDesc (has onP w) q1 0 0x15 = some w ∧ findObj (has onP w) 1 5 = none ∧ writeHeld (has onP w) w = false)
    ∧ (dueDesc (heldS [rawObj 5 1 1] w) q1 0 0x15 = some w ∧ namesFreed (heldS [rawObj 5 1 1] w) w = false ∧ writeHeld (heldS [rawObj 5 1 1] w) w = true)
    ∧ (dueDesc (has onP x) q1 0 0x16 = some x ∧ findObj (has onP x) 1 (dfield x 16 4) = none ∧ writeHeld (has onP x) x = false) := by decide +kernel

/-- The last 8 bytes of an object, and the same behind a DISCARD of its last unit; one byte too far; and a row that on-die correction has given up. -/
theorem test_obj_read :
    let d (o : Nat) := objD 0x14 [(16, 8, 4096), (24, 8, o), (32, 4, 5), (36, 4, 8)]
    let s (d : Desc) := has (objS [rawObj 5 1 1]) d
    let b : State := has { objS [rawObj 5 1 1] with ms := { (objS [rawObj 5 1 1]).ms with badRows := [(0, 0)] } } (d 0)
    let disc : Desc := { dsc (.tenant 1 1) .ready [(0, 1, 0x16), (16, 4, 5), (32, 4, 32)] with n := 0 }
    let h : State := { s (d 524280) with qe := { (s (d 524280)).qe with descs := [disc, d 524280] } }
    (wellFormed (.objRead q1 0) = true ∧ dueDesc h q1 0 0x14 = some (d 524280) ∧ discardHeld h (d 524280) 5 524280 8 = true ∧ discardHeld (s (d 524280)) (d 524280) 5 524280 8 = false ∧ (d 0).work = .none ∧ dueDesc (s (d 524280)) q1 0 0x14 = some (d 524280) ∧ namesFreed (s (d 524280)) (d 524280) = false ∧ findObj (s (d 524280)) 1 5 = some (rawObj 5 1 1)
      ∧ accessOk (d 524280) (rawObj 5 1 1) = true ∧ dfield (d 524280) 40 8 = 0 ∧ stackBad (s (d 524280)) (rawObj 5 1 1) 524280 8 = none)
    ∧ accessOk (d 524288) (rawObj 5 1 1) = false
    ∧ (dueDesc b q1 0 0x14 = some (d 0) ∧ stackBad b (rawObj 5 1 1) 0 8 = some (.odc 0 0)) := by decide +kernel

/-- A tensor of one FORMAT 8 tile, 8,192 bytes at 8,192. -/
def tensObj : Obj := { rawObj 5 5 1 with hdr := cellsOf 0 (row 24 [(4, 1, 8), (8, 8, 1), (16, 4, 1)]) }

theorem test_obj_and_tile_write :
    let w := objD 0x15 [(16, 8, 4096), (24, 8, 524280), (32, 4, 5), (36, 4, 8)]
    let o := rawObj 5 9 0
    let s := has (objS [o]) w
    let t := objD 0x11 [(16, 8, 4096), (24, 8, 64), (32, 4, 5), (36, 2, 1)]
    let z := has (hostAt (objS [tensObj]) 64 (row 64 [(0, 4, 0x4C49544C), (4, 1, 8)])) t
    let tn := tensorOf (memRead tensObj.hdr 0 24)
    (findObj s 1 5 = some o ∧ w.work = .none ∧ namesFreed s w = false ∧ writeHeld s w = false ∧ w.hostFault = false ∧ hostOpen s 1 = true ∧ o.tier < 2 ∧ guardedOn s 1 5 = false
      ∧ wellFormed (.objWrite q1 0) = true ∧ dueDesc s q1 0 0x15 = some w ∧ accessOk w o = true ∧ boundObj s 1 5 = false ∧ lockedDel s o = false ∧ o.type ≠ 1 ∧ o.type ≠ 8 ∧ dfield w 40 8 = 0)
    ∧ (findObj z 1 5 = some tensObj ∧ namesFreed z t = false ∧ writeHeld z t = false ∧ hostOpen z 1 = true ∧ guardedOn z 1 5 = false ∧ wellFormed (.tileWrite q1 0) = true ∧ dueDesc z q1 0 0x11 = some t
      ∧ tileOk t tensObj tn true = true ∧ ∀ h ∈ suppliedHeaders z t tn.fmt, fieldAt h 0 4 = 0x4C49544C ∧ fieldAt h 4 1 = tn.fmt) := by decide +kernel

theorem test_tile_read :
    let d (n : Nat) := objD 0x10 [(16, 8, 4096), (24, 8, 64), (32, 4, 5), (36, 2, n)]
    let s := has (objS [tensObj]) (d 1)
    let tn := tensorOf (memRead tensObj.hdr 0 24)
    (wellFormed (.tileRead q1 0) = true ∧ dueDesc s q1 0 0x10 = some (d 1) ∧ (d 1).work = .none ∧ namesFreed s (d 1) = false ∧ findObj s 1 5 = some tensObj ∧ tileOk (d 1) tensObj tn false = true
      ∧ tileFabric (d 1) = false ∧ hostOpen s 1 = true ∧ (tileParts (d 1) tensObj tn).all (fun p => match p.2 with | .inr x => (stackBad s tensObj x.1 x.2).isNone | .inl _ => true) = true)
    ∧ tileOk (d 2) tensObj tn false = false ∧ discardHeld s (d 1) 5 0 524288 = false := by decide +kernel

def tensHdr : List Byte := row 4096 [(0, 4, 0x4D52504C), (4, 1, 8), (8, 8, 1), (16, 4, 1)]

/-- CREATE of a raw deletion bitmap and of a tensor; the unit that the reservation lacks; MOVE and FREE of an object; a number out of range; an earlier write. -/
theorem test_place :
    let c (ty reg src : Nat) (size : Nat) := objD 0x12 [(16, 8, src), (24, 4, 5), (29, 1, ty), (30, 1, 1), (31, 1, reg), (32, 8, size)]
    let m := objD 0x12 [(24, 4, 5), (28, 1, 1), (30, 1, 1)]
    let f := objD 0x12 [(24, 4, 5), (28, 1, 2)]
    let e := objD 0x12 [(24, 4, 0xFFFF), (29, 1, 4), (30, 1, 1), (32, 8, 524288)]
    let s (d : Desc) := has (objS []) d
    let o (d : Desc) := has (objS [rawObj 5 1 1]) d
    let t := has (hostAt (objS []) 4096 tensHdr) (c 5 0 4096 524288)
    (wellFormed (.place q1 0 (.own .refused)) = true ∧ dueDesc (s (c 4 1 0 524288)) q1 0 0x12 = some (c 4 1 0 524288) ∧ (c 4 1 0 0).work = .none ∧ namesFreed (s (c 4 1 0 524288)) (c 4 1 0 524288) = false
      ∧ writeHeld (s (c 4 1 0 524288)) (c 4 1 0 524288) = false ∧ dfield (c 4 1 0 524288) 28 1 = 0 ∧ findObj (s (c 4 1 0 524288)) 1 5 = none ∧ placeFieldsOk (s (c 4 1 0 524288)) (c 4 1 0 524288) none = true
      ∧ dfield (c 4 1 0 524288) 30 1 < 2 ∧ dfield (c 4 1 0 524288) 29 1 ≠ 5 ∧ chargeOk (s (c 4 1 0 524288)) (c 4 1 0 524288) 524288 [] = true ∧ (s (c 4 1 0 0)).ms.objs.length < 1048576)
    ∧ (placeFieldsOk (s (c 4 1 0 (2 ^ 30 + 524288))) (c 4 1 0 (2 ^ 30 + 524288)) none = true ∧ chargeOk (s (c 4 1 0 (2 ^ 30 + 524288))) (c 4 1 0 (2 ^ 30 + 524288)) (2 ^ 30 + 524288) [] = false)
    ∧ (dueDesc t q1 0 0x12 = some (c 5 0 4096 524288) ∧ placeFieldsOk t (c 5 0 4096 524288) none = true ∧ hostOpen t 1 = true ∧ tensorFits (hostRead t 4096 4096) 524288 = true)
    ∧ (dueDesc (o m) q1 0 0x12 = some m ∧ findObj (o m) 1 5 = some (rawObj 5 1 1) ∧ (rawObj 5 1 1).tier < 2 ∧ dfield m 30 1 < 2 ∧ placeFieldsOk (o m) m (some (rawObj 5 1 1)) = true ∧ dfield m 28 1 = 1 ∧ chargeOk (o m) m 524288 [] = true)
    ∧ (dueDesc (o f) q1 0 0x12 = some f ∧ placeFieldsOk (o f) f (some (rawObj 5 1 1)) = true ∧ dfield f 28 1 = 2)
    ∧ (dueDesc (s e) q1 0 0x12 = some e ∧ writeHeld (s e) e = false ∧ placeFieldsOk (s e) e (findObj (s e) 1 (dfield e 24 4)) = false)
    ∧ (namesFreed (heldS [rawObj 5 1 1] f) f = false ∧ writeHeld (heldS [rawObj 5 1 1] f) f = true ∧ dueDesc (heldS [rawObj 5 1 1] f) q1 0 0x12 = some f)
    ∧ namesFreed (freedS m) m = true := by decide +kernel

/-- The last unit of a Position's RES_T2 at the end of the offsets, and one more; an extent that overlaps one that is there. -/
theorem test_place_at_the_peer :
    let s (l : List Export) : State := { onP with ms := { exports := l } }
    let e : Export := { tenant := 1, node := 9, num := 6, off := 0, size := 2 ^ 30 - 524288, raw := true, block := 0 }
    wellFormed (.place q1 0 (.create 1 9 5 524288 true (2 ^ 40 - 524288))) = true ∧ wellFormed (.place q1 0 (.free 1 9 5)) = true ∧ exportOk (s [e]) 1 9 5 524288 (2 ^ 40 - 524288) = true
    ∧ exportOk (s [e]) 1 9 5 (2 * 524288) (2 ^ 40 - 2 * 524288) = false ∧ exportOk (s [e]) 1 9 5 524288 0 = false := by decide +kernel

theorem test_discard :
    let o : Obj := { rawObj 5 3 3 with raw := false, size := 16384, chans := [0], lus := [0] }
    let d (n : Nat) := objD 0x16 [(16, 4, 5), (32, 4, n)]
    let s (d : Desc) : State := has { flashOn with fl := { flashOn.fl with chans := gcS.fl.chans, supers := [] }, ms := { objs := [o] } } d
    let y := trimUnits (commit (s (d 1)) (d 1)) o [0]
    (wellFormed (.discard q1 0) = true ∧ dueDesc (s (d 1)) q1 0 0x16 = some (d 1) ∧ (d 1).work = .none ∧ namesFreed (s (d 1)) (d 1) = false ∧ writeHeld (s (d 1)) (d 1) = false
      ∧ findObj (s (d 1)) 1 5 = some o ∧ dfield (d 1) 32 4 ≠ 0 ∧ dfield (d 1) 32 4 ≤ 2 ^ 24 ∧ (dfield (d 1) 24 8 + dfield (d 1) 32 4) * 16384 ≤ o.size ∧ lockedVectors (s (d 1)) 1 5 = false
      ∧ flashWait (s (d 1)) = false ∧ flashFailed (s (d 1)) = false ∧ guardedOn (s (d 1)) 1 5 = false ∧ y.2 = false)
    ∧ (dueDesc (s (d 2)) q1 0 0x16 = some (d 2) ∧ o.size < (dfield (d 2) 24 8 + dfield (d 2) 32 4) * 16384) := by decide +kernel

/-- A copy of row 256 to row 0 of one raw object on channel 0, whose run the Position owns; one without a run; one of a row that cannot be read. -/
theorem test_bank_op :
    let p : Position := { pos1 with runs := [⟨0, 63, 1, 4, 0, 0⟩], streams := [⟨0x03000000, 0x01000000, 1, 0⟩] }
    let d := objD 0x18 [(16, 8, 4096), (24, 4, 5), (28, 4, 0xFFFFFFFF), (32, 4, 0xFFFFFFFF), (36, 4, 0xFFFFFFFF), (40, 2, 1)]
    let r : RowOp := ⟨0, (0, 0), [(0, 0)], 0⟩
    let b := hostAt { onP with bd := { onP.bd with positions := [(1, p)] }, ms := { objs := [rawObj 5 4 1] } } 4096 (zeros 16)
    let s := has b d
    let n := has (objS [rawObj 5 4 1]) d
    let x : State := { s with ms := { s.ms with badRows := [(0, 0)] } }
    (wellFormed (.bankOp q1 0) = true ∧ dueDesc s q1 0 0x18 = some d ∧ namesFreed s d = false ∧ writeHeld s d = false ∧ dfield d 16 8 % 64 = 0 ∧ 1 ≤ dfield d 40 2 ∧ dfield d 40 2 ≤ 4096
      ∧ hostOpen s 1 = true ∧ rowOpAt (hostRead s 4096 16) = some r ∧ bankCheck s d [r] = none)
    ∧ (dueDesc n q1 0 0x18 = some d ∧ bankCheck n d [r] = some 0x13) ∧ rowOpAt (6 :: zeros 15) = none
    ∧ (([] : List Nat).contains (stackChannel r.dst.2 s.ms.seed) = false ∧ findObj s 1 ((bankNames d).getD r.dst.1 noEdge) = some (rawObj 5 4 1) ∧ stackBad s (rawObj 5 4 1) (0 * 1024) 1024 = none
      ∧ stackBad x (rawObj 5 4 1) (0 * 1024) 1024 = some (.odc 0 0)) := by decide +kernel

/-- A chunk of one row operation on channel 0 takes the run's last eight slots, and not the last seven. -/
theorem test_bank_chunk :
    let r : Run := ⟨0, 63, 1, 4, 0, 0⟩
    let p : Position := { pos1 with runs := [r], streams := [⟨0x03000000, 0x02000000, 1, 0⟩] }
    let l : List (Nat × List RowOp) := [(0, [⟨0, (0, 0), [(0, 0)], 0⟩])]
    let d : Desc := { objD 0x18 [(24, 4, 5)] with phase := .running, work := .bank l [] }
    let s := has { onP with bd := { onP.bd with positions := [(1, p)], streams := [(256, { tokens := [⟨0, .chunk q1 0⟩], credits := 1 })] }, ms := { objs := [rawObj 5 4 1] } } d
    wellFormed (.slotTransfer 4 0 56) = true ∧ allRuns s = [r] ∧ streamOf s 1 0 = some ⟨0x03000000, 0x02000000, 1, 0⟩ ∧ (getStream s 1 0).tokens = ⟨0, .chunk q1 0⟩ :: [] ∧ (getStream s 1 0).credits ≠ 0
    ∧ sqOfUnit s 1 0x02000000 = none ∧ sqOfUnit s 1 0x03000000 = none ∧ findDesc s q1 0 = some d ∧ 8 * (chunkOf l 0).length ≤ r.first + r.countM1 + 1 - 56 ∧ r.first + r.countM1 + 1 - 57 < 8 * (chunkOf l 0).length
    ∧ (∀ e ∈ l, e.1 ≠ 0 → e.2 = []) ∧ (∀ e ∈ l, e.1 = 0 → e.2.length ≤ 8) := by decide +kernel

/-! ### Resets and teardowns of a tenant -/

theorem test_tenant_resets :
    let r (t : Nat) := dsc .admin .ready [(0, 1, 0x83), (16, 1, t), (17, 1, 1)]
    let s (d : Desc) := has onP d
    let e (dis : Bool) : State := setT (has onP { r 1 with phase := .running }) 1 { resetting := some (dis, some 0) }
    (dueDesc (s (r 65)) .admin 0 0x83 = some (r 65) ∧ 64 < dfield (r 65) 16 1)
    ∧ (dueDesc (s (r 1)) .admin 0 0x83 = some (r 1) ∧ hasPos (s (r 1)) 1 = true ∧ (getT (s (r 1)) 1).retiring = false ∧ (getT (s (r 1)) 1).resetting = none
      ∧ ∀ e ∈ (s (r 1)).qe.descs, ∀ y ∈ (s (r 1)).qe.descs, e.n = y.n → e = y)
    ∧ (wellFormed (.tenantResetEnd 1) = true ∧ (getT (e true) 1).resetting = some (true, some 0) ∧ resetDue (e true) 1 = true ∧ (findDesc (e true) .admin 0).isSome = true
      ∧ (getT (e false) 1).resetting = some (false, some 0) ∧ (getT onP 1).resetting = none)
    ∧ ((getT (setT onP 1 { resetting := some (false, none), flr := true }) 1).resetting = some (false, none) ∧ resetDue (setT onP 1 { resetting := some (false, none), flr := true }) 1 = true ∧ resetDue (setCtx (e true) 0 0 { st := .ready, tenant := 1 }) 1 = false) := by decide +kernel

theorem test_teardowns :
    let t (x : Nat) := dsc .admin .ready [(0, 1, 0x84), (16, 1, x)]
    let s (d : Desc) := has onP d
    let b : State := setT (has onP { t 1 with phase := .running }) 1 { tornDown := true, teardownBusy := true, teardownSeq := some 0 }
    (dueDesc (s (t 65)) .admin 0 0x84 = some (t 65) ∧ 64 < dfield (t 65) 16 1) ∧ (dueDesc (s (t 64)) .admin 0 0x84 = some (t 64) ∧ hasPos (s (t 64)) 64 = false)
    ∧ (dueDesc (s (t 1)) .admin 0 0x84 = some (t 1) ∧ (getT (s (t 1)) 1).tornDown = false ∧ hasPos (s (t 1)) 1 = true ∧ nmcRuns onP = true ∧ (∀ g ∈ (s (t 1)).fab.held, ∀ h ∈ (s (t 1)).fab.held, g.work = h.work → g = h)
      ∧ ∀ e ∈ (s (t 1)).qe.descs, ∀ y ∈ (s (t 1)).qe.descs, e.n = y.n → e = y)
    ∧ (wellFormed (.teardownDone 1) = true ∧ (getT b 1).teardownBusy = true ∧ busyOf b 1 = 0 ∧ ((getT b 1).teardownSeq.bind (findDesc b .admin)).isSome = true
      ∧ (getT onP 1).teardownBusy = false ∧ (getT (setT onP 1 { teardownBusy := true }) 1).teardownSeq = none)
    ∧ (wellFormed (.functionLevelReset 64) = true ∧ onP.pw.hostUp = true ∧ ({ pw := {} } : State).pw.hostUp = false ∧ ∀ e ∈ onP.qe.descs, ∀ y ∈ onP.qe.descs, e.n = y.n → e = y) := by decide +kernel

/-! ### Base layers and recompositions -/

/-- A base-layer image of 248 bytes: a header, four sections of which runs and streams are empty, BASE_ID 7. -/
def baseRaw : List Byte :=
  row 248 [(0, 4, 0x4942584C), (4, 2, 3), (6, 2, 128), (8, 8, 248), (16, 8, 7), (24, 4, 4), (28, 4, 128), (128, 2, 1), (132, 4, 32), (136, 8, 192), (144, 2, 2), (152, 8, 224),
           (160, 2, 3), (168, 8, 224), (176, 2, 4), (180, 4, 24), (184, 8, 224)]
/-- The digest of an image put into its header. -/
def withDigest (b : List Byte) (d : Nat) : List Byte := b.take 96 ++ (toLE 32 d ++ b.drop 128)
def baseImg : List Byte := withDigest baseRaw 70048912087187544285268891585013950078287104882365483006456646521696791003200

/-- The same with a section too few, and an image with a fifth section, of type 0x7FFF. -/
def baseImg3 : List Byte := withDigest (baseRaw.take 24 ++ (toLE 4 3 ++ baseRaw.drop 28)) 8836167492679398344124841047762102214644764914301535062954185695527107429219
def baseImg5 : List Byte :=
  withDigest (row 264 [(0, 4, 0x4942584C), (4, 2, 3), (6, 2, 128), (8, 8, 264), (16, 8, 7), (24, 4, 5), (28, 4, 128), (128, 2, 1), (132, 4, 32), (136, 8, 208), (144, 2, 2), (152, 8, 240),
                      (160, 2, 3), (168, 8, 240), (176, 2, 4), (180, 4, 24), (184, 8, 240), (192, 2, 0x7FFF), (200, 8, 264)]) 52934859988027400554352241255708169520217778760253998121527847703560927865269

def baseS (b : List Byte) : State := hostAt { on with bd := { baseAddr := 1, baseLen := b.length } } 4096 b

/-- An image that passes every check, one of a wrong digest, one of a wrong magic number, one with a section too few and one with an unknown section; and one whose T3 capacity is below what is retained. -/
theorem test_base_load :
    let b (d : List Byte) := hostRead (baseS d) 4096 d.length
    let kept : State := { baseS baseImg with ms := { objs := [{ tenant := 1, num := 5, type := 9, tier := 3, raw := true, size := 16384 }] } }
    (barFull (baseS baseImg) = true ∧ baseBusy (baseS baseImg) = false ∧ 128 ≤ (baseS baseImg).bd.baseLen ∧ (baseS baseImg).bd.baseLen ≤ 2 ^ 26 ∧ hostOpen (baseS baseImg) 0 = true
      ∧ baseHeaderOk (b baseImg) 248 = true ∧ digestOk (b baseImg) = true ∧ baseSectionsOk (b baseImg) 248 = true ∧ ∀ x ∈ sectionsOf (b baseImg), x.type < 0x8000 → knownSection x.type = true)
    ∧ (baseBusy onP = true ∧ barFull onP = true) ∧ on.bd.baseLen < 128
    ∧ (baseHeaderOk (b baseRaw) 248 = true ∧ digestOk (b baseRaw) = false) ∧ baseHeaderOk (b (zeros 248)) 248 = false
    ∧ (baseHeaderOk (b baseImg3) 248 = true ∧ digestOk (b baseImg3) = true ∧ baseSectionsOk (b baseImg3) 248 = false)
    ∧ (baseHeaderOk (b baseImg5) 264 = true ∧ digestOk (b baseImg5) = true ∧ baseSectionsOk (b baseImg5) 264 = true ∧ ∃ x ∈ sectionsOf (b baseImg5), x.type < 0x8000 ∧ knownSection x.type = false)
    ∧ retainedBad (discover kept) (baseOf (b baseImg)) = true
    ∧ (baseBusy on = false ∧ on.bd.layer = none ∧ ({ on with bd := { layer := some layer0 } } : State).bd.layer.isSome = true ∧ baseBusy ({ on with bd := { layer := some layer0 } } : State) = false) := by
  decide +kernel

/-- 2,097,152 bytes of 256 Squares are the most that CAP_T0 may ask for. -/
theorem test_base_capacity : capacityBad on { layer0 with capT0 := 2 ^ 21 * 256 + 1 } = true := by simp [capacityBad]

theorem test_base_activation :
    let s (j : BaseJob) : State := { on with bd := { base := 1, job := some j } }
    ((64 : Nat) ≠ 0 ∧ barFull on = true ∧ wellFormed (.baseLoad ⟨64, false⟩) = true ∧ wellFormed (.baseUnload 64) = true ∧ hostOpen ({ pw := {} } : State) 0 = false)
    ∧ ((s (.load layer0)).bd.job = some (.load layer0) ∧ atBoundary (s (.load layer0)) = true ∧ atBoundary ({ s (.load layer0) with tempo := 4095 } : State) = false)
    ∧ ((s .unload).bd.job = some .unload ∧ atBoundary (s .unload) = true) := by decide +kernel

/-- A Position record of tenant 2 with one Square, one stream and one run. -/
def recRaw (ten : Nat) : List Byte :=
  row 160 [(0, 4, 0x534F504C), (4, 2, 3), (6, 2, 128), (8, 4, 160), (12, 1, ten), (14, 1, 1), (16, 8, 7), (32, 2, 1), (34, 2, 1), (36, 4, 1), (40, 4, 1), (80, 4, 128), (84, 4, 136), (88, 4, 144), (92, 4, 160),
           (128, 4, 256 + 2), (136, 8, ten * 2 ^ 24), (144, 4, 0x06000000), (148, 4, 0x01000000), (152, 2, 1)]
def recImg (ten d : Nat) : List Byte := withDigest (recRaw ten) d
def admD (len : Nat) : Desc := dsc .admin .ready [(0, 1, 0x80), (16, 8, 4096), (24, 4, len)]
def prog0 : ProgInfo := ⟨[⟨0, 0, none⟩], [], [], [], true⟩
def admR (ten : Nat) : Recomp := ⟨0, ten, false, false, 0, some prog0, .waiting⟩
def admS (b : List Byte) (d : Desc) : State := has (hostAt onP 4096 b) d

theorem test_admission :
    let s := admS (recImg 2 74180026891185758951200451149163443300167608183745899978649916664819533691824) (admD 160)
    let b := hostRead s 4096 160
    let w : State := { s with bd := { s.bd with recomps := [admR 0] } }
    recompUnwritten s = false ∧ dueDesc s .admin 0 0x80 = some (admD 160) ∧ s.bd.recomps = [] ∧ earlierRecomp s (admD 160) = false ∧ s.bd.layer ≠ none ∧ (admD 160).hostFault = false ∧ hostOpen s 0 = true
      ∧ fieldAt b 8 4 = 160 ∧ digestOk b = true ∧ admitFails w b (recordOf b prog0) 0 = none := by decide +kernel

/-- A tenant that has its Position already, no base layer, a record of 127 bytes, one whose LENGTH differs, and one of a wrong digest. -/
theorem test_admission_refused :
    let c := admS (recImg 1 75281710649512042744095121567885389198596263859857770533907648843363388734167) (admD 160)
    let b := hostRead c 4096 160
    let w : State := { c with bd := { c.bd with recomps := [admR 0] } }
    (digestOk b = true ∧ admitFails w b (recordOf b prog0) 0 = some (0x05, 0x15))
    ∧ ((has on (admD 160)).bd.layer = none ∧ dueDesc (has on (admD 160)) .admin 0 0x80 = some (admD 160)) ∧ (dueDesc (admS [] (admD 127)) .admin 0 0x80 = some (admD 127) ∧ dfield (admD 127) 24 4 < 128)
    ∧ fieldAt (hostRead (admS [] (admD 160)) 4096 160) 8 4 ≠ 160 ∧ (fieldAt (recRaw 2) 8 4 = 160 ∧ digestOk (recRaw 2) = false) := by decide +kernel

/-- An ADMIT that waits behind another, or has been taken up; one that starts; a retirement that starts; staging that ends too late, and in time; activation before and at its move. -/
theorem test_recompositions :
    let p : Position := { pos1 with tenant := 2, actMove := 1 }
    let d : Desc := { admD 160 with phase := .running }
    let r (st : RecompStage) : Recomp := { admR 2 with stage := st }
    let s (st : RecompStage) (t : Nat) : State := has { onP with tempo := t, bd := { onP.bd with recomps := [r st] } } d
    let e := dsc .admin .ready [(0, 1, 0x80)]
    let o : State := has { onP with bd := { onP.bd with recomps := [{ admR 2 with seq := 5 }] } } e
    let k : State := has { onP with bd := { onP.bd with recomps := [admR 2] } } e
    let x : State := { onP with bd := { onP.bd with recomps := [⟨0, 1, true, true, 0, none, .waiting⟩] } }
    (dueDesc o .admin 0 0x80 = some e ∧ o.bd.recomps.any (fun x => x.seq == e.seq) = false ∧ earlierRecomp o e = false ∧ o.bd.recomps ≠ [] ∧ k.bd.recomps.any (fun x => x.seq == e.seq) = true
      ∧ recompUnwritten ({ onP with qe := { recs := [{ q := .admin, opcode := 0x81 }] } } : State) = true)
    ∧ ((s .draining 0).bd.recomps = [r .draining] ∧ (r .draining).stage ≠ .waiting)
    ∧ (recompUnwritten (s .waiting 0) = false ∧ (s .waiting 0).bd.recomps = [r .waiting] ∧ (r .waiting).retire = false ∧ adminDesc (s .waiting 0) 0 = some d)
    ∧ (recompUnwritten (has x (dsc .admin .running [(0, 1, 0x81), (16, 1, 1)])) = false ∧ (adminDesc (has x (dsc .admin .running [(0, 1, 0x81), (16, 1, 1)])) 0).isSome = true)
    ∧ ((s (.staging p) 8192).bd.recomps = [r (.staging p)] ∧ p.actMove ≠ 0 ∧ p.actMove < firstActMove (s (.staging p) 8192) ∧ adminDesc (s (.staging p) 8192) 0 = some d ∧ firstActMove (s (.staging p) 0) ≤ p.actMove)
    ∧ ((s (.staged p 2) 8192).bd.recomps = [r (.staged p 2)] ∧ atBoundary (s (.staged p 2) 8192) = true ∧ 2 ≤ moveOf (s (.staged p 2) 8192) ∧ adminDesc (s (.staged p 2) 8192) 0 = some d
      ∧ moveOf (s (.staged p 2) 4096) < 2) := by decide +kernel

theorem test_retirement :
    let d (t : Nat) := dsc .admin .ready [(0, 1, 0x81), (16, 1, t)]
    let s (d : Desc) := has onP d
    let r : Recomp := ⟨0, 1, true, true, 0, none, .draining⟩
    let u (t : Nat) : State := has { onP with tempo := t, bd := { onP.bd with recomps := [r] } } { d 1 with phase := .running }
    (recompUnwritten (s (d 2)) = false ∧ dueDesc (s (d 2)) .admin 0 0x81 = some (d 2) ∧ (s (d 2)).bd.recomps = [] ∧ earlierRecomp (s (d 2)) (d 2) = false ∧ posOf (s (d 2)) 2 = none)
    ∧ (dueDesc (s (d 1)) .admin 0 0x81 = some (d 1) ∧ (posOf (s (d 1)) 1).isSome = true ∧ ∀ e ∈ (s (d 1)).qe.descs, ∀ y ∈ (s (d 1)).qe.descs, e.n = y.n → e = y)
    ∧ ((u 4096).bd.recomps = [r] ∧ posOf (u 4096) 1 = some pos1 ∧ pos1.tenant = r.tenant ∧ releaseBound (u 4096) 1 = false ∧ draining (u 4096) 1 = false ∧ atBoundary (u 4096) = true
      ∧ tenantIdle (u 4096) 1 = true ∧ castlingOn (u 4096) pos1 = false ∧ (adminDesc (u 4096) 0).isSome = true ∧ atBoundary (u 1) = false)
    ∧ (let b (n : Nat) : State := { u 4096 with ts := { vocabs := [(15, { object := 5, tenant := 1, st := n })] } }
       r.release = true ∧ releaseBound (b 2) 1 = true ∧ releaseBound (b 3) 1 = false ∧ draining (b 3) 1 = true) := by decide +kernel

/-! ### Packets and messages -/

/-- Node 3 with link 0 UP to it, a request path of tenant 1 on it, and an export of tenant 1 at offset 0. -/
def fabS : State :=
  let p : Position := { pos1 with runs := [⟨0, 0, 1, 6, 0, 0⟩], streams := [⟨0x06000000, 0x05000000, 1, 1⟩] }
  { onP with bd := { onP.bd with positions := [(1, p)] }, fab := { node := 3, assigned := true, links := [(0, { st := 2 })], paths := [(9, 1)], group := some { grp8 with pos := 3 } },
             ms := { exports := [{ tenant := 1, off := 0, size := 524288, raw := true, block := 0 }] } }

def exp0 : Export := { tenant := 1, off := 0, size := 524288, raw := true, block := 0 }
def pkt (op sub len a : Nat) : Packet := ⟨op, sub, 1, 9, 3, len, a, 77, 0, 5, zeros (if op = 1 then 0 else len)⟩
def at3 (o : Nat) : Nat := 3 * 2 ^ 40 + o

/-- The last 8 bytes of the export; a span over a boundary of 256; beyond the export; a torn-down tenant; a tenant without a Position; another node. -/
theorem test_requests :
    let last := at3 524280
    (wellFormed (.load 0 (pkt 1 0 8 last)) = true ∧ takesPacket fabS 0 1 (pkt 1 0 8 last) = true ∧ (getT fabS 1).tornDown = false ∧ spanOk last 8 = true ∧ exportAt fabS 1 last 8 = some exp0 ∧ hasPos fabS 1 = true
      ∧ stackBad fabS (exportObj exp0) (last % 2 ^ 40 - exp0.off) 8 = none)
    ∧ (wellFormed (.store 0 (pkt 2 0 8 last)) = true ∧ takesPacket fabS 0 2 (pkt 2 0 8 last) = true) ∧ (wellFormed (.storeFlag 0 (pkt 3 0 0 last)) = true ∧ takesPacket fabS 0 3 (pkt 3 0 0 last) = true ∧ last % 8 = 0)
    ∧ (wellFormed (.atomic 0 (pkt 4 1 8 last)) = true ∧ takesPacket fabS 0 4 (pkt 4 1 8 last) = true ∧ atomicOk (pkt 4 1 8 last) = true ∧ atomicOk (pkt 4 3 0 last) = false)
    ∧ (stackBad ({ fabS with ms := { fabS.ms with badRows := [(stackChannel 511 0, 1)] } } : State) (exportObj exp0) 524280 8).isSome = true
    ∧ spanOk (at3 248) 16 = false ∧ exportAt fabS 1 (at3 524288) 8 = none ∧ (getT (setT fabS 1 { tornDown := true }) 1).tornDown = true
    ∧ (let n : State := { fabS with bd := { fabS.bd with positions := [] } }; hasPos n 1 = false ∧ exportAt n 1 last 8 = some exp0)
    ∧ takesPacket fabS 0 1 { pkt 1 0 8 last with dst := 4 } = false ∧ takesPacket on 0 1 (pkt 1 0 8 last) = false := by decide +kernel

def t3Obj (num ty : Nat) : Obj := { rawObj num ty 3 with raw := true, size := 16384, chans := [0], lus := [0] }
def t3S : State := { fabS with fl := { gcS.fl with supers := [] }, ms := { objs := [t3Obj 5 3, t3Obj 6 9] } }

theorem test_gread :
    let g (n : Nat) : Packet := { pkt 6 0 8 5 with data := toLE 4 (16384 - n) ++ toLE 4 n }
    (wellFormed (.gread 0 (g 64)) = true ∧ takesPacket t3S 0 6 (g 64) = true ∧ (getT t3S 1).tornDown = false ∧ greadOk (g 64) = true ∧ findObj t3S 1 (5 % 2 ^ 32) = some (t3Obj 5 3)
      ∧ 5 / 2 ^ 32 * pageBytes + fieldAt (g 64).data 0 4 + fieldAt (g 64).data 4 4 ≤ 16384 ∧ hasPos t3S 1 = true ∧ flashWait t3S = false ∧ ownGuard t3S 1 5 = none ∧ isOk (readObj t3S (t3Obj 5 3) (16384 - 64) 64).2 = true
      ∧ (readObj t3S (t3Obj 5 3) (16384 - 64) 64).1.pending = t3S.pending)
    ∧ greadOk (g 0) = false ∧ findObj fabS 1 5 = none ∧ (let w : State := { t3S with fl := { t3S.fl with fstate := 4 } }; flashWait w = true ∧ takesPacket w 0 6 (g 64) = true) := by decide +kernel

theorem test_responses :
    let d : Desc := { dsc q1 .running [(0, 1, 0x14)] with work := .remote [77] 0 0 0 0 0 }
    let r (op : Nat) (src : ReqSource) : Req := ⟨77, 1, 9, op, 0, 0, 0, src, true⟩
    let s (op : Nat) (src : ReqSource) : State := has { fabS with fab := { fabS.fab with reqs := [r op src] } } d
    let p (op n : Nat) : Packet := { pkt op 2 n 0 with dst := 3 }
    let h : State := { setCtx (s 1 (.elem 0 0 0)) 0 0 { st := .frozen } with bd := { fabS.bd with castling := some ⟨0, 0, 0, 0, false, 2, 0⟩ } }
    (wellFormed (.data 0 (p 8 8)) = true ∧ takesPacket (s 1 .none) 0 8 (p 8 8) = true ∧ reqOf (s 1 (.hostRead q1 0 4096)) (p 8 8) = some (r 1 (.hostRead q1 0 4096)) ∧ answers 8 1 = true
      ∧ findDesc (s 1 (.hostRead q1 0 4096)) q1 0 = some d ∧ d.work = .remote [77] 0 0 0 0 0 ∧ [77].filter (fun x => x != 77) = [] ∧ respHeld (s 1 (.hostRead q1 0 4096)) (r 1 (.hostRead q1 0 4096)) = false)
    ∧ (wellFormed (.ack 0 (p 9 0)) = true ∧ takesPacket (s 2 (.desc q1 0)) 0 9 (p 9 0) = true ∧ reqOf (s 2 (.desc q1 0)) (p 9 0) = some (r 2 (.desc q1 0)) ∧ answers 9 2 = true)
    ∧ (wellFormed (.nack 0 (p 0xA 0)) = true ∧ takesPacket (s 2 (.desc q1 0)) 0 0xA (p 0xA 0) = true ∧ answers 0xA 2 = true)
    ∧ (reqOf fabS (p 0xA 0) = none ∧ takesPacket fabS 0 0xA (p 0xA 0) = true ∧ fabS.fab.sent.find? (fun m => m.msgId == (p 0xA 0).tag && m.reply.isNone) = none)
    ∧ (takesPacket h 0 8 (p 8 8) = true ∧ reqOf h (p 8 8) = some (r 1 (.elem 0 0 0)) ∧ respHeld h (r 1 (.elem 0 0 0)) = true) := by decide +kernel

/-- The data of fetch slot 63, while slot 0 is outstanding. -/
theorem test_response_of_an_element :
    let r : Req := ⟨77, 1, 9, 1, 0, 0, 0, .elem 0 2 63, true⟩
    let x (k : Nat) : Elem := ⟨8, .remote (9 * 2 ^ 40), k, some 77, true, 0, false, 0, []⟩
    let s := setCtx { fabS with fab := { fabS.fab with reqs := [r] } } 0 2 { st := .waitMem, tenant := 1, elems := [(0, x 0), (63, x 8)] }
    let p : Packet := { pkt 8 2 8 0 with dst := 3 }
    reqOf s p = some r ∧ answers 8 r.op = true ∧ respHeld s r = false ∧ (getCtx s 0 2).elems.find? (fun x => x.1 == 63) = some (63, x 8) ∧ (getCtx s 0 2).ended = none
    ∧ ∃ y ∈ (getCtx s 0 2).elems, y.1 ≠ 63 ∧ y.2.returned = false := by decide +kernel

/-- A flag that may leave, that waits for an earlier store, after a fault and without a path; a request whose timer runs, and one that has not left. -/
theorem test_flags_and_timeouts :
    let d : Desc := { dsc q1 .running [(0, 1, 0x10)] with work := .remote [77] 0 0 0 0 0 }
    let f (bad : Bool) : FlagWait := ⟨77, 1, 5, 9 * 2 ^ 40, 1, bad, .desc q1 0⟩
    let r (sent : Bool) : Req := ⟨78, 1, 9, 2, 0, 4, 0, .none, sent⟩
    let s (bad : Bool) : State := has { fabS with fab := { fabS.fab with flags := [f bad] } } d
    let e (sent : Bool) : State := { s false with fab := { (s false).fab with reqs := [r sent] } }
    let p : State := setLink (e true) 0 { st := 3 }
    let n : State := { s false with fab := { (s false).fab with paths := [] } }
    (wellFormed (.storeFlagSend 1 77) = true ∧ (s false).fab.flags.find? (fun f => f.tenant == 1 && f.tag == 77) = some (f false) ∧ earlierOpen (s false) (f false) = false ∧ (f false).faulted = false
      ∧ linkFor (s false) 1 ((f false).addr / 2 ^ 40 % 256) (f false).addr = some 0 ∧ linkStream (s false) 1 0 1 (srcSquare (f false).src) = some 0)
    ∧ earlierOpen (e true) (f false) = true ∧ fabS.fab.flags.find? (fun f => f.tenant == 1 && f.tag == 77) = none
    ∧ ((f true).faulted = true ∧ linkFor n 1 9 (9 * 2 ^ 40) = none ∧ (f true).src = .desc d.q d.seq ∧ findDesc (s true) d.q d.seq = some d ∧ [77].filter (fun x => x != 77) = [])
    ∧ (findReq (e true) 78 = some (r true) ∧ timerPaused (e true) (r true) = false ∧ (r true).src = .none ∧ (getT (e true) 1).tornDown = false ∧ timerPaused p (r true) = true ∧ timerPaused (e false) (r false) = true
      ∧ findReq fabS 78 = none ∧ (getT (setT (e true) 1 { tornDown := true }) 1).tornDown = true) := by decide +kernel

theorem test_messages :
    let m (k : Nat) : Message := { msg0 with kind := k, body := zeros 32 }
    let l : State := { fabS with fab := { fabS.fab with sent := [⟨77, q1, 0, [], none⟩] } }
    let i : State := { fabS with indexes := [{ tenant := 1, num := 5, journal := some 6 }], ms := { fabS.ms with objs := [{ rawObj 6 8 1 with data := cellsOf 8 (toLE 8 4096) }] } }
    let full : State := { i with ms := { i.ms with objs := [rawObj 6 8 1] } }
    let g (n : Nat) : Message := { m 3 with srcNode := n }
    (wellFormed (.queryMessage 0 (m 1)) = true ∧ takesMessage fabS 0 1 (m 1) = true ∧ (getT fabS 1).tornDown = false ∧ hasPos fabS 1 = true ∧ takesMessage fabS 0 7 (m 7) = true ∧ takesMessage fabS 0 6 (m 6) = true)
    ∧ (takesMessage on 0 1 (m 1) = false ∧ (getT (setT fabS 1 { tornDown := true }) 1).tornDown = true ∧ takesMessage (setT fabS 1 { tornDown := true }) 0 1 (m 1) = true
      ∧ takesMessage fabS 0 1 { m 1 with tenant := 2 } = true ∧ hasPos fabS 2 = false)
    ∧ (takesMessage l 0 2 (m 2) = true ∧ l.fab.sent.find? (fun x => x.msgId == 77) = some ⟨77, q1, 0, [], none⟩ ∧ fabS.fab.sent.find? (fun x => x.msgId == 77) = none)
    ∧ (let d := dsc q1 (.placed 0 0) [(0, 1, 1)]
       let w := has (setCtx l 0 0 { st := .waitStream, tenant := 1 }) d
       findDesc w q1 0 = some d ∧ d.phase = .placed 0 0 ∧ (getCtx w 0 0).st = .waitStream ∧ takesMessage w 0 2 (m 2) = true)
    ∧ (takesMessage i 0 4 (m 4) = true ∧ i.fab.group.isSome = true ∧ (findIndex i 1 5).isSome = true)
    ∧ (takesMessage i 0 3 (g 2) = true ∧ ringFor i 2 = some 1 ∧ ringFor i 1 = some 2 ∧ ringFor i 9 = none ∧ ((findIndex i 1 5).bind (fun ix => ix.journal)).bind (findObj i 1) = some { rawObj 6 8 1 with data := cellsOf 8 (toLE 8 4096) }
      ∧ (jAppend (cellsOf 8 (toLE 8 4096)) 1 (zeros 32)).isSome = true ∧ jAppend [] 1 (zeros 32) = none ∧ ((findIndex full 1 5).bind (fun ix => ix.journal)).bind (findObj full 1) = some (rawObj 6 8 1)
      ∧ linkFor { i with fab := { i.fab with paths := [(2, 1)] } } 1 2 (2 * 2 ^ 40) = some 0)
    ∧ ((findIndex fabS 1 5).bind (fun ix => ix.journal)).bind (findObj fabS 1) = none := by decide +kernel

/-- Group position 3 of eight holds the one parity unit of stripe 3. -/
theorem test_guard_delta :
    let s : State := { t3S with fab := { t3S.fab with guards := [(2, { st := 2, tenant := 1, p := 1, dataObj := 5, parObj := 6 })] } }
    let m (col : Nat) : Message := { msg0 with kind := 5, index := 2, body := toLE 4 3 ++ (toLE 4 col ++ List.replicate 16384 0) }
    let e : Nat × Guard := (2, { st := 2, tenant := 1, p := 1, dataObj := 5, parObj := 6 })
    (wellFormed (.guardDelta 0 (m 6)) = true ∧ takesMessage s 0 5 (m 6) = true ∧ (getT s 1).tornDown = false ∧ hasPos s 1 = true ∧ s.fab.guards.find? (fun x => x.1 == 2 && x.2.st != 0 && x.2.tenant == 1) = some e
      ∧ guardMember 8 1 3 3 = (7, 0) ∧ guardK 8 1 = 7 ∧ findObj s 1 6 = some (t3Obj 6 9) ∧ fieldAt (m 6).body 4 4 < 7 ∧ (m 6).body.length = 8 + 16384 ∧ (0 + 1) * 16384 ≤ (t3Obj 6 9).size ∧ flashWait s = false)
    ∧ 7 ≤ fieldAt (m 7).body 4 4 ∧ findObj fabS 1 6 = none ∧ flashWait ({ s with fl := { s.fl with fstate := 3 } } : State) = true := by decide +kernel

/-! ### Every step -/

theorem test_queue_of_commands :
    (∀ c ∈ ({ pending := [.moveBoundary, .watchdogExpiry] } : State).pending, wellFormed c = true) ∧ wellFormed (.linkUp 24 0 0) = false := by decide +kernel

/-- A command that names no unit at the front. -/
theorem test_ill_formed_front : ({ pending := [.checkpoint 64, .moveBoundary] } : State).pending = .checkpoint 64 :: [.moveBoundary] ∧ wellFormed (.checkpoint 64) = false := by decide +kernel

theorem test_reset_state : State.reset.pending = [] ∧ State.reset.hostMem = [] := ⟨rfl, rfl⟩

/-! ### Ill-formed commands and words -/

/-- One term beyond each bound: aperture, virtual function, tenant, queue, owner, path, slot, Square, context, register. -/
theorem test_ill_formed_units :
    wellFormed (.apertureWrite none (2 ^ 24) (zeros 64)) = false ∧ wellFormed (.apertureWrite (some 1) (2 ^ 18) (zeros 64)) = false ∧ wellFormed (.apertureWrite (some 65) 0 (zeros 64)) = false
    ∧ wellFormed (.apertureWrite (some 0) 0 (zeros 64)) = false ∧ wellFormed (.descriptorPlace 65) = false ∧ wellFormed (.search (.tenant 65 0) 0) = false ∧ wellFormed (.search (.tenant 0 64) 0) = false
    ∧ wellFormed (.queueEnable 2 q1 0) = false ∧ wellFormed (.queueDisable 1 .admin 0) = false ∧ wellFormed (.completionHeadWrite 65 q1 0) = false ∧ wellFormed (.meterEnable 0 65 false 0) = false
    ∧ wellFormed (.slotTransfer 10 0 0) = false ∧ wellFormed (.slotTransfer 6 24 0) = false ∧ wellFormed (.slotTransfer 5 0 256) = false ∧ wellFormed (.baseLoad ⟨65, true⟩) = false
    ∧ wellFormed (.squareCycle 272 .finish) = false ∧ wellFormed (.sort64 0 64 0) = false ∧ wellFormed (.sort64 0 0 4) = false ∧ wellFormed (.merge128 0 0 3 3) = false ∧ wellFormed (.merge128 0 0 0 4) = false
    ∧ wellFormed (.functionLevelReset 0) = false ∧ wellFormed (.functionLevelReset 65) = false ∧ wellFormed (.nodeFunctionReset (.register 65 0)) = false := by decide +kernel

/-- One term beyond each bound: rank, channel, die, codeword, shard, binding, strap, sensor, connector, link. -/
theorem test_ill_formed_flash_and_pins :
    wellFormed (.rankClockStop 16) = false ∧ wellFormed (.checkpoint 64) = false ∧ wellFormed (.stripeCloseTimer 0 9) = false ∧ wellFormed (.codewordRead 0 0 0 4 .lost) = false
    ∧ wellFormed (.guardCommandEnd 64 0 true) = false ∧ wellFormed (.guardCommandEnd 63 65 true) = false ∧ wellFormed (.place q1 0 (.create 65 0 0 524288 true 0)) = false ∧ wellFormed (.place q1 0 (.create 1 0 0 524288 true (2 ^ 40))) = false ∧ wellFormed (.place q1 0 (.free 1 256 0)) = false ∧ wellFormed (.bindComplete true 16) = false ∧ wellFormed (.unbindComplete false 64) = false
    ∧ wellFormed (.powerOnReset 4) = false ∧ wellFormed (.sensorReading (.module 24) 0) = false ∧ wellFormed (.sensorReading (.die 64 0) 0) = false ∧ wellFormed (.vccqSenseChange 8 none) = false ∧ wellFormed (.vccqSenseChange 0 (some [])) = false
    ∧ wellFormed (.vccqSenseChange 0 (some (List.replicate 8 ⟨9, false, geo⟩))) = false ∧ wellFormed (.linkUp 24 0 0) = false := by decide +kernel

/-- One term beyond each bound: a context write, a read, a merge, a remote operation, a read result, a packet, a message and a flit. -/
theorem test_ill_formed_contents :
    let sq (o : SqOp) := wellFormed (.squareCycle 0 o)
    let e (n : Nat) : ReadElem := ⟨n, .object 5 0, 0⟩
    let el (e : ElemResult) := wellFormed (.readElementReturn 0 0 0 0 e)
    let p : Packet := ⟨2, 0, 1, 9, 3, 8, 0, 77, 0, 5, zeros 8⟩
    let f : Flit := ⟨0, 0, 0, 0, 0, 0, zeros 240, 0, false, 0⟩
    sq (.compute [.reg 4 (List.replicate 64 0)]) = false ∧ sq (.compute [.reg 0 [0]]) = false ∧ sq (.compute [.scalar 512 [0]]) = false ∧ sq (.compute [.scratch 4096 [0]]) = false
    ∧ sq (.read 4 0 [e 8] true) = false ∧ sq (.read 0 256 [e 8] true) = false ∧ sq (.read 0 0 [] true) = false ∧ sq (.read 0 0 [e 7] true) = false ∧ sq (.read 0 0 [e 257] true) = false ∧ sq (.read 0 0 [{ e 8 with dst := 4089 }] true) = false
    ∧ sq (.send 256 []) = false ∧ sq (.waitStream 0 4096) = false ∧ sq (.sort 4) = false
    ∧ sq (.merge 1 1) = false ∧ sq (.remote 64 (.flag 0 0) 0 true) = false ∧ sq (.remote 0 (.flag 4 0) 0 true) = false ∧ sq (.remote 0 (.store 248 (zeros 16)) 0 true) = false ∧ sq (.remote 0 (.flag 0 0) 4089 true) = false ∧ sq (.sramError true 32768) = false
    ∧ el (.stackCheck 256 0 0) = false ∧ el (.stackCheck 0 0 16) = false ∧ el (.stackUncorrectable 256 0) = false ∧ el (.media 64 0 0) = false ∧ el (.media 0 0 4) = false ∧ wellFormed (.readElementReturn 0 0 4 0 .data) = false ∧ wellFormed (.readElementReturn 0 0 0 16 .data) = false
    ∧ wellFormed (.store 0 p) = true ∧ wellFormed (.store 24 p) = false ∧ wellFormed (.store 0 { p with data := [] }) = false ∧ wellFormed (.store 0 { p with tag := 2 ^ 32 }) = false
    ∧ wellFormed (.queryMessage 0 { msg0 with srcNode := 256 }) = false ∧ wellFormed (.queryMessage 0 msg0) = true ∧ wellFormed (.flitReceive 0 f) = true ∧ wellFormed (.flitReceive 0 { f with seq := 4096 }) = false
    ∧ wellFormed (.flitReceive 0 { f with payload := zeros 239 }) = false := by decide +kernel

/-- An ill-formed command reaches nothing. -/
theorem test_ill_formed_reach_nothing : exec (.checkpoint 64) on = .next on := rfl

/-- The table gives no row bits, so no word spells a command. -/
theorem test_words : decodeTableWord 64 1 = none ∧ State.reset.withFetchWord 64 1 = State.reset := ⟨rfl, rfl⟩

end Sys2Proof.Tests
end

section
/-! SUPPORT. Where a register write goes (00 R3 to R7), said once: the words that every function reaches, the tenants' pages, and the answer of REGISTER_WRITE. -/

namespace Sys2Proof.Machine

open Sys2Proof

/-! ### Fields of a written value -/

theorem bit_eq_testBit (v k : Nat) : bit v k = v.testBit k := by
  rw [bit, Nat.testBit_eq_decide_div_mod_eq]

/-- A bit of the low word of a written value is the value's own. -/
theorem bit_lowWord (v : BitVec 64) {k : Nat} (h : k < 32) : bit (v.toNat % 2 ^ 32) k = v.getLsbD k := by
  rw [bit_eq_testBit, Nat.testBit_mod_two_pow, decide_eq_true h, Bool.true_and, BitVec.getLsbD]

theorem b2n_bit (v lo : Nat) : b2n (bit v lo) = bits v lo 1 := by
  have h := Nat.mod_two_eq_zero_or_one (v / 2 ^ lo)
  rcases h with h | h <;> simp [b2n, bit, bits, h]

theorem bits_zero (v len : Nat) : bits v 0 len = v % 2 ^ len := by simp [bits]

/-- Two fields that lie side by side from bit 0 are one field. -/
theorem bits_add_fld_bits (v a b : Nat) : bits v 0 a + fld (bits v a b) a = bits v 0 (a + b) := by
  rw [bits_zero, bits_zero, pow_add, Nat.mod_mul, Nat.mul_comm (2 ^ a), bits, fld]

/-! ### The blocks answer -/

section full
variable {s : State} (h : barFull s = true)
include h

theorem barNmc_of_barFull : barNmc s = true := by
  simp only [barFull, Bool.and_eq_true, Bool.or_eq_true] at h
  obtain ⟨⟨hup, hst⟩, -⟩ := h
  simp only [barNmc, hup, Bool.true_and, Bool.or_eq_true]
  exact .inl (.inl hst)

theorem barAnswers_of_barFull (fn : Nat) : barAnswers s fn = true := by
  unfold barAnswers
  split
  · exact barNmc_of_barFull h
  · exact h

/-- While every block answers, the map alone says which register a word meets. -/
theorem openReg_of_barFull (fn off : Nat) : openReg s fn off = (barOffset fn off).bind regAt := by
  simp [openReg, blockOpen, h]

theorem barWrite_reg32 {fn off a r : Nat} (v : Nat) (hal : off % 4 = 0) (ha : barOffset fn off = some a) (hr : regAt a = some (r, 4)) :
    barWrite s fn off 4 v = writeReg s r (v % 2 ^ 32) (v % 2 ^ 32) := by
  simp [barWrite, barAnswers_of_barFull h, wordAccess, hal, writeWord, openReg_of_barFull h, ha, hr]

theorem barWrite_reg64 {fn off a r : Nat} (v : Nat) (hal : off % 8 = 0) (ha : barOffset fn off = some a) (hr : regAt a = some (r, 8)) :
    barWrite s fn off 8 v = writeReg s r v v := by
  have hopen : openReg s fn off = some (r, 8) := by rw [openReg_of_barFull h, ha]; exact hr
  have hword : wordAccess off 8 = true := by simp [wordAccess, hal]
  have hlong : writeLong s fn off v = writeReg s r v v := by
    unfold writeLong
    rw [hopen]
    cases openReg s fn (off + 4) <;> rfl
  simp [barWrite, barAnswers_of_barFull h, hword, hlong]

end full

/-! ### The answer of REGISTER_WRITE -/

theorem exec_registerWrite_eq (fn off bytes : Nat) (v : BitVec 64) (s : State) :
    exec (.registerWrite fn off bytes v) s = onUnit s (fnOk fn) (barWrite s fn off bytes v.toNat) := by
  rfl

/-- A write by a function that the node has answers its effect, where that keeps the queue of commands. -/
theorem exec_registerWrite_next {s t : State} {fn off bytes : Nat} {v : BitVec 64} (hfn : fn ≤ 64)
    (hw : barWrite s fn off bytes v.toNat = t) (hp : t.pending = s.pending) : exec (.registerWrite fn off bytes v) s = .next t := by
  rw [exec_registerWrite_eq, hw]
  exact onUnit_keep (by simpa [fnOk] using hfn) hp

/-! ### The tenants' pages -/

theorem pick_le {o : Nat} {r64 r32 : List Nat} {arr : List (Nat × Nat × Nat)} {r : Nat × Nat} (h : pick o r64 r32 arr = some r) : r.1 ≤ o := by
  unfold pick at h
  split at h
  · obtain rfl := Option.some.inj h
    exact Nat.div_mul_le_self o 8
  · split at h
    · obtain rfl := Option.some.inj h
      exact le_rfl
    · obtain ⟨a, -, rfl⟩ := Option.map_eq_some_iff.mp h
      exact Nat.div_mul_le_self o a.2.1

/-- A register of a tenant's page stands among its control registers or those of its 64 queues. -/
theorem tnReg_lt {o : Nat} {r : Nat × Nat} (h : tnReg o = some r) : r.1 < 0x100 + 32 * 64 := by
  unfold tnReg at h
  split at h
  · have := pick_le h
    omega
  · split at h
    · simp only at h
      split at h <;> obtain rfl := Option.some.inj h <;> simp only <;> omega
    · cases h

section page
variable {fn : Nat} (hfn : fn ≤ 64)
include hfn

theorem regAt_page {o : Nat} (ho : o < 4096) : regAt (0x200000 + 4096 * fn + o) = (tnReg o).map (fun x => (0x200000 + 4096 * fn + x.1, x.2)) := by
  have hblock : (0x200000 + 4096 * fn + o) / 2 ^ 20 = 0x2 := by omega
  have hword : (0x200000 + 4096 * fn + o) % 2 ^ 20 = 4096 * fn + o := by omega
  have hin : 4096 * fn + o < 4096 * 65 := by omega
  have hoff : (4096 * fn + o) % 4096 = o := by omega
  have hbase : 0x200000 + 4096 * fn + o - o = 0x200000 + 4096 * fn := by omega
  simp only [regAt, hblock, hword, if_pos hin, hoff, hbase]

theorem writeReg_page (s : State) {o : Nat} (ho : o < 4096) (m w : Nat) : writeReg s (0x200000 + 4096 * fn + o) m w = writeTn s fn o m w := by
  have hblock : (0x200000 + 4096 * fn + o) / 2 ^ 20 = 0x2 := by omega
  have hword : (0x200000 + 4096 * fn + o) % 2 ^ 20 = 4096 * fn + o := by omega
  have hpage : (4096 * fn + o) / 4096 = fn := by omega
  have hoff : (4096 * fn + o) % 4096 = o := by omega
  simp only [writeReg, hblock, hword, hpage, hoff]

end page

/-- A register that a virtual function's word meets stands in its own page (11 R377). -/
theorem openReg_vf {s : State} {fn off : Nat} {r : Nat × Nat} (h1 : 1 ≤ fn) (h64 : fn ≤ 64) (h : openReg s fn off = some r) :
    ∃ o, o < 0x100 + 32 * 64 ∧ r.1 = 0x200000 + 4096 * fn + o := by
  have hne : fn ≠ 0 := by omega
  simp only [openReg, barOffset, if_neg hne] at h
  split at h
  · rename_i hoff
    simp only [Option.bind_some] at h
    split at h
    · rw [regAt_page h64 hoff] at h
      obtain ⟨x, hx, rfl⟩ := Option.map_eq_some_iff.mp h
      exact ⟨x.1, tnReg_lt hx, rfl⟩
    · cases h
  · cases h

end Sys2Proof.Machine
end

section
/-! SUPPORT. The registers of the event log and of the tenants' events (11 R375; 13 R411, R412, R429, R430), and the statement about their writes. -/

namespace Sys2Proof.Machine

open Sys2Proof

/-- Releasing ALERT_n drives the pin where it was asserted, and does nothing else. -/
theorem setAlert_release (s : State) : setAlert s false =
    { s with pw := { s.pw with alertN := false }, out := if s.pw.alertN then s.out ++ [.pin 0 false] else s.out } := by
  unfold setAlert
  split
  · rename_i h
    have hpw : { s.pw with alertN := false } = s.pw := by rw [← h]
    simp [hpw, h]
  · rename_i h
    simp [emit, h]

/-- A write of HEAD changes HEAD, and ALERT_n with its pin. -/
theorem logHead_frame (s : State) (head : Nat) : ∃ o, logHead s head =
    { s with er := { s.er with head := head }, pw := { s.pw with alertN := if head = s.er.tail then false else s.pw.alertN }, out := o } := by
  unfold logHead
  split
  · exact ⟨_, setAlert_release _⟩
  · exact ⟨s.out, rfl⟩

/-- A row of one of the event log's own registers: the physical function's write has its effect. -/
theorem onUnit_pfWrite_pf {s t : State} {off : Nat} {eff : State → State} (h : barFull s = true) (he : eff s = t) (hp : t.pending = s.pending) :
    onUnit s (fnOk 0) (pfWrite s 0 off eff) = .next t := by
  rw [pfWrite_full off eff h, he]
  exact onUnit_keep rfl hp

/-- No other function's write has any (13 R429). -/
theorem onUnit_pfWrite_vf {s : State} {fn : Nat} (off : Nat) (eff : State → State) (h : barFull s = true) (h1 : 1 ≤ fn) (h64 : fn ≤ 64) :
    onUnit s (fnOk fn) (pfWrite s fn off eff) = .next s := by
  have hne : isPf fn = false := by simp [isPf]; omega
  have hs : pfWrite s fn off eff = s := by simp [pfWrite, h, hne]
  rw [hs]
  exact onUnit_keep (by simpa [fnOk] using h64) rfl

/-- ER_ACTION: each of its RW1C bits is cleared by a 1 and left by a 0 (R3, R430). -/
theorem writeReg_erAction (s : State) (v : BitVec 64) : writeReg s 0x400018 (v.toNat % 2 ^ 32) (v.toNat % 2 ^ 32) =
    { s with er := { s.er with
      thermalTrip := s.er.thermalTrip && !v.getLsbD 0, overcurrent := s.er.overcurrent && !v.getLsbD 1, retired := s.er.retired && !v.getLsbD 2 } } := by
  rw [← bit_lowWord v (k := 0) (by decide), ← bit_lowWord v (k := 1) (by decide), ← bit_lowWord v (k := 2) (by decide)]
  rfl

/-- TN_EVENTS of a tenant's page, in the same way (11 R375). -/
theorem writeTn_events (s : State) (t : Nat) (v : BitVec 64) : writeTn s t 0x8 (v.toNat % 2 ^ 32) (v.toNat % 2 ^ 32) =
    setT s t { getT s t with overrun := (getT s t).overrun && !v.getLsbD 0, aperture := (getT s t).aperture && !v.getLsbD 1 } := by
  rw [← bit_lowWord v (k := 0) (by decide), ← bit_lowWord v (k := 1) (by decide)]
  rfl

/-- Settles O9, by the effect of each row and the frames of ALERT_n's release. -/
theorem eventLogRegisterWrites : Obligations.EventLogRegisterWrites := by
  unfold Obligations.EventLogRegisterWrites
  refine ⟨fun s h => ?counters, fun s h => ?log, fun s head h => ?head, fun s fn head h1 h64 h => ?others, fun s v h => ?action, fun s fn v h1 h64 h => ?events⟩
  case counters => exact onUnit_pfWrite_pf h rfl rfl
  case log => exact ⟨_, onUnit_pfWrite_pf h (setAlert_release _) rfl, rfl, rfl, rfl, rfl⟩
  case head =>
    have hb : bits head.toNat 0 10 = head.toNat % 1024 := bits_zero ..
    obtain ⟨o, ho⟩ := logHead_frame s (bits head.toNat 0 10)
    rw [hb] at ho
    refine ⟨_, onUnit_pfWrite_pf h ((congrArg (logHead s) hb).trans ho) rfl, rfl, rfl, rfl⟩
  case others => exact ⟨onUnit_pfWrite_vf _ _ h h1 h64, onUnit_pfWrite_vf _ _ h h1 h64, onUnit_pfWrite_vf _ _ h h1 h64⟩
  case action =>
    have hreg : regAt 0x400018 = some (0x400018, 4) := by decide
    exact exec_registerWrite_next (by decide) ((barWrite_reg32 h _ (by decide) rfl hreg).trans (writeReg_erAction s v)) rfl
  case events =>
    have hne : fn ≠ 0 := by omega
    have ha : barOffset fn 0x8 = some (0x200000 + 4096 * fn + 0x8) := by simp [barOffset, hne]
    have hreg : regAt (0x200000 + 4096 * fn + 0x8) = some (0x200000 + 4096 * fn + 0x8, 4) := regAt_page h64 (by decide)
    refine exec_registerWrite_next h64 ((barWrite_reg32 h _ (by decide) ha hreg).trans ?_) rfl
    rw [writeReg_page h64 s (by decide)]
    exact writeTn_events s fn v

end Sys2Proof.Machine
end

section
/-! SUPPORT. What a virtual function's register writes may change (00 R10; 11 R377), how the log takes an access that meets no register (00 R7; 13 R410), and the statement about both. -/

namespace Sys2Proof.Machine

open Sys2Proof

/-! ### An access that meets no register -/

theorem barUnimplEvent_pw (s : State) (fn off : Nat) (w : Bool) :
    (barUnimplEvent s fn off w).pw = { s.pw with alertN := (barUnimplEvent s fn off w).pw.alertN } := raise_pw ..

theorem barUnimplEvent_qe (s : State) (fn off : Nat) (w : Bool) :
    (barUnimplEvent s fn off w).qe = { s.qe with msix := (barUnimplEvent s fn off w).qe.msix } := raise_qe ..

/-- Such an access changes the event log alone, and what signals it. -/
theorem barUnimplEvent_frame (s : State) (fn off : Nat) (w : Bool) :
    barUnimplEvent s fn off w = { s with
      er := (barUnimplEvent s fn off w).er, pw := { s.pw with alertN := (barUnimplEvent s fn off w).pw.alertN },
      qe := { s.qe with msix := (barUnimplEvent s fn off w).qe.msix }, out := (barUnimplEvent s fn off w).out } := by
  apply State.ext <;> simp
  · exact barUnimplEvent_pw ..
  · exact barUnimplEvent_qe ..

theorem barUnimplEvent_cnt (s : State) (fn off : Nat) (w : Bool) :
    tget 0 (barUnimplEvent s fn off w).er.cnt 0 = satAdd 64 (tget 0 s.er.cnt 0) 1 := by
  rw [barUnimplEvent, errEvent, raise_cnt_other _ _ _ _ _ _ _ _ _ (by decide)]
  simp [countUnit, cntEr, bump]

section room
variable {s : State} (h : (s.er.tail + 1) % 1024 ≠ s.er.head)
include h

theorem barUnimplEvent_record (fn off : Nat) (w : Bool) :
    tget {} (barUnimplEvent s fn off w).er.log s.er.tail = ⟨s.er.nextSeq, 0x0001, 2, fn, s.tempo, qeUnit, off, b2n w, fn⟩ :=
  raise_record (countUnit (cntEr s 0 1) qeUnit false off) _ _ _ _ _ _ _ h

theorem barUnimplEvent_tail (fn off : Nat) (w : Bool) : (barUnimplEvent s fn off w).er.tail = (s.er.tail + 1) % 1024 := by
  rw [barUnimplEvent, errEvent, raise_er_room (countUnit (cntEr s 0 1) qeUnit false off) _ _ _ _ _ _ _ h]
  rfl

end room

/-- BAR_UNIMPL of one word by the physical function is one such access. -/
theorem exec_barUnimpl_word {s : State} {off bytes : Nat} {w : Bool} (h : barNmc s = true) (hw : unimplWords s 0 off bytes = [off]) :
    exec (.barUnimpl 0 off bytes w) s = .next (barUnimplEvent s 0 off w) := by
  have heff : (if barAnswers s 0 then (unimplWords s 0 off bytes).foldl (fun a o => barUnimplEvent a 0 o w) s else s) = barUnimplEvent s 0 off w := by
    simp [barAnswers, h, hw]
  calc exec (.barUnimpl 0 off bytes w) s
      = onUnit s (fnOk 0) (if barAnswers s 0 then (unimplWords s 0 off bytes).foldl (fun a o => barUnimplEvent a 0 o w) s else s) := rfl
    _ = .next (barUnimplEvent s 0 off w) := by rw [heff]; exact onUnit_keep rfl (barUnimplEvent_pending ..)

/-! ### What a function's own page can change -/

/-- Between two states, no tenant but `fn` has other control state or queues, no descriptor was added, taken off or changed, and the blocks of the node are as they were, but for the event log and what signals it. -/
structure ConfinedTo (fn : Nat) (s t : State) : Prop where
  tenants : ∀ u, u ≠ fn → getT t u = getT s u
  queues : ∀ u q, u ≠ fn → q < 64 → getQ t (.tenant u q) = getQ s (.tenant u q)
  admin : getQ t .admin = getQ s .admin
  descs : t.qe.descs = s.qe.descs
  frame : t = { s with qe := t.qe, tenants := t.tenants, er := t.er, pw := { s.pw with alertN := t.pw.alertN }, out := t.out }

namespace ConfinedTo
variable {fn : Nat}

theorem refl (s : State) : ConfinedTo fn s s := ⟨fun _ _ => rfl, fun _ _ _ _ => rfl, rfl, rfl, rfl⟩

theorem trans {a b c : State} (h1 : ConfinedTo fn a b) (h2 : ConfinedTo fn b c) : ConfinedTo fn a c where
  tenants u hu := (h2.tenants u hu).trans (h1.tenants u hu)
  queues u q hu hq := (h2.queues u q hu hq).trans (h1.queues u q hu hq)
  admin := h2.admin.trans h1.admin
  descs := h2.descs.trans h1.descs
  frame := by
    have hb := h1.frame
    have hc := h2.frame
    rw [hb] at hc
    exact hc

theorem pending {s t : State} (h : ConfinedTo fn s t) : t.pending = s.pending := by rw [h.frame]

theorem barUnimplEvent (s : State) (f off : Nat) (w : Bool) : ConfinedTo fn s (barUnimplEvent s f off w) := by
  have hqe := barUnimplEvent_qe s f off w
  refine ⟨fun u _ => ?_, fun u q _ _ => ?_, ?_, ?_, ?_⟩
  · rw [getT, barUnimplEvent_tenants, getT]
  · rw [getQ, hqe, getQ]
  · rw [getQ, hqe, getQ]
  · rw [hqe]
  · apply State.ext <;> simp
    exact barUnimplEvent_pw ..

theorem setT (s : State) (v : Tenant) : ConfinedTo fn s (setT s fn v) :=
  ⟨fun _ hu => getT_setT_other s v hu, fun _ _ _ _ => rfl, rfl, rfl, rfl⟩

/-- Queues of different tenants stand at different places of the table. -/
theorem setQ (s : State) {k : Nat} (v : Queue) (hk : k < 64) : ConfinedTo fn s (setQ s (.tenant fn k) v) where
  tenants _ _ := rfl
  queues u q hu hq := tget_tset_other _ _ v (by omega)
  admin := rfl
  descs := rfl
  frame := rfl

theorem addRec (s : State) (r : Rec) : ConfinedTo fn s (addRec s r) :=
  ⟨fun _ _ => rfl, fun _ _ _ _ => rfl, rfl, rfl, rfl⟩

/-- A change of the waiting records alone. -/
theorem setRecs (s : State) (l : List Rec) : ConfinedTo fn s { s with qe := { s.qe with recs := l } } :=
  ⟨fun _ _ => rfl, fun _ _ _ _ => rfl, rfl, rfl, rfl⟩

section queue
variable (s : State) {k : Nat} (hk : k < 64)
include hk

theorem enterEnabled : ConfinedTo fn s (enterEnabled s (.tenant fn k)) :=
  (setQ s _ hk).trans (addRec _ _)

theorem disableQueue : ConfinedTo fn s (disableQueue s (.tenant fn k)) :=
  (setQ s _ hk).trans (setRecs _ _)

theorem enableQueue : ConfinedTo fn s (enableQueue s (.tenant fn k)) := by
  have hen := setQ (fn := fn) s { getQ s (.tenant fn k) with en := true } hk
  simp only [Machine.enableQueue]
  split
  · exact hen
  · split
    · exact hen.trans (enterEnabled _ hk)
    · exact hen.trans (setQ _ _ hk)

theorem stopQueue : ConfinedTo fn s (stopQueue s (.tenant fn k)) := by
  have hdis := setQ (fn := fn) s { getQ s (.tenant fn k) with en := false } hk
  simp only [Machine.stopQueue]
  split
  · split
    · exact hdis.trans (disableQueue _ hk)
    · exact hdis.trans (setQ _ _ hk)
  · split
    · exact hdis.trans (setQ _ _ hk)
    · exact hdis

theorem writeQueueCfg (cfg : Nat) (en : Bool) : ConfinedTo fn s (writeQueueCfg s (.tenant fn k) cfg en) := by
  have hcfg := setQ (fn := fn) s (cfgQueue (getQ s (.tenant fn k)) (.tenant fn k) cfg) hk
  simp only [Machine.writeQueueCfg]
  split
  · exact hcfg.trans (enableQueue _ hk)
  · exact hcfg.trans (stopQueue _ hk)

theorem writeCqBase (m : Nat) : ConfinedTo fn s (writeCqBase s (.tenant fn k) m) := by
  unfold Machine.writeCqBase
  split
  · exact setQ s _ hk
  · exact refl s

theorem writeHead (h : Nat) : ConfinedTo fn s (writeHead s (.tenant fn k) h) := setQ s _ hk

end queue

/-- Every register of a tenant's page, its control registers first, then those of its queues. -/
theorem writeTn (s : State) {o : Nat} (m w : Nat) (ho : o < 0x100 + 32 * 64) : ConfinedTo fn s (writeTn s fn o m w) := by
  simp only [Machine.writeTn]
  split
  · split
    · exact setT s _
    · exact setT s _
    · exact refl s
  · have hk : (o - 0x100) / 32 < 64 := by omega
    split
    · exact writeCqBase s hk m
    · exact writeQueueCfg s hk m _
    · exact writeHead s hk _
    · exact refl s

section vf
variable (h1 : 1 ≤ fn) (h64 : fn ≤ 64)
include h1 h64

/-- A register that the function's window shows. -/
theorem writeReg (s : State) {off m w : Nat} {r : Nat × Nat} (h : openReg s fn off = some r) : ConfinedTo fn s (writeReg s r.1 m w) := by
  obtain ⟨o, ho, hr⟩ := openReg_vf h1 h64 h
  rw [hr, writeReg_page h64 s (by omega)]
  exact writeTn s m w ho

theorem writeWord (s : State) (off v : Nat) : ConfinedTo fn s (writeWord s fn off v) := by
  unfold Machine.writeWord
  split
  · rename_i hr _
    split
    · exact writeReg h1 h64 s hr
    · exact writeReg h1 h64 s hr
  · exact barUnimplEvent ..

theorem writeLong (s : State) (off v : Nat) : ConfinedTo fn s (writeLong s fn off v) := by
  unfold Machine.writeLong
  split
  · exact barUnimplEvent ..
  · rename_i hr
    split
    · exact writeReg h1 h64 s hr
    · exact (writeWord h1 h64 s _ _).trans (writeWord h1 h64 _ _ _)
  · exact (writeWord h1 h64 s _ _).trans (writeWord h1 h64 _ _ _)

theorem barWrite (s : State) (off bytes v : Nat) : ConfinedTo fn s (barWrite s fn off bytes v) := by
  unfold Machine.barWrite
  split
  · exact refl s
  · split
    · exact barUnimplEvent ..
    · split
      · exact writeWord h1 h64 s _ _
      · exact writeLong h1 h64 s _ _

theorem registerWrite {s t : State} {off bytes : Nat} {v : BitVec 64} (h : exec (.registerWrite fn off bytes v) s = .next t) : ConfinedTo fn s t := by
  have hb := barWrite h1 h64 s off bytes v.toNat
  rw [exec_registerWrite_next h64 rfl hb.pending] at h
  obtain rfl := Host.Outcome.next.inj h
  exact hb

end vf
end ConfinedTo

/-- Settles O13: every write of a virtual function goes to its own page or to the log, and an access that meets no register is one event. -/
theorem registerAccessesStayConfined : Obligations.RegisterAccessesStayConfined := by
  unfold Obligations.RegisterAccessesStayConfined
  refine ⟨fun s t fn off bytes v h1 h64 hexec => ?virtual, fun s off bytes write hopen hword hroom => ?unimplemented⟩
  case virtual =>
    have h := ConfinedTo.registerWrite h1 h64 hexec
    exact ⟨fun u hu => ⟨h.tenants u hu, fun q hq => h.queues u q hu hq⟩, h.admin, h.descs, h.frame⟩
  case unimplemented =>
    exact ⟨_, exec_barUnimpl_word hopen hword, barUnimplEvent_cnt .., barUnimplEvent_record hroom .., barUnimplEvent_tail hroom .., barUnimplEvent_frame ..⟩

end Sys2Proof.Machine
end

section
/-! SUPPORT. The registers whose fields are RW and lie together from bit 0 (00 R5, R6; 01 R16): what a write makes them read as, and the statement about it. -/

namespace Sys2Proof.Machine

open Sys2Proof

/-- Offset, bytes, and the width of the fields together, of these registers. -/
def rwRegisters : List (Nat × Nat × Nat) :=
  [(0x000038, 4, 26), (0x400000, 4, 9), (0x400100, 4, 32), (0x600020, 4, 16), (0x600200, 4, 6), (0x700068, 4, 13),
   (0x700100, 4, 10), (0x800300, 8, 39), (0x800320, 4, 7), (0x900020, 4, 27), (0x900078, 4, 14), (0x901000, 4, 9), (0xA00000, 4, 4), (0xA00100, 4, 6)]

/-- The map gives each of them its offset and its bytes, and the fields fit. -/
theorem rwRegisters_map : ∀ r ∈ rwRegisters, regAt r.1 = some (r.1, r.2.1) ∧ r.1 % r.2.1 = 0 ∧ (r.2.1 = 4 ∧ r.2.2 ≤ 32 ∨ r.2.1 = 8) := by
  decide

/-- What a write of one of them may change: the blocks that hold such registers, and of those neither the log, the links, the channels, the objects, the Positions nor the vocabularies. -/
def SettingsOnly (s t : State) : Prop :=
  t = { s with nmc := t.nmc, er := t.er, fab := t.fab, fl := t.fl, ms := t.ms, bd := t.bd, ts := t.ts }
    ∧ t.er.log = s.er.log ∧ t.fab.links = s.fab.links ∧ t.fl.chans = s.fl.chans ∧ t.ms.objs = s.ms.objs
    ∧ t.bd.positions = s.bd.positions ∧ t.ts.vocabs = s.ts.vocabs

theorem SettingsOnly.pending {s t : State} (h : SettingsOnly s t) : t.pending = s.pending := by rw [h.1]

theorem writeReg_settingsOnly {off bytes width : Nat} (hmem : (off, bytes, width) ∈ rwRegisters) (s : State) (m w : Nat) :
    SettingsOnly s (writeReg s off m w) := by
  simp only [rwRegisters, List.mem_cons, List.not_mem_nil, or_false, Prod.mk.injEq] at hmem
  rcases hmem with ⟨rfl, -⟩ | ⟨rfl, -⟩ | ⟨rfl, -⟩ | ⟨rfl, -⟩ | ⟨rfl, -⟩ | ⟨rfl, -⟩ | ⟨rfl, -⟩ | ⟨rfl, -⟩ | ⟨rfl, -⟩ | ⟨rfl, -⟩ | ⟨rfl, -⟩ | ⟨rfl, -⟩ | ⟨rfl, -⟩ | ⟨rfl, -⟩
  all_goals exact ⟨rfl, rfl, rfl, rfl, rfl, rfl, rfl⟩

/-- ER_CTRL: IRQ_EN, VECTOR and ALERT_ALL. -/
theorem erCtrl_fields (m : Nat) : b2n (bit m 0) + fld (bits m 1 7) 1 + fld (b2n (bit m 8)) 8 = m % 2 ^ 9 := by
  rw [b2n_bit, b2n_bit, bits_add_fld_bits m 1 7, bits_add_fld_bits m 8 1, bits_zero]

theorem two_fields (m a b : Nat) : bits m 0 a + fld (bits m a b) a = m % 2 ^ (a + b) := by
  rw [bits_add_fld_bits, bits_zero]

/-- Read-back, register by register: one field, or fields side by side. -/
theorem regVal_writeReg {off bytes width : Nat} (hmem : (off, bytes, width) ∈ rwRegisters) (s : State) {m : Nat} (w : Nat) (hm : m < 2 ^ (8 * bytes)) :
    regVal (writeReg s off m w) off = m % 2 ^ width := by
  simp only [rwRegisters, List.mem_cons, List.not_mem_nil, or_false, Prod.mk.injEq] at hmem
  rcases hmem with ⟨rfl, rfl, rfl⟩ | ⟨rfl, rfl, rfl⟩ | ⟨rfl, rfl, rfl⟩ | ⟨rfl, rfl, rfl⟩ | ⟨rfl, rfl, rfl⟩ | ⟨rfl, rfl, rfl⟩ | ⟨rfl, rfl, rfl⟩
    | ⟨rfl, rfl, rfl⟩ | ⟨rfl, rfl, rfl⟩ | ⟨rfl, rfl, rfl⟩ | ⟨rfl, rfl, rfl⟩ | ⟨rfl, rfl, rfl⟩ | ⟨rfl, rfl, rfl⟩ | ⟨rfl, rfl, rfl⟩
  · exact bits_zero m 26
  · exact erCtrl_fields m
  · exact (Nat.mod_eq_of_lt hm).symm
  · exact bits_zero m 16
  · exact bits_zero m 6
  · exact bits_zero m 13
  · exact two_fields m 6 4
  · exact two_fields m 32 7
  · exact bits_zero m 7
  · exact bits_zero m 27
  · exact two_fields m 4 10
  · exact bits_zero m 9
  · exact bits_zero m 4
  · exact bits_zero m 6

/-- The physical function's write of one of them, as a write of its register with the bits that its bytes hold. -/
theorem barWrite_rwRegister {s : State} (h : barFull s = true) {off bytes width : Nat} (hmem : (off, bytes, width) ∈ rwRegisters) (v : BitVec 64) :
    ∃ m, barWrite s 0 off bytes v.toNat = writeReg s off m m ∧ m < 2 ^ (8 * bytes) ∧ m % 2 ^ width = v.toNat % 2 ^ width := by
  obtain ⟨hreg, hal, ⟨rfl, hw⟩ | rfl⟩ := rwRegisters_map _ hmem
  · refine ⟨v.toNat % 2 ^ 32, barWrite_reg32 h _ hal rfl hreg, Nat.mod_lt _ (by decide), ?_⟩
    exact Nat.mod_mod_of_dvd _ (pow_dvd_pow 2 hw)
  · exact ⟨v.toNat, barWrite_reg64 h _ hal rfl hreg, v.isLt, rfl⟩

/-- Settles O11, by the read-back and the frame of a write of the register. -/
theorem registerWriteReadsBack : Obligations.RegisterWriteReadsBack := by
  unfold Obligations.RegisterWriteReadsBack
  intro off bytes width hmem s v h
  obtain ⟨m, hbar, hlt, hmod⟩ := barWrite_rwRegister h hmem v
  have honly := writeReg_settingsOnly hmem s m m
  exact ⟨_, exec_registerWrite_next (by decide) hbar honly.pending, (regVal_writeReg hmem s m hlt).trans hmod, honly⟩

end Sys2Proof.Machine
end

section
/-! SUPPORT. What a step does with the queue of commands (01 R14, R17; log entries 1, 56), said once: the command at the front is taken off, and neither a command nor an idle tick reaches those behind it; and the statements about that. -/

namespace Sys2Proof.Machine

open Sys2Proof

/-! ### A command at the front -/

/-- Settles O1, by the definition of a step. -/
theorem stepRunsTheFrontCommand : Obligations.StepRunsTheFrontCommand := by
  unfold Obligations.StepRunsTheFrontCommand
  intro c rest s h
  rw [step, h]

/-- Every row's meaning is an effect on the units that its operands name, guarded by the row's own well-formedness. -/
theorem exec_eq_onUnit (c : Instr) (s : State) : ∃ t, exec c s = onUnit s (wellFormed c) t := by
  cases c <;> exact ⟨_, rfl⟩

/-- Every command answers a next state, and leaves those that wait as they were. -/
theorem exec_next (c : Instr) (s : State) : ∃ t, exec c s = .next t ∧ t.pending = s.pending := by
  obtain ⟨t, h⟩ := exec_eq_onUnit c s
  rw [h]
  exact onUnit_total s t (wellFormed c)

/-- An ill-formed command reaches nothing (log entry 56). -/
theorem exec_of_not_wellFormed {c : Instr} (h : wellFormed c = false) (s : State) : exec c s = .next s := by
  obtain ⟨t, ht⟩ := exec_eq_onUnit c s
  rw [ht, h, onUnit_absent]

/-! ### An idle tick -/

@[simp] theorem promoteDone_pending (s : State) (d : Desc) (unit : Nat) : (promoteDone s d unit).pending = s.pending := by simp [promoteDone]

@[simp] theorem recordRepairs_pending (s : State) : (recordRepairs s).pending = s.pending := by
  refine foldl_keeps (fun x => x.pending = s.pending) _ (fun x j h => ?_) _ s rfl
  dsimp only
  split
  · rw [promoteDone_pending]; exact h
  · exact h

@[simp] theorem tickRanks_pending (s : State) (n : Nat) : (tickRanks s n).pending = s.pending := by
  refine foldl_keeps (fun x => x.pending = s.pending) _ (fun x r h => ?_) _ s rfl
  dsimp only
  split
  · exact h
  · split <;> exact h

@[simp] theorem sendFlit_pending (s : State) (l kind seq : Nat) (payload : List Byte) : (sendFlit s l kind seq payload).pending = s.pending := rfl

@[simp] theorem returnIdle_pending (k : Nat) (s : State) (l : Nat) : (returnIdle k s l).pending = s.pending := by
  induction k generalizing s with
  | zero => rfl
  | succ k ih =>
    rw [returnIdle]
    split
    · rw [ih, sendFlit_pending]
    · rfl

@[simp] theorem idleFlits_pending (s : State) (n : Nat) : (idleFlits s n).pending = s.pending :=
  foldl_keeps (fun x => x.pending = s.pending) _ (fun _ _ h => (returnIdle_pending ..).trans h) _ s rfl

/-- A tempo tick that passes brings no command and takes none. -/
@[simp] theorem idleTick_pending (s : State) : (idleTick s).pending = s.pending := by
  simp only [idleTick]
  split
  · rfl
  · split
    · rfl
    · simp

/-! ### Every step -/

/-- A step answers a next state, from every state, and takes exactly the command at the front off the queue. -/
theorem step_next (s : State) : ∃ t, step s = .next t ∧ t.pending = s.pending.tail := by
  cases hq : s.pending with
  | nil => exact ⟨idleTick s, by rw [step, hq], by rw [idleTick_pending, hq, List.tail_nil]⟩
  | cons c rest =>
    rw [stepRunsTheFrontCommand c rest s hq]
    exact exec_next c _

/-- Settles O59: a step takes the front off a queue and adds nothing to it, so what it leaves is a part of a well-formed queue. -/
theorem everyStepKeepsTheQueueWellFormed : Obligations.EveryStepKeepsTheQueueWellFormed := by
  unfold Obligations.EveryStepKeepsTheQueueWellFormed
  refine ⟨fun s hwf => ?kept, fun s c rest hq hill => ?illFormed⟩
  case kept =>
    obtain ⟨t, hstep, hpend⟩ := step_next s
    refine ⟨t, hstep, hpend, fun c hc => hwf c ?_⟩
    rw [hpend] at hc
    exact List.mem_of_mem_tail hc
  case illFormed =>
    rw [stepRunsTheFrontCommand c rest s hq]
    exact exec_of_not_wellFormed hill _

end Sys2Proof.Machine
end

section
/-! SUPPORT. The rules of the Squares' state: what a context, a context slot and a rank read as after each operation (03 R65, R77, R81), and the statement about the placing of descriptors. -/

namespace Sys2Proof.Machine

open Sys2Proof

/-! ### A context, its Square and the others -/

theorem getCtx_setCtx_other (s : State) (n : Nat) {c k : Nat} (v : Ctx) (h : k ≠ c) : getCtx (setCtx s n c v) n k = getCtx s n k := by
  simp [getCtx, setCtx, tget_tset_other _ _ _ h]

theorem getSq_setCtx_other (s : State) {n m : Nat} (c : Nat) (v : Ctx) (h : m ≠ n) : getSq (setCtx s n c v) m = getSq s m :=
  getSq_setSq_other _ _ h

theorem getCtx_congr {s x : State} (h : x.squares = s.squares) (n c : Nat) : getCtx x n c = getCtx s n c := by
  simp only [getCtx, getSq, h]

/-! ### Free slots (03 R77) -/

/-- A free slot is the lowest of its range, on a Square that no castling holds still. -/
theorem freeSlot_some {s : State} {n lo hi c : Nat} (h : freeSlot s n lo hi = some c) :
    sqFrozen s n = false ∧ lo ≤ c ∧ c < hi ∧ ctxBusy (getCtx s n c) = false ∧ ∀ k, lo ≤ k → k < c → ctxBusy (getCtx s n k) = true := by
  unfold freeSlot at h
  split at h
  · cases h
  · rename_i hfrozen
    obtain ⟨hfree, i, hi, hc, hbefore⟩ := List.find?_eq_some_iff_getElem.mp h
    simp only [List.length_drop, List.length_range, List.getElem_drop, List.getElem_range] at hi hc hbefore
    refine ⟨by simpa using hfrozen, by omega, by omega, by simpa using hfree, fun k hlo hk => ?_⟩
    have hk' := hbefore (k - lo) (by omega)
    rw [Nat.add_sub_cancel' hlo] at hk'
    simpa using hk'

/-- Where there is none, every slot of the range is occupied, unless a castling holds the Square still. -/
theorem freeSlot_none {s : State} {n lo hi : Nat} (h : freeSlot s n lo hi = none) (hf : sqFrozen s n = false) {c : Nat} (hlo : lo ≤ c) (hhi : c < hi) :
    ctxBusy (getCtx s n c) = true := by
  rw [freeSlot, hf, if_neg (by decide), List.find?_eq_none] at h
  have hmem : c ∈ (List.range hi).drop lo := List.mem_drop_iff_getElem.mpr ⟨c - lo, by simp; omega, by simp; omega⟩
  simpa using h c hmem

/-- The first entry of a list, by number, for which `f` gives a value. -/
theorem findSome?_numbered {α β : Type} {f : Nat × α → Option β} {n : Nat} {l : List α} {b : β} (hn : n = l.length)
    (h : (List.zip (List.range n) l).findSome? f = some b) :
    ∃ i a, i < n ∧ l[i]? = some a ∧ f (i, a) = some b ∧ ∀ j x, j < i → l[j]? = some x → f (j, x) = none := by
  obtain ⟨l1, ⟨i, a⟩, l2, hl, hf, hbefore⟩ := List.findSome?_eq_some_iff.mp h
  have hat : (List.zip (List.range n) l)[l1.length]? = some (i, a) := by rw [hl]; simp
  obtain ⟨hi, ha⟩ := List.getElem?_zip_eq_some.mp hat
  obtain ⟨hlt, rfl⟩ : l1.length < n ∧ l1.length = i := by simpa [List.getElem?_eq_some_iff] using hi
  refine ⟨_, a, hlt, ha, hf, fun j x hj hx => hbefore _ ?_⟩
  have hjat : (List.zip (List.range n) l)[j]? = some (j, x) := List.getElem?_zip_eq_some.mpr ⟨List.getElem?_range (by omega), hx⟩
  rw [hl, List.getElem?_append_left hj] at hjat
  exact List.mem_of_getElem? hjat

/-! ### An occupied slot (03 R81) -/

section occupy
variable (s : State) (n c : Nat) (job : CtxJob) (t : Nat)

theorem getCtx_occupy : getCtx (occupy s n c job t) n c = { st := .ready, job := job, tenant := t } := getCtx_setCtx ..

theorem getSq_occupy_other {m : Nat} (h : m ≠ n) : getSq (occupy s n c job t) m = getSq s m := getSq_setSq_other _ _ h

/-- The rank's clock starts where it was stopped. -/
theorem clock_occupy : (getRank (occupy s n c job t) (rankOfSq n)).clock ≠ 0 := by
  rw [occupy, getRank_setRank]
  dsimp only
  split
  · decide
  · assumption

theorem getRank_occupy_other {r : Nat} (h : r ≠ rankOfSq n) : getRank (occupy s n c job t) r = getRank s r := getRank_setRank_other _ _ h

end occupy

/-! ### Placing a descriptor (03 R77, R94) -/

theorem waitingOf_some {s : State} {q : QId} {d : Desc} (h : waitingOf s q = some d) : d ∈ s.qe.descs ∧ d.q = q := by
  obtain ⟨x, hx, hd⟩ := Option.bind_eq_some_iff.mp h
  split at hd
  · obtain rfl := Option.some.inj hd
    have hq := List.find?_some hx
    simp only [Bool.and_eq_true, beq_iff_eq] at hq
    exact ⟨List.mem_of_find?_eq_some hx, hq.1.1⟩
  · cases hd

/-- The epoch at which a descriptor that is placed now reads (07 R186). -/
def entryEpoch (s : State) (d : Desc) : Nat := if descOp d = 0x01 ∨ descOp d = 0x02 then queryEpoch (moveOf s) else 0

/-- The descriptor as it stands in its entry context. -/
def enteredDesc (s : State) (n c : Nat) (d : Desc) : Desc := { d with phase := .placed n c, epoch := entryEpoch s d }

section place
variable {s : State} {t n c : Nat} {p : Position} {d : Desc} (hp : posOf s t = some p) (hslot : freeEntrySlot s p = some (n, c))
  (hd : (serviceOrder s t).findSome? (fun q => waitingOf s (.tenant t q)) = some d)
include hp hslot hd

/-- The tenant's next descriptor enters the slot, and its queue is the one last served. -/
theorem placeOne_placed : ∃ served, placeOne s t
    = { putDesc (occupy s n c (.entry d.q d.seq) t) (enteredDesc s n c d) with
        qe := { (putDesc (occupy s n c (.entry d.q d.seq) t) (enteredDesc s n c d)).qe with lastServed := served } } := by
  obtain ⟨q, -, hq⟩ := List.exists_of_findSome?_eq_some hd
  obtain ⟨-, hdq⟩ := waitingOf_some hq
  simp only [placeOne, hp, hslot, hd]
  split
  · exact ⟨_, rfl⟩
  · rename_i hadmin
    rw [hdq] at hadmin
    cases hadmin

end place

/-- Settles O7, by what the placing does with a slot, and what the search for the slot has passed over. -/
theorem descriptorTakesLowestEntrySlot : Obligations.DescriptorTakesLowestEntrySlot := by
  unfold Obligations.DescriptorTakesLowestEntrySlot
  refine ⟨fun s t n c p d hwf hp hslot hd => ?placed, fun s p n c hslot => ?lowest⟩
  case placed =>
    obtain ⟨served, hplaced⟩ := placeOne_placed hp hslot hd
    obtain ⟨q, -, hq⟩ := List.exists_of_findSome?_eq_some hd
    obtain ⟨hmem, -⟩ := waitingOf_some hq
    have hexec : exec (.descriptorPlace t) s = onUnit s (wellFormed (.descriptorPlace t)) (placeOne s t) := rfl
    rw [hplaced] at hexec
    refine ⟨_, hexec.trans (onUnit_keep hwf rfl), getCtx_occupy .., clock_occupy s n c (.entry d.q d.seq) t, ⟨enteredDesc s n c d, ?_, rfl, rfl, rfl, rfl⟩,
      fun m hm => getSq_occupy_other _ _ _ _ _ hm, fun r hr => getRank_occupy_other _ _ _ _ _ hr, rfl, rfl⟩
    exact List.mem_map.mpr ⟨d, hmem, if_pos rfl⟩
  case lowest =>
    obtain ⟨i, m, hi, hm, hc, hbefore⟩ := findSome?_numbered (by simp [carriers]) hslot
    obtain ⟨k, hk, hnc⟩ := Option.map_eq_some_iff.mp hc
    obtain ⟨rfl, rfl⟩ : m = n ∧ k = c := Prod.mk.inj hnc
    obtain ⟨-, -, hlt, hfree, hbusy⟩ := freeSlot_some hk
    refine ⟨i, hi, hm, hlt, hfree, fun c' hc' => hbusy c' (Nat.zero_le _) hc', fun j x hj hx hfrozen c' hc' => ?_⟩
    exact freeSlot_none (Option.map_eq_none_iff.mp (hbefore j x hj hx)) hfrozen (Nat.zero_le _) hc'

end Sys2Proof.Machine
end

section
/-! SUPPORT. How a PROMOTE starts its repair (13 R418 to R421; 03 R85; 09 R282; 10 R300), and the statement about PROMOTE. -/

namespace Sys2Proof.Machine

open Sys2Proof

/-! ### The answer of PROMOTE -/

/-- What a PROMOTE that passes its checks starts, by its KIND. -/
def repairOf (s : State) (d : Desc) : State :=
  match pKind d with
  | 1 => startCastling s d
  | 4 => promoteLane s d
  | 5 => promoteDie s d
  | _ => startRow s d

section promote
variable {s : State} {seq : Nat} {d : Desc} (hd : dueDesc s .admin seq 0x82 = some d)
include hd

theorem exec_promote_refused {st reason : Nat} (hf : promoteFails s d = some (st, reason)) : exec (.promote seq) s = .next (completeDetail s d st reason) := by
  have hexec : exec (.promote seq) s = onUnit s true (completeDetail s d st reason) := by
    change execPromote seq s = _
    simp only [execPromote, hd, hf]
  exact hexec.trans (onUnit_keep rfl (completeDetail_pend ..))

theorem exec_promote_started (hf : promoteFails s d = none) {t : State} (ht : repairOf s d = t) (hp : t.pending = s.pending) :
    exec (.promote seq) s = .next t := by
  have hexec : exec (.promote seq) s = onUnit s true (repairOf s d) := by
    change execPromote seq s = _
    simp only [execPromote, hd, hf]
    rfl
  rw [hexec, ht]
  exact onUnit_keep rfl hp

/-- A repair that completes at once touches only the queues. -/
theorem exec_promote_ended (hf : promoteFails s d = none) {st reason : Nat} (ht : repairOf s d = completeDetail s d st reason) :
    ∃ t, exec (.promote seq) s = .next t ∧ Completed s d st reason t ∧ OnlyQueues s t :=
  ⟨_, exec_promote_started hd hf ht (completeDetail_pend ..), completeDetail_completed .., completeDetail_only ..⟩

end promote

/-! ### A descriptor whose work runs -/

/-- The commit of a descriptor whose work starts (11 R359). -/
def started (s : State) (d : Desc) : State := putDesc (commit s d) { d with phase := .running }

theorem started_frame (s : State) (d : Desc) : started s d = { s with qe := (started s d).qe } := by
  apply State.ext <;> simp [started]

theorem started_recs (s : State) (d : Desc) : (started s d).qe.recs = s.qe.recs := by
  simp [started, putDesc, setDescs, commit]

/-! ### The kinds of repair -/

/-- A row repair waits for its switch (13 R422, R423). -/
theorem startRow_eq (s : State) (d : Desc) : startRow s d = { started s d with
    spare := { s.spare with jobs := s.spare.jobs ++ [{ seq := d.seq, square := pKind d == 2, target0 := pT0 d, target1 := pT1 d }] } } := by
  have h : (started s d).spare = s.spare := by rw [started_frame]
  rw [← h]
  rfl

section lane
variable {s : State} {d : Desc}

theorem promoteLane_used (h : (getLink s (bits (pT0 d) 0 5)).spareIn = true) : promoteLane s d = completeDetail s d stMalformed 0x10 := by
  simp only [promoteLane, h, if_true]

/-- The link whose lane is replaced retrains (10 R300). -/
theorem promoteLane_eq (h : (getLink s (bits (pT0 d) 0 5)).spareIn = false) :
    promoteLane s d = linkTo (setLink (started s d) (bits (pT0 d) 0 5) { getLink s (bits (pT0 d) 0 5) with promote := some d.seq }) (bits (pT0 d) 0 5) 3 0 := by
  simp only [promoteLane, h, Bool.false_eq_true, if_false]
  rfl

end lane

section die
variable {s : State} {d : Desc}

theorem promoteDie_none (h : (getCh s (bits (pT0 d) 0 6)).spare = false ∨ (getCh s (bits (pT0 d) 0 6)).migrated ≠ none) :
    promoteDie s d = completeDetail s d stMalformed 0x10 := by
  have hc : (!(getCh s (bits (pT0 d) 0 6)).spare || (getCh s (bits (pT0 d) 0 6)).migrated.isSome) = true := by
    rw [Bool.or_eq_true, Bool.not_eq_true', Option.isSome_iff_ne_none]
    exact h
  simp only [promoteDie, hc, if_true]

variable (hspare : (getCh s (bits (pT0 d) 0 6)).spare = true) (hmig : (getCh s (bits (pT0 d) 0 6)).migrated = none)
include hspare hmig

theorem promoteDie_full (h : goodBlocks (getCh s (bits (pT0 d) 0 6)) 8 < (superBlocksOn s (bits (pT0 d) 0 6) (bits (pT0 d) 8 3)).length) :
    promoteDie s d = completeDetail s d stNoRes 0x10 := by
  simp [promoteDie, hspare, hmig, h]

/-- The die's blocks are to migrate to the spare die (09 R282). -/
theorem promoteDie_eq (h : (superBlocksOn s (bits (pT0 d) 0 6) (bits (pT0 d) 8 3)).length ≤ goodBlocks (getCh s (bits (pT0 d) 0 6)) 8) :
    ∃ y : Channel, promoteDie s d = setCh (started s d) (bits (pT0 d) 0 6) { y with migrating := some (d.seq, bits (pT0 d) 8 3) } := by
  simp only [promoteDie, hspare, hmig, Bool.not_true, Option.isSome_none, Bool.or_false, Bool.false_eq_true, if_false, if_neg (Nat.not_lt.mpr h)]
  exact ⟨_, rfl⟩

end die

/-- What BD_CAST shows of a castling that has been asked for. -/
def castShown (s : State) (d : Desc) : State :=
  { s with bd := { s.bd with castDie := tDie (pT0 d), castFile := tFile (pT0 d), castRank := tRank (pT0 d), castRevert := pRevert d } }

/-- And of one that is refused. -/
def castRefused (s : State) (d : Desc) (e : Nat) : State :=
  { castShown s d with bd := { (castShown s d).bd with castFail := true, castReason := e } }

section castling
variable {s : State} {d : Desc}

theorem startCastling_refused {e : Nat} (h : castleFails s d = some e) :
    startCastling s d = completeDetail (castRefused s d e) d stMalformed e := by
  simp only [startCastling, h]
  rfl

/-- The castling waits for its boundary, with its rank's clock on (03 R86). -/
theorem startCastling_eq (h : castleFails s d = none) : ∃ (k : Rank) (bd : BdSt), k.clock ≠ 0
    ∧ bd.castling = some { seq := d.seq, die := tDie (pT0 d), file := tFile (pT0 d), rank := tRank (pT0 d), revert := pRevert d, phase := 1 }
    ∧ startCastling s d = { setRank (started (castShown s d) d) (rankIdx (tDie (pT0 d)) (tRank (pT0 d))) k with bd := bd } := by
  simp only [startCastling, h]
  refine ⟨_, _, ?_, rfl, rfl⟩
  dsimp only
  split
  · decide
  · assumption

end castling

/-- Settles O38: the first failing check, else the start of the repair of its kind. -/
theorem promoteAnswered : Obligations.PromoteAnswered := by
  unfold Obligations.PromoteAnswered
  intro s seq d hd
  refine ⟨fun st reason hf => ?refused, fun hf hk => ?row, fun hf hk => ⟨fun hs hst => ?lane, fun hs => ?laneUsed⟩,
    fun hf hk => ⟨fun hs hm hg => ?die, fun hs => ?dieNone, fun hs hm hg => ?dieFull⟩, fun hf hk => ⟨fun e he => ?castleRefused, fun he => ?castle⟩⟩
  case refused => exact ⟨_, exec_promote_refused hd hf, completeDetail_completed .., completeDetail_only ..⟩
  case row =>
    have ht : repairOf s d = startRow s d := by rcases hk with hk | hk <;> simp only [repairOf, hk]
    rw [startRow_eq, started_frame] at ht
    exact ⟨_, exec_promote_started hd hf ht rfl, rfl, started_recs s d, rfl⟩
  case lane =>
    have ht : repairOf s d = promoteLane s d := by simp only [repairOf, hk]
    have hst' : (getLink (setLink (started s d) (bits (pT0 d) 0 5) { getLink s (bits (pT0 d) 0 5) with promote := some d.seq }) (bits (pT0 d) 0 5)).st ≠ 3 := by
      rw [getLink_setLink]; exact hst
    have hfab : (started s d).fab = s.fab := by rw [started_frame]
    rw [promoteLane_eq hs] at ht
    refine ⟨_, exec_promote_started hd hf ht ?_, ?_, fun k hk => ?_, ?_⟩
    · rw [linkTo_frame, setLink_pending, started_frame]
    · rw [linkTo_link _ _ _ _ hst', getLink_setLink]; rfl
    · rw [linkTo_other _ _ _ _ _ hk, getLink_setLink_other _ _ hk, getLink, getLink, hfab]
    · rw [linkTo_frame]; exact started_recs s d
  case laneUsed =>
    have ht : repairOf s d = promoteLane s d := by simp only [repairOf, hk]
    rw [promoteLane_used hs] at ht
    exact exec_promote_ended hd hf ht
  case die =>
    have ht : repairOf s d = promoteDie s d := by simp only [repairOf, hk]
    obtain ⟨y, hy⟩ := promoteDie_eq hs hm hg
    rw [hy, started_frame] at ht
    refine ⟨_, exec_promote_started hd hf ht rfl, ?_, started_recs s d, rfl⟩
    rw [getCh_setCh]
  case dieNone =>
    have ht : repairOf s d = promoteDie s d := by simp only [repairOf, hk]
    rw [promoteDie_none hs] at ht
    exact exec_promote_ended hd hf ht
  case dieFull =>
    have ht : repairOf s d = promoteDie s d := by simp only [repairOf, hk]
    rw [promoteDie_full hs hm hg] at ht
    exact exec_promote_ended hd hf ht
  case castleRefused =>
    have ht : repairOf s d = startCastling s d := by simp only [repairOf, hk]
    rw [startCastling_refused he] at ht
    obtain ⟨hbd, -⟩ := completeWith_streams (castRefused s d e) d stMalformed 0 e 0 0 []
    refine ⟨_, exec_promote_started hd hf ht (completeDetail_pend ..), completedDetail_of d stMalformed e rfl rfl, ?_, ?_, ?_⟩
    all_goals (rw [completeDetail, hbd]; rfl)
  case castle =>
    have ht : repairOf s d = startCastling s d := by simp only [repairOf, hk]
    obtain ⟨k, bd, hclock, hbd, hcast⟩ := startCastling_eq he
    rw [hcast, started_frame] at ht
    refine ⟨_, exec_promote_started hd hf ht rfl, hbd, ?_, started_recs (castShown s d) d⟩
    have hrank : getRank (setRank s (rankIdx (tDie (pT0 d)) (tRank (pT0 d))) k) (rankIdx (tDie (pT0 d)) (tRank (pT0 d))) = k := getRank_setRank ..
    exact (congrArg Rank.clock hrank).trans_ne hclock

end Sys2Proof.Machine
end

section
/-! SUPPORT. The link ports: what an answer adds to a stream (10 R301, R306; log entry 58), and what a freed MESSAGE gives back (10 R302). -/

namespace Sys2Proof.Machine

open Sys2Proof

/-! ### Bytes of a packet -/

theorem packetHeader_length (p : Packet) : (packetHeader p).length = 32 := by simp [packetHeader, toLE_length, zeros]

theorem loadBytes_packet_length (p : Packet) : (loadBytes (.packet p)).length = 32 + p.data.length := by
  simp [loadBytes, packetBytes, packetHeader_length]

/-! ### Streams -/

theorem getStream_setStream_at (s : State) (o k a b : Nat) (v : StreamSt) :
    getStream (setStream s o k v) a b = if stKey a b = stKey o k then v else getStream s a b := tget_tset ..

/-- A token waits behind those of its stream, and no other stream changes. -/
theorem getStream_addToken (s : State) (o k a b : Nat) (x : Token) :
    getStream (addToken s o k x) a b = { getStream s a b with tokens := (getStream s a b).tokens ++ (if stKey a b = stKey o k then [x] else []) } := by
  rw [addToken, getStream_setStream_at]
  split
  · rename_i h
    have hs : getStream s a b = getStream s o k := by rw [getStream, getStream, h]
    rw [hs]
  · simp

theorem addToken_frame (s : State) (o k : Nat) (x : Token) : addToken s o k x = { s with bd := { s.bd with streams := (addToken s o k x).bd.streams } } := rfl

/-- The same state with other contents of its streams. -/
def withStreams (s : State) (st : Tab StreamSt) : State := { s with bd := { s.bd with streams := st } }

/-! ### What a reading rests on -/

theorem getStream_congr {s x : State} (h : x.bd.streams = s.bd.streams) (o k : Nat) : getStream x o k = getStream s o k := by
  rw [getStream, h, getStream]

theorem findObj_congr {s x : State} (h : x.ms = s.ms) (t k : Nat) : findObj x t k = findObj s t k := by
  rw [findObj, h, findObj]

/-! ### What the choice of a stream rests on -/

section paths
variable {s x : State} (hpos : x.bd.positions = s.bd.positions) (hlayer : x.bd.layer = s.bd.layer)
include hpos hlayer

theorem findStream_congr (o : Nat) (f : Nat → Stream → Bool) : findStream x o f = findStream s o f := by
  simp only [findStream, ownerStreams, posOf, hpos, hlayer]

theorem inStream_congr (o l cls : Nat) : inStream x o l cls = inStream s o l cls := findStream_congr hpos hlayer ..

theorem ownerRuns_congr (o : Nat) : ownerRuns x o = ownerRuns s o := by
  simp only [ownerRuns, posOf, hpos, hlayer]

theorem ownerStreams_congr (o : Nat) : ownerStreams x o = ownerStreams s o := by
  simp only [ownerStreams, posOf, hpos, hlayer]

/-- The link that carries an operation depends on the streams' table and the fabric's state alone. -/
theorem linkFor_congr (hfab : x.fab = s.fab) (o n hash : Nat) : linkFor x o n hash = linkFor s o n hash := by
  have hreq : hasReqStream x o = hasReqStream s o :=
    funext fun l => by simp only [hasReqStream, ownerRuns_congr hpos hlayer, ownerStreams_congr hpos hlayer]
  simp only [linkFor, pathSet, fabSeed, getLink, hreq, hfab, hlayer]

/-- What a freed MESSAGE gives back depends on the streams' table and on the links alone. -/
theorem freeMsg_congr (hlinks : x.fab.links = s.fab.links) (l : Nat) (m : Message) :
    freeMsg x l m = { x with fab := { x.fab with links := (freeMsg s l m).fab.links } } := by
  simp only [freeMsg, freePort, inStream_congr hpos hlayer]
  split
  · simp only [setLink, getLink, hlinks]
  · simp only [setLink, getLink, hlinks]
  · rw [← hlinks]

variable (hranks : x.ranks = s.ranks)
include hranks

omit hlayer in
theorem sqOfUnit_congr (o code : Nat) : sqOfUnit x o code = sqOfUnit s o code := by
  have hrank : ∀ r, getRank x r = getRank s r := fun r => by rw [getRank, hranks, getRank]
  have hcarrier : carrierOf x = carrierOf s := funext fun e => by simp only [carrierOf, hrank]
  unfold sqOfUnit
  simp only [posOf, carrierOfPhys, carriers, hcarrier, hrank, hpos]

theorem linkStream_congr (o l cls : Nat) (src : Option Nat) : linkStream x o l cls src = linkStream s o l cls src := by
  simp only [linkStream, findStream_congr hpos hlayer, ownerRuns_congr hpos hlayer, sqOfUnit_congr hpos hranks]

theorem answerStream_congr (t l : Nat) : answerStream x t l = answerStream s t l := by
  simp only [answerStream, linkStream_congr hpos hlayer hranks]

end paths

/-! ### Freed entries -/

theorem freeMsg_frame (s : State) (l : Nat) (m : Message) : freeMsg s l m = { s with fab := { s.fab with links := (freeMsg s l m).fab.links } } :=
  freeMsg_congr rfl rfl rfl l m

/-! ### Answers -/

section token
variable {s : State} {o l cls : Nat} {src : Option Nat} (ld : Load)

theorem linkToken_some {i : Nat} (h : linkStream s o l cls src = some i) :
    linkToken s o l cls src ld = (addToken s o i ⟨(loadBytes ld).length, ld⟩, true) := by rw [linkToken, h]

theorem linkToken_none (h : linkStream s o l cls src = none) : linkToken s o l cls src ld = (s, false) := by rw [linkToken, h]

end token

section reply
variable {s : State} {l : Nat} {p : Packet}

theorem reply_eq (s : State) (l : Nat) (p : Packet) (op sub : Nat) (data : List Byte) : reply s l p op sub data =
    if (linkToken s p.tenant l 2 none (answerLoad s p op sub data)).2 then (linkToken s p.tenant l 2 none (answerLoad s p op sub data)).1
    else (linkToken s 0x7F l 2 none (answerLoad s p op sub data)).1 := rfl

/-- A response waits on the stream that carries it. -/
theorem reply_some {x : Nat × Nat} (h : answerStream s p.tenant l = some x) (op sub : Nat) (data : List Byte) :
    reply s l p op sub data = addToken s x.1 x.2 ⟨32 + data.length, answerLoad s p op sub data⟩ := by
  have hlen : (loadBytes (answerLoad s p op sub data)).length = 32 + data.length := loadBytes_packet_length _
  unfold answerStream at h
  cases ht : linkStream s p.tenant l 2 none with
  | some i =>
    rw [ht] at h
    obtain rfl := Option.some.inj h
    rw [reply_eq, linkToken_some _ ht, hlen]
    rfl
  | none =>
    rw [ht] at h
    obtain ⟨i, hi, rfl⟩ := Option.map_eq_some_iff.mp h
    rw [reply_eq, linkToken_none _ ht, linkToken_some _ hi, hlen]
    rfl

/-- With no stream that leads back it is lost. -/
theorem reply_none (h : answerStream s p.tenant l = none) (op sub : Nat) (data : List Byte) : reply s l p op sub data = s := by
  unfold answerStream at h
  cases ht : linkStream s p.tenant l 2 none with
  | some i =>
    rw [ht] at h
    cases h
  | none =>
    rw [ht] at h
    rw [reply_eq, linkToken_none _ ht, linkToken_none _ (Option.map_eq_none_iff.mp h)]
    rfl

end reply

theorem reply_replied (s : State) (l : Nat) (p : Packet) (op sub : Nat) (data : List Byte) : Replied s (reply s l p op sub data) l p op sub data := by
  cases h : answerStream s p.tenant l with
  | some x =>
    rw [reply_some h]
    refine ⟨addToken_frame .., fun o k => ?_⟩
    simp only [getStream_addToken, h, Option.map_some, Option.some.injEq, eq_comm]
  | none =>
    rw [reply_none h]
    exact ⟨rfl, fun o k => by simp [h]⟩

/-- The answer is the same in every state with the same streams, ranks and node number. -/
theorem Replied.transport {s t x y : State} {l op sub : Nat} {p : Packet} {data : List Byte} (h : Replied s t l p op sub data)
    (hbd : x.bd = s.bd) (hranks : x.ranks = s.ranks) (hnode : x.fab.node = s.fab.node)
    (hy : y = { x with bd := { x.bd with streams := t.bd.streams } }) : Replied x y l p op sub data := by
  have hload : answerLoad x p op sub data = answerLoad s p op sub data := by rw [answerLoad, hnode, answerLoad]
  have hstream : answerStream x p.tenant l = answerStream s p.tenant l := answerStream_congr (by rw [hbd]) (by rw [hbd]) hranks ..
  have hx : ∀ o k, getStream x o k = getStream s o k := fun o k => by rw [getStream, hbd, getStream]
  have hyt : ∀ o k, getStream y o k = getStream t o k := fun o k => by rw [hy]; rfl
  refine ⟨by rw [hy], fun o k => ?_⟩
  rw [hyt, hx, hload, hstream]
  exact h.2 o k

/-- A MESSAGE whose entries are freed once it is answered. -/
theorem Replied.freeMsg {s t : State} {l op sub : Nat} {p : Packet} {data : List Byte} (h : Replied s t l p op sub data) (k : Nat) (m : Message) :
    Replied (freeMsg s k m) (freeMsg t k m) l p op sub data := by
  have ht := h.1
  have hfs := freeMsg_frame s k m
  have hft : Machine.freeMsg t k m = { t with fab := { t.fab with links := (Machine.freeMsg s k m).fab.links } } :=
    freeMsg_congr (by rw [ht]) (by rw [ht]) (by rw [ht]) k m
  refine h.transport (by rw [hfs]) (by rw [hfs]) (by rw [hfs]) ?_
  rw [hft, hfs]
  conv_lhs => rw [ht]

end Sys2Proof.Machine
end

section
/-! SUPPORT. MESSAGEs at the link ports (10 R315, R316, R332; 07 R217), and the statement about them. -/

namespace Sys2Proof.Machine

open Sys2Proof

/-! ### The command of each kind -/

/-- What a MESSAGE of each kind does where the port takes it. -/
def takenMsg (s : State) (l : Nat) (m : Message) : Nat → State
  | 2 => admitMsg s l m (fun x => noteReply x m.msgId m.body)
  | 3 => freeMsg (takeJournal s l m) l m
  | 4 => admitMsg s l m (fun x => ackJournal x m)
  | 5 => serveDelta s l m
  | _ => holdWork s l m

section kinds
variable (s : State) (l : Nat) (m : Message)

theorem takenMsg_list : takenMsg s l m 2 = admitMsg s l m (fun x => noteReply x m.msgId m.body) := rfl
theorem takenMsg_journal : takenMsg s l m 3 = freeMsg (takeJournal s l m) l m := rfl
theorem takenMsg_journalAck : takenMsg s l m 4 = admitMsg s l m (fun x => ackJournal x m) := rfl
theorem takenMsg_delta : takenMsg s l m 5 = serveDelta s l m := rfl
theorem takenMsg_work {n : Nat} (h : n = 1 ∨ n = 6 ∨ n = 7) : takenMsg s l m n = holdWork s l m := by rcases h with rfl | rfl | rfl <;> rfl

end kinds

/-- The commands of the seven kinds of MESSAGE. -/
def isMessageCmd (c : Instr) (l n : Nat) (m : Message) : Prop :=
  c = .queryMessage l m ∧ n = 1 ∨ c = .listMessage l m ∧ n = 2 ∨ c = .journalMessage l m ∧ n = 3 ∨ c = .journalAck l m ∧ n = 4
    ∨ c = .guardDelta l m ∧ n = 5 ∨ c = .scanSlice l m ∧ n = 6 ∨ c = .rerankMessage l m ∧ n = 7

section command
variable {s : State} {c : Instr} {l n : Nat} {m : Message} (hc : isMessageCmd c l n m) (hwf : wellFormed c = true)
include hc hwf

theorem exec_message : exec c s = .next { (if takesMessage s l n m then takenMsg s l m n else s) with pending := s.pending } := by
  have hexec : exec c s = onUnit s (wellFormed c) (if takesMessage s l n m then takenMsg s l m n else s) := by
    rcases hc with ⟨rfl, rfl⟩ | ⟨rfl, rfl⟩ | ⟨rfl, rfl⟩ | ⟨rfl, rfl⟩ | ⟨rfl, rfl⟩ | ⟨rfl, rfl⟩ | ⟨rfl, rfl⟩ <;> rfl
  exact hexec.trans (onUnit_ok hwf)

theorem exec_message_ignored (h : takesMessage s l n m = false) : exec c s = .next s := by
  rw [exec_message hc hwf, h]
  rfl

theorem exec_message_taken (h : takesMessage s l n m = true) {t : State} (ht : takenMsg s l m n = t) (hp : t.pending = s.pending) : exec c s = .next t := by
  rw [exec_message hc hwf, h, if_pos rfl, ht, ← hp]

/-- A MESSAGE that is answered and leaves the port. -/
theorem exec_message_replied (h : takesMessage s l n m = true) {x : State} {op sub : Nat} (ht : takenMsg s l m n = freeMsg (reply x l (msgPacket m) op sub []) l m) :
    ∃ t, exec c s = .next t ∧ Replied (freeMsg { x with pending := s.pending } l m) t l (msgPacket m) op sub [] := by
  refine ⟨{ freeMsg (reply x l (msgPacket m) op sub []) l m with pending := s.pending }, ?_, ?_⟩
  · rw [exec_message hc hwf, h, if_pos rfl, ht]
  · have hr := (reply_replied x l (msgPacket m) op sub []).freeMsg l m
    have hf := freeMsg_congr (s := x) (x := { x with pending := s.pending }) rfl rfl rfl l m
    refine hr.transport ?_ ?_ ?_ ?_
    · rw [hf, freeMsg_frame x]
    · rw [hf, freeMsg_frame x]
    · rw [hf, freeMsg_frame x]
    · conv_lhs => rw [hr.1]
      rw [hf, freeMsg_frame x]

/-- A MESSAGE whose answer leaves the rest of the node as it was. -/
theorem exec_message_answered (h : takesMessage s l n m = true) {op sub : Nat} (ht : takenMsg s l m n = freeMsg (reply s l (msgPacket m) op sub []) l m) :
    ∃ t, exec c s = .next t ∧ Replied (freeMsg s l m) t l (msgPacket m) op sub [] :=
  exec_message_replied hc hwf h ht

end command

/-! ### Refusals (10 R316; log entry 31) -/

section refused
variable {s : State} {l : Nat} {m : Message}

/-- Whatever its kind, a MESSAGE of a torn-down tenant is refused first. -/
theorem takenMsg_tornDown (h : (getT s m.tenant).tornDown = true) (n : Nat) : takenMsg s l m n = freeMsg (nackMsg s l m 3) l m := by
  unfold takenMsg
  split
  · simp only [admitMsg, h, if_true]
  · simp only [takeJournal, h, if_true]
  · simp only [admitMsg, h, if_true]
  · simp only [serveDelta, deltaObj, h, if_true]
  · simp only [holdWork, h, if_true]

variable (hup : (getT s m.tenant).tornDown = false)
include hup

/-- And then one of a tenant without a Position. -/
theorem takenMsg_noPosition (h : hasPos s m.tenant = false) (n : Nat) : takenMsg s l m n = freeMsg (nackMsg s l m 5) l m := by
  unfold takenMsg
  split
  · simp [admitMsg, hup, h]
  · simp [takeJournal, hup, h]
  · simp [admitMsg, hup, h]
  · simp [serveDelta, deltaObj, hup, h]
  · simp [holdWork, hup, h]

variable (hpos : hasPos s m.tenant = true)
include hpos

theorem admitMsg_eq (f : State → State) : admitMsg s l m f = freeMsg (f (ackMsg s l m)) l m := by
  simp [admitMsg, hup, hpos]

/-- Work for a serving context is acknowledged and held. -/
theorem holdWork_eq : holdWork s l m = { ackMsg s l m with
    fab := { s.fab with nextWork := s.fab.nextWork + 1, held := s.fab.held ++ [{ work := s.fab.nextWork, tenant := m.tenant, msg := m, link := l }] } } := by
  have hfab : (ackMsg s l m).fab = s.fab := reply_fab ..
  simp [holdWork, hup, hpos, hfab]

end refused

/-! ### A LIST reaches the request that asked (06 R169) -/

theorem wakeCtx_frame (s : State) (n c : Nat) : ∃ sq, wakeCtx s n c = { s with squares := sq } := by
  simp only [wakeCtx]
  split
  · exact ⟨_, rfl⟩
  · split
    · exact ⟨_, rfl⟩
    · exact ⟨s.squares, rfl⟩

theorem getCtx_wakeCtx {s : State} {n c : Nat} (h : (getCtx s n c).st = .waitStream) : getCtx (wakeCtx s n c) n c = { getCtx s n c with st := .ready } := by
  simp only [wakeCtx, h, if_true, getCtx_setCtx]

/-- Of what asks for a reply, only a GREAD does more than wake a context. -/
theorem wakeAsker_frame (s : State) {q : QId} (h : ∀ u, q ≠ .tenant u 66) (key : Nat) : ∃ sq, wakeAsker s q key = { s with squares := sq } := by
  have hself : ∃ sq, s = { s with squares := sq } := ⟨s.squares, rfl⟩
  unfold wakeAsker
  split
  · split
    · exact wakeCtx_frame ..
    · exact hself
  · exact absurd rfl (h _)
  · split
    · split
      · exact wakeCtx_frame ..
      · exact hself
    · exact hself

/-- The entry context of a descriptor wakes. -/
theorem wakeAsker_entry {s : State} {q : QId} {key k i : Nat} {d : Desc} (h64 : ∀ u, q ≠ .tenant u 64) (h66 : ∀ u, q ≠ .tenant u 66)
    (hd : findDesc s q key = some d) (hphase : d.phase = .placed k i) : wakeAsker s q key = wakeCtx s k i := by
  unfold wakeAsker
  split
  · exact absurd rfl (h64 _)
  · exact absurd rfl (h66 _)
  · simp only [hd, hphase]

/-- The questions of the node, with the reply to one of them. -/
def withReply (s : State) (msgId : Nat) (bs : List Byte) : State :=
  { s with fab := { s.fab with sent := s.fab.sent.map (fun x => if x.msgId = msgId then { x with reply := some bs } else x) } }

theorem noteReply_some {s : State} {msgId : Nat} {e : SentQuery} (h : s.fab.sent.find? (fun x => x.msgId == msgId) = some e) (bs : List Byte) :
    noteReply s msgId bs = wakeAsker (withReply s msgId bs) e.q e.seq := by
  simp only [noteReply, h]
  rfl

theorem noteReply_none {s : State} {msgId : Nat} (h : s.fab.sent.find? (fun x => x.msgId == msgId) = none) (bs : List Byte) : noteReply s msgId bs = s := by
  simp only [noteReply, h]

/-! ### A journalled write and its acknowledgement (07 R217) -/

theorem findIndex_putIndex (s : State) (i : Index) : findIndex (putIndex s i) i.tenant i.num = some i := by
  unfold putIndex
  split
  · rename_i h
    simp only [findIndex] at h ⊢
    generalize s.indexes = l at h ⊢
    induction l with
    | nil => simp at h
    | cons x r ih =>
      by_cases hx : x.tenant = i.tenant ∧ x.num = i.num
      · simp [hx]
      · have hb : (x.tenant == i.tenant && x.num == i.num) = false := by simpa using hx
        rw [List.find?_cons, hb] at h
        simp only [List.map_cons, if_neg hx, List.find?_cons, hb]
        exact ih h
  · rename_i h
    have hnone : s.indexes.find? (fun x => x.tenant == i.tenant && x.num == i.num) = none := by simpa [findIndex] using h
    simp [findIndex, List.find?_append, hnone]

theorem findIndex_key {s : State} {t n : Nat} {ix : Index} (h : findIndex s t n = some ix) : ix.tenant = t ∧ ix.num = n := by
  simpa using List.find?_some h

theorem mendBursts_frame (s : State) (o : Obj) (off n : Nat) : mendBursts s o off n =
    { s with ms := { s.ms with badBursts := (mendBursts s o off n).ms.badBursts, badRows := (mendBursts s o off n).ms.badRows } } := by
  unfold mendBursts
  split <;> rfl

theorem findObj_mendBursts (s : State) (o : Obj) (off n t k : Nat) : findObj (mendBursts s o off n) t k = findObj s t k := by
  rw [mendBursts_frame]
  rfl

section journal
variable (s : State) (o : Obj) (j n : Nat) (x : Mem)

theorem storeJournal_frame : ∃ ms, storeJournal s o j n x = { s with ms := ms } := by
  refine ⟨(storeJournal s o j n x).ms, ?_⟩
  apply State.ext <;> simp only [storeJournal] <;> (rw [mendBursts_frame, mendBursts_frame, mendBursts_frame]; simp)

theorem findObj_storeJournal : findObj (storeJournal s o j n x) o.tenant o.num = some { o with data := x } := by
  simp only [storeJournal, findObj_mendBursts]
  exact findObj_putObj s { o with data := x }

theorem findObj_storeJournal_other (t k : Nat) (h : t ≠ o.tenant ∨ k ≠ o.num) : findObj (storeJournal s o j n x) t k = findObj s t k := by
  simp only [storeJournal, findObj_mendBursts]
  exact findObj_putObj_other s { o with data := x } t k h

end journal

/-! ### A reply without a body -/

/-- The MESSAGE that answers another one with its envelope alone. -/
def bareReply (s : State) (m : Message) (kind : Nat) : Message :=
  { m with kind := kind, tag := s.fab.nextTag, srcDomain := s.fab.domain, srcNode := s.fab.node, dstNode := m.srcNode, dstDomain := m.srcDomain, body := [] }

/-- The entry of its timer (10 R322). -/
def replyReq (s : State) (m : Message) (k : Nat) : Req := ⟨s.fab.nextTag, m.tenant, m.srcNode, 5, k, 0, 0, .none, false⟩

theorem sendReplyMsg_bare {s : State} {m : Message} {k : Nat} (h : linkFor s m.tenant m.srcNode (m.srcNode * 2 ^ 40) = some k) (kind : Nat) :
    sendReplyMsg s m kind [] = (linkToken (addReq s (replyReq s m k)) m.tenant k 1 none (.part (bareReply s m kind) 0 64)).1 := by
  have hfits : ¬ messageMax < 64 + ([] : List Byte).length := by decide
  have hone : messageParts 64 = [(0, 64)] := by decide
  simp only [sendReplyMsg, h, if_neg hfits]
  exact congrArg (List.foldl _ _) hone

theorem sendReplyMsg_lost {s : State} {m : Message} (h : linkFor s m.tenant m.srcNode (m.srcNode * 2 ^ 40) = none) (kind : Nat) :
    sendReplyMsg s m kind [] = s := by
  have hfits : ¬ messageMax < 64 + ([] : List Byte).length := by decide
  simp only [sendReplyMsg, h, if_neg hfits]

/-- A token that a stream holds stays behind what another one puts there. -/
theorem mem_addToken {s : State} {o k a b : Nat} {y : Token} (x : Token) (h : y ∈ (getStream s a b).tokens) : y ∈ (getStream (addToken s o k x) a b).tokens := by
  rw [getStream_addToken]
  exact List.mem_append_left _ h

theorem mem_addToken_self (s : State) (o k : Nat) (x : Token) : x ∈ (getStream (addToken s o k x) o k).tokens := by
  rw [getStream_addToken]
  simp

/-! ### A JOURNAL record (07 R217, R218) -/

section takeJournal
variable {s : State} {l : Nat} {m : Message} (hup : (getT s m.tenant).tornDown = false) (hpos : hasPos s m.tenant = true)
include hup hpos

theorem takeJournal_noRing (hr : ringFor s m.srcNode = none) : takeJournal s l m = nackMsg s l m 1 := by
  simp [takeJournal, hup, hpos, hr]

variable {j : Nat} (hr : ringFor s m.srcNode = some j)
include hr

theorem takeJournal_noJournal (ho : ((findIndex s m.tenant m.index).bind (fun ix => ix.journal)).bind (findObj s m.tenant) = none) :
    takeJournal s l m = nackMsg s l m 2 := by
  simp [takeJournal, hup, hpos, hr, ho]

variable {o : Obj} (ho : ((findIndex s m.tenant m.index).bind (fun ix => ix.journal)).bind (findObj s m.tenant) = some o)
include ho

theorem takeJournal_full (hx : jAppend o.data j m.body = none) : takeJournal s l m = nackMsg s l m 6 := by
  simp [takeJournal, hup, hpos, hr, ho, hx]

theorem takeJournal_appended {x : Mem} (hx : jAppend o.data j m.body = some x) :
    takeJournal s l m = sendReplyMsg (ackMsg (storeJournal s o j m.body.length x) l m) m 4 [] := by
  simp [takeJournal, hup, hpos, hr, ho, hx]

end takeJournal

/-! ### A GUARD_DELTA (10 R332) -/

section delta
variable {s : State} {l : Nat} {m : Message} (hup : (getT s m.tenant).tornDown = false) (hpos : hasPos s m.tenant = true)
include hup hpos

theorem deltaObj_noSet (h : s.fab.group = none ∨ s.fab.guards.find? (fun x => x.1 == m.index && x.2.st != 0 && x.2.tenant == m.tenant) = none) :
    deltaObj s m = .error 2 := by
  simp only [deltaObj, hup, hpos, Bool.false_eq_true, if_false, Bool.not_true]
  rcases h with h | h
  · rw [h]
    cases (s.fab.guards.find? (fun x => x.1 == m.index && x.2.st != 0 && x.2.tenant == m.tenant)) <;> rfl
  · rw [h]
    rfl

variable {g : GroupCfg} {e : Nat × Guard} (hg : s.fab.group = some g)
  (he : s.fab.guards.find? (fun x => x.1 == m.index && x.2.st != 0 && x.2.tenant == m.tenant) = some e)
include hg he

theorem deltaObj_noObject (ho : findObj s m.tenant e.2.parObj = none) : deltaObj s m = .error 2 := by
  simp [deltaObj, hup, hpos, hg, he, ho]

variable {o : Obj} (ho : findObj s m.tenant e.2.parObj = some o)
include ho

theorem deltaObj_format (h : (guardMember g.gsize e.2.p g.pos (fieldAt m.body 0 4)).1 < guardK g.gsize e.2.p
      ∨ (guardMember g.gsize e.2.p g.pos (fieldAt m.body 0 4)).2 ≠ m.partition ∨ guardK g.gsize e.2.p ≤ fieldAt m.body 4 4
      ∨ m.body.length ≠ 8 + 16384 ∨ o.tier ≠ 3 ∨ o.size < (m.partition + 1) * 16384) :
    deltaObj s m = .error 1 := by
  simp only [deltaObj, hup, hpos, hg, he, ho, Bool.false_eq_true, if_false, Bool.not_true, Option.map_some]
  exact if_pos h

theorem deltaObj_ok (hrole : guardK g.gsize e.2.p ≤ (guardMember g.gsize e.2.p g.pos (fieldAt m.body 0 4)).1)
    (hunit : (guardMember g.gsize e.2.p g.pos (fieldAt m.body 0 4)).2 = m.partition) (hcol : fieldAt m.body 4 4 < guardK g.gsize e.2.p)
    (hlen : m.body.length = 8 + 16384) (htier : o.tier = 3) (hsize : (m.partition + 1) * 16384 ≤ o.size) :
    deltaObj s m = .ok (o, (guardMember g.gsize e.2.p g.pos (fieldAt m.body 0 4)).1 - guardK g.gsize e.2.p) := by
  simp only [deltaObj, hup, hpos, hg, he, ho, Bool.false_eq_true, if_false, Bool.not_true, Option.map_some]
  refine if_neg ?_
  simp only [pageBytes]
  omega

end delta

section serve
variable {s : State} {l : Nat} {m : Message}

theorem serveDelta_refused {c : Nat} (h : deltaObj s m = .error c) : serveDelta s l m = freeMsg (nackMsg s l m c) l m := by
  simp only [serveDelta, h]

variable {o : Obj} {parity : Nat} (h : deltaObj s m = .ok (o, parity))
include h

theorem serveDelta_held (hw : flashWait s = true) : serveDelta s l m = { s with fab := { s.fab with flashHeld := s.fab.flashHeld ++ [.delta l m] } } := by
  simp only [serveDelta, h, hw, if_true]
  rfl

variable (hw : flashWait s = false)
include hw

theorem serveDelta_unread {s1 : State} {st : Nat} (hr : readObj s o (m.partition * 16384) 16384 = (s1, .error st)) :
    serveDelta s l m = freeMsg (nackMsg s1 l m (causeOf st)) l m := by
  simp only [serveDelta, h, hw, Bool.false_eq_true, if_false, applyDelta, pageBytes, hr]

variable {s1 s2 : State} {old : List Byte} {w : Option Nat} (hr : readObj s o (m.partition * 16384) 16384 = (s1, .ok old))
  (hwr : writeObj s1 o (m.partition * 16384) (parityApply parity (fieldAt m.body 4 4) old (m.body.drop 8)) = (s2, w))
include hr hwr

theorem serveDelta_applied (hok : w = none) : serveDelta s l m = freeMsg (ackMsg s2 l m) l m := by
  subst hok
  simp only [serveDelta, h, hw, Bool.false_eq_true, if_false, applyDelta, pageBytes, hr, hwr]

theorem serveDelta_unwritten {st : Nat} (hf : w = some st) : serveDelta s l m = freeMsg (nackMsg s2 l m (causeOf st)) l m := by
  subst hf
  simp only [serveDelta, h, hw, Bool.false_eq_true, if_false, applyDelta, pageBytes, hr, hwr]

end serve

/-- A reply without a body adds to the requests and to one stream. -/
theorem sendReplyMsg_bare_frame (s : State) (m : Message) (kind : Nat) : ∃ st tag reqs,
    sendReplyMsg s m kind [] = { withStreams s st with fab := { s.fab with nextTag := tag, reqs := reqs } } := by
  cases h : linkFor s m.tenant m.srcNode (m.srcNode * 2 ^ 40) with
  | none => exact ⟨_, _, _, sendReplyMsg_lost h kind⟩
  | some k =>
    rw [sendReplyMsg_bare h]
    cases hi : linkStream (addReq s (replyReq s m k)) m.tenant k 1 none with
    | none =>
      rw [linkToken_none _ hi]
      exact ⟨_, _, _, rfl⟩
    | some i =>
      rw [linkToken_some _ hi]
      exact ⟨_, _, _, rfl⟩

/-- What a stream held before, it still holds. -/
theorem mem_sendReplyMsg_bare {s : State} {o i : Nat} {y : Token} (h : y ∈ (getStream s o i).tokens) (m : Message) (kind : Nat) :
    y ∈ (getStream (sendReplyMsg s m kind []) o i).tokens := by
  cases hk : linkFor s m.tenant m.srcNode (m.srcNode * 2 ^ 40) with
  | none => rwa [sendReplyMsg_lost hk]
  | some k =>
    rw [sendReplyMsg_bare hk]
    cases hi : linkStream (addReq s (replyReq s m k)) m.tenant k 1 none with
    | none => rwa [linkToken_none _ hi]
    | some j =>
      rw [linkToken_some _ hi]
      exact mem_addToken _ h

section sent
variable {s : State} {m : Message} {k : Nat} (hk : linkFor s m.tenant m.srcNode (m.srcNode * 2 ^ 40) = some k) (kind : Nat)
include hk

/-- The reply's timer has its entry. -/
theorem replyReq_mem_sendReplyMsg : replyReq s m k ∈ (sendReplyMsg s m kind []).fab.reqs := by
  rw [sendReplyMsg_bare hk, linkToken_fab]
  exact List.mem_append_right _ (List.mem_singleton_self _)

/-- And its packet waits on the stream that carries it. -/
theorem part_mem_sendReplyMsg {i : Nat} (hi : linkStream s m.tenant k 1 none = some i) :
    ∃ n, ⟨n, .part (bareReply s m kind) 0 64⟩ ∈ (getStream (sendReplyMsg s m kind []) m.tenant i).tokens := by
  have hi' : linkStream (addReq s (replyReq s m k)) m.tenant k 1 none = some i := (linkStream_congr rfl rfl rfl ..).trans hi
  rw [sendReplyMsg_bare hk, linkToken_some _ hi']
  exact ⟨_, mem_addToken_self ..⟩

end sent

/-! ### MESSAGEs that are taken -/

/-- The acknowledgement changes the streams alone. -/
theorem ackMsg_frame (s : State) (l : Nat) (m : Message) : ∃ st, ackMsg s l m = withStreams s st :=
  ⟨_, (reply_replied s l (msgPacket m) 9 0 []).1⟩

/-- The member's acknowledgement of the writes of one epoch. -/
def withAck (g : GroupCfg) (m : Message) (ix : Index) : Index :=
  { ix with writes := ix.writes.map (fun w => if w.epoch = m.epoch then
      { w with ack1 := w.ack1 || memberAt g (g.pos + 1) == m.srcNode, ack2 := w.ack2 || memberAt g (g.pos + 2) == m.srcNode } else w) }

theorem ackJournal_some {s : State} {m : Message} {g : GroupCfg} {ix : Index} (hg : s.fab.group = some g) (hix : findIndex s m.tenant m.index = some ix) :
    ackJournal s m = putIndex s (withAck g m ix) := by
  simp only [ackJournal, hg, hix]
  rfl

theorem putIndex_frame (s : State) (i : Index) : ∃ l, putIndex s i = { s with indexes := l } := by
  unfold putIndex
  split
  · exact ⟨_, rfl⟩
  · exact ⟨_, rfl⟩

section taken
variable {s : State} {c : Instr} {l n : Nat} {m : Message} (hc : isMessageCmd c l n m) (hwf : wellFormed c = true) (htakes : takesMessage s l n m = true)
  (hup : (getT s m.tenant).tornDown = false) (hpos : hasPos s m.tenant = true)
include hc hwf htakes hup hpos

theorem exec_message_held (hn : n = 1 ∨ n = 6 ∨ n = 7) : ∃ t, exec c s = .next t
    ∧ t.fab = { s.fab with nextWork := s.fab.nextWork + 1, held := s.fab.held ++ [{ work := s.fab.nextWork, tenant := m.tenant, msg := m, link := l }] }
    ∧ Replied { s with fab := t.fab } t l (msgPacket m) 9 0 [] := by
  have hwork := takenMsg_work s l m hn
  have hack : Replied s (ackMsg s l m) l (msgPacket m) 9 0 [] := reply_replied ..
  obtain ⟨st, hst⟩ := ackMsg_frame s l m
  rw [holdWork_eq hup hpos, hst] at hwork
  rw [hst] at hack
  exact ⟨_, exec_message_taken hc hwf htakes hwork rfl, rfl, hack.transport rfl rfl rfl rfl⟩

theorem exec_list_taken (hn : n = 2) {e : SentQuery} (he : s.fab.sent.find? (fun x => x.msgId == m.msgId) = some e) (h66 : ∀ u, e.q ≠ .tenant u 66) :
    ∃ t, exec c s = .next t
      ∧ t.fab = { (freeMsg s l m).fab with sent := s.fab.sent.map (fun x => if x.msgId = m.msgId then { x with reply := some m.body } else x) }
      ∧ (∀ d k i, e.q = d.q → (∀ v, e.q ≠ .tenant v 64) → findDesc s d.q e.seq = some d → d.phase = .placed k i → (getCtx s k i).st = .waitStream →
          getCtx t k i = { getCtx s k i with st := .ready })
      ∧ Replied { s with fab := t.fab, squares := t.squares } t l (msgPacket m) 9 0 [] := by
  subst hn
  have hack : Replied s (ackMsg s l m) l (msgPacket m) 9 0 [] := reply_replied ..
  obtain ⟨st, hst⟩ := ackMsg_frame s l m
  obtain ⟨sq, hwake⟩ := wakeAsker_frame (withReply (ackMsg s l m) m.msgId m.body) h66 e.seq
  rw [hst] at hack hwake
  have hlist : takenMsg s l m 2 = freeMsg { withReply (withStreams s st) m.msgId m.body with squares := sq } l m := by
    rw [takenMsg_list, admitMsg_eq hup hpos, hst, noteReply_some (s := withStreams s st) he, hwake]
  replace hlist := hlist.trans (freeMsg_congr (s := s) (by rfl) (by rfl) (by rfl) l m)
  refine ⟨_, exec_message_taken hc hwf htakes hlist rfl, ?_, fun d k i hq h64 hd hphase hst' => ?_, hack.transport rfl rfl ?_ rfl⟩
  · rw [freeMsg_frame s]
    rfl
  · rw [hq] at hwake h64 h66
    rw [wakeAsker_entry (s := withReply (withStreams s st) m.msgId m.body) h64 h66 hd hphase] at hwake
    rw [getCtx_congr (s := wakeCtx (withReply (withStreams s st) m.msgId m.body) k i) (by rw [hwake])]
    exact getCtx_wakeCtx hst'
  · rfl

theorem exec_list_unasked (hn : n = 2) (he : s.fab.sent.find? (fun x => x.msgId == m.msgId) = none) :
    ∃ t, exec c s = .next t ∧ Replied (freeMsg s l m) t l (msgPacket m) 9 0 [] := by
  subst hn
  refine exec_message_answered hc hwf htakes ?_
  obtain ⟨st, hst⟩ := ackMsg_frame s l m
  rw [takenMsg_list, admitMsg_eq hup hpos, hst, noteReply_none (s := withStreams s st) he, ← hst]
  rfl

theorem exec_journalAck_taken (hn : n = 4) {g : GroupCfg} {ix : Index} (hg : s.fab.group = some g) (hix : findIndex s m.tenant m.index = some ix) :
    ∃ t, exec c s = .next t
      ∧ findIndex t m.tenant m.index = some { ix with writes := ix.writes.map (fun w => if w.epoch = m.epoch then
          { w with ack1 := w.ack1 || memberAt g (g.pos + 1) == m.srcNode, ack2 := w.ack2 || memberAt g (g.pos + 2) == m.srcNode } else w) }
      ∧ Replied (freeMsg { s with indexes := t.indexes } l m) t l (msgPacket m) 9 0 [] := by
  subst hn
  have hack : Replied s (ackMsg s l m) l (msgPacket m) 9 0 [] := reply_replied ..
  obtain ⟨st, hst⟩ := ackMsg_frame s l m
  rw [hst] at hack
  have hmark : takenMsg s l m 4 = freeMsg (putIndex (withStreams s st) (withAck g m ix)) l m := by
    rw [takenMsg_journalAck, admitMsg_eq hup hpos, hst, ackJournal_some (s := withStreams s st) hg hix]
  obtain ⟨li, hput⟩ := putIndex_frame (withStreams s st) (withAck g m ix)
  obtain ⟨ht, hn⟩ := findIndex_key hix
  have hfound : findIndex (putIndex (withStreams s st) (withAck g m ix)) m.tenant m.index = some (withAck g m ix) := by
    rw [← ht, ← hn]
    exact findIndex_putIndex (withStreams s st) (withAck g m ix)
  rw [hput] at hmark hfound
  replace hmark := hmark.trans (freeMsg_congr (s := s) (by rfl) (by rfl) (by rfl) l m)
  have hans : Replied { s with indexes := li } { withStreams s st with indexes := li } l (msgPacket m) 9 0 [] := hack.transport rfl rfl rfl rfl
  refine ⟨_, exec_message_taken hc hwf htakes hmark rfl, hfound, ?_⟩
  have hfreed := hans.freeMsg l m
  rw [freeMsg_congr (s := s) (x := { withStreams s st with indexes := li }) rfl rfl rfl] at hfreed
  exact hfreed

omit hup hpos in
theorem exec_journal_refused (hn : n = 3) {cause : Nat} (h : takeJournal s l m = nackMsg s l m cause) :
    ∃ t, exec c s = .next t ∧ Replied (freeMsg s l m) t l (msgPacket m) 0xA cause [] := by
  subst hn
  refine exec_message_answered hc hwf htakes ?_
  rw [takenMsg_journal, h]
  rfl

theorem exec_journal_appended (hn : n = 3) {j : Nat} {o : Obj} {x : Mem} (hr : ringFor s m.srcNode = some j)
    (ho : ((findIndex s m.tenant m.index).bind (fun ix => ix.journal)).bind (findObj s m.tenant) = some o) (hx : jAppend o.data j m.body = some x) :
    ∃ t, exec c s = .next t
      ∧ findObj t o.tenant o.num = some { o with data := x } ∧ (∀ u k, u ≠ o.tenant ∨ k ≠ o.num → findObj t u k = findObj s u k)
      ∧ (∀ y i, answerStream s m.tenant l = some (y, i) → ⟨32, answerLoad s (msgPacket m) 9 0 []⟩ ∈ (getStream t y i).tokens)
      ∧ (∀ k, linkFor s m.tenant m.srcNode (m.srcNode * 2 ^ 40) = some k →
        replyReq s m k ∈ t.fab.reqs
        ∧ ∀ i, linkStream s m.tenant k 1 none = some i → ∃ n, ⟨n, .part (bareReply s m 4) 0 64⟩ ∈ (getStream t m.tenant i).tokens)
      ∧ t.out = s.out ∧ t.squares = s.squares ∧ t.qe = s.qe ∧ t.indexes = s.indexes ∧ t.hostMem = s.hostMem := by
  subst hn
  obtain ⟨ms, hstore⟩ := storeJournal_frame s o j m.body.length x
  obtain ⟨st, hst⟩ := ackMsg_frame (storeJournal s o j m.body.length x) l m
  have hfresh := takeJournal_appended (l := l) hup hpos hr ho hx
  have hobj := findObj_storeJournal s o j m.body.length x
  have hother := findObj_storeJournal_other s o j m.body.length x
  have hack : ∀ y i, answerStream s m.tenant l = some (y, i) →
      ⟨32, answerLoad s (msgPacket m) 9 0 []⟩ ∈ (getStream (ackMsg (storeJournal s o j m.body.length x) l m) y i).tokens := by
    intro y i h
    have h' : answerStream (storeJournal s o j m.body.length x) (msgPacket m).tenant l = some (y, i) := by
      rw [hstore]
      exact (answerStream_congr rfl rfl rfl ..).trans h
    rw [ackMsg, reply_some h', hstore]
    exact mem_addToken_self ..
  rw [hst] at hack hfresh
  rw [hstore] at hack hfresh hobj hother
  obtain ⟨st', tag, reqs, hsend⟩ := sendReplyMsg_bare_frame (withStreams { s with ms := ms } st) m 4
  have hend : takenMsg s l m 3 = freeMsg (sendReplyMsg (withStreams { s with ms := ms } st) m 4 []) l m := by rw [takenMsg_journal, hfresh]
  have hlink : linkFor (withStreams { s with ms := ms } st) m.tenant m.srcNode (m.srcNode * 2 ^ 40) = linkFor s m.tenant m.srcNode (m.srcNode * 2 ^ 40) :=
    linkFor_congr rfl rfl rfl ..
  have hstream : ∀ k, linkStream (withStreams { s with ms := ms } st) m.tenant k 1 none = linkStream s m.tenant k 1 none :=
    fun k => linkStream_congr rfl rfl rfl ..
  have hkept := fun y i h => mem_sendReplyMsg_bare (hack y i h) m 4
  have hreq := fun k h => replyReq_mem_sendReplyMsg (k := k) (hlink.trans h) 4
  have hpart := fun k h i hi => part_mem_sendReplyMsg (k := k) (i := i) (hlink.trans h) 4 ((hstream k).trans hi)
  rw [freeMsg_frame] at hend
  generalize sendReplyMsg (withStreams { s with ms := ms } st) m 4 [] = r at hend hsend hkept hreq hpart
  refine ⟨_, exec_message_taken hc hwf htakes hend (by rw [hsend]; rfl), ?_, fun u k h => ?_, fun y i h => hkept y i h,
    fun k hk => ⟨hreq k hk, fun i hi => hpart k hk i hi⟩, ?_, ?_, ?_, ?_, ?_⟩
  · rw [← hobj]
    exact findObj_congr (by rw [hsend]; rfl) ..
  · rw [← hother u k h]
    exact findObj_congr (by rw [hsend]; rfl) ..
  all_goals (rw [hsend]; rfl)

end taken

/-! ### A GUARD_DELTA that is taken -/

theorem isMessageCmd_delta (l : Nat) (m : Message) : isMessageCmd (.guardDelta l m) l 5 m := .inr (.inr (.inr (.inr (.inl ⟨rfl, rfl⟩))))

theorem exec_delta_refused {s : State} {l : Nat} {m : Message} (hwf : wellFormed (.guardDelta l m) = true) (htakes : takesMessage s l 5 m = true) {cause : Nat}
    (h : deltaObj s m = .error cause) : ∃ t, exec (.guardDelta l m) s = .next t ∧ Replied (freeMsg s l m) t l (msgPacket m) 0xA cause [] :=
  exec_message_answered (isMessageCmd_delta l m) hwf htakes ((takenMsg_delta s l m).trans (serveDelta_refused h))

/-- Settles O58: each kind of MESSAGE is refused, held, or answered and freed, as its own lemma above says. -/
theorem messagesTakenAndAnswered : Obligations.MessagesTakenAndAnswered := by
  unfold Obligations.MessagesTakenAndAnswered
  refine ⟨fun s l n m c hc hwf => ⟨fun h => ?ignored, fun h hdown => ?tornDown, fun h hup hno => ?noPosition, fun h hup hpos =>
      ⟨fun hn => ?held, fun e hn he h66 => ?listAsked, fun hn he => ?listUnasked, fun g ix hn hg hix => ?journalAck, fun hn hr => ?noRing,
        fun j hn hr ho => ?noJournal, fun j o hn hr ho => ⟨fun hx => ?ringFull, fun x hx => ?appended⟩⟩⟩,
    fun s l m hwf h hup hpos => ⟨fun hset => ?noSet, fun g e role k hg he hrole hk => ⟨fun ho => ?noObject, fun o ho =>
      ⟨fun hbad => ?format, fun h1 h2 h3 h4 h5 h6 => ⟨fun hw => ?waits, fun s1 v hw hr => ⟨fun st hv => ?unread, fun old s2 w hv hwr => ?written⟩⟩⟩⟩⟩⟩
  case ignored => exact exec_message_ignored hc hwf h
  case tornDown => exact exec_message_answered hc hwf h (takenMsg_tornDown hdown n)
  case noPosition => exact exec_message_answered hc hwf h (takenMsg_noPosition hup hno n)
  case held => exact exec_message_held hc hwf h hup hpos hn
  case listAsked => exact exec_list_taken hc hwf h hup hpos hn he h66
  case listUnasked => exact exec_list_unasked hc hwf h hup hpos hn he
  case journalAck => exact exec_journalAck_taken hc hwf h hup hpos hn hg hix
  case noRing => exact exec_journal_refused hc hwf h hn (takeJournal_noRing hup hpos hr)
  case noJournal => exact exec_journal_refused hc hwf h hn (takeJournal_noJournal hup hpos hr ho)
  case ringFull => exact exec_journal_refused hc hwf h hn (takeJournal_full hup hpos hr ho hx)
  case appended => exact exec_journal_appended hc hwf h hup hpos hn hr ho hx
  case noSet => exact exec_delta_refused hwf h (deltaObj_noSet hup hpos hset)
  case noObject => exact exec_delta_refused hwf h (deltaObj_noObject hup hpos hg he ho)
  case format =>
    subst hrole hk
    exact exec_delta_refused hwf h (deltaObj_format hup hpos hg he ho hbad)
  all_goals
    subst hrole hk
    have hok := deltaObj_ok hup hpos hg he ho h1 h2 h3 h4 h5 h6
  case waits =>
    exact exec_message_taken (isMessageCmd_delta l m) hwf h ((takenMsg_delta s l m).trans (serveDelta_held hok hw)) rfl
  case unread =>
    subst hv
    exact exec_message_replied (isMessageCmd_delta l m) hwf h ((takenMsg_delta s l m).trans (serveDelta_unread hok hw hr))
  case written =>
    subst hv
    cases w with
    | none =>
      obtain ⟨t, ht, hrep⟩ := exec_message_replied (isMessageCmd_delta l m) hwf h ((takenMsg_delta s l m).trans (serveDelta_applied hok hw hr hwr rfl))
      exact ⟨t, ht, fun _ => hrep, fun _ hst => absurd hst (by simp)⟩
    | some st =>
      obtain ⟨t, ht, hrep⟩ := exec_message_replied (isMessageCmd_delta l m) hwf h ((takenMsg_delta s l m).trans (serveDelta_unwritten hok hw hr hwr rfl))
      refine ⟨t, ht, fun hnone => absurd hnone (by simp), fun st' hst => ?_⟩
      obtain rfl := Option.some.inj hst
      exact hrep

end Sys2Proof.Machine
end

section
/-! SUPPORT. Where the statement about returning elements fails (03 R70, R78). -/

namespace Sys2Proof.Machine

open Sys2Proof

namespace FaultedPly

/-- An element of 8 bytes of object 5 whose request has left and whose data has come. -/
def waiting : Elem := { bytes := 8, addr := .object 5 0, dst := 0, tag := none, left := true, due := 0, returned := false, fault := 0, data := [] }

/-- An element of the same ply that no path has carried (10 R314): it has returned with FAULT_REMOTE. -/
def faulted : Elem := { waiting with addr := .remote 0, returned := true, fault := 0x22 }

def object : Obj := { tenant := 1, num := 5, type := 1, tier := 0, raw := false, size := 65536 }

/-- The request whose entry context reads: a SEARCH that still may act. -/
def request : Desc := { n := 0, q := .tenant 1 0, tenant := 1, seq := 0, bytes := [1], phase := .placed 0 0 }

/-- Its context waits for the second element of its ply. -/
def context : Ctx := { st := .waitMem, job := .entry (.tenant 1 0) 0, tenant := 1, elems := [(0, waiting), (1, faulted)] }

def state : State :=
  { squares := [(0, { ctxs := [(0, context)] })], ms := { objs := [object] },
    qe := { descs := [request], queues := [(64, { tt := [(0, { st := .pending })] })] } }

/-- The element as it returns. -/
def returned : Elem := { waiting with returned := true, fault := 0, data := memRead object.data 0 8 }

/-- With it the ply is complete, and its fault ends the request: a record waits (R78). -/
theorem record_waits : ∃ t, exec (.readElementReturn 0 0 0 0 .data) state = .next t ∧ t.qe.recs.length = 1 :=
  ⟨_, rfl, by decide +kernel⟩

end FaultedPly

/-- Refutes O48: the first clause says that an element which returns with its data changes only its Square and the questions that are dropped, but an element that returned with a fault before it ends the context with it, and the queue engine takes the record. -/
theorem not_readElementsAndServing : ¬ Obligations.ReadElementsAndServing := by
  unfold Obligations.ReadElementsAndServing
  rintro ⟨hreturn, -⟩
  obtain ⟨t, hexec, hframe, -⟩ := hreturn FaultedPly.state 0 0 0 0 FaultedPly.waiting FaultedPly.returned FaultedPly.object 5 0
    (by decide) (by decide) (by decide) (by decide) (by decide) (by decide) (by decide) (by decide) (by decide) (by decide) (by decide) (by decide) rfl
  obtain ⟨u, hu, hrec⟩ := FaultedPly.record_waits
  obtain rfl := Host.Outcome.next.inj (hexec.symm.trans hu)
  have hqe : t.qe = FaultedPly.state.qe := by rw [hframe]
  rw [hqe] at hrec
  exact absurd hrec (by decide)

end Sys2Proof.Machine
end

section
/-! SUPPORT. What an issue cycle of a Square changes (03 R66 to R73; 06 R166), and the statement about SQUARE_CYCLE, SORT64 and MERGE128. -/

namespace Sys2Proof.Machine

open Sys2Proof

/-! ### The issue rotation (R73) -/

theorem nextReady_some {s : State} {n c : Nat} (h : nextReady s n = some c) : c < 64 ∧ (getCtx s n c).st = .ready
    ∧ ∃ k, 1 ≤ k ∧ k ≤ 64 ∧ c = ((getSq s n).last + k) % 64 ∧ ∀ j, 1 ≤ j → j < k → (getCtx s n (((getSq s n).last + j) % 64)).st ≠ .ready := by
  obtain ⟨hready, i, hi, hc, hbefore⟩ := List.find?_eq_some_iff_getElem.mp h
  simp only [List.length_map, List.length_range, List.getElem_map, List.getElem_range] at hi hc hbefore
  refine ⟨by omega, by simpa [getCtx] using hready, i + 1, by omega, by omega, by omega, fun j h1 hj => ?_⟩
  have hj' := hbefore (j - 1) (by omega)
  rw [show (getSq s n).last + 1 + (j - 1) = (getSq s n).last + j by omega] at hj'
  simpa [getCtx] using hj'

theorem nextReady_none {s : State} {n : Nat} (h : nextReady s n = none) {c : Nat} (hc : c < 64) : (getCtx s n c).st ≠ .ready := by
  have hmem : c ∈ (List.range 64).map (fun i => ((getSq s n).last + 1 + i) % 64) :=
    List.mem_map.mpr ⟨(c + 64 * (getSq s n).last + 63 - (getSq s n).last) % 64, List.mem_range.mpr (Nat.mod_lt _ (by decide)), by omega⟩
  simpa [getCtx] using List.find?_eq_none.mp h c hmem

/-! ### A change of one context -/

/-- From `x` to `y` only context `c` of Square `n` has changed, and reads as `v`. -/
structure ChangesCtx (n c : Nat) (v : Ctx) (x y : State) : Prop where
  ctx : getCtx y n c = v
  others : ∀ k, k ≠ c → getCtx y n k = getCtx x n k
  last : (getSq y n).last = (getSq x n).last
  reqBuf : (getSq y n).reqBuf = (getSq x n).reqBuf
  squares : ∀ m, m ≠ n → getSq y m = getSq x m
  frame : ∃ sq, y = { x with squares := sq }

namespace ChangesCtx
variable {n c : Nat} {v w : Ctx} {x y z : State}

theorem self (x : State) : ChangesCtx n c (getCtx x n c) x x := ⟨rfl, fun _ _ => rfl, rfl, rfl, fun _ _ => rfl, ⟨x.squares, rfl⟩⟩

theorem setCtx (x : State) (n c : Nat) (v : Ctx) : ChangesCtx n c v x (setCtx x n c v) where
  ctx := getCtx_setCtx ..
  others _ h := getCtx_setCtx_other _ _ _ h
  last := by rw [Machine.setCtx, getSq_setSq]
  reqBuf := by rw [Machine.setCtx, getSq_setSq]
  squares _ h := getSq_setCtx_other _ _ _ h
  frame := ⟨_, rfl⟩

theorem trans (h1 : ChangesCtx n c v x y) (h2 : ChangesCtx n c w y z) : ChangesCtx n c w x z where
  ctx := h2.ctx
  others k hk := (h2.others k hk).trans (h1.others k hk)
  last := h2.last.trans h1.last
  reqBuf := h2.reqBuf.trans h1.reqBuf
  squares m hm := (h2.squares m hm).trans (h1.squares m hm)
  frame := by
    obtain ⟨sq1, h1⟩ := h1.frame
    obtain ⟨sq2, h2⟩ := h2.frame
    exact ⟨sq2, by rw [h2, h1]⟩

end ChangesCtx

/-! ### The issue (R66) -/

/-- The rotation has picked context `c`. -/
def issued (s : State) (n c : Nat) : State := setSq s n { getSq s n with last := c }

theorem getSq_issued (s : State) (n c : Nat) : getSq (issued s n c) n = { getSq s n with last := c } := getSq_setSq ..

theorem getSq_issued_other (s : State) {n m : Nat} (c : Nat) (h : m ≠ n) : getSq (issued s n c) m = getSq s m := getSq_setSq_other _ _ h

theorem getCtx_issued (s : State) (n c k : Nat) : getCtx (issued s n c) n k = getCtx s n k := by
  simp only [getCtx, getSq_issued]

theorem linkFor_issued (s : State) (n c o k hash : Nat) : linkFor (issued s n c) o k hash = linkFor s o k hash :=
  linkFor_congr (s := s) (x := issued s n c) rfl rfl rfl o k hash

/-- What an instruction that changes its own context leaves of the state in which it was issued. -/
theorem ChangesCtx.of_issued {s t : State} {n c : Nat} {v : Ctx} (h : ChangesCtx n c v (issued s n c) t) :
    (getSq t n).last = c ∧ getCtx t n c = v ∧ (∀ k, k ≠ c → getCtx t n k = getCtx s n k) ∧ (∀ m, m ≠ n → getSq t m = getSq s m)
      ∧ t = { s with squares := t.squares } := by
  refine ⟨?_, h.ctx, fun k hk => ?_, fun m hm => ?_, ?_⟩
  · rw [h.last, getSq_issued]
  · rw [h.others k hk, getCtx_issued]
  · rw [h.squares m hm, getSq_issued_other _ _ hm]
  · obtain ⟨sq, rfl⟩ := h.frame
    rfl

section cycle
variable {s : State} {n : Nat} {op : SqOp} (hwf : wellFormed (.squareCycle n op) = true)
include hwf

theorem exec_squareCycle_idle (h : sqRuns s n = false ∨ nextReady s n = none) : exec (.squareCycle n op) s = .next s := by
  have hexec : execSquareCycle n op s = onUnit s (wellFormed (.squareCycle n op)) s := by
    rcases h with h | h <;> simp [execSquareCycle, h]
  exact Eq.trans (show _ = execSquareCycle n op s from rfl) (hexec.trans (onUnit_keep hwf rfl))

theorem exec_squareCycle {c : Nat} (hruns : sqRuns s n = true) (hready : nextReady s n = some c) {t : State} (ht : issue (issued s n c) n c op = t)
    (hp : t.pending = s.pending) : exec (.squareCycle n op) s = .next t := by
  have hexec : execSquareCycle n op s = onUnit s (wellFormed (.squareCycle n op)) t := by
    simp only [execSquareCycle, hruns, hready, ← ht]
    rfl
  exact Eq.trans (show _ = execSquareCycle n op s from rfl) (hexec.trans (onUnit_keep hwf hp))

end cycle

/-! ### The sorting network's instructions (06 R166) -/

/-- The context with its register sorted. -/
def sortedCtx (s : State) (x : Ctx) (r : Nat) : Ctx := { x with regs := tset x.regs r (sortNet (imageOf s x.tenant) (vreg x r)) }

/-- The context with its two registers merged. -/
def mergedCtx (s : State) (x : Ctx) (a b : Nat) : Ctx :=
  { x with regs := tset (tset x.regs a (mergeNet (imageOf s x.tenant) (vreg x a) (vreg x b)).1) b (mergeNet (imageOf s x.tenant) (vreg x a) (vreg x b)).2 }

section sorting
variable (s : State) (n c : Nat)

theorem sortReg_issued (r : Nat) : ChangesCtx n c (sortedCtx s (getCtx s n c) r) (issued s n c) (sortReg (issued s n c) n c r) := by
  have h : ChangesCtx n c (sortedCtx s (getCtx (issued s n c) n c) r) (issued s n c) (sortReg (issued s n c) n c r) := ChangesCtx.setCtx ..
  rwa [getCtx_issued] at h

theorem mergeRegs_issued (a b : Nat) : ChangesCtx n c (mergedCtx s (getCtx s n c) a b) (issued s n c) (mergeRegs (issued s n c) n c a b) := by
  have h : ChangesCtx n c (mergedCtx s (getCtx (issued s n c) n c) a b) (issued s n c) (mergeRegs (issued s n c) n c a b) := ChangesCtx.setCtx ..
  rwa [getCtx_issued] at h

variable {s n c}

/-- An instruction of the network whose turn it is not does nothing. -/
theorem issueOf_idle (h : sqRuns s n = false ∨ nextReady s n ≠ some c) (f : State → State) : issueOf s n c f = s := by
  have hc : (sqRuns s n && nextReady s n == some c) = false := by
    rcases h with h | h <;> simp [h]
  rw [issueOf, hc, if_neg (by decide)]

theorem issueOf_turn (hruns : sqRuns s n = true) (hready : nextReady s n = some c) (f : State → State) : issueOf s n c f = f (issued s n c) := by
  rw [issueOf, hruns, hready]
  simp [issued]

theorem exec_sort64 {t : State} {r : Nat} (hwf : wellFormed (.sort64 n c r) = true) (ht : issueOf s n c (fun x => sortReg x n c r) = t)
    (hp : t.pending = s.pending) : exec (.sort64 n c r) s = .next t := by
  subst ht
  exact onUnit_keep hwf hp

theorem exec_merge128 {t : State} {a b : Nat} (hwf : wellFormed (.merge128 n c a b) = true) (ht : issueOf s n c (fun x => mergeRegs x n c a b) = t)
    (hp : t.pending = s.pending) : exec (.merge128 n c a b) s = .next t := by
  subst ht
  exact onUnit_keep hwf hp

/-- A merge names two registers. -/
theorem merge128_registers {a b : Nat} (h : wellFormed (.merge128 n c a b) = true) : a ≠ b := by
  simp only [wellFormed, Bool.and_eq_true, bne_iff_ne] at h
  exact h.2

end sorting

/-! ### Waiting for the ply (R68, R70) -/

/-- The context waits while an element of its ply is outstanding. -/
theorem waitMem_open {s : State} {n c : Nat} {e : Nat × Elem} (he : e ∈ (getCtx s n c).elems) (hret : e.2.returned = false) :
    waitMem s n c = setCtx s n c { getCtx s n c with st := .waitMem } := by
  have hall : (getCtx s n c).elems.all (fun e => e.2.returned) = false := List.all_eq_false.mpr ⟨e, he, by simp [hret]⟩
  simp [waitMem, settleCtx, hall]

/-! ### Reads (R69 to R71) -/

/-- The first entry of a number in a table, after an entry of that number or another was written. -/
theorem find?_tset {β : Type} (t : Tab β) (k j : Nat) (v : β) :
    (tset t j v).find? (fun z => z.1 == k) = if j = k then some (j, v) else t.find? (fun z => z.1 == k) := by
  induction t with
  | nil => by_cases h : j = k <;> simp [tset, h]
  | cons a t ih =>
    obtain ⟨i, w⟩ := a
    simp only [tset]
    split
    · by_cases h : j = k <;> simp [h]
    · split
      · rename_i hji
        subst hji
        by_cases h : j = k <;> simp [h]
      · rename_i hji
        by_cases hik : i = k
        · subst hik
          simp [hji]
        · simp [hik, ih]

/-- An element of a read as it is issued. -/
def issuedElem (s : State) (t : Nat) (e : ReadElem) : Elem :=
  { bytes := e.bytes, addr := elemAt s t e.addr, dst := e.dst, tag := none, left := false, due := 0, returned := false, fault := 0, data := [] }

/-- The elements of a read take their fetch slots in turn. -/
def withElems (s : State) (t r : Nat) (elems : Tab Elem) (l : List (Nat × ReadElem)) : Tab Elem :=
  l.foldl (fun a ie => tset a (16 * r + ie.1) (issuedElem s t ie.2)) elems

section elems
variable (s : State) (t r : Nat)

theorem withElems_other {l : List (Nat × ReadElem)} {k : Nat} (hk : ∀ ie ∈ l, 16 * r + ie.1 ≠ k) (elems : Tab Elem) :
    (withElems s t r elems l).find? (fun z => z.1 == k) = elems.find? (fun z => z.1 == k) := by
  induction l generalizing elems with
  | nil => rfl
  | cons a l ih =>
    have hl := ih (fun ie h => hk ie (List.mem_cons_of_mem _ h)) (tset elems (16 * r + a.1) (issuedElem s t a.2))
    rw [withElems, List.foldl_cons, ← withElems, hl, find?_tset, if_neg (hk a (List.mem_cons_self ..))]

theorem withElems_mem {l : List (Nat × ReadElem)} (hl : (l.map Prod.fst).Nodup) {i : Nat} {e : ReadElem} (hmem : (i, e) ∈ l) (elems : Tab Elem) :
    (withElems s t r elems l).find? (fun z => z.1 == 16 * r + i) = some (16 * r + i, issuedElem s t e) := by
  induction l generalizing elems with
  | nil => cases hmem
  | cons a l ih =>
    rw [List.map_cons, List.nodup_cons] at hl
    rw [withElems, List.foldl_cons, ← withElems]
    rcases List.mem_cons.mp hmem with rfl | hmem
    · have hother : ∀ ie ∈ l, 16 * r + ie.1 ≠ 16 * r + i := fun ie h heq => hl.1 (List.mem_map.mpr ⟨ie, h, by omega⟩)
      rw [withElems_other s t r hother, find?_tset, if_pos rfl]
    · exact ih hl.2 hmem _

end elems

/-- Elements of the node's own memory wait for their request to leave. -/
theorem foldl_issueElem {n c : Nat} (r : Nat) (l : List (Nat × ReadElem)) (s : State)
    (hown : ∀ ie ∈ l, ∃ k off, elemAt s (getCtx s n c).tenant ie.2.addr = .object k off) :
    ChangesCtx n c { getCtx s n c with elems := withElems s (getCtx s n c).tenant r (getCtx s n c).elems l } s
      (l.foldl (fun a ie => issueElem n c (16 * r + ie.1) a ie.2) s) := by
  induction l generalizing s with
  | nil => exact ChangesCtx.self s
  | cons a l ih =>
    obtain ⟨k, off, ha⟩ := hown a (List.mem_cons_self ..)
    have hfirst : issueElem n c (16 * r + a.1) s a.2 = putElem s n c (16 * r + a.1) (issuedElem s (getCtx s n c).tenant a.2) := by
      simp only [issueElem, ha]
      rw [issuedElem, ha]
    have hput := ChangesCtx.setCtx s n c { getCtx s n c with elems := tset (getCtx s n c).elems (16 * r + a.1) (issuedElem s (getCtx s n c).tenant a.2) }
    rw [List.foldl_cons, hfirst]
    have hrest := ih (putElem s n c (16 * r + a.1) (issuedElem s (getCtx s n c).tenant a.2)) (fun ie hie => by
      rw [putElem, getCtx_setCtx]
      exact hown ie (List.mem_cons_of_mem _ hie))
    rw [putElem, getCtx_setCtx] at hrest
    exact hput.trans hrest

theorem getSq_addReqBuf (s : State) (n c r : Nat) : getSq (addReqBuf s n c r) n = { getSq s n with reqBuf := (getSq s n).reqBuf ++ [(c, r)] } := getSq_setSq ..

theorem getSq_addReqBuf_other (s : State) {n m : Nat} (c r : Nat) (h : m ≠ n) : getSq (addReqBuf s n c r) m = getSq s m := getSq_setSq_other _ _ h

theorem getCtx_addReqBuf (s : State) (n c r k : Nat) : getCtx (addReqBuf s n c r) n k = getCtx s n k := by
  simp only [getCtx, getSq_addReqBuf]

/-- A request stays in the buffer while an element of it has not left. -/
theorem trimReqBuf_waits {s : State} {n c r : Nat} {e : Nat × Elem} (he : e ∈ (getCtx s n c).elems) (hr : e.1 / 16 = r) (hleft : e.2.left = false) :
    trimReqBuf s n c r = s := by
  have hany : (getCtx s n c).elems.any (fun e => e.1 / 16 == r && !e.2.left) = true := List.any_eq_true.mpr ⟨e, he, by simp [hr, hleft]⟩
  rw [trimReqBuf, hany, if_pos rfl]

/-- A read whose fetch slots are still in use is not issued; the context waits for its ply (R93). -/
theorem issueRead_open {s : State} {n c r : Nat} (h : readOpen (getCtx s n c) r = true) (stream : Nat) (elems : List ReadElem) (last : Bool) :
    issueRead s n c r stream elems last = setCtx s n c { getCtx s n c with st := .waitMem } := by
  obtain ⟨e, he, hopen⟩ := List.any_eq_true.mp h
  simp only [Bool.and_eq_true, Bool.not_eq_true'] at hopen
  simp only [issueRead, h, if_true]
  exact waitMem_open he hopen.2

/-- The elements of a read with their numbers. -/
def numbered (elems : List ReadElem) : List (Nat × ReadElem) := List.zip (List.range elems.length) elems

theorem mem_numbered {elems : List ReadElem} {i : Nat} {e : ReadElem} (h : elems[i]? = some e) : (i, e) ∈ numbered elems := by
  obtain ⟨hi, -⟩ := List.getElem?_eq_some_iff.mp h
  exact List.mem_of_getElem? (i := i) (List.getElem?_zip_eq_some.mpr ⟨List.getElem?_range hi, h⟩)

theorem numbered_nodup (elems : List ReadElem) : ((numbered elems).map Prod.fst).Nodup := by
  rw [numbered, List.map_fst_zip (by simp)]
  exact List.nodup_range

/-- The request lies in the buffer, and its elements in their fetch slots. -/
def readIssued (s : State) (n c r : Nat) (elems : List ReadElem) : State :=
  (numbered elems).foldl (fun a ie => issueElem n c (16 * r + ie.1) a ie.2) (addReqBuf s n c r)

/-- The context with the elements of its read. -/
def readingCtx (s : State) (x : Ctx) (r : Nat) (elems : List ReadElem) : Ctx :=
  { x with elems := withElems s x.tenant r x.elems (numbered elems) }

section read
variable {s : State} {n c r stream : Nat} {elems : List ReadElem} (hown : ∀ e ∈ elems, ∃ k off, elemAt s (getCtx s n c).tenant e.addr = .object k off)
include hown

theorem readIssued_changes : ChangesCtx n c (readingCtx s (getCtx s n c) r elems) (addReqBuf s n c r) (readIssued s n c r elems) := by
  have hfold := foldl_issueElem (n := n) (c := c) r (numbered elems) (addReqBuf s n c r) (fun ie hie => by
    rw [getCtx_addReqBuf]
    exact hown ie.2 (List.of_mem_zip hie).2)
  rw [getCtx_addReqBuf] at hfold
  exact hfold

variable {y : Stream} {pay : Nat} (hstream : ownStream s n (getCtx s n c).tenant stream = some y)
  (hpay : runPayload s (getCtx s n c).tenant stream = some pay) (hopen : readOpen (getCtx s n c) r = false) (hlen : 1 ≤ elems.length)
include hstream hpay hopen hlen

/-- The last read of a ply: its request goes onto its stream, and the context waits (R68, R71). -/
theorem issueRead_last : issueRead s n c r stream elems true
    = setCtx (addToken (readIssued s n c r elems) (getCtx s n c).tenant stream ⟨min pay (Config.requestBytes elems.length), .read n c r⟩) n c
        { readingCtx s (getCtx s n c) r elems with st := .waitMem } := by
  have hhead := List.getElem?_eq_getElem (l := elems) (i := 0) hlen
  obtain ⟨k, off, hk⟩ := hown _ (List.mem_of_getElem? hhead)
  have hmem : (16 * r + 0, issuedElem s (getCtx s n c).tenant elems[0]) ∈ (readingCtx s (getCtx s n c) r elems).elems :=
    List.mem_of_find?_eq_some (withElems_mem _ _ r (numbered_nodup elems) (mem_numbered hhead) _)
  have hctx := (readIssued_changes (r := r) hown).ctx
  simp only [issueRead, hopen, Bool.false_eq_true, if_false, hstream, hpay, if_true]
  rw [if_pos (List.any_eq_true.mpr ⟨_, List.mem_of_getElem? hhead, by rw [hk]⟩)]
  change waitMem (trimReqBuf (addToken (readIssued s n c r elems) _ _ _) n c r) n c = _
  generalize readIssued s n c r elems = f at hctx ⊢
  have hf : ∀ o k x, getCtx (addToken f o k x) n c = readingCtx s (getCtx s n c) r elems := fun o k x => (getCtx_congr rfl n c).trans hctx
  rw [trimReqBuf_waits (by rw [hf]; exact hmem) (by omega) rfl, waitMem_open (by rw [hf]; exact hmem) rfl, hf]

end read

/-! ### Output and input streams (R67, R72; 02 R39) -/

theorem slotPayload_pos (kind : Nat) : 0 < slotPayload kind := by
  unfold slotPayload
  split <;> decide

theorem runPayload_pos {s : State} {t stream pay : Nat} (h : runPayload s t stream = some pay) : 0 < pay := by
  obtain ⟨r, -, rfl⟩ := Option.map_eq_some_iff.mp h
  exact slotPayload_pos r.kind

/-- An output is cut into payloads that the stream's slots carry. -/
theorem sendTokens_eq {pay : Nat} (hpay : 0 < pay) (t stream : Nat) (k : Nat) (s : State) (b : List Byte) (hk : b.length ≤ k * pay) :
    ∃ (st : Tab StreamSt) (bs : List (List Byte)), sendTokens k s t stream pay b = withStreams s st ∧ bs.flatten = b ∧ (∀ x ∈ bs, x.length ≤ pay ∧ x ≠ [])
      ∧ getStream (sendTokens k s t stream pay b) t stream
        = { getStream s t stream with tokens := (getStream s t stream).tokens ++ bs.map (fun b => ⟨b.length, .data b⟩) } := by
  induction k generalizing s b with
  | zero =>
    obtain rfl : b = [] := List.eq_nil_of_length_eq_zero (by omega)
    exact ⟨s.bd.streams, [], rfl, rfl, by simp, by simp [sendTokens]⟩
  | succ k ih =>
    rw [sendTokens]
    split
    · rename_i hempty
      exact ⟨s.bd.streams, [], rfl, (List.isEmpty_iff.mp hempty).symm, by simp, by simp⟩
    · rename_i hne
      have hb : b ≠ [] := fun h => hne (List.isEmpty_iff.mpr h)
      have hrest : (b.drop pay).length ≤ k * pay := by
        rw [List.length_drop]
        rw [Nat.succ_mul] at hk
        omega
      obtain ⟨st, bs, hst, hflat, hbs, htok⟩ := ih (addToken s t stream ⟨(b.take pay).length, .data (b.take pay)⟩) (b.drop pay) hrest
      refine ⟨st, b.take pay :: bs, hst, ?_, ?_, ?_⟩
      · rw [List.flatten_cons, hflat, List.take_append_drop]
      · intro x hx
        rcases List.mem_cons.mp hx with rfl | hx
        · exact ⟨List.length_take_le .., by simp [hb]; omega⟩
        · exact hbs x hx
      · rw [htok, getStream_addToken]
        simp

section streams
variable {s : State} {n c stream : Nat}

theorem sendOp_foreign (h : ownStream s n (getCtx s n c).tenant stream = none) (data : List Byte) : sendOp s n c stream data = s := by
  simp only [sendOp, h]

/-- Bytes for a unit of the node, which are no packet, wait in payloads of the stream (02 R39). -/
theorem sendOp_eq {y : Stream} {pay : Nat} (hy : ownStream s n (getCtx s n c).tenant stream = some y) (hpay : runPayload s (getCtx s n c).tenant stream = some pay)
    (hdest : y.dest / 2 ^ 24 ≠ 5) (data : List Byte) :
    sendOp s n c stream data = sendTokens (data.length / pay + 1) s (getCtx s n c).tenant stream pay data := by
  simp only [sendOp, hy, hpay, if_neg hdest]

theorem waitStreamOp_foreign (h : mayWait s n (getCtx s n c) stream = false) (dst : Nat) : waitStreamOp s n c stream dst = s := by
  simp only [waitStreamOp, h, Bool.not_false, if_true]

variable (h : mayWait s n (getCtx s n c) stream = true) (dst : Nat)
include h

theorem waitStreamOp_empty (hbuf : (getStream s (getCtx s n c).tenant stream).buf = []) :
    waitStreamOp s n c stream dst = setCtx s n c { getCtx s n c with st := .waitStream, waitOn := stream, waitDst := dst } := by
  simp only [waitStreamOp, h, Bool.not_true, Bool.false_eq_true, if_false, hbuf]

/-- A payload in the receive buffer is taken at once, and its entry is free. -/
theorem waitStreamOp_payload {k : Nat} {b : List Byte} {rest : List Token} (hbuf : (getStream s (getCtx s n c).tenant stream).buf = ⟨k, .data b⟩ :: rest) :
    waitStreamOp s n c stream dst = setStream
      (setStream (setCtx s n c { getCtx s n c with st := .ready, scratch := memWrite (getCtx s n c).scratch dst (b.take (4096 - dst)) })
        (getCtx s n c).tenant stream { getStream s (getCtx s n c).tenant stream with buf := rest })
      (getCtx s n c).tenant stream { getStream s (getCtx s n c).tenant stream with
        buf := rest, credits := (getStream s (getCtx s n c).tenant stream).credits + 1, held := (getStream s (getCtx s n c).tenant stream).held - 1 } := by
  simp only [waitStreamOp, h, Bool.not_true, Bool.false_eq_true, if_false, hbuf, returnCredit, getStream_setStream]
  rfl

end streams

/-- The end of a program that serves no other node's work does nothing. -/
theorem finishOp_entry {s : State} {n c : Nat} (h : ∀ w, (getCtx s n c).job ≠ .serving w) : finishOp s n c = s := by
  unfold finishOp
  split
  · rename_i w hw
    exact absurd hw (h w)
  · rfl

/-! ### Remote stores (10 R311, R314) -/

/-- The element of a remote store while it is outstanding. -/
def storeElem (a dst : Nat) : Elem :=
  { bytes := 0, addr := .remote a, dst := dst, tag := none, left := false, due := 0, returned := false, fault := 0, data := [] }

/-- The request of a remote store. -/
def storeReq (s : State) (n c slot a l : Nat) : Req :=
  { tag := s.fab.nextTag, tenant := (getCtx s n c).tenant, target := a / 2 ^ 40 % 256, op := 2, link := l,
    seq := (getT s (getCtx s n c).tenant).storeSeq, addr := a, src := .elem n c slot }

/-- The store is numbered in its tenant's sequence, its request is in the table, and it waits on its stream. -/
def storeSent (s : State) (n c slot a l : Nat) (st : Tab StreamSt) : State :=
  withStreams (addReq (setT s (getCtx s n c).tenant
    { getT s (getCtx s n c).tenant with storeSeq := ((getT s (getCtx s n c).tenant).storeSeq + 1) % 2 ^ 32 }) (storeReq s n c slot a l)) st

/-- Handing a packet to its link changes the streams alone. -/
theorem linkToken_streams (s : State) (o l cls : Nat) (src : Option Nat) (ld : Load) : ∃ st, (linkToken s o l cls src ld).1 = withStreams s st := by
  cases h : linkStream s o l cls src with
  | none => exact ⟨s.bd.streams, by rw [linkToken_none ld h]; rfl⟩
  | some i => exact ⟨(addToken s o i ⟨(loadBytes ld).length, ld⟩).bd.streams, by rw [linkToken_some ld h]; rfl⟩

theorem sendReq_store {s : State} {n c slot a l : Nat} (bs : List Byte) (hlink : linkFor s (getCtx s n c).tenant (a / 2 ^ 40 % 256) a = some l) : ∃ st,
    sendReq s (getCtx s n c).tenant (a / 2 ^ 40 % 256) a (mkPacket 2 0 bs.length a 0 bs) (.elem n c slot)
      = some (s.fab.nextTag, storeSent s n c slot a l st) := by
  rw [sendReq, sendOn, hlink, Option.map_some]
  simp only [mkPacket, isStoreOp, beq_self_eq_true, Bool.true_or, if_true, Option.some.injEq, Prod.mk.injEq, true_and]
  exact linkToken_streams ..

theorem putElem_frame (s : State) (n c slot : Nat) (v : Elem) : ∃ sq, putElem s n c slot v = { s with squares := sq } := ⟨_, rfl⟩

section store
variable {s : State} {n c slot a : Nat} {bs : List Byte} (dst : Nat) (hfree : (getCtx s n c).elems.any (fun e => e.1 == slot && !e.2.returned) = false)
include hfree

/-- With no path the store ends at once (10 R314). -/
theorem issueRemote_store_lost (hlink : linkFor s (getCtx s n c).tenant (a / 2 ^ 40 % 256) a = none) :
    issueRemote s n c slot (.store a bs) dst false = putElem s n c slot { storeElem a dst with left := true, returned := true, fault := stRemote } := by
  have hsend : sendReq s (getCtx s n c).tenant (a / 2 ^ 40 % 256) a (mkPacket 2 0 bs.length a 0 bs) (.elem n c slot) = none := by
    rw [sendReq, sendOn, hlink, Option.map_none]
  simp only [issueRemote, hfree, Bool.false_eq_true, if_false, remotePacket]
  change (match sendReq s (getCtx s n c).tenant (a / 2 ^ 40 % 256) a (mkPacket 2 0 bs.length a 0 bs) (.elem n c slot) with | none => _ | some (_, _) => _) = _
  rw [hsend]
  rfl

/-- A store that leaves takes its tenant's next sequence number, and waits for its response (10 R311). -/
theorem issueRemote_store_sent {l : Nat} (hlink : linkFor s (getCtx s n c).tenant (a / 2 ^ 40 % 256) a = some l) : ∃ st,
    issueRemote s n c slot (.store a bs) dst false
      = putElem (storeSent s n c slot a l st) n c slot { storeElem a dst with tag := some s.fab.nextTag } := by
  obtain ⟨st, hsend⟩ := sendReq_store (slot := slot) bs hlink
  refine ⟨st, ?_⟩
  simp only [issueRemote, hfree, Bool.false_eq_true, if_false, remotePacket]
  change (match sendReq s (getCtx s n c).tenant (a / 2 ^ 40 % 256) a (mkPacket 2 0 bs.length a 0 bs) (.elem n c slot) with | none => _ | some (_, _) => _) = _
  rw [hsend]
  rfl

end store

/-! ### The obligation -/

section clauses
variable {s : State} {n c : Nat}

/-- A read has an element (R69). -/
theorem read_length {r stream : Nat} {elems : List ReadElem} {last : Bool} (h : wellFormed (.squareCycle n (.read r stream elems last)) = true) :
    1 ≤ elems.length := by
  simp only [wellFormed, sqOpOk, Bool.and_eq_true, decide_eq_true_eq] at h
  exact h.2.1.2.1

/-- The last read of a ply, issued: its token waits on its stream, and otherwise its context alone has changed. -/
theorem issueRead_issued {r stream : Nat} {elems : List ReadElem} (hlen : 1 ≤ elems.length) {y : Stream} {pay : Nat}
    (hstream : ownStream s n (getCtx s n c).tenant stream = some y) (hpay : runPayload s (getCtx s n c).tenant stream = some pay)
    (hopen : readOpen (getCtx s n c) r = false) (hown : ∀ e ∈ elems, ∃ k off, elemAt s (getCtx s n c).tenant e.addr = .object k off) :
    ∃ x, ChangesCtx n c { readingCtx s (getCtx s n c) r elems with st := .waitMem } (addReqBuf (issued s n c) n c r) x
      ∧ issueRead (issued s n c) n c r stream elems true
          = addToken x (getCtx s n c).tenant stream ⟨min pay (Config.requestBytes elems.length), .read n c r⟩ := by
  rw [← getCtx_issued s n c c] at hstream hpay hopen hown ⊢
  exact ⟨_, (readIssued_changes hown).trans (ChangesCtx.setCtx ..), issueRead_last (s := issued s n c) hown hstream hpay hopen hlen⟩

section remote
variable {slot a dst : Nat} {bs : List Byte} (hwf : wellFormed (.squareCycle n (.remote slot (.store a bs) dst false)) = true)
  (hruns : sqRuns s n = true) (hready : nextReady s n = some c) (hfree : (getCtx s n c).elems.any (fun e => e.1 == slot && !e.2.returned) = false)
include hwf hruns hready hfree

/-- A remote store without a path ends with FAULT_REMOTE (10 R314). -/
theorem remoteStore_lost (hlink : linkFor s (getCtx s n c).tenant (a / 2 ^ 40 % 256) a = none) :
    ∃ t v, exec (.squareCycle n (.remote slot (.store a bs) dst false)) s = .next t
      ∧ (getCtx t n c).elems.find? (fun z => z.1 == slot) = some (slot, v) ∧ v.returned = true ∧ v.fault = 0x22 ∧ t = { s with squares := t.squares } := by
  rw [← getCtx_issued s n c c] at hfree hlink
  have hlink := (linkFor_issued s n c _ _ _).trans hlink
  have hexec := exec_squareCycle hwf hruns hready (issueRemote_store_lost (bs := bs) dst hfree hlink) rfl
  refine ⟨_, { storeElem a dst with left := true, returned := true, fault := stRemote }, hexec, ?_, rfl, rfl, rfl⟩
  rw [putElem, getCtx_setCtx, find?_tset, if_pos rfl]

/-- A remote store with a path is numbered, and its request waits to leave (10 R311). -/
theorem remoteStore_sent {l : Nat} (hlink : linkFor s (getCtx s n c).tenant (a / 2 ^ 40 % 256) a = some l) :
    ∃ t r, exec (.squareCycle n (.remote slot (.store a bs) dst false)) s = .next t
      ∧ t.fab.reqs = s.fab.reqs ++ [r] ∧ r.op = 2 ∧ r.addr = a ∧ r.link = l ∧ r.tenant = (getCtx s n c).tenant
      ∧ r.seq = (getT s (getCtx s n c).tenant).storeSeq ∧ r.src = .elem n c slot ∧ r.sent = false
      ∧ (getT t (getCtx s n c).tenant).storeSeq = ((getT s (getCtx s n c).tenant).storeSeq + 1) % 2 ^ 32
      ∧ t = { s with squares := t.squares, tenants := t.tenants, fab := { s.fab with nextTag := t.fab.nextTag, reqs := t.fab.reqs }, bd := { s.bd with streams := t.bd.streams } } := by
  have hctx := getCtx_issued s n c c
  rw [← hctx] at hfree hlink
  have hlink := (linkFor_issued s n c _ _ _).trans hlink
  obtain ⟨st, hissue⟩ := issueRemote_store_sent (bs := bs) dst hfree hlink
  obtain ⟨sq, hsq⟩ := putElem_frame (storeSent (issued s n c) n c slot a l st) n c slot { storeElem a dst with tag := some (issued s n c).fab.nextTag }
  have hexec := exec_squareCycle hwf hruns hready (hissue.trans hsq) rfl
  rw [← hctx]
  have hseq := congrArg Tenant.storeSeq (getT_setT (issued s n c) (getCtx (issued s n c) n c).tenant
    { getT s (getCtx (issued s n c) n c).tenant with storeSeq := ((getT s (getCtx (issued s n c) n c).tenant).storeSeq + 1) % 2 ^ 32 })
  refine ⟨_, storeReq (issued s n c) n c slot a l, hexec, rfl, rfl, rfl, ?_, ?_, ?_, ?_, ?_, hseq, ?_⟩ <;> rfl

end remote

/-- The last read of a ply: what it does to its context, its Square and its stream. -/
theorem lastRead {r stream : Nat} {elems : List ReadElem} {y : Stream} {pay : Nat} (hwf : wellFormed (.squareCycle n (.read r stream elems true)) = true)
    (hruns : sqRuns s n = true) (hready : nextReady s n = some c)
    (hstream : ownStream s n (getCtx s n c).tenant stream = some y) (hpay : runPayload s (getCtx s n c).tenant stream = some pay)
    (hopen : readOpen (getCtx s n c) r = false) (hown : ∀ e ∈ elems, ∃ k off, elemAt s (getCtx s n c).tenant e.addr = .object k off) :
    ∃ t, exec (.squareCycle n (.read r stream elems true)) s = .next t
      ∧ (getSq t n).last = c ∧ (getSq t n).reqBuf = (getSq s n).reqBuf ++ [(c, r)]
      ∧ getCtx t n c = { readingCtx s (getCtx s n c) r elems with st := .waitMem }
      ∧ getStream t (getCtx s n c).tenant stream = { getStream s (getCtx s n c).tenant stream with
          tokens := (getStream s (getCtx s n c).tenant stream).tokens ++ [⟨min pay (Config.requestBytes elems.length), .read n c r⟩] }
      ∧ (∀ k, k ≠ c → getCtx t n k = getCtx s n k) ∧ (∀ m, m ≠ n → getSq t m = getSq s m)
      ∧ t = { s with squares := t.squares, bd := { s.bd with streams := t.bd.streams } } := by
  obtain ⟨x, hx, hissue⟩ := issueRead_issued (read_length hwf) hstream hpay hopen hown
  obtain ⟨sq, hsq⟩ := hx.frame
  have hexec := exec_squareCycle hwf hruns hready hissue (by rw [hsq]; rfl)
  refine ⟨_, hexec, ?_, ?_, hx.ctx, ?_, fun k hk => ?_, fun m hm => ?_, ?_⟩
  · exact hx.last.trans (by rw [getSq_addReqBuf, getSq_issued])
  · exact hx.reqBuf.trans (by rw [getSq_addReqBuf, getSq_issued])
  · rw [getStream_addToken, if_pos rfl, getStream_congr (s := s) (by rw [hsq]; rfl)]
  · exact (hx.others k hk).trans (by rw [getCtx_addReqBuf, getCtx_issued])
  · exact (hx.squares m hm).trans (by rw [getSq_addReqBuf_other _ _ _ hm, getSq_issued_other _ _ hm])
  · rw [hsq]
    rfl

end clauses

/-- Settles O46: the rotation picks the first READY context, and what it issues changes that context, its streams and its requests. -/
theorem squareIssueRotation : Obligations.SquareIssueRotation := by
  unfold Obligations.SquareIssueRotation
  refine ⟨fun s n c h => nextReady_some h, fun s n h c hc => nextReady_none h hc, fun s n op hwf h => exec_squareCycle_idle hwf h, ?_, ?_⟩
  · intro s n c op hwf hruns hready
    have hctx := getCtx_issued s n c c
    refine ⟨?compute, ?read, ?send, ?waitStream, ?remote, ?sort, ?finish⟩
    case compute =>
      rintro w rfl
      have h : ChangesCtx n c (w.foldl ctxWrite (getCtx (issued s n c) n c)) (issued s n c) (issue (issued s n c) n c (.compute w)) := ChangesCtx.setCtx ..
      rw [hctx] at h
      exact ⟨_, exec_squareCycle hwf hruns hready rfl rfl, h.of_issued⟩
    case read =>
      rintro r stream elems rfl
      refine ⟨fun y pay hstream hpay hopen hown => ?_, fun hopen => ?_⟩
      · obtain ⟨t, hexec, hlast, hreq, hctx', hrest⟩ := lastRead hwf hruns hready hstream hpay hopen hown
        refine ⟨t, hexec, hlast, ?_⟩
        rw [hctx']
        exact ⟨rfl, hreq, fun i e he => withElems_mem _ _ r (numbered_nodup elems) (mem_numbered he) _, rfl, rfl, rfl, hrest⟩
      · have h : issue (issued s n c) n c (.read r stream elems true) = setCtx (issued s n c) n c { getCtx s n c with st := .waitMem } := by
          rw [← hctx]
          exact issueRead_open (by rw [hctx]; exact hopen) stream elems true
        exact ⟨_, exec_squareCycle hwf hruns hready h rfl, getCtx_setCtx .., rfl⟩
    case send =>
      rintro stream data rfl
      refine ⟨fun hforeign => ?_, fun y pay hstream hpay hdest => ?_⟩
      · exact exec_squareCycle hwf hruns hready (sendOp_foreign (by rw [hctx]; exact hforeign) data) rfl
      · have hsend := sendOp_eq (s := issued s n c) (n := n) (c := c) (by rw [hctx]; exact hstream) (by rw [hctx]; exact hpay) hdest data
        have hfits : data.length ≤ (data.length / pay + 1) * pay := (Nat.lt_mul_div_succ data.length (runPayload_pos hpay)).le.trans_eq (Nat.mul_comm ..)
        obtain ⟨st, bs, ht, hflat, hbs, htok⟩ := sendTokens_eq (runPayload_pos hpay) (getCtx s n c).tenant stream _ (issued s n c) data hfits
        rw [hctx, ht] at hsend
        rw [ht] at htok
        refine ⟨_, bs, exec_squareCycle hwf hruns hready hsend rfl, hflat, hbs, htok, ?_, fun k => getCtx_issued s n c k, rfl⟩
        exact congrArg Square.last (getSq_issued s n c)
    case waitStream =>
      rintro stream dst rfl
      refine ⟨fun hforeign => ?_, fun hmay hbuf => ?_, fun k b rest hmay hbuf => ?_⟩
      · exact exec_squareCycle hwf hruns hready (waitStreamOp_foreign (by rw [hctx]; exact hforeign) dst) rfl
      · have h := waitStreamOp_empty (s := issued s n c) (n := n) (c := c) (stream := stream) (by rw [hctx]; exact hmay) dst (by rw [hctx]; exact hbuf)
        rw [hctx] at h
        exact ⟨_, exec_squareCycle hwf hruns hready h rfl, getCtx_setCtx .., rfl⟩
      · have h := waitStreamOp_payload (s := issued s n c) (n := n) (c := c) (stream := stream) (by rw [hctx]; exact hmay) dst (by rw [hctx]; exact hbuf)
        rw [hctx] at h
        exact ⟨_, exec_squareCycle hwf hruns hready h rfl, getCtx_setCtx .., getStream_setStream .., rfl⟩
    case remote =>
      rintro slot a bs dst rfl hfree
      exact ⟨remoteStore_lost hwf hruns hready hfree, fun l => remoteStore_sent hwf hruns hready hfree⟩
    case sort =>
      rintro r rfl
      exact ⟨_, exec_squareCycle hwf hruns hready rfl rfl, (sortReg_issued s n c r).of_issued⟩
    case finish =>
      rintro rfl hjob
      exact exec_squareCycle hwf hruns hready (finishOp_entry (by rw [hctx]; exact hjob)) rfl
  · intro s n c r a b hsort hmerge
    refine ⟨fun hidle => ?_, fun hruns hready => ⟨?_, ?_⟩⟩
    · exact ⟨exec_sort64 hsort (issueOf_idle hidle _) rfl, exec_merge128 hmerge (issueOf_idle hidle _) rfl⟩
    · exact ⟨_, exec_sort64 hsort (issueOf_turn hruns hready _) rfl, (sortReg_issued s n c r).of_issued⟩
    · have hab : a ≠ b := merge128_registers hmerge
      obtain ⟨hlast, hctx, hothers, hsquares, hframe⟩ := (mergeRegs_issued s n c a b).of_issued
      refine ⟨_, exec_merge128 hmerge (issueOf_turn hruns hready _) rfl, hlast, ?_, ?_, ?_, ?_, hothers, hsquares, hframe⟩ <;> rw [hctx, mergedCtx]
      · rw [tget_tset_other _ _ _ hab, tget_tset_same]
      · rw [tget_tset_same]
      · exact fun r hra hrb => by rw [tget_tset_other _ _ _ hrb, tget_tset_other _ _ _ hra]

end Sys2Proof.Machine
end

section
/-! SUPPORT. Sorting by an order with an open choice among equals, the final stage (06 R168 to R179), a channel engine's RERANK (05 R143), and the statement about them. -/

namespace Sys2Proof.Machine

open Sys2Proof

/-! ### Insertion sort -/

theorem insertBy_perm {α : Type} (le : α → α → Bool) (a : α) (l : List α) : (insertBy le a l).Perm (a :: l) := by
  induction l with
  | nil => exact .refl _
  | cons b r ih =>
    rw [insertBy]
    split
    · exact .refl _
    · exact (ih.cons b).trans (.swap a b r)

theorem sortBy_perm {α : Type} (le : α → α → Bool) (l : List α) : (sortBy le l).Perm l := by
  induction l with
  | nil => exact .refl _
  | cons a r ih => exact (insertBy_perm le a (sortBy le r)).trans (ih.cons a)

section ordered
variable {α : Type} {le : α → α → Bool} {R : α → α → Prop} (htrans : ∀ a b c, R a b → R b c → R a c)
  (hle : ∀ a b, le a b = true → R a b) (hnle : ∀ a b, le a b = false → R b a)
include htrans hle hnle

theorem insertBy_pairwise (a : α) {l : List α} (h : l.Pairwise R) : (insertBy le a l).Pairwise R := by
  induction l with
  | nil => exact List.pairwise_singleton R a
  | cons b r ih =>
    obtain ⟨hb, hr⟩ := List.pairwise_cons.mp h
    rw [insertBy]
    split
    · rename_i hab
      exact .cons (List.forall_mem_cons.mpr ⟨hle a b hab, fun x hx => htrans a b x (hle a b hab) (hb x hx)⟩) h
    · rename_i hab
      refine .cons (fun x hx => ?_) (ih hr)
      rcases List.mem_cons.mp ((insertBy_perm le a r).mem_iff.mp hx) with rfl | hx
      · exact hnle _ b (Bool.eq_false_iff.mpr hab)
      · exact hb x hx

/-- The sorted list ascends in every transitive relation that `le` decides up to ties. -/
theorem sortBy_pairwise (l : List α) : (sortBy le l).Pairwise R := by
  induction l with
  | nil => exact .nil
  | cons a r ih => exact insertBy_pairwise htrans hle hnle a ih

end ordered

/-! ### The duplicate pass (R170) -/

theorem sameId_iff {a b : Cand} : sameId a b = true ↔ a.part = b.part ∧ a.slot = b.slot := by simp [sameId]

theorem sameId_congr {a b : Cand} (h : sameId a b = true) (c : Cand) : sameId a c = sameId b c := by
  obtain ⟨hpart, hslot⟩ := sameId_iff.mp h
  simp only [sameId, hpart, hslot]

theorem sameId_comm (a b : Cand) : sameId a b = sameId b a := by simp only [sameId, BEq.comm]

theorem enumC_indices (l : List Cand) : (enumC l).Pairwise (fun a b => a.1 ≠ b.1) := by
  refine List.pairwise_map.mp (?_ : ((enumC l).map Prod.fst).Pairwise (· ≠ ·))
  rw [enumC, List.map_fst_zip (by simp)]
  exact List.nodup_range

theorem mem_of_mem_livePass {dedup : Bool} {l : List Cand} {c : Nat × Cand} (h : c ∈ livePass dedup l) : c.2 ∈ l := by
  have henum : c ∈ enumC l := by
    cases dedup
    · exact h
    · exact List.mem_of_mem_filter h
  exact (List.of_mem_zip henum).2

theorem livePass_indices (dedup : Bool) (l : List Cand) : (livePass dedup l).Pairwise (fun a b => a.1 ≠ b.1) := by
  cases dedup
  · exact enumC_indices l
  · exact (enumC_indices l).filter _

theorem foldl_isSome {α β : Type} {f : Option β → α → Option β} (hf : ∀ o x, (f o x).isSome = true) (o : Option β) {l : List α} (hl : l ≠ []) :
    (l.foldl f o).isSome = true := by
  rcases List.eq_nil_or_concat l with rfl | ⟨r, x, rfl⟩
  · exact absurd rfl hl
  · rw [List.concat_eq_append, List.foldl_append]
    exact hf _ x

/-- One step of the duplicate pass: the survivor so far against the next entry. -/
def survivor (o : Option (Nat × Cand)) (x : Nat × Cand) : Option (Nat × Cand) :=
  match o with
  | none => some x
  | some y => if beats x.2 y.2 then some x else some y

theorem survivor_isSome (o : Option (Nat × Cand)) (x : Nat × Cand) : (survivor o x).isSome = true := by
  cases o with
  | none => rfl
  | some y => simp only [survivor]; split <;> rfl

theorem survivorIdx_eq (l : List (Nat × Cand)) (c : Nat × Cand) :
    survivorIdx l c = (((l.filter (fun x => sameId c.2 x.2)).foldl survivor none).map Prod.fst).getD c.1 := rfl

/-- Two entries of one identity have one survivor. -/
theorem survivorIdx_congr {l : List (Nat × Cand)} {a b : Nat × Cand} (ha : a ∈ l) (h : sameId a.2 b.2 = true) : survivorIdx l a = survivorIdx l b := by
  have hfilter : l.filter (fun x => sameId b.2 x.2) = l.filter (fun x => sameId a.2 x.2) :=
    List.filter_congr (fun x _ => (sameId_congr h x.2).symm)
  have hne : l.filter (fun x => sameId a.2 x.2) ≠ [] :=
    List.ne_nil_of_mem (List.mem_filter.mpr ⟨ha, sameId_iff.mpr ⟨rfl, rfl⟩⟩)
  obtain ⟨y, hy⟩ := Option.isSome_iff_exists.mp (foldl_isSome survivor_isSome none hne)
  rw [survivorIdx_eq, survivorIdx_eq, hfilter, hy]
  rfl

/-- The duplicate pass leaves no identity twice: an entry stays only where it is its identity's survivor. -/
theorem livePass_identities (l : List Cand) : (livePass true l).Pairwise (fun a b => sameId a.2 b.2 = false) := by
  refine (livePass_indices true l).imp_of_mem (fun {a b} ha hb hne => ?_)
  obtain ⟨ha, hsa⟩ := List.mem_filter.mp ha
  obtain ⟨-, hsb⟩ := List.mem_filter.mp hb
  refine Bool.eq_false_iff.mpr (fun hsame => hne ?_)
  calc a.1 = survivorIdx (enumC l) a := (beq_iff_eq.mp hsa).symm
    _ = survivorIdx (enumC l) b := survivorIdx_congr ha hsame
    _ = b.1 := beq_iff_eq.mp hsb

/-! ### The order of the final stage (R164, R168) -/

theorem candLe_key {image epoch : Nat} {a b : Cand} (h : candLe image epoch a b = true) : a.key ≤ b.key := by
  simp only [candLe, Bool.or_eq_true, Bool.and_eq_true, decide_eq_true_eq, beq_iff_eq] at h
  omega

theorem not_candLe_key {image epoch : Nat} {a b : Cand} (h : candLe image epoch a b = false) : b.key ≤ a.key := by
  simp only [candLe, Bool.or_eq_false_iff, decide_eq_false_iff_not] at h
  omega

/-- The entries that the duplicate pass leaves, in the order of the final stage. -/
def rankedLive (image epoch : Nat) (dedup : Bool) (l : List Cand) : List (Nat × Cand) :=
  sortBy (fun a b => candLe image epoch a.2 b.2) (livePass dedup l)

section final
variable (image epoch : Nat) (dedup : Bool) (l : List Cand)

theorem rankedLive_perm : (rankedLive image epoch dedup l).Perm (livePass dedup l) := sortBy_perm ..

theorem rankedLive_keys : (rankedLive image epoch dedup l).Pairwise (fun a b => a.2.key ≤ b.2.key) :=
  sortBy_pairwise (R := fun a b : Nat × Cand => a.2.key ≤ b.2.key) (fun _ _ _ => Nat.le_trans) (fun _ _ => candLe_key) (fun _ _ => not_candLe_key) _

/-- The final stage keeps the first entries of its order. -/
theorem finalStage_kept (k : Nat) : (finalStage image epoch k dedup l).kept
    = ((rankedLive image epoch dedup l).take (min k (livePass dedup l).length)).map Prod.snd := rfl

/-- What it leaves out stands behind them in its order. -/
theorem mem_finalStage_rest {k : Nat} {b : Cand} (h : b ∈ (finalStage image epoch k dedup l).rest) :
    ∃ c ∈ (rankedLive image epoch dedup l).drop (min k (livePass dedup l).length), c.2 = b := by
  obtain ⟨c, hc, rfl⟩ := List.mem_map.mp h
  obtain ⟨hlive, hout⟩ := List.mem_filter.mp hc
  refine ⟨c, ?_, rfl⟩
  have hmem := (rankedLive_perm image epoch dedup l).mem_iff.mpr hlive
  rw [← List.take_append_drop (min k (livePass dedup l).length) (rankedLive image epoch dedup l)] at hmem
  refine (List.mem_append.mp hmem).resolve_left (fun hkept => ?_)
  have hany : ((rankedLive image epoch dedup l).take (min k (livePass dedup l).length)).any (fun x => x.1 == c.1) = true :=
    List.any_eq_true.mpr ⟨c, hkept, beq_self_eq_true c.1⟩
  rw [Bool.not_eq_true'] at hout
  exact Bool.false_ne_true (hout.symm.trans hany)

theorem finalStage_kept_length (k : Nat) : (finalStage image epoch k dedup l).kept.length = min k (livePass dedup l).length := by
  rw [finalStage_kept, List.length_map, List.length_take, (rankedLive_perm image epoch dedup l).length_eq]
  omega

theorem finalStage_kept_keys (k : Nat) : (finalStage image epoch k dedup l).kept.Pairwise (fun a b => a.key ≤ b.key) := by
  rw [finalStage_kept, List.pairwise_map]
  exact (rankedLive_keys image epoch dedup l).sublist (List.take_sublist ..)

theorem finalStage_kept_best (k : Nat) {a b : Cand} (ha : a ∈ (finalStage image epoch k dedup l).kept) (hb : b ∈ (finalStage image epoch k dedup l).rest) :
    a.key ≤ b.key := by
  obtain ⟨x, hx, rfl⟩ := List.mem_map.mp ha
  obtain ⟨y, hy, rfl⟩ := mem_finalStage_rest image epoch dedup l hb
  have hkeys := rankedLive_keys image epoch dedup l
  rw [← List.take_append_drop (min k (livePass dedup l).length) (rankedLive image epoch dedup l)] at hkeys
  exact (List.pairwise_append.mp hkeys).2.2 x hx y hy

theorem finalStage_kept_identities (k : Nat) : (finalStage image epoch k true l).kept.Pairwise (fun a b => sameId a b = false) := by
  have hranked := (rankedLive_perm image epoch true l).symm.pairwise (livePass_identities l)
    (fun {a b} h => (sameId_comm b.2 a.2).trans h)
  rw [finalStage_kept, List.pairwise_map]
  exact hranked.sublist (List.take_sublist ..)

theorem mem_of_mem_kept {k : Nat} {a : Cand} (h : a ∈ (finalStage image epoch k dedup l).kept) : a ∈ l := by
  obtain ⟨c, hc, rfl⟩ := List.mem_map.mp h
  exact mem_of_mem_livePass ((rankedLive_perm image epoch dedup l).mem_iff.mp (List.mem_of_mem_take hc))

end final

/-! ### The bytes of a result (R172, R177 to R179) -/

theorem entryBytes_length (c : Cand) : (entryBytes c).length = 16 := by simp [entryBytes, toLE_length]

theorem sentinelBytes_length (asc : Bool) : (sentinelBytes asc).length = 16 := by simp [sentinelBytes, toLE_length]

theorem flatMap_entryBytes_length (l : List Cand) : (l.flatMap entryBytes).length = 16 * l.length := by
  simp [List.length_flatMap, entryBytes_length, Nat.mul_comm]

theorem resultBytes_length {k : Nat} {f : Final} (h : f.kept.length ≤ k) (mass epoch : Nat) (asc widened : Bool) (temp : F32) (ls : List CList) :
    (resultBytes k mass asc temp epoch f ls widened).length = 16 * k + 32 := by
  simp only [resultBytes, List.length_append, flatMap_entryBytes_length, List.length_flatten, List.map_replicate, List.sum_replicate,
    sentinelBytes_length, toLE_length, smul_eq_mul]
  omega

/-! ### RERANK (05 R143) -/

/-- Vectors that no shard guard rebuilds are read from the node's own memory. -/
theorem engineEv_own {s : State} (h : flashWait s = false) (d : Desc) (ix : Index) (v : PV) (p : Nat) (a : Ask) (scatter : Bool) (l : List WEnt) :
    engineEv s d ix v p a scatter none l = ofExcept (engineAll d.tenant ix v p a scatter s l) := by
  simp [engineEv, h]

/-- What a channel engine is asked for. -/
def rerankAsk (req : RerankReq) : Ask :=
  { q1 := req.query, nav := ⟨[], [], fZero⟩, k := req.depthK, beam := 0, depth := req.items.length, plies := 0, widenPlies := 0, filter := noEdge, preds := req.preds }

/-- The candidates of a request, as an engine looks them up. -/
def rerankItems (req : RerankReq) (v : PV) : List WEnt :=
  req.items.map (fun i =>
    { key := 0, score := fZero, slot := i.slot, ring := if i.side then some (i.vindex - v.d.slots) else none, userKey := i.userKey, version := i.version })

/-- The partial list that an engine hands back. -/
def partialOf (ch : Nat) (req : RerankReq) (cs : List Cand) : PartList :=
  ⟨ch, req.tenant, req.index, req.partition, cs.map (fun c => (c.userKey, c.score, c.key, c.slot, c.eflags, c.version))⟩

section rerank
variable {s : State} {ch : Nat} {req : RerankReq} (hwf : wellFormed (.rerank ch req) = true)
  {r : IdxRec} (hr : idxRec s req.tenant req.index = some r) {ix : Index} (hix : findIndex s req.tenant req.index = some ix)
include hwf hr hix

theorem exec_rerank_waits (hflash : flashWait s = true) : exec (.rerank ch req) s = .next s := by
  have hrun : runRerank s ch req = s := by simp [runRerank, hr, hix, hflash]
  change onUnit s _ (runRerank s ch req) = _
  rw [hrun]
  exact onUnit_keep hwf rfl

theorem exec_rerank_partial (hflash : flashWait s = false) {v : PV} (hv : v = pvAt s req.tenant req.index req.partition req.epoch r ix noEdge)
    (hguard : ownGuard s req.tenant v.h.vecObj = none) {s1 : State} {cs : List Cand}
    (heng : engineAll req.tenant ix v req.partition (rerankAsk req) false s ((rerankItems req v).filter (fun e => vecChan r v.h (vecIndex v e) == ch)) = (s1, .ok cs)) :
    exec (.rerank ch req) s = .next { dropAsked s1 (.tenant req.tenant 65) ch with pending := s.pending, partials := s.partials ++ [partialOf ch req cs] } := by
  subst hv
  rw [rerankAsk, rerankItems] at heng
  have hrun : runRerank s ch req = { dropAsked s1 (.tenant req.tenant 65) ch with partials := s.partials ++ [partialOf ch req cs] } := by
    simp only [runRerank, hr, hix, hflash, hguard, engineEv_own hflash, askerOf, heng, ofExcept]
    rfl
  change onUnit s _ (runRerank s ch req) = _
  rw [hrun, onUnit_ok hwf]

end rerank

/-- Settles O50: the final stage takes the head of a sorted duplicate pass; a result's parts have fixed lengths; a RERANK without a guard set reads its own vectors. -/
theorem finalStageKeepsTheBest : Obligations.FinalStageKeepsTheBest := by
  unfold Obligations.FinalStageKeepsTheBest
  refine ⟨fun image epoch k dedup l => ⟨finalStage_kept_length .., finalStage_kept_keys .., fun a ha b hb => finalStage_kept_best _ _ _ _ k ha hb, ?_,
    fun a => mem_of_mem_kept _ _ _ _⟩, fun k mass epoch asc widened temp f ls h => resultBytes_length h .., fun s ch req r ix s1 cs hwf hr hix =>
    ⟨exec_rerank_waits hwf hr hix, fun v hflash hv hguard heng => exec_rerank_partial hwf hr hix hflash hv hguard heng⟩⟩
  rintro rfl
  exact finalStage_kept_identities ..

end Sys2Proof.Machine
end

section
/-! SUPPORT. How SEARCH, SEARCH_SCAN and TOPK_DOT end (05 R135 to R137, R149 to R154; 06 R180 to R183; 11 R355, R359), and the statement about them. -/

namespace Sys2Proof.Machine

open Sys2Proof

/-! ### Results at the result address (06 R180; 11 R355) -/

theorem Answered.withPending {s t : State} {d : Desc} {l : List Answer} (h : Answered s d l t) (p : List Instr) : Answered s d l { t with pending := p } := by
  obtain ⟨hdescs, hrecs, htt, hread, hout, hframe, hstreams⟩ := h
  exact ⟨hdescs, hrecs, htt, hread, hout, congrArg (fun x : State => { x with pending := p }) hframe, hstreams⟩

/-- The end of a request that host memory can take. -/
theorem finishQueries_answered {s : State} {d : Desc} (hopen : hostOpen s d.tenant = true) (l : List Answer) : Answered s d l (finishQueries s d l) := by
  refine ⟨?descs, ?recs, completeWith_getTt .., ?read, fun b hb => ?outside, ?frame, ?streams⟩
  case descs => rw [finishQueries, completeWith_descs, hostWrite_qe]
  case recs =>
    obtain ⟨dups, h⟩ := completeWith_recs (hostWrite s d.tenant (dfield d 24 8) (l.flatMap (fun a => a.bytes))) d (if l.any (fun a => a.short) then stDoneShort else stDone)
      (orFlags (l.map (fun a => a.flags))) ((l.map (fun a => a.valid)).sum) d.epoch 0 []
    rw [hostWrite_qe] at h
    exact ⟨dups, h⟩
  case read =>
    rw [hostRead, finishQueries, completeWith_hostMem]
    exact hostRead_hostWrite s d.tenant (dfield d 24 8) _ hopen
  case outside =>
    rw [finishQueries, completeWith_hostMem]
    exact hostWrite_outside s d.tenant (dfield d 24 8) b _ hb
  case frame => apply State.ext <;> simp [finishQueries, completeWith_fab]
  case streams => exact ((StreamsKept.self s).of_bd (hostWrite_bd ..)).trans (completeWith_streams ..)

/-- A command whose effect is such an end. -/
theorem onUnit_answered {s x : State} {ok : Bool} (hok : ok = true) {d : Desc} (hopen : hostOpen x d.tenant = true) {l : List Answer} {e : State}
    (he : e = finishQueries x d l) : ∃ t, onUnit s ok e = .next t ∧ Answered x d l t :=
  ⟨_, onUnit_ok hok, he ▸ (finishQueries_answered hopen l).withPending _⟩

/-- A command whose effect is a completion with a status alone. -/
theorem onUnit_completed {s x : State} {ok : Bool} (hok : ok = true) {d : Desc} {st : Nat} {e : State} (he : e = complete x d st) (hp : x.pending = s.pending) :
    ∃ t, onUnit s ok e = .next t ∧ Completed x d st 0 t ∧ OnlyQueues x t :=
  ⟨_, onUnit_keep hok ((congrArg State.pending he).trans ((complete_pend x d st).trans hp)), he ▸ complete_completed x d st, he ▸ complete_only x d st⟩

/-! ### After an evaluation -/

section onEv
variable {α : Type} {s s1 : State} {d : Desc} {num : Nat} {x : State × Ev α} {f : State → α → State}

theorem onEv_ok {a : α} (h : x = (s1, .ok a)) : onEv s d num x f = f s1 a := by rw [h]; rfl

theorem onEv_err {st : Nat} (h : x = (s1, .err st)) : onEv s d num x f = complete s1 d st := by rw [h]; rfl

theorem onEv_wait (h : x = (s1, .wait)) : onEv s d num x f = waitLists s d := by rw [h]; rfl

theorem onEv_need {l : List AskOut} (h : x = (s1, .need l)) {s2 : State} (hask : askAll s d num l = (s2, true)) : onEv s d num x f = waitLists s2 d := by
  simp only [h, onEv, hask, if_true]

end onEv

theorem waitLists_pending (s : State) (d : Desc) : (waitLists s d).pending = s.pending := by
  unfold waitLists
  split <;> rfl

/-! ### The checks that SEARCH and SEARCH_SCAN share (05 R136; 11 R359) -/

section checks
variable {s : State} {d : Desc} {fieldsOk : IdxRec → Bool} {f : Batch → State}

theorem withBatch_noIndex (h : idxRec s d.tenant (dfield d 32 4) = none) : withBatch s d fieldsOk f = complete s d stMalformed := by
  simp only [withBatch, h]

section index
variable {r : IdxRec} (hr : idxRec s d.tenant (dfield d 32 4) = some r)
include hr

theorem withBatch_refused (h : namesFreed s d = true ∨ fieldsOk r = false) : withBatch s d fieldsOk f = complete s d stMalformed := by
  have hbad : (namesFreed s d || !fieldsOk r) = true := by rcases h with h | h <;> simp [h]
  simp only [withBatch, hr, hbad, if_true]

variable (hnames : namesFreed s d = false) (hfields : fieldsOk r = true)
include hnames hfields

theorem withBatch_unread (h : d.hostFault = true ∨ hostOpen s d.tenant = false) : withBatch s d fieldsOk f = complete s d stHost := by
  have hbad : (d.hostFault || !hostOpen s d.tenant) = true := by rcases h with h | h <;> simp [h]
  simp [withBatch, hr, hnames, hfields, hbad]

variable (hfault : d.hostFault = false) (hopen : hostOpen s d.tenant = true) {b : Batch}
  (hb : mkBatch s d (hostRead s (dfield d 16 8) (queryLen d r)) = some b)
include hfault hopen hb

theorem withBatch_noJournal (h : b.ix.journal = none) : withBatch s d fieldsOk f = complete s d stNoRes := by
  simp [withBatch, hr, hnames, hfields, hfault, hopen, hb, h]

variable (hjournal : b.ix.journal.isSome = true)
include hjournal

theorem withBatch_built : withBatch s d fieldsOk f = if dirPending b.ix d.epoch || discardWaits s d b then s else f b := by
  have hnone : b.ix.journal.isNone = false := by rw [← Option.not_isSome, hjournal]; rfl
  simp [withBatch, hr, hnames, hfields, hfault, hopen, hb, hnone]

theorem withBatch_waits (h : dirPending b.ix d.epoch = true ∨ discardWaits s d b = true) : withBatch s d fieldsOk f = s :=
  (withBatch_built hr hnames hfields hfault hopen hb hjournal).trans (if_pos (Bool.or_eq_true_iff.mpr h))

theorem withBatch_runs (hdir : dirPending b.ix d.epoch = false) (hdiscard : discardWaits s d b = false) : withBatch s d fieldsOk f = f b :=
  (withBatch_built hr hnames hfields hfault hopen hb hjournal).trans (if_neg (by simp [hdir, hdiscard]))

end index
end checks

/-! ### What a request runs once it is built -/

/-- The `n` best partitions of a SEARCH in the order in which they are probed (05 R137). -/
def probed (b : Batch) (n : Nat) : List Nat := sortNat ((rankParts b ((b.asks.map (fun a => a.q1)).headD [])).take n)

/-- A SEARCH's result from the lists of its partitions. -/
def searchAnswer (d : Desc) (b : Batch) (widened : Bool) (per : List (List (List CList))) : Answer :=
  answerOf b.tie.image d.epoch (dfield d 36 2) (massModeOf d) (finalAsc b) true widened (tempOf d) (listsFor per 0)

def searchOn (s : State) (d : Desc) (b : Batch) : State :=
  onEv s d b.num (mapEv (evalPart b) s (probed b (dfield d 42 1))) (fun s1 per =>
    if (searchAnswer d b false per).short && decide (0 < dfield d 43 1) then
      onEv s d b.num (mapEv (evalPart b) s (probed b (dfield d 42 1 + dfield d 43 1))) (fun s2 per2 => finishQueries s2 d [searchAnswer d b true per2])
    else finishQueries s1 d [searchAnswer d b false per])

theorem runSearch_eq (s : State) (d : Desc) : runSearch s d = withBatch s d (searchFieldsOk s d) (searchOn s d) := rfl

/-- A scan's results, one for each of its queries. -/
def scanAnswers (d : Desc) (b : Batch) (per : List (List (List CList))) : List Answer :=
  (List.range b.asks.length).map (fun i =>
    answerOf b.tie.image d.epoch (dfield d 36 2) (massModeOf d) (finalAsc b) true false (tempOf d) (listsFor per i))

def scanOn (s : State) (d : Desc) (b : Batch) : State :=
  if !ownBuffersOk s b then complete s d stMalformed
  else onEv s d b.num (mapEv (evalPart b) s (scanParts d b.r)) (fun s1 per => finishQueries s1 d (scanAnswers d b per))

theorem runScan_eq (s : State) (d : Desc) : runScan s d = withBatch s d (scanFieldsOk s d) (scanOn s d) := rfl

section outcomes
variable {s s1 : State} {d : Desc} {b : Batch} {per : List (List (List CList))}

theorem searchOn_narrow (hper : mapEv (evalPart b) s (probed b (dfield d 42 1)) = (s1, .ok per))
    (h : (searchAnswer d b false per).short = false ∨ dfield d 43 1 = 0) : searchOn s d b = finishQueries s1 d [searchAnswer d b false per] := by
  have hwiden : ((searchAnswer d b false per).short && decide (0 < dfield d 43 1)) = false := by rcases h with h | h <;> simp [h]
  rw [searchOn, onEv_ok hper, hwiden, if_neg Bool.false_ne_true]

theorem searchOn_widened (hper : mapEv (evalPart b) s (probed b (dfield d 42 1)) = (s1, .ok per))
    (hshort : (searchAnswer d b false per).short = true) (hmore : dfield d 43 1 ≠ 0) {s2 : State} {per2 : List (List (List CList))}
    (hper2 : mapEv (evalPart b) s (probed b (dfield d 42 1 + dfield d 43 1)) = (s2, .ok per2)) :
    searchOn s d b = finishQueries s2 d [searchAnswer d b true per2] := by
  have hwiden : ((searchAnswer d b false per).short && decide (0 < dfield d 43 1)) = true := by simp [hshort, Nat.pos_of_ne_zero hmore]
  rw [searchOn, onEv_ok hper, hwiden, if_pos rfl, onEv_ok hper2]

theorem scanOn_noRoom (h : ownBuffersOk s b = false) : scanOn s d b = complete s d stMalformed := by
  rw [scanOn, h]; rfl

theorem scanOn_eq (h : ownBuffersOk s b = true) :
    scanOn s d b = onEv s d b.num (mapEv (evalPart b) s (scanParts d b.r)) (fun s1 per => finishQueries s1 d (scanAnswers d b per)) := by
  rw [scanOn, h]; rfl

end outcomes

/-! ### SEARCH and SEARCH_SCAN as one request -/

/-- The command of each query opcode. -/
def IsQuery (q : QId) (seq op : Nat) (c : Instr) : Prop := op = 0x01 ∧ c = .search q seq ∨ op = 0x02 ∧ c = .searchScan q seq

def queryFieldsOk (op : Nat) (s : State) (d : Desc) (r : IdxRec) : Bool := if op = 0x01 then searchFieldsOk s d r else scanFieldsOk s d r

def queryParts (op : Nat) (d : Desc) (b : Batch) : List Nat := if op = 0x01 then probed b (dfield d 42 1) else scanParts d b.r

def queryOn (op : Nat) (s : State) (d : Desc) (b : Batch) : State := if op = 0x01 then searchOn s d b else scanOn s d b

theorem queryOn_search (s : State) (d : Desc) (b : Batch) : queryOn 0x01 s d b = searchOn s d b := if_pos rfl

theorem queryOn_scan (s : State) (d : Desc) (b : Batch) : queryOn 0x02 s d b = scanOn s d b := if_neg (by decide)

/-- A query with room for its scan buffers goes on from the lists of its partitions. -/
theorem queryOn_eq {op : Nat} {s : State} {d : Desc} {b : Batch} (hop : op = 0x01 ∨ op = 0x02) (hroom : op = 0x02 → ownBuffersOk s b = true) :
    ∃ f, queryOn op s d b = onEv s d b.num (mapEv (evalPart b) s (queryParts op d b)) f := by
  rcases hop with rfl | rfl
  · exact ⟨_, queryOn_search s d b⟩
  · exact ⟨_, (queryOn_scan s d b).trans (scanOn_eq (hroom rfl))⟩

theorem exec_query {s : State} {q : QId} {seq op : Nat} {c : Instr} {d : Desc} (hc : IsQuery q seq op c) (hwf : wellFormed c = true) (hd : placedDesc s q seq op = some d) :
    exec c s = onUnit s true (withBatch s d (queryFieldsOk op s d) (queryOn op s d)) := by
  rcases hc with ⟨rfl, rfl⟩ | ⟨rfl, rfl⟩
  · change execSearch q seq s = _
    rw [execSearch, hwf, hd]
    rfl
  · change execSearchScan q seq s = _
    rw [execSearchScan, hwf, hd]
    rfl

/-! ### TOPK_DOT (06 R181 to R183) -/

theorem runTopk_answers {s : State} {d : Desc} {o : Obj} {p : Position} {tn : Tensor} {qs : List (List F32)}
    (ho : findObj s d.tenant (dfield d 32 4) = some o) (hp : posOf s d.tenant = some p) (hnames : namesFreed s d = false) (htype : o.type = 0x05)
    (htn : tn = tensorOf (memRead o.hdr 0 24)) (hfields : topkFieldsOk d o tn p = true) (hfault : d.hostFault = false) (hopen : hostOpen s d.tenant = true)
    (hqs : qs = (List.range (dfield d 38 2)).map (fun i => f32s (hostRead s (dfield d 16 8 + i * stridesOf tn.cols) (4 * tn.cols))))
    (hfinite : qs.all (fun x => x.all isFinite) = true) (hkeys : keyBad s o tn (dfield d 40 8) (topkRows d tn) = none) :
    runTopk s d = finishQueries s { d with epoch := 0 } (qs.map (fun x =>
      answerOf p.digest 0 (dfield d 36 2) (massModeOf d) false false false (tempOf d)
        ((keyRanges p tn.rows (dfield d 40 8) (topkRows d tn)).map (keyList p.digest (dfield d 36 2) tn o.data x)))) := by
  subst htn hqs
  rw [runTopk, ho, hp]
  dsimp only
  rw [if_neg (by simp [hnames, htype, hfields]), if_neg (by simp [hfault, hopen]), if_neg (by simp [hfinite]), hkeys]

theorem exec_topkDot {s : State} {q : QId} {seq : Nat} {d : Desc} (hwf : wellFormed (.topkDot q seq) = true) (hd : placedDesc s q seq 0x03 = some d) :
    exec (.topkDot q seq) s = onUnit s true (runTopk s d) := by
  change execTopkDot q seq s = _
  rw [execTopkDot, hwf, hd]

/-! ### The statement -/

section refusals
variable {s : State} {q : QId} {seq op : Nat} {c : Instr} {d : Desc} (hc : IsQuery q seq op c) (hwf : wellFormed c = true) (hd : placedDesc s q seq op = some d)
include hc hwf hd

theorem exec_query_completed {x : State} {st : Nat} (h : withBatch s d (queryFieldsOk op s d) (queryOn op s d) = complete x d st) (hp : x.pending = s.pending) :
    ∃ t, exec c s = .next t ∧ Completed x d st 0 t ∧ OnlyQueues x t := by
  rw [exec_query hc hwf hd]
  exact onUnit_completed rfl h hp

theorem exec_query_answered {x : State} {l : List Answer} (h : withBatch s d (queryFieldsOk op s d) (queryOn op s d) = finishQueries x d l)
    (hopen : hostOpen x d.tenant = true) : ∃ t, exec c s = .next t ∧ Answered x d l t := by
  rw [exec_query hc hwf hd]
  exact onUnit_answered rfl hopen h

end refusals

/-- Settles O49: a request is the shared checks, then an evaluation of its partitions, then its results; each outcome of each of the three is one lemma above. -/
theorem searchCommandsAnswer : Obligations.SearchCommandsAnswer := by
  unfold Obligations.SearchCommandsAnswer
  refine ⟨?search, ?scan, ?topk, ?outcomes⟩
  case search =>
    intro s s1 q seq d b per answer hwf hd hr hnames hfields hfault hopen hb hjournal hdir hdiscard hanswer hper
    obtain rfl : answer = searchAnswer d b := funext fun w => funext fun x => hanswer w x
    have hruns := withBatch_runs (fieldsOk := queryFieldsOk 0x01 s d) (f := queryOn 0x01 s d) hr hnames hfields hfault hopen hb hjournal hdir hdiscard
    exact ⟨fun hnarrow => exec_query_answered (.inl ⟨rfl, rfl⟩) hwf hd (hruns.trans ((queryOn_search s d b).trans (searchOn_narrow hper hnarrow))),
      fun hshort hmore s2 per2 hper2 => exec_query_answered (.inl ⟨rfl, rfl⟩) hwf hd (hruns.trans ((queryOn_search s d b).trans (searchOn_widened hper hshort hmore hper2)))⟩
  case scan =>
    intro s s1 q seq d b per hwf hd hr hnames hfields hfault hopen hb hjournal hdir hdiscard hroom hper
    have hruns := withBatch_runs (fieldsOk := queryFieldsOk 0x02 s d) (f := queryOn 0x02 s d) hr hnames hfields hfault hopen hb hjournal hdir hdiscard
    exact exec_query_answered (.inr ⟨rfl, rfl⟩) hwf hd (hruns.trans ((queryOn_scan s d b).trans ((scanOn_eq hroom).trans (onEv_ok hper))))
  case topk =>
    intro s q seq d o p tn qs hwf hd ho hp hnames htype htn hfields hfault hopen hqs hfinite hkeys
    rw [exec_topkDot hwf hd]
    exact onUnit_answered (d := { d with epoch := 0 }) rfl hopen (runTopk_answers ho hp hnames htype htn hfields hfault hopen hqs hfinite hkeys)
  case outcomes =>
    intro s q seq op c d hc hwf hd
    have hcompleted {st : Nat} (h : withBatch s d (queryFieldsOk op s d) (queryOn op s d) = complete s d st) := exec_query_completed hc hwf hd h rfl
    refine ⟨fun hnone => hcompleted (withBatch_noIndex hnone), fun r hr hbad => hcompleted (withBatch_refused hr hbad), fun r hr hnames hfields => ?_⟩
    replace hfields : queryFieldsOk op s d r = true := hfields
    refine ⟨fun hhost => hcompleted (withBatch_unread hr hnames hfields hhost), fun b hfault hopen hb => ⟨fun hnone => ?noJournal, fun hj hwait => ?waits,
      fun hop hj hdir hdiscard hroom => ?noRoom, fun ps hj hdir hdiscard hroom hps => ?evaluated⟩⟩
    case noJournal => exact hcompleted (withBatch_noJournal hr hnames hfields hfault hopen hb hnone)
    case waits => rw [exec_query hc hwf hd, withBatch_waits hr hnames hfields hfault hopen hb hj hwait]; rfl
    case noRoom =>
      subst hop
      exact hcompleted ((withBatch_runs hr hnames hfields hfault hopen hb hj hdir hdiscard).trans ((queryOn_scan s d b).trans (scanOn_noRoom hroom)))
    case evaluated =>
      obtain ⟨f, hf⟩ := queryOn_eq (d := d) (hc.imp And.left And.left) hroom
      have hruns := (withBatch_runs hr hnames hfields hfault hopen hb hj hdir hdiscard).trans hf
      obtain rfl : ps = queryParts op d b := hps
      refine ⟨fun s1 st herr hp => exec_query_completed hc hwf hd (hruns.trans (onEv_err herr)) hp, fun s1 hwait => ?_, fun s1 l s2 hneed hask => ?_⟩
      · rw [exec_query hc hwf hd, hruns, onEv_wait hwait]
        exact onUnit_keep rfl (waitLists_pending s d)
      · rw [exec_query hc hwf hd, hruns, onEv_need hneed hask, onUnit_true]

end Sys2Proof.Machine
end

section
/-! SUPPORT. The sorting network of a Square (06 R165, R166): bitonic blocks and their half cleaners, what a stage and a level of the network do, and the statement about SORT64 and MERGE128. -/

namespace Sys2Proof.Machine

open Sys2Proof

/-! ### Half cleaners on bitonic blocks -/

/-- The values at four lanes go up and down in turn, by a gap that separates the first and third from the others. -/
def Alternates (v : Nat → Int) (a b c d : Nat) : Prop :=
  max (v a) (v c) < min (v b) (v d) ∨ max (v b) (v d) < min (v a) (v c)

/-- Each aligned block of `h` lanes is bitonic: no four of its lanes alternate. -/
def BitonicBlocks (h : Nat) (v : Nat → Int) : Prop := ∀ a b c d, a < b → b < c → c < d → a / h = d / h → ¬Alternates v a b c d

/-- Compare-exchange of lanes `h` apart: in each block of `2 * h` lanes the lower half takes the smaller values. -/
def halfClean (h : Nat) (v : Nat → Int) (i : Nat) : Int := if i / h % 2 = 0 then min (v i) (v (i + h)) else max (v (i - h)) (v i)

theorem alternates_neg (v : Nat → Int) (a b c d : Nat) : Alternates (fun i => -v i) a b c d ↔ Alternates v a b c d := by
  simp only [Alternates, max_neg_neg, min_neg_neg, neg_lt_neg_iff]
  exact Or.comm

section cleaner
variable {v : Nat → Int} {h : Nat}

/-- Each of the four minima stands at one of its two lanes; wherever the smaller two stand, two lanes of the larger ones lie between and around them. -/
theorem not_alternates_min {a b c d : Nat} (horder : a < b ∧ b < c ∧ c < d ∧ d < a + h)
    (hv : ∀ x y z w, a ≤ x ∧ x < y ∧ y < z ∧ z < w ∧ w ≤ d + h → ¬Alternates v x y z w) :
    ¬Alternates (fun i => min (v i) (v (i + h))) a b c d := by
  rintro (halt | halt) <;> dsimp only at halt
  · rcases min_choice (v a) (v (a + h)) with ha | ha <;> rcases min_choice (v c) (v (c + h)) with hc | hc
    · exact hv a b c d (by omega) (.inl (by omega))
    · exact hv a (b + h) (c + h) (d + h) (by omega) (.inl (by omega))
    · exact hv b c d (a + h) (by omega) (.inr (by omega))
    · exact hv b (a + h) (b + h) (c + h) (by omega) (.inr (by omega))
  · rcases min_choice (v b) (v (b + h)) with hb | hb <;> rcases min_choice (v d) (v (d + h)) with hd | hd
    · exact hv a b c d (by omega) (.inr (by omega))
    · exact hv a b c (d + h) (by omega) (.inr (by omega))
    · exact hv c d (a + h) (b + h) (by omega) (.inr (by omega))
    · exact hv (a + h) (b + h) (c + h) (d + h) (by omega) (.inr (by omega))

theorem not_alternates_max {a b c d : Nat} (horder : a < b ∧ b < c ∧ c < d ∧ d < a + h)
    (hv : ∀ x y z w, a ≤ x ∧ x < y ∧ y < z ∧ z < w ∧ w ≤ d + h → ¬Alternates v x y z w) :
    ¬Alternates (fun i => max (v i) (v (i + h))) a b c d := by
  rw [← alternates_neg]
  simp only [← min_neg_neg]
  exact not_alternates_min horder fun x y z w hxw => (alternates_neg v x y z w).not.mpr (hv x y z w hxw)

/-- The smaller of one pair is at most the larger of another: otherwise the two pairs' four lanes alternate. -/
theorem min_le_max_of_not_alternates {i j : Nat} (hij : i < j + h ∧ j < i + h)
    (hv : ∀ x y z w, min i j ≤ x ∧ x < y ∧ y < z ∧ z < w ∧ w ≤ max i j + h → ¬Alternates v x y z w) :
    min (v i) (v (i + h)) ≤ max (v j) (v (j + h)) := by
  by_contra hlt
  rcases lt_trichotomy i j with hlt' | rfl | hlt'
  · exact hv i j (i + h) (j + h) (by omega) (.inr (by omega))
  · omega
  · exact hv j i (j + h) (i + h) (by omega) (.inl (by omega))

theorem halfClean_low {i : Nat} (hi : i / h % 2 = 0) : halfClean h v i = min (v i) (v (i + h)) := if_pos hi

theorem halfClean_high (hh : 0 < h) {i : Nat} (hi : i / h % 2 = 0) : halfClean h v (i + h) = max (v i) (v (i + h)) := by
  rw [halfClean, Nat.add_div_right i hh, if_neg (by omega), Nat.add_sub_cancel]

/-- A lane is in the lower half of its block, or `h` above such a lane. -/
theorem low_or_high (hh : 0 < h) (i : Nat) : i / h % 2 = 0 ∨ ∃ k, i = k + h ∧ k / h % 2 = 0 := by
  rcases Nat.mod_two_eq_zero_or_one (i / h) with hi | hi
  · exact .inl hi
  · have hle : h ≤ i := Nat.le_of_not_lt fun hlt => by simp [Nat.div_eq_of_lt hlt] at hi
    have hdiv := Nat.add_div_right (i - h) hh
    rw [Nat.sub_add_cancel hle] at hdiv
    exact .inr ⟨i - h, by omega, by omega⟩

theorem div_double (i : Nat) : i / (2 * h) = i / h / 2 := by rw [Nat.mul_comm, Nat.div_div_eq_div_mul]

theorem div_eq_of_between {a b d : Nat} (hab : a ≤ b) (hbd : b ≤ d) (had : a / h = d / h) : b / h = a / h :=
  le_antisymm ((Nat.div_le_div_right hbd).trans_eq had.symm) (Nat.div_le_div_right hab)

/-- Lanes of a block are less than its length apart. -/
theorem lt_add_of_div_eq (hh : 0 < h) {i j : Nat} (hij : i / h = j / h) : j < i + h := by
  have hi := Nat.div_mul_le_self i h
  have hj := Nat.lt_div_mul_add hh (a := j)
  rw [hij] at hi
  omega

variable (hh : 0 < h) (hv : BitonicBlocks (2 * h) v)
include hh hv

/-- Lanes from the lower half's lane `i` to `h` above its lane `j` lie in one block. -/
theorem BitonicBlocks.within {i j : Nat} (hi : i / h % 2 = 0) (hij : i / h = j / h) (x y z w : Nat)
    (hxw : i ≤ x ∧ x < y ∧ y < z ∧ z < w ∧ w ≤ j + h) : ¬Alternates v x y z w := by
  obtain ⟨hix, hxy, hyz, hzw, hwj⟩ := hxw
  have hblock : i / (2 * h) = (j + h) / (2 * h) := by
    rw [div_double, div_double, Nat.add_div_right j hh]
    omega
  exact hv x y z w hxy hyz hzw ((div_eq_of_between hix (by omega) hblock).trans (div_eq_of_between (by omega) hwj hblock).symm)

/-- The smaller halves of a bitonic block's pairs are bitonic, and so are the larger ones. -/
theorem halfClean_bitonic : BitonicBlocks h (halfClean h v) := by
  intro a b c d hab hbc hcd had
  have hb := div_eq_of_between hab.le (hbc.trans hcd).le had
  have hc := div_eq_of_between (hab.trans hbc).le hcd.le had
  rcases low_or_high hh a with ha | ⟨k, rfl, hk⟩
  · have hlow := not_alternates_min ⟨hab, hbc, hcd, lt_add_of_div_eq hh had⟩ (hv.within hh ha had)
    rw [Alternates, halfClean_low ha, halfClean_low (by omega), halfClean_low (by omega), halfClean_low (by omega)]
    exact hlow
  · obtain ⟨b, rfl⟩ := Nat.exists_eq_add_of_le' (show h ≤ b by omega)
    obtain ⟨c, rfl⟩ := Nat.exists_eq_add_of_le' (show h ≤ c by omega)
    obtain ⟨d, rfl⟩ := Nat.exists_eq_add_of_le' (show h ≤ d by omega)
    simp only [Nat.add_div_right _ hh] at hb hc had
    have hkd : k / h = d / h := by omega
    have horder : k < b ∧ b < c ∧ c < d ∧ d < k + h := ⟨by omega, by omega, by omega, lt_add_of_div_eq hh hkd⟩
    have hhigh := not_alternates_max horder (hv.within hh hk hkd)
    rw [Alternates, halfClean_high hh hk, halfClean_high hh (by omega), halfClean_high hh (by omega), halfClean_high hh (by omega)]
    exact hhigh

/-- The lower half of a cleaned block stays below the upper half. -/
theorem halfClean_across {i j : Nat} (hij : i / (2 * h) = j / (2 * h)) (hlt : i / h < j / h) : halfClean h v i ≤ halfClean h v j := by
  rw [div_double, div_double] at hij
  have hi : i / h % 2 = 0 := by omega
  rcases low_or_high hh j with hj | ⟨k, rfl, hk⟩
  · omega
  · rw [Nat.add_div_right k hh] at hij hlt
    rw [halfClean_low hi, halfClean_high hh hk]
    have hik : i / h = k / h := by omega
    refine min_le_max_of_not_alternates ⟨lt_add_of_div_eq hh hik.symm, lt_add_of_div_eq hh hik⟩ ?_
    rcases le_total i k with hle | hle
    · rw [min_eq_left hle, max_eq_right hle]
      exact hv.within hh hi hik
    · rw [min_eq_right hle, max_eq_left hle]
      exact hv.within hh hk hik.symm

end cleaner

/-- A cleaned lane holds a value of its block. -/
theorem halfClean_mem {h : Nat} (hh : 0 < h) (v : Nat → Int) (i : Nat) : ∃ k, k / (2 * h) = i / (2 * h) ∧ halfClean h v i = v k := by
  simp only [div_double]
  rcases low_or_high hh i with hi | ⟨k, rfl, hk⟩
  · rw [halfClean_low hi]
    rcases min_choice (v i) (v (i + h)) with hmin | hmin
    · exact ⟨i, rfl, hmin⟩
    · exact ⟨i + h, by rw [Nat.add_div_right i hh]; omega, hmin⟩
  · rw [halfClean_high hh hk]
    rcases max_choice (v k) (v (k + h)) with hmax | hmax
    · exact ⟨k, by rw [Nat.add_div_right k hh]; omega, hmax⟩
    · exact ⟨k + h, rfl, hmax⟩

/-! ### A merge of bitonic blocks, stage by stage -/

/-- Before stage `q - 1` of a merge of blocks of `n` lanes: each block of `2 ^ q` lanes is bitonic, and in a block of `n` lanes they stand in order. -/
structure Merging (n q : Nat) (v : Nat → Int) : Prop where
  bitonic : BitonicBlocks (2 ^ q) v
  across : ∀ i j, i / n = j / n → i / 2 ^ q < j / 2 ^ q → v i ≤ v j

theorem Merging.start {p : Nat} {v : Nat → Int} (hv : BitonicBlocks (2 ^ p) v) : Merging (2 ^ p) p v :=
  ⟨hv, fun _ _ heq hlt => absurd heq hlt.ne⟩

theorem Merging.sorted {n : Nat} {v : Nat → Int} (hv : Merging n 0 v) {i j : Nat} (hn : i / n = j / n) (hij : i < j) : v i ≤ v j :=
  hv.across i j hn (by simpa using hij)

/-- Lanes of a block of `2 ^ q` lanes lie in one block of `2 ^ p` lanes. -/
theorem div_two_pow_eq_of_le {p q i j : Nat} (hq : q ≤ p) (hij : i / 2 ^ q = j / 2 ^ q) : i / 2 ^ p = j / 2 ^ p := by
  rw [← Nat.sub_add_cancel hq, Nat.add_comm, pow_add, ← Nat.div_div_eq_div_mul, ← Nat.div_div_eq_div_mul, hij]

theorem Merging.stage {p q : Nat} {v : Nat → Int} (hq : q < p) (hv : Merging (2 ^ p) (q + 1) v) : Merging (2 ^ p) q (halfClean (2 ^ q) v) := by
  have hpow : 2 ^ (q + 1) = 2 * 2 ^ q := Nat.pow_succ'
  have hbitonic : BitonicBlocks (2 * 2 ^ q) v := hpow ▸ hv.bitonic
  refine ⟨halfClean_bitonic (Nat.two_pow_pos q) hbitonic, fun i j hn hlt => ?_⟩
  by_cases hblock : i / (2 * 2 ^ q) = j / (2 * 2 ^ q)
  · exact halfClean_across (Nat.two_pow_pos q) hbitonic hblock hlt
  · obtain ⟨k, hk, hvk⟩ := halfClean_mem (Nat.two_pow_pos q) v i
    obtain ⟨m, hm, hvm⟩ := halfClean_mem (Nat.two_pow_pos q) v j
    rw [hvk, hvm]
    rw [← hpow] at hk hm
    refine hv.across k m ?_ ?_
    · rw [div_two_pow_eq_of_le hq hk, div_two_pow_eq_of_le hq hm, hn]
    · rw [hk, hm, hpow]
      have hle : i / (2 * 2 ^ q) ≤ j / (2 * 2 ^ q) := by
        rw [div_double, div_double]
        exact Nat.div_le_div_right hlt.le
      omega

/-- Lanes that ascend through the even blocks of `h` and descend through the odd ones are bitonic in blocks of `2 * h`. -/
theorem bitonicBlocks_of_up_down {h : Nat} {v : Nat → Int} (hup : ∀ i j, i < j → i / h = j / h → i / h % 2 = 0 → v i ≤ v j)
    (hdown : ∀ i j, i < j → i / h = j / h → i / h % 2 = 1 → v j ≤ v i) : BitonicBlocks (2 * h) v := by
  intro a b c d hab hbc hcd had
  have hb := Nat.div_le_div_right (c := h) hab.le
  have hc := Nat.div_le_div_right (c := h) hbc.le
  have hd := Nat.div_le_div_right (c := h) hcd.le
  rw [div_double, div_double] at had
  rintro (halt | halt)
  · rcases Nat.mod_two_eq_zero_or_one (c / h) with hmod | hmod
    · have := hup b c hbc (by omega) (by omega)
      omega
    · have := hdown c d hcd (by omega) (by omega)
      omega
  · rcases Nat.mod_two_eq_zero_or_one (b / h) with hmod | hmod
    · have := hup a b hab (by omega) (by omega)
      omega
    · have := hdown b c hbc (by omega) (by omega)
      omega

/-! ### Compare-exchange and the stages (R166) -/

theorem laneKey_le_of_before {image a b : Nat} (h : laneBefore image a b = true) : laneKey a ≤ laneKey b := by
  simp only [laneBefore, Bool.or_eq_true, Bool.and_eq_true, decide_eq_true_eq, beq_iff_eq] at h
  rcases h with hlt | ⟨heq, -⟩
  · exact hlt.le
  · exact heq.le

theorem laneKey_le_of_not_before {image a b : Nat} (h : laneBefore image a b = false) : laneKey b ≤ laneKey a := by
  simp only [laneBefore, Bool.or_eq_false_iff, decide_eq_false_iff_not] at h
  exact Nat.le_of_not_lt h.1

/-- Whether lane `i` belongs to an ascending block of level `p`. -/
def netUp (p i : Nat) : Bool := p == 5 || !bit i (p + 1)

/-- The lane whose entry stage `(p, q)` puts at lane `i`. -/
def netSource (image p q : Nat) (l : List Nat) (i : Nat) : Nat :=
  if laneBefore image (l.getD (min i (i ^^^ 2 ^ q)) emptyLane) (l.getD (max i (i ^^^ 2 ^ q)) emptyLane) = netUp p i then i else i ^^^ 2 ^ q

theorem netUp_xor {p q : Nat} (hq : q ≤ p) (i : Nat) : netUp p (i ^^^ 2 ^ q) = netUp p i := by
  have hne : q ≠ p + 1 := by omega
  simp [netUp, bit_eq_testBit, hne]

theorem netUp_five (i : Nat) : netUp 5 i = true := rfl

theorem netUp_eq_of_div_eq {p i j : Nat} (h : i / 2 ^ (p + 1) = j / 2 ^ (p + 1)) : netUp p i = netUp p j := by
  rw [netUp, netUp, bit, bit, h]

/-- The pair's two entries, of which lane `i` takes its own exactly when they stand as its block wants them. -/
theorem netLane_eq (image : Nat) (f : Nat → Nat) (up : Bool) {i j : Nat} (hij : i ≠ j) :
    (if (i == min i j) == up then (cmpEx image (f (min i j)) (f (max i j))).1 else (cmpEx image (f (min i j)) (f (max i j))).2)
      = f (if laneBefore image (f (min i j)) (f (max i j)) = up then i else j) := by
  rcases lt_or_gt_of_ne hij with hlt | hlt
  · rw [min_eq_left hlt.le, max_eq_right hlt.le, cmpEx]
    cases laneBefore image (f i) (f j) <;> cases up <;> simp
  · rw [min_eq_right hlt.le, max_eq_left hlt.le, cmpEx]
    cases laneBefore image (f j) (f i) <;> cases up <;> simp [hij]

theorem xor_two_pow_ne (i q : Nat) : i ≠ i ^^^ 2 ^ q := fun h =>
  (Nat.two_pow_pos q).ne' (Nat.xor_right_injective ((Nat.xor_zero i).trans h).symm)

theorem xor_two_pow_of_low {i q : Nat} (hi : i / 2 ^ q % 2 = 0) : i ^^^ 2 ^ q = i + 2 ^ q := by
  have hdiv : (i ^^^ 2 ^ q) / 2 ^ q = i / 2 ^ q + 1 := by
    rw [Nat.xor_div_two_pow, Nat.div_self (Nat.two_pow_pos q), Nat.xor_one_of_even (Nat.even_iff.mpr hi)]
  have hmod : (i ^^^ 2 ^ q) % 2 ^ q = i % 2 ^ q := by rw [Nat.xor_mod_two_pow, Nat.mod_self, Nat.xor_zero]
  rw [← Nat.div_add_mod (i ^^^ 2 ^ q) (2 ^ q), hdiv, hmod, Nat.mul_succ, Nat.add_right_comm, Nat.div_add_mod]

theorem xor_two_pow_of_high {i q : Nat} (hi : i / 2 ^ q % 2 = 0) : (i + 2 ^ q) ^^^ 2 ^ q = i := by
  rw [← xor_two_pow_of_low hi, Nat.xor_xor_cancel_right]

theorem netStage_eq (image p q : Nat) (l : List Nat) :
    netStage image p q l = (List.range l.length).map (fun i => l.getD (netSource image p q l i) emptyLane) := by
  refine List.map_congr_left fun i _ => ?_
  exact netLane_eq image (l.getD · emptyLane) (netUp p i) (xor_two_pow_ne i q)

@[simp] theorem netStage_length (image p q : Nat) (l : List Nat) : (netStage image p q l).length = l.length := by simp [netStage]

theorem netSource_netSource (image : Nat) {p q : Nat} (hq : q ≤ p) (l : List Nat) (i : Nat) :
    netSource image p q l (netSource image p q l i) = i := by
  by_cases h : laneBefore image (l.getD (min i (i ^^^ 2 ^ q)) emptyLane) (l.getD (max i (i ^^^ 2 ^ q)) emptyLane) = netUp p i
  · have hi : netSource image p q l i = i := if_pos h
    rw [hi, hi]
  · have hi : netSource image p q l i = i ^^^ 2 ^ q := if_neg h
    rw [hi, netSource, netUp_xor hq, Nat.xor_xor_cancel_right, min_comm, max_comm, if_neg h]

theorem netSource_lt {image p q i n : Nat} {l : List Nat} (hq : q < n) (hi : i < 2 ^ n) : netSource image p q l i < 2 ^ n := by
  rw [netSource]
  split
  · exact hi
  · exact Nat.xor_lt_two_pow hi (Nat.pow_lt_pow_right one_lt_two hq)

theorem netStage_getD (image p : Nat) {q : Nat} (hq : q < 6) {l : List Nat} (hl : l.length = 64) (i : Nat) :
    (netStage image p q l).getD i emptyLane = l.getD (netSource image p q l i) emptyLane := by
  rcases Nat.lt_or_ge i 64 with hi | hi
  · rw [netStage_eq, List.getD_eq_getElem _ _ (by simpa [hl] using hi), List.getElem_map, List.getElem_range]
  · have hpartner : 64 ≤ netSource image p q l i := by
      rw [netSource]
      split
      · exact hi
      · by_contra hlt
        have := Nat.xor_lt_two_pow (n := 6) (Nat.lt_of_not_le hlt) (Nat.pow_lt_pow_right one_lt_two hq)
        rw [Nat.xor_xor_cancel_right] at this
        omega
    rw [List.getD_eq_default _ _ (by simpa [hl] using hi), List.getD_eq_default _ _ (by simpa [hl] using hpartner)]

theorem map_range_perm_of_involutive {f : Nat → Nat} {n : Nat} (hlt : ∀ i, i < n → f i < n) (hinv : ∀ i, f (f i) = i) :
    ((List.range n).map f).Perm (List.range n) := by
  refine (List.perm_ext_iff_of_nodup (List.nodup_range.map (Function.LeftInverse.injective hinv)) List.nodup_range).mpr fun i => ?_
  rw [List.mem_map, List.mem_range]
  constructor
  · rintro ⟨k, hk, rfl⟩
    exact hlt k (List.mem_range.mp hk)
  · exact fun hi => ⟨f i, List.mem_range.mpr (hlt i hi), hinv i⟩

theorem map_range_getD (l : List Nat) (d : Nat) : (List.range l.length).map (l.getD · d) = l := by
  refine List.ext_getElem (by simp) fun i _ hi => ?_
  simp [hi]

/-- A stage takes every entry once: exchanging lanes twice is no exchange. -/
theorem netStage_perm (image : Nat) {p q : Nat} (hqp : q ≤ p) (hq : q < 6) {l : List Nat} (hl : l.length = 64) : (netStage image p q l).Perm l := by
  have hsource := map_range_perm_of_involutive (n := 2 ^ 6) (fun _ => netSource_lt hq) (netSource_netSource image hqp l)
  have hperm := hsource.map (l.getD · emptyLane)
  rw [List.map_map, ← hl.trans (show 64 = 2 ^ 6 from rfl), map_range_getD] at hperm
  rwa [netStage_eq]

/-! ### Keys of the lanes -/

/-- An entry's key as a block orders it: a descending block takes it with the opposite sign. -/
def signedKey (up : Bool) (e : Nat) : Int := if up then laneKey e else -laneKey e

theorem signedKey_true (e : Nat) : signedKey true e = laneKey e := rfl

theorem signedKey_false (e : Nat) : signedKey false e = -laneKey e := rfl

theorem signedKey_le_of_before {image a b : Nat} {up : Bool} (h : laneBefore image a b = up) : signedKey up a ≤ signedKey up b := by
  cases up
  · exact neg_le_neg (Int.ofNat_le.mpr (laneKey_le_of_not_before h))
  · exact Int.ofNat_le.mpr (laneKey_le_of_before h)

theorem signedKey_le_of_not_before {image a b : Nat} {up : Bool} (h : laneBefore image a b ≠ up) : signedKey up b ≤ signedKey up a := by
  cases up
  · exact neg_le_neg (Int.ofNat_le.mpr (laneKey_le_of_before ((Bool.not_eq_false _).mp h)))
  · exact Int.ofNat_le.mpr (laneKey_le_of_not_before ((Bool.not_eq_true _).mp h))

theorem signedKey_first (image a b : Nat) (up : Bool) :
    signedKey up (if laneBefore image a b = up then a else b) = min (signedKey up a) (signedKey up b) := by
  split
  next h => exact (min_eq_left (signedKey_le_of_before h)).symm
  next h => exact (min_eq_right (signedKey_le_of_not_before h)).symm

theorem signedKey_second (image a b : Nat) (up : Bool) :
    signedKey up (if laneBefore image a b = up then b else a) = max (signedKey up a) (signedKey up b) := by
  split
  next h => exact (max_eq_right (signedKey_le_of_before h)).symm
  next h => exact (max_eq_left (signedKey_le_of_not_before h)).symm

/-- The keys of the lanes, each as its block of level `p` orders it. -/
def signedKeys (p : Nat) (l : List Nat) (i : Nat) : Int := signedKey (netUp p i) (l.getD i emptyLane)

theorem signedKeys_five (l : List Nat) (i : Nat) : signedKeys 5 l i = laneKey (l.getD i emptyLane) := rfl

theorem signedKeys_netStage (image : Nat) {p q : Nat} (hqp : q ≤ p) (hq : q < 6) {l : List Nat} (hl : l.length = 64) :
    signedKeys p (netStage image p q l) = halfClean (2 ^ q) (signedKeys p l) := by
  have hup {k : Nat} (hk : k / 2 ^ q % 2 = 0) : netUp p (k + 2 ^ q) = netUp p k := by rw [← xor_two_pow_of_low hk, netUp_xor hqp]
  funext i
  rcases low_or_high (Nat.two_pow_pos q) i with hi | ⟨k, rfl, hk⟩
  · rw [halfClean_low hi, signedKeys, signedKeys, signedKeys, hup hi, netStage_getD image p hq hl, netSource, xor_two_pow_of_low hi,
      min_eq_left (Nat.le_add_right _ _), max_eq_right (Nat.le_add_right _ _), apply_ite (l.getD · emptyLane)]
    exact signedKey_first ..
  · rw [halfClean_high (Nat.two_pow_pos q) hk, signedKeys, signedKeys, signedKeys, hup hk, netStage_getD image p hq hl, netSource, hup hk,
      xor_two_pow_of_high hk, min_eq_right (Nat.le_add_right _ _), max_eq_left (Nat.le_add_right _ _), apply_ite (l.getD · emptyLane)]
    exact signedKey_second ..

/-! ### The levels -/

theorem foldl_range_induction {β : Type} {f : β → Nat → β} {P : Nat → β → Prop} {b : β} {n : Nat} (start : P 0 b)
    (step : ∀ k, k < n → ∀ x, P k x → P (k + 1) (f x k)) : P n ((List.range n).foldl f b) := by
  induction n with
  | zero => exact start
  | succ n ih =>
    rw [List.range_succ, List.foldl_append]
    exact step n (Nat.lt_succ_self n) _ (ih fun k hk => step k (Nat.lt_succ_of_lt hk))

theorem netLevel_perm (image : Nat) {p : Nat} (hp : p < 6) {l : List Nat} (hl : l.length = 64) : (netLevel image p l).Perm l :=
  foldl_range_induction (P := fun _ x => List.Perm x l) (.refl l) fun k _ _ hx =>
    (netStage_perm image (Nat.sub_le p k) (by omega) (hx.length_eq.trans hl)).trans hx

/-- Each stage of a level halves the blocks that are still bitonic. -/
theorem netLevel_merges (image : Nat) {p : Nat} (hp : p < 6) {l : List Nat} (hl : l.length = 64)
    (hbitonic : BitonicBlocks (2 ^ (p + 1)) (signedKeys p l)) : Merging (2 ^ (p + 1)) 0 (signedKeys p (netLevel image p l)) := by
  have hmerged := foldl_range_induction (f := fun x k => netStage image p (p - k) x) (n := p + 1)
    (P := fun k x => x.length = 64 ∧ Merging (2 ^ (p + 1)) (p + 1 - k) (signedKeys p x)) ⟨hl, .start hbitonic⟩ fun k hk x ⟨hx, hmerging⟩ => by
      refine ⟨(netStage_length ..).trans hx, ?_⟩
      rw [signedKeys_netStage image (Nat.sub_le p k) (by omega) hx, Nat.add_sub_add_right]
      rw [Nat.sub_add_comm (by omega)] at hmerging
      exact hmerging.stage (by omega)
  rw [Nat.sub_self] at hmerged
  exact hmerged.2

theorem alternates_signedKeys {p : Nat} {l : List Nat} {a b c d : Nat} (hb : netUp p b = netUp p a) (hc : netUp p c = netUp p a)
    (hd : netUp p d = netUp p a) : Alternates (signedKeys p l) a b c d ↔ Alternates (signedKeys 5 l) a b c d := by
  rcases hup : netUp p a
  · rw [← alternates_neg (signedKeys 5 l)]
    simp only [Alternates, signedKeys, hb, hc, hd, hup, netUp_five, signedKey_true, signedKey_false]
  · simp only [Alternates, signedKeys, hb, hc, hd, hup, netUp_five]

theorem bitonicBlocks_signedKeys {p : Nat} {l : List Nat} (h : BitonicBlocks (2 ^ (p + 1)) (signedKeys 5 l)) :
    BitonicBlocks (2 ^ (p + 1)) (signedKeys p l) := by
  intro a b c d hab hbc hcd had
  have hb := div_eq_of_between hab.le (hbc.trans hcd).le had
  have hc := div_eq_of_between (hab.trans hbc).le hcd.le had
  rw [alternates_signedKeys (netUp_eq_of_div_eq hb) (netUp_eq_of_div_eq hc) (netUp_eq_of_div_eq had.symm)]
  exact h a b c d hab hbc hcd had

/-- What level `p` sorts, up and down in turn by blocks, is bitonic for level `p + 1`. -/
theorem bitonicBlocks_succ {p : Nat} (hp : p < 5) {l : List Nat} (hmerged : Merging (2 ^ (p + 1)) 0 (signedKeys p l)) :
    BitonicBlocks (2 ^ (p + 1 + 1)) (signedKeys (p + 1) l) := by
  refine bitonicBlocks_signedKeys ?_
  rw [pow_succ' 2 (p + 1)]
  refine bitonicBlocks_of_up_down (fun i j hij hblock heven => ?_) (fun i j hij hblock hodd => ?_)
  · have hle := hmerged.sorted hblock hij
    have hup : netUp p i = true := by simp [netUp, bit, heven]
    rwa [signedKeys, signedKeys, ← netUp_eq_of_div_eq hblock, hup] at hle
  · have hle := hmerged.sorted hblock hij
    have hup : netUp p i = false := by simp [netUp, bit, hodd, hp.ne]
    rw [signedKeys, signedKeys, ← netUp_eq_of_div_eq hblock, hup] at hle
    exact neg_le_neg_iff.mp hle

theorem bitonicBlocks_two (v : Nat → Int) : BitonicBlocks 2 v := by
  intro a b c d hab hbc hcd had
  omega

/-- The levels of SORT64 below the last. -/
def lowerLevels (image : Nat) (l : List Nat) : List Nat := (List.range 5).foldl (fun a p => netLevel image p a) l

theorem sortNet_eq (image : Nat) (l : List Nat) : sortNet image l = netLevel image 5 (lowerLevels image l) := by
  rw [sortNet, List.range_succ (n := 5), List.foldl_append, List.foldl_cons, List.foldl_nil, lowerLevels]

/-- Each level below the last leaves the blocks bitonic that the next one merges. -/
theorem lowerLevels_spec (image : Nat) {l : List Nat} (hl : l.length = 64) :
    (lowerLevels image l).Perm l ∧ BitonicBlocks (2 ^ (5 + 1)) (signedKeys 5 (lowerLevels image l)) :=
  foldl_range_induction (P := fun p x => List.Perm x l ∧ BitonicBlocks (2 ^ (p + 1)) (signedKeys p x)) ⟨.refl l, bitonicBlocks_two _⟩
    fun p hp x ⟨hx, hbitonic⟩ => by
      have hlen := hx.length_eq.trans hl
      exact ⟨(netLevel_perm image (by omega) hlen).trans hx, bitonicBlocks_succ hp (netLevel_merges image (by omega) hlen hbitonic)⟩

/-- The last level sorts a register whose keys are bitonic. -/
theorem lastLevel_spec (image : Nat) {l : List Nat} (hl : l.length = 64) (hbitonic : BitonicBlocks (2 ^ (5 + 1)) (signedKeys 5 l)) :
    (netLevel image 5 l).Perm l ∧ (netLevel image 5 l).Pairwise fun x y => laneKey x ≤ laneKey y := by
  have hperm := netLevel_perm image (p := 5) (by omega) hl
  refine ⟨hperm, List.pairwise_iff_getElem.mpr fun i j hi hj hij => ?_⟩
  have hlen := hperm.length_eq.trans hl
  have hle := (netLevel_merges image (by omega) hl hbitonic).sorted (by omega) hij
  rw [signedKeys_five, signedKeys_five, List.getD_eq_getElem _ _ hi, List.getD_eq_getElem _ _ hj] at hle
  exact Int.ofNat_le.mp hle

theorem sortNet_spec (image : Nat) {l : List Nat} (hl : l.length = 64) :
    (sortNet image l).Perm l ∧ (sortNet image l).Pairwise fun x y => laneKey x ≤ laneKey y := by
  obtain ⟨hperm, hbitonic⟩ := lowerLevels_spec image hl
  obtain ⟨hlast, hsorted⟩ := lastLevel_spec image (hperm.length_eq.trans hl) hbitonic
  rw [sortNet_eq]
  exact ⟨hlast.trans hperm, hsorted⟩

/-! ### MERGE128 -/

theorem cmpEx_perm (image x y : Nat) : [(cmpEx image x y).1, (cmpEx image x y).2].Perm [x, y] := by
  rw [cmpEx]
  split
  · exact .refl _
  · exact .swap x y []

theorem cmpEx_fst (image x y : Nat) : (cmpEx image x y).1 = if laneBefore image x y = true then x else y := apply_ite Prod.fst ..

theorem cmpEx_snd (image x y : Nat) : (cmpEx image x y).2 = if laneBefore image x y = true then y else x := apply_ite Prod.snd ..

/-- The first stage of MERGE128: lane `i` of the first register with lane `63 - i` of the second, in order. -/
def mergePairs (image : Nat) (a b : List Nat) : List (Nat × Nat) := List.zipWith (cmpEx image) a b.reverse

theorem mergeNet_fst (image : Nat) (a b : List Nat) : (mergeNet image a b).1 = netLevel image 5 ((mergePairs image a b).map Prod.fst) := by
  simp only [mergeNet, mergePairs]

theorem mergeNet_snd (image : Nat) (a b : List Nat) : (mergeNet image a b).2 = netLevel image 5 ((mergePairs image a b).map Prod.snd) := by
  simp only [mergeNet, mergePairs]

theorem zipWith_cmpEx_perm (image : Nat) {a b : List Nat} (hab : a.length = b.length) :
    ((List.zipWith (cmpEx image) a b).map Prod.fst ++ (List.zipWith (cmpEx image) a b).map Prod.snd).Perm (a ++ b) := by
  induction a generalizing b with
  | nil => simpa using hab.symm
  | cons x a ih =>
    cases b with
    | nil => simp at hab
    | cons y b =>
      have htail := ih (Nat.succ.inj hab)
      rw [List.zipWith_cons_cons, List.map_cons, List.map_cons, List.cons_append, List.cons_append]
      have hpair := (cmpEx_perm image x y).append htail
      simp only [List.cons_append, List.nil_append] at hpair
      exact (List.perm_middle.cons _).trans (hpair.trans (List.perm_middle.symm.cons x))

section merge
variable {image : Nat} {a b : List Nat} (ha : a.length = 64) (hb : b.length = 64)
include ha hb

theorem mergePairs_length : (mergePairs image a b).length = 64 := by simp [mergePairs, ha, hb]

theorem mergePairs_getElem {i : Nat} (hi : i < (mergePairs image a b).length) :
    (mergePairs image a b)[i] = cmpEx image ((a ++ b.reverse).getD i emptyLane) ((a ++ b.reverse).getD (i + 64) emptyLane) := by
  have hi64 := hi.trans_eq (mergePairs_length ha hb)
  rw [List.getD_append _ _ _ _ (by omega), List.getD_append_right _ _ _ _ (by omega), List.getD_eq_getElem _ _ (by omega),
    List.getD_eq_getElem _ _ (by simp [ha, hb, hi64])]
  simp [mergePairs, ha]

theorem signedKeys_mergePairs_fst {i : Nat} (hi : i < 64) :
    signedKeys 5 ((mergePairs image a b).map Prod.fst) i = halfClean 64 (signedKeys 5 (a ++ b.reverse)) i := by
  have hlen : i < (mergePairs image a b).length := by rwa [mergePairs_length ha hb]
  rw [halfClean_low (by omega), signedKeys, List.getD_eq_getElem _ _ (by simpa using hlen), List.getElem_map, mergePairs_getElem ha hb hlen, cmpEx_fst]
  exact signedKey_first ..

theorem signedKeys_mergePairs_snd {i : Nat} (hi : i < 64) :
    signedKeys 5 ((mergePairs image a b).map Prod.snd) i = halfClean 64 (signedKeys 5 (a ++ b.reverse)) (i + 64) := by
  have hlen : i < (mergePairs image a b).length := by rwa [mergePairs_length ha hb]
  rw [halfClean_high (by omega) (by omega), signedKeys, List.getD_eq_getElem _ _ (by simpa using hlen), List.getElem_map, mergePairs_getElem ha hb hlen, cmpEx_snd]
  exact signedKey_second ..

theorem mergePairs_perm : ((mergePairs image a b).map Prod.fst ++ (mergePairs image a b).map Prod.snd).Perm (a ++ b) :=
  (zipWith_cmpEx_perm image (by simp [ha, hb])).trans ((List.reverse_perm b).append_left a)

end merge

/-- Two lanes in order, both in a sorted register or both beyond it. -/
theorem getD_rel_of_pairwise {R : Nat → Nat → Prop} (hrefl : ∀ x, R x x) {l : List Nat} (hl : l.length = 64) (hsorted : l.Pairwise R) {i j : Nat}
    (hij : i < j) (hblock : i / 64 = j / 64) : R (l.getD i emptyLane) (l.getD j emptyLane) := by
  rcases Nat.lt_or_ge j 64 with hj | hj
  · rw [List.getD_eq_getElem _ _ (by omega), List.getD_eq_getElem _ _ (by omega)]
    exact List.pairwise_iff_getElem.mp hsorted i j _ _ hij
  · rw [List.getD_eq_default _ _ (by omega), List.getD_eq_default _ _ (by omega)]
    exact hrefl _

/-- A register's keys are bitonic when those of its lanes within the register are: the lanes beyond it are all alike. -/
theorem bitonicBlocks_of_lanes {l : List Nat} (hl : l.length = 64) {w : Nat → Int} (hw : BitonicBlocks 64 w) (m : Nat)
    (hkeys : ∀ i, i < 64 → signedKeys 5 l i = w (i + 64 * m)) : BitonicBlocks 64 (signedKeys 5 l) := by
  intro a b c d hab hbc hcd had
  rcases Nat.lt_or_ge d 64 with hd | hd
  · rw [Alternates, hkeys a (by omega), hkeys b (by omega), hkeys c (by omega), hkeys d hd]
    exact hw (a + 64 * m) (b + 64 * m) (c + 64 * m) (d + 64 * m) (by omega) (by omega) (by omega) (by omega)
  · have hsame : signedKeys 5 l a = signedKeys 5 l b := by
      rw [signedKeys_five, signedKeys_five, List.getD_eq_default _ _ (by omega), List.getD_eq_default _ _ (by omega)]
    rintro (halt | halt) <;> omega

section sorted
variable {image : Nat} {a b : List Nat} (ha : a.length = 64) (hb : b.length = 64) (hsa : a.Pairwise fun x y => laneKey x ≤ laneKey y)
  (hsb : b.Pairwise fun x y => laneKey x ≤ laneKey y)
include ha hb hsa hsb

/-- The first register upwards and then the second one downwards. -/
theorem signedKeys_append_reverse_bitonic : BitonicBlocks (2 * 64) (signedKeys 5 (a ++ b.reverse)) := by
  refine bitonicBlocks_of_up_down (fun i j hij hblock heven => ?_) (fun i j hij hblock hodd => ?_)
  · rw [signedKeys_five, signedKeys_five]
    rcases Nat.lt_or_ge j 64 with hj | hj
    · rw [List.getD_append _ _ _ _ (by omega), List.getD_append _ _ _ _ (by omega)]
      exact Int.ofNat_le.mpr (getD_rel_of_pairwise (R := fun x y => laneKey x ≤ laneKey y) (fun _ => le_rfl) ha hsa hij hblock)
    · rw [List.getD_eq_default _ _ (by simp [ha, hb]; omega), List.getD_eq_default _ _ (by simp [ha, hb]; omega)]
  · rw [signedKeys_five, signedKeys_five, List.getD_append_right _ _ _ _ (by omega), List.getD_append_right _ _ _ _ (by omega), ha]
    exact Int.ofNat_le.mpr (getD_rel_of_pairwise (R := fun x y => laneKey y ≤ laneKey x) (fun _ => le_rfl) (by simp [hb]) (List.pairwise_reverse.mpr hsb)
      (by omega) (by omega))

theorem mergePairs_bitonic : BitonicBlocks (2 ^ (5 + 1)) (signedKeys 5 ((mergePairs image a b).map Prod.fst))
    ∧ BitonicBlocks (2 ^ (5 + 1)) (signedKeys 5 ((mergePairs image a b).map Prod.snd)) := by
  have hclean := halfClean_bitonic (by omega) (signedKeys_append_reverse_bitonic ha hb hsa hsb)
  have hlen := mergePairs_length (image := image) ha hb
  exact ⟨bitonicBlocks_of_lanes (by simpa using hlen) hclean 0 fun i hi => signedKeys_mergePairs_fst ha hb hi,
    bitonicBlocks_of_lanes (by simpa using hlen) hclean 1 fun i hi => signedKeys_mergePairs_snd ha hb hi⟩

theorem mergePairs_fst_le_snd {x y : Nat} (hx : x ∈ (mergePairs image a b).map Prod.fst) (hy : y ∈ (mergePairs image a b).map Prod.snd) :
    laneKey x ≤ laneKey y := by
  obtain ⟨i, hi, rfl⟩ := List.getElem_of_mem hx
  obtain ⟨j, hj, rfl⟩ := List.getElem_of_mem hy
  have hlen := mergePairs_length (image := image) ha hb
  have hi64 : i < 64 := by simpa [hlen] using hi
  have hj64 : j < 64 := by simpa [hlen] using hj
  have hle := halfClean_across (by omega) (signedKeys_append_reverse_bitonic ha hb hsa hsb) (i := i) (j := j + 64) (by omega) (by omega)
  rw [← signedKeys_mergePairs_fst (image := image) ha hb hi64, ← signedKeys_mergePairs_snd (image := image) ha hb hj64, signedKeys_five, signedKeys_five,
    List.getD_eq_getElem _ _ hi, List.getD_eq_getElem _ _ hj] at hle
  exact Int.ofNat_le.mp hle

theorem mergeNet_spec : ((mergeNet image a b).1 ++ (mergeNet image a b).2).Perm (a ++ b) ∧ (mergeNet image a b).1.length = 64
    ∧ ((mergeNet image a b).1 ++ (mergeNet image a b).2).Pairwise fun x y => laneKey x ≤ laneKey y := by
  obtain ⟨hfirst, hsecond⟩ := mergePairs_bitonic (image := image) ha hb hsa hsb
  have hlen := mergePairs_length (image := image) ha hb
  obtain ⟨hperm1, hsorted1⟩ := lastLevel_spec image (by simpa using hlen) hfirst
  obtain ⟨hperm2, hsorted2⟩ := lastLevel_spec image (by simpa using hlen) hsecond
  rw [mergeNet_fst, mergeNet_snd]
  refine ⟨(hperm1.append hperm2).trans (mergePairs_perm ha hb), by simpa [hlen] using hperm1.length_eq, List.pairwise_append.mpr ⟨hsorted1, hsorted2, ?_⟩⟩
  exact fun x hx y hy => mergePairs_fst_le_snd ha hb hsa hsb (hperm1.mem_iff.mp hx) (hperm2.mem_iff.mp hy)

end sorted

/-! ### The statement -/

/-- Settles O47: every stage is a half cleaner of signed keys, so each level merges the bitonic blocks that the one before leaves, and MERGE128 is one half cleaner and the last level. -/
theorem sortingNetworkSorts : Obligations.SortingNetworkSorts := by
  unfold Obligations.SortingNetworkSorts
  exact ⟨fun image l hl => sortNet_spec image hl, fun image a b ha hb hsa hsb => mergeNet_spec ha hb hsa hsb⟩

end Sys2Proof.Machine
end

section
/-! SUPPORT. What reading an object's bytes changes (09 R270 to R272; 13 R406, R410), said once. -/

namespace Sys2Proof.Machine

open Sys2Proof

/-! ### What a read leaves unchanged -/

/-- Only what a read can touch has changed: the flash counters, calibration items that take effect, and what logging an error changes. -/
def ReadOnly (s t : State) : Prop := t = { s with fl := t.fl, er := t.er, cal := t.cal, qe := t.qe, out := t.out, pw := t.pw }

namespace ReadOnly

theorem refl (s : State) : ReadOnly s s := rfl

theorem trans {a b c : State} (hab : ReadOnly a b) (hbc : ReadOnly b c) : ReadOnly a c := by
  unfold ReadOnly at *
  rw [hbc, hab]

theorem of_onlyFlash {s t : State} (h : OnlyFlash s t) : ReadOnly s t := by
  unfold ReadOnly OnlyFlash at *
  rw [h]

section fields
variable {s t : State} (h : ReadOnly s t)
include h

theorem hostMem : t.hostMem = s.hostMem := by rw [h]
theorem tempo : t.tempo = s.tempo := by rw [h]
theorem indexes : t.indexes = s.indexes := by rw [h]
theorem ms : t.ms = s.ms := by rw [h]

end fields

/-! ### Events and counts -/

theorem errEvent (s : State) (cnt code t u l a b c : Nat) : ReadOnly s (errEvent s cnt code t u l a b c) := by
  apply State.ext <;> simp

theorem logStackBad (s : State) (t : Nat) (b : StackBad) : ReadOnly s (logStackBad s t b) := by
  cases b <;> exact errEvent ..

theorem mediaFault (s : State) (owner c key j : Nat) : ReadOnly s (mediaFault s owner c key j) :=
  (of_onlyFlash (onlyFlash_cntFl s 3 1)).trans (errEvent ..)

theorem countReads (s : State) (c chip n : Nat) : ReadOnly s (countReads s c chip n) := rfl

theorem countRetry (s : State) (c chip set : Nat) : ReadOnly s (countRetry s c chip set) := rfl

/-! ### Codewords (R270, R271) -/

theorem readRaw (s : State) (c key j : Nat) : ReadOnly s (readRaw s c key j).1 := by
  simp only [Machine.readRaw]
  split
  · exact countReads ..
  · exact (countReads ..).trans (countRetry ..)

theorem readEach (j : Nat) (l : List (Nat × Nat)) (s : State) : ReadOnly s (readEach j s l).1 := by
  induction l generalizing s with
  | nil => exact refl s
  | cons p r ih =>
    simp only [Machine.readEach]
    split
    · exact (readRaw ..).trans (ih _)
    · exact readRaw ..

theorem rebuildCw (s : State) (c key j : Nat) : ReadOnly s (rebuildCw s c key j).1 := by
  simp only [Machine.rebuildCw]
  split
  · exact refl s
  · split
    · exact refl s
    · split
      · exact (readEach ..).trans (of_onlyFlash (onlyFlash_cntFl _ 2 1))
      · exact readEach ..

theorem readCw (s : State) (c key j : Nat) : ReadOnly s (readCw s c key j).1 := by
  simp only [Machine.readCw]
  split
  · exact readRaw ..
  · exact (readRaw ..).trans (rebuildCw ..)

/-! ### Pages, units and objects -/

theorem readCws (f : Nat) (s : State) (owner c key j o n : Nat) : ReadOnly s (readCws f s owner c key j o n).1 := by
  induction f generalizing s j o n with
  | zero => exact refl s
  | succ f ih =>
    simp only [Machine.readCws]
    split
    · exact refl s
    · split
      · exact (readCw ..).trans (mediaFault ..)
      · exact (readCw ..).trans (ih ..)

theorem readUnit (s : State) (c lu o n : Nat) : ReadOnly s (readUnit s c lu o n).1 := by
  unfold Machine.readUnit
  split
  · exact refl s
  · exact of_onlyFlash (onlyFlash_cntFl s 3 1)
  · split
    · exact refl s
    · exact readCws ..

theorem readUnits {rd : State → Nat → Nat → Nat → Nat → State × Except Nat (List Byte)} (hrd : ∀ s c lu o n, ReadOnly s (rd s c lu o n).1)
    (k : Nat) (s : State) (o : Obj) (off n : Nat) : ReadOnly s (readUnits rd k s o off n).1 := by
  induction k generalizing s off n with
  | zero => exact refl s
  | succ k ih =>
    simp only [Machine.readUnits]
    split
    · exact refl s
    · split
      · exact hrd ..
      · exact (hrd ..).trans (ih ..)

theorem readObj (s : State) (o : Obj) (off n : Nat) : ReadOnly s (readObj s o off n).1 := by
  unfold Machine.readObj
  split
  · split
    · exact refl s
    · exact readUnits readUnit ..
  · split
    · exact logStackBad ..
    · exact refl s

/-- Noting the read that has met a mutation's fault is one more read. -/
theorem noteBad (s : State) (t : Nat) (r : Option (Nat × Nat × Nat)) : ReadOnly s (noteBad s t r) := by
  unfold Machine.noteBad
  split
  · exact refl s
  · split
    · exact readObj ..
    · exact refl s

end ReadOnly

end Sys2Proof.Machine
end

section
/-! SUPPORT. INSERT, DELETE and CONSOLIDATE (07 R185 to R212): what accepting, committing and stepping one answers in each case, and the statement about them. -/

namespace Sys2Proof.Machine

open Sys2Proof

/-! ### How a descriptor's command ends -/

/-- A command that waits changes nothing. -/
theorem onUnit_unchanged (s : State) (ok : Bool) : onUnit s ok s = .next s := by cases ok <;> rfl

theorem completeWith_only (s : State) (d : Desc) (st rf de ep nb : Nat) (mid : List Rec) : OnlyQueues s (completeWith s d st rf de ep nb mid) := by
  refine ⟨?_, completeWith_streams ..⟩
  apply State.ext <;> simp [completeWith_fab]

/-- Completed with DONE: the record waits for its move, the result stands at its address, and no other byte of host memory, no index, no object and no page has changed. -/
structure DoneWith (s : State) (d : Desc) (a : Nat) (result : List Byte) (epoch nb : Nat) (t : State) : Prop where
  recs : ∃ dups, t.qe.recs = s.qe.recs ++ recOf d stDone 0 0 epoch nb :: dups
  entry : getTt t d.q d.seq = ⟨d.seq, .complete, stDone⟩
  written : hostRead t a result.length = result
  outside : HostOutside s t a result.length
  indexes : t.indexes = s.indexes
  ms : t.ms = s.ms
  fl : t.fl = s.fl

theorem completeWith_doneWith {s : State} {d : Desc} (hopen : hostOpen s d.tenant = true) (a : Nat) (result : List Byte) (epoch nb : Nat) :
    DoneWith s d a result epoch nb (completeWith (hostWrite s d.tenant a result) d stDone 0 0 epoch nb []) where
  recs := by
    obtain ⟨dups, h⟩ := completeWith_recs (hostWrite s d.tenant a result) d stDone 0 0 epoch nb []
    rw [hostWrite_qe] at h
    exact ⟨dups, h⟩
  entry := completeWith_getTt ..
  written := by
    rw [hostRead, completeWith_hostMem]
    exact hostRead_hostWrite s d.tenant a result hopen
  outside b hb := by
    rw [completeWith_hostMem]
    exact hostWrite_outside s d.tenant a b result hb
  indexes := by simp
  ms := by simp
  fl := by simp

theorem DoneWith.of_length {s t : State} {d : Desc} {a n : Nat} {result : List Byte} {epoch nb : Nat} (h : DoneWith s d a result epoch nb t)
    (hn : result.length = n) : hostRead t a n = result ∧ HostOutside s t a n := by
  subst hn
  exact ⟨h.written, h.outside⟩

/-- A command whose effect is such an end. -/
theorem onUnit_doneWith {s w : State} {d : Desc} (hopen : hostOpen w d.tenant = true) {a : Nat} {result : List Byte} {epoch nb : Nat} {e : State}
    (he : e = completeWith (hostWrite w d.tenant a result) d stDone 0 0 epoch nb []) :
    ∃ t, onUnit s true e = .next t ∧ DoneWith w d a result epoch nb t := by
  subst he
  obtain ⟨hrecs, hentry, hwritten, hout, hindexes, hms, hfl⟩ := completeWith_doneWith hopen a result epoch nb
  exact ⟨_, rfl, ⟨hrecs, hentry, hwritten, hout, hindexes, hms, hfl⟩⟩

/-! ### Acceptance (R201, R206, R209) -/

section accept
variable {s : State} {q : QId} {seq : Nat} {d : Desc}

theorem exec_insert (hwf : wellFormed (.insert q seq) = true) (hd : placedDesc s q seq 0x08 = some d) (hw : d.work = .none) :
    exec (.insert q seq) s = onUnit s true (runInsert s d) := by
  change execInsert q seq s = _
  rw [execInsert, hwf, hd]
  exact congrArg (onUnit s true) (if_pos hw)

theorem exec_delete (hwf : wellFormed (.delete q seq) = true) (hd : placedDesc s q seq 0x09 = some d) (hw : d.work = .none) :
    exec (.delete q seq) s = onUnit s true (runDelete s d) := by
  change execDelete q seq s = _
  rw [execDelete, hwf, hd]
  exact congrArg (onUnit s true) (if_pos hw)

/-- What CONSOLIDATE does with a descriptor whose work has not begun. -/
def runConsolidate (s : State) (d : Desc) : State :=
  match mutAccept s d (dfield d 24 4) (dfield d 28 2) (fun _ e => consFieldsOk d e) with
  | .error st => complete s d st
  | .ok _ => putDesc s { d with work := .consolidate none none 0 0 0 0 0 0 }

theorem exec_consolidate (hwf : wellFormed (.consolidate q seq) = true) (hd : placedDesc s q seq 0x0A = some d) (hw : d.work = .none) :
    exec (.consolidate q seq) s = onUnit s true (runConsolidate s d) := by
  change execConsolidate q seq s = _
  rw [execConsolidate, hwf, hd]
  exact congrArg (onUnit s true) (if_neg (not_not_intro hw))

section insert
variable {acc : Except Nat (IdxRec × Index)} (hacc : acc = mutAccept s d (dfield d 32 4) (dfield d 36 2) (fun r _ => insFieldsOk d r))
include hacc

theorem runInsert_refused {st : Nat} (h : acc = .error st) : runInsert s d = complete s d st := by
  simp only [runInsert, ← hacc, h]

variable {x : IdxRec × Index} (hx : acc = .ok x)
include hx

theorem runInsert_unread (h : d.hostFault = true ∨ hostOpen s d.tenant = false) : runInsert s d = complete s d stHost := by
  have hbad : (d.hostFault || !hostOpen s d.tenant) = true := by rcases h with h | h <;> simp [h]
  simp only [runInsert, ← hacc, hx, hbad, if_true]

theorem runInsert_accepted (hfault : d.hostFault = false) (hopen : hostOpen s d.tenant = true) {es : List InsEntry} (hlen : es.length = dfield d 38 2)
    (hes : es = (List.range (dfield d 38 2)).filterMap (fun i => insEntryOf x.1
      (((hostRead s (dfield d 16 8) (dfield d 38 2 * x.1.entrySize)).drop (i * x.1.entrySize)).take x.1.entrySize))) :
    runInsert s d = putDesc s { d with work := .insert es } := by
  have hopened : (d.hostFault || !hostOpen s d.tenant) = false := by simp [hfault, hopen]
  simp only [runInsert, ← hacc, hx, hopened, Bool.false_eq_true, if_false, ← hes, hlen, ne_eq, not_true_eq_false]

end insert

section delete
variable {acc : Except Nat (IdxRec × Index)} (hacc : acc = mutAccept s d (dfield d 32 4) (dfield d 36 2) (fun _ _ => delFieldsOk d))
include hacc

theorem runDelete_refused {st : Nat} (h : acc = .error st) : runDelete s d = complete s d st := by
  simp only [runDelete, ← hacc, h]

variable {x : IdxRec × Index} (hx : acc = .ok x)
include hx

theorem runDelete_unread (h : d.hostFault = true ∨ hostOpen s d.tenant = false) : runDelete s d = complete s d stHost := by
  have hbad : (d.hostFault || !hostOpen s d.tenant) = true := by rcases h with h | h <;> simp [h]
  simp only [runDelete, ← hacc, hx, hbad, if_true]

theorem runDelete_accepted (hfault : d.hostFault = false) (hopen : hostOpen s d.tenant = true)
    (hzero : ∀ i, i < dfield d 40 4 → fieldAt (hostRead s (dfield d 16 8) (8 * dfield d 40 4)) (8 * i + 6) 2 = 0) :
    runDelete s d = putDesc s { d with work := .delete ((List.range (dfield d 40 4)).map (fun i =>
      (fieldAt (hostRead s (dfield d 16 8) (8 * dfield d 40 4)) (8 * i) 4, fieldAt (hostRead s (dfield d 16 8) (8 * dfield d 40 4)) (8 * i + 4) 2))) } := by
  have hopened : (d.hostFault || !hostOpen s d.tenant) = false := by simp [hfault, hopen]
  have hreserved : (List.range (dfield d 40 4)).any (fun i => fieldAt (hostRead s (dfield d 16 8) (8 * dfield d 40 4)) (8 * i + 6) 2 != 0) = false := by
    simpa using hzero
  simp only [runDelete, ← hacc, hx, hopened, hreserved, Bool.false_eq_true, if_false]

end delete

section consolidate
variable {acc : Except Nat (IdxRec × Index)} (hacc : acc = mutAccept s d (dfield d 24 4) (dfield d 28 2) (fun _ e => consFieldsOk d e))
include hacc

theorem runConsolidate_refused {st : Nat} (h : acc = .error st) : runConsolidate s d = complete s d st := by
  simp only [runConsolidate, ← hacc, h]

theorem runConsolidate_accepted {x : IdxRec × Index} (h : acc = .ok x) :
    runConsolidate s d = putDesc s { d with work := .consolidate none none 0 0 0 0 0 0 } := by
  simp only [runConsolidate, ← hacc, h]

end consolidate
end accept

/-! ### An epoch taken (R185, R190) -/

theorem findIndex_congr {s x : State} (h : x.indexes = s.indexes) (t n : Nat) : findIndex x t n = findIndex s t n := by
  simp only [findIndex, h]

theorem takeEpoch_congr {s x : State} (h : x.tempo = s.tempo) (ix : Index) : takeEpoch x ix = takeEpoch s ix := by
  unfold takeEpoch moveOf
  rw [h]

theorem putIndex_indexes_congr {s x : State} (h : x.indexes = s.indexes) (i : Index) : (putIndex x i).indexes = (putIndex s i).indexes := by
  simp only [putIndex, findIndex_congr h]
  split <;> simp only [h]

theorem refuseAtEpoch_pending (s : State) (m : Mut) (d : Desc) (st : Nat) : (refuseAtEpoch s m d st).pending = s.pending := by simp [refuseAtEpoch]

/-- A refusal at an epoch: the record waits for that epoch's second move after, and the index has taken the epoch. -/
theorem onUnit_refuseAtEpoch {s e : State} {m : Mut} {d : Desc} {st : Nat} (he : e = refuseAtEpoch s m d st) :
    ∃ t, onUnit s true e = .next t ∧ (∃ dups, t.qe.recs = s.qe.recs ++ recOf d st 0 0 0 (m.epoch / 65536 + 2) :: dups)
      ∧ getTt t d.q d.seq = ⟨d.seq, .complete, st⟩ ∧ t.indexes = (putIndex s (takeEpoch s m.ix)).indexes ∧ OnlyQueues (putIndex s (takeEpoch s m.ix)) t := by
  subst he
  refine ⟨_, onUnit_keep rfl (refuseAtEpoch_pending ..), ?_, completeWith_getTt .., completeWith_indexes .., completeWith_only ..⟩
  obtain ⟨dups, h⟩ := completeWith_recs (putIndex s (takeEpoch s m.ix)) d st 0 0 0 (recMove (some m.epoch)) []
  rw [putIndex_qe] at h
  exact ⟨dups, h⟩

/-- After a read, the refusal takes the same epoch of the same index. -/
theorem refuseAtEpoch_indexes {s x : State} (hindexes : x.indexes = s.indexes) (htempo : x.tempo = s.tempo) (m : Mut) (d : Desc) (st : Nat) :
    (refuseAtEpoch x m d st).indexes = (putIndex s (takeEpoch s m.ix)).indexes := by
  rw [refuseAtEpoch, completeWith_indexes, takeEpoch_congr htempo, putIndex_indexes_congr hindexes]

/-! ### A drafted mutation (R190, R194; 10 R332) -/

/-- The draft with the bytes counted that its new scale set adds to the overlay (04 R125). -/
def withSet (x : Draft) (adopt : List (Nat × List Byte)) : Draft := { x with need := x.need + (adopt.map (fun w => w.2.length)).sum }

theorem withSet_nil (x : Draft) : withSet x [] = x := rfl

section settle
variable {s : State} {m : Mut} {d : Desc} {x : Draft} {result : List Byte} {adopt : List (Nat × List Byte)}

theorem settleMut_never (h : fitOf s m (withSet x adopt) = .never) : settleMut s m d x result adopt = complete s d stNoRes := by
  rw [withSet] at h
  simp only [settleMut, h]

theorem settleMut_waits (h : fitOf s m (withSet x adopt) = .waits) : settleMut s m d x result adopt = s := by
  rw [withSet] at h
  simp only [settleMut, h]

variable (h : fitOf s m (withSet x adopt) = .fits)
include h

theorem settleMut_faulted {st : Nat} (hfault : x.fault = some st) :
    settleMut s m d x result adopt = refuseAtEpoch (noteBad s m.t x.badRead) m d st := by
  rw [withSet] at h
  simp only [settleMut, h]
  simp only [hfault]

theorem settleMut_done (hfault : x.fault = none) (hdeltas : x.deltas = []) :
    settleMut s m d x result adopt = mutationDone (land m x) d m.epoch m.num m.part result adopt := by
  rw [withSet] at h
  simp only [settleMut, h]
  simp [hfault, hdeltas, sendDeltas]

end settle

/-! ### The commit of an INSERT (R202 to R205) -/

section commitInsert
variable {s : State} {q : QId} {seq : Nat} {d : Desc} {es : List InsEntry}

theorem exec_mutationCommit_insert (hwf : wellFormed (.mutationCommit q seq) = true) (hd : placedDesc s q seq 0x08 = some d) (hw : d.work = .insert es) :
    exec (.mutationCommit q seq) s = onUnit s true (commitInsert s d es) := by
  change execMutationCommit q seq s = _
  rw [execMutationCommit, hwf, hd]
  simp only [hw]

theorem commitInsert_noEpoch (h : mutOf s d.tenant (dfield d 32 4) (dfield d 36 2) = none) : commitInsert s d es = s := by
  simp only [commitInsert, h]

variable {m : Mut} (hm : mutOf s d.tenant (dfield d 32 4) (dfield d 36 2) = some m)
include hm

theorem commitInsert_held (h : flashWait s = true ∨ moveHeld s d m.num m.part = true ∨ setPending s m.t m.num m.part = true) : commitInsert s d es = s := by
  have hheld : (flashWait s || moveHeld s d m.num m.part || setPending s m.t m.num m.part) = true := by rcases h with h | h | h <;> simp [h]
  simp only [commitInsert, hm, hheld, if_true]

variable (hflash : flashWait s = false) (hmove : moveHeld s d m.num m.part = false) (hset : setPending s m.t m.num m.part = false)
include hflash hmove hset

theorem commitInsert_unread (h : d.hostFault = true) : commitInsert s d es = complete s d stHost := by
  simp [commitInsert, hm, hflash, hmove, hset, h]

variable (hread : d.hostFault = false)
include hread

theorem commitInsert_refused {st : Nat} (h : insEpochBad (m.view s) es = some st) : commitInsert s d es = refuseAtEpoch s m d st := by
  simp [commitInsert, hm, hflash, hmove, hset, hread, h]

theorem commitInsert_settles (hok : insEpochBad (m.view s) es = none) {p : InsPlan} {s0 : State} (hp : p = insPlan s m es)
    (hs0 : s0 = { s with freeCtr := s.freeCtr + p.stats.length }) :
    commitInsert s d es = settleMut s0 m d (draftInsert s0 m (dfield d 40 1) (dfield d 42 2) p) (insResult m p) (newSet m (m.view s0) p) := by
  subst hp hs0
  simp [commitInsert, hm, hflash, hmove, hset, hread, hok]

end commitInsert

/-! ### The commit of a DELETE (R207) -/

/-- The effect of a DELETE of some targets, as drafted. -/
def draftDelete (s : State) (m : Mut) (es tg : List (Nat × Nat)) : Draft :=
  closeMut m (tg.foldl (deleteOne m) (firstSet m (m.look { s := s } (recReads (m.view s) ((es.map Prod.fst).filter (fun i => decide (i < (m.view s).d.slots)))))))

/-- The result of a DELETE: its epoch, the slots deleted and the entries skipped. -/
def delResult (m : Mut) (es tg : List (Nat × Nat)) : List Byte := toLE 8 m.epoch ++ (toLE 4 tg.length ++ (toLE 4 (es.length - tg.length) ++ zeros 16))

theorem delResult_length (m : Mut) (es tg : List (Nat × Nat)) : (delResult m es tg).length = 32 := by simp [delResult, toLE_length, zeros]

section commitDelete
variable {s : State} {q : QId} {seq : Nat} {d : Desc} {es : List (Nat × Nat)}

theorem exec_mutationCommit_delete (hwf : wellFormed (.mutationCommit q seq) = true) (hins : placedDesc s q seq 0x08 = none)
    (hd : placedDesc s q seq 0x09 = some d) (hw : d.work = .delete es) : exec (.mutationCommit q seq) s = onUnit s true (commitDelete s d es) := by
  change execMutationCommit q seq s = _
  rw [execMutationCommit, hwf, hins, hd]
  simp only [hw]

variable {m : Mut} (hm : mutOf s d.tenant (dfield d 32 4) (dfield d 36 2) = some m)
include hm

theorem commitDelete_held (h : moveHeld s d m.num m.part = true) : commitDelete s d es = s := by
  simp only [commitDelete, hm, h, if_true]

variable (hmove : moveHeld s d m.num m.part = false)
include hmove

theorem commitDelete_unread (h : d.hostFault = true) : commitDelete s d es = complete s d stHost := by
  simp [commitDelete, hm, hmove, h]

variable (hread : d.hostFault = false) {tg : List (Nat × Nat)} (htg : tg = delTargets (m.view s) es)
include hread htg

theorem commitDelete_full (htomb : m.r.tomb = false) (h : (m.view s).u.sideCap < (m.view s).u.tail - (m.view s).u.head + tg.length) :
    commitDelete s d es = refuseAtEpoch s m d stNoRes := by
  subst htg
  simp [commitDelete, hm, hmove, hread, htomb, h]

theorem commitDelete_settles (h : m.r.tomb = true ∨ (m.view s).u.tail - (m.view s).u.head + tg.length ≤ (m.view s).u.sideCap) :
    commitDelete s d es = settleMut s m d (draftDelete s m es tg) (delResult m es tg) [] := by
  subst htg
  have hroom : (!m.r.tomb && decide ((m.view s).u.sideCap < (m.view s).u.tail - (m.view s).u.head + (delTargets (m.view s) es).length)) = false := by
    rcases h with h | h <;> simp [h]
  simp only [commitDelete, hm, hmove, hread, hroom, Bool.false_eq_true, if_false]
  rfl

end commitDelete

/-! ### A step of a consolidation (R209 to R212) -/

theorem consResult_length (f l : Option Nat) (st fo re fr : Nat) : (consResult f l st fo re fr).length = 32 := by simp [consResult, toLE_length]

theorem openDeltas_congr {s x : State} (h : x.fab = s.fab) (d : Desc) : openDeltas x d = openDeltas s d := by simp only [openDeltas, h]

theorem land_pending (m : Mut) (x : Draft) : (land m x).pending = x.s.pending := by simp [land]

/-- Phase 2 counts every slot that it frees. -/
theorem foldl_freeOne_count (m : Mut) (l : List Nat) (x : Draft) (k : Nat) :
    l.foldl (fun a i => (freeOne m a.1 i, a.2 + 1)) (x, k) = (l.foldl (freeOne m) x, k + l.length) := by
  induction l generalizing x k with
  | nil => rfl
  | cons i l ih => rw [List.foldl_cons, List.foldl_cons, ih, List.length_cons, Nat.add_assoc, Nat.add_comm 1]

section consStep
variable {s : State} {q : QId} {seq : Nat} {d : Desc} {f l : Option Nat} {st fo re fr ph cu : Nat}

theorem exec_consolidationStep (hwf : wellFormed (.consolidationStep q seq) = true) (hd : placedDesc s q seq 0x0A = some d)
    (hw : d.work = .consolidate f l st fo re fr ph cu) :
    exec (.consolidationStep q seq) s = onUnit s true (if consHeld s d then s else consStep s d f l st fo re fr ph cu) := by
  change execConsolidationStep q seq s = _
  rw [execConsolidationStep, hwf, hd]
  simp only [hw]

/-- Without open deltas the last step's end is a completion with DONE. -/
theorem consDone_completes (h : openDeltas s d = []) :
    consDone s d f l st fo re fr = completeWith (hostWrite s d.tenant (dfield d 16 8) (consResult f l st fo re fr)) d stDone 0 0 (l.getD 0) (recMove l) [] := by
  simp [consDone, openDeltas_congr (hostWrite_fab ..), h]

variable {m : Mut} (hm : mutOf s d.tenant (dfield d 24 4) (dfield d 28 2) = some m)
include hm

theorem consStep_done (h : (consNext (m.view s) f (dfield d 32 4) (consEnd d (m.view s).d.slots) 4 ph cu).2 = []) :
    consStep s d f l st fo re fr ph cu = consDone s d f l st fo re fr := by
  simp only [consStep, hm, h, List.take_nil, List.isEmpty_nil, if_true]

variable (hflash : flashWait s = false) (hmove : moveHeld s d m.num m.part = false)
  (hphase : (consNext (m.view s) f (dfield d 32 4) (consEnd d (m.view s).d.slots) 4 ph cu).1 = 2) {y : List Nat}
  (hy : y = (consNext (m.view s) f (dfield d 32 4) (consEnd d (m.view s).d.slots) 4 ph cu).2.take (dfield d 30 2)) (hne : y ≠ [])
  {x : Draft} (hx : x = closeMut m (y.foldl (freeOne m) (firstSet m { s := s })))
include hflash hmove hphase hy hne hx

theorem consStep_waits (h : fitOf s m x = .waits) : consStep s d f l st fo re fr ph cu = s := by
  have hwork : y.isEmpty = false := by simpa using hne
  simp only [consStep, hm, ← hy, hwork, hflash, hmove, hphase, Bool.or_self, Bool.false_eq_true, if_false, foldl_freeOne_count, ← hx, h]

theorem consStep_freed (hfits : fitOf s m x = .fits) (hfault : x.fault = none) (hdeltas : x.deltas = [])
    (hmore : (consNext (m.view (land m x)) (some (f.getD m.epoch)) (dfield d 32 4) (consEnd d (m.view s).d.slots) 4 2 (y.getLast?.getD 0 + 1)).2 ≠ []) :
    consStep s d f l st fo re fr ph cu = putDesc (land m x)
      { d with work := .consolidate (some (f.getD m.epoch)) (some m.epoch) (st + 1) fo re (fr + y.length) 2 (y.getLast?.getD 0 + 1) } := by
  have hwork : y.isEmpty = false := by simpa using hne
  have hleft := (List.isEmpty_eq_false_iff).mpr hmore
  simp only [consStep, hm, ← hy, hwork, hflash, hmove, hphase, Bool.or_self, Bool.false_eq_true, if_false, foldl_freeOne_count, ← hx, hfits, hfault, hdeltas,
    sendDeltas, List.foldl_nil, hleft]
  simp

end consStep

/-! ### The statement -/

/-- Settles O51: every row is one of the equations above for its case, and a case ends by waiting, by a refusal, by a refusal at an epoch, or with DONE. -/
theorem indexMutationsCommit : Obligations.IndexMutationsCommit := by
  unfold Obligations.IndexMutationsCommit
  refine ⟨?accept, ?insert, ?delete, ?consolidate⟩
  case accept =>
    rintro s q seq op c d acc (⟨rfl, rfl, hacc⟩ | ⟨rfl, rfl, hacc⟩ | ⟨rfl, rfl, hacc⟩) hwf hd hw
    · rw [exec_insert hwf hd hw]
      exact ⟨fun st h => onUnit_completed rfl (runInsert_refused hacc h) rfl,
        fun x hx _ h => onUnit_completed rfl (runInsert_unread hacc hx h) rfl, nofun,
        fun x es hx _ hfault hopen hlen hes => by rw [runInsert_accepted hacc hx hfault hopen hlen hes]; exact onUnit_keep rfl rfl, nofun⟩
    · rw [exec_delete hwf hd hw]
      exact ⟨fun st h => onUnit_completed rfl (runDelete_refused hacc h) rfl,
        fun x hx _ h => onUnit_completed rfl (runDelete_unread hacc hx h) rfl, nofun, nofun,
        fun x es hx _ hfault hopen hes hzero => by rw [runDelete_accepted hacc hx hfault hopen hzero, hes]; exact onUnit_keep rfl rfl⟩
    · rw [exec_consolidate hwf hd hw]
      exact ⟨fun st h => onUnit_completed rfl (runConsolidate_refused hacc h) rfl, fun _ _ h => absurd rfl h,
        fun x hx _ => by rw [runConsolidate_accepted hacc hx]; exact onUnit_keep rfl rfl, nofun, nofun⟩
  case insert =>
    intro s q seq d es hwf hd hw
    rw [exec_mutationCommit_insert hwf hd hw]
    refine ⟨fun h => by rw [commitInsert_noEpoch h, onUnit_unchanged], fun m hm => ⟨fun h => by rw [commitInsert_held hm h, onUnit_unchanged],
      fun hflash hmove hset => ⟨fun h => onUnit_completed rfl (commitInsert_unread hm hflash hmove hset h) rfl,
        fun st hread h => onUnit_refuseAtEpoch (commitInsert_refused hm hflash hmove hset hread h),
        fun p s0 x ad need hread hok hp hs0 hx had hneed => ?_⟩⟩⟩
    have hsettles := commitInsert_settles hm hflash hmove hset hread hok hp hs0
    have hdraft : ({ x with need := need } : Draft) = withSet x ad := by rw [hneed]; rfl
    rw [← hx, ← had] at hsettles
    rw [hdraft, hsettles]
    subst hs0
    refine ⟨fun h => ?never, fun h => ?waits, fun st h hfault => ?faulted, fun w h hfault hdeltas hw hopen => ?done⟩
    case never =>
      rw [settleMut_never h]
      obtain ⟨hdescs, hrecs, hentry⟩ := complete_completed { s with freeCtr := s.freeCtr + p.stats.length } d stNoRes
      exact ⟨_, onUnit_keep rfl (complete_pend ..), ⟨hdescs, hrecs, hentry⟩, by simp, by simp⟩
    case waits =>
      rw [settleMut_waits h]
      exact onUnit_keep rfl rfl
    case faulted =>
      rw [settleMut_faulted h hfault]
      have hnoted := ReadOnly.noteBad { s with freeCtr := s.freeCtr + p.stats.length } m.t x.badRead
      exact ⟨_, rfl, completeWith_getTt .., by simp [refuseAtEpoch, hnoted.hostMem], refuseAtEpoch_indexes (s := s) hnoted.indexes hnoted.tempo m d st,
        by simp [refuseAtEpoch, hnoted.ms]⟩
    case done =>
      subst hw
      rw [settleMut_done h hfault hdeltas]
      obtain ⟨t, ht, hdone⟩ := onUnit_doneWith (s := s) hopen (e := mutationDone (land m x) d m.epoch m.num m.part (insResult m p) ad) rfl
      exact ⟨t, ht, hdone.recs, hdone.entry, hdone.written, hdone.outside, hdone.indexes, hdone.ms, hdone.fl⟩
  case delete =>
    intro s q seq d es m tg x hwf hins hd hw hm htg hx
    rw [exec_mutationCommit_delete hwf hins hd hw]
    obtain rfl : x = draftDelete s m es tg := hx
    refine ⟨fun h => by rw [commitDelete_held hm h, onUnit_unchanged], fun hmove h => onUnit_completed rfl (commitDelete_unread hm hmove h) rfl,
      fun hmove hread => ⟨fun htomb h => ?full, fun hroom h => ?waits, fun hroom h hfault hdeltas hopen => ?done⟩⟩
    case full =>
      obtain ⟨t, ht, hrecs, hentry, -, honly⟩ := onUnit_refuseAtEpoch (commitDelete_full hm hmove hread htg htomb h)
      exact ⟨t, ht, hrecs, hentry, honly⟩
    case waits => rw [commitDelete_settles hm hmove hread htg hroom, settleMut_waits (withSet_nil _ ▸ h), onUnit_unchanged]
    case done =>
      rw [commitDelete_settles hm hmove hread htg hroom, settleMut_done (withSet_nil _ ▸ h) hfault hdeltas]
      obtain ⟨t, ht, hdone⟩ := onUnit_doneWith (s := s) hopen (e := mutationDone (land m _) d m.epoch m.num m.part (delResult m es tg) []) rfl
      obtain ⟨hwritten, hout⟩ := hdone.of_length (delResult_length m es tg)
      exact ⟨t, ht, hdone.recs, hdone.entry, hwritten, hout, hdone.indexes, hdone.ms, hdone.fl⟩
  case consolidate =>
    intro s q seq d f l st fo re fr ph cu hwf hd hw
    rw [exec_consolidationStep hwf hd hw]
    refine ⟨fun h => by rw [if_pos h, onUnit_unchanged], fun m hfree hm hopen hdeltas h => ?done, fun m x y hfree hm hflash hmove hphase hy hne hx => ?step⟩
    case done =>
      rw [if_neg (Bool.eq_false_iff.mp hfree), consStep_done hm h]
      obtain ⟨t, ht, hdone⟩ := onUnit_doneWith (s := s) hopen (consDone_completes hdeltas)
      obtain ⟨hwritten, hout⟩ := hdone.of_length (consResult_length ..)
      exact ⟨t, ht, hdone.recs, hdone.entry, hwritten, hout, hdone.indexes, hdone.ms⟩
    case step =>
      rw [if_neg (Bool.eq_false_iff.mp hfree)]
      refine ⟨fun h => by rw [consStep_waits hm hflash hmove hphase hy hne hx h, onUnit_unchanged], fun hfits hfault hdeltas hpend hmore => ?_⟩
      rw [consStep_freed hm hflash hmove hphase hy hne hx hfits hfault hdeltas hmore]
      exact onUnit_keep rfl ((land_pending m x).trans hpend)

end Sys2Proof.Machine
end

section
/-! SUPPORT. Epochs, the retirement of before-images and journalled writes (07 R184 to R193, R211, R216, R217), and the statement about them. -/

namespace Sys2Proof.Machine

open Sys2Proof

/-! ### Epochs (R184, R185) -/

/-- The place of an index's next commit among those of the move. -/
def commitPlace (s : State) (ix : Index) : Nat := if ix.commitMove = moveOf s then ix.commitCount else 0

theorem nextEpoch_eq_some {s : State} {ix : Index} {e : Nat} :
    nextEpoch s ix = some e ↔ (commitPlace s ix < 256 ∧ s.fab.node ≠ 255) ∧ moveOf s * 65536 + s.fab.node * 256 + commitPlace s ix = e :=
  Option.ite_none_right_eq_some.trans (and_congr_right fun _ => Option.some_inj)

theorem nextEpoch_eq_none {s : State} {ix : Index} (h : 256 ≤ commitPlace s ix) : nextEpoch s ix = none :=
  if_neg fun hroom => absurd hroom.1 (Nat.not_lt.mpr h)

theorem commitPlace_takeEpoch (s : State) (ix : Index) : commitPlace s (takeEpoch s ix) = commitPlace s ix + 1 := if_pos rfl

/-! ### An index among the others -/

theorem findIndex_putIndex_other (s : State) (i : Index) (t n : Nat) (h : t ≠ i.tenant ∨ n ≠ i.num) : findIndex (putIndex s i) t n = findIndex s t n := by
  have hkey : ∀ x : Index, x.tenant = i.tenant ∧ x.num = i.num → (x.tenant == t && x.num == n) = false := by
    rintro x ⟨ht, hn⟩
    simp only [Bool.and_eq_false_iff, beq_eq_false_iff_ne, ht, hn]
    exact h.imp Ne.symm Ne.symm
  unfold putIndex
  split
  · simp only [findIndex]
    induction s.indexes with
    | nil => rfl
    | cons x r ih =>
      by_cases hx : x.tenant = i.tenant ∧ x.num = i.num
      · simp only [List.map_cons, if_pos hx, List.find?_cons, hkey i ⟨rfl, rfl⟩, hkey x hx, ih]
      · simp only [List.map_cons, if_neg hx, List.find?_cons, ih]
  · simp only [findIndex, List.find?_append, List.find?_cons, hkey i ⟨rfl, rfl⟩, List.find?_nil, Option.or_none]

theorem findObj_key {s : State} {t n : Nat} {o : Obj} (h : findObj s t n = some o) : o.tenant = t ∧ o.num = n := by
  simpa using List.find?_some h

theorem mendBursts_indexes (s : State) (o : Obj) (off n : Nat) : (mendBursts s o off n).indexes = s.indexes := by rw [mendBursts_frame]

/-! ### Fields of the update header (R193, R211) -/

theorem memRead_congr {m m' : Mem} {a n : Nat} (h : ∀ i, i < n → memGet m (a + i) = memGet m' (a + i)) : memRead m a n = memRead m' a n :=
  List.map_congr_left fun i hi => h i (List.mem_range.mp hi)

/-- An 8-byte field is written where its value changes. -/
def updateField (m : Mem) (a old new : Nat) : Mem := if new = old then m else memWrite m a (toLE 8 new)

theorem memGet_updateField {m : Mem} {a b : Nat} (old new : Nat) (h : b < a ∨ a + 8 ≤ b) : memGet (updateField m a old new) b = memGet m b := by
  unfold updateField
  split
  · rfl
  · exact memGet_memWrite_out m a b _ (by rwa [toLE_length])

theorem memRead_updateField (m : Mem) (a old new : Nat) : memRead (updateField m a old new) a 8 = if new = old then memRead m a 8 else toLE 8 new := by
  unfold updateField
  split
  · rfl
  · exact toLE_length 8 new ▸ memRead_memWrite m a (toLE 8 new)

/-- FLOOR and SIDE_HEAD of the update header at `ua` are updated. -/
def updateHeader (m : Mem) (ua : Nat) (u : UpdHdr) (floor head : Nat) : Mem := updateField (updateField m (ua + 32) u.floor floor) (ua + 16) u.head head

section header
variable (m : Mem) (ua : Nat) (u : UpdHdr) (floor head : Nat)

theorem memRead_updateHeader_floor :
    memRead (updateHeader m ua u floor head) (ua + 32) 8 = if floor = u.floor then memRead m (ua + 32) 8 else toLE 8 floor :=
  (memRead_congr fun _ _ => memGet_updateField _ _ (.inr (by omega))).trans (memRead_updateField ..)

theorem memGet_updateHeader {b : Nat} (hhead : b < ua + 16 ∨ ua + 24 ≤ b) (hfloor : b < ua + 32 ∨ ua + 40 ≤ b) :
    memGet (updateHeader m ua u floor head) b = memGet m b :=
  (memGet_updateField _ _ hhead).trans (memGet_updateField _ _ hfloor)

end header

/-! ### BEFORE_IMAGE_RETIRE (R192, R193, R211) -/

/-- The horizon of an epoch has come. -/
def horizonPassed (s : State) (e : Nat) : Bool := decide (e / 65536 + 4096 ≤ moveOf s)

/-- The before-images of the index that stay when those of a partition retire. -/
def imagesLeft (s : State) (ix : Index) (part : Nat) : List BImage :=
  ix.images.filter (fun i => !((i.part == part || i.part == dirPart) && horizonPassed s i.epoch))

def pagesLeft (s : State) (t num part : Nat) : List Retained :=
  s.fl.retained.filter (fun k => !(k.tenant == t && k.index == num && k.part == part && horizonPassed s k.epoch))

/-- The update header of a partition in the index's object, and its offset. -/
def headerOf (r : IdxRec) (o : Obj) (part : Nat) : UpdHdr := updAt r o.data (dirAt r o.data part)
def headerOff (r : IdxRec) (o : Obj) (part : Nat) : Nat := uaOff r (dirAt r o.data part)

/-- FLOOR once the due before-images of the partition have left. -/
def raisedFloor (s : State) (ix : Index) (part floor : Nat) : Nat :=
  (ix.images.filter (fun i => i.part == part && horizonPassed s i.epoch)).foldl (fun a i => max a i.epoch) floor

/-- The before-images and pages that are due have left. -/
def imagesDropped (s : State) (t num part : Nat) (ix : Index) : State :=
  let s1 := putIndex s { ix with images := imagesLeft s ix part }
  { s1 with fl := { s1.fl with retained := pagesLeft s t num part } }

/-- SIDE_HEAD once it has passed the folded records whose horizon has come. -/
def passedHead (s : State) (t num part : Nat) (ix : Index) (r : IdxRec) (o : Obj) : Nat :=
  passHead (pvAt (imagesDropped s t num part ix) t num part epochNow r ix noEdge) (moveOf s) ((headerOf r o part).tail - (headerOf r o part).head) (headerOf r o part).head

/-- The object's bytes with FLOOR raised and SIDE_HEAD moved on to `head`. -/
def retiredData (s : State) (part : Nat) (ix : Index) (r : IdxRec) (o : Obj) (head : Nat) : Mem :=
  updateHeader o.data (headerOff r o part) (headerOf r o part) (raisedFloor s ix part (headerOf r o part).floor) head

/-- The state after a retirement that moves SIDE_HEAD to `head` and stores `n` bytes of the header anew. -/
def retired (s : State) (t num part : Nat) (ix : Index) (r : IdxRec) (o : Obj) (head n : Nat) : State :=
  mendBursts (putObj (imagesDropped s t num part ix) { o with data := retiredData s part ix r o head }) o (headerOff r o part) n

section retire
variable {s : State} {t num part : Nat}

theorem exec_beforeImageRetire (hwf : wellFormed (.beforeImageRetire t num part) = true) :
    exec (.beforeImageRetire t num part) s = onUnit s true (retireImages s t num part) := by
  rw [← hwf]
  rfl

theorem retireImages_noIndex (h : findIndex s t num = none) : retireImages s t num part = s := by
  simp only [retireImages, h]

theorem retireImages_eq {ix : Index} {r : IdxRec} {o : Obj} (hix : findIndex s t num = some ix) (hr : idxRec s t num = some r) (ho : findObj s t num = some o) :
    ∃ head n, retireImages s t num part = retired s t num part ix r o head n := by
  refine ⟨passedHead s t num part ix r o, if raisedFloor s ix part (headerOf r o part).floor = (headerOf r o part).floor
    ∧ passedHead s t num part ix r o = (headerOf r o part).head then 0 else 64, ?_⟩
  simp only [retireImages, hix, hr, ho, retired, passedHead, imagesDropped, putIndex_fl]
  rfl

end retire

section retired
variable (s : State) (t num part : Nat) (ix : Index) (r : IdxRec) (o : Obj) (head n : Nat)

theorem imagesDropped_frame : imagesDropped s t num part ix =
    { s with indexes := (imagesDropped s t num part ix).indexes, fl := { s.fl with retained := pagesLeft s t num part } } := by
  apply State.ext <;> simp [imagesDropped, pagesLeft]

theorem retired_frame : retired s t num part ix r o head n = { s with
    indexes := (retired s t num part ix r o head n).indexes, ms := (retired s t num part ix r o head n).ms, fl := { s.fl with retained := pagesLeft s t num part } } := by
  apply State.ext <;> simp only [retired] <;> (rw [mendBursts_frame, imagesDropped_frame]; simp)

theorem findObj_retired : findObj (retired s t num part ix r o head n) o.tenant o.num = some { o with data := retiredData s part ix r o head } :=
  (findObj_mendBursts ..).trans (findObj_putObj _ { o with data := retiredData s part ix r o head })

theorem findObj_retired_other {t' n' : Nat} (h : t' ≠ o.tenant ∨ n' ≠ o.num) : findObj (retired s t num part ix r o head n) t' n' = findObj s t' n' := by
  rw [retired, findObj_mendBursts, findObj_putObj_other _ { o with data := retiredData s part ix r o head } t' n' h, imagesDropped_frame]
  rfl

theorem retired_indexes : (retired s t num part ix r o head n).indexes = (putIndex s { ix with images := imagesLeft s ix part }).indexes :=
  (mendBursts_indexes ..).trans (putObj_indexes ..)

theorem findIndex_retired : findIndex (retired s t num part ix r o head n) ix.tenant ix.num = some { ix with images := imagesLeft s ix part } :=
  (findIndex_congr (retired_indexes ..) ..).trans (findIndex_putIndex s { ix with images := imagesLeft s ix part })

theorem findIndex_retired_other {t' n' : Nat} (h : t' ≠ ix.tenant ∨ n' ≠ ix.num) : findIndex (retired s t num part ix r o head n) t' n' = findIndex s t' n' :=
  (findIndex_congr (retired_indexes ..) ..).trans (findIndex_putIndex_other s { ix with images := imagesLeft s ix part } t' n' h)

end retired

/-! ### Journalled writes (R216, R217) -/

/-- A journalled write may take effect: both members have acknowledged it and its move has come. -/
def writeDue (s : State) (w : JWrite) : Bool := w.ack1 && w.ack2 && decide (w.epoch / 65536 ≤ moveOf s)

theorem writeDue_iff {s : State} {w : JWrite} : writeDue s w = true ↔ w.ack1 = true ∧ w.ack2 = true ∧ w.epoch / 65536 ≤ moveOf s := by
  simp [writeDue, and_assoc]

/-- The writes of an index in the order of their epochs. -/
def writesByEpoch (ix : Index) : List JWrite := sortBy (fun a b => decide (a.epoch ≤ b.epoch)) ix.writes

theorem mem_writesByEpoch {ix : Index} {w : JWrite} : w ∈ writesByEpoch ix ↔ w ∈ ix.writes := (sortBy_perm _ ix.writes).mem_iff

theorem writesByEpoch_ascending (ix : Index) : (writesByEpoch ix).Pairwise (fun a b => a.epoch ≤ b.epoch) :=
  sortBy_pairwise (R := fun a b : JWrite => a.epoch ≤ b.epoch) (fun _ _ _ => Nat.le_trans) (fun _ _ => of_decide_eq_true) (fun _ _ h => Nat.le_of_not_le (of_decide_eq_false h)) ix.writes

/-- The bytes that stand where a write goes, as its before-image. -/
def writtenOver (num : Nat) (o : Obj) (w : JWrite) : List (Nat × Nat × Byte) :=
  (List.zip (List.range w.bytes.length) (memRead o.data w.off w.bytes.length)).map (fun ib => (num, w.off + ib.1, ib.2))

/-- The index once a write has taken effect: its before-image is kept, and it waits no more. -/
def withWrite (num : Nat) (o : Obj) (ix : Index) (w : JWrite) : Index :=
  { ix with images := ix.images ++ [⟨w.epoch, dirPart, writtenOver num o w⟩], mutated := if ix.mutated.contains dirPart then ix.mutated else ix.mutated ++ [dirPart],
            writes := ix.writes.filter (fun x => !(x.q == w.q && x.seq == w.seq)) }

/-- One write takes effect and its request completes. -/
def applyWrite (t num : Nat) (s : State) (w : JWrite) : State :=
  match findObj s t num, findIndex s t num with
  | some o, some ix =>
    let s1 := putIndex (writeObj s o w.off w.bytes).1 (withWrite num o ix w)
    match findDesc s1 w.q w.seq with
    | some d => completeWith s1 d stDone 0 0 0 0 []
    | none => s1
  | _, _ => s

section journal
variable {s : State} {t num : Nat}

theorem exec_journalWriteApply (hwf : wellFormed (.journalWriteApply t num) = true) :
    exec (.journalWriteApply t num) s = onUnit s true (applyJournal s t num) := by
  rw [← hwf]
  rfl

theorem applyJournal_noIndex (h : findIndex s t num = none) : applyJournal s t num = s := by
  simp only [applyJournal, h]

variable {ix : Index} (hix : findIndex s t num = some ix)
include hix

theorem applyJournal_eq : applyJournal s t num = ((writesByEpoch ix).takeWhile (writeDue s)).foldl (applyWrite t num) s := by
  simp only [applyJournal, hix]
  rfl

/-- Nothing takes effect while no write of the earliest epoch may. -/
theorem applyJournal_waits (h : ∀ w ∈ ix.writes, (∀ y ∈ ix.writes, w.epoch ≤ y.epoch) → writeDue s w = false) : applyJournal s t num = s := by
  have hnone : (writesByEpoch ix).takeWhile (writeDue s) = [] := by
    have hasc := writesByEpoch_ascending ix
    have hmem := fun w => mem_writesByEpoch (ix := ix) (w := w)
    cases hl : writesByEpoch ix with
    | nil => rfl
    | cons w r =>
      rw [hl] at hasc hmem
      have hfirst : ∀ y ∈ ix.writes, w.epoch ≤ y.epoch := fun y hy =>
        (List.mem_cons.mp ((hmem y).mpr hy)).elim (fun he => he ▸ le_rfl) ((List.pairwise_cons.mp hasc).1 y)
      exact List.takeWhile_cons_of_neg (by simp [h w ((hmem w).mp List.mem_cons_self) hfirst])
  rw [applyJournal_eq hix, hnone, List.foldl_nil]

/-- A write that waits alone and may take effect does. -/
theorem applyJournal_single {w : JWrite} (hw : ix.writes = [w]) (hdue : writeDue s w = true) : applyJournal s t num = applyWrite t num s w := by
  have hall : (writesByEpoch ix).takeWhile (writeDue s) = [w] := by
    rw [writesByEpoch, hw]
    exact List.takeWhile_cons_of_pos hdue
  rw [applyJournal_eq hix, hall, List.foldl_cons, List.foldl_nil]

end journal

/-- The state in which a write to an object of T0 or T1 has taken effect. -/
def stored (num : Nat) (s : State) (o : Obj) (ix : Index) (w : JWrite) : State :=
  putIndex (mendBursts (putObj s { o with hdr := hdrAfter o w.off w.bytes, data := memWrite o.data w.off w.bytes }) o w.off w.bytes.length) (withWrite num o ix w)

section stored
variable (num : Nat) (s : State) (o : Obj) (ix : Index) (w : JWrite)

theorem stored_frame : stored num s o ix w = { s with indexes := (stored num s o ix w).indexes, ms := (stored num s o ix w).ms } := by
  apply State.ext <;> simp only [stored] <;> (rw [mendBursts_frame]; simp)

theorem findObj_stored : findObj (stored num s o ix w) o.tenant o.num = some { o with hdr := hdrAfter o w.off w.bytes, data := memWrite o.data w.off w.bytes } := by
  rw [stored, findObj_congr (putIndex_ms ..), findObj_mendBursts]
  exact findObj_putObj s { o with hdr := hdrAfter o w.off w.bytes, data := memWrite o.data w.off w.bytes }

theorem findObj_stored_other {t n : Nat} (h : t ≠ o.tenant ∨ n ≠ o.num) : findObj (stored num s o ix w) t n = findObj s t n := by
  rw [stored, findObj_congr (putIndex_ms ..), findObj_mendBursts]
  exact findObj_putObj_other s { o with hdr := hdrAfter o w.off w.bytes, data := memWrite o.data w.off w.bytes } t n h

theorem findIndex_stored : findIndex (stored num s o ix w) ix.tenant ix.num = some (withWrite num o ix w) := findIndex_putIndex _ (withWrite num o ix w)

theorem findIndex_stored_other {t n : Nat} (h : t ≠ ix.tenant ∨ n ≠ ix.num) : findIndex (stored num s o ix w) t n = findIndex s t n :=
  (findIndex_putIndex_other _ (withWrite num o ix w) t n h).trans (findIndex_congr ((mendBursts_indexes ..).trans (putObj_indexes ..)) t n)

end stored

theorem applyWrite_completes {s : State} {t num : Nat} {o : Obj} {ix : Index} {w : JWrite} {d : Desc} (ho : findObj s t num = some o)
    (hix : findIndex s t num = some ix) (htier : o.tier < 2) (hd : findDesc s w.q w.seq = some d) :
    applyWrite t num s w = complete (stored num s o ix w) d stDone := by
  have hwrite : putIndex (writeObj s o w.off w.bytes).1 (withWrite num o ix w) = stored num s o ix w := by
    rw [writeObj, if_neg (by omega), stored]
  have hdesc : findDesc (stored num s o ix w) w.q w.seq = some d := by rw [stored_frame]; exact hd
  simp only [applyWrite, ho, hix, hwrite, hdesc]
  rfl

/-! ### The statement -/

/-- Settles O52: an epoch by its digits, a retirement by what it drops and the two fields that it writes, a journalled write by the order of its index's writes. -/
theorem epochsAndBeforeImages : Obligations.EpochsAndBeforeImages := by
  unfold Obligations.EpochsAndBeforeImages
  refine ⟨fun s ix e h hnode => ?digits, fun s ix e e' h h' => ?next, fun s ix hmove hcount => ?full, fun s t num part hwf => ?images, fun s t num hwf => ?journal⟩
  case digits =>
    obtain ⟨⟨hplace, h255⟩, rfl⟩ := nextEpoch_eq_some.mp h
    change _ ∧ _ ∧ _ ∧ _ = commitPlace s ix
    exact ⟨h255, by omega, by omega, by omega⟩
  case next =>
    obtain ⟨-, rfl⟩ := nextEpoch_eq_some.mp h
    obtain ⟨-, rfl⟩ := nextEpoch_eq_some.mp h'
    rw [commitPlace_takeEpoch, Nat.add_assoc _ _ 1]
  case full => exact nextEpoch_eq_none (by rwa [commitPlace, if_pos hmove])
  case images =>
    rw [exec_beforeImageRetire hwf]
    refine ⟨fun h => by rw [retireImages_noIndex h, onUnit_unchanged], ?_⟩
    rintro ix r o ua fl hix hr ho rfl rfl
    obtain ⟨head, n, heq⟩ := retireImages_eq (part := part) hix hr ho
    obtain ⟨rfl, rfl⟩ := findIndex_key hix
    obtain ⟨htenant, hnum⟩ := findObj_key ho
    have hframe := retired_frame s ix.tenant ix.num part ix r o head n
    have hpages := congrArg (fun x : State => x.fl.retained) hframe
    rw [heq]
    refine ⟨_, retiredData s part ix r o head, onUnit_keep rfl (by rw [hframe]), findIndex_retired .., hpages, ?_, memRead_updateHeader_floor ..,
      fun b hhead hfloor => memGet_updateHeader (hhead := hhead) (hfloor := hfloor) .., fun t' n' h => ⟨?_, findIndex_retired_other (h := h) ..⟩, ?_⟩
    · rw [← htenant, ← hnum]
      exact findObj_retired ..
    · exact findObj_retired_other (h := by rwa [htenant, hnum]) ..
    · rw [hpages]
      exact hframe
  case journal =>
    rw [exec_journalWriteApply hwf]
    refine ⟨fun h => by rw [applyJournal_noIndex h, onUnit_unchanged], fun ix hix h => ?_, fun ix w hix hw hnot hfirst => ?_,
      fun ix o w d hix ho htier hw h1 h2 hmove hd => ?_⟩
    · rw [applyJournal_waits hix fun w hw _ => Bool.eq_false_iff.mpr (mt writeDue_iff.mp (h w hw)), onUnit_unchanged]
    · rw [applyJournal_waits hix fun y hy hle => ?_, onUnit_unchanged]
      rcases hfirst y hy with rfl | hlt
      · exact Bool.eq_false_iff.mpr (mt writeDue_iff.mp hnot)
      · exact absurd (hle w hw) (Nat.not_le.mpr hlt)
    · rw [applyJournal_single hix hw (writeDue_iff.mpr ⟨h1, h2, hmove⟩), applyWrite_completes ho hix htier hd]
      obtain ⟨rfl, rfl⟩ := findIndex_key hix
      obtain ⟨htenant, hnum⟩ := findObj_key ho
      have hframe := stored_frame ix.num s o ix w
      have hms := complete_ms (stored ix.num s o ix w) d stDone
      have hindexes := complete_indexes (stored ix.num s o ix w) d stDone
      refine ⟨_, { o with hdr := hdrAfter o w.off w.bytes, data := memWrite o.data w.off w.bytes }, onUnit_keep rfl (by rw [complete_pend, hframe]),
        completed_of d stDone (by rw [hframe]) (by rw [hframe]), ?_, rfl, ⟨withWrite ix.num o ix w, (findIndex_congr hindexes ..).trans (findIndex_stored ..),
          by simp [withWrite, hw], _, rfl, rfl⟩, fun t' n' h => ⟨?_, (findIndex_congr hindexes ..).trans (findIndex_stored_other (h := h) ..)⟩, by rw [complete_hostMem, hframe]⟩
      · rw [findObj_congr hms, ← htenant, ← hnum]
        exact findObj_stored ..
      · rw [findObj_congr hms]
        exact findObj_stored_other (h := by rwa [htenant, hnum]) ..

end Sys2Proof.Machine
end

section
/-! SUPPORT. Writing bytes of an object of T0 or T1 (08 R231, R234): what the object holds after it, and what a write leaves unchanged. -/

namespace Sys2Proof.Machine

open Sys2Proof

/-- Nothing but the objects and the stacks' record of bad bursts and rows has changed. -/
def OnlyObjects (s t : State) : Prop := t = { s with ms := { s.ms with objs := t.ms.objs, badBursts := t.ms.badBursts, badRows := t.ms.badRows } }

namespace OnlyObjects

theorem trans {a b c : State} (hab : OnlyObjects a b) (hbc : OnlyObjects b c) : OnlyObjects a c := by
  unfold OnlyObjects at *
  rw [hbc, hab]

theorem putObj (s : State) (o : Obj) : OnlyObjects s (putObj s o) := by
  unfold Machine.putObj
  split <;> rfl

theorem mendBursts (s : State) (o : Obj) (off n : Nat) : OnlyObjects s (mendBursts s o off n) := by
  unfold Machine.mendBursts
  split <;> rfl

end OnlyObjects

/-- The object holds the bytes `m`, and no other object and nothing else has changed. -/
structure Wrote (s : State) (o : Obj) (m : Mem) (t : State) : Prop where
  object : ∃ hdr, findObj t o.tenant o.num = some { o with hdr := hdr, data := m }
  others : ∀ u k, u ≠ o.tenant ∨ k ≠ o.num → findObj t u k = findObj s u k
  frame : OnlyObjects s t

theorem writeObj_eq {o : Obj} (htier : o.tier ≠ 3) (s : State) (off : Nat) (bs : List Byte) :
    writeObj s o off bs = (mendBursts (putObj s { o with hdr := hdrAfter o off bs, data := memWrite o.data off bs }) o off bs.length, none) := by
  rw [writeObj, if_neg htier]

namespace Wrote

theorem refl {s : State} {o : Obj} (h : findObj s o.tenant o.num = some o) : Wrote s o o.data s := ⟨⟨o.hdr, h⟩, fun _ _ _ => rfl, rfl⟩

/-- Storing an object in the place of one with its number, with new check bits for some bytes. -/
theorem of_put {s t : State} {o y : Obj} {m : Mem} (h : Wrote s o m t) (hdr : Mem) (data : Mem) (off n : Nat) :
    Wrote s o data (mendBursts (putObj t { o with hdr := hdr, data := data }) y off n) where
  object := ⟨hdr, (findObj_mendBursts ..).trans (findObj_putObj t { o with hdr := hdr, data := data })⟩
  others u k hne := (findObj_mendBursts ..).trans ((findObj_putObj_other t { o with hdr := hdr, data := data } u k hne).trans (h.others u k hne))
  frame := h.frame.trans ((OnlyObjects.putObj ..).trans (OnlyObjects.mendBursts ..))

/-- One more write goes to the object as it stands. -/
theorem write {s t : State} {o x : Obj} {m : Mem} (h : Wrote s o m t) (htier : o.tier ≠ 3) (hx : findObj t o.tenant o.num = some x) (off : Nat) (bs : List Byte) :
    Wrote s o (memWrite m off bs) (writeObj t x off bs).1 := by
  obtain ⟨hdr, hobj⟩ := h.object
  obtain rfl : { o with hdr := hdr, data := m } = x := Option.some.inj (hobj.symm.trans hx)
  rw [writeObj_eq (o := { o with hdr := hdr, data := m }) htier]
  exact h.of_put ..

section fields
variable {s t : State} {o : Obj} {m : Mem} (h : Wrote s o m t)
include h

theorem qe : t.qe = s.qe := by rw [h.frame]
theorem fab : t.fab = s.fab := by rw [h.frame]
theorem pending : t.pending = s.pending := by rw [h.frame]

end fields

end Wrote

end Sys2Proof.Machine
end

section
/-! SUPPORT. The physical function's window into T1 (08 R241, R252, R253), and the statement about it. -/

namespace Sys2Proof.Machine

open Sys2Proof

/-! ### What the window shows -/

theorem bar4At_congr {s x : State} (h : x.ms = s.ms) (a : Nat) : bar4At x a = bar4At s a := by
  unfold bar4At bar4Seg findObj
  rw [h]

theorem stackBad_congr {s x : State} (h : x.ms = s.ms) (o : Obj) (off n : Nat) : stackBad x o off n = stackBad s o off n := by
  simp only [stackBad, bytesOnBlock, h]

theorem bar4At_eq_some {s : State} {a off : Nat} {o : Obj} :
    bar4At s a = some (o, off) ↔
      (a < 2 ^ (30 + s.ms.bar4Size) ∧ (tget {} s.ms.bar4Map (a / bar4Seg s)).valid = true ∧ ¬ (tget {} s.ms.bar4Map (a / bar4Seg s)).err = true)
        ∧ findObj s (tget {} s.ms.bar4Map (a / bar4Seg s)).tenant (tget {} s.ms.bar4Map (a / bar4Seg s)).object = some o
        ∧ (o.tier = 1 ∧ off < o.size) ∧ (tget {} s.ms.bar4Map (a / bar4Seg s)).segOff * bar4Seg s + a % bar4Seg s = off := by
  simp only [bar4At, Option.ite_none_right_eq_some, Option.bind_eq_some_iff, Option.some.injEq, Prod.mk.injEq]
  constructor
  · rintro ⟨hmap, o', ho, hin, rfl, rfl⟩
    exact ⟨hmap, ho, hin, rfl⟩
  · rintro ⟨hmap, ho, hin, rfl⟩
    exact ⟨hmap, o, ho, hin, rfl, rfl⟩

/-- The window shows an object of T1 as it stands. -/
theorem bar4At_object {s : State} {a off : Nat} {o : Obj} (h : bar4At s a = some (o, off)) : o.tier = 1 ∧ findObj s o.tenant o.num = some o := by
  obtain ⟨-, ho, ⟨htier, -⟩, -⟩ := bar4At_eq_some.mp h
  obtain ⟨ht, hn⟩ := findObj_key ho
  exact ⟨htier, by rwa [ht, hn]⟩

/-- The window shows the new bytes of an object that has been written. -/
theorem Wrote.bar4At {s t : State} {o : Obj} {m : Mem} (h : Wrote s o m t) {a off : Nat} (ha : bar4At s a = some (o, off)) :
    ∃ x, Machine.bar4At t a = some (x, off) ∧ findObj t o.tenant o.num = some x := by
  obtain ⟨hdr, hobj⟩ := h.object
  obtain ⟨hmap, ho, hin, hoff⟩ := bar4At_eq_some.mp ha
  obtain ⟨ht, hn⟩ := findObj_key ho
  have hsize : t.ms.bar4Size = s.ms.bar4Size := by rw [h.frame]
  have htable : t.ms.bar4Map = s.ms.bar4Map := by rw [h.frame]
  have hseg : bar4Seg t = bar4Seg s := by rw [bar4Seg, hsize, bar4Seg]
  refine ⟨_, bar4At_eq_some.mpr ?_, hobj⟩
  rw [htable, hseg, hsize, ← ht, ← hn]
  exact ⟨hmap, hobj, hin, hoff⟩

/-! ### A read -/

/-- The byte that an offset of the window shows. -/
def bar4Byte (s : State) (a : Nat) : Byte := ((bar4At s a).map (fun x => memGet x.1.data x.2)).getD 0

theorem bar4Read_eq {s : State} {a : Nat} (h : ∀ o off, bar4At s a = some (o, off) → stackBad s o off 1 = none) (l : List Byte) :
    bar4Read (s, l) a = (s, l ++ [bar4Byte s a]) := by
  cases ha : bar4At s a with
  | none => simp [bar4Read, bar4Byte, ha]
  | some x => simp [bar4Read, bar4Byte, ha, h x.1 x.2 ha]

theorem foldl_bar4Read {s : State} (as : List Nat) (h : ∀ a ∈ as, ∀ o off, bar4At s a = some (o, off) → stackBad s o off 1 = none) (l : List Byte) :
    as.foldl bar4Read (s, l) = (s, l ++ as.map (bar4Byte s)) := by
  induction as generalizing l with
  | nil => simp
  | cons a as ih =>
    rw [List.foldl_cons, bar4Read_eq (h a List.mem_cons_self), ih (fun b hb => h b (List.mem_cons_of_mem a hb)), List.map_cons, List.append_assoc, List.singleton_append]

/-- The offsets of an access of `n` bytes. -/
def bar4Offsets (off n : Nat) : List Nat := (List.range n).map (fun i => off + i)

/-- The state in which an access has logged the offsets that show no object. -/
def bar4Missed (s : State) (off n : Nat) (write : Bool) : State :=
  if (bar4Offsets off n).any (fun a => (bar4At s a).isNone) then barUnimplEvent s 0 off write else s

theorem bar4Missed_ms (s : State) (off n : Nat) (write : Bool) : (bar4Missed s off n write).ms = s.ms := by
  unfold bar4Missed
  split
  · exact barUnimplEvent_ms ..
  · rfl

theorem bar4Missed_pending (s : State) (off n : Nat) (write : Bool) : (bar4Missed s off n write).pending = s.pending := by
  unfold bar4Missed
  split
  · exact barUnimplEvent_pending ..
  · rfl

theorem bar4Missed_eq (s : State) (off n : Nat) (write : Bool) :
    bar4Missed s off n write = if ∀ i, i < n → (bar4At s (off + i)).isSome = true then s else barUnimplEvent s 0 off write := by
  have hiff : (bar4Offsets off n).any (fun a => (bar4At s a).isNone) = true ↔ ¬ ∀ i, i < n → (bar4At s (off + i)).isSome = true := by
    simp [bar4Offsets, Option.isSome_iff_ne_none]
  rw [bar4Missed]
  by_cases h : ∀ i, i < n → (bar4At s (off + i)).isSome = true
  · rw [if_pos h, if_neg (by rw [hiff]; exact not_not_intro h)]
  · rw [if_neg h, if_pos (hiff.mpr h)]

theorem bar4Run_read {s : State} {off n : Nat} (h : ∀ i o a, i < n → bar4At s (off + i) = some (o, a) → stackBad s o a 1 = none) :
    bar4Run s off n none = emit (bar4Missed s off n false) (.barData ((bar4Offsets off n).map (bar4Byte s))) := by
  have hms := bar4Missed_ms s off n false
  have hgood : ∀ a ∈ bar4Offsets off n, ∀ o b, bar4At (bar4Missed s off n false) a = some (o, b) → stackBad (bar4Missed s off n false) o b 1 = none := by
    intro a ha o b hab
    obtain ⟨i, hi, rfl⟩ := List.mem_map.mp ha
    rw [bar4At_congr hms] at hab
    rw [stackBad_congr hms]
    exact h i o b (List.mem_range.mp hi) hab
  have hbytes : bar4Byte (bar4Missed s off n false) = bar4Byte s := funext fun a => by rw [bar4Byte, bar4At_congr hms, bar4Byte]
  have hread := foldl_bar4Read (bar4Offsets off n) hgood []
  rw [hbytes, List.nil_append] at hread
  change emit ((bar4Offsets off n).foldl bar4Read (bar4Missed s off n false, [])).1 (.barData ((bar4Offsets off n).foldl bar4Read (bar4Missed s off n false, [])).2) = _
  rw [hread]

/-! ### A write -/

/-- Bytes written one after the other through the window stand one after the other in the object. -/
theorem foldl_bar4Write {s : State} {o : Obj} (bs : List Byte) : ∀ {x : State} {m : Mem} {off a : Nat}, Wrote s o m x →
    (∀ i, i < bs.length → bar4At s (off + i) = some (o, a + i)) →
    ∃ m', Wrote s o m' ((List.zip (bar4Offsets off bs.length) bs).foldl (fun y ab => bar4Write y ab.1 ab.2) x)
      ∧ (∀ i (h : i < bs.length), memGet m' (a + i) = bs[i]) ∧ ∀ b, (b < a ∨ a + bs.length ≤ b) → memGet m' b = memGet m b := by
  induction bs with
  | nil => exact fun h _ => ⟨_, h, nofun, fun _ _ => rfl⟩
  | cons c bs ih =>
    intro x m off a h hat
    have hfirst : bar4At s off = some (o, a) := hat 0 (Nat.succ_pos _)
    have htier : o.tier ≠ 3 := by rw [(bar4At_object hfirst).1]; decide
    obtain ⟨y, hy, hobj⟩ := h.bar4At hfirst
    have hstep : Wrote s o (memWrite m a [c]) (bar4Write x off c) := by
      simp only [bar4Write, hy]
      exact h.write htier hobj a [c]
    have hlist : List.zip (bar4Offsets off (c :: bs).length) (c :: bs) = (off, c) :: List.zip (bar4Offsets (off + 1) bs.length) bs := by
      simp [bar4Offsets, List.range_succ_eq_map, Function.comp_def, Nat.add_assoc, Nat.add_comm 1]
    obtain ⟨m', hm', hin, hout⟩ := ih (off := off + 1) (a := a + 1) hstep
      (fun i hi => by rw [Nat.add_assoc, Nat.add_assoc, Nat.add_comm 1]; exact hat (i + 1) (Nat.succ_lt_succ hi))
    refine ⟨m', by rw [hlist]; exact hm', fun i hi => ?_, fun b hb => ?_⟩
    · cases i with
      | zero => exact (hout a (.inl (Nat.lt_succ_self a))).trans (memGet_memWrite_in m a 0 [c] Nat.zero_lt_one)
      | succ i =>
        have hnext : a + (i + 1) = a + 1 + i := by omega
        exact (congrArg (memGet m') hnext).trans (hin i (Nat.lt_of_succ_lt_succ hi))
    · rw [List.length_cons] at hb
      exact (hout b (by omega)).trans (memGet_memWrite_out m a b [c] (by rw [List.length_singleton]; omega))

theorem bar4Follow_noJobs {s : State} (h : s.ms.jobs = []) (off n : Nat) : bar4Follow s off n = s := by
  rw [bar4Follow, h, List.foldl_nil]

/-- A write within one mapped object, while no MOVE carries bytes over. -/
theorem bar4Run_write {s : State} {off a : Nat} {o : Obj} {bs : List Byte} (hjobs : s.ms.jobs = []) (hne : bs ≠ [])
    (hat : ∀ i, i < bs.length → bar4At s (off + i) = some (o, a + i)) :
    ∃ m, Wrote s o m (bar4Run s off bs.length (some bs))
      ∧ (∀ i (h : i < bs.length), memGet m (a + i) = bs[i]) ∧ ∀ b, (b < a ∨ a + bs.length ≤ b) → memGet m b = memGet o.data b := by
  have hmiss : bar4Missed s off bs.length true = s := by
    rw [bar4Missed_eq, if_pos fun i hi => by rw [hat i hi]; rfl]
  obtain ⟨m, hm, hin, hout⟩ := foldl_bar4Write bs (.refl (bar4At_object (hat 0 (List.length_pos_of_ne_nil hne))).2) hat
  refine ⟨m, ?_, hin, hout⟩
  change Wrote s o m (bar4Follow ((List.zip (bar4Offsets off bs.length) bs).foldl (fun x ab => bar4Write x ab.1 ab.2) (bar4Missed s off bs.length true)) off bs.length)
  rw [hmiss, bar4Follow_noJobs (by rw [hm.frame]; exact hjobs)]
  exact hm

/-! ### The statement -/

theorem exec_bar4Read {s : State} (h : barFull s = true) (off n : Nat) : exec (.bar4Access off n none) s = onUnit s true (bar4Run s off n none) := by
  change onUnit s true (if barFull s = true then bar4Run s off n none else s) = _
  rw [if_pos h]

theorem exec_bar4Write {s : State} (h : barFull s = true) (off n : Nat) (bs : List Byte) :
    exec (.bar4Access off n (some bs)) s = onUnit s true (bar4Run s off bs.length (some bs)) := by
  change onUnit s true (if barFull s = true then bar4Run s off bs.length (some bs) else s) = _
  rw [if_pos h]

/-- Settles O14: a read shows the window's bytes one by one, and a write within one object is a row of one-byte writes to it. -/
theorem bar4WindowAccess : Obligations.Bar4WindowAccess := by
  unfold Obligations.Bar4WindowAccess
  refine ⟨fun s off n hfull hgood => ?read, fun s off a o bs hfull hjobs hne hat => ?write, fun s n hup hn => ?size⟩
  case read =>
    rw [exec_bar4Read hfull, bar4Run_read hgood, ← bar4Missed_eq, bar4Offsets, List.map_map]
    exact onUnit_keep rfl (bar4Missed_pending ..)
  case write =>
    rw [exec_bar4Write hfull]
    obtain ⟨m, hm, hin, hout⟩ := bar4Run_write hjobs hne hat
    obtain ⟨hdr, hobj⟩ := hm.object
    exact ⟨_, _, onUnit_keep rfl hm.pending, hobj, rfl, hin, hout, hm.others, hm.frame⟩
  case size =>
    change execResizableBar n s = _
    rw [execResizableBar, if_pos ⟨hup, hn⟩]
    exact onUnit_keep rfl rfl

end Sys2Proof.Machine
end

section
/-! SUPPORT. How commands on objects end (08 R228, R240; 11 R359), said once: the order of commands on one object, commits and completions, and what is delivered to host memory. -/

namespace Sys2Proof.Machine

open Sys2Proof

/-! ### What only the queue engine changes -/

theorem commit_qe_frame (s : State) (d : Desc) : commit s d = { s with qe := (commit s d).qe } := by
  rw [commit, setTt]
  cases d.q <;> rfl

namespace OnlyQueues

theorem trans {a b c : State} (hab : OnlyQueues a b) (hbc : OnlyQueues b c) : OnlyQueues a c := by
  obtain ⟨hb, hbs⟩ := hab
  obtain ⟨hc, hcs⟩ := hbc
  refine ⟨?_, hbs.trans hcs⟩
  rw [hc, hb]

/-- The same where both states have other contents of host memory. -/
theorem withHostMem {s t : State} (h : OnlyQueues s t) (m : Mem) : OnlyQueues { s with hostMem := m } { t with hostMem := m } :=
  ⟨congrArg (fun x : State => { x with hostMem := m }) h.1, h.2⟩

/-- The same where both states have other contents of the memory tiers. -/
theorem withMs {s t : State} (h : OnlyQueues s t) (m : MsSt) : OnlyQueues { s with ms := m } { t with ms := m } :=
  ⟨congrArg (fun x : State => { x with ms := m }) h.1, h.2⟩

theorem commit (s : State) (d : Desc) : OnlyQueues s (commit s d) := by
  have hqe := commit_qe_frame s d
  exact ⟨by rw [hqe], (StreamsKept.self s).of_bd (by rw [hqe])⟩

end OnlyQueues

theorem commit_recs (s : State) (d : Desc) : (commit s d).qe.recs = s.qe.recs := setTt_recs ..

theorem findObj_commit (s : State) (d : Desc) (t n : Nat) : findObj (commit s d) t n = findObj s t n := by
  rw [commit_qe_frame]
  rfl

theorem hostOpen_commit (s : State) (d : Desc) (t : Nat) : hostOpen (commit s d) t = hostOpen s t := by
  rw [commit_qe_frame]
  rfl

/-- A completion in a state that differs from `s` in the queue engine alone. -/
theorem complete_of_onlyQueues {s x : State} {d : Desc} (h : OnlyQueues s x) (hdescs : x.qe.descs = s.qe.descs) (hrecs : x.qe.recs = s.qe.recs) (st : Nat) :
    Completed s d st 0 (complete x d st) ∧ OnlyQueues s (complete x d st) :=
  ⟨completed_of d st hdescs hrecs, h.trans (complete_only ..)⟩

/-! ### The order of the commands on one object (R228, R240) -/

/-- What a write command does: refused where its object's FREE came first, and behind the earlier writes of its rows. -/
def inOrder (s : State) (d : Desc) (run : State) : State :=
  if namesFreed s d then complete s d stMalformed else if writeHeld s d then s else run

section inOrder
variable {s : State} {d : Desc} {run : State}

theorem inOrder_freed (h : namesFreed s d = true) : inOrder s d run = complete s d stMalformed := if_pos h

theorem inOrder_held (hnames : namesFreed s d = false) (h : writeHeld s d = true) : inOrder s d run = s := by
  simp only [inOrder, hnames, h, Bool.false_eq_true, if_false, if_true]

theorem inOrder_runs (hnames : namesFreed s d = false) (hheld : writeHeld s d = false) : inOrder s d run = run := by
  simp only [inOrder, hnames, hheld, Bool.false_eq_true, if_false]

/-- A write command that would be refused for its object is so whether or not the object's FREE came first. -/
theorem inOrder_refused (hheld : writeHeld s d = false) (h : run = complete s d stMalformed) : inOrder s d run = complete s d stMalformed := by
  cases hnames : namesFreed s d with
  | true => exact inOrder_freed hnames
  | false => exact (inOrder_runs hnames hheld).trans h

end inOrder

/-! ### Host memory -/

/-- The bytes once parts have been written over them, in order. -/
def writtenParts (m : Mem) (l : List (Nat × List Byte)) : Mem := l.foldl (fun m p => memWrite m p.1 p.2) m

theorem hostWrite_frame (s : State) (t a : Nat) (bs : List Byte) : hostWrite s t a bs = { s with hostMem := (hostWrite s t a bs).hostMem } := by
  unfold hostWrite
  split <;> rfl

theorem hostWrite_open {s : State} {t : Nat} (h : hostOpen s t = true) (a : Nat) (bs : List Byte) :
    hostWrite s t a bs = { s with hostMem := memWrite s.hostMem a bs } := if_pos h

theorem foldl_hostWrite {s : State} {t : Nat} (h : hostOpen s t = true) (l : List (Nat × List Byte)) :
    l.foldl (fun x p => hostWrite x t p.1 p.2) s = { s with hostMem := writtenParts s.hostMem l } := by
  induction l generalizing s with
  | nil => rfl
  | cons p l ih =>
    rw [List.foldl_cons, hostWrite_open h, ih (s := { s with hostMem := memWrite s.hostMem p.1 p.2 }) h]
    rfl

/-- A read commits, its bytes go to host memory, and it completes. -/
theorem complete_delivered (s : State) (d : Desc) (m : Mem) :
    Completed s d stDone 0 (complete { commit s d with hostMem := m } d stDone)
      ∧ OnlyQueues { s with hostMem := (complete { commit s d with hostMem := m } d stDone).hostMem } (complete { commit s d with hostMem := m } d stDone)
      ∧ (complete { commit s d with hostMem := m } d stDone).hostMem = m
      ∧ (complete { commit s d with hostMem := m } d stDone).pending = s.pending := by
  have hmem : (complete { commit s d with hostMem := m } d stDone).hostMem = m := completeWith_hostMem ..
  obtain ⟨hdone, honly⟩ := complete_of_onlyQueues (d := d) ((OnlyQueues.commit s d).withHostMem m) (commit_descs s d) (commit_recs s d) stDone
  exact ⟨hdone, by rwa [hmem], hmem, (complete_pend ..).trans (by rw [commit_qe_frame])⟩

/-! ### Local bytes of objects of T0 and T1 (R233, R234) -/

section readLocal
variable {s : State} {d : Desc} {o : Obj} {off n : Nat} (htier : o.tier ≠ 3)
include htier

theorem readObj_ok (h : stackBad s o off n = none) : readObj s o off n = (s, .ok (memRead o.data off n)) := by
  simp only [readObj, if_neg htier, h]

theorem readObj_bad {b : StackBad} (h : stackBad s o off n = some b) : readObj s o off n = (logStackBad s o.tenant b, .error stMemory) := by
  simp only [readObj, if_neg htier, h]

theorem readLocal_eq : readLocal s d o off n = ofExcept (readObj s o off n) := by
  have hbeq : (o.tier == 3) = false := beq_eq_false_iff_ne.mpr htier
  simp only [readLocal, hbeq, Bool.false_and, Bool.false_eq_true, if_false, if_neg htier, ofExcept]
  split <;> rename_i h <;> rw [h]

theorem readLocal_ok (h : stackBad s o off n = none) : readLocal s d o off n = (s, .ok (memRead o.data off n)) := by
  rw [readLocal_eq htier, readObj_ok htier h]
  rfl

theorem readLocal_bad {b : StackBad} (h : stackBad s o off n = some b) : readLocal s d o off n = (logStackBad s o.tenant b, .err stMemory) := by
  rw [readLocal_eq htier, readObj_bad htier h]
  rfl

end readLocal

/-! ### Parts of an object of T0 or T1 -/

theorem guardedOn_congr {s x : State} (h : x.fab = s.fab) (t n : Nat) : guardedOn x t n = guardedOn s t n := by
  simp only [guardedOn, guardOf, h]

theorem writeParts_cons {s : State} {t n : Nat} {x : Obj} (hx : findObj s t n = some x) (htier : x.tier ≠ 3) (hguard : guardedOn s t n = false)
    (p : Nat × List Byte) (l : List (Nat × List Byte)) : writeParts s t n (p :: l) = writeParts (writeObj s x p.1 p.2).1 t n l := by
  have hnone : (writeObj s x p.1 p.2).2 = none := by rw [writeObj_eq htier]
  rw [writeParts, List.foldl_cons]
  simp only [hx, hguard, Bool.false_eq_true, if_false, hnone]
  rfl

/-- Parts of an unguarded object are stored one after the other, without a fault or a delta. -/
theorem Wrote.parts {s : State} {o : Obj} (htier : o.tier ≠ 3) (hguard : guardedOn s o.tenant o.num = false) (l : List (Nat × List Byte)) :
    ∀ {x : State} {m : Mem}, Wrote s o m x → ∃ y, writeParts x o.tenant o.num l = (y, none, []) ∧ Wrote s o (writtenParts m l) y := by
  induction l with
  | nil => exact fun h => ⟨_, rfl, h⟩
  | cons p l ih =>
    intro x m h
    obtain ⟨hdr, hobj⟩ := h.object
    rw [writeParts_cons hobj htier (by rwa [guardedOn_congr h.fab])]
    exact ih (h.write htier hobj p.1 p.2)

theorem completeGuarded_nil (s : State) (d : Desc) (st de ep nb : Nat) : completeGuarded s d [] st de ep nb = completeWith s d st 0 de ep nb [] := rfl

/-- A write is stored and completes: its object holds the new bytes. -/
theorem storeParts_stores {s : State} {d : Desc} {o : Obj} (ho : findObj s d.tenant o.num = some o) (htier : o.tier < 2)
    (hguard : guardedOn s d.tenant o.num = false) (l : List (Nat × List Byte)) :
    ∃ y, storeParts s d o l = complete y { d with phase := .running } stDone ∧ Wrote (commit s d) o (writtenParts o.data l) y := by
  have htenant : o.tenant = d.tenant := (findObj_key ho).1
  have hguard' : guardedOn (commit s d) o.tenant o.num = false := by rwa [guardedOn_congr (by rw [commit_qe_frame]), htenant]
  obtain ⟨y, hy, hwrote⟩ := Wrote.parts (s := commit s d) (o := o) (by omega) hguard' l (.refl (by rwa [findObj_commit, htenant]))
  refine ⟨y, ?_, hwrote⟩
  have hbeq : (o.tier == 3) = false := beq_eq_false_iff_ne.mpr (by omega)
  rw [htenant] at hy
  simp only [storeParts, if_neg (show ¬ o.tier = 2 by omega), storeLocal, hbeq, Bool.false_and, Bool.false_eq_true, if_false, hy, completeGuarded_nil]
  rfl

/-- A state whose objects have been written after a commit: nothing but the queue engine differs otherwise. -/
theorem OnlyObjects.onlyQueues {s y : State} {d : Desc} (h : OnlyObjects (commit s d) y) :
    OnlyQueues { s with ms := { s.ms with objs := y.ms.objs, badBursts := y.ms.badBursts, badRows := y.ms.badRows } } y := by
  have hms : (commit s d).ms = s.ms := by rw [commit_qe_frame]
  rw [OnlyObjects, hms] at h
  have honly := (OnlyQueues.commit s d).withMs { s.ms with objs := y.ms.objs, badBursts := y.ms.badBursts, badRows := y.ms.badRows }
  rwa [← h] at honly

end Sys2Proof.Machine
end

section
/-! SUPPORT. OBJ_READ, OBJ_WRITE, TILE_READ, TILE_WRITE and DISCARD of local objects (08 R234 to R239; 09 R268, R269): what each answers in each case. -/

namespace Sys2Proof.Machine

open Sys2Proof

/-! ### The commands -/

section exec
variable {s : State} {q : QId} {seq : Nat} {d : Desc} (hw : d.work = .none)
include hw

theorem exec_objRead (hwf : wellFormed (.objRead q seq) = true) (hd : dueDesc s q seq 0x14 = some d) :
    exec (.objRead q seq) s = onUnit s true (runObjRead s d) := by
  change execObjRead q seq s = _
  rw [execObjRead, hwf, hd]
  exact congrArg (onUnit s true) (if_pos hw)

theorem exec_tileRead (hwf : wellFormed (.tileRead q seq) = true) (hd : dueDesc s q seq 0x10 = some d) :
    exec (.tileRead q seq) s = onUnit s true (runTileRead s d) := by
  change execTileRead q seq s = _
  rw [execTileRead, hwf, hd]
  exact congrArg (onUnit s true) (if_pos hw)

theorem exec_objWrite (hwf : wellFormed (.objWrite q seq) = true) (hd : dueDesc s q seq 0x15 = some d) :
    exec (.objWrite q seq) s = onUnit s true (inOrder s d (runObjWrite s d)) := by
  change execObjWrite q seq s = _
  rw [execObjWrite, hwf, hd]
  exact congrArg (onUnit s true) (if_neg (not_not_intro hw))

theorem exec_tileWrite (hwf : wellFormed (.tileWrite q seq) = true) (hd : dueDesc s q seq 0x11 = some d) :
    exec (.tileWrite q seq) s = onUnit s true (inOrder s d (runTileWrite s d)) := by
  change execTileWrite q seq s = _
  rw [execTileWrite, hwf, hd]
  exact congrArg (onUnit s true) (if_neg (not_not_intro hw))

theorem exec_discard (hwf : wellFormed (.discard q seq) = true) (hd : dueDesc s q seq 0x16 = some d) :
    exec (.discard q seq) s = onUnit s true (inOrder s d (runDiscard s d)) := by
  change execDiscard q seq s = _
  rw [execDiscard, hwf, hd]
  exact congrArg (onUnit s true) (if_neg (not_not_intro hw))

end exec

/-! ### An object that is missing or freed (R228) -/

section missing
variable {s : State} {d : Desc}

theorem runObjRead_noObject (h : findObj s d.tenant (dfield d 32 4) = none) : runObjRead s d = complete s d stMalformed := by
  simp only [runObjRead, h]

theorem runTileRead_noObject (h : findObj s d.tenant (dfield d 32 4) = none) : runTileRead s d = complete s d stMalformed := by
  simp only [runTileRead, h]

theorem runObjWrite_noObject (h : findObj s d.tenant (dfield d 32 4) = none) : runObjWrite s d = complete s d stMalformed := by
  simp only [runObjWrite, h]

theorem runTileWrite_noObject (h : findObj s d.tenant (dfield d 32 4) = none) : runTileWrite s d = complete s d stMalformed := by
  simp only [runTileWrite, h]

theorem runDiscard_noObject (h : findObj s d.tenant (dfield d 16 4) = none) : runDiscard s d = complete s d stMalformed := by
  simp only [runDiscard, h]

theorem runObjRead_freed (h : namesFreed s d = true) : runObjRead s d = complete s d stMalformed := by
  cases ho : findObj s d.tenant (dfield d 32 4) with
  | none => exact runObjRead_noObject ho
  | some o => simp [runObjRead, ho, h]

theorem runTileRead_freed (h : namesFreed s d = true) : runTileRead s d = complete s d stMalformed := by
  cases ho : findObj s d.tenant (dfield d 32 4) with
  | none => exact runTileRead_noObject ho
  | some o => simp [runTileRead, ho, h]

end missing

/-! ### OBJ_READ (R234) -/

section objRead
variable {s : State} {d : Desc} {o : Obj} (ho : findObj s d.tenant (dfield d 32 4) = some o)
include ho

theorem runObjRead_refused (h : accessOk d o = false ∨ dfield d 40 8 ≠ 0) : runObjRead s d = complete s d stMalformed := by
  have hbad : (namesFreed s d || !accessOk d o || dfield d 40 8 != 0) = true := by rcases h with h | h <;> simp [h]
  simp only [runObjRead, ho, hbad, if_true]

variable (hnames : namesFreed s d = false) (hok : accessOk d o = true) (hzero : dfield d 40 8 = 0)
include hnames hok hzero

theorem runObjRead_held (h : discardHeld s d o.num (dfield d 24 8) (dfield d 36 4) = true) : runObjRead s d = s := by
  simp [runObjRead, ho, hnames, hok, hzero, h]

variable (hfree : discardHeld s d o.num (dfield d 24 8) (dfield d 36 4) = false) (htier : o.tier < 2)
include hfree htier

theorem runObjRead_local : runObjRead s d = onEv s d 0 (readLocal s d o (dfield d 24 8) (dfield d 36 4))
    (fun s1 bs => complete (hostWrite (commit s1 d) d.tenant (dfield d 16 8) bs) d stDone) := by
  have hlocal : o.tier ≠ 2 := by omega
  simp [runObjRead, ho, hnames, hok, hzero, hfree, hlocal]

theorem runObjRead_reads (h : stackBad s o (dfield d 24 8) (dfield d 36 4) = none) :
    runObjRead s d = complete (hostWrite (commit s d) d.tenant (dfield d 16 8) (memRead o.data (dfield d 24 8) (dfield d 36 4))) d stDone := by
  rw [runObjRead_local ho hnames hok hzero hfree htier, readLocal_ok (by omega) h]
  rfl

theorem runObjRead_faults {b : StackBad} (h : stackBad s o (dfield d 24 8) (dfield d 36 4) = some b) :
    runObjRead s d = complete (logStackBad s o.tenant b) d stMemory := by
  rw [runObjRead_local ho hnames hok hzero hfree htier, readLocal_bad (by omega) h]
  rfl

end objRead

/-! ### OBJ_WRITE and TILE_WRITE (R234, R239) -/

section write
variable {s : State} {d : Desc} {o : Obj} (ho : findObj s d.tenant (dfield d 32 4) = some o) (hfault : d.hostFault = false) (hopen : hostOpen s d.tenant = true)
include ho hfault hopen

theorem runObjWrite_stores (hok : accessOk d o = true) (hbound : boundObj s d.tenant o.num = false) (hlocked : lockedDel s o = false)
    (hindex : o.type ≠ 1) (hjournal : o.type ≠ 8) (hplain : dfield d 40 8 = 0) :
    runObjWrite s d = storeParts s d o [(dfield d 24 8, hostRead s (dfield d 16 8) (dfield d 36 4))] := by
  simp only [runObjWrite, ho, hok, hbound, hlocked, hfault, hopen, hplain, Bool.not_true, Bool.or_self, Bool.false_eq_true, if_false, ne_eq, not_true_eq_false]

theorem runTileWrite_stores {tn : Tensor} (htn : tn = tensorOf (memRead o.hdr 0 24)) (hok : tileOk d o tn true = true)
    (hheads : ∀ h ∈ suppliedHeaders s d tn.fmt, fieldAt h 0 4 = 0x4C49544C ∧ fieldAt h 4 1 = tn.fmt) :
    runTileWrite s d = storeParts s d o (tileWriteParts s d tn (suppliedHeaders s d tn.fmt)) := by
  subst htn
  have hgood : (suppliedHeaders s d (tensorOf (memRead o.hdr 0 24)).fmt).any
      (fun h => fieldAt h 0 4 != 0x4C49544C || fieldAt h 4 1 != (tensorOf (memRead o.hdr 0 24)).fmt) = false := by
    rw [List.any_eq_false]
    intro h hh
    obtain ⟨hmagic, hfmt⟩ := hheads h hh
    simp [hmagic, hfmt]
  simp only [runTileWrite, ho, hok, hfault, hopen, hgood, Bool.not_true, Bool.or_self, Bool.false_eq_true, if_false]

end write

/-! ### TILE_READ (R239) -/

/-- The bytes of a part: at hand, or of the object. -/
def partBytes (o : Obj) (x : List Byte ⊕ (Nat × Nat)) : List Byte := x.elim id (fun y => memRead o.data y.1 y.2)

theorem mapEv_cons_ok {α β : Type} {f : State → α → State × Ev β} {s s1 s2 : State} {a : α} {b : β} {r : List α} {l : List β} (ha : f s a = (s1, .ok b))
    (hr : mapEv f s1 r = (s2, .ok l)) : mapEv f s (a :: r) = (s2, .ok (b :: l)) := by
  simp only [mapEv, ha, hr]

/-- Parts that can all be read are read as they stand. -/
theorem readParts_ok {s : State} (d : Desc) {o : Obj} (htier : o.tier ≠ 3) (l : List (Nat × (List Byte ⊕ (Nat × Nat))))
    (h : ∀ p ∈ l, ∀ x, p.2 = .inr x → stackBad s o x.1 x.2 = none) : readParts s d o l = (s, .ok (l.map (fun p => (p.1, partBytes o p.2)))) := by
  rw [readParts]
  induction l with
  | nil => rfl
  | cons p l ih =>
    obtain ⟨a, x⟩ := p
    refine mapEv_cons_ok ?_ (ih fun y hy => h y (List.mem_cons_of_mem _ hy))
    cases x with
    | inl bs => rfl
    | inr y =>
      dsimp only
      rw [readLocal_ok htier (h (a, .inr y) List.mem_cons_self y rfl)]
      rfl

section tileRead
variable {s : State} {d : Desc} {o : Obj} {tn : Tensor} (ho : findObj s d.tenant (dfield d 32 4) = some o) (htn : tn = tensorOf (memRead o.hdr 0 24))
include ho htn

theorem runTileRead_refused (h : tileOk d o tn false = false) : runTileRead s d = complete s d stMalformed := by
  subst htn
  simp [runTileRead, ho, h]

variable (hnames : namesFreed s d = false) (hok : tileOk d o tn false = true)
include hnames hok

theorem runTileRead_held (h : discardHeld s d o.num 0 o.size = true) : runTileRead s d = s := by
  subst htn
  simp [runTileRead, ho, hnames, hok, h]

theorem runTileRead_reads (hfree : discardHeld s d o.num 0 o.size = false) (hfab : tileFabric d = false) (htier : o.tier < 2) (hopen : hostOpen s d.tenant = true)
    (h : ∀ p ∈ tileParts d o tn, ∀ x, p.2 = .inr x → stackBad s o x.1 x.2 = none) :
    runTileRead s d = complete { commit s d with hostMem := writtenParts s.hostMem ((tileParts d o tn).map (fun p => (p.1, partBytes o p.2))) } d stDone := by
  subst htn
  have hlocal : o.tier ≠ 2 := by omega
  have hparts := readParts_ok d (by omega : o.tier ≠ 3) _ h
  have hmem : (commit s d).hostMem = s.hostMem := by rw [commit_qe_frame]
  simp only [runTileRead, ho, hnames, hok, hfree, hlocal, hparts, hfab, onEv_ok rfl, Bool.not_true, Bool.or_self, Bool.false_eq_true, if_false]
  rw [foldl_hostWrite (by rwa [hostOpen_commit]), hmem]

end tileRead

/-! ### DISCARD (09 R268, R269) -/

/-- The units that a DISCARD names. -/
def discardUnits (d : Desc) : List Nat := (List.range (dfield d 32 4)).map (fun i => dfield d 24 8 + i)

/-- The state in which a DISCARD's units are invalid and its object's header is forgotten with unit 0. -/
def discarded (s : State) (d : Desc) (o : Obj) : State :=
  putObj (trimUnits (commit s d) o (discardUnits d)).1 { o with hdr := if o.type = 5 ∧ dfield d 24 8 = 0 then [] else o.hdr }

section discard
variable {s : State} {d : Desc} {o : Obj} (ho : findObj s d.tenant (dfield d 16 4) = some o)
include ho

theorem runDiscard_refused (h : o.tier ≠ 3 ∨ dfield d 32 4 = 0 ∨ 2 ^ 24 < dfield d 32 4 ∨ o.size < (dfield d 24 8 + dfield d 32 4) * 16384) :
    runDiscard s d = complete s d stMalformed := by
  have hbad : o.tier ≠ 3 ∨ dfield d 32 4 = 0 ∨ 2 ^ 24 < dfield d 32 4 ∨ o.size < (dfield d 24 8 + dfield d 32 4) * pageBytes
      ∨ (o.type = 3 ∧ lockedVectors s d.tenant o.num = true) := by
    rcases h with h | h | h | h
    · exact .inl h
    · exact .inr (.inl h)
    · exact .inr (.inr (.inl h))
    · exact .inr (.inr (.inr (.inl h)))
  simp only [runDiscard, ho, if_pos hbad]

theorem runDiscard_discards (htier : o.tier = 3) (hsome : dfield d 32 4 ≠ 0) (hmany : dfield d 32 4 ≤ 2 ^ 24)
    (hin : (dfield d 24 8 + dfield d 32 4) * 16384 ≤ o.size) (hlocked : o.type = 3 → lockedVectors s d.tenant o.num = false)
    (hwait : flashWait s = false) (hfailed : flashFailed s = false) (hguard : guardedOn s d.tenant o.num = false)
    (htrim : (trimUnits (commit s d) o (discardUnits d)).2 = false) :
    runDiscard s d = complete (discarded s d o) { d with phase := .running } stDone := by
  obtain ⟨htenant, hnum⟩ := findObj_key ho
  have hgood : ¬ (o.tier ≠ 3 ∨ dfield d 32 4 = 0 ∨ 2 ^ 24 < dfield d 32 4 ∨ o.size < (dfield d 24 8 + dfield d 32 4) * pageBytes
      ∨ (o.type = 3 ∧ lockedVectors s d.tenant o.num = true)) := by
    rintro (h | h | h | h | ⟨h3, h⟩)
    · exact h htier
    · exact hsome h
    · exact absurd h (Nat.not_lt.mpr hmany)
    · exact absurd h (Nat.not_lt.mpr hin)
    · rw [hlocked h3] at h
      exact Bool.false_ne_true h
  have hflash := onlyFlash_trimUnits (commit s d) o (discardUnits d)
  have hobj : findObj (trimUnits (commit s d) o (discardUnits d)).1 d.tenant o.num = some o := by
    rw [hflash, hnum, ← ho, ← findObj_commit s d]
    rfl
  rw [discardUnits] at htrim hobj
  simp only [runDiscard, ho, if_neg hgood, hwait, hfailed, hguard, htrim, hobj, List.zip_nil_right, List.flatMap_nil, List.any_nil, Bool.false_eq_true, if_false]
  rfl

end discard

section discarded
variable (s : State) (d : Desc) (o : Obj)

theorem discarded_frame : discarded s d o =
    { commit s d with fl := (trimUnits (commit s d) o (discardUnits d)).1.fl, ms := (discarded s d o).ms } := by
  have hput := OnlyObjects.putObj (trimUnits (commit s d) o (discardUnits d)).1 { o with hdr := if o.type = 5 ∧ dfield d 24 8 = 0 then [] else o.hdr }
  have hflash := onlyFlash_trimUnits (commit s d) o (discardUnits d)
  apply State.ext <;> simp only [discarded] <;> (rw [hput]; try rw [hflash])

theorem findObj_discarded_other {u n : Nat} (h : u ≠ o.tenant ∨ n ≠ o.num) : findObj (discarded s d o) u n = findObj s u n := by
  have hflash := onlyFlash_trimUnits (commit s d) o (discardUnits d)
  rw [discarded, findObj_putObj_other _ { o with hdr := if o.type = 5 ∧ dfield d 24 8 = 0 then [] else o.hdr } u n h, hflash, ← findObj_commit s d]
  rfl

end discarded

end Sys2Proof.Machine
end

section
/-! SUPPORT. PLACE in T0 and T1 (08 R222 to R229): its checks, and what a CREATE, a MOVE and a FREE leave. -/

namespace Sys2Proof.Machine

open Sys2Proof

/-! ### The place of an object in its tier -/

/-- Nothing but the stacks' record of bad bursts and rows has changed. -/
def OnlyBad (s t : State) : Prop := t = { s with ms := { s.ms with badBursts := t.ms.badBursts, badRows := t.ms.badRows } }

namespace OnlyBad

theorem refl (s : State) : OnlyBad s s := rfl

theorem mendBursts (s : State) (o : Obj) (off n : Nat) : OnlyBad s (mendBursts s o off n) := mendBursts_frame ..

section fields
variable {s t : State} (h : OnlyBad s t)
include h

theorem onlyObjects : OnlyObjects s t := by
  unfold OnlyObjects OnlyBad at *
  rw [h]

theorem findObj (u n : Nat) : findObj t u n = findObj s u n := by
  rw [h]
  rfl

theorem qe : t.qe = s.qe := by rw [h]
theorem jobs : t.ms.jobs = s.ms.jobs := by rw [h]
theorem hostMem : t.hostMem = s.hostMem := by rw [h]
theorem pending : t.pending = s.pending := by rw [h]

end fields

end OnlyBad

/-- An object, or its copy, as a PLACE makes it: its place in the tier is `block`, and its bytes are still to come. -/
def placedObj (d : Desc) (o : Obj) (block : Nat) : Obj :=
  { o with tier := dfield d 30 1, raw := dfield d 31 1 == 1, peer := dfield d 40 1, goff := 0, sqFirst := dfield d 42 2, sqCount := dfield d 44 2,
           chans := [], lus := [], block := block, data := [] }

/-- In T0 and T1 the place is taken by the object alone: no unit of flash is given out. -/
theorem placed_local (s : State) {d : Desc} (o : Obj) (htier : dfield d 30 1 < 2) :
    ∃ block, (placed s d o [] 0).1 = placedObj d o block ∧ OnlyBad s (placed s d o [] 0).2 := by
  have hflash : dfield d 30 1 ≠ 3 := by omega
  by_cases h1 : dfield d 30 1 = 1
  · refine ⟨allocBlock s (o.size / 262144), ?_⟩
    simp only [placed, if_neg hflash, if_pos h1]
    exact ⟨rfl, .mendBursts ..⟩
  · refine ⟨0, ?_⟩
    simp only [placed, if_neg hflash, if_neg h1]
    exact ⟨rfl, .refl s⟩

/-! ### The checks (R226) -/

theorem exec_place {s : State} {q : QId} {seq : Nat} {d : Desc} (peer : PeerAnswer) (hwf : wellFormed (.place q seq (.own peer)) = true)
    (hd : dueDesc s q seq 0x12 = some d) (hw : d.work = .none) : exec (.place q seq (.own peer)) s = onUnit s true (runPlace s d peer) := by
  change execPlace q seq (.own peer) s = _
  simp only [execPlace, hwf, hd, if_pos hw]

section checks
variable {s : State} {d : Desc} (peer : PeerAnswer)

theorem runPlace_freed (h : namesFreed s d = true) : runPlace s d peer = complete s d stMalformed := by
  simp only [runPlace, h, if_true]

theorem runPlace_held (hnames : namesFreed s d = false) (h : writeHeld s d = true) : runPlace s d peer = s := by
  simp only [runPlace, hnames, h, Bool.false_eq_true, if_false, if_true]

variable (hheld : writeHeld s d = false)
include hheld

theorem runPlace_refused (h : placeFieldsOk s d (findObj s d.tenant (dfield d 24 4)) = false) : runPlace s d peer = complete s d stMalformed := by
  cases hnames : namesFreed s d with
  | true => exact runPlace_freed peer hnames
  | false => simp only [runPlace, hnames, hheld, h, Bool.not_false, Bool.false_eq_true, if_false, if_true]

variable (hnames : namesFreed s d = false)
include hnames

variable (hdest : dfield d 30 1 < 2)
include hdest

/-- A PLACE of a new object outside T3 does not wait for flash. -/
theorem runPlace_new (ho : findObj s d.tenant (dfield d 24 4) = none) (hfields : placeFieldsOk s d none = true) :
    runPlace s d peer = placeGo s d none peer := by
  have hflash : (dfield d 30 1 == 3) = false := beq_eq_false_iff_ne.mpr (by omega)
  simp [runPlace, ho, hnames, hheld, hfields, hflash]

variable {o : Obj} (ho : findObj s d.tenant (dfield d 24 4) = some o) (hfields : placeFieldsOk s d (some o) = true) (htier : o.tier < 2)
include ho hfields htier

/-- Nor does a MOVE that no T3 object is part of, -/
theorem runPlace_moves (hcode : dfield d 28 1 = 1) : runPlace s d peer = placeGo s d (some o) peer := by
  have hflash : (dfield d 30 1 == 3) = false := beq_eq_false_iff_ne.mpr (by omega)
  have hsource : (o.tier == 3) = false := beq_eq_false_iff_ne.mpr (by omega)
  simp [runPlace, ho, hnames, hheld, hfields, hflash, hsource, hcode]

/-- nor such a FREE. -/
theorem runPlace_frees (hcode : dfield d 28 1 = 2) : runPlace s d peer = startFree s d o := by
  have hflash : (dfield d 30 1 == 3) = false := beq_eq_false_iff_ne.mpr (by omega)
  have hsource : (o.tier == 3) = false := beq_eq_false_iff_ne.mpr (by omega)
  simp [runPlace, ho, hnames, hheld, hfields, hflash, hsource, hcode]

end checks

/-! ### CREATE (R223) -/

/-- The header that a new object starts with: that of a tensor as the argument block gives it. -/
def createdHdr (s : State) (d : Desc) : Mem := if dfield d 29 1 = 5 then newHeader (hostRead s (dfield d 16 8) 4096) else []

/-- The object of a CREATE. -/
def createdObj (s : State) (d : Desc) (block : Nat) : Obj :=
  { placedObj d { tenant := d.tenant, num := dfield d 24 4, type := dfield d 29 1, tier := 0, raw := false, size := dfield d 32 8 } block with
    hdr := createdHdr s d, data := createdHdr s d }

/-- In T0 and T1 a new object takes its place and completes. -/
theorem createObj_local (s : State) {d : Desc} (arg : List Byte) (hdest : dfield d 30 1 < 2)
    (harg : dfield d 29 1 = 5 → arg = hostRead s (dfield d 16 8) 4096) :
    ∃ x block, createObj s d arg [] 0 = complete (putObj x (createdObj s d block)) d stDone ∧ OnlyBad (commit s d) x := by
  obtain ⟨block, hobj, hbad⟩ := placed_local (commit s d)
    { tenant := d.tenant, num := dfield d 24 4, type := dfield d 29 1, tier := 0, raw := false, size := dfield d 32 8 } hdest
  refine ⟨_, block, ?_, hbad⟩
  have hhdr : (if dfield d 29 1 = 5 ∧ dfield d 30 1 ≠ 3 then newHeader arg else []) = createdHdr s d := by
    by_cases h5 : dfield d 29 1 = 5
    · rw [createdHdr, if_pos h5, if_pos ⟨h5, by omega⟩, harg h5]
    · rw [createdHdr, if_neg h5, if_neg fun h => h5 h.1]
  have hdata : (if dfield d 30 1 = 2 ∨ dfield d 30 1 = 3 then [] else createdHdr s d) = createdHdr s d := if_neg (by omega)
  simp only [createObj, hobj, hhdr, placedObj, hdata]
  rfl

section create
variable {s : State} {d : Desc} (peer : PeerAnswer) (hcreate : dfield d 28 1 = 0) (hdest : dfield d 30 1 < 2)
  (htensor : dfield d 29 1 = 5 → d.hostFault = false ∧ hostOpen s d.tenant = true ∧ tensorFits (hostRead s (dfield d 16 8) 4096) (dfield d 32 8) = true)
include hcreate hdest htensor

/-- A CREATE's argument block is read for a tensor alone, and is then good: what is left to check is the charge. -/
theorem placeGo_create : placeGo s d none peer =
    if !chargeOk s d (dfield d 32 8) [] || decide (1048576 ≤ s.ms.objs.length) then complete s d stNoRes
    else createObj s d (if dfield d 29 1 = 5 then hostRead s (dfield d 16 8) 4096 else []) [] 0 := by
  have h3 : dfield d 30 1 ≠ 3 := by omega
  have h2 : dfield d 30 1 ≠ 2 := by omega
  by_cases h5 : dfield d 29 1 = 5
  · obtain ⟨hfault, hopen, hfits⟩ := htensor h5
    simp [placeGo, needsArg, hcreate, h3, h2, h5, hfault, hopen, hfits]
  · simp [placeGo, needsArg, hcreate, h3, h2, h5]

theorem placeGo_noRoom (h : chargeOk s d (dfield d 32 8) [] = false) : placeGo s d none peer = complete s d stNoRes := by
  rw [placeGo_create peer hcreate hdest htensor, h]
  rfl

theorem placeGo_creates (hcharge : chargeOk s d (dfield d 32 8) [] = true) (hroom : s.ms.objs.length < 1048576) :
    ∃ x block, placeGo s d none peer = complete (putObj x (createdObj s d block)) d stDone ∧ OnlyBad (commit s d) x := by
  have hfull : decide (1048576 ≤ s.ms.objs.length) = false := decide_eq_false (Nat.not_le.mpr hroom)
  rw [placeGo_create peer hcreate hdest htensor, hcharge, hfull]
  exact createObj_local s _ hdest fun h5 => if_pos h5

end create

theorem findObj_created (s x : State) (d : Desc) (block : Nat) :
    findObj (complete (putObj x (createdObj s d block)) d stDone) d.tenant (dfield d 24 4) = some (createdObj s d block) :=
  (findObj_congr (complete_ms ..) _ _).trans (findObj_putObj x (createdObj s d block))

section created
variable {s x : State} {d : Desc} (h : OnlyBad (commit s d) x) (block : Nat)
include h

theorem findObj_created_other {u n : Nat} (hn : u ≠ d.tenant ∨ n ≠ dfield d 24 4) :
    findObj (complete (putObj x (createdObj s d block)) d stDone) u n = findObj s u n := by
  rw [findObj_congr (complete_ms ..), findObj_putObj_other x (createdObj s d block) u n hn, h.findObj, findObj_commit]

theorem completed_created : Completed s d stDone 0 (complete (putObj x (createdObj s d block)) d stDone) := by
  have hqe : (putObj x (createdObj s d block)).qe = (commit s d).qe := (putObj_qe ..).trans h.qe
  exact completed_of d stDone (by rw [hqe, commit_descs]) (by rw [hqe, commit_recs])

end created

/-! ### MOVE and FREE (R224, R225) -/

/-- The state in which the object of a MOVE or a FREE is marked and the job waits for its boundary. -/
def jobQueued (s : State) (d : Desc) (o : Obj) (dest : Option Obj) : State :=
  let s1 := putObj (commit s d) o
  putDesc { s1 with ms := { s1.ms with jobs := s1.ms.jobs ++ [⟨d.q, d.seq, d.tenant, o.num, dest, false⟩] } } { d with phase := .running, work := .place [] 0 }

section jobQueued
variable (s : State) (d : Desc) (o : Obj) (dest : Option Obj)

theorem findObj_jobQueued : findObj (jobQueued s d o dest) o.tenant o.num = some o := findObj_putObj (commit s d) o

theorem findObj_jobQueued_other {u n : Nat} (h : u ≠ o.tenant ∨ n ≠ o.num) : findObj (jobQueued s d o dest) u n = findObj s u n :=
  (findObj_putObj_other (commit s d) o u n h).trans (findObj_commit ..)

theorem jobQueued_recs : (jobQueued s d o dest).qe.recs = s.qe.recs := by
  change (putObj (commit s d) o).qe.recs = _
  rw [putObj_qe, commit_recs]

theorem jobQueued_jobs : (jobQueued s d o dest).ms.jobs = s.ms.jobs ++ [⟨d.q, d.seq, d.tenant, o.num, dest, false⟩] := by
  change (putObj (commit s d) o).ms.jobs ++ _ = _
  rw [OnlyObjects.putObj, commit_qe_frame]

theorem jobQueued_hostMem : (jobQueued s d o dest).hostMem = s.hostMem := by
  change (putObj (commit s d) o).hostMem = _
  rw [OnlyObjects.putObj, commit_qe_frame]

theorem jobQueued_pending : (jobQueued s d o dest).pending = s.pending := by
  change (putObj (commit s d) o).pending = _
  rw [OnlyObjects.putObj, commit_qe_frame]

end jobQueued

theorem startFree_eq (s : State) (d : Desc) (o : Obj) : startFree s d o = jobQueued s d { o with st := if o.st = 3 then 3 else 2 } none := rfl

/-- A MOVE between T0 and T1 sends nothing over the fabric: the place is taken and the job waits. -/
theorem placeGo_moves {s : State} {d : Desc} {o : Obj} (peer : PeerAnswer) (hcode : dfield d 28 1 = 1) (htier : o.tier < 2) (hdest : dfield d 30 1 < 2)
    (hcharge : chargeOk s d o.size [] = true) :
    ∃ x block, placeGo s d (some o) peer = jobQueued x d { o with st := 1 } (some (placedObj d o block)) ∧ OnlyBad s x := by
  obtain ⟨block, hobj, hbad⟩ := placed_local s o hdest
  refine ⟨_, block, ?_, hbad⟩
  have h3 : dfield d 30 1 ≠ 3 := by omega
  have h2 : dfield d 30 1 ≠ 2 := by omega
  have hmove : placeGo s d (some o) peer = startMove s d o [] 0 := by simp [placeGo, needsArg, hcode, hcharge, h3, h2]
  have hhere : (placedObj d o block).tier ≠ 2 := h2
  rw [hmove, startMove, if_neg (by omega : ¬ o.tier = 2), hobj, if_neg hhere]
  rfl


end Sys2Proof.Machine
end

section
/-! SUPPORT. BANK_OP (08 R244 to R248): the checks and the first chunks, the end of the last chunk, and one row operation. -/

namespace Sys2Proof.Machine

open Sys2Proof

/-! ### The command (R245) -/

theorem exec_bankOp {s : State} {q : QId} {seq : Nat} {d : Desc} (hwf : wellFormed (.bankOp q seq) = true) (hd : dueDesc s q seq 0x18 = some d)
    (hnames : namesFreed s d = false) (hheld : writeHeld s d = false) : exec (.bankOp q seq) s = onUnit s true (runBankOp s d) := by
  change execBankOp q seq s = _
  simp only [execBankOp, hwf, hd, hnames, hheld, Bool.false_eq_true, if_false]

theorem bankRefuse_completed (s : State) (d : Desc) (st : Nat) :
    Completed s d st 0 (bankRefuse s d st) ∧ (bankRefuse s d st).ms.refused = satAdd 16 s.ms.refused 1
      ∧ OnlyQueues { s with ms := { s.ms with refused := (bankRefuse s d st).ms.refused } } (bankRefuse s d st) := by
  have hms : (bankRefuse s d st).ms = { s.ms with refused := satAdd 16 s.ms.refused 1 } := complete_ms ..
  refine ⟨completed_of (s := s) d st rfl rfl, by rw [hms], ?_⟩
  rw [hms]
  exact complete_only ..

section checks
variable {s : State} {d : Desc} (halign : dfield d 16 8 % 64 = 0) (hsome : 1 ≤ dfield d 40 2) (hmany : dfield d 40 2 ≤ 4096) (hfault : d.hostFault = false)
  (hopen : hostOpen s d.tenant = true) {ops : List RowOp}
  (hops : ops = (List.range (dfield d 40 2)).filterMap (fun i => rowOpAt (((hostRead s (dfield d 16 8) (16 * dfield d 40 2)).drop (16 * i)).take 16)))
include halign hsome hmany hfault hopen hops

/-- A sequence that can be read is checked operation by operation. -/
theorem runBankOp_reads : runBankOp s d =
    if ops.length ≠ dfield d 40 2 then bankRefuse s d stMalformed
    else (bankCheck s d ops).elim ((byBank s.ms.seed ops).foldl (fun a x => chunkToken a d x) (putDesc s { d with phase := .running, work := .bank (byBank s.ms.seed ops) [] }))
      (bankRefuse s d) := by
  subst hops
  have hfields : ¬ (dfield d 16 8 % 64 ≠ 0 ∨ dfield d 40 2 = 0 ∨ 4096 < dfield d 40 2) := by omega
  simp only [runBankOp, if_neg hfields, hfault, hopen, Bool.not_true, Bool.or_self, Bool.false_eq_true, if_false]
  cases bankCheck s d _ <;> rfl

theorem runBankOp_refused {st : Nat} (h : ops.length ≠ dfield d 40 2 ∧ st = 0x15 ∨ ops.length = dfield d 40 2 ∧ bankCheck s d ops = some st) :
    runBankOp s d = bankRefuse s d st := by
  rw [runBankOp_reads halign hsome hmany hfault hopen hops]
  rcases h with ⟨hlen, rfl⟩ | ⟨hlen, hcheck⟩
  · exact if_pos hlen
  · rw [if_neg (not_not_intro hlen), hcheck]
    rfl

theorem runBankOp_starts (hlen : ops.length = dfield d 40 2) (hcheck : bankCheck s d ops = none) : runBankOp s d =
    (byBank s.ms.seed ops).foldl (fun a x => chunkToken a d x) (putDesc s { d with phase := .running, work := .bank (byBank s.ms.seed ops) [] }) := by
  rw [runBankOp_reads halign hsome hmany hfault hopen hops, if_neg (not_not_intro hlen), hcheck]
  rfl

end checks

/-! ### Chunks as tokens (R246) -/

theorem bankStream_congr {s x : State} (hpos : x.bd.positions = s.bd.positions) (hlayer : x.bd.layer = s.bd.layer) (t c : Nat) :
    bankStream x t c = bankStream s t c := by
  rw [bankStream, findStream_congr hpos hlayer, ownerRuns_congr hpos hlayer, bankStream]

theorem chunkToken_frame (s : State) (d : Desc) (e : Nat × List RowOp) : chunkToken s d e = withStreams s (chunkToken s d e).bd.streams := by
  unfold chunkToken
  split <;> rfl

theorem mem_chunkToken {s : State} {d : Desc} {t i : Nat} {y : Token} (e : Nat × List RowOp) (h : y ∈ (getStream s t i).tokens) :
    y ∈ (getStream (chunkToken s d e) t i).tokens := by
  unfold chunkToken
  split
  · exact mem_addToken _ h
  · exact h

theorem mem_chunkToken_self {s : State} {d : Desc} {i : Nat} (e : Nat × List RowOp) (h : bankStream s d.tenant e.1 = some i) :
    (⟨0, .chunk d.q d.seq⟩ : Token) ∈ (getStream (chunkToken s d e) d.tenant i).tokens := by
  simp only [chunkToken, h]
  exact mem_addToken_self ..

/-- The first chunk of every channel becomes a token of its bank unit's stream, and nothing but the streams changes. -/
theorem chunkTokens (d : Desc) (l : List (Nat × List RowOp)) (s : State) :
    (∀ i y, y ∈ (getStream s d.tenant i).tokens → y ∈ (getStream (l.foldl (fun a x => chunkToken a d x) s) d.tenant i).tokens)
    ∧ (∀ c ∈ l.map Prod.fst, ∀ i, bankStream s d.tenant c = some i →
      (⟨0, .chunk d.q d.seq⟩ : Token) ∈ (getStream (l.foldl (fun a x => chunkToken a d x) s) d.tenant i).tokens)
    ∧ l.foldl (fun a x => chunkToken a d x) s = withStreams s (l.foldl (fun a x => chunkToken a d x) s).bd.streams := by
  induction l generalizing s with
  | nil => exact ⟨fun _ _ h => h, by simp, rfl⟩
  | cons e l ih =>
    obtain ⟨hold, hnew, hframe⟩ := ih (chunkToken s d e)
    have hone := chunkToken_frame s d e
    refine ⟨fun i y h => hold i y (mem_chunkToken e h), fun c hc i hi => ?_, ?_⟩
    · rw [List.map_cons, List.mem_cons] at hc
      rcases hc with rfl | hc
      · exact hold i _ (mem_chunkToken_self e hi)
      · exact hnew c hc i (by rwa [hone, bankStream_congr rfl rfl])
    · exact hframe.trans ((congrArg (withStreams · _) hone).trans rfl)

theorem findDesc_of_dueDesc {s : State} {q : QId} {seq op : Nat} {d : Desc} (h : dueDesc s q seq op = some d) : findDesc s q seq = some d := by
  obtain ⟨e, he, hdue⟩ := Option.bind_eq_some_iff.mp h
  rw [he, ← (Option.ite_none_right_eq_some.mp hdue).2]

/-- A descriptor that is stored again is the one that its queue and number find. -/
theorem findDesc_putDesc {s : State} {q : QId} {seq : Nat} {d e : Desc} (h : findDesc s q seq = some d) (hn : e.n = d.n) (hq : e.q = d.q) (hseq : e.seq = d.seq) :
    findDesc (putDesc s e) q seq = some e := by
  have hkey := List.find?_some h
  unfold findDesc at h
  change (s.qe.descs.map (fun x => if x.n = e.n then e else x)).find? (fun x => x.q == q && x.seq == seq) = some e
  generalize s.qe.descs = l at h
  induction l with
  | nil => cases h
  | cons x l ih =>
    rw [List.map_cons]
    by_cases hx : x.n = e.n
    · rw [if_pos hx]
      exact List.find?_cons_of_pos (by rwa [hq, hseq])
    · rw [if_neg hx]
      cases hfirst : (x.q == q && x.seq == seq) with
      | true =>
        simp only [List.find?_cons, hfirst, Option.some.injEq] at h
        exact absurd (congrArg Desc.n h) (by rwa [← hn])
      | false =>
        simp only [List.find?_cons, hfirst] at h ⊢
        exact ih h

/-! ### What carrying out operations leaves unchanged -/

/-- Neither host memory nor the descriptors have changed. -/
def KeepsWork (s t : State) : Prop := t.hostMem = s.hostMem ∧ t.qe.descs = s.qe.descs

namespace KeepsWork

theorem refl (s : State) : KeepsWork s s := ⟨rfl, rfl⟩

theorem trans {a b c : State} (hab : KeepsWork a b) (hbc : KeepsWork b c) : KeepsWork a c := ⟨hbc.1.trans hab.1, hbc.2.trans hab.2⟩

theorem of_onlyFlash {s t : State} (h : OnlyFlash s t) : KeepsWork s t := by
  rw [h]
  exact ⟨rfl, rfl⟩

theorem of_onlyObjects {s t : State} (h : OnlyObjects s t) : KeepsWork s t := by
  rw [h]
  exact ⟨rfl, rfl⟩

theorem errEvent (s : State) (cnt code t u l a b c : Nat) : KeepsWork s (errEvent s cnt code t u l a b c) := by
  refine ⟨errEvent_hostMem .., ?_⟩
  rw [Machine.errEvent, raise_qe]
  rfl

theorem logStackBad (s : State) (t : Nat) (b : StackBad) : KeepsWork s (logStackBad s t b) := by
  cases b <;> exact errEvent ..

theorem mediaFault (s : State) (owner c key j : Nat) : KeepsWork s (mediaFault s owner c key j) :=
  (of_onlyFlash (onlyFlash_cntFl s 3 1)).trans (errEvent ..)

theorem countReads (s : State) (c chip n : Nat) : KeepsWork s (countReads s c chip n) := ⟨rfl, rfl⟩

theorem countRetry (s : State) (c chip set : Nat) : KeepsWork s (countRetry s c chip set) := ⟨rfl, rfl⟩

theorem readRaw (s : State) (c key j : Nat) : KeepsWork s (readRaw s c key j).1 := by
  simp only [Machine.readRaw]
  split
  · exact countReads ..
  · exact (countReads ..).trans (countRetry ..)

theorem readEach (j : Nat) (l : List (Nat × Nat)) (s : State) : KeepsWork s (readEach j s l).1 := by
  induction l generalizing s with
  | nil => exact refl s
  | cons p r ih =>
    simp only [Machine.readEach]
    split
    · exact (readRaw ..).trans (ih _)
    · exact readRaw ..

theorem rebuildCw (s : State) (c key j : Nat) : KeepsWork s (rebuildCw s c key j).1 := by
  simp only [Machine.rebuildCw]
  split
  · exact refl s
  · split
    · exact refl s
    · split <;> exact readEach ..

theorem readCw (s : State) (c key j : Nat) : KeepsWork s (readCw s c key j).1 := by
  simp only [Machine.readCw]
  split
  · exact readRaw ..
  · exact (readRaw ..).trans (rebuildCw ..)

theorem readPageParts (c key : Nat) (l : List Nat) (s : State) : KeepsWork s (readPageParts c key s l).1 := by
  induction l generalizing s with
  | nil => exact refl s
  | cons j l ih =>
    simp only [Machine.readPageParts]
    split
    · exact readCw ..
    · exact (readCw ..).trans (ih _)

theorem restOfUnit (s : State) (c lu o n : Nat) : KeepsWork s (restOfUnit s c lu o n).1 := by
  unfold Machine.restOfUnit
  split
  · exact refl s
  · split
    · exact refl s
    · exact refl s
    · dsimp only
      split
      · exact readPageParts ..
      · exact (readPageParts ..).trans (mediaFault ..)

theorem writeUnit (s : State) (c lu o : Nat) (bs : List Byte) : KeepsWork s (writeUnit s c lu o bs).1 := by
  unfold Machine.writeUnit
  split
  · exact refl s
  · have hrest := restOfUnit s c lu o bs.length
    dsimp only
    split
    · exact hrest
    · split
      · exact hrest
      · rename_i h
        exact hrest.trans (of_onlyFlash (onlyFlash_trans (onlyFlash_programData _ _ _ _ _ _ _ h) (onlyFlash_setLu ..)))

theorem writeT3 (k : Nat) (s : State) (o : Obj) (off : Nat) (bs : List Byte) : KeepsWork s (writeT3 k s o off bs).1 := by
  induction k generalizing s off bs with
  | zero => exact refl s
  | succ k ih =>
    simp only [Machine.writeT3]
    split
    · exact refl s
    · split
      · exact writeUnit ..
      · exact (writeUnit ..).trans (ih ..)

theorem writeObj (s : State) (o : Obj) (off : Nat) (bs : List Byte) : KeepsWork s (writeObj s o off bs).1 := by
  by_cases htier : o.tier = 3
  · rw [Machine.writeObj, if_pos htier]
    split
    · exact refl s
    · dsimp only
      split
      · exact writeT3 ..
      · exact (writeT3 ..).trans (of_onlyObjects (.putObj ..))
  · rw [writeObj_eq htier]
    exact of_onlyObjects (.trans (.putObj ..) (.mendBursts ..))

theorem bankRow (s : State) (d : Desc) (r : RowOp) : KeepsWork s (bankRow s d r).1 := by
  unfold Machine.bankRow
  dsimp only
  split
  · exact logStackBad ..
  · exact refl s
  · exact writeObj ..

theorem bankRows (d : Desc) (l : List RowOp) (s : State) : KeepsWork s (bankRows d s l).1 := by
  induction l generalizing s with
  | nil => exact refl s
  | cons r l ih =>
    simp only [Machine.bankRows]
    split
    · exact (bankRow ..).trans (ih _)
    · exact bankRow ..

end KeepsWork

/-! ### The end of a sequence (R246) -/

/-- A bank unit's slot carries out the chunk of its stream's first token where the slots that are left suffice. -/
theorem runSlot_chunk {s : State} {q : QId} {seq path slot n : Nat} {r : Run} {x : Stream} {rest : List Token} (hruns : allRuns s = [r]) (hkind : r.kind = 4)
    (hpath : r.path = path) (hfirst : r.first ≤ slot) (hlast : slot ≤ r.first + r.countM1) (hx : streamOf s r.owner r.stream = some x)
    (htokens : (getStream s r.owner r.stream).tokens = ⟨n, .chunk q seq⟩ :: rest) (hcredits : (getStream s r.owner r.stream).credits ≠ 0)
    (hdest : sqOfUnit s r.owner x.dest = none) (hsource : sqOfUnit s r.owner x.source = none) :
    runSlot s 4 path slot = chunkSlot s path slot r.owner r.stream (r.first + r.countM1 + 1 - slot) (getStream s r.owner r.stream) q seq rest := by
  simp [runSlot, hruns, hkind, hpath, hfirst, hlast, hx, hdest, hsource, htokens, hcredits, clocked, heldStill, moveToken]

/-- Where the chunk is the last one, the BANK_OP commits and completes. -/
theorem runChunk_last {s : State} {d : Desc} {c : Nat} {l : List (Nat × List RowOp)} (bad : List Nat) (hothers : ∀ e ∈ l, e.1 ≠ c → e.2 = [])
    (hlast : ∀ e ∈ l, e.1 = c → e.2.length ≤ 8) :
    runChunk s d c l bad = complete (commit (bankRows d s (chunkOf l c)).1 d) d (if (bankRows d s (chunkOf l c)).2 && bad.isEmpty then stDone else stMemory) := by
  have hempty : (l.map (fun e => if e.1 = c then (c, if (bankRows d s (chunkOf l c)).2 then e.2.drop 8 else []) else e)).all (fun e => e.2.isEmpty) = true := by
    rw [List.all_map, List.all_eq_true]
    intro e he
    by_cases hc : e.1 = c
    · cases (bankRows d s (chunkOf l c)).2 <;> simp [hc, hlast e he hc]
    · simp [hc, hothers e he hc]
  simp only [runChunk, hempty, if_true]
  cases (bankRows d s (chunkOf l c)).2 <;> simp

/-! ### One operation (R247) -/

/-- What reading each source row of an operation gives. -/
def sourceRows (s : State) (d : Desc) (r : RowOp) : List (Except Nat (List Byte)) :=
  r.srcs.map (fun x => match findObj s d.tenant ((bankNames d).getD x.1 noEdge) with | some o => (readObj s o (x.2 * 1024) 1024).2 | none => .ok [])

/-- The bytes of the source row numbered `i`. -/
def sourceRow (s : State) (d : Desc) (r : RowOp) (i : Nat) : List Byte := match (sourceRows s d r)[i]? with | some (.ok v) => v | _ => []

section row
variable {s : State} {d : Desc} {r : RowOp}

theorem sourceRow_eq {i : Nat} {a : List Byte}
    (htiers : ∀ x ∈ r.srcs, ∃ y, findObj s d.tenant ((bankNames d).getD x.1 noEdge) = some y ∧ y.tier = 1)
    (hgood : ∀ x ∈ r.srcs, ∀ y, findObj s d.tenant ((bankNames d).getD x.1 noEdge) = some y → stackBad s y (x.2 * 1024) 1024 = none)
    (hsome : ∀ x y, r.srcs[i]? = some x → findObj s d.tenant ((bankNames d).getD x.1 noEdge) = some y → a = memRead y.data (x.2 * 1024) 1024)
    (hnone : r.srcs[i]? = none → a = []) : sourceRow s d r i = a := by
  cases hx : r.srcs[i]? with
  | none => simp [sourceRow, sourceRows, hx, hnone hx]
  | some x =>
    obtain ⟨y, hy, htier⟩ := htiers x (List.mem_of_getElem? hx)
    have hread := readObj_ok (by omega : y.tier ≠ 3) (hgood x (List.mem_of_getElem? hx) y hy)
    simp only [sourceRow, sourceRows, List.getElem?_map, hx, Option.map_some, hy, hread, hsome x y hx hy]

/-- An operation whose source cannot be read writes nothing. -/
theorem bankRow_bad {x : Nat × Nat} {y : Obj} {bad : StackBad} (hx : x ∈ r.srcs) (hy : findObj s d.tenant ((bankNames d).getD x.1 noEdge) = some y)
    (hbad : stackBad s y (x.2 * 1024) 1024 = some bad) : (bankRow s d r).1.ms = s.ms ∧ (bankRow s d r).2 = false := by
  cases h : r.srcs.findSome? (fun x => (findObj s d.tenant ((bankNames d).getD x.1 noEdge)).bind (fun o => stackBad s o (x.2 * 1024) 1024)) with
  | none =>
    have hgood := List.findSome?_eq_none_iff.mp h x hx
    rw [hy, Option.bind_some, hbad] at hgood
    cases hgood
  | some b =>
    have hrow : bankRow s d r = (logStackBad s d.tenant b, false) := by simp only [bankRow, h]
    rw [hrow]
    exact ⟨(ReadOnly.logStackBad ..).ms, rfl⟩

/-- Else it writes the value of its operation into its destination row. -/
theorem bankRow_stores {o : Obj} (ho : findObj s d.tenant ((bankNames d).getD r.dst.1 noEdge) = some o)
    (hgood : ∀ x ∈ r.srcs, ∀ y, findObj s d.tenant ((bankNames d).getD x.1 noEdge) = some y → stackBad s y (x.2 * 1024) 1024 = none) {w : State}
    (hw : w = (writeObj s o (r.dst.2 * 1024) (r.value (sourceRow s d r 0) (sourceRow s d r 1))).1) :
    bankRow s d r = ({ w with ms := { w.ms with rowOps := satAdd 48 w.ms.rowOps 1 } }, true) := by
  have hbad : r.srcs.findSome? (fun x => (findObj s d.tenant ((bankNames d).getD x.1 noEdge)).bind (fun o => stackBad s o (x.2 * 1024) 1024)) = none := by
    rw [List.findSome?_eq_none_iff]
    intro x hx
    rw [Option.bind_eq_none_iff]
    exact hgood x hx
  subst hw
  simp only [bankRow, hbad, ho]
  rfl

end row

end Sys2Proof.Machine
end

section
/-! SUPPORT. The part of a PLACE at the peer that holds the object (08 R231; 10 R305). -/

namespace Sys2Proof.Machine

open Sys2Proof

section peer
variable {s : State} {u node num size off : Nat} {raw : Bool}

theorem createExport_refused (h : exportOk s u node num size off = false) : createExport s u node num size raw off = s := by
  rw [createExport, h]
  rfl

/-- The object that a peer's PLACE charges here takes an extent of its own. -/
theorem createExport_creates (h : exportOk s u node num size off = true) : ∃ e x, createExport s u node num size raw off = updateCaps x
    ∧ e = { e with tenant := u, node := node, num := num, off := off, size := size, raw := raw, data := [] }
    ∧ x = { s with ms := { s.ms with exports := s.ms.exports ++ [e], badBursts := x.ms.badBursts, badRows := x.ms.badRows } } := by
  let e : Export := { tenant := u, node := node, num := num, off := off, size := size, raw := raw, block := allocBlock s (size / 262144) }
  refine ⟨e, _, ?_, rfl, mendBursts_frame { s with ms := { s.ms with exports := s.ms.exports ++ [e] } } (exportObj e) 0 size⟩
  rw [createExport, h]
  rfl

theorem useT2x_append {t : State} {e : Export} (h : t.ms.exports = s.ms.exports ++ [e]) (hu : e.tenant = u) : useT2x t u = useT2x s u + e.size := by
  simp [useT2x, h, hu]

end peer

end Sys2Proof.Machine
end

section
/-! SUPPORT. Commands on objects (08 R223 to R248), and the statement about them. -/

namespace Sys2Proof.Machine

open Sys2Proof

/-! ### Ends that several commands share -/

section ends
variable {s e : State} {d : Desc} {c : Instr} (hexec : exec c s = onUnit s true e)
include hexec

theorem exec_ends {st : Nat} (he : e = complete s d st) : ∃ t, exec c s = .next t ∧ Completed s d st 0 t ∧ OnlyQueues s t := by
  rw [hexec]
  exact onUnit_completed rfl he rfl

theorem exec_waits (he : e = s) : exec c s = .next s := by
  rw [hexec, he]
  rfl

theorem exec_keeps (hp : e.pending = s.pending) : exec c s = .next e := by
  rw [hexec]
  exact onUnit_keep rfl hp

end ends

/-! ### Missing and freed objects (R228) -/

section named
variable {s run : State} {d : Desc} {c : Instr} {op num : Nat} (hmissing : findObj s d.tenant num = none → run = complete s d stMalformed)
include hmissing

/-- A read of a missing or freed object is refused; it is behind no write. -/
theorem read_named (hop : op = 0x10 ∨ op = 0x14) (hexec : exec c s = onUnit s true run) (hfreed : namesFreed s d = true → run = complete s d stMalformed) :
    (namesFreed s d = true → ∃ t, exec c s = .next t ∧ Completed s d 0x15 0 t ∧ OnlyQueues s t)
    ∧ (findObj s d.tenant num = none → op = 0x10 ∨ op = 0x14 ∨ writeHeld s d = false → ∃ t, exec c s = .next t ∧ Completed s d 0x15 0 t ∧ OnlyQueues s t)
    ∧ (namesFreed s d = false → op ≠ 0x10 → op ≠ 0x14 → writeHeld s d = true → exec c s = .next s) :=
  ⟨fun h => exec_ends hexec (hfreed h), fun h _ => exec_ends hexec (hmissing h), fun _ h10 h14 => absurd hop (not_or.mpr ⟨h10, h14⟩)⟩

/-- A write of a missing or freed object is refused, and waits for the earlier writes of its rows. -/
theorem write_named (h10 : op ≠ 0x10) (h14 : op ≠ 0x14) (hexec : exec c s = onUnit s true (inOrder s d run)) :
    (namesFreed s d = true → ∃ t, exec c s = .next t ∧ Completed s d 0x15 0 t ∧ OnlyQueues s t)
    ∧ (findObj s d.tenant num = none → op = 0x10 ∨ op = 0x14 ∨ writeHeld s d = false → ∃ t, exec c s = .next t ∧ Completed s d 0x15 0 t ∧ OnlyQueues s t)
    ∧ (namesFreed s d = false → op ≠ 0x10 → op ≠ 0x14 → writeHeld s d = true → exec c s = .next s) := by
  refine ⟨fun h => exec_ends hexec (inOrder_freed h), fun h hheld => ?_, fun hnames _ _ h => exec_waits hexec (inOrder_held hnames h)⟩
  have hfree := (hheld.resolve_left h10).resolve_left h14
  exact exec_ends hexec (inOrder_refused hfree (hmissing h))

end named

/-! ### Reads and writes (R234, R239) -/

/-- A read's bytes reach host memory, and it completes. -/
theorem exec_delivers {s : State} {d : Desc} {c : Instr} {m : Mem} (hexec : exec c s = onUnit s true (complete { commit s d with hostMem := m } d stDone)) :
    ∃ t, exec c s = .next t ∧ Completed s d stDone 0 t ∧ t.hostMem = m ∧ OnlyQueues { s with hostMem := t.hostMem } t := by
  obtain ⟨hdone, honly, hmem, hp⟩ := complete_delivered s d m
  exact ⟨_, exec_keeps hexec hp, hdone, hmem, honly⟩

/-- A write's parts reach its object, and it completes. -/
theorem exec_stores {s : State} {d : Desc} {o : Obj} {c : Instr} {l : List (Nat × List Byte)} (hexec : exec c s = onUnit s true (storeParts s d o l))
    (ho : findObj s d.tenant o.num = some o) (htier : o.tier < 2) (hguard : guardedOn s d.tenant o.num = false) :
    ∃ t, exec c s = .next t ∧ Completed s d stDone 0 t
      ∧ (∃ x, findObj t d.tenant o.num = some x ∧ x.data = writtenParts o.data l ∧ x = { o with hdr := x.hdr, data := x.data })
      ∧ (∀ u n, u ≠ d.tenant ∨ n ≠ o.num → findObj t u n = findObj s u n)
      ∧ OnlyQueues { s with ms := { s.ms with objs := t.ms.objs, badBursts := t.ms.badBursts, badRows := t.ms.badRows } } t := by
  obtain ⟨y, hy, hwrote⟩ := storeParts_stores ho htier hguard l
  have htenant : o.tenant = d.tenant := (findObj_key ho).1
  have hms : (complete y { d with phase := .running } stDone).ms = y.ms := complete_ms ..
  rw [hy] at hexec
  refine ⟨_, exec_keeps hexec ?_, ?_, ?_, fun u n h => ?_, ?_⟩
  case refine_1 => rw [complete_pend, hwrote.pending, commit_qe_frame]
  case refine_2 =>
    exact completed_of (s := s) { d with phase := .running } stDone (by rw [hwrote.qe, commit_descs]) (by rw [hwrote.qe, commit_recs])
  case refine_3 =>
    obtain ⟨hdr, hobj⟩ := hwrote.object
    exact ⟨_, (findObj_congr hms ..).trans ((congrArg (findObj y · o.num) htenant).symm.trans hobj), rfl, rfl⟩
  case refine_4 => rw [findObj_congr hms, hwrote.others u n (htenant ▸ h), findObj_commit]
  case refine_5 =>
    rw [hms]
    exact hwrote.frame.onlyQueues.trans (complete_only ..)

/-- OBJ_READ delivers the bytes of its range. -/
theorem objRead_delivers {s : State} {q : QId} {seq : Nat} {d : Desc} {bs : List Byte} {n : Nat}
    (hexec : exec (.objRead q seq) s = onUnit s true (complete (hostWrite (commit s d) d.tenant (dfield d 16 8) bs) d stDone)) (hn : bs.length = n) :
    ∃ t, exec (.objRead q seq) s = .next t ∧ Completed s d stDone 0 t ∧ (hostOpen s d.tenant = true → hostRead t (dfield d 16 8) n = bs)
      ∧ HostOutside s t (dfield d 16 8) n ∧ OnlyQueues { s with hostMem := t.hostMem } t := by
  subst hn
  rw [hostWrite_frame] at hexec
  obtain ⟨t, hnext, hdone, hmem, honly⟩ := exec_delivers hexec
  refine ⟨t, hnext, hdone, fun hopen => ?_, fun b hb => ?_, honly⟩
  · rw [hostRead, hmem]
    exact hostRead_hostWrite (commit s d) d.tenant (dfield d 16 8) bs (by rwa [hostOpen_commit])
  · rw [hmem, hostWrite_outside _ _ _ b _ hb, commit_qe_frame]

/-- A read that meets a bad row ends with FAULT_MEMORY and delivers nothing. -/
theorem exec_faults {s : State} {d : Desc} {c : Instr} {t : Nat} {b : StackBad} (hexec : exec c s = onUnit s true (complete (logStackBad s t b) d stMemory)) :
    ∃ x, exec c s = .next x ∧ getTt x d.q d.seq = ⟨d.seq, .complete, stMemory⟩ ∧ x.hostMem = s.hostMem ∧ x.ms.objs = s.ms.objs := by
  have hread := ReadOnly.logStackBad s t b
  refine ⟨_, exec_keeps hexec ?_, completeWith_getTt .., ?_, ?_⟩
  · rw [complete_pend, hread]
  · rw [complete_hostMem, hread.hostMem]
  · rw [complete_ms, hread.ms]

/-- A command that has left its place in a context frees no entry of a Square. -/
theorem complete_running_squares {s : State} {d : Desc} (h : d.phase = .running) (st : Nat) : (complete s d st).squares = s.squares := by
  simp only [complete, completeWith]
  rw [dupRecs_eq, foldl_addRec_qe]
  simp [dropDesc, freeEntry, h]

/-- A DISCARD invalidates its units and completes. -/
theorem exec_discards {s : State} {d : Desc} {o : Obj} {c : Instr} (hexec : exec c s = onUnit s true (complete (discarded s d o) { d with phase := .running } stDone))
    (ho : findObj s d.tenant (dfield d 16 4) = some o) :
    ∃ t, exec c s = .next t ∧ Completed s d stDone 0 t ∧ t.fl = (trimUnits (commit s d) o (discardUnits d)).1.fl
      ∧ (∀ u n, u ≠ d.tenant ∨ n ≠ o.num → findObj t u n = findObj s u n) ∧ t.hostMem = s.hostMem ∧ t.indexes = s.indexes ∧ t.squares = s.squares := by
  have hframe := discarded_frame s d o
  have hqe : (discarded s d o).qe = (commit s d).qe := by rw [hframe]
  refine ⟨_, exec_keeps hexec ?_, completed_of (s := s) { d with phase := .running } stDone ?_ ?_, ?_, fun u n h => ?_, ?_, ?_, ?_⟩
  case refine_1 => rw [complete_pend, hframe, commit_qe_frame]
  case refine_2 => rw [hqe, commit_descs]
  case refine_3 => rw [hqe, commit_recs]
  case refine_4 => rw [complete_fl, hframe]
  case refine_5 => rw [findObj_congr (complete_ms ..), findObj_discarded_other s d o (by rwa [(findObj_key ho).1])]
  case refine_6 => rw [complete_hostMem, hframe, commit_qe_frame]
  case refine_7 => rw [complete_indexes, hframe, commit_qe_frame]
  case refine_8 => rw [complete_running_squares (by rfl), hframe, commit_qe_frame]

/-! ### PLACE (R223 to R225) -/

/-- A CREATE makes the object. -/
theorem exec_creates {s x : State} {d : Desc} {c : Instr} {block : Nat} (hexec : exec c s = onUnit s true (complete (putObj x (createdObj s d block)) d stDone))
    (h : OnlyBad (commit s d) x) :
    ∃ t, exec c s = .next t ∧ Completed s d stDone 0 t ∧ findObj t d.tenant (dfield d 24 4) = some (createdObj s d block)
      ∧ (∀ u n, u ≠ d.tenant ∨ n ≠ dfield d 24 4 → findObj t u n = findObj s u n)
      ∧ OnlyQueues { s with ms := { s.ms with objs := t.ms.objs, badBursts := t.ms.badBursts, badRows := t.ms.badRows } } t := by
  have hobjs := h.onlyObjects.trans (.putObj x (createdObj s d block))
  refine ⟨_, exec_keeps hexec ?_, completed_created h block, findObj_created .., fun u n => findObj_created_other h block, ?_⟩
  · rw [complete_pend, hobjs, commit_qe_frame]
  · rw [complete_ms]
    exact hobjs.onlyQueues.trans (complete_only ..)

/-- A MOVE or a FREE marks its object and waits for its boundary. -/
theorem exec_queuesJob {s x : State} {d : Desc} {c : Instr} {o : Obj} {dest : Option Obj} (hexec : exec c s = onUnit s true (jobQueued x d o dest)) (h : OnlyBad s x)
    (hu : o.tenant = d.tenant) :
    ∃ t, exec c s = .next t ∧ findObj t d.tenant o.num = some o ∧ t.qe.recs = s.qe.recs
      ∧ t.ms.jobs = s.ms.jobs ++ [⟨d.q, d.seq, d.tenant, o.num, dest, false⟩]
      ∧ (∀ u n, u ≠ d.tenant ∨ n ≠ o.num → findObj t u n = findObj s u n) ∧ t.hostMem = s.hostMem := by
  refine ⟨_, exec_keeps hexec ((jobQueued_pending ..).trans h.pending), ?_, ?_, ?_, fun u n hn => ?_, (jobQueued_hostMem ..).trans h.hostMem⟩
  · exact (congrArg (findObj (jobQueued x d o dest) · o.num) hu).symm.trans (findObj_jobQueued ..)
  · rw [jobQueued_recs, h.qe]
  · rw [jobQueued_jobs, h.jobs]
  · rw [findObj_jobQueued_other x d o dest (by rwa [hu]), h.findObj]

/-! ### BANK_OP (R245 to R247) -/

/-- A BANK_OP is taken: its first chunks wait in their streams. -/
theorem exec_startsBank {s : State} {q : QId} {seq : Nat} {d e : Desc} {c : Instr} {l : List (Nat × List RowOp)}
    (hexec : exec c s = onUnit s true (l.foldl (fun a x => chunkToken a d x) (putDesc s e))) (hfind : findDesc s q seq = some d)
    (hn : e.n = d.n) (hq : e.q = d.q) (hseq : e.seq = d.seq) :
    ∃ t, exec c s = .next t ∧ findDesc t q seq = some e
      ∧ (∀ c ∈ l.map Prod.fst, ∀ i, bankStream s d.tenant c = some i → (⟨0, .chunk d.q d.seq⟩ : Token) ∈ (getStream t d.tenant i).tokens)
      ∧ t.qe.recs = s.qe.recs ∧ t = { s with qe := { s.qe with descs := t.qe.descs }, bd := { s.bd with streams := t.bd.streams } } := by
  obtain ⟨-, htokens, hframe⟩ := chunkTokens d l (putDesc s e)
  refine ⟨_, exec_keeps hexec (by rw [hframe]; rfl), ?_, htokens, by rw [hframe]; rfl, by rw [hframe]; rfl⟩
  rw [hframe]
  exact findDesc_putDesc hfind hn hq hseq

/-- The last chunk of a BANK_OP commits and completes it. -/
theorem exec_endsBank {s u : State} {d : Desc} {c : Instr} {l : List RowOp} {st : Nat} (hexec : exec c s = onUnit s true (complete (commit (bankRows d u l).1 d) d st))
    (hu : KeepsWork s u) :
    ∃ t, exec c s = .next t ∧ t.ms = (bankRows d u l).1.ms ∧ t.hostMem = s.hostMem ∧ t.qe.descs = s.qe.descs.filter (fun y => y.n != d.n)
      ∧ getTt t d.q d.seq = ⟨d.seq, .complete, st⟩ := by
  obtain ⟨hmem, hdescs⟩ := hu.trans (KeepsWork.bankRows d l u)
  refine ⟨_, hexec.trans (onUnit_true ..), ?_, ?_, ?_, completeWith_getTt ..⟩
  · change (complete (commit (bankRows d u l).1 d) d st).ms = _
    rw [complete_ms, commit_qe_frame]
  · change (complete (commit (bankRows d u l).1 d) d st).hostMem = _
    rw [complete_hostMem, commit_qe_frame]
    exact hmem
  · change (complete (commit (bankRows d u l).1 d) d st).qe.descs = _
    rw [complete, completeWith_descs, commit_descs, hdescs]

/-- An operation whose sources can be read gives its destination row the value of its operation. -/
theorem bankRow_writes {s : State} {d : Desc} {r : RowOp} {o : Obj} (ho : findObj s d.tenant ((bankNames d).getD r.dst.1 noEdge) = some o) (htier : o.tier = 1)
    (hgood : ∀ x ∈ r.srcs, ∀ y, findObj s d.tenant ((bankNames d).getD x.1 noEdge) = some y → stackBad s y (x.2 * 1024) 1024 = none) {a b : List Byte}
    (ha : sourceRow s d r 0 = a) (hb : sourceRow s d r 1 = b) :
    (∃ x, findObj (bankRow s d r).1 o.tenant o.num = some x ∧ x = { o with hdr := x.hdr, data := memWrite o.data (r.dst.2 * 1024) (r.value a b) })
      ∧ (∀ u n, u ≠ o.tenant ∨ n ≠ o.num → findObj (bankRow s d r).1 u n = findObj s u n)
      ∧ (bankRow s d r).1.ms.rowOps = satAdd 48 s.ms.rowOps 1 ∧ (bankRow s d r).2 = true := by
  obtain ⟨htenant, hnum⟩ := findObj_key ho
  have hobj : findObj s o.tenant o.num = some o := by rwa [htenant, hnum]
  have hwrote := (Wrote.refl hobj).write (by omega) hobj (r.dst.2 * 1024) (r.value a b)
  subst ha hb
  rw [bankRow_stores ho hgood rfl]
  obtain ⟨hdr, hnew⟩ := hwrote.object
  exact ⟨⟨_, hnew, rfl⟩, hwrote.others, by rw [hwrote.frame], rfl⟩

/-! ### The statement -/

/-- Settles O53: a command that is refused or waits leaves the objects alone; in T0 and T1 a write is a change of one object, and a PLACE takes its place or queues its job; the chunks of a BANK_OP are tokens, and one operation is one such write. -/
theorem objectCommands : Obligations.ObjectCommands := by
  unfold Obligations.ObjectCommands
  refine ⟨?named, ?objRead, ?write, ?tileRead, ?place, ?discard, ?bankOp, ?chunk, ?row, ?peer⟩
  case named =>
    intro s q seq op c d num hop hnum hwf hd hw
    subst hnum
    rcases hop with ⟨rfl, rfl⟩ | ⟨rfl, rfl⟩ | ⟨rfl, rfl⟩ | ⟨rfl, rfl⟩ | ⟨rfl, rfl⟩
    · exact read_named runTileRead_noObject (.inl rfl) (exec_tileRead hw hwf hd) runTileRead_freed
    · exact write_named runTileWrite_noObject (by decide) (by decide) (exec_tileWrite hw hwf hd)
    · exact read_named runObjRead_noObject (.inr rfl) (exec_objRead hw hwf hd) runObjRead_freed
    · exact write_named runObjWrite_noObject (by decide) (by decide) (exec_objWrite hw hwf hd)
    · exact write_named runDiscard_noObject (by decide) (by decide) (exec_discard hw hwf hd)
  case objRead =>
    intro s q seq d o hwf hd hw hnames ho
    have hexec := exec_objRead hw hwf hd
    refine ⟨fun hok hzero h => ?_, fun h => ?_, fun hok hzero hfree htier h => ?_, fun b hok hzero hfree htier h => ?_⟩
    · exact exec_waits hexec (runObjRead_held ho hnames hok hzero h)
    · exact exec_ends hexec (runObjRead_refused ho h)
    · rw [runObjRead_reads ho hnames hok hzero hfree htier h] at hexec
      exact objRead_delivers hexec (memRead_length ..)
    · rw [runObjRead_faults ho hnames hok hzero hfree htier h] at hexec
      exact exec_faults hexec
  case write =>
    intro s q seq d o l c ho hw hnames hheld hfault hopen htier hguard hc
    have hnum : o.num = dfield d 32 4 := (findObj_key ho).2
    refine exec_stores ?_ (by rwa [hnum]) htier hguard
    rcases hc with ⟨rfl, hwf, hd, hok, hbound, hlocked, hindex, hjournal, hplain, rfl⟩ | ⟨tn, rfl, hwf, hd, htn, hok, hheads, rfl⟩
    · rw [exec_objWrite hw hwf hd, inOrder_runs hnames hheld, runObjWrite_stores ho hfault hopen hok hbound hlocked hindex hjournal hplain]
    · rw [exec_tileWrite hw hwf hd, inOrder_runs hnames hheld, runTileWrite_stores ho hfault hopen htn hok hheads]
  case tileRead =>
    intro s q seq d o tn hwf hd hw hnames ho htn
    have hexec := exec_tileRead hw hwf hd
    refine ⟨fun h => ?_, fun hok h => ?_, fun hok hfree hfab htier hopen h => ?_⟩
    · exact exec_ends hexec (runTileRead_refused ho htn h)
    · exact exec_waits hexec (runTileRead_held ho htn hnames hok h)
    · rw [runTileRead_reads ho htn hnames hok hfree hfab htier hopen h] at hexec
      obtain ⟨t, hnext, hdone, hmem, honly⟩ := exec_delivers hexec
      exact ⟨t, hnext, hdone, hmem.trans List.foldl_map, honly⟩
  case place =>
    intro s q seq d peer hwf hd hw
    have hexec := exec_place peer hwf hd hw
    refine ⟨fun h => ?_, fun hnames h => ?_, fun hnames hheld hcode ho hfields hdest htensor => ⟨fun h => ?_, fun hcharge hroom => ?_⟩,
      fun o hnames hheld ho htier hdest hfields => ⟨fun hcode hcharge => ?_, fun hcode => ?_⟩⟩
    · exact exec_ends hexec (h.elim (runPlace_freed peer) fun h => runPlace_refused peer h.1 h.2)
    · exact exec_waits hexec (runPlace_held peer hnames h)
    · exact exec_ends hexec ((runPlace_new peer hheld hnames hdest ho hfields).trans (placeGo_noRoom peer hcode hdest htensor h))
    · obtain ⟨x, block, hx, hbad⟩ := placeGo_creates peer hcode hdest htensor hcharge hroom
      rw [runPlace_new peer hheld hnames hdest ho hfields, hx] at hexec
      obtain ⟨t, hnext, hdone, hobj, hothers, honly⟩ := exec_creates hexec hbad
      exact ⟨t, _, hnext, hdone, hobj, rfl, rfl, rfl, rfl, rfl, rfl, rfl, rfl, hothers, honly⟩
    · obtain ⟨x, block, hx, hbad⟩ := placeGo_moves peer hcode htier hdest hcharge
      rw [runPlace_moves peer hheld hnames hdest ho hfields htier hcode, hx] at hexec
      obtain ⟨t, hnext, hobj, hrecs, hjobs, hothers, hmem⟩ := exec_queuesJob hexec hbad (findObj_key ho).1
      exact ⟨t, _, hnext, hobj, hrecs, hjobs, rfl, rfl, rfl, rfl, hothers, hmem⟩
    · rw [runPlace_frees peer hheld hnames hdest ho hfields htier hcode, startFree_eq] at hexec
      exact exec_queuesJob hexec (.refl s) (findObj_key ho).1
  case discard =>
    intro s q seq d o hwf hd hw hnames hheld ho
    have hexec := exec_discard hw hwf hd
    rw [inOrder_runs hnames hheld] at hexec
    refine ⟨fun h => exec_ends hexec (runDiscard_refused ho h), fun htier hsome hmany hin hlocked hwait hfailed hguard htrim => ?_⟩
    rw [runDiscard_discards ho htier hsome hmany hin hlocked hwait hfailed hguard htrim] at hexec
    exact exec_discards hexec ho
  case bankOp =>
    intro s q seq d ops hwf hd hnames hheld halign hsome hmany hfault hopen hops
    have hexec := exec_bankOp hwf hd hnames hheld
    refine ⟨fun st h => ?_, fun hlen hcheck => ?_⟩
    · rw [runBankOp_refused halign hsome hmany hfault hopen hops h] at hexec
      exact ⟨_, exec_keeps hexec (complete_pend ..), bankRefuse_completed s d st⟩
    · rw [runBankOp_starts halign hsome hmany hfault hopen hops hlen hcheck] at hexec
      exact exec_startsBank hexec (findDesc_of_dueDesc hd) rfl rfl rfl
  case chunk =>
    intro s u q seq path slot n d r x rest l bad hu hwf hruns hkind hpath hfirst hlast hx htokens hcredits hdest hsource hfind hwork
    have hexec : exec (.slotTransfer 4 path slot) s = onUnit s true (runSlot s 4 path slot) := congrArg (onUnit s · _) hwf
    rw [runSlot_chunk hruns hkind hpath hfirst hlast hx htokens hcredits hdest hsource] at hexec
    refine ⟨fun h => exec_waits hexec ?_, fun h hothers hlen => ?_⟩
    · simp only [chunkSlot, hfind, hwork, if_pos h]
    · have hruns : chunkSlot s path slot r.owner r.stream (r.first + r.countM1 + 1 - slot) (getStream s r.owner r.stream) q seq rest = runChunk u d path l bad := by
        simp only [chunkSlot, hfind, hwork, if_neg (Nat.not_lt.mpr h), hu]
      rw [hruns, runChunk_last bad hothers hlen] at hexec
      exact exec_endsBank hexec (by rw [hu]; exact ⟨rfl, rfl⟩)
  case row =>
    intro s d r o a b ho htier hsources
    refine ⟨fun ⟨x, hx, y, bad, hy, hbad⟩ => bankRow_bad hx hy hbad, fun hgood ha hanone hb hbnone => ?_⟩
    exact bankRow_writes ho htier hgood (sourceRow_eq hsources hgood ha hanone) (sourceRow_eq hsources hgood hb hbnone)
  case peer =>
    intro s q seq u node num size off raw hwf hwf'
    have hexec : exec (.place q seq (.create u node num size raw off)) s = onUnit s true (createExport s u node num size raw off) := congrArg (onUnit s · _) hwf
    have hexec' : exec (.place q seq (.free u node num)) s = onUnit s true (freeExport s u node num) := congrArg (onUnit s · _) hwf'
    refine ⟨fun h => exec_waits hexec (createExport_refused h), fun h => ?_, ⟨_, exec_keeps hexec' rfl, rfl, rfl⟩⟩
    obtain ⟨e, x, hx, he, hframe⟩ := createExport_creates (raw := raw) h
    have hexports : x.ms.exports = s.ms.exports ++ [e] := by rw [hframe]
    rw [hx] at hexec
    refine ⟨_, e, exec_keeps hexec (by rw [hframe]; rfl), hexports, he, ?_, by rw [hframe]; rfl, by rw [hframe]; rfl⟩
    exact (useT2x_append (t := updateCaps x) hexports (by rw [he])).trans (by rw [he])

end Sys2Proof.Machine
end

section
/-! SUPPORT. What events, reads and programmed pages leave of the flash and of each of its channels, said once (09 R257, R266, R270 to R277, R284). -/

namespace Sys2Proof.Machine

open Sys2Proof

/-! ### A channel among the others -/

theorem getCh_setCh_if (s : State) (c k : Nat) (v : Channel) : getCh (setCh s c v) k = if k = c then v else getCh s k := tget_tset ..

/-- A field of the channels that a write of one channel keeps is kept of every channel. -/
theorem setCh_keeps {α : Type} (f : Channel → α) {s : State} {c : Nat} {v : Channel} (h : f v = f (getCh s c)) (k : Nat) :
    f (getCh (setCh s c v) k) = f (getCh s k) := by
  rw [getCh_setCh_if]
  split
  · next hk => rw [h, hk]
  · rfl

/-- Channels are read from their table alone. -/
theorem getCh_congr {s t : State} (h : t.fl.chans = s.fl.chans) (k : Nat) : getCh t k = getCh s k := by rw [getCh, getCh, h]

@[simp] theorem getCh_raise (s : State) (code cls t u a b c k : Nat) : getCh (raise s code cls t u a b c) k = getCh s k := getCh_congr (by rw [raise_fl]) k

theorem getDie_setDie_if (x : Channel) (chip k : Nat) (d : Die) : getDie (setDie x chip d) k = if k = chip then d else getDie x k := tget_tset ..
@[simp] theorem getDie_setDie (x : Channel) (chip : Nat) (d : Die) : getDie (setDie x chip d) chip = d := tget_tset_same ..

/-! ### Events about the flash -/

/-- Of the event registers, raising an event changes the log's own. -/
theorem raise_er (s : State) (code cls t u a b c : Nat) : (raise s code cls t u a b c).er = { s.er with
    nextSeq := (raise s code cls t u a b c).er.nextSeq, cnt := (raise s code cls t u a b c).er.cnt, log := (raise s code cls t u a b c).er.log,
    tail := (raise s code cls t u a b c).er.tail, lost := (raise s code cls t u a b c).er.lost } := by
  by_cases h : (s.er.tail + 1) % 1024 = s.er.head
  · rw [raise_er_full _ _ _ _ _ _ _ _ h]
  · rw [raise_er_room _ _ _ _ _ _ _ _ h]

/-- Only the flash block has changed, and what raising events changes. -/
def FlashWork (s t : State) : Prop :=
  t = { s with fl := t.fl, er := t.er, pw := { s.pw with alertN := t.pw.alertN }, qe := { s.qe with msix := t.qe.msix }, out := t.out }

theorem eventWork_errEvent (s : State) (cnt code t u l a b c : Nat) : EventWork s (errEvent s cnt code t u l a b c) := by
  have hcount : EventWork s (countUnit (cntEr s cnt 1) u false l) := rfl
  exact eventWork_trans hcount (eventWork_raise ..)

theorem errEvent_nextSeq (s : State) (cnt code t u l a b c : Nat) : (errEvent s cnt code t u l a b c).er.nextSeq = (s.er.nextSeq + 1) % 2 ^ 32 :=
  raise_nextSeq ..

namespace FlashWork

theorem refl (s : State) : FlashWork s s := rfl

theorem trans {a b c : State} (hab : FlashWork a b) (hbc : FlashWork b c) : FlashWork a c := by
  unfold FlashWork at *
  rw [hbc, hab]

theorem of_onlyFlash {s t : State} (h : OnlyFlash s t) : FlashWork s t := by
  unfold FlashWork OnlyFlash at *
  rw [h]

theorem of_eventWork {s t : State} (h : EventWork s t) : FlashWork s t := by
  unfold FlashWork EventWork at *
  rw [h]

theorem pending {s t : State} (h : FlashWork s t) : t.pending = s.pending := by rw [h]
theorem tempo {s t : State} (h : FlashWork s t) : t.tempo = s.tempo := by rw [h]
theorem raise {s t : State} (h : FlashWork s t) (code cls u v a b c : Nat) : FlashWork s (raise t code cls u v a b c) :=
  h.trans (of_eventWork (eventWork_raise ..))

end FlashWork

/-- Only the records of one channel's dies have changed, and what raising events about them changes. -/
structure DieEvent (c : Nat) (s t : State) : Prop where
  frame : t = { s with fl := { s.fl with chans := t.fl.chans }, er := t.er, pw := { s.pw with alertN := t.pw.alertN }, qe := { s.qe with msix := t.qe.msix }, out := t.out }
  others : ∀ k, k ≠ c → getCh t k = getCh s k
  chan : getCh t c = { getCh s c with dieSt := (getCh t c).dieSt }

namespace DieEvent

theorem refl (c : Nat) (s : State) : DieEvent c s s := ⟨rfl, fun _ _ => rfl, rfl⟩

theorem trans {k : Nat} {a b c : State} (hab : DieEvent k a b) (hbc : DieEvent k b c) : DieEvent k a c where
  frame := by rw [hbc.frame, hab.frame]
  others j hj := by rw [hbc.others j hj, hab.others j hj]
  chan := by rw [hbc.chan, hab.chan]

theorem setDie (s : State) (c chip : Nat) (d : Die) : DieEvent c s (setCh s c (setDie (getCh s c) chip d)) where
  frame := rfl
  others _ hk := getCh_setCh_other _ _ hk
  chan := by rw [getCh_setCh]; rfl

theorem raise {c : Nat} {s t : State} (h : DieEvent c s t) (code cls u v x y z : Nat) : DieEvent c s (raise t code cls u v x y z) := by
  obtain ⟨er, al, mx, out, hraise⟩ := raise_frame t code cls u v x y z
  refine ⟨?_, fun k hk => by rw [getCh_raise, h.others k hk], by rw [getCh_raise]; exact h.chan⟩
  rw [hraise, h.frame]

theorem flashWork {c : Nat} {s t : State} (h : DieEvent c s t) : FlashWork s t := by
  unfold FlashWork
  rw [h.frame]

end DieEvent

/-! ### Reads (R270 to R272) -/

/-- Only the dies' own records, the flash counters and calibration items that take effect have changed, as by a read of codewords. -/
structure DieWork (s t : State) : Prop where
  frame : t = { s with fl := { s.fl with chans := t.fl.chans, cnt := t.fl.cnt }, cal := t.cal }
  chan : ∀ k, getCh t k = { getCh s k with dieSt := (getCh t k).dieSt }

namespace DieWork

theorem refl (s : State) : DieWork s s := ⟨rfl, fun _ => rfl⟩

theorem trans {a b c : State} (hab : DieWork a b) (hbc : DieWork b c) : DieWork a c where
  frame := by rw [hbc.frame, hab.frame]
  chan k := by rw [hbc.chan k, hab.chan k]

section fields
variable {s t : State} (h : DieWork s t)
include h

theorem er : t.er = s.er := by rw [h.frame]
theorem pending : t.pending = s.pending := by rw [h.frame]
theorem tempo : t.tempo = s.tempo := by rw [h.frame]
theorem fmtW : t.fl.fmtW = s.fl.fmtW := by rw [h.frame]
theorem fmtId : t.fl.fmtId = s.fl.fmtId := by rw [h.frame]
theorem supers : t.fl.supers = s.fl.supers := by rw [h.frame]
theorem badCw : t.fl.badCw = s.fl.badCw := by rw [h.frame]
theorem recovOlder : t.fl.recovOlder = s.fl.recovOlder := by rw [h.frame]
theorem pages (k : Nat) : (getCh t k).pages = (getCh s k).pages := by rw [h.chan]
theorem map (k : Nat) : (getCh t k).map = (getCh s k).map := by rw [h.chan]
theorem pagesOf (k : Nat) : pagesOf (getCh t k) = pagesOf (getCh s k) := by rw [h.chan]; rfl
theorem roots (k : Nat) : (getCh t k).roots = (getCh s k).roots := by rw [h.chan]
theorem cwSet (c key j : Nat) : cwSet t c key j = cwSet s c key j := by rw [Machine.cwSet, h.badCw]; rfl
theorem cwLost (c key j : Nat) : cwLost t c key j = cwLost s c key j := by rw [Machine.cwLost, h.cwSet]; rfl
theorem findPage (c key : Nat) : findPage t c key = findPage s c key := by rw [Machine.findPage, h.pages]; rfl

end fields

theorem setDies (s : State) (c : Nat) (ds : Tab Die) : DieWork s (setCh s c { getCh s c with dieSt := ds }) where
  frame := rfl
  chan k := by
    rw [getCh_setCh_if]
    split
    · next hk => rw [hk]
    · rfl

theorem cntFl (s : State) (k n : Nat) : DieWork s (cntFl s k n) := ⟨rfl, fun _ => rfl⟩

theorem calTake (s : State) (f : Nat → Bool) : DieWork s (calTake s f) := ⟨rfl, fun _ => rfl⟩

theorem countReads (s : State) (c chip n : Nat) : DieWork s (countReads s c chip n) := (setDies ..).trans (cntFl ..)

theorem countRetry (s : State) (c chip n : Nat) : DieWork s (countRetry s c chip n) where
  frame := rfl
  chan k := (setDies s c _).chan k

theorem readRaw (s : State) (c key j : Nat) : DieWork s (readRaw s c key j).1 := by
  simp only [Machine.readRaw]
  split
  · exact countReads ..
  · exact (countReads ..).trans (countRetry ..)

theorem readEach (j : Nat) (l : List (Nat × Nat)) (s : State) : DieWork s (readEach j s l).1 := by
  induction l generalizing s with
  | nil => exact refl s
  | cons p r ih =>
    simp only [Machine.readEach]
    split
    · exact (readRaw ..).trans (ih _)
    · exact readRaw ..

theorem rebuildCw (s : State) (c key j : Nat) : DieWork s (rebuildCw s c key j).1 := by
  simp only [Machine.rebuildCw]
  split
  · exact refl s
  · split
    · exact refl s
    · split
      · exact (readEach ..).trans (cntFl ..)
      · exact readEach ..

theorem readCw (s : State) (c key j : Nat) : DieWork s (readCw s c key j).1 := by
  simp only [Machine.readCw]
  split
  · exact readRaw ..
  · exact (readRaw ..).trans (rebuildCw ..)

theorem readPageParts (c key : Nat) (l : List Nat) (s : State) : DieWork s (readPageParts c key s l).1 := by
  induction l generalizing s with
  | nil => exact refl s
  | cons j l ih =>
    simp only [Machine.readPageParts]
    split
    · exact readCw ..
    · exact (readCw ..).trans (ih _)

end DieWork

/-- Whether one codeword decodes apart from the rebuild step. -/
theorem readRaw_ok (s : State) (c key j : Nat) : (readRaw s c key j).2 = !cwLost s c key j := by
  unfold readRaw cwLost
  split
  · next h => rw [h]; rfl
  · dsimp only
    rw [← decide_not, decide_eq_decide]
    exact Nat.not_lt.symm

/-! ### Programmed pages (R266, R274, R275) -/

/-- Programming pages changes, of a channel, its pages, its sequence number, and what its dies take next; and besides the superblocks, the counters and the state of the codewords. -/
structure Programs (s t : State) : Prop where
  frame : t = { s with fl := { s.fl with chans := t.fl.chans, supers := t.fl.supers, superNum := t.fl.superNum, cnt := t.fl.cnt, badCw := t.fl.badCw } }
  chan : ∀ k, getCh t k = { getCh s k with
    pages := (getCh t k).pages, seq := (getCh t k).seq, since := (getCh t k).since, nextDie := (getCh t k).nextDie, queue := (getCh t k).queue }

namespace Programs

theorem refl (s : State) : Programs s s := ⟨rfl, fun _ => rfl⟩

theorem trans {a b c : State} (hab : Programs a b) (hbc : Programs b c) : Programs a c where
  frame := by rw [hbc.frame, hab.frame]
  chan k := by rw [hbc.chan k, hab.chan k]

theorem foldl {α : Type} {f : State → α → State} (h : ∀ x a, Programs x (f x a)) (l : List α) (s : State) : Programs s (l.foldl f s) :=
  foldl_keeps (Programs s) f (fun _ _ hx => hx.trans (h ..)) l s (refl s)

theorem setCh (s : State) (c : Nat) {v : Channel} (h : v = { getCh s c with pages := v.pages, seq := v.seq, since := v.since, nextDie := v.nextDie, queue := v.queue }) :
    Programs s (setCh s c v) where
  frame := rfl
  chan k := by
    rw [getCh_setCh_if]
    split
    · next hk => rw [hk]; exact h
    · rfl

theorem putSuper (s : State) (x : Super) : Programs s (putSuper s x) := ⟨rfl, fun _ => rfl⟩
theorem cntFl (s : State) (k n : Nat) : Programs s (cntFl s k n) := ⟨rfl, fun _ => rfl⟩

theorem storePage (s : State) (c key kind m lu sb : Nat) (data : Mem) (hx : List Byte) : Programs s (storePage s c key kind m lu sb data hx) :=
  (setCh s c rfl).trans ⟨rfl, fun _ => rfl⟩

theorem closeParity (s : State) (x : Super) : Programs s (closeParity s x) := by
  simp only [Machine.closeParity]
  split
  · exact putSuper ..
  · exact (storePage ..).trans (putSuper ..)

theorem closeFull (n : Nat) (s : State) (g d num : Nat) : Programs s (closeFull n s g d num) := by
  induction n generalizing s with
  | zero => exact refl s
  | succ n ih =>
    simp only [Machine.closeFull]
    split
    · exact refl s
    · split
      · exact (closeParity ..).trans (ih _)
      · exact refl s

theorem programAt (s : State) (x : Super) (m kind lu : Nat) (data : Mem) : Programs s (programAt s x m kind lu data) := by
  simp only [Machine.programAt]
  generalize (65 : Nat) = n
  refine trans ?_ (closeFull n ..)
  split
  · exact ((storePage ..).trans (putSuper ..)).trans (cntFl ..)
  · exact (storePage ..).trans (putSuper ..)

theorem padMember (n : Nat) (s : State) (g d num m k : Nat) : Programs s (padMember n s g d num m k) := by
  induction n generalizing s with
  | zero => exact refl s
  | succ n ih =>
    simp only [Machine.padMember]
    split
    · exact refl s
    · split
      · exact (programAt ..).trans (ih _)
      · exact refl s

theorem closeOldest (s : State) (x : Super) : Programs s (closeOldest s x) := by
  simp only [Machine.closeOldest]
  have hpad : Programs s ((dataMembers s.fl.fmtW x).foldl (fun a m => Machine.padMember (x.closed + 1) a x.g x.d x.num m x.closed) s) :=
    foldl (fun _ _ => padMember ..) _ s
  split
  · split
    · exact hpad.trans (closeParity ..)
    · exact hpad
  · exact hpad

theorem takeBlock (s : State) (c chip b : Nat) : Programs s (takeBlock s c chip b) := by
  simp only [Machine.takeBlock]
  split
  · exact setCh s c rfl
  · exact refl s

theorem openSuper {s t : State} {g d r : Nat} (h : openSuper s g d r = some t) : Programs s t := by
  simp only [Machine.openSuper] at h
  split at h
  · cases h
  · injection h with h
    subst h
    refine trans ?_ (foldl (fun _ _ => takeBlock ..) _ _)
    exact ⟨rfl, fun _ => rfl⟩

theorem seek {g d m r : Nat} (n : Nat) {s t : State} (h : programOn.seek d r g m n s = some t) : Programs s t := by
  induction n generalizing s with
  | zero => cases h
  | succ n ih =>
    simp only [programOn.seek] at h
    split at h
    · injection h with h
      exact h ▸ refl s
    · obtain ⟨u, hu, ht⟩ := Option.bind_eq_some_iff.mp h
      exact (openSuper hu).trans (ih ht)

theorem programOn {s : State} {c d r kind lu : Nat} {data : Mem} {x : Nat × State} (h : programOn s c d r kind lu data = some x) : Programs s x.2 := by
  simp only [Machine.programOn, Option.bind_eq_some_iff, Option.map_eq_some_iff] at h
  obtain ⟨a, ha, y, -, z, -, rfl⟩ := h
  refine trans ?_ (programAt ..)
  split
  · split
    · exact (seek _ ha).trans (closeOldest ..)
    · exact seek _ ha
  · exact seek _ ha

theorem programPage {s : State} {c r kind lu : Nat} {data : Mem} {d key : Nat} {t : State} (h : programPage s c r kind lu data = some (d, key, t)) : Programs s t := by
  simp only [Machine.programPage] at h
  obtain ⟨i, -, hi⟩ := List.exists_of_findSome?_eq_some h
  obtain ⟨y, hy, he⟩ := Option.map_eq_some_iff.mp hi
  injection he with _ he
  injection he with _ he
  subst he
  exact (programOn hy).trans (setCh _ c rfl)

end Programs

end Sys2Proof.Machine
end

section
/-! SUPPORT. Erased blocks, appended roots and checkpoints (09 R279, R286 to R288), and the statement about checkpoints. -/

namespace Sys2Proof.Machine

open Sys2Proof

/-! ### A block is erased (R279) -/

/-- A key of a page of a block of `n` pages whose first page has the key `lo`. -/
def inBlock (lo n k : Nat) : Bool := decide (lo ≤ k) && decide (k < lo + n)

theorem inBlock_false {lo n k : Nat} (h : inBlock lo n k = false) : k < lo ∨ lo + n ≤ k := by
  simp only [inBlock, Bool.and_eq_false_iff, decide_eq_false_iff_not, not_le, not_lt] at h
  exact h

/-- The key of a block's first page. -/
def blockStart (x : Channel) (chip b : Nat) : Nat := pageKey chip (b * pagesOf x)

/-- What a block's erasure leaves of its channel. -/
def wipedCh (x : Channel) (chip b : Nat) : Channel :=
  setBlock { x with pages := x.pages.filter (fun e => !inBlock (blockStart x chip b) (pagesOf x) e.1),
                    roots := x.roots.filter (fun r => !r.pages.any (inBlock (blockStart x chip b) (pagesOf x))) } chip b
    { getBlock x chip b with erases := (getBlock x chip b).erases + 1 }

theorem wipeBlock_frame (s : State) (c chip b : Nat) :
    wipeBlock s c chip b = { s with fl := { s.fl with
      chans := tset s.fl.chans c (wipedCh (getCh s c) chip b)
      cnt := bump s.fl.cnt 6 1
      badCw := s.fl.badCw.filter (fun w => !(w.1 == c && inBlock (blockStart (getCh s c) chip b) (pagesOf (getCh s c)) w.2.1)) } } := rfl

theorem getCh_wipeBlock (s : State) (c chip b k : Nat) : getCh (wipeBlock s c chip b) k = if k = c then wipedCh (getCh s c) chip b else getCh s k := by
  rw [wipeBlock_frame]
  exact tget_tset ..

theorem wipedCh_st (x : Channel) (chip b k : Nat) : (getDie (wipedCh x chip b) k).st = (getDie x k).st := by
  unfold wipedCh setBlock
  rw [getDie_setDie_if]
  split
  · next h => rw [h]; rfl
  · rfl

/-! ### A root is appended (R287) -/

/-- A channel's root blocks have taken a root: it is the newest, older ones may be gone with an erased block, and nothing else than that block's pages has left the channel. -/
structure RootAppended (s : State) (c : Nat) (r : Root) (t : State) : Prop where
  frame : t = { s with fl := { s.fl with chans := t.fl.chans, cnt := t.fl.cnt, badCw := t.fl.badCw } }
  others : ∀ k, k ≠ c → getCh t k = getCh s k
  chan : getCh t c = { getCh s c with
    pages := (getCh t c).pages, roots := (getCh t c).roots, rootBlk := (getCh t c).rootBlk, rootPage := (getCh t c).rootPage, dieSt := (getCh t c).dieSt }
  roots : ∃ keys rest, (getCh t c).roots = { r with pages := keys } :: rest ∧ ∀ x ∈ rest, x ∈ (getCh s c).roots
  pages : ∀ e ∈ (getCh t c).pages, e ∈ (getCh s c).pages
  badCw : ∀ w ∈ t.fl.badCw, w ∈ s.fl.badCw
  st : ∀ k, (getDie (getCh t c) k).st = (getDie (getCh s c) k).st

/-- The root stands behind those of its block. -/
def rootPut (s : State) (c : Nat) (r : Root) (blk page : Nat) (keys : List Nat) : State :=
  let s2 := setCh s c { getCh s c with rootBlk := blk, rootPage := page, roots := { r with pages := keys } :: (getCh s c).roots }
  cntFl { s2 with fl := { s2.fl with badCw := s2.fl.badCw.filter (fun w => !(w.1 == c && keys.contains w.2.1)) } } 4 (rootPages (getCh s c))

theorem rootPut_appended (s : State) (c : Nat) (r : Root) (blk page : Nat) (keys : List Nat) : RootAppended s c r (rootPut s c r blk page keys) := by
  have hchan : getCh (rootPut s c r blk page keys) c = { getCh s c with rootBlk := blk, rootPage := page, roots := { r with pages := keys } :: (getCh s c).roots } :=
    getCh_setCh s c _
  refine ⟨rfl, fun k hk => getCh_setCh_other s _ hk, ?_, ?_, ?_, fun w hw => List.mem_of_mem_filter hw, ?_⟩
  all_goals rw [hchan]
  · exact ⟨keys, (getCh s c).roots, rfl, fun _ hx => hx⟩
  · exact fun _ he => he
  · exact fun _ => rfl

/-- A root behind an erased block. -/
theorem RootAppended.wiped {s : State} {c chip b : Nat} {r : Root} {t : State} (h : RootAppended (wipeBlock s c chip b) c r t) : RootAppended s c r t := by
  have hw : getCh (wipeBlock s c chip b) c = wipedCh (getCh s c) chip b := by rw [getCh_wipeBlock, if_pos rfl]
  obtain ⟨hframe, hothers, hchan, ⟨keys, rest, hroots, hrest⟩, hpages, hbad, hst⟩ := h
  rw [hw] at hchan hrest hpages hst
  refine ⟨?_, fun k hk => ?_, ?_, ⟨keys, rest, hroots, fun x hx => ?_⟩, fun e he => ?_, fun w h => ?_, fun k => ?_⟩
  · rw [hframe]; rfl
  · rw [hothers k hk, getCh_wipeBlock, if_neg hk]
  · rw [hchan]; rfl
  · exact List.mem_of_mem_filter (hrest x hx)
  · exact List.mem_of_mem_filter (hpages e he)
  · exact List.mem_of_mem_filter (hbad w h)
  · rw [hst, wipedCh_st]

theorem appendRoot_appended (s : State) (c : Nat) (r : Root) : RootAppended s c r (appendRoot s c r) := by
  by_cases hfull : pagesOf (getCh s c) < (getCh s c).rootPage + rootPages (getCh s c)
  · have hn : rootPages (getCh (wipeBlock s c (posChip (getCh s c) 0) ((rootBlocks (getCh s c) (posChip (getCh s c) 0)).getD (1 - (getCh s c).rootBlk) 0)) c)
        = rootPages (getCh s c) := by
      rw [getCh_wipeBlock, if_pos rfl]; rfl
    refine RootAppended.wiped (chip := posChip (getCh s c) 0) (b := (rootBlocks (getCh s c) (posChip (getCh s c) 0)).getD (1 - (getCh s c).rootBlk) 0) ?_
    simp only [appendRoot, hfull, decide_true, if_true]
    rw [← hn]
    exact rootPut_appended ..
  · simp only [appendRoot, hfull, decide_false, Bool.false_eq_true, if_false]
    exact rootPut_appended ..

/-! ### A checkpoint (R287, R288) -/

/-- Programming the changed segments changes, besides what programming pages does, where the segments of the channel lie. -/
structure SegsProgrammed (c : Nat) (s t : State) : Prop where
  frame : t = { s with fl := { s.fl with chans := t.fl.chans, supers := t.fl.supers, superNum := t.fl.superNum, cnt := t.fl.cnt, badCw := t.fl.badCw } }
  chan : ∀ k, getCh t k = { getCh s k with
    pages := (getCh t k).pages, seq := (getCh t k).seq, since := (getCh t k).since, nextDie := (getCh t k).nextDie, queue := (getCh t k).queue, segs := (getCh t k).segs }

theorem SegsProgrammed.trans {c : Nat} {a b d : State} (hab : SegsProgrammed c a b) (hbd : SegsProgrammed c b d) : SegsProgrammed c a d where
  frame := by rw [hbd.frame, hab.frame]
  chan k := by rw [hbd.chan k, hab.chan k]

theorem Programs.segs {s t : State} (h : Programs s t) (c : Nat) (l : Tab Nat) : SegsProgrammed c s (Machine.setCh t c { getCh t c with segs := l }) where
  frame := by rw [h.frame]; rfl
  chan k := by
    rw [getCh_setCh_if]
    split
    · next hk => rw [hk, h.chan c]
    · rw [h.chan k]

theorem programSegs_programmed {c : Nat} {x : Channel} (l : List Nat) {s t : State} (h : programSegs c x s l = some t) : SegsProgrammed c s t := by
  induction l generalizing s with
  | nil =>
    injection h with h
    exact h ▸ ⟨rfl, fun _ => rfl⟩
  | cons seg l ih =>
    simp only [programSegs] at h
    split at h
    · next hp => exact ((Programs.programPage hp).segs c _).trans (ih h)
    · cases h

/-- The queues that a checkpoint records. -/
def newQueues (u : State) (c : Nat) : Tab (List Nat) := (liveChips (getCh u c)).map (fun k => (k, recordQueue u c k))

/-- The root that a checkpoint of channel `c`, begun in `s`, records once its segments have been programmed in `u`. -/
def newRoot (s u : State) (c : Nat) : Root :=
  { num := (getCh s c).ckptNum + 1, seq := (getCh s c).seq, fmtId := s.fl.fmtId, segs := (getCh u c).segs, supers := u.fl.supers.filter (fun x => x.g == c / s.fl.fmtW),
    opens := openBlocks u c, queues := newQueues u c }

/-- The channel before its root is appended. -/
def checkpointed (s u : State) (c : Nat) : State :=
  setCh u c { getCh u c with ckptNum := (getCh s c).ckptNum + 1, ckptTick := s.tempo, since := 0, force := false, dirty := [], queue := newQueues u c }

theorem takeCheckpoint_none {s : State} {c : Nat} (h : programSegs c (getCh s c) s (getCh s c).dirty = none) : takeCheckpoint s c = s := by
  simp only [takeCheckpoint, h]

theorem takeCheckpoint_some {s u : State} {c : Nat} (h : programSegs c (getCh s c) s (getCh s c).dirty = some u) :
    takeCheckpoint s c = appendRoot (checkpointed s u c) c (newRoot s u c) := by
  simp only [takeCheckpoint, h]
  rfl

theorem newQueues_length (u : State) (c : Nat) : ∀ e ∈ newQueues u c, e.2.length ≤ 16 := by
  intro e he
  obtain ⟨k, -, rfl⟩ := List.mem_map.mp he
  exact List.length_take_le 16 _

/-- What a checkpoint leaves of its channel. -/
theorem takeCheckpoint_chan {s u : State} {c : Nat} (h : programSegs c (getCh s c) s (getCh s c).dirty = some u) :
    RootAppended (checkpointed s u c) c (newRoot s u c) (takeCheckpoint s c) := by
  rw [takeCheckpoint_some h]
  exact appendRoot_appended ..

/-! ### CHECKPOINT_FORCE (R286) -/

theorem getCh_forced (l : List Nat) (s : State) (k : Nat) :
    getCh (l.foldl (fun a c => setCh a c { getCh a c with force := true }) s) k = if k ∈ l then { getCh s k with force := true } else getCh s k := by
  induction l generalizing s with
  | nil => rfl
  | cons c l ih =>
    rw [List.foldl_cons, ih, getCh_setCh_if]
    by_cases hk : k = c
    · subst hk
      simp
    · simp [hk]

theorem forced_frame (l : List Nat) (s : State) :
    ∃ ch, l.foldl (fun a c => setCh a c { getCh a c with force := true }) s = { s with fl := { s.fl with chans := ch } } := by
  refine foldl_keeps (fun x => ∃ ch, x = { s with fl := { s.fl with chans := ch } }) _ ?_ l s ⟨s.fl.chans, rfl⟩
  rintro x c ⟨ch, rfl⟩
  exact ⟨_, rfl⟩

/-! ### The statement -/

theorem exec_checkpoint {s : State} {c : Nat} (hc : c < 64) :
    exec (.checkpoint c) s = .next (if flashReady s && checkpointDue s c then takeCheckpoint s c else s) := by
  have hpending : (if flashReady s && checkpointDue s c then takeCheckpoint s c else s).pending = s.pending := by
    split
    · rw [onlyFlash_takeCheckpoint s c]
    · rfl
  exact onUnit_keep (decide_eq_true hc) hpending

/-- Settles O33: the root that a checkpoint appends, and what it clears. -/
theorem checkpointsOfChannels : Obligations.CheckpointsOfChannels := by
  unfold Obligations.CheckpointsOfChannels
  refine ⟨fun s hbar => ?force, fun s c hc h => ?notDue, fun s c hc hready hdue => ⟨fun h => ?noBlock, fun u h => ?taken⟩⟩
  case force =>
    obtain ⟨ch, hframe⟩ := forced_frame (fittedChans s) s
    have hexec : exec (.checkpointForce 0) s = .next ((fittedChans s).foldl (fun a c => setCh a c { getCh a c with force := true }) s) := by
      change onUnit s true (pfWrite s 0 0x700060 _) = _
      rw [pfWrite_full _ _ hbar]
      exact onUnit_keep rfl (by rw [hframe])
    exact ⟨_, hexec, fun c => getCh_forced .., by rw [hframe]⟩
  case notDue =>
    have hoff : (flashReady s && checkpointDue s c) = false := Bool.and_eq_false_iff.mpr h
    rw [exec_checkpoint hc, hoff]
    rfl
  all_goals rw [exec_checkpoint hc, hready, hdue]
  case noBlock =>
    change Host.Outcome.next (takeCheckpoint s c) = _
    rw [takeCheckpoint_none h]
  case taken =>
    obtain ⟨-, -, hchan, ⟨keys, rest, hroots, hrest⟩, -, -, -⟩ := takeCheckpoint_chan h
    have hbefore : getCh (checkpointed s u c) c = { getCh u c with
        ckptNum := (getCh s c).ckptNum + 1, ckptTick := s.tempo, since := 0, force := false, dirty := [], queue := newQueues u c } := getCh_setCh ..
    have hold : (getCh u c).roots = (getCh s c).roots := by rw [(programSegs_programmed _ h).chan c]
    rw [hbefore] at hchan hrest
    exact ⟨takeCheckpoint s c, { newRoot s u c with pages := keys }, rest, rfl, hroots, fun x hx => hold ▸ hrest x hx, rfl, rfl, rfl, rfl, rfl, rfl, newQueues_length u c,
      (congrArg Channel.queue hchan :), (congrArg Channel.segs hchan :), (congrArg Channel.ckptNum hchan :), (congrArg Channel.ckptTick hchan :), (congrArg Channel.since hchan :),
      (congrArg Channel.force hchan :), (congrArg Channel.dirty hchan :), onlyFlash_takeCheckpoint s c⟩

end Sys2Proof.Machine
end

section
/-! SUPPORT. The ends of repairs (09 R282, R283; 13 R421 to R423), and the statement about the row switches and the end of a die migration. -/

namespace Sys2Proof.Machine

open Sys2Proof

/-! ### PROMOTE_DONE (13 R421) -/

section promoted
variable {s x : State} (d : Desc) (unit : Nat)

theorem promoteDone_completed (hdescs : x.qe.descs = s.qe.descs) (hrecs : x.qe.recs = s.qe.recs) : Completed s d 0x00 0 (promoteDone x d unit) := by
  refine completedDetail_of d stDone 0 ?_ ?_
  · rw [raise_qe, cntEr_qe, ← hdescs]
  · rw [raise_qe, cntEr_qe, ← hrecs]

theorem promoteDone_spare : (promoteDone x d unit).spare = x.spare := by rw [promoteDone, completeDetail_spare, raise_spare, cntEr_spare]
theorem promoteDone_fl : (promoteDone x d unit).fl = x.fl := by rw [promoteDone, completeDetail_fl, raise_fl, cntEr_fl]

/-- The repair is counted. -/
theorem promoteDone_counted : tget 0 (promoteDone x d unit).er.cnt 15 = satAdd 64 (tget 0 x.er.cnt 15) 1 := by
  rw [promoteDone, completeDetail_er, raise_cnt_other _ _ _ _ _ _ _ _ _ (by decide)]
  exact tget_tset_same ..

end promoted

/-! ### The row switches (13 R422, R423) -/

/-- The spare row of an SRAM array serves, and the job is done. -/
def sramServed (s : State) (j : RowJob) : State :=
  { s with spare := { s.spare with jobs := s.spare.jobs.filter (fun x => x.seq != j.seq),
                                   sramRows := s.spare.sramRows ++ [((macroOf j.target0 j.target1).1, (macroOf j.target0 j.target1).2, bits j.target1 6 9)] } }

theorem switchSram_eq {s : State} {j : RowJob} {d : Desc} (hd : findDesc s .admin j.seq = some d) :
    switchSram s j = promoteDone (sramServed s j) d (sqUnit (macroOf j.target0 j.target1).1) := by
  have hd' : findDesc (sramServed s j) .admin j.seq = some d := hd
  simp only [switchSram, dropRow]
  split
  · next x hx => rw [Option.some.inj (hd'.symm.trans hx)]; rfl
  · next hx => cases hd'.symm.trans hx

theorem exec_sramRowSwitch {s t : State} {j : RowJob} (hedge : atBoundary s = true) (hjobs : s.spare.jobs.filter (fun j => j.square && rowDue s j) = [j])
    (ht : switchSram s j = t) (hp : t.pending = s.pending) : exec .sramRowSwitch s = .next t := by
  change onUnit s true (if atBoundary s then (s.spare.jobs.filter (fun j => j.square && rowDue s j)).foldl switchSram s else s) = _
  rw [if_pos hedge, hjobs, List.foldl_cons, List.foldl_nil, ht]
  exact onUnit_keep rfl hp

theorem exec_stackRowSwitch {s : State} {j : RowJob} (hedge : atBoundary s = true)
    (hjobs : s.spare.jobs.filter (fun j => !j.square && !j.switched && rowDue s j) = [j]) : exec .stackRowSwitch s = .next (switchStack s j) := by
  change onUnit s true (if atBoundary s then (s.spare.jobs.filter (fun j => !j.square && !j.switched && rowDue s j)).foldl switchStack s else s) = _
  rw [if_pos hedge, hjobs]
  rfl

/-! ### A checkpoint beside other channels -/

/-- What a checkpoint, whether it is taken or not, leaves of its channel. -/
theorem takeCheckpoint_keeps (s : State) (c : Nat) :
    getCh (takeCheckpoint s c) c = { getCh s c with
      pages := (getCh (takeCheckpoint s c) c).pages, seq := (getCh (takeCheckpoint s c) c).seq, since := (getCh (takeCheckpoint s c) c).since,
      nextDie := (getCh (takeCheckpoint s c) c).nextDie, queue := (getCh (takeCheckpoint s c) c).queue, segs := (getCh (takeCheckpoint s c) c).segs,
      ckptNum := (getCh (takeCheckpoint s c) c).ckptNum, ckptTick := (getCh (takeCheckpoint s c) c).ckptTick, force := (getCh (takeCheckpoint s c) c).force,
      dirty := (getCh (takeCheckpoint s c) c).dirty, roots := (getCh (takeCheckpoint s c) c).roots, rootBlk := (getCh (takeCheckpoint s c) c).rootBlk,
      rootPage := (getCh (takeCheckpoint s c) c).rootPage, dieSt := (getCh (takeCheckpoint s c) c).dieSt }
    ∧ ∀ k, (getDie (getCh (takeCheckpoint s c) c) k).st = (getDie (getCh s c) k).st := by
  cases h : programSegs c (getCh s c) s (getCh s c).dirty with
  | none =>
    rw [takeCheckpoint_none h]
    exact ⟨rfl, fun _ => rfl⟩
  | some u =>
    obtain ⟨-, -, hchan, -, -, -, hst⟩ := takeCheckpoint_chan h
    have hsegs := (programSegs_programmed _ h).chan c
    have hbefore : getCh (checkpointed s u c) c = { getCh u c with
        ckptNum := (getCh s c).ckptNum + 1, ckptTick := s.tempo, since := 0, force := false, dirty := [], queue := newQueues u c } := getCh_setCh ..
    rw [hbefore, hsegs] at hchan hst
    exact ⟨by rw [hchan], fun k => hst k⟩

/-- Where no segment has changed, a checkpoint touches its channel alone. -/
theorem takeCheckpoint_others {s : State} {c : Nat} (h : (getCh s c).dirty = []) {k : Nat} (hk : k ≠ c) : getCh (takeCheckpoint s c) k = getCh s k := by
  have hsegs : programSegs c (getCh s c) s (getCh s c).dirty = some s := by rw [h]; rfl
  obtain ⟨-, hothers, -, -, -, -, -⟩ := takeCheckpoint_chan hsegs
  rw [hothers k hk, checkpointed, getCh_setCh_other _ _ hk]

/-! ### The end of a die migration (R282, R283) -/

/-- The channel whose spare die now serves a die position. -/
def migratedCh (x : Channel) (die : Nat) : Channel :=
  { setDie (setDie x 8 { getDie x 8 with st := 1 }) die { getDie x die with st := 5 } with migrating := none, migrated := some die, spare := false }

/-- The same, with the root blocks on the spare die where the position was die 0. -/
def rootsOut (x : Channel) (die : Nat) : Channel :=
  { x with roots := if die = 0 then [] else x.roots, rootBlk := if die = 0 then 0 else x.rootBlk, rootPage := if die = 0 then 0 else x.rootPage }

theorem migratedCh_dies (x : Channel) {die : Nat} (h : die ≠ 8) : (getDie (migratedCh x die) die).st = 5 ∧ (getDie (migratedCh x die) 8).st = 1 := by
  have hold : getDie (migratedCh x die) die = { getDie x die with st := 5 } := tget_tset_same ..
  have hspare : getDie (migratedCh x die) 8 = { getDie x 8 with st := 1 } := (tget_tset_other _ _ _ h.symm).trans (tget_tset_same ..)
  exact ⟨by rw [hold], by rw [hspare]⟩

theorem rootsMoved_unformatted {s : State} (c die : Nat) (h : s.fl.fmtW = 0) : rootsMoved s c die = s := by simp only [rootsMoved, h, if_true]

theorem rootsMoved_formatted {s : State} (c die : Nat) (h : s.fl.fmtW ≠ 0) : rootsMoved s c die = takeCheckpoint (setCh s c (rootsOut (getCh s c) die)) c := by
  simp only [rootsMoved, if_neg h, rootsOut]
  congr 2
  split <;> rfl

/-- What is left of the channel that the roots have moved in. -/
structure Settled (s : State) (c : Nat) (t : State) : Prop where
  frame : OnlyFlash s t
  migrating : (getCh t c).migrating = (getCh s c).migrating
  migrated : (getCh t c).migrated = (getCh s c).migrated
  spare : (getCh t c).spare = (getCh s c).spare
  map : (getCh t c).map = (getCh s c).map
  st : ∀ k, (getDie (getCh t c) k).st = (getDie (getCh s c) k).st
  pages : s.fl.fmtW = 0 → (getCh t c).pages = (getCh s c).pages
  others : s.fl.fmtW = 0 ∨ (getCh s c).dirty = [] → ∀ k, k ≠ c → getCh t k = getCh s k

theorem rootsMoved_settled (s : State) (c die : Nat) : Settled s c (rootsMoved s c die) := by
  by_cases hw : s.fl.fmtW = 0
  · rw [rootsMoved_unformatted c die hw]
    exact ⟨rfl, rfl, rfl, rfl, rfl, fun _ => rfl, fun _ => rfl, fun _ _ _ => rfl⟩
  · rw [rootsMoved_formatted c die hw]
    have hset : getCh (setCh s c (rootsOut (getCh s c) die)) c = rootsOut (getCh s c) die := getCh_setCh ..
    obtain ⟨hchan, hst⟩ := takeCheckpoint_keeps (setCh s c (rootsOut (getCh s c) die)) c
    rw [hset] at hchan hst
    refine ⟨onlyFlash_trans (onlyFlash_setCh ..) (onlyFlash_takeCheckpoint ..), (congrArg Channel.migrating hchan :), (congrArg Channel.migrated hchan :),
      (congrArg Channel.spare hchan :), (congrArg Channel.map hchan :), hst, fun h => absurd h hw, fun h k hk => ?_⟩
    have hdirty : (getCh (setCh s c (rootsOut (getCh s c) die)) c).dirty = [] := by
      rw [hset]
      exact h.resolve_left hw
    rw [takeCheckpoint_others hdirty hk, getCh_setCh_other _ _ hk]

theorem endMigration_eq {s : State} {c seq die : Nat} {d : Desc} (hnone : superBlocksOn s c die = []) (hd : findDesc s .admin seq = some d) :
    endMigration s c seq die = promoteDone (rootsMoved (setCh s c (migratedCh (getCh s c) die)) c die) d (engineUnit c die) := by
  have hflash : OnlyFlash s (rootsMoved (setCh s c (migratedCh (getCh s c) die)) c die) := onlyFlash_trans (onlyFlash_setCh ..) (rootsMoved_settled ..).frame
  have hd' : findDesc (rootsMoved (setCh s c (migratedCh (getCh s c) die)) c die) .admin seq = some d := by
    rw [hflash]
    exact hd
  simp only [endMigration, hnone, List.foldl_nil, List.isEmpty_nil, Bool.not_true, Bool.false_eq_true, if_false]
  split
  · next x hx => rw [Option.some.inj (hd'.symm.trans hx)]; rfl
  · next hx => cases hd'.symm.trans hx

/-! ### The statement -/

/-- Settles O40: each repair's end, and what it leaves. -/
theorem rowSwitchesAndDieMigration : Obligations.RowSwitchesAndDieMigration := by
  unfold Obligations.RowSwitchesAndDieMigration
  refine ⟨fun s j d hedge hjobs hd => ?sram, fun s j hedge hjobs => ?stack, fun s c seq die d hc hmig hnone hd => ?die⟩
  case sram =>
    exact ⟨_, exec_sramRowSwitch hedge hjobs (switchSram_eq hd) (promoteDone_pending ..), promoteDone_completed d _ rfl rfl, promoteDone_spare .., promoteDone_counted ..⟩
  case stack =>
    exact ⟨_, exec_stackRowSwitch hedge hjobs, rfl, rfl, tget_tset_same .., by simp [switchStack], rfl, rfl, rfl⟩
  case die =>
    have hexec : exec (.dieMigrationEnd c) s = onUnit s (decide (c < 64)) (endMigration s c seq die) := by
      change execDieMigrationEnd c s = _
      simp only [execDieMigrationEnd, hmig]
      rfl
    have hset : getCh (setCh s c (migratedCh (getCh s c) die)) c = migratedCh (getCh s c) die := getCh_setCh ..
    obtain ⟨hframe, hmigrating, hmigrated, hspare, hmap, hst, hpages, hothers⟩ := rootsMoved_settled (setCh s c (migratedCh (getCh s c) die)) c die
    rw [hset] at hmigrating hmigrated hspare hmap hst hpages hothers
    rw [endMigration_eq hnone hd] at hexec
    generalize rootsMoved (setCh s c (migratedCh (getCh s c) die)) c die = u at *
    have hch : ∀ k, getCh (promoteDone u d (engineUnit c die)) k = getCh u k := fun k => by rw [getCh, getCh, promoteDone_fl]
    have hpending : (promoteDone u d (engineUnit c die)).pending = s.pending := by
      rw [promoteDone_pending, hframe]
      rfl
    refine ⟨_, hexec.trans (onUnit_keep (decide_eq_true hc) hpending), promoteDone_completed d _ ?_ ?_, ?_⟩
    · rw [hframe]; rfl
    · rw [hframe]; rfl
    · rw [hch]
      refine ⟨hmigrating, hmigrated, hspare, hmap, fun h => ?_, hpages, fun h k hk => ?_⟩
      · rw [hst, hst]
        exact migratedCh_dies _ h
      · rw [hch, hothers h k hk, getCh_setCh_other _ _ hk]

end Sys2Proof.Machine
end

section
/-! SUPPORT. Sensors, trips and the input current (09 R284, R285; 13 R414 to R416, R426, R427), and the statement about them. -/

namespace Sys2Proof.Machine

open Sys2Proof

/-! ### Events of a node whose domains are off -/

/-- With the host link down and no entry of the MSI-X tables written, a message goes nowhere. -/
theorem msix_off {s : State} (hq : s.qe = {}) (hup : s.pw.hostUp = false) (fn v : Nat) : msix s fn v = s := by
  have hentry : tget {} s.qe.msix (fn * 128 + v) = ({} : MsixEntry) := by rw [hq]; rfl
  have hopen : hostOpen s fn = false := by rw [hostOpen, hup]; rfl
  simp only [msix, hentry, hopen, Bool.false_eq_true, if_false]

theorem raise_off {s : State} (hq : s.qe = {}) (hup : s.pw.hostUp = false) (code cls t u a b c : Nat) : (raise s code cls t u a b c).qe = {} := by
  simp only [raise]
  split
  · exact hq
  · rw [msix_off (by exact hq) (by exact hup)]
    split <;> split <;> simp [hq]

/-! ### A trip (R414 to R416) -/

/-- Every fast domain is off. -/
theorem tripNode_cleared (s : State) (cause : Nat) : FastCleared s (tripNode s cause) := by
  obtain ⟨fl, spare, ms, er, hdown, hobjs, -, -, -, ⟨hjobs, hexports⟩, hlanes, hrows⟩ := powerDown_frame s
  unfold tripNode
  rw [hdown]
  exact ⟨rfl, rfl, rfl, rfl, rfl, rfl, rfl, rfl, rfl, hobjs, hjobs, hexports, rfl, rfl, rfl, rfl, rfl, rfl, hlanes, hrows⟩

theorem tripNode_hostUp (s : State) (cause : Nat) : (tripNode s cause).pw.hostUp = false := rfl

/-- An event that the trip raises finds its queue engine cleared. -/
theorem FastCleared.raise {s x : State} (h : FastCleared s x) (hup : x.pw.hostUp = false) (code cls t u a b c : Nat) : FastCleared s (raise x code cls t u a b c) := by
  obtain ⟨hbd, hranks, hsquares, hqe, h'⟩ := h
  refine ⟨?_, ?_, ?_, raise_off hqe hup .., ?_⟩
  · rw [raise_bd, hbd]
  · rw [raise_ranks, hranks]
  · rw [raise_squares, hsquares]
  · simpa only [raise_tenants, raise_meters, raise_indexes, raise_partials, raise_ts, raise_ms, raise_fab, raise_nmc, raise_tempo, raise_hostMem, raise_freeCtr, raise_spare] using h'

/-- The node is TRIPPED, with what the log notes of it. -/
structure Tripped (s : State) (cause : Nat) (er : ErSt) (t : State) : Prop where
  cleared : FastCleared s t
  pstate : t.pw.pstate = 6
  cause : t.pw.tripCause = cause
  hostUp : t.pw.hostUp = false
  pending : t.pending = s.pending
  thermalTrip : t.er.thermalTrip = er.thermalTrip
  tripSensor : t.er.tripSensor = er.tripSensor
  overcurrent : t.er.overcurrent = er.overcurrent

/-- The event of a trip is raised once the domains are off. -/
theorem raise_tripped (s : State) (cause : Nat) (er : ErSt) (code cls t u a b c : Nat) :
    Tripped s cause er (raise { tripNode s cause with er := er } code cls t u a b c) := by
  have hcleared : FastCleared s { tripNode s cause with er := er } := tripNode_cleared s cause
  have hpending : (tripNode s cause).pending = s.pending := by
    obtain ⟨fl, spare, ms, er, hdown, -⟩ := powerDown_frame s
    unfold tripNode
    rw [hdown]
  have her := raise_er { tripNode s cause with er := er } code cls t u a b c
  refine ⟨hcleared.raise rfl .., ?_, ?_, ?_, ?_, (congrArg ErSt.thermalTrip her :), (congrArg ErSt.tripSensor her :), (congrArg ErSt.overcurrent her :)⟩
  iterate 3 rw [raise_pw]; rfl
  rw [raise_pending]
  exact hpending

theorem thermalTrip_tripped (s : State) (n : Nat) (raw : Int) :
    ∃ er : ErSt, er.thermalTrip = true ∧ er.tripSensor = n ∧ Tripped s 1 er (thermalTrip s n raw) := ⟨_, rfl, rfl, raise_tripped ..⟩

/-! ### The input current (R415) -/

def withCurrent (s : State) (amps : Nat) : State := { s with pw := { s.pw with current := min amps 65535 } }

section current
variable {s : State} {amps us : Nat} (hpow : s.pw.powered = true)
include hpow

theorem exec_overcurrent_small (h : amps ≤ 340 ∨ us < 20) : exec (.overcurrent amps us) s = .next (withCurrent s amps) := by
  have hshort : ¬(340 < amps ∧ 20 ≤ us ∧ s.pw.pstate ≠ 0 ∧ s.pw.pstate ≠ 6) := by omega
  exact congrArg (onUnit s true) ((if_neg (by rw [hpow]; decide)).trans (if_neg hshort))

theorem exec_overcurrent_trips (h : 340 < amps ∧ 20 ≤ us ∧ s.pw.pstate ≠ 0 ∧ s.pw.pstate ≠ 6) :
    ∃ t, exec (.overcurrent amps us) s = .next t ∧ ∃ er : ErSt, er.overcurrent = true ∧ Tripped (withCurrent s amps) 2 er t := by
  have htrip := raise_tripped (withCurrent s amps) 2 { (tripNode (withCurrent s amps) 2).er with overcurrent := true } 0x00F1 3 0x7F (sensorUnit Config.currentMonitor) amps 340 0
  refine ⟨_, ?_, _, rfl, htrip⟩
  refine Eq.trans ?_ (onUnit_keep (ok := true) rfl htrip.pending)
  exact congrArg (onUnit s true) ((if_neg (by rw [hpow]; decide)).trans (if_pos h))

end current

/-! ### A reading of a sensor of the module (R426, R427) -/

/-- The reading as it is recorded. -/
def withReading (s : State) (n : Nat) (raw : Int) : State :=
  { s with
    er := { s.er with sensors := tset s.er.sensors n { sensorOf s n with raw := raw, effective := effectiveOf s n raw, valid := true } }
    cal := { s.cal with items := s.cal.items.map (fun e => if e.1 == calKey 3 0 n then (e.1, { e.2 with pending := false }) else e) }
    ms := { s.ms with stackTemp := if n < 16 then s.ms.stackTemp else tset s.ms.stackTemp (n - 16) (effectiveOf s n raw / 8).toNat } }

theorem sensorOf_withReading (s : State) (n m : Nat) (raw : Int) :
    sensorOf (withReading s n raw) m = if m = n then { sensorOf s n with raw := raw, effective := effectiveOf s n raw, valid := true } else sensorOf s m := tget_tset ..

theorem readSensor_eq (s : State) (n : Nat) (raw : Int) :
    readSensor s n raw = if tripLimit n ≤ raw then thermalTrip (withReading s n raw) n raw else warnSensor (withReading s n raw) n (effectiveOf s n raw) := by
  by_cases hn : n < 16
  · simp only [readSensor, withReading, if_pos hn]
    rfl
  · simp only [readSensor, withReading, if_neg hn]
    rfl

/-- Warning of a temperature is an event, and touches of its sensor the mark alone that it has been given. -/
theorem warnSensor_event (s : State) (n : Nat) (eff : Int) :
    EventWork s (warnSensor s n eff) ∧ ∃ w, ∀ m, sensorOf (warnSensor s n eff) m = if m = n then { sensorOf s n with warned := w } else sensorOf s m := by
  simp only [warnSensor]
  split
  · refine ⟨eventWork_trans ?_ (eventWork_raise ..), true, fun m => ?_⟩
    · exact rfl
    · rw [sensorOf, raise_er]
      exact tget_tset ..
  · split
    · exact ⟨rfl, false, fun m => tget_tset ..⟩
    · refine ⟨rfl, (sensorOf s n).warned, fun m => ?_⟩
      split
      · next h => rw [h]
      · rfl

theorem exec_sensorReading_module {s t : State} {n : Nat} {raw : Int} (hn : n < 24) (hpow : s.pw.powered = true) (hst : s.pw.pstate ≠ 6) (hon : sensorOn s n = true)
    (ht : readSensor s n raw = t) (hp : t.pending = s.pending) : exec (.sensorReading (.module n) raw) s = .next t := by
  have hexec : exec (.sensorReading (.module n) raw) s = onUnit s (decide (n < 24)) (readSensor s n raw) := by
    change execSensorReading (.module n) raw s = _
    simp only [execSensorReading, hpow, Bool.not_true, Bool.false_eq_true, if_false, if_neg hst, hon, if_true]
    rfl
  rw [hexec, ht]
  exact onUnit_keep (decide_eq_true hn) hp

/-! ### A reading of a flash die (09 R284, R285) -/

/-- The die with its reading, and the mark that it has been warned of. -/
def readDieAs (lim : Nat) (d : Die) (e : Int) : Die :=
  { d with temp := min 255 (e / 8).toNat, tempWarned := if d.tempWarned then decide ((lim : Int) * 8 - 40 < e) else decide ((lim : Int) * 8 ≤ e) }

/-- An upward crossing is an event, and any reading is recorded. -/
theorem readDie_eq (s : State) (c chip : Nat) (e : Int) :
    readDie s c chip e =
      if (getDie (getCh s c) chip).tempWarned = false ∧ s.fl.ewTemp * 8 ≤ e then
        raise (setCh s c (setDie (getCh s c) chip (readDieAs s.fl.ewTemp (getDie (getCh s c) chip) e))) 0x0045 1 0x7F (engineUnit c chip) c chip (min 255 (e / 8).toNat)
      else setCh s c (setDie (getCh s c) chip (readDieAs s.fl.ewTemp (getDie (getCh s c) chip) e)) := by
  simp only [readDie]
  cases hw : (getDie (getCh s c) chip).tempWarned with
  | false =>
    by_cases hlim : (s.fl.ewTemp : Int) * 8 ≤ e
    · simp [hlim, readDieAs, hw]
    · simp [hlim, readDieAs, hw]
  | true =>
    by_cases hlow : e ≤ (s.fl.ewTemp : Int) * 8 - 40
    · simp [hlow, readDieAs, hw, not_lt.mpr hlow]
    · simp [hlow, readDieAs, hw, not_le.mp hlow]

/-- What a reading of a die leaves: its record, an event where it warns, and nothing else. -/
structure DieRead (s : State) (c chip : Nat) (e : Int) (t : State) : Prop where
  event : DieEvent c s t
  die : getDie (getCh t c) chip = readDieAs s.fl.ewTemp (getDie (getCh s c) chip) e
  nextSeq : t.er.nextSeq = if (getDie (getCh s c) chip).tempWarned = false ∧ s.fl.ewTemp * 8 ≤ e then (s.er.nextSeq + 1) % 2 ^ 32 else s.er.nextSeq

theorem readDie_read (s : State) (c chip : Nat) (e : Int) : DieRead s c chip e (readDie s c chip e) := by
  generalize hx : setCh s c (setDie (getCh s c) chip (readDieAs s.fl.ewTemp (getDie (getCh s c) chip) e)) = x
  have hevent : DieEvent c s x := hx ▸ DieEvent.setDie ..
  have hdie : getDie (getCh x c) chip = readDieAs s.fl.ewTemp (getDie (getCh s c) chip) e := by rw [← hx, getCh_setCh, getDie_setDie]
  have her : x.er = s.er := by rw [← hx, setCh_er]
  rw [readDie_eq, hx]
  by_cases h : (getDie (getCh s c) chip).tempWarned = false ∧ s.fl.ewTemp * 8 ≤ e
  · rw [if_pos h]
    refine ⟨hevent.raise .., ?_, by rw [raise_nextSeq, if_pos h, her]⟩
    rw [getCh_raise]
    exact hdie
  · rw [if_neg h]
    exact ⟨hevent, hdie, by rw [if_neg h, her]⟩

/-! ### The statement -/

/-- Settles O28: by the threshold of the sensor, the die or the input current. -/
theorem sensorsAndTrips : Obligations.SensorsAndTrips := by
  unfold Obligations.SensorsAndTrips
  refine ⟨fun s n raw hn hpow hst hon hlow => ?recorded, fun s n raw hn hpow hst hon htrip => ?trip, fun s c chip e hwf hpow hflash hfit => ?die,
    fun s amps us hpow hamps hus h0 h6 => ?shutdown, fun s amps us hpow hsmall => ?current⟩
  case recorded =>
    obtain ⟨hevent, w, hsensor⟩ := warnSensor_event (withReading s n raw) n (effectiveOf s n raw)
    have hread : readSensor s n raw = warnSensor (withReading s n raw) n (effectiveOf s n raw) := by rw [readSensor_eq, if_neg (not_le.mpr hlow)]
    have hself := hsensor n
    rw [if_pos rfl, sensorOf_withReading, if_pos rfl] at hself
    refine ⟨_, exec_sensorReading_module hn hpow hst hon hread (by rw [hevent]; rfl), by rw [hself], by rw [hself], by rw [hself], fun m hm => ?_, by rw [hevent]; rfl, ?_⟩
    · rw [hsensor m, if_neg hm, sensorOf_withReading, if_neg hm]
    · rw [hevent]
      rfl
  case trip =>
    have hread : readSensor s n raw = thermalTrip (withReading s n raw) n raw := by rw [readSensor_eq, if_pos htrip]
    obtain ⟨er, her, hn', h⟩ := thermalTrip_tripped (withReading s n raw) n raw
    exact ⟨_, exec_sensorReading_module hn hpow hst hon hread h.pending, h.cleared, h.pstate, h.cause, h.thermalTrip.trans her, h.tripSensor.trans hn', h.hostUp⟩
  case die =>
    obtain ⟨⟨hframe, hothers, -⟩, hdie, hseq⟩ := readDie_read s c chip e
    have hexec : exec (.sensorReading (.die c chip) e) s = onUnit s (wellFormed (.sensorReading (.die c chip) e)) (readDie s c chip e) := by
      change execSensorReading (.die c chip) e s = _
      simp only [execSensorReading, hpow, Bool.not_true, Bool.false_eq_true, if_false, hflash, hfit, Bool.and_self, if_true]
    exact ⟨_, hexec.trans (onUnit_keep hwf (by rw [hframe])), hdie, hseq, hothers, hframe⟩
  case shutdown =>
    obtain ⟨t, hexec, er, her, h⟩ := exec_overcurrent_trips hpow ⟨hamps, hus, h0, h6⟩
    exact ⟨t, hexec, h.cleared, h.pstate, h.cause, h.overcurrent.trans her, h.hostUp⟩
  case current => exact exec_overcurrent_small hpow hsmall

end Sys2Proof.Machine
end

section
/-! SUPPORT. Formatting the flash (09 R255, R259 to R262, R267, R293; log entry 42), and the statement about it. -/

namespace Sys2Proof.Machine

open Sys2Proof

/-! ### FORMAT is refused or runs (R259) -/

theorem startFormat_eq (s : State) (confirm : Nat) :
    startFormat s confirm =
      if confirm ≠ 0xF1A5 then failFlash s 5
      else if s.bd.layer = none ∨ s.bd.positions ≠ [] ∨ s.fl.fstate = 3 ∨ s.fl.fstate = 4 then failFlash s 1
      else if geometryOk s (widthOf s.fl.stripeW) s.fl.opPct = false then failFlash s 2
      else if 64 * 10 ^ 12 < rawCapacity s then failFlash s 3
      else { s with fl := { s.fl with fstate := 3, format := some (widthOf s.fl.stripeW, s.fl.opPct, s.fl.fstate) } } := by
  simp only [startFormat, Option.isNone_iff_eq_none, Bool.not_eq_true', List.isEmpty_eq_false_iff]

theorem startFormat_pending (s : State) (confirm : Nat) : (startFormat s confirm).pending = s.pending := by
  rw [startFormat_eq]
  split
  · rfl
  · split
    · rfl
    · split
      · rfl
      · split <;> rfl

/-! ### The factory bad blocks -/

theorem markBad_dies (s : State) (bad : List (Nat × Nat × Nat)) : DieWork s (markBad s bad) ∧ OnlyFlash s (markBad s bad) := by
  refine foldl_keeps (fun x => DieWork s x ∧ OnlyFlash s x) _ ?_ bad s ⟨DieWork.refl s, rfl⟩
  rintro x ⟨c, chip, b⟩ ⟨hdies, hflash⟩
  dsimp only
  split
  · exact ⟨hdies.trans (DieWork.setDies ..), onlyFlash_trans hflash (onlyFlash_setCh ..)⟩
  · exact ⟨hdies, hflash⟩

theorem DieWork.fittedChans {s t : State} (h : DieWork s t) : fittedChans t = fittedChans s := by
  unfold Machine.fittedChans
  exact List.filter_congr fun c _ => by rw [h.chan c]

/-! ### One channel (R259, R267) -/

/-- A channel with every good block of its dies erased. -/
def erasedCh (x : Channel) : Channel := (chipsOf x).foldl eraseDie x

theorem erasedCh_eq (x : Channel) : erasedCh x = { x with dieSt := (erasedCh x).dieSt } := by
  refine foldl_keeps (fun y : Channel => y = { x with dieSt := y.dieSt }) _ ?_ _ _ rfl
  intro y chip h
  rw [h]
  rfl

/-- The emptied channel with its format record. -/
def emptied (s : State) (w op fmt c : Nat) : Channel :=
  { erasedCh (getCh s c) with
    luCount := luOf s w op c, spareAtFormat := dataPages s w c - luOf s w op c, spareLowRaised := false, ckptNum := (erasedCh (getCh s c)).ckptNum + 1,
    ckptTick := s.tempo, since := 0, force := false, dirty := [], nextDie := 0, map := [], free := 0, freed := [], pages := [],
    roots := [], rootBlk := 0, rootPage := 0, segs := [], fmt := some ⟨w, op, fmt⟩ }

/-- The root of an empty channel. -/
def firstRoot (x : Channel) (fmt : Nat) (q : Tab (List Nat)) : Root := { num := x.ckptNum + 1, seq := x.seq, fmtId := fmt, pages := [], queues := q }

theorem formatChannel_eq (s : State) (w op fmt c : Nat) : ∃ q, formatChannel s w op fmt c =
    (chipsOf (erasedCh (getCh s c))).foldl (fun a k => checkWear a c k)
      (appendRoot (setCh (setCh s c (emptied s w op fmt c)) c { emptied s w op fmt c with queue := q }) c (firstRoot (erasedCh (getCh s c)) fmt q)) := by
  simp only [formatChannel, getCh_setCh]
  exact ⟨_, rfl⟩

theorem checkWear_event (s : State) (c chip : Nat) : DieEvent c s (checkWear s c chip) := by
  simp only [checkWear]
  split
  · exact (DieEvent.setDie ..).raise ..
  · exact DieEvent.refl c s

/-- What a format leaves of a channel. -/
structure FreshChannel (w op fmt : Nat) (x y : Channel) : Prop where
  map : y.map = []
  pages : y.pages = []
  ckptNum : y.ckptNum = x.ckptNum + 1
  record : y.fmt = some ⟨w, op, fmt⟩
  roots : ∃ r, y.roots = [r] ∧ r.num = x.ckptNum + 1 ∧ r.seq = x.seq ∧ r.segs = [] ∧ r.supers = [] ∧ r.opens = [] ∧ r.fmtId = fmt

/-- A format's work on channels: their records, the counters, and what is known of bad codewords, besides events. -/
structure ChannelsFormatted (s t : State) : Prop where
  work : FlashWork s t
  fl : t.fl = { s.fl with chans := t.fl.chans, cnt := t.fl.cnt, badCw := t.fl.badCw }
  badCw : ∀ w ∈ t.fl.badCw, w ∈ s.fl.badCw

theorem ChannelsFormatted.trans {a b c : State} (hab : ChannelsFormatted a b) (hbc : ChannelsFormatted b c) : ChannelsFormatted a c where
  work := hab.work.trans hbc.work
  fl := by rw [hbc.fl, hab.fl]
  badCw w hw := hab.badCw w (hbc.badCw w hw)

theorem DieEvent.channelsFormatted {c : Nat} {s t : State} (h : DieEvent c s t) : ChannelsFormatted s t where
  work := h.flashWork
  fl := by rw [h.frame]
  badCw w hw := by rw [h.frame] at hw; exact hw

theorem RootAppended.channelsFormatted {s : State} {c : Nat} {r : Root} {t : State} (h : RootAppended s c r t) : ChannelsFormatted s t where
  work := by unfold FlashWork; rw [h.frame]
  fl := by rw [h.frame]
  badCw := h.badCw

theorem formatChannel_formatted (s : State) (w op fmt c : Nat) :
    ChannelsFormatted s (formatChannel s w op fmt c) ∧ (∀ k, k ≠ c → getCh (formatChannel s w op fmt c) k = getCh s k)
      ∧ FreshChannel w op fmt (getCh s c) (getCh (formatChannel s w op fmt c) c) := by
  obtain ⟨q, hq⟩ := formatChannel_eq s w op fmt c
  have hwear : ∀ x, DieEvent c x ((chipsOf (erasedCh (getCh s c))).foldl (fun a k => checkWear a c k) x) := fun x =>
    foldl_keeps (DieEvent c x) _ (fun y k h => h.trans (checkWear_event ..)) _ x (DieEvent.refl c x)
  generalize hx : setCh (setCh s c (emptied s w op fmt c)) c { emptied s w op fmt c with queue := q } = x at hq
  have hxc : getCh x c = { emptied s w op fmt c with queue := q } := by rw [← hx, getCh_setCh]
  have hset : ChannelsFormatted s x := by rw [← hx]; exact ⟨rfl, rfl, fun _ h => h⟩
  have hroot := appendRoot_appended x c (firstRoot (erasedCh (getCh s c)) fmt q)
  generalize appendRoot x c (firstRoot (erasedCh (getCh s c)) fmt q) = y at hq hroot
  have hevent := hwear y
  rw [← hq] at hevent
  refine ⟨(hset.trans hroot.channelsFormatted).trans hevent.channelsFormatted, fun k hk => ?_, ?_⟩
  · rw [hevent.others k hk, hroot.others k hk, ← hx, getCh_setCh_other _ _ hk, getCh_setCh_other _ _ hk]
  · obtain ⟨keys, rest, hroots, hrest⟩ := hroot.roots
    have hnone : rest = [] := List.eq_nil_iff_forall_not_mem.mpr fun r hr => by simpa [hxc, emptied] using hrest r hr
    have hpages : (getCh y c).pages = [] := List.eq_nil_iff_forall_not_mem.mpr fun e he => by simpa [hxc, emptied] using hroot.pages e he
    have hchan := hroot.chan
    rw [hxc, emptied, erasedCh_eq] at hchan
    have hfirst : firstRoot (erasedCh (getCh s c)) fmt q = firstRoot (getCh s c) fmt q := by rw [erasedCh_eq]; rfl
    rw [hnone, hfirst] at hroots
    have hfinal := hevent.chan
    refine ⟨?_, ?_, ?_, ?_, { firstRoot (getCh s c) fmt q with pages := keys }, ?_, rfl, rfl, rfl, rfl, rfl, rfl⟩
    · rw [hfinal, hchan]
    · rw [hfinal]; exact hpages
    · rw [hfinal, hchan]
    · rw [hfinal, hchan]
    · rw [hfinal]; exact hroots

/-- Every channel of the list is formatted, and no other is touched. -/
theorem formatChannels (w op fmt : Nat) (l : List Nat) (hl : l.Nodup) (s : State) :
    ChannelsFormatted s (l.foldl (fun a c => formatChannel a w op fmt c) s) ∧ (∀ k, k ∉ l → getCh (l.foldl (fun a c => formatChannel a w op fmt c) s) k = getCh s k)
      ∧ ∀ c ∈ l, FreshChannel w op fmt (getCh s c) (getCh (l.foldl (fun a c => formatChannel a w op fmt c) s) c) := by
  induction l generalizing s with
  | nil => exact ⟨⟨rfl, rfl, fun _ h => h⟩, fun _ _ => rfl, fun _ h => nomatch h⟩
  | cons c l ih =>
    obtain ⟨hc, hl⟩ := List.nodup_cons.mp hl
    obtain ⟨hwork, hothers, hfresh⟩ := formatChannel_formatted s w op fmt c
    obtain ⟨ihwork, ihothers, ihfresh⟩ := ih hl (formatChannel s w op fmt c)
    rw [List.foldl_cons]
    refine ⟨hwork.trans ihwork, fun k hk => ?_, fun k hk => ?_⟩
    · obtain ⟨hkc, hkl⟩ := not_or.mp (mt List.mem_cons.mpr hk)
      rw [ihothers k hkl, hothers k hkc]
    · rcases List.mem_cons.mp hk with rfl | hk
      · rw [ihothers k hc]
        exact hfresh
      · have hne : k ≠ c := fun h => hc (h ▸ hk)
        rw [← hothers k hne]
        exact ihfresh k hk

/-! ### The end of a format -/

/-- What the base layer asks of T3. -/
def neededT3 (s : State) : Nat := match s.bd.layer with | some b => b.capT3 | none => 0

/-- The capacity that a format would give. -/
def formatCapacity (s : State) (w op : Nat) : Nat := ((fittedChans s).map (fun c => luOf s w op c * pageBytes)).sum

/-- The flash block as the format's erasures start. -/
def formatBegun (s : State) (w op : Nat) : State :=
  { (draw s).2 with fl := { (draw s).2.fl with supers := [], superNum := [], badCw := [], retained := [], fmtW := w, fmtOp := op, fmtId := Config.fmtId s.freeCtr } }

/-- The flash in service, with no T3 object left. -/
def formatEnded (s : State) (n : Nat) : State :=
  let s1 := setObjs (cntFl s 6 n) ((cntFl s 6 n).ms.objs.filter (fun o => o.tier != 3))
  { s1 with fl := { s1.fl with fstate := 5, done := true, err := 0, format := none } }

theorem formatBegun_frame {s x : State} (h : OnlyFlash s x) (w op : Nat) :
    formatBegun x w op = { s with freeCtr := s.freeCtr + 1, fl := (formatBegun x w op).fl } := by
  rw [h]
  rfl

theorem formatEnded_frame (s : State) (n : Nat) :
    formatEnded s n = { s with ms := { s.ms with objs := s.ms.objs.filter (fun o => o.tier != 3) }, fl := (formatEnded s n).fl } := rfl

theorem endFormat_small {s : State} {w op prior : Nat} {bad : List (Nat × Nat × Nat)} (h : formatCapacity (markBad s bad) w op < neededT3 s) :
    endFormat s w op prior bad = failFlash { s with fl := { s.fl with fstate := prior, format := none } } 3 := by
  unfold endFormat
  exact if_pos h

theorem endFormat_ok {s : State} {w op prior : Nat} {bad : List (Nat × Nat × Nat)} (h : neededT3 s ≤ formatCapacity (markBad s bad) w op) :
    ∃ n, endFormat s w op prior bad = serveFlash (formatEnded
      ((fittedChans (markBad s bad)).foldl (fun a c => formatChannel a w op (Config.fmtId (markBad s bad).freeCtr) c) (formatBegun (markBad s bad) w op)) n) := by
  refine ⟨((fittedChans (markBad s bad)).map (fun c => erasedBlocks (getCh (markBad s bad) c))).sum, ?_⟩
  unfold endFormat
  exact if_neg (Nat.not_lt.mpr h)

/-- Where nothing waits for the flash, nothing is served. -/
theorem serveFlash_idle {s : State} (h : s.fab.flashHeld = []) : serveFlash s = s := by
  have hfab : { s.fab with flashHeld := [] } = s.fab := by rw [← h]
  rw [serveFlash, h, List.foldl_nil, hfab]

theorem exec_formatEnd {s t : State} {bad : List (Nat × Nat × Nat)} {w op prior : Nat} (hfmt : s.fl.format = some (w, op, prior))
    (ht : endFormat s w op prior bad = t) (hp : t.pending = s.pending) : exec (.formatEnd bad) s = .next t := by
  have hexec : exec (.formatEnd bad) s = onUnit s true (endFormat s w op prior bad) := by
    change execFormatEnd bad s = _
    simp only [execFormatEnd, hfmt]
  rw [hexec, ht]
  exact onUnit_keep rfl hp

/-! ### The statement -/

/-- Settles O32: the first failing check of FORMAT, and what its end leaves. -/
theorem formatOfTheFlash : Obligations.FormatOfTheFlash := by
  unfold Obligations.FormatOfTheFlash
  refine ⟨fun s v hbar hv => ?start, fun s bad w op prior need cap hfmt hneed hcap => ⟨fun hsmall => ?small, fun hfits hheld => ?fits⟩⟩
  case start =>
    change onUnit s true (pfWrite s 0 0x700018 _) = _
    rw [pfWrite_full _ _ hbar, hv, if_pos rfl]
    exact (onUnit_keep rfl (startFormat_pending ..)).trans (congrArg _ (startFormat_eq ..))
  case small =>
    have hlow : formatCapacity (markBad s bad) w op < neededT3 s := by rw [hcap, hneed] at hsmall; exact hsmall
    exact exec_formatEnd hfmt (endFormat_small hlow) rfl
  case fits =>
    have hhigh : neededT3 s ≤ formatCapacity (markBad s bad) w op := by rw [hcap, hneed] at hfits; exact hfits
    obtain ⟨hdies, hflash⟩ := markBad_dies s bad
    obtain ⟨n, hend⟩ := endFormat_ok (prior := prior) hhigh
    have hchans := formatChannels w op (Config.fmtId (markBad s bad).freeCtr) (fittedChans (markBad s bad)) (List.nodup_range.filter _) (formatBegun (markBad s bad) w op)
    generalize (fittedChans (markBad s bad)).foldl _ _ = u at hend hchans
    obtain ⟨⟨hwork, hfl, hbad⟩, -, hfresh⟩ := hchans
    have hctr : (markBad s bad).freeCtr = s.freeCtr := by rw [hflash]
    rw [hctr] at hfresh
    have hframe : formatEnded u n = { s with
        fl := (formatEnded u n).fl, ms := { s.ms with objs := (formatEnded u n).ms.objs }, freeCtr := s.freeCtr + 1,
        er := u.er, pw := { s.pw with alertN := u.pw.alertN }, qe := { s.qe with msix := u.qe.msix }, out := u.out } := by
      rw [formatEnded_frame, hwork, formatBegun_frame hflash]
    have hobjs : (formatEnded u n).ms.objs = s.ms.objs.filter (fun o => o.tier != 3) := by
      rw [formatEnded_frame, hwork, formatBegun_frame hflash]
    have hfab : (formatEnded u n).fab = s.fab := by rw [hframe]
    rw [serveFlash_idle (by rw [hfab, hheld])] at hend
    have hid : (formatEnded u n).fl.fmtId = Config.fmtId s.freeCtr := hctr ▸ (congrArg FlSt.fmtId hfl :)
    refine ⟨_, exec_formatEnd hfmt hend (by rw [hframe]), (congrArg FlSt.fmtW hfl :), (congrArg FlSt.fmtOp hfl :), hid, rfl, rfl, rfl, rfl, (congrArg FlSt.supers hfl :),
      List.eq_nil_iff_forall_not_mem.mpr fun x hx => (nomatch hbad x hx), (congrArg FlSt.retained hfl :), hobjs, fun c hc => ?_, hframe⟩
    obtain ⟨hmap, hpages, hnum, hrecord, hroots⟩ := hfresh c (by rw [hdies.fittedChans]; exact hc)
    have hbefore : getCh (formatBegun (markBad s bad) w op) c = getCh (markBad s bad) c := rfl
    rw [hbefore, hdies.chan c] at hnum hroots
    rw [hid]
    exact ⟨hmap, hpages, hnum, hrecord, hroots⟩

end Sys2Proof.Machine
end

section
/-! SUPPORT. The parity of a stripe, its closing, and a failed program (09 R274 to R277), and the statement about them. -/

namespace Sys2Proof.Machine

open Sys2Proof

/-- A fold whose steps leave the state as it is. -/
theorem foldl_fixed_mem {α β : Type} {f : β → α → β} {x : β} (l : List α) (h : ∀ a ∈ l, f x a = x) : l.foldl f x = x := by
  induction l with
  | nil => rfl
  | cons a l ih =>
    rw [List.foldl_cons, h a (List.mem_cons_self ..)]
    exact ih fun b hb => h b (List.mem_cons_of_mem _ hb)

/-! ### Pages in a channel's table -/

/-- A page just programmed is found as it was given. -/
theorem findPage_storePage (s : State) (c key kind m lu sb : Nat) (data : Mem) (hx : List Byte) :
    ∃ p, findPage (storePage s c key kind m lu sb data hx) c key = some p ∧ p.kind = kind ∧ p.lu = lu ∧ p.sb = sb ∧ p.data = data ∧ p.hdrXor = hx := by
  have hch : ∃ p, (getCh (storePage s c key kind m lu sb data hx) c).pages = tset (getCh s c).pages key p
      ∧ p.kind = kind ∧ p.lu = lu ∧ p.sb = sb ∧ p.data = data ∧ p.hdrXor = hx :=
    ⟨_, congrArg Channel.pages (getCh_setCh s c _), rfl, rfl, rfl, rfl, rfl⟩
  obtain ⟨p, hpages, hp⟩ := hch
  exact ⟨p, by rw [findPage, hpages, find_tset], hp⟩

theorem findPage_congr {s t : State} {c : Nat} (h : (getCh t c).pages = (getCh s c).pages) (key : Nat) : findPage t c key = findPage s c key := by
  rw [findPage, findPage, h]

theorem findPage_putSuper (s : State) (x : Super) (c key : Nat) : findPage (putSuper s x) c key = findPage s c key := rfl

theorem find_tdel {β : Type} (t : Tab β) (k : Nat) : (tdel t k).find? (fun e => e.1 == k) = none := by
  simp [tdel]

/-! ### The parity page (R274) -/

/-- The parity page of a protected stripe, before the superblock is noted to have it. -/
theorem closeParity_protected {s : State} {x : Super} (h : x.closed < x.unprotectedFrom) : ∃ y, closeParity s x =
    putSuper (storePage s (s.fl.fmtW * x.g + parityMember s.fl.fmtW x) (memberKey s s.fl.fmtW x (parityMember s.fl.fmtW x) x.closed) 1 (parityMember s.fl.fmtW x) noLu x.num
      ((stripePages s s.fl.fmtW x x.closed).foldl (fun a q => memXor a q.data) [])
      ((stripePages s s.fl.fmtW x x.closed).foldl (fun a q => xorBytes a (headerBytes q)) (zeros 64))) y := by
  simp only [closeParity, if_neg (Nat.not_le.mpr h)]
  exact ⟨_, rfl⟩

/-! ### Closing a stripe (R275) -/

/-- A member that has reached the stripe, or is ABSENT there, needs no PAD page. -/
theorem padMember_reached {s : State} {x : Super} {m : Nat} (hfind : findSuper s x.g x.d x.num = some x)
    (h : x.closed < memberNext x m ∨ memberAbsent x m ≤ memberNext x m) (n : Nat) : padMember (n + 1) s x.g x.d x.num m x.closed = s := by
  have hpad : ¬(memberNext x m ≤ x.closed ∧ memberNext x m < memberAbsent x m) := by omega
  simp only [padMember, hfind, if_neg hpad]

theorem closeOldest_reached {s : State} {x : Super} (hfind : findSuper s x.g x.d x.num = some x) (hopen : openStripes x ≠ 0)
    (h : ∀ m ∈ dataMembers s.fl.fmtW x, x.closed < memberNext x m ∨ memberAbsent x m ≤ memberNext x m) : closeOldest s x = closeParity s x := by
  have hpad : (dataMembers s.fl.fmtW x).foldl (fun a m => padMember (x.closed + 1) a x.g x.d x.num m x.closed) s = s :=
    foldl_fixed_mem _ fun m hm => padMember_reached hfind (h m hm) _
  simp only [closeOldest, hpad, hfind, true_and, if_pos hopen]

theorem exec_stripeCloseTimer {s : State} {g d : Nat} {x : Super} (hg : g < 64) (hd : d < 9) (hready : flashReady s = true) (hx : oldestOpen s g d = some x)
    (hdue : closeTicks s ≤ s.tempo - x.opened.headD 0) : exec (.stripeCloseTimer g d) s = .next (closeOldest s x) := by
  have hexec : exec (.stripeCloseTimer g d) s = onUnit s (wellFormed (.stripeCloseTimer g d)) (closeOldest s x) := by
    change execStripeCloseTimer g d s = _
    simp only [execStripeCloseTimer, hx, hready, decide_eq_true hdue, Bool.and_self, if_true]
  rw [hexec]
  exact onUnit_keep (Bool.and_eq_true_iff.mpr ⟨decide_eq_true hg, decide_eq_true hd⟩) (by rw [onlyFlash_closeOldest s x])

/-! ### A failed program (R277) -/

/-- The failed page is gone from the medium, and counted. -/
def pageGone (s : State) (c key : Nat) : State := cntFl (setCh s c { getCh s c with pages := tdel (getCh s c).pages key }) 5 1

/-- And logged. -/
def pageLost (s : State) (c chip page : Nat) : State := errEvent (pageGone s c (pageKey chip page)) 7 0x0031 0x7F (engineUnit c chip) page page 0 0

theorem pageLost_fl (s : State) (c chip page : Nat) : (pageLost s c chip page).fl = (pageGone s c (pageKey chip page)).fl := errEvent_fl ..

theorem findPage_pageLost (s : State) (c chip page : Nat) : findPage (pageLost s c chip page) c (pageKey chip page) = none := by
  have hpages : (getCh (pageLost s c chip page) c).pages = tdel (getCh s c).pages (pageKey chip page) := by
    rw [getCh, pageLost_fl]
    exact congrArg Channel.pages (getCh_setCh s c _)
  rw [findPage, hpages, find_tdel, Option.map_none]

theorem pageLost_counted (s : State) (c chip page : Nat) : tget 0 (pageLost s c chip page).fl.cnt 5 = satAdd 64 (tget 0 s.fl.cnt 5) 1 := by
  rw [pageLost_fl]
  exact tget_tset_same ..

theorem pageLost_frame (s : State) (c chip page : Nat) : pageLost s c chip page = { s with
    fl := { s.fl with chans := (pageLost s c chip page).fl.chans, cnt := (pageLost s c chip page).fl.cnt }, er := (pageLost s c chip page).er,
    pw := { s.pw with alertN := (pageLost s c chip page).pw.alertN }, qe := { s.qe with msix := (pageLost s c chip page).qe.msix }, out := (pageLost s c chip page).out } := by
  have hevent : EventWork (pageGone s c (pageKey chip page)) (pageLost s c chip page) := eventWork_errEvent ..
  unfold EventWork at hevent
  rw [hevent]
  rfl

section programFail
variable {s : State} {c chip page m k : Nat} {x : Super} {p : Page} (hstripe : stripeOf s c chip page = some (x, m, k)) (hpage : findPage s c (pageKey chip page) = some p)
  (hlast : memberNext x m = k + 1)
include hstripe hpage hlast

theorem programFailed_eq : programFailed s c chip page =
    if m = parityMember s.fl.fmtW x then parityFailed (pageLost s c chip page) x k else dataFailed (pageLost s c chip page) x m k p c x.d := by
  simp only [programFailed, hstripe, hpage, hlast, ne_eq, not_true, if_false]
  rfl

variable (hc : c < 64) (hchip : chip < 9)
include hc hchip

theorem exec_programFail_parity (hm : m = parityMember s.fl.fmtW x) : exec (.programFail c chip page) s = .next (parityFailed (pageLost s c chip page) x k) := by
  have hok : wellFormed (.programFail c chip page) = true := Bool.and_eq_true_iff.mpr ⟨decide_eq_true hc, decide_eq_true hchip⟩
  have hexec : exec (.programFail c chip page) s = onUnit s (wellFormed (.programFail c chip page)) (programFailed s c chip page) := rfl
  rw [hexec, programFailed_eq hstripe hpage hlast, if_pos hm]
  refine onUnit_keep hok ?_
  change (pageLost s c chip page).pending = s.pending
  rw [pageLost_frame]

theorem exec_programFail_data (hm : m ≠ parityMember s.fl.fmtW x) :
    exec (.programFail c chip page) s = .next { dataFailed (pageLost s c chip page) x m k p c x.d with pending := s.pending } := by
  have hok : wellFormed (.programFail c chip page) = true := Bool.and_eq_true_iff.mpr ⟨decide_eq_true hc, decide_eq_true hchip⟩
  have hexec : exec (.programFail c chip page) s = onUnit s (wellFormed (.programFail c chip page)) (programFailed s c chip page) := rfl
  rw [hexec, programFailed_eq hstripe hpage hlast, if_neg hm]
  exact onUnit_ok hok

end programFail

/-! ### The statement -/

/-- Settles O34: what the parity page holds, what closes a stripe, and what a failed page leaves. -/
theorem stripeParityAndProgramFailure : Obligations.StripeParityAndProgramFailure := by
  unfold Obligations.StripeParityAndProgramFailure
  refine ⟨fun s x h => ?parity, fun s g d x hg hd hready hx hdue => ?timer,
    fun s c chip page m k x p hc hchip hstripe hpage hlast => ⟨fun hm => ?parityFail, fun hm => ?dataFail⟩⟩
  case parity =>
    obtain ⟨y, hy⟩ := closeParity_protected h
    rw [hy, findPage_putSuper]
    exact findPage_storePage ..
  case timer =>
    refine ⟨_, exec_stripeCloseTimer hg hd hready hx hdue, fun hfind hopen h => ?_, onlyFlash_closeOldest s x⟩
    rw [closeOldest_reached hfind hopen h, onlyFlash_closeParity s x]
  case parityFail =>
    refine ⟨_, exec_programFail_parity hstripe hpage hlast hc hchip hm, findPage_pageLost s c chip page, pageLost_counted s c chip page, ?_, ?_⟩
    · change (pageLost s c chip page).fl.supers.map _ = _
      rw [pageLost_fl]
      rfl
    · have hframe := pageLost_frame s c chip page
      unfold parityFailed putSuper setSupers
      rw [hframe]
  case dataFail =>
    exact ⟨pageLost s c chip page, findPage_pageLost .., pageLost_counted .., pageLost_frame .., exec_programFail_data hstripe hpage hlast hc hchip hm⟩

end Sys2Proof.Machine
end

section
/-! SUPPORT. Failed erasures, dies that are not ready, codeword reads and their window (09 R270 to R272, R281, R284, R285), and the statement about them. -/

namespace Sys2Proof.Machine

open Sys2Proof

/-! ### Marks of a channel's health (R284, R285) -/

/-- Only marks of what has been raised have changed on the channels: no block and no count of retired ones, no counter, and besides them what raising events changes. -/
structure HealthMarks (s t : State) : Prop where
  frame : t = { s with fl := { s.fl with chans := t.fl.chans }, er := t.er, pw := { s.pw with alertN := t.pw.alertN }, qe := { s.qe with msix := t.qe.msix }, out := t.out }
  blocks : ∀ k chip, (getDie (getCh t k) chip).blocks = (getDie (getCh s k) chip).blocks
  retired : ∀ k chip, (getDie (getCh t k) chip).retired = (getDie (getCh s k) chip).retired
  noted : t.er.retired = s.er.retired

namespace HealthMarks

theorem refl (s : State) : HealthMarks s s := ⟨rfl, fun _ _ => rfl, fun _ _ => rfl, rfl⟩

theorem trans {a b c : State} (hab : HealthMarks a b) (hbc : HealthMarks b c) : HealthMarks a c where
  frame := by rw [hbc.frame, hab.frame]
  blocks k chip := (hbc.blocks k chip).trans (hab.blocks k chip)
  retired k chip := (hbc.retired k chip).trans (hab.retired k chip)
  noted := hbc.noted.trans hab.noted

theorem raise (s : State) (code cls t u a b c : Nat) : HealthMarks s (raise s code cls t u a b c) where
  frame := by
    obtain ⟨er, al, mx, out, hraise⟩ := raise_frame s code cls t u a b c
    rw [hraise]
  blocks k chip := by rw [getCh_raise]
  retired k chip := by rw [getCh_raise]
  noted := (congrArg ErSt.retired (raise_er s code cls t u a b c) :)

/-- A channel with the dies that it had. -/
theorem setCh (s : State) (c : Nat) {v : Channel} (h : v.dieSt = (getCh s c).dieSt) : HealthMarks s (setCh s c v) where
  frame := rfl
  blocks k chip := setCh_keeps (fun x => (getDie x chip).blocks) (congrArg (fun ds => (tget {} ds chip : Die).blocks) h) k
  retired k chip := setCh_keeps (fun x => (getDie x chip).retired) (congrArg (fun ds => (tget {} ds chip : Die).retired) h) k
  noted := rfl

theorem setDie (s : State) (c chip : Nat) {d : Die} (hblocks : d.blocks = (getDie (getCh s c) chip).blocks) (hretired : d.retired = (getDie (getCh s c) chip).retired) :
    HealthMarks s (Machine.setCh s c (setDie (getCh s c) chip d)) where
  frame := rfl
  blocks k j := setCh_keeps (fun x => (getDie x j).blocks) (by
    rw [getDie_setDie_if]
    split
    · next hj => rw [hblocks, hj]
    · rfl) k
  retired k j := setCh_keeps (fun x => (getDie x j).retired) (by
    rw [getDie_setDie_if]
    split
    · next hj => rw [hretired, hj]
    · rfl) k
  noted := rfl

theorem degrade (s : State) (c chip : Nat) (notReady : Bool) : HealthMarks s (degrade s c chip notReady) := by
  simp only [Machine.degrade]
  split
  · exact refl s
  · refine (setDie s c chip ?_ ?_).trans (raise ..) <;> rfl

theorem checkSpare (s : State) (g : Nat) : HealthMarks s (checkSpare s g) := by
  refine foldl_keeps (HealthMarks s) _ ?_ _ s (refl s)
  intro x c h
  dsimp only
  split
  · refine (h.trans (setCh x c ?_)).trans (raise ..)
    rfl
  · exact h

end HealthMarks

/-! ### A die that is degraded (R284) -/

theorem degrade_degraded {s : State} {c chip : Nat} (h : (getDie (getCh s c) chip).degraded = true) (notReady : Bool) : degrade s c chip notReady = s := by
  simp only [degrade, h, if_true]

theorem degrade_event (s : State) (c chip : Nat) (notReady : Bool) :
    DieEvent c s (degrade s c chip notReady) ∧ (getDie (getCh (degrade s c chip notReady) c) chip).degraded = true := by
  cases h : (getDie (getCh s c) chip).degraded with
  | true =>
    rw [degrade_degraded h]
    exact ⟨DieEvent.refl c s, h⟩
  | false =>
    simp only [degrade, h, Bool.false_eq_true, if_false]
    refine ⟨(DieEvent.setDie ..).raise .., ?_⟩
    rw [getCh_raise, getCh_setCh, getDie_setDie]

/-! ### A block that fails to erase (R281) -/

/-- The die with the block bad, and counted. -/
def retiredDie (d : Die) (b : Nat) : Die :=
  { d with blocks := tset d.blocks b { tget {} d.blocks b with bad := true }, retired := d.retired + 1 }

/-- The block is bad from now on; that one has been retired is noted. -/
def blockBad (s : State) (c chip b : Nat) : State :=
  let s1 := cntFl (setCh s c (setDie (setBlock (getCh s c) chip b { getBlock (getCh s c) chip b with bad := true }) chip (retiredDie (getDie (getCh s c) chip) b))) 7 1
  { s1 with er := { s1.er with retired := true } }

theorem blockBad_frame (s : State) (c chip b : Nat) : ∃ chans er, blockBad s c chip b = { s with fl := { s.fl with chans := chans, cnt := bump s.fl.cnt 7 1 }, er := er } :=
  ⟨_, _, rfl⟩

theorem getDie_blockBad (s : State) (c chip b : Nat) : getDie (getCh (blockBad s c chip b) c) chip = retiredDie (getDie (getCh s c) chip) b := by
  have hch : getCh (blockBad s c chip b) c = setDie (setBlock (getCh s c) chip b { getBlock (getCh s c) chip b with bad := true }) chip (retiredDie (getDie (getCh s c) chip) b) :=
    getCh_setCh ..
  rw [hch, getDie_setDie]

theorem retireBlock_marks (s : State) (c chip b : Nat) : HealthMarks (blockBad s c chip b) (retireBlock s c chip b) := by
  have hdie : getDie (setBlock (getCh s c) chip b { getBlock (getCh s c) chip b with bad := true }) chip
      = { getDie (getCh s c) chip with blocks := tset (getDie (getCh s c) chip).blocks b { getBlock (getCh s c) chip b with bad := true } } := getDie_setDie ..
  have hraised : HealthMarks (blockBad s c chip b) (raise (blockBad s c chip b) 0x0043 3 0x7F (engineUnit c chip) c chip b) := HealthMarks.raise ..
  simp only [retireBlock, hdie]
  split
  · exact (hraised.trans (HealthMarks.degrade ..)).trans (HealthMarks.checkSpare ..)
  · exact hraised.trans (HealthMarks.checkSpare ..)

theorem exec_eraseFail {s t : State} {c chip b : Nat} (hc : c < 64) (hchip : chip < 9) (hw : s.fl.fmtW ≠ 0) (hfit : dieFitted s c chip = true) (hb : b ∈ freeBlocks s c chip)
    (ht : retireBlock s c chip b = t) (hp : t.pending = s.pending) : exec (.eraseFail c chip b) s = .next t := by
  have hexec : exec (.eraseFail c chip b) s = onUnit s (wellFormed (.eraseFail c chip b)) (retireBlock s c chip b) := by
    change execEraseFail c chip b s = _
    simp only [execEraseFail, decide_eq_true hw, hfit, List.contains_iff_mem.mpr hb, Bool.and_self, if_true]
  rw [hexec, ht]
  exact onUnit_keep (Bool.and_eq_true_iff.mpr ⟨decide_eq_true hc, decide_eq_true hchip⟩) hp

/-! ### One codeword (R270 to R272) -/

theorem pageKey_chip {chip page : Nat} (h : page < 2 ^ 23) : pageKey chip page / 2 ^ 23 = chip := by unfold pageKey; omega

/-- The medium's state of a codeword as it has been set. -/
theorem cwSet_setCw (s : State) (c key j set : Nat) : cwSet (setCw s c key j set) c key j = set := by
  have hold : (s.fl.badCw.filter (fun b => !(b.1 == c && b.2.1 == key && b.2.2.1 == j))).find? (fun b => b.1 == c && b.2.1 == key && b.2.2.1 == j) = none := by
    rw [List.find?_eq_none]
    intro b hb
    have h := (List.mem_filter.mp hb).2
    rw [Bool.not_eq_true'] at h
    rw [h]
    exact Bool.false_ne_true
  by_cases h : set = 0
  · subst h
    simp only [cwSet, setCw, if_true, hold]
  · simp only [cwSet, setCw, if_neg h, List.find?_append, hold, Option.none_or, List.find?_cons, beq_self_eq_true, Bool.and_self]

/-- A codeword is read once: its die's window, the counters of reads and of retries, and no other counter and no other channel. -/
structure ReadOnce (s : State) (c chip set : Nat) (t : State) : Prop where
  reads : (getDie (getCh t c) chip).reads = (getDie (getCh s c) chip).reads + 1
  retries : (getDie (getCh t c) chip).retries = (getDie (getCh s c) chip).retries + (if set = 0 then 0 else 1)
  counted : tget 0 t.fl.cnt 0 = satAdd 64 (tget 0 s.fl.cnt 0) 1
  retried : tget 0 t.fl.cnt 1 = if set = 0 then tget 0 s.fl.cnt 1 else satAdd 64 (tget 0 s.fl.cnt 1) 1
  otherCnt : ∀ k, k ≠ 0 → k ≠ 1 → tget 0 t.fl.cnt k = tget 0 s.fl.cnt k
  others : ∀ k, k ≠ c → getCh t k = getCh s k

theorem readRaw_once (s : State) (c key j : Nat) : ReadOnce s c (key / 2 ^ 23) (cwSet s c key j) (readRaw s c key j).1 := by
  have hcount : ReadOnce s c (key / 2 ^ 23) 0 (countReads s c (key / 2 ^ 23) 1) := by
    have hdie : getDie (getCh (countReads s c (key / 2 ^ 23) 1) c) (key / 2 ^ 23) = { getDie (getCh s c) (key / 2 ^ 23) with reads := (getDie (getCh s c) (key / 2 ^ 23)).reads + 1 } :=
      (congrArg (getDie · _) (getCh_setCh ..)).trans (getDie_setDie ..)
    exact ⟨by rw [hdie], by rw [hdie]; rfl, tget_tset_same .., tget_tset_other _ _ _ (by decide), fun k h0 _ => tget_tset_other _ _ _ h0, fun k hk => getCh_setCh_other _ _ hk⟩
  cases hset : cwSet s c key j with
  | zero =>
    simp only [readRaw, hset]
    exact hcount
  | succ n =>
    simp only [readRaw, hset]
    generalize countReads s c (key / 2 ^ 23) 1 = x at hcount
    have hdie : getDie (getCh (countRetry x c (key / 2 ^ 23) (min (n + 1) 15)) c) (key / 2 ^ 23)
        = { getDie (getCh x c) (key / 2 ^ 23) with retries := (getDie (getCh x c) (key / 2 ^ 23)).retries + 1 } :=
      (congrArg (getDie · _) (getCh_setCh ..)).trans (getDie_setDie ..)
    obtain ⟨hreads, hretries, hcounted, hretried, hcnt, hothers⟩ := hcount
    rw [if_pos rfl] at hretries hretried
    refine ⟨by rw [hdie]; exact hreads, by rw [hdie]; exact congrArg (· + 1) hretries, ?_, ?_, fun k h0 h1 => ?_, fun k hk => ?_⟩
    · exact (tget_tset_other _ _ _ (by decide)).trans hcounted
    · rw [if_neg (Nat.succ_ne_zero n), ← hretried]
      exact tget_tset_same ..
    · exact (tget_tset_other _ _ _ h1).trans (hcnt k h0 h1)
    · exact (getCh_setCh_other _ _ hk).trans (hothers k hk)

theorem readCw_decodes {s : State} {c key j : Nat} (h : cwLost s c key j = false) : (readCw s c key j).1 = (readRaw s c key j).1 := by
  have hok : (readRaw s c key j).2 = true := by rw [readRaw_ok, h]; rfl
  simp only [readCw, hok, if_true]

theorem readCw_lost {s : State} {c key j : Nat} (h : cwLost s c key j = true) : readCw s c key j = rebuildCw (readRaw s c key j).1 c key j := by
  have hok : (readRaw s c key j).2 = false := by rw [readRaw_ok, h]; rfl
  simp only [readCw, hok, Bool.false_eq_true, if_false]

/-! ### The rebuild step (R271) -/

theorem stripeOf_some {s : State} {c chip page m k : Nat} {x : Super} (h : stripeOf s c chip page = some (x, m, k)) : m = c % s.fl.fmtW ∧ x.g = c / s.fl.fmtW := by
  simp only [stripeOf] at h
  split at h
  · cases h
  · obtain ⟨y, hy, he⟩ := Option.map_eq_some_iff.mp h
    injection he with hx he
    injection he with hm hk
    subst hx
    have hfound := List.find?_some hy
    simp only [Bool.and_eq_true, beq_iff_eq] at hfound
    exact ⟨hm.symm, hfound.1.1⟩

/-- The other pages of a page's stripe lie on other channels. -/
theorem otherPages_channel {s : State} {c chip page m k : Nat} {x : Super} (h : stripeOf s c chip page = some (x, m, k)) : ∀ p ∈ otherPages s x m k, p.1 ≠ c := by
  obtain ⟨hm, hg⟩ := stripeOf_some h
  intro p hp hpc
  obtain ⟨o, ho, rfl⟩ := List.mem_map.mp hp
  have hne : o ≠ m := by
    have hcond := (List.mem_filter.mp ho).2
    simp only [Bool.and_eq_true, bne_iff_ne] at hcond
    exact hcond.1.1
  have hsplit := Nat.div_add_mod c s.fl.fmtW
  rw [← hg, ← hm] at hsplit
  exact hne (Nat.add_left_cancel (hpc.trans hsplit.symm))

theorem readEach_other {j : Nat} {c : Nat} (l : List (Nat × Nat)) (hl : ∀ p ∈ l, p.1 ≠ c) (s : State) :
    getCh (readEach j s l).1 c = getCh s c ∧ ∀ k, k ≠ 0 → k ≠ 1 → tget 0 (readEach j s l).1.fl.cnt k = tget 0 s.fl.cnt k := by
  induction l generalizing s with
  | nil => exact ⟨rfl, fun _ _ _ => rfl⟩
  | cons p l ih =>
    have honce := readRaw_once s p.1 p.2 j
    have hch : getCh (readRaw s p.1 p.2 j).1 c = getCh s c := honce.others c (hl p (List.mem_cons_self ..)).symm
    simp only [readEach]
    split
    · obtain ⟨ihch, ihcnt⟩ := ih (fun q hq => hl q (List.mem_cons_of_mem _ hq)) (readRaw s p.1 p.2 j).1
      exact ⟨ihch.trans hch, fun k h0 h1 => (ihcnt k h0 h1).trans (honce.otherCnt k h0 h1)⟩
    · exact ⟨hch, honce.otherCnt⟩

/-- A rebuild reads other channels alone, and counts itself where it succeeds. -/
theorem rebuildCw_counts (s : State) (c key j : Nat) :
    getCh (rebuildCw s c key j).1 c = getCh s c
      ∧ tget 0 (rebuildCw s c key j).1.fl.cnt 2 = (if (rebuildCw s c key j).2.isSome then satAdd 64 (tget 0 s.fl.cnt 2) 1 else tget 0 s.fl.cnt 2)
      ∧ tget 0 (rebuildCw s c key j).1.fl.cnt 3 = tget 0 s.fl.cnt 3 := by
  simp only [rebuildCw]
  split
  · exact ⟨rfl, rfl, rfl⟩
  · next x m k hstripe =>
    split
    · exact ⟨rfl, rfl, rfl⟩
    · obtain ⟨hch, hcnt⟩ := readEach_other (j := j) _ (otherPages_channel hstripe) s
      have h2 := hcnt 2 (by decide) (by decide)
      have h3 := hcnt 3 (by decide) (by decide)
      split
      · refine ⟨hch, ?_, ?_⟩
        · rw [Option.isSome_some, if_pos rfl, ← h2]
          exact tget_tset_same ..
        · exact (tget_tset_other _ _ _ (by decide)).trans h3
      · exact ⟨hch, h2, h3⟩

/-! ### CODEWORD_READ (R270, R272) -/

/-- What every read of a codeword leaves: no page and no map entry has changed, and the codeword's own state is the one that is set. -/
structure CodewordDone (s : State) (c key j set : Nat) (t : State) : Prop where
  frame : t = { s with
    fl := { s.fl with chans := t.fl.chans, cnt := t.fl.cnt, badCw := t.fl.badCw }, cal := t.cal, er := t.er,
    pw := { s.pw with alertN := t.pw.alertN }, qe := { s.qe with msix := t.qe.msix }, out := t.out }
  pages : ∀ k, (getCh t k).pages = (getCh s k).pages ∧ (getCh t k).map = (getCh s k).map
  set : cwSet t c key j = set

theorem DieWork.codeword {s t : State} {c key j set : Nat} (h : DieWork (setCw s c key j set) t) : CodewordDone s c key j set t where
  frame := by rw [h.frame]; rfl
  pages k := ⟨h.pages k, h.map k⟩
  set := (h.cwSet c key j).trans (cwSet_setCw ..)

theorem mediaFault_fl (s : State) (owner c key j : Nat) : (mediaFault s owner c key j).fl = (cntFl s 3 1).fl := errEvent_fl ..

theorem getCh_mediaFault (s : State) (owner c key j k : Nat) : getCh (mediaFault s owner c key j) k = getCh s k := by
  rw [getCh, mediaFault_fl]
  rfl

theorem CodewordDone.mediaFault {s t : State} {c key j set : Nat} (h : CodewordDone s c key j set t) (owner : Nat) :
    CodewordDone s c key j set (mediaFault t owner c key j) where
  frame := by
    have hevent : EventWork (cntFl t 3 1) (Machine.mediaFault t owner c key j) := eventWork_errEvent ..
    unfold EventWork at hevent
    rw [hevent, h.frame]
    rfl
  pages k := by
    rw [getCh_mediaFault]
    exact h.pages k
  set := by
    rw [cwSet, mediaFault_fl]
    exact h.set

/-- A failed read is counted, and logged. -/
theorem mediaFault_counts (s : State) (owner c key j : Nat) :
    tget 0 (mediaFault s owner c key j).fl.cnt 3 = satAdd 64 (tget 0 s.fl.cnt 3) 1 ∧ tget 0 (mediaFault s owner c key j).fl.cnt 2 = tget 0 s.fl.cnt 2
      ∧ (mediaFault s owner c key j).er.nextSeq = (s.er.nextSeq + 1) % 2 ^ 32 := by
  rw [mediaFault_fl]
  exact ⟨tget_tset_same .., tget_tset_other _ _ _ (by decide), errEvent_nextSeq ..⟩

section codeword
variable {s : State} {c chip page cw : Nat}

theorem exec_codewordRead {res : CwOutcome} (hwf : wellFormed (.codewordRead c chip page cw res) = true) {t : State}
    (ht : (if dieFitted s c chip && programmed s c (pageKey chip page) then readCodeword s c chip page cw res else s) = t) (hp : t.pending = s.pending) :
    exec (.codewordRead c chip page cw res) s = .next t := by
  subst ht
  exact onUnit_keep hwf hp

variable (hpage : page < 2 ^ 23)
include hpage

/-- A codeword that decodes, at once or with a retry set. -/
theorem readCodeword_decoded (n : Nat) : CodewordDone s c (pageKey chip page) cw (min n 15) (readCodeword s c chip page cw (.decoded n))
    ∧ ReadOnce s c chip (min n 15) (readCodeword s c chip page cw (.decoded n)) ∧ (readCodeword s c chip page cw (.decoded n)).er = s.er := by
  have hset := cwSet_setCw s c (pageKey chip page) cw (min n 15)
  have hdecodes : cwLost (setCw s c (pageKey chip page) cw (min n 15)) c (pageKey chip page) cw = false := by
    rw [cwLost, hset]
    exact decide_eq_false (by omega)
  have hwork := DieWork.readCw (setCw s c (pageKey chip page) cw (min n 15)) c (pageKey chip page) cw
  have honce := readRaw_once (setCw s c (pageKey chip page) cw (min n 15)) c (pageKey chip page) cw
  rw [hset, pageKey_chip hpage, ← readCw_decodes hdecodes] at honce
  exact ⟨hwork.codeword, ⟨honce.reads, honce.retries, honce.counted, honce.retried, honce.otherCnt, honce.others⟩, hwork.er⟩

/-- A codeword that no set decodes. -/
theorem readCw_unreadable : ∃ r, DieWork (setCw s c (pageKey chip page) cw 16) r ∧ (getDie (getCh r c) chip).reads = (getDie (getCh s c) chip).reads + 1
    ∧ (∀ k, k ≠ 0 → k ≠ 1 → tget 0 r.fl.cnt k = tget 0 s.fl.cnt k) ∧ (readRaw (setCw s c (pageKey chip page) cw 16) c (pageKey chip page) cw).1 = r
    ∧ readCw (setCw s c (pageKey chip page) cw 16) c (pageKey chip page) cw = rebuildCw r c (pageKey chip page) cw := by
  have hset := cwSet_setCw s c (pageKey chip page) cw 16
  have hlost : cwLost (setCw s c (pageKey chip page) cw 16) c (pageKey chip page) cw = true := by
    rw [cwLost, hset]
    rfl
  have honce := readRaw_once (setCw s c (pageKey chip page) cw 16) c (pageKey chip page) cw
  rw [hset, pageKey_chip hpage] at honce
  exact ⟨_, DieWork.readRaw .., honce.reads, honce.otherCnt, rfl, readCw_lost hlost⟩

theorem readCodeword_lost : CodewordDone s c (pageKey chip page) cw 16 (readCodeword s c chip page cw .lost)
    ∧ (getDie (getCh (readCodeword s c chip page cw .lost) c) chip).reads = (getDie (getCh s c) chip).reads + 1
    ∧ tget 0 (readCodeword s c chip page cw .lost).fl.cnt 3 = satAdd 64 (tget 0 s.fl.cnt 3) 1
    ∧ (readCodeword s c chip page cw .lost).er.nextSeq = (s.er.nextSeq + 1) % 2 ^ 32 := by
  obtain ⟨r, hwork, hreads, hcnt, hraw, -⟩ := readCw_unreadable (s := s) (c := c) (chip := chip) (cw := cw) hpage
  simp only [readCodeword, hraw]
  obtain ⟨hthree, -, hseq⟩ := mediaFault_counts r (pageOwner s c chip page) c (pageKey chip page) cw
  rw [hcnt 3 (by decide) (by decide)] at hthree
  have her : r.er = s.er := hwork.er
  rw [her] at hseq
  rw [getCh_mediaFault]
  exact ⟨hwork.codeword.mediaFault _, hreads, hthree, hseq⟩

/-- Where the rebuild succeeds it is counted, and where it fails the read is. -/
theorem readCodeword_rebuilt : CodewordDone s c (pageKey chip page) cw 16 (readCodeword s c chip page cw .rebuilt)
    ∧ (getDie (getCh (readCodeword s c chip page cw .rebuilt) c) chip).reads = (getDie (getCh s c) chip).reads + 1
    ∧ ((readCw (setCw s c (pageKey chip page) cw 16) c (pageKey chip page) cw).2.isSome = true →
        tget 0 (readCodeword s c chip page cw .rebuilt).fl.cnt 2 = satAdd 64 (tget 0 s.fl.cnt 2) 1 ∧ (readCodeword s c chip page cw .rebuilt).er = s.er)
    ∧ ((readCw (setCw s c (pageKey chip page) cw 16) c (pageKey chip page) cw).2 = none →
        tget 0 (readCodeword s c chip page cw .rebuilt).fl.cnt 3 = satAdd 64 (tget 0 s.fl.cnt 3) 1
          ∧ tget 0 (readCodeword s c chip page cw .rebuilt).fl.cnt 2 = tget 0 s.fl.cnt 2 ∧ (readCodeword s c chip page cw .rebuilt).er.nextSeq = (s.er.nextSeq + 1) % 2 ^ 32) := by
  obtain ⟨r, hwork, hreads, hcnt, -, hcw⟩ := readCw_unreadable (s := s) (c := c) (chip := chip) (cw := cw) hpage
  obtain ⟨hch, htwo, hthree⟩ := rebuildCw_counts r c (pageKey chip page) cw
  have hrebuild := hwork.trans (DieWork.rebuildCw r c (pageKey chip page) cw)
  have her : (rebuildCw r c (pageKey chip page) cw).1.er = s.er := hrebuild.er
  rw [hcnt 2 (by decide) (by decide)] at htwo
  rw [hcnt 3 (by decide) (by decide)] at hthree
  simp only [readCodeword, hcw]
  cases hok : (rebuildCw r c (pageKey chip page) cw).2 with
  | some d =>
    rw [hok] at htwo
    rw [Option.isSome_some, if_pos rfl, hch]
    exact ⟨hrebuild.codeword, hreads, fun _ => ⟨htwo, her⟩, fun h => nomatch h⟩
  | none =>
    rw [hok] at htwo
    obtain ⟨hfault, hkept, hseq⟩ := mediaFault_counts (rebuildCw r c (pageKey chip page) cw).1 (pageOwner s c chip page) c (pageKey chip page) cw
    rw [hthree] at hfault
    rw [her] at hseq
    rw [Option.isSome_none, if_neg Bool.false_ne_true, getCh_mediaFault, hch]
    exact ⟨hrebuild.codeword.mediaFault _, hreads, fun h => (nomatch h), fun _ => ⟨hfault, hkept.trans htwo, hseq⟩⟩

end codeword

/-! ### RETRY_WINDOW_END (R284) -/

theorem exec_retryWindowEnd {s : State} {c chip : Nat} (hc : c < 64) (hchip : chip < 9) (hreads : 2 ^ 20 ≤ (getDie (getCh s c) chip).reads) :
    ∃ t, exec (.retryWindowEnd c chip) s = .next t
      ∧ getDie (getCh t c) chip = { getDie (getCh s c) chip with reads := (getDie (getCh s c) chip).reads - 2 ^ 20, retries := 0 }
      ∧ t.er.nextSeq = if s.fl.ewRetry * 2 ^ 20 < (getDie (getCh s c) chip).retries * 10 ^ 6 then (s.er.nextSeq + 1) % 2 ^ 32 else s.er.nextSeq := by
  have hok : wellFormed (.retryWindowEnd c chip) = true := Bool.and_eq_true_iff.mpr ⟨decide_eq_true hc, decide_eq_true hchip⟩
  generalize hx : setCh s c (setDie (getCh s c) chip { getDie (getCh s c) chip with reads := (getDie (getCh s c) chip).reads - 2 ^ 20, retries := 0 }) = x
  have hdie : getDie (getCh x c) chip = { getDie (getCh s c) chip with reads := (getDie (getCh s c) chip).reads - 2 ^ 20, retries := 0 } := by
    rw [← hx, getCh_setCh, getDie_setDie]
  have hexec : exec (.retryWindowEnd c chip) s = onUnit s (wellFormed (.retryWindowEnd c chip))
      (if s.fl.ewRetry * 2 ^ 20 < (getDie (getCh s c) chip).retries * 10 ^ 6 then raise x 0x0042 1 0x7F (engineUnit c chip) c chip (getDie (getCh s c) chip).retries else x) := by
    change execRetryWindowEnd c chip s = _
    simp only [execRetryWindowEnd, if_neg (Nat.not_lt.mpr hreads), hx]
  have hpending : x.pending = s.pending := by rw [← hx, setCh_pending]
  by_cases h : s.fl.ewRetry * 2 ^ 20 < (getDie (getCh s c) chip).retries * 10 ^ 6
  · rw [if_pos h] at hexec ⊢
    refine ⟨_, hexec.trans (onUnit_keep hok (by rw [raise_pending, hpending])), by rw [getCh_raise, hdie], ?_⟩
    rw [raise_nextSeq, ← hx, setCh_er]
  · rw [if_neg h] at hexec ⊢
    exact ⟨_, hexec.trans (onUnit_keep hok hpending), hdie, by rw [← hx, setCh_er]⟩

/-! ### The statement -/

/-- Settles O35: by the block that fails, the die that is not ready, the outcome of a codeword's read, and the end of a window. -/
theorem blocksDiesAndCodewords : Obligations.BlocksDiesAndCodewords := by
  unfold Obligations.BlocksDiesAndCodewords
  refine ⟨fun s c chip b hc hchip hw hfit hb => ?erase, fun s c chip hc hchip hfit => ?notReady,
    fun s c chip page cw res hwf => ⟨fun h => ?unread, fun hfit hprog hpage => ?read⟩, fun s c chip hc hchip hreads => ?window⟩
  case erase =>
    have hmarks := retireBlock_marks s c chip b
    generalize ht : retireBlock s c chip b = t at hmarks
    obtain ⟨hframe, hblocks, hretired, hnoted⟩ := hmarks
    obtain ⟨chans, er, hbad⟩ := blockBad_frame s c chip b
    rw [hbad] at hframe
    have hdie := getDie_blockBad s c chip b
    have htab : (getDie (getCh t c) chip).blocks = (retiredDie (getDie (getCh s c) chip) b).blocks := by rw [hblocks, hdie]
    refine ⟨t, exec_eraseFail hc hchip hw hfit hb ht (by rw [hframe]), ?_, by rw [hretired, hdie]; rfl, fun b' hb' => ?_, ?_, hnoted, by rw [hframe]⟩
    · rw [getBlock, htab]
      exact congrArg Block.bad (tget_tset_same ..)
    · rw [getBlock, htab]
      exact tget_tset_other _ _ _ hb'
    · rw [hframe]
      exact tget_tset_same ..
  case notReady =>
    obtain ⟨⟨hframe, -, -⟩, hdegraded⟩ := degrade_event s c chip true
    have hok : wellFormed (.dieReadyTimeout c chip) = true := Bool.and_eq_true_iff.mpr ⟨decide_eq_true hc, decide_eq_true hchip⟩
    have hexec : exec (.dieReadyTimeout c chip) s = onUnit s (wellFormed (.dieReadyTimeout c chip)) (degrade s c chip true) :=
      congrArg (onUnit s _) (if_pos hfit)
    exact ⟨_, hexec.trans (onUnit_keep hok (by rw [hframe])), hdegraded, fun h => degrade_degraded h true, hframe⟩
  case unread =>
    have hoff : (dieFitted s c chip && programmed s c (pageKey chip page)) = false := Bool.and_eq_false_iff.mpr h
    exact exec_codewordRead hwf (by rw [hoff]; rfl) rfl
  case read =>
    have hread : ∀ {t}, readCodeword s c chip page cw res = t → t.pending = s.pending → exec (.codewordRead c chip page cw res) s = .next t :=
      fun ht hp => exec_codewordRead hwf (by rw [hfit, hprog]; exact ht) hp
    cases res with
    | decoded n =>
      obtain ⟨⟨hframe, hpages, hset⟩, ⟨hreads, hretries, hcounted, hretried, -, -⟩, her⟩ := readCodeword_decoded (s := s) (c := c) (chip := chip) (cw := cw) hpage n
      have hzero : (min n 15 = 0) = (n = 0) := propext (by omega)
      simp only [hzero] at hretries hretried
      refine ⟨_, hread rfl (by rw [hframe]), hreads, hpages, fun k hk => ?_, fun h => (nomatch h), fun h => (nomatch h), hframe⟩
      cases hk
      exact ⟨hretries, hcounted, hretried, her, hset⟩
    | rebuilt =>
      obtain ⟨⟨hframe, hpages, hset⟩, hreads, hok, hbad⟩ := readCodeword_rebuilt (s := s) (c := c) (chip := chip) (cw := cw) hpage
      exact ⟨_, hread rfl (by rw [hframe]), hreads, hpages, fun _ h => (nomatch h), fun _ => ⟨by rw [cwLost, hset]; rfl, hok, hbad⟩, fun h => (nomatch h), hframe⟩
    | lost =>
      obtain ⟨⟨hframe, hpages, hset⟩, hreads, hcounted, hseq⟩ := readCodeword_lost (s := s) (c := c) (chip := chip) (cw := cw) hpage
      exact ⟨_, hread rfl (by rw [hframe]), hreads, hpages, fun _ h => (nomatch h), fun h => (nomatch h), fun _ => ⟨hcounted, hseq, by rw [cwLost, hset]; rfl⟩, hframe⟩
  case window =>
    obtain ⟨t, hexec, hdie, hseq⟩ := exec_retryWindowEnd hc hchip hreads
    exact ⟨t, hexec, by rw [hdie], by rw [hdie], hseq⟩

end Sys2Proof.Machine
end

section
/-! SUPPORT. The superblock that garbage collection takes, and the erasure of an empty one (09 R278, R279; log entries 43, 69), and the statement about it. -/

namespace Sys2Proof.Machine

open Sys2Proof

/-! ### The choice (R278, R279) -/

theorem leastBy_none {f : Super → Nat} {l : List Super} (h : leastBy f l = none) : l = [] := by
  cases l with
  | nil => rfl
  | cons a l =>
    simp only [leastBy] at h
    split at h
    · split at h <;> cases h
    · cases h

theorem leastBy_some {f : Super → Nat} {l : List Super} {x : Super} (h : leastBy f l = some x) : x ∈ l ∧ ∀ y ∈ l, f x ≤ f y := by
  induction l generalizing x with
  | nil => cases h
  | cons a l ih =>
    simp only [leastBy] at h
    split at h
    · next y hy =>
      obtain ⟨hmem, hle⟩ := ih hy
      split at h
      · next hlt =>
        injection h with h
        subst h
        refine ⟨List.mem_cons_of_mem _ hmem, List.forall_mem_cons.mpr ⟨hlt.le, hle⟩⟩
      · next hge =>
        injection h with h
        subst h
        exact ⟨List.mem_cons_self .., List.forall_mem_cons.mpr ⟨le_rfl, fun z hz => (Nat.not_lt.mp hge).trans (hle z hz)⟩⟩
    · next hnone =>
      injection h with h
      subst h
      rw [leastBy_none hnone]
      exact ⟨List.mem_cons_self .., List.forall_mem_cons.mpr ⟨le_rfl, fun z hz => (nomatch hz)⟩⟩

/-- The superblocks of a group among which garbage collection chooses. -/
theorem mem_candidates {s : State} {g d : Nat} {x : Super} : x ∈ s.fl.supers.filter (fun x => x.g == g && x.d == d && superDone s.fl.fmtW x) ↔
    x ∈ s.fl.supers ∧ x.g = g ∧ x.d = d ∧ superDone s.fl.fmtW x = true := by
  simp only [List.mem_filter, Bool.and_eq_true, beq_iff_eq, and_assoc]

/-! ### Erased blocks (R279) -/

/-- Blocks have been erased: no superblock has changed, and pages have only gone. -/
structure BlocksErased (s t : State) : Prop where
  work : FlashWork s t
  supers : t.fl.supers = s.fl.supers
  pagesOf : ∀ k, pagesOf (getCh t k) = pagesOf (getCh s k)
  pages : ∀ k, ∀ e ∈ (getCh t k).pages, e ∈ (getCh s k).pages

namespace BlocksErased

theorem refl (s : State) : BlocksErased s s := ⟨FlashWork.refl s, rfl, fun _ => rfl, fun _ _ he => he⟩

theorem trans {a b c : State} (hab : BlocksErased a b) (hbc : BlocksErased b c) : BlocksErased a c where
  work := hab.work.trans hbc.work
  supers := hbc.supers.trans hab.supers
  pagesOf k := (hbc.pagesOf k).trans (hab.pagesOf k)
  pages k e he := hab.pages k e (hbc.pages k e he)

theorem wipeBlock (s : State) (c chip b : Nat) : BlocksErased s (wipeBlock s c chip b) where
  work := rfl
  supers := rfl
  pagesOf k := by
    rw [getCh_wipeBlock]
    split
    · next hk => rw [hk]; rfl
    · rfl
  pages k e he := by
    rw [getCh_wipeBlock] at he
    split at he
    · next hk => rw [hk]; exact List.mem_of_mem_filter he
    · exact he

theorem checkWear (s : State) (c chip : Nat) : BlocksErased s (checkWear s c chip) := by
  have hevent := checkWear_event s c chip
  have hch : ∀ k, getCh (Machine.checkWear s c chip) k = { getCh s k with dieSt := (getCh (Machine.checkWear s c chip) k).dieSt } := fun k => by
    by_cases hk : k = c
    · rw [hk]; exact hevent.chan
    · rw [hevent.others k hk]
  refine ⟨hevent.flashWork, by rw [hevent.frame], fun k => ?_, fun k e he => ?_⟩
  · rw [hch k]; rfl
  · rw [hch k] at he; exact he

theorem eraseBlock (s : State) (c chip b : Nat) : BlocksErased s (eraseBlock s c chip b) := (wipeBlock ..).trans (checkWear ..)

end BlocksErased

/-- No page of an erased block stays. -/
theorem eraseBlock_gone (s : State) (c chip b : Nat) :
    ∀ e ∈ (getCh (eraseBlock s c chip b) c).pages, inBlock (blockStart (getCh s c) chip b) (pagesOf (getCh s c)) e.1 = false := by
  intro e he
  have hwiped := (BlocksErased.checkWear (wipeBlock s c chip b) c chip).pages c e he
  rw [getCh_wipeBlock, if_pos rfl] at hwiped
  exact Bool.not_eq_true' _ |>.mp (List.mem_filter.mp hwiped).2

/-- Nor any page of blocks that are erased one after another. -/
theorem eraseBlocks_gone (c chip b : Nat → Nat) (l : List Nat) (s : State) :
    BlocksErased s (l.foldl (fun a m => eraseBlock a (c m) (chip m) (b m)) s)
      ∧ ∀ m ∈ l, ∀ e ∈ (getCh (l.foldl (fun a m => eraseBlock a (c m) (chip m) (b m)) s) (c m)).pages,
          inBlock (blockStart (getCh s (c m)) (chip m) (b m)) (pagesOf (getCh s (c m))) e.1 = false := by
  induction l generalizing s with
  | nil => exact ⟨BlocksErased.refl s, fun _ h => (nomatch h)⟩
  | cons n l ih =>
    have hfirst := BlocksErased.eraseBlock s (c n) (chip n) (b n)
    obtain ⟨hrest, hgone⟩ := ih (eraseBlock s (c n) (chip n) (b n))
    rw [List.foldl_cons]
    refine ⟨hfirst.trans hrest, List.forall_mem_cons.mpr ⟨fun e he => eraseBlock_gone _ _ _ _ e (hrest.pages _ e he), fun m hm e he => ?_⟩⟩
    have hkey := hgone m hm e he
    rw [blockStart, hfirst.pagesOf] at hkey
    exact hkey

/-! ### An empty superblock (R278) -/

section empty
variable {s : State} {x : Super} (hkept : keptPages s x = 0)
include hkept

theorem validPages_nil {m : Nat} (hm : m < s.fl.fmtW) : validPages s x m = [] := by
  have hzero := List.sum_eq_zero_iff.mp hkept _ (List.mem_map_of_mem (List.mem_range.mpr hm))
  exact List.eq_nil_of_length_eq_zero (Nat.add_eq_zero_iff.mp hzero).1

/-- No page moves. -/
theorem movePages_none_kept : (List.range s.fl.fmtW).foldl (fun a m => a.bind (fun b => movePages b x m)) (some s) = some s :=
  foldl_fixed_mem _ fun m hm => by rw [Option.bind_some, movePages, validPages_nil hkept (List.mem_range.mp hm), List.foldl_nil]

theorem reclaim_empty (hneed : ∀ m, m < s.fl.fmtW → needsCheckpoint s x m = false) :
    reclaim s x = (List.range s.fl.fmtW).foldl (fun a m => eraseBlock a (s.fl.fmtW * x.g + m) (memberChip x m) (memberBlock x m))
      (setSupers s (s.fl.supers.filter (fun y => !sameSuper x y))) := by
  have hcover : (List.range s.fl.fmtW).foldl (fun a m => coverBlock a x m) s = s :=
    foldl_fixed_mem _ fun m hm => by rw [coverBlock, hneed m (List.mem_range.mp hm), if_neg Bool.false_ne_true]
  have hany : (List.range s.fl.fmtW).any (fun m => needsCheckpoint s x m) = false :=
    List.any_eq_false.mpr fun m hm => by rw [hneed m (List.mem_range.mp hm)]; exact Bool.false_ne_true
  simp only [reclaim, movePages_none_kept hkept, hkept, hcover, hany, ne_eq, not_true, if_false, Bool.false_eq_true]

end empty

/-! ### The statement -/

theorem exec_garbageCollection {s : State} {g d : Nat} {x : Super} (hg : g < 64) (hd : d < 9) (hready : flashReady s = true) (hx : gcChoice s g d = some x)
    (hp : (reclaim s x).pending = s.pending) : exec (.garbageCollection g d) s = .next (reclaim s x) := by
  have hexec : exec (.garbageCollection g d) s = onUnit s (wellFormed (.garbageCollection g d)) (reclaim s x) := by
    change execGarbageCollection g d s = _
    simp only [execGarbageCollection, hready, hx, Bool.not_true, Bool.false_eq_true, if_false]
  rw [hexec]
  exact onUnit_keep (Bool.and_eq_true_iff.mpr ⟨decide_eq_true hg, decide_eq_true hd⟩) hp

/-- Settles O36: the least of the candidates by the rule's measure, and what its erasure leaves when it is empty. -/
theorem garbageCollectionReclaims : Obligations.GarbageCollectionReclaims := by
  unfold Obligations.GarbageCollectionReclaims
  refine ⟨fun s g d x hx => ?choice, fun s g d x hg hd hready hx hkept hneed => ?erased⟩
  case choice =>
    obtain ⟨hmem, hle⟩ := leastBy_some hx
    obtain ⟨hsupers, hxg, hxd, hdone⟩ := mem_candidates.mp hmem
    refine ⟨hsupers, hxg, hxd, hdone, fun y hy hyg hyd hydone => ?_⟩
    have hxy := hle y (mem_candidates.mpr ⟨hy, hyg, hyd, hydone⟩)
    split
    · next huneven => rwa [if_pos huneven] at hxy
    · next heven => rwa [if_neg heven] at hxy
  case erased =>
    obtain ⟨herased, hgone⟩ := eraseBlocks_gone (fun m => s.fl.fmtW * x.g + m) (memberChip x) (memberBlock x) (List.range s.fl.fmtW)
      (setSupers s (s.fl.supers.filter (fun y => !sameSuper x y)))
    rw [← reclaim_empty hkept hneed] at herased hgone
    have hleft : FlashWork s (setSupers s (s.fl.supers.filter (fun y => !sameSuper x y))) := rfl
    have hframe : FlashWork s (reclaim s x) := hleft.trans herased.work
    exact ⟨_, exec_garbageCollection hg hd hready hx hframe.pending, herased.supers, fun m hm e he => inBlock_false (hgone m (List.mem_range.mpr hm) e he), hframe⟩

end Sys2Proof.Machine
end

section
/-! SUPPORT. What a recovery reads of a channel: whole pages, a root with its segments, and the pages behind it (09 R287, R289, R291; log entry 43). -/

namespace Sys2Proof.Machine

open Sys2Proof

/-! ### Whole pages -/

/-- Every codeword of a page decodes apart from the rebuild step. -/
def pageDecodes (s : State) (c key : Nat) : Bool := (List.range 4).all (fun j => !cwLost s c key j)

theorem pageDecodes_true {s : State} {c key : Nat} : pageDecodes s c key = true ↔ ∀ j, j < 4 → cwLost s c key j = false := by
  simp only [pageDecodes, List.all_eq_true, List.mem_range, Bool.not_eq_true']

theorem pageDecodes_false {s : State} {c key : Nat} : pageDecodes s c key = false ↔ ∃ j, j < 4 ∧ cwLost s c key j = true := by
  simp only [pageDecodes, List.all_eq_false, List.mem_range, Bool.not_eq_true', Bool.not_eq_false]

theorem DieWork.pageDecodes {s t : State} (h : DieWork s t) (c key : Nat) : pageDecodes t c key = pageDecodes s c key := by
  simp only [Machine.pageDecodes, h.cwLost]

/-- Codewords of a page are read one after another. -/
def readListed (c key : Nat) (l : List Nat) (a : State × Bool) : State × Bool :=
  l.foldl (fun a j => ((readRaw a.1 c key j).1, a.2 && (readRaw a.1 c key j).2)) a

theorem DieWork.readListed (c key : Nat) (l : List Nat) (a : State × Bool) : DieWork a.1 (readListed c key l a).1 := by
  induction l generalizing a with
  | nil => exact refl a.1
  | cons j l ih => exact (readRaw a.1 c key j).trans (ih ((Machine.readRaw a.1 c key j).1, a.2 && (Machine.readRaw a.1 c key j).2))

theorem readListed_ok (c key : Nat) (l : List Nat) (a : State × Bool) : (readListed c key l a).2 = (a.2 && l.all (fun j => !cwLost a.1 c key j)) := by
  induction l generalizing a with
  | nil => exact (Bool.and_true _).symm
  | cons j l ih =>
    refine (ih _).trans ?_
    simp only [readRaw_ok, (DieWork.readRaw a.1 c key j).cwLost, List.all_cons, Bool.and_assoc]

theorem readWhole_cons (s : State) (c key : Nat) (l : List Nat) : readWhole s c (key :: l) =
    ((readWhole (readListed c key (List.range 4) (s, true)).1 c l).1,
      (readListed c key (List.range 4) (s, true)).2 && (readWhole (readListed c key (List.range 4) (s, true)).1 c l).2) := rfl

theorem DieWork.readWhole (c : Nat) (l : List Nat) (s : State) : DieWork s (readWhole s c l).1 := by
  induction l generalizing s with
  | nil => exact refl s
  | cons key l ih =>
    rw [readWhole_cons]
    exact (readListed c key (List.range 4) (s, true)).trans (ih _)

theorem readWhole_ok (c : Nat) (l : List Nat) (s : State) : (readWhole s c l).2 = l.all (pageDecodes s c) := by
  induction l generalizing s with
  | nil => rfl
  | cons key l ih =>
    rw [readWhole_cons, List.all_cons]
    refine congrArg₂ (· && ·) (readListed_ok ..) ((ih _).trans ?_)
    exact congrArg l.all (funext fun k => (DieWork.readListed ..).pageDecodes c k)

/-! ### A root and its segments (R287, R291) -/

theorem readPageParts_ok {c key : Nat} (l : List Nat) {s : State} (h : ∀ j ∈ l, cwLost s c key j = false) : ∃ d, (readPageParts c key s l).2 = .ok d := by
  induction l generalizing s with
  | nil => exact ⟨[], rfl⟩
  | cons j l ih =>
    obtain ⟨hj, hl⟩ := List.forall_mem_cons.mp h
    obtain ⟨d, hd⟩ := ih fun k hk => ((DieWork.readCw s c key j).cwLost ..).trans (hl k hk)
    have hok : (readRaw s c key j).2 = true := by rw [readRaw_ok, hj]; rfl
    have hcw : ∃ a, (readCw s c key j).2 = some a := by
      simp only [readCw, hok, if_true]
      exact ⟨_, rfl⟩
    obtain ⟨a, ha⟩ := hcw
    simp only [readPageParts, ha, hd]
    exact ⟨_, rfl⟩

theorem DieWork.loadSegs (c : Nat) (l : List (Nat × Nat)) (s : State) : DieWork s (loadSegs c s l).1 := by
  induction l generalizing s with
  | nil => exact refl s
  | cons e l ih =>
    simp only [Machine.loadSegs]
    split
    · exact refl s
    · split
      · exact readPageParts ..
      · exact (readPageParts ..).trans (ih _)

theorem loadSegs_some {c : Nat} (l : List (Nat × Nat)) {s : State} (h : ∀ e ∈ l, (findPage s c e.2).isSome = true ∧ pageDecodes s c e.2 = true) :
    ∃ m, (loadSegs c s l).2 = some m := by
  induction l generalizing s with
  | nil => exact ⟨[], rfl⟩
  | cons e l ih =>
    obtain ⟨⟨hfound, hdecodes⟩, hl⟩ := List.forall_mem_cons.mp h
    have hread := DieWork.readPageParts c e.2 [0, 1, 2, 3] s
    obtain ⟨m, hm⟩ := ih fun x hx => by rw [hread.findPage, hread.pageDecodes]; exact hl x hx
    have hall : ∀ j ∈ [0, 1, 2, 3], cwLost s c e.2 j = false := fun j hj => pageDecodes_true.mp hdecodes j (List.mem_range.mp (show j ∈ List.range 4 from hj))
    obtain ⟨d, hd⟩ := readPageParts_ok _ hall
    have hnone : ¬(findPage s c e.2).isNone = true := by rw [Option.isNone_iff_eq_none]; exact Option.isSome_iff_ne_none.mp hfound
    simp only [loadSegs, hd, hm, Option.map_some, if_neg hnone]
    exact ⟨_, rfl⟩

/-- A root's pages are read, and then its segments. -/
def rootRead (c : Nat) (s : State) (r : Root) : State × Option (Tab MapEntry) :=
  if (readWhole s c r.pages).2 then loadSegs c (readWhole s c r.pages).1 r.segs else ((readWhole s c r.pages).1, none)

theorem DieWork.rootRead (c : Nat) (s : State) (r : Root) : DieWork s (rootRead c s r).1 := by
  unfold Machine.rootRead
  split
  · exact (readWhole ..).trans (loadSegs ..)
  · exact readWhole ..

theorem rootRead_some {c : Nat} {s : State} {r : Root} (hpages : ∀ k ∈ r.pages, pageDecodes s c k = true)
    (hsegs : ∀ e ∈ r.segs, (findPage s c e.2).isSome = true ∧ pageDecodes s c e.2 = true) : ∃ m, (rootRead c s r).2 = some m := by
  have hread := DieWork.readWhole c r.pages s
  rw [rootRead, readWhole_ok, if_pos (List.all_eq_true.mpr hpages)]
  exact loadSegs_some _ fun e he => by rw [hread.findPage, hread.pageDecodes]; exact hsegs e he

theorem rootRead_none {c : Nat} {s : State} {r : Root} {k : Nat} (hk : k ∈ r.pages) (hlost : pageDecodes s c k = false) : (rootRead c s r).2 = none := by
  rw [rootRead, readWhole_ok, if_neg fun hall => Bool.false_ne_true (hlost.symm.trans (List.all_eq_true.mp hall k hk))]

/-- The root is the one that the recovery takes. -/
def rootTaken (u : State) (older : Bool) : State := { u with fl := { u.fl with recovOlder := u.fl.recovOlder || older } }

section chooseRoot
variable {c : Nat} {s : State} {older : Bool} {r : Root} {l : List Root}

theorem chooseRoot_other (h : r.fmtId ≠ s.fl.fmtId) : chooseRoot c s older (r :: l) = chooseRoot c s older l := by rw [chooseRoot, if_pos h]

theorem chooseRoot_taken (h : r.fmtId = s.fl.fmtId) {m : Tab MapEntry} (hm : (rootRead c s r).2 = some m) :
    chooseRoot c s older (r :: l) = (rootTaken (rootRead c s r).1 older, some (r, m)) := by
  unfold rootRead at hm ⊢
  simp only [chooseRoot, h, ne_eq, not_true, if_false, hm]
  rfl

theorem chooseRoot_passed (h : r.fmtId = s.fl.fmtId) (hm : (rootRead c s r).2 = none) : chooseRoot c s older (r :: l) = chooseRoot c (rootRead c s r).1 true l := by
  unfold rootRead at hm ⊢
  simp only [chooseRoot, h, ne_eq, not_true, if_false, hm]

end chooseRoot

theorem chooseRoot_none {c : Nat} {s : State} {older : Bool} {l : List Root} (h : ∀ r ∈ l, r.fmtId ≠ s.fl.fmtId) : chooseRoot c s older l = (s, none) := by
  induction l with
  | nil => rfl
  | cons r l ih =>
    obtain ⟨hr, hl⟩ := List.forall_mem_cons.mp h
    rw [chooseRoot_other hr, ih hl]

/-! ### What a replay leaves -/

/-- A replay rebuilds the map of channels, takes their segments and queues from the root, reads their dies, and may note an older root. -/
structure Replayed (s t : State) : Prop where
  frame : t = { s with fl := { s.fl with chans := t.fl.chans, cnt := t.fl.cnt, recovOlder := t.fl.recovOlder }, cal := t.cal }
  chan : ∀ k, getCh t k = { getCh s k with
    map := (getCh t k).map, dirty := (getCh t k).dirty, segs := (getCh t k).segs, queue := (getCh t k).queue, dieSt := (getCh t k).dieSt }

theorem DieWork.replayed {s t : State} (h : DieWork s t) : Replayed s t where
  frame := by rw [h.frame]
  chan k := by rw [h.chan k]

namespace Replayed

theorem refl (s : State) : Replayed s s := (DieWork.refl s).replayed

theorem trans {a b c : State} (hab : Replayed a b) (hbc : Replayed b c) : Replayed a c where
  frame := by rw [hbc.frame, hab.frame]
  chan k := by rw [hbc.chan k, hab.chan k]

theorem foldl {α : Type} {f : State → α → State} (h : ∀ x a, Replayed x (f x a)) (l : List α) (s : State) : Replayed s (l.foldl f s) :=
  foldl_keeps (Replayed s) f (fun _ _ hx => hx.trans (h ..)) l s (refl s)

section fields
variable {s t : State} (h : Replayed s t)
include h

theorem fmtId : t.fl.fmtId = s.fl.fmtId := by rw [h.frame]
theorem supers : t.fl.supers = s.fl.supers := by rw [h.frame]
theorem fmtW : t.fl.fmtW = s.fl.fmtW := by rw [h.frame]
theorem pages (k : Nat) : (getCh t k).pages = (getCh s k).pages := by rw [h.chan]
theorem roots (k : Nat) : (getCh t k).roots = (getCh s k).roots := by rw [h.chan]
theorem pagesOf (k : Nat) : pagesOf (getCh t k) = pagesOf (getCh s k) := by rw [h.chan]; rfl
theorem cwLost (c key j : Nat) : cwLost t c key j = cwLost s c key j := by rw [Machine.cwLost, Machine.cwSet, h.frame]; rfl
theorem pageDecodes (c key : Nat) : pageDecodes t c key = pageDecodes s c key := by simp only [Machine.pageDecodes, h.cwLost]
theorem stripeOf (c chip page : Nat) : stripeOf t c chip page = stripeOf s c chip page := by
  simp only [Machine.stripeOf, h.fmtW, h.supers, h.pagesOf]
theorem positionOf (c chip page : Nat) : positionOf t c chip page = positionOf s c chip page := by rw [Machine.positionOf, h.stripeOf]; rfl

end fields

theorem setCh (s : State) (c : Nat) {v : Channel} (h : v = { getCh s c with map := v.map, dirty := v.dirty, segs := v.segs, queue := v.queue, dieSt := v.dieSt }) :
    Replayed s (setCh s c v) where
  frame := rfl
  chan k := by
    rw [getCh_setCh_if]
    split
    · next hk => rw [hk]; exact h
    · rfl

theorem setLu (s : State) (c lu : Nat) (e : MapEntry) : Replayed s (setLu s c lu e) := setCh s c rfl
theorem clearLu (s : State) (c lu : Nat) : Replayed s (clearLu s c lu) := setCh s c rfl

theorem rootTaken (s : State) (older : Bool) : Replayed s (rootTaken s older) := ⟨rfl, fun _ => rfl⟩

theorem chooseRoot (c : Nat) (l : List Root) (s : State) (older : Bool) : Replayed s (chooseRoot c s older l).1 := by
  induction l generalizing s older with
  | nil => exact refl s
  | cons r l ih =>
    by_cases hfmt : r.fmtId = s.fl.fmtId
    · have hread := (DieWork.rootRead c s r).replayed
      cases hm : (rootRead c s r).2 with
      | none => rw [chooseRoot_passed hfmt hm]; exact hread.trans (ih ..)
      | some m => rw [chooseRoot_taken hfmt hm]; exact hread.trans (rootTaken ..)
    · rw [chooseRoot_other hfmt]
      exact ih ..

theorem replayPage (c : Nat) (s : State) (e : Nat × Page) : Replayed s (replayPage c s e) := by
  unfold Machine.replayPage
  split
  · exact setLu ..
  · dsimp only
    have hread := (DieWork.readPageParts c e.1 (List.range (ceilDiv (4 * e.2.lu) 4096)) s).replayed
    split
    · exact hread.trans (foldl (fun _ _ => clearLu ..) _ _)
    · exact hread
  · exact refl s

end Replayed

/-! ### The pages behind a root (R289) -/

theorem findPage_mem {s : State} {c key : Nat} {p : Page} (h : findPage s c key = some p) : (key, p) ∈ (getCh s c).pages := by
  obtain ⟨e, he, rfl⟩ := Option.map_eq_some_iff.mp h
  have hkey : e.1 = key := beq_iff_eq.mp (List.find?_some (p := fun e : Nat × Page => e.1 == key) he)
  rw [← hkey]
  exact List.mem_of_find?_eq_some he

theorem DieWork.headersFrom (c chip b : Nat) (n : Nat) (s : State) (k : Nat) : DieWork s (headersFrom c chip b n s k).1 := by
  induction n generalizing s k with
  | zero => exact refl s
  | succ n ih =>
    simp only [Machine.headersFrom]
    split
    · exact countReads ..
    · split
      · exact (readRaw ..).trans (ih ..)
      · exact readRaw ..

theorem headersFrom_pages (c chip b : Nat) (n : Nat) (s : State) (k : Nat) : ∀ e ∈ (headersFrom c chip b n s k).2, e ∈ (getCh s c).pages := by
  induction n generalizing s k with
  | zero => exact fun _ he => (nomatch he)
  | succ n ih =>
    simp only [headersFrom]
    split
    · exact fun _ he => (nomatch he)
    · next p hp =>
      split
      · refine List.forall_mem_cons.mpr ⟨findPage_mem hp, fun e he => ?_⟩
        rw [← (DieWork.readRaw s c (pageKey chip (b * pagesOf (getCh s c) + k)) 0).pages c]
        exact ih _ _ e he
      · exact fun _ he => (nomatch he)

theorem DieWork.findIn (s : State) (c chip b first : Nat) : DieWork s (findIn s c chip b first).1 := by
  have hheads := headersFrom c chip b (Machine.pagesOf (getCh s c) - first) s first
  simp only [Machine.findIn]
  split
  · exact hheads
  · refine hheads.trans ?_
    dsimp only
    exact readWhole ..

theorem findIn_pages (s : State) (c chip b first : Nat) : ∀ e ∈ (findIn s c chip b first).2, e ∈ (getCh s c).pages := by
  intro e he
  refine headersFrom_pages c chip b (pagesOf (getCh s c) - first) s first e ?_
  simp only [findIn] at he
  split at he
  · exact he
  · split at he
    · exact he
    · exact List.mem_of_mem_dropLast he

/-- The pages that the replay finds in blocks, in their order. -/
def findBlocks (c : Nat) (l : List (Nat × Nat × Nat)) (a : State × List (Nat × Page)) : State × List (Nat × Page) :=
  l.foldl (fun b k => ((findIn b.1 c k.1 k.2.1 k.2.2).1, b.2 ++ (findIn b.1 c k.1 k.2.1 k.2.2).2)) a

theorem findBlocks_pages (c : Nat) (l : List (Nat × Nat × Nat)) (a : State × List (Nat × Page)) :
    DieWork a.1 (findBlocks c l a).1 ∧ ∀ e ∈ (findBlocks c l a).2, e ∈ a.2 ∨ e ∈ (getCh a.1 c).pages := by
  induction l generalizing a with
  | nil => exact ⟨DieWork.refl a.1, fun _ he => Or.inl he⟩
  | cons k l ih =>
    obtain ⟨hdies, hpages⟩ := ih ((findIn a.1 c k.1 k.2.1 k.2.2).1, a.2 ++ (findIn a.1 c k.1 k.2.1 k.2.2).2)
    have hfind := DieWork.findIn a.1 c k.1 k.2.1 k.2.2
    refine ⟨hfind.trans hdies, fun e he => ?_⟩
    rcases hpages e he with hin | hin
    · exact (List.mem_append.mp hin).imp_right (findIn_pages a.1 c k.1 k.2.1 k.2.2 e)
    · exact Or.inr (hfind.pages c ▸ hin)

/-- A channel with one page: the header walk ends behind it. -/
theorem headersFrom_single {s : State} {c chip b k : Nat} {e : Nat × Page} (hpages : (getCh s c).pages = [e]) (hkey : e.1 = pageKey chip (b * pagesOf (getCh s c) + k))
    (hfmt : e.2.fmtId = s.fl.fmtId) (n : Nat) : (headersFrom c chip b (n + 1) s k).2 = if cwLost s c e.1 0 then [] else [e] := by
  have hfound : findPage s c e.1 = some e.2 := by simp [findPage, hpages]
  have hread := DieWork.readRaw s c e.1 0
  have hend : (headersFrom c chip b n (readRaw s c e.1 0).1 (k + 1)).2 = [] := by
    cases n with
    | zero => rfl
    | succ n =>
      have hother : e.1 ≠ pageKey chip (b * pagesOf (getCh s c) + (k + 1)) := by rw [hkey]; unfold pageKey; omega
      have hnone : findPage s c (pageKey chip (b * pagesOf (getCh s c) + (k + 1))) = none := by simp [findPage, hpages, hother]
      simp only [headersFrom, hread.pagesOf, hread.findPage, hnone]
  simp only [headersFrom, ← hkey, hfound, hfmt, beq_self_eq_true, Bool.and_true, readRaw_ok]
  cases hlost : cwLost s c e.1 0 with
  | true => rfl
  | false => simp only [Bool.not_false, if_true, hend, Bool.false_eq_true, if_false]

theorem findIn_single {s : State} {c chip b k : Nat} {e : Nat × Page} (hpages : (getCh s c).pages = [e]) (hkey : e.1 = pageKey chip (b * pagesOf (getCh s c) + k))
    (hfmt : e.2.fmtId = s.fl.fmtId) (hk : k < pagesOf (getCh s c)) : (findIn s c chip b k).2 = if pageDecodes s c e.1 then [e] else [] := by
  obtain ⟨n, hn⟩ : ∃ n, pagesOf (getCh s c) - k = n + 1 := ⟨pagesOf (getCh s c) - k - 1, by omega⟩
  have hheads := headersFrom_single hpages hkey hfmt n
  have hdies := DieWork.headersFrom c chip b (n + 1) s k
  simp only [findIn, hn]
  cases hlost : cwLost s c e.1 0 with
  | true =>
    have hbad : pageDecodes s c e.1 = false := pageDecodes_false.mpr ⟨0, by decide, hlost⟩
    rw [hlost, if_pos rfl] at hheads
    simp only [hheads, hbad, List.getLast?_nil, Bool.false_eq_true, if_false]
  | false =>
    rw [hlost, if_neg Bool.false_ne_true] at hheads
    simp only [hheads, List.getLast?_singleton, List.dropLast_singleton, readWhole_ok, hdies.pageDecodes, List.all_cons, List.all_nil, Bool.and_true]

/-! ### A channel's map (R289) -/

/-- The channel as a root leaves it, before later pages. -/
def rootLoaded (u : State) (c : Nat) (r : Root) (m : Tab MapEntry) : State :=
  setCh u c { getCh u c with map := sortBy (fun x y => decide (x.1 ≤ y.1)) m, dirty := [], segs := r.segs, queue := r.queues }

/-- The found pages that the root does not cover, by sequence number. -/
def laterPages (r : Root) (l : List (Nat × Page)) : List (Nat × Page) :=
  sortBy (fun (x y : Nat × Page) => decide (x.2.seq ≤ y.2.seq)) (l.filter (fun e => decide (r.seq ≤ e.2.seq)))

theorem replayChannel_none {s : State} {c : Nat} (h : (chooseRoot c s false (getCh s c).roots).2 = none) :
    replayChannel s c = ((chooseRoot c s false (getCh s c).roots).1, false) := by
  simp only [replayChannel, h]

theorem replayChannel_some {s : State} {c : Nat} {r : Root} {m : Tab MapEntry} (h : (chooseRoot c s false (getCh s c).roots).2 = some (r, m)) :
    ∃ u, Replayed s u ∧ replayChannel s c = ((laterPages r (findBlocks c (replayBlocks r) (rootLoaded u c r m, [])).2).foldl (replayPage c)
      (findBlocks c (replayBlocks r) (rootLoaded u c r m, [])).1, true) := by
  refine ⟨(chooseRoot c s false (getCh s c).roots).1, Replayed.chooseRoot .., ?_⟩
  simp only [replayChannel, h]
  rfl

theorem rootLoaded_map (u : State) (c : Nat) (r : Root) (m : Tab MapEntry) : (getCh (rootLoaded u c r m) c).map = sortBy (fun x y => decide (x.1 ≤ y.1)) m := by
  rw [rootLoaded, getCh_setCh]

theorem Replayed.rootLoaded {s u : State} (h : Replayed s u) (c : Nat) (r : Root) (m : Tab MapEntry) : Replayed s (rootLoaded u c r m) := h.trans (setCh u c rfl)

theorem Replayed.replayChannel (s : State) (c : Nat) : Replayed s (replayChannel s c).1 := by
  cases h : (Machine.chooseRoot c s false (getCh s c).roots).2 with
  | none =>
    rw [replayChannel_none h]
    exact chooseRoot ..
  | some a =>
    obtain ⟨r, m⟩ := a
    obtain ⟨u, hu, hreplay⟩ := replayChannel_some h
    rw [hreplay]
    exact ((hu.rootLoaded c r m).trans (findBlocks_pages c (replayBlocks r) (Machine.rootLoaded u c r m, [])).1.replayed).trans (foldl (fun _ _ => replayPage ..) _ _)

/-- Where no found page is later than the root, the map is the root's. -/
theorem replayChannel_covered {s : State} {c : Nat} {r : Root} {m : Tab MapEntry} (h : (chooseRoot c s false (getCh s c).roots).2 = some (r, m))
    (hnone : ∀ u, Replayed s u → ∀ e ∈ (findBlocks c (replayBlocks r) (u, [])).2, e.2.seq < r.seq) :
    (replayChannel s c).2 = true ∧ (getCh (replayChannel s c).1 c).map = sortBy (fun x y => decide (x.1 ≤ y.1)) m := by
  obtain ⟨u, hu, hreplay⟩ := replayChannel_some h
  have hlater : laterPages r (findBlocks c (replayBlocks r) (rootLoaded u c r m, [])).2 = [] := by
    have hempty : (findBlocks c (replayBlocks r) (rootLoaded u c r m, [])).2.filter (fun e => decide (r.seq ≤ e.2.seq)) = [] :=
      List.filter_eq_nil_iff.mpr fun e he hle => absurd (hnone _ (hu.rootLoaded c r m) e he) (Nat.not_lt.mpr (of_decide_eq_true hle))
    rw [laterPages, hempty]
    rfl
  rw [hreplay, hlater]
  exact ⟨rfl, ((findBlocks_pages ..).1.map c).trans (rootLoaded_map ..)⟩

theorem luEntry_setLu (s : State) (c lu : Nat) (e : MapEntry) : luEntry (setLu s c lu e) c lu = some e := by
  have hmap : (getCh (setLu s c lu e) c).map = tset (getCh s c).map lu e := congrArg Channel.map (getCh_setCh s c _)
  rw [luEntry, hmap]
  exact find_tset ..

/-- A later data page that the replay finds alone is its unit's current contents. -/
theorem replayChannel_later {s : State} {c : Nat} {r : Root} {m : Tab MapEntry} {e : Nat × Page} (h : (chooseRoot c s false (getCh s c).roots).2 = some (r, m))
    (hfound : ∀ u, Replayed s u → (findBlocks c (replayBlocks r) (u, [])).2 = [e]) (hseq : r.seq ≤ e.2.seq) (hkind : e.2.kind = 0) :
    luEntry (replayChannel s c).1 c e.2.lu = some (.page (positionOf s c (e.1 / 2 ^ 23) (e.1 % 2 ^ 23)) (e.1 % 2 ^ 23)) := by
  obtain ⟨u, hu, hreplay⟩ := replayChannel_some h
  have hloaded := hu.rootLoaded c r m
  have hblocks := hloaded.trans (findBlocks_pages c (replayBlocks r) (rootLoaded u c r m, [])).1.replayed
  have hlater : laterPages r [e] = [e] := by
    simp only [laterPages, List.filter_cons, List.filter_nil, decide_eq_true hseq, if_true]
    rfl
  rw [hreplay, hfound _ hloaded, hlater]
  simp only [List.foldl_cons, List.foldl_nil, replayPage, hkind, luEntry_setLu, hblocks.positionOf]

end Sys2Proof.Machine
end

section
/-! SUPPORT. A recovery of the whole flash: every channel replayed, the open stripes closed, and its end (09 R289 to R291), and the statement about it. -/

namespace Sys2Proof.Machine

open Sys2Proof

/-! ### Every channel replayed (R289) -/

/-- Before the first channel, what the recovery counts is clear. -/
def recoveryBegun (s : State) : State := { s with fl := { s.fl with recovStripes := 0, recovLost := 0, recovOlder := false, retained := [] } }

/-- Channels are replayed one after another. -/
def replayEach (l : List Nat) (a : State × Bool) : State × Bool :=
  l.foldl (fun a c => ((replayChannel a.1 c).1, a.2 && (replayChannel a.1 c).2)) a

theorem replayAll_eq (s : State) : replayAll s = replayEach (fittedChans s) (recoveryBegun s, true) := rfl

theorem Replayed.replayEach (l : List Nat) (a : State × Bool) : Replayed a.1 (replayEach l a).1 := by
  induction l generalizing a with
  | nil => exact refl a.1
  | cons c l ih => exact (replayChannel a.1 c).trans (ih ((Machine.replayChannel a.1 c).1, a.2 && (Machine.replayChannel a.1 c).2))

theorem Replayed.replayAll (s : State) : Replayed (recoveryBegun s) (replayAll s).1 := replayEach (fittedChans s) (recoveryBegun s, true)

theorem replayEach_failed (l : List Nat) (s : State) : (replayEach l (s, false)).2 = false := by
  induction l generalizing s with
  | nil => rfl
  | cons c l ih => exact ih (replayChannel s c).1

/-- A channel without a root of the format fails the recovery. -/
theorem replayEach_noRoot {c : Nat} {l : List Nat} (hc : c ∈ l) (a : State × Bool) (h : ∀ r ∈ (getCh a.1 c).roots, r.fmtId ≠ a.1.fl.fmtId) : (replayEach l a).2 = false := by
  induction l generalizing a with
  | nil => cases hc
  | cons k l ih =>
    have hreplay := Replayed.replayChannel a.1 k
    rcases List.mem_cons.mp hc with rfl | hc
    · have hfail : (replayChannel a.1 c).2 = false := by rw [replayChannel_none (by rw [chooseRoot_none h])]
      change (replayEach l ((replayChannel a.1 c).1, a.2 && (replayChannel a.1 c).2)).2 = false
      rw [hfail, Bool.and_false]
      exact replayEach_failed ..
    · refine ih hc ((replayChannel a.1 k).1, a.2 && (replayChannel a.1 k).2) ?_
      rw [hreplay.roots, hreplay.fmtId]
      exact h

/-! ### Open stripes are closed (R290) -/

/-- A unit whose page cannot be read is LOST, and counted. -/
def unitLost (s : State) (c lu : Nat) : State :=
  { setLu s c lu .lost with fl := { (setLu s c lu .lost).fl with recovLost := min ((setLu s c lu .lost).fl.recovLost + 1) (2 ^ 20 - 1) } }

/-- Only the flash block but its FSTATE has changed, and calibration items that take effect. -/
def RecoveryWork (s t : State) : Prop := t = { s with fl := { t.fl with fstate := s.fl.fstate }, cal := t.cal }

namespace RecoveryWork

theorem refl (s : State) : RecoveryWork s s := rfl

theorem trans {a b c : State} (hab : RecoveryWork a b) (hbc : RecoveryWork b c) : RecoveryWork a c := by
  unfold RecoveryWork at *
  rw [hbc, hab]

theorem foldl {α : Type} {f : State → α → State} (h : ∀ x a, RecoveryWork x (f x a)) (l : List α) (s : State) : RecoveryWork s (l.foldl f s) :=
  foldl_keeps (RecoveryWork s) f (fun _ _ hx => hx.trans (h ..)) l s (refl s)

theorem of_replayed {s t : State} (h : Replayed s t) : RecoveryWork s t := by
  unfold RecoveryWork
  rw [h.frame]

theorem of_programs {s t : State} (h : Programs s t) : RecoveryWork s t := by
  unfold RecoveryWork
  rw [h.frame]

section fields
variable {s t : State} (h : RecoveryWork s t)
include h

theorem fstate : t.fl.fstate = s.fl.fstate := by rw [h]
theorem frame : t = { s with fl := t.fl, cal := t.cal } := by rw [h]
theorem pending : t.pending = s.pending := by rw [h]
theorem fab : t.fab = s.fab := by rw [h]

end fields

/-- Any flash block of the same FSTATE. -/
theorem setFl {s t : State} (h : RecoveryWork s t) {f : FlSt} (hf : f.fstate = t.fl.fstate) : RecoveryWork s { t with fl := f } := by
  have hsame : { f with fstate := s.fl.fstate } = f := by rw [← h.fstate, ← hf]
  unfold RecoveryWork
  rw [hsame, h]

theorem recoveryBegun (s : State) : RecoveryWork s (recoveryBegun s) := rfl

theorem replayAll (s : State) : RecoveryWork s (replayAll s).1 := (recoveryBegun s).trans (of_replayed (Replayed.replayAll s))

theorem unitLost (s : State) (c lu : Nat) : RecoveryWork s (unitLost s c lu) := setFl (of_replayed (Replayed.setLu s c lu .lost)) rfl

theorem losePage (s : State) (x : Super) (m k : Nat) : RecoveryWork s (losePage s x m k) := by
  simp only [Machine.losePage]
  split
  · exact refl s
  · next z _ =>
    split
    · exact refl s
    · have hread : RecoveryWork s (readWhole s (s.fl.fmtW * x.g + m) [memberKey s s.fl.fmtW x m k]).1 := of_replayed (DieWork.readWhole ..).replayed
      split
      · exact hread
      · have hput := hread.trans (of_programs (Programs.putSuper _ { z with absent := z.absent ++ [(m, k)] }))
        split
        · next e _ => exact hput.trans (unitLost _ _ e.1)
        · exact hput

theorem closeStripes (n : Nat) (s : State) (g d num : Nat) : RecoveryWork s (closeStripes n s g d num) := by
  induction n generalizing s with
  | zero => exact refl s
  | succ n ih =>
    simp only [Machine.closeStripes]
    split
    · exact refl s
    · split
      · exact refl s
      · exact (of_programs (Programs.closeOldest ..)).trans (ih _)

theorem closeSuper (s : State) (x : Super) : RecoveryWork s (closeSuper s x) := by
  simp only [Machine.closeSuper]
  exact (setFl (foldl (fun _ _ => foldl (fun _ _ => losePage ..) _ _) _ _) rfl).trans (closeStripes ..)

theorem closeGroups (s : State) : RecoveryWork s (closeGroups s) := by
  have hclosed : RecoveryWork s ((s.fl.supers.filter (fun x => openStripes x != 0)).foldl Machine.closeSuper s) := foldl closeSuper _ _
  exact hclosed.setFl rfl

end RecoveryWork

theorem exec_flashRecovery {s : State} (hstate : s.fl.fstate = 4) (hreplayed : s.fl.replayed = false) : exec .flashRecovery s =
    onUnit s true (if (replayAll s).2 then closeGroups (replayAll s).1 else serveFlash (failFlash { (replayAll s).1 with fl := { (replayAll s).1.fl with fstate := 6 } } 4)) := by
  have hrun : ¬(s.fl.fstate ≠ 4 ∨ s.fl.replayed = true) := by rw [hstate, hreplayed]; decide
  change execFlashRecovery s = _
  rw [execFlashRecovery, if_neg hrun]

/-! ### The end of a recovery (R291) -/

/-- The flash in service after its recovery. -/
def recoveryEnded (s : State) (ms : Nat) : State :=
  { s with fl := { s.fl with fstate := 5, done := true, err := 0, replayed := false, recovMs := min ms (2 ^ 20 - 1) } }

theorem exec_flashRecoveryEnd {s : State} (ms : Nat) (hstate : s.fl.fstate = 4) (hreplayed : s.fl.replayed = true) : exec (.flashRecoveryEnd ms) s =
    onUnit s true (serveFlash (recoveryEnded ((fittedChans s).foldl takeCheckpoint s) ms)) := by
  change execFlashRecoveryEnd ms s = _
  rw [execFlashRecoveryEnd, if_pos ⟨hstate, hreplayed⟩]
  rfl

/-! ### The statement -/

/-- The one block that a root names holds the channel's one page: it is found where it decodes. -/
theorem findBlocks_single {s u : State} {c chip b k : Nat} {e : Nat × Page} (h : Replayed s u) (hpages : (getCh s c).pages = [e])
    (hk : k < pagesOf (getCh s c)) (hkey : e.1 = pageKey chip (b * pagesOf (getCh s c) + k)) (hfmt : e.2.fmtId = s.fl.fmtId) :
    (findBlocks c [(chip, b, k)] (u, [])).2 = if pageDecodes s c e.1 then [e] else [] := by
  rw [← h.pagesOf] at hk hkey
  rw [← h.pages] at hpages
  rw [← h.fmtId] at hfmt
  rw [← h.pageDecodes]
  exact findIn_single hpages hkey hfmt hk

/-- Settles O37: the root that a recovery takes, the map that it rebuilds, and its two ends. -/
theorem flashRecoveryRebuildsTheMap : Obligations.FlashRecoveryRebuildsTheMap := by
  unfold Obligations.FlashRecoveryRebuildsTheMap
  refine ⟨fun s hstate hreplayed hheld hroot => ?noRoot, fun s hstate hreplayed hall => ?rebuilt,
    fun s c older r l hfmt => ⟨fun hpages hsegs => ?taken, fun hlost => ?passed⟩,
    fun s c r m hr => ⟨fun hcovered => ?covered, fun e chip b k hpages hblocks hk hkey hseq hfmt hkind => ⟨fun hok => ?later, fun hlost => ?interrupted⟩⟩,
    fun s ms hstate hreplayed hheld => ?ended⟩
  case noRoot =>
    obtain ⟨c, hc, hroots⟩ := hroot
    have hfail : (replayAll s).2 = false := replayEach_noRoot hc (recoveryBegun s, true) hroots
    have hwork := RecoveryWork.replayAll s
    have heach := Replayed.replayAll s
    rw [exec_flashRecovery hstate hreplayed, hfail]
    generalize (replayAll s).1 = u at hwork heach
    have hidle : serveFlash (failFlash { u with fl := { u.fl with fstate := 6 } } 4) = failFlash { u with fl := { u.fl with fstate := 6 } } 4 :=
      serveFlash_idle (by rw [← hheld, ← hwork.fab]; rfl)
    refine ⟨failFlash { u with fl := { u.fl with fstate := 6 } } 4, (onUnit_keep rfl (by rw [← hwork.pending, if_neg Bool.false_ne_true, hidle]; rfl)).trans ?_,
      rfl, rfl, rfl, heach.supers, heach.pages, ?_⟩
    · rw [if_neg Bool.false_ne_true, hidle]
    · rw [hwork]; rfl
  case rebuilt =>
    have hwork := (RecoveryWork.replayAll s).trans (RecoveryWork.closeGroups (replayAll s).1)
    have hmark : (closeGroups (replayAll s).1).fl.replayed = true := rfl
    rw [exec_flashRecovery hstate hreplayed, hall, if_pos rfl]
    generalize closeGroups (replayAll s).1 = t at hwork hmark
    exact ⟨t, onUnit_keep rfl hwork.pending, hmark, hwork.fstate.trans hstate, hwork.frame⟩
  case taken =>
    obtain ⟨m, hm⟩ := rootRead_some (fun k hk => pageDecodes_true.mpr (hpages k hk)) fun e he => (hsegs e he).imp_right pageDecodes_true.mpr
    refine ⟨_, m, chooseRoot_taken hfmt hm, ?_⟩
    change ((rootRead c s r).1.fl.recovOlder || older) = _
    rw [(DieWork.rootRead c s r).recovOlder]
  case passed =>
    obtain ⟨k, hk, hj⟩ := hlost
    exact ⟨_, chooseRoot_passed hfmt (rootRead_none hk (pageDecodes_false.mpr hj)), (DieWork.rootRead c s r).frame⟩
  case covered =>
    refine replayChannel_covered hr fun u hu e he => hcovered e ?_
    rcases (findBlocks_pages c (replayBlocks r) (u, [])).2 e he with hnil | hin
    · cases hnil
    · exact hu.pages c ▸ hin
  case later =>
    refine replayChannel_later hr (fun u hu => ?_) hseq hkind
    rw [hblocks, findBlocks_single hu hpages hk hkey hfmt, if_pos (pageDecodes_true.mpr hok)]
  case interrupted =>
    refine (replayChannel_covered hr fun u hu x hx => ?_).2
    rw [hblocks, findBlocks_single hu hpages hk hkey hfmt, pageDecodes_false.mpr hlost, if_neg Bool.false_ne_true] at hx
    cases hx
  case ended =>
    have hflash : OnlyFlash s ((fittedChans s).foldl takeCheckpoint s) := onlyFlash_foldl s takeCheckpoint onlyFlash_takeCheckpoint _ s rfl
    rw [exec_flashRecoveryEnd ms hstate hreplayed]
    generalize (fittedChans s).foldl takeCheckpoint s = u at hflash
    have hframe : recoveryEnded u ms = { s with fl := (recoveryEnded u ms).fl } := by rw [hflash]; rfl
    have hidle : serveFlash (recoveryEnded u ms) = recoveryEnded u ms := serveFlash_idle (by rw [hframe, hheld])
    rw [hidle]
    exact ⟨_, onUnit_keep rfl (by rw [hframe]), rfl, rfl, rfl, rfl, rfl, hframe⟩

end Sys2Proof.Machine
end

section
/-! SUPPORT. The fabric manager's commands (10 R321, R327, R328, R331, R336, R337): how each is answered, and the statements about SET_NODE, SET_PATHS, QUERY, SET_GROUP, ADOPT and TEMPO_SET. -/

namespace Sys2Proof.Machine

open Sys2Proof

/-! ### The answer of a command (10 R327) -/

section answered
variable {s : State} (hruns : nmcRuns s = true) (tag : Nat) {malformed refused : Bool} {eff : State → State}
include hruns

/-- A malformed command changes nothing. -/
theorem manager_malformed (h : malformed = true) : onUnit s true (manager s tag (verdict malformed refused) eff) = .next (emit s (.answer tag 2)) := by
  subst h
  simp only [manager, hruns, Bool.not_true, Bool.false_eq_true, if_false]
  exact onUnit_keep rfl rfl

/-- Nor does one that the node's state refuses. -/
theorem manager_refused (h : malformed = false) (hr : refused = true) :
    onUnit s true (manager s tag (verdict malformed refused) eff) = .next (emit s (.answer tag 1)) := by
  subst h hr
  simp only [manager, hruns, Bool.not_true, Bool.false_eq_true, if_false]
  exact onUnit_keep rfl rfl

/-- Any other has its effect, and then its answer. -/
theorem manager_done (h : malformed = false) (hr : refused = false) (hp : (eff s).pending = s.pending) :
    onUnit s true (manager s tag (verdict malformed refused) eff) = .next (emit (eff s) (.answer tag 0)) := by
  subst h hr
  simp only [manager, hruns, Bool.not_true, Bool.false_eq_true, if_false]
  exact onUnit_keep rfl hp

end answered

/-- SET_NODE is refused while a Position is admitted, as TEMPO_SET is (10 R321, R336). -/
theorem positions_isEmpty {s : State} : (!s.bd.positions.isEmpty) = true ↔ s.bd.positions ≠ [] := by simp

theorem positions_none {s : State} (h : s.bd.positions = []) : (!s.bd.positions.isEmpty) = false := by simp [h]

/-- Settles O16: SET_NODE by its three verdicts; SET_PATHS of a node below 256 and QUERY are always done. -/
theorem managerNodeCommands : Obligations.ManagerNodeCommands := by
  unfold Obligations.ManagerNodeCommands
  refine ⟨fun s tag node domain standin hruns => ?setNode, fun s tag node mask hruns hnode => ?setPaths, fun s tag hruns => ?query⟩
  case setNode =>
    by_cases hbad : 256 ≤ node ∨ 65536 ≤ domain
    · rw [if_pos hbad]
      exact manager_malformed hruns tag (by simpa using hbad)
    · have hok : (decide (256 ≤ node) || decide (65536 ≤ domain)) = false := by simpa using hbad
      rw [if_neg hbad]
      by_cases hadmitted : s.bd.positions ≠ []
      · rw [if_pos hadmitted]
        exact manager_refused hruns tag hok (positions_isEmpty.mpr hadmitted)
      · rw [if_neg hadmitted]
        refine (manager_done hruns tag hok (positions_none (not_not.mp hadmitted)) rfl).trans ?_
        cases standin <;> rfl
  case setPaths => exact manager_done hruns tag (decide_eq_false (by omega)) rfl rfl
  case query =>
    refine (manager_done (malformed := false) (refused := false) hruns tag rfl rfl ?_).trans ?_
    · rfl
    · simp only [emit, List.append_assoc, List.cons_append, List.nil_append]

/-- Nothing refuses a SET_GROUP of a member's position outside stand-in mode, unless it changes the group of an enabled guard set (10 R327, R331). -/
theorem setGroup_admitted (s : State) (cfg : GroupCfg) : (decide (cfg.gsize ≤ cfg.pos) || s.fab.standin || (guardOn s && changesGroup s cfg)) = false
    ↔ cfg.pos < cfg.gsize ∧ s.fab.standin = false ∧ (guardOn s = false ∨ changesGroup s cfg = false) := by
  rw [Bool.or_eq_false_iff, Bool.or_eq_false_iff, Bool.and_eq_false_iff, decide_eq_false_iff_not, not_le, and_assoc]

/-- Settles O17, by the verdicts of SET_GROUP and ADOPT. -/
theorem groupCommandsWaitForBoundary : Obligations.GroupCommandsWaitForBoundary := by
  unfold Obligations.GroupCommandsWaitForBoundary
  refine ⟨fun s tag cfg hruns hok => ?setGroup, fun s tag node cfg hruns hok hnode hpos => ?adopt, fun s tag cfg hruns hbad => ?malformed⟩
  case setGroup =>
    split
    · rename_i h
      exact manager_done hruns tag hok ((setGroup_admitted s cfg).mpr h) rfl
    · rename_i h
      exact manager_refused hruns tag hok (Bool.eq_true_of_not_eq_false (mt (setGroup_admitted s cfg).mp h))
  case adopt =>
    have hfields : (decide (256 ≤ node) || groupMalformed cfg || decide (cfg.gsize ≤ cfg.pos)) = false := by simp [hok, hnode, hpos]
    split
    · rename_i h
      exact manager_done hruns tag hfields (by simp [h.1, h.2]) rfl
    · rename_i h
      exact manager_refused hruns tag hfields (by simpa [-not_and, not_and_or] using h)
  case malformed => exact manager_malformed hruns tag hbad

/-- Settles O18: TEMPO_SET is done where no Position is admitted, and refused elsewhere. -/
theorem tempoSetOnlyWithoutPositions : Obligations.TempoSetOnlyWithoutPositions := by
  unfold Obligations.TempoSetOnlyWithoutPositions
  intro s tag link count hruns hcount
  have hok : decide (2 ^ 64 ≤ count) = false := decide_eq_false (by omega)
  exact ⟨fun h => manager_done hruns tag hok (positions_none h) rfl, fun h => manager_refused hruns tag hok (positions_isEmpty.mpr h)⟩

end Sys2Proof.Machine
end

section
/-! SUPPORT. The tempo counter's master (10 R318 to R320, R327; 15 R480; log entry 34), and the statement about it. -/

namespace Sys2Proof.Machine

open Sys2Proof

/-- The NMC's reports are events, and leave the node (10 R328). -/
theorem eventWork_report (s : State) (code cls t u a b c : Nat) : EventWork s (report s code cls t u a b c) :=
  eventWork_trans (b := emit s (.report code [a, b, c])) rfl (eventWork_raise ..)

/-! ### A sync flit (10 R319, R320) -/

/-- The counter lies within one tick of the master. -/
def inTempo (s : State) (l count : Nat) : Bool := decide (-256 ≤ masterOffset s l count ∧ masterOffset s l count ≤ 256)

/-- OFFSET and SYNCED after a sync flit; `offOut` notes that the excursion has been reported. -/
def offsetTaken (s : State) (l count : Nat) : State :=
  { s with fab := { s.fab with offset := masterOffset s l count, synced := inTempo s l count, offOut := !inTempo s l count } }

/-- The state after a sync flit, but for the slew: an excursion that is new is reported. -/
def syncTaken (s : State) (l count : Nat) : State :=
  if !inTempo s l count && !s.fab.offOut then report (offsetTaken s l count) 0x0062 0 0x7F (linkUnit l) 0 0 0 else offsetTaken s l count

theorem exec_syncFlit (s : State) (l count : Nat) : exec (.syncFlit l count) s =
    onUnit s (linkOk l) (if (getLink s l).st = 2 ∧ s.bd.layer.isSome ∧ s.fab.syncLink = l then takeSync s l count else s) := rfl

theorem exec_syncFlit_taken {s : State} {l count : Nat} (hl : l < 24) (hup : (getLink s l).st = 2) (hlayer : s.bd.layer ≠ none) (hsync : s.fab.syncLink = l) :
    exec (.syncFlit l count) s = .next { slew (syncTaken s l count) (-(clampI (-16) 16 (masterOffset s l count))) with pending := s.pending } := by
  have hdue : (getLink s l).st = 2 ∧ s.bd.layer.isSome ∧ s.fab.syncLink = l := ⟨hup, Option.isSome_iff_ne_none.mpr hlayer, hsync⟩
  rw [exec_syncFlit, if_pos hdue]
  exact onUnit_ok (decide_eq_true hl)

theorem exec_syncFlit_ignored {s : State} {l count : Nat} (h : (getLink s l).st ≠ 2 ∨ s.bd.layer = none ∨ s.fab.syncLink ≠ l) :
    exec (.syncFlit l count) s = .next s := by
  have hidle : ¬ ((getLink s l).st = 2 ∧ s.bd.layer.isSome ∧ s.fab.syncLink = l) := by
    rintro ⟨hup, hlayer, hsync⟩
    rcases h with h | h | h
    · exact h hup
    · rw [h] at hlayer
      cases hlayer
    · exact h hsync
  rw [exec_syncFlit, if_neg hidle]
  cases linkOk l <;> rfl

section sync
variable (s : State) (l count : Nat)

theorem eventWork_syncTaken : EventWork (offsetTaken s l count) (syncTaken s l count) := by
  unfold syncTaken
  split
  · exact eventWork_report ..
  · rfl

theorem syncTaken_fab : (syncTaken s l count).fab = (offsetTaken s l count).fab := by rw [eventWork_syncTaken s l count]

variable {s l count}

/-- Within a tick of the master, and as long as one excursion lasts, nothing is reported. -/
theorem syncTaken_silent (h : inTempo s l count = true ∨ s.fab.offOut = true) : syncTaken s l count = offsetTaken s l count := by
  rw [syncTaken, if_neg (by rcases h with h | h <;> simp [h])]

theorem syncTaken_reports (h : inTempo s l count = false) (hfirst : s.fab.offOut = false) :
    ∃ more, (syncTaken s l count).out = s.out ++ .report 0x0062 [0, 0, 0] :: more := by
  rw [syncTaken, if_pos (by simp [h, hfirst])]
  exact report_out ..

end sync

/-- A slew of less than a tick moves the fraction alone (10 R319). -/
theorem slew_within {s : State} {d : Int} (hlo : -256 < s.tempoFrac + d) (hhi : s.tempoFrac + d < 256) : slew s d = { s with tempoFrac := s.tempoFrac + d } := by
  simp only [slew]
  rw [if_neg (by omega), if_neg (by omega)]

/-! ### The reference (10 R318; 15 R480) -/

/-- The state after the reference has changed: its loss is reported. -/
def refTaken (s : State) (valid : Bool) : State :=
  if valid then { s with fab := { s.fab with refOk := valid } } else report { s with fab := { s.fab with refOk := valid } } 0x0063 0 0x7F nmcUnit 0 0 0

theorem eventWork_refTaken (s : State) (valid : Bool) : EventWork { s with fab := { s.fab with refOk := valid } } (refTaken s valid) := by
  cases valid
  · exact eventWork_report ..
  · rfl

theorem exec_tempoRefChange {s : State} {valid : Bool} (hpow : s.pw.powered = true) (hchange : s.fab.refOk ≠ valid) :
    exec (.tempoRefChange valid) s = .next (refTaken s valid) := by
  have hnew : ¬ ((!s.pw.powered) = true ∨ s.fab.refOk = valid) := by simp [hpow, hchange]
  have hexec : exec (.tempoRefChange valid) s = onUnit s true (if !s.pw.powered ∨ s.fab.refOk = valid then s else refTaken s valid) := rfl
  rw [hexec, if_neg hnew]
  exact onUnit_keep rfl (by rw [eventWork_refTaken s valid])

/-- Settles O19: a sync flit by the two sides of one tick, the reference by its loss and its return. -/
theorem tempoFollowsMaster : Obligations.TempoFollowsMaster := by
  unfold Obligations.TempoFollowsMaster
  refine ⟨fun s tag l hruns hl => ?source, fun s l count hl hup hlayer hsync => ?sync, fun s l count _ h => exec_syncFlit_ignored h,
    fun u d hlo hhi => slew_within hlo hhi, fun s valid hpow hchange => ?reference⟩
  case source => exact manager_done hruns tag (by simp [linkOk, hl]) rfl rfl
  case sync =>
    refine ⟨syncTaken s l count, _, exec_syncFlit_taken hl hup hlayer hsync, rfl, syncTaken_fab s l count, fun h => ?_, fun hout hfirst => ?_, ?_⟩
    · rw [syncTaken_silent (h.imp_left fun hin => decide_eq_true hin)]
      exact ⟨rfl, rfl⟩
    · exact syncTaken_reports (decide_eq_false hout) hfirst
    · have hwork := eventWork_syncTaken s l count
      generalize syncTaken s l count = u at hwork
      rw [hwork]
      rfl
  case reference =>
    have hwork := eventWork_refTaken s valid
    refine ⟨refTaken s valid, exec_tempoRefChange hpow hchange, by rw [hwork], ?_, ?_, ?_⟩
    · rintro rfl
      exact report_out ..
    · rintro rfl
      exact ⟨rfl, rfl⟩
    · generalize refTaken s valid = t at hwork
      rw [hwork]

end Sys2Proof.Machine
end

section
/-! SUPPORT. The states of a link (10 R295, R298 to R300, R327, R328; log entry 32), and the statement about them. -/

namespace Sys2Proof.Machine

open Sys2Proof

/-! ### LINK_CTRL (10 R295, R327) -/

section linkCtrl
variable {s : State} {c : Instr} {tag l : Nat} {eff : State → State} (hexec : exec c s = onUnit s true (linkCtrl s tag l eff))
  (hruns : nmcRuns s = true) (hon : s.pw.linksOn = true) (hl : l < 24)
include hexec hruns hon hl

/-- A LINK_CTRL that moves its link reports the move, is answered, and leaves the other links alone. -/
theorem exec_linkCtrl_moves {st cause : Nat} (heff : eff s = linkTo s l st cause) (hst : (getLink s l).st ≠ st) :
    ∃ t, exec c s = .next t ∧ getLink t l = { getLink s l with st := st, cause := if cause = 0 then (getLink s l).cause else cause }
      ∧ (∃ more, t.out = s.out ++ .report 0x0060 [l, st, cause] :: (more ++ [.answer tag 0])) ∧ (∀ k, k ≠ l → getLink t k = getLink s k) ∧ LinkWork s t := by
  have hwork := linkWork_linkTo s l st cause
  have hdone : exec c s = .next (emit (linkTo s l st cause) (.answer tag 0)) := by
    rw [hexec, ← heff]
    refine (manager_done hruns tag (by simp [linkOk, hl]) rfl ?_).trans (by rw [if_pos hon])
    rw [if_pos hon, heff, hwork]
  refine ⟨_, hdone, linkTo_link s l st cause hst, ?_, fun k hk => linkTo_other s l st cause k hk, linkWork_trans hwork rfl⟩
  obtain ⟨more, hout⟩ := linkTo_out s l st cause hst
  refine ⟨more, ?_⟩
  simp only [emit, hout, List.append_assoc, List.cons_append]

end linkCtrl

/-! ### Held flits that are sent again (10 R298) -/

/-- A replay sends the flits as they were, in order, and counts them. -/
theorem replayFrom_eq (s : State) (l : Nat) (fs : List Flit) :
    ∃ cnt, replayFrom s l fs = { s with fab := { s.fab with cnt := cnt }, out := s.out ++ fs.map (fun f => .flit l f) } := by
  have hsent : ∀ (gs : List Flit) (x : State), ∃ cnt, gs.foldl (fun a f => cntFab (emit a (.flit l f)) 0 1) x
      = { x with fab := { x.fab with cnt := cnt }, out := x.out ++ gs.map (fun f => .flit l f) } := by
    intro gs
    induction gs with
    | nil => exact fun x => ⟨x.fab.cnt, by simp⟩
    | cons g gs ih =>
      intro x
      obtain ⟨cnt, h⟩ := ih (cntFab (emit x (.flit l g)) 0 1)
      refine ⟨cnt, ?_⟩
      rw [List.foldl_cons, h]
      simp only [cntFab, emit, List.map_cons, List.append_assoc, List.cons_append, List.nil_append]
  unfold replayFrom
  split
  · rename_i h
    rw [List.isEmpty_iff.mp h]
    exact ⟨s.fab.cnt, by simp⟩
  · obtain ⟨cnt, h⟩ := hsent fs s
    rw [h]
    exact ⟨_, rfl⟩

/-! ### The end of training (10 R295, R300) -/

/-- A link that has trained, with its partner's port and delay; its calibrated items are in force. -/
def linkTrained (s : State) (l port delay : Nat) : State :=
  linkTo (setLink (calLink s l) l { getLink s l with partner := port % 256, delay := delay % 2 ^ 16, replays := 0 }) l 2 0

section trained
variable (s : State) (l port delay : Nat)

theorem linkTrained_link (hst : (getLink s l).st ≠ 2) :
    getLink (linkTrained s l port delay) l = { getLink s l with st := 2, partner := port % 256, delay := delay % 2 ^ 16, replays := 0 } := by
  rw [linkTrained, linkTo_link _ _ _ _ (by rw [getLink_setLink]; exact hst), getLink_setLink]
  rfl

theorem linkTrained_other {k : Nat} (h : k ≠ l) : getLink (linkTrained s l port delay) k = getLink s k := by
  rw [linkTrained, linkTo_other _ _ _ _ _ h, getLink_setLink_other _ _ h]
  rfl

theorem linkTrained_out (hst : (getLink s l).st ≠ 2) : ∃ more, (linkTrained s l port delay).out = s.out ++ .report 0x0060 [l, 2, 0] :: more :=
  linkTo_out _ l 2 0 (by rw [getLink_setLink]; exact hst)

theorem linkTrained_work : ∃ cal, LinkWork { s with cal := cal } (linkTrained s l port delay) := by
  refine ⟨(calLink s l).cal, ?_⟩
  refine linkWork_trans (b := setLink (calLink s l) l { getLink s l with partner := port % 256, delay := delay % 2 ^ 16, replays := 0 }) ?_ (linkWork_linkTo ..)
  exact rfl

end trained

/-- LINK_UP ends training; the flits that are held then leave again. -/
theorem exec_linkUp {s : State} {l : Nat} (port delay : Nat) (hl : l < 24) (htrains : (getLink s l).st = 1 ∨ (getLink s l).st = 3)
    (hpromote : (getLink s l).promote = none) : exec (.linkUp l port delay) s =
      .next { replayFrom (linkTrained s l port delay) l (getLink (linkTrained s l port delay) l).unacked with pending := s.pending } := by
  have htrain : training s l = true := by simpa [training] using htrains
  have hexec : exec (.linkUp l port delay) s = onUnit s (linkOk l) (if training s l then trained s l port delay else s) := rfl
  rw [hexec, if_pos htrain]
  refine (onUnit_ok (decide_eq_true hl)).trans ?_
  unfold trained
  split
  · rename_i seq h
    rw [hpromote] at h
    cases h
  · rfl

/-! ### DOWN (10 R295, R298, R299) -/

/-- A link that goes to DOWN: its state and cause, the other links, and the requests that left on it. -/
theorem exec_linkDown {s : State} {c : Instr} {l cause : Nat} (hexec : exec c s = onUnit s (linkOk l) (linkDown s l cause)) (hl : l < 24)
    (hst : (getLink s l).st ≠ 4) (hcause : cause ≠ 0) : ∃ t, exec c s = .next t
      ∧ getLink t l = { getLink s l with st := 4, cause := cause, returns := (getLink t l).returns }
      ∧ (∀ k, k ≠ l → getLink t k = { getLink s k with returns := (getLink t k).returns })
      ∧ (∀ r ∈ t.fab.reqs, r ∈ s.fab.reqs ∧ ¬ (r.link = l ∧ r.sent = true)) := by
  obtain ⟨hlink, hother, hreqs⟩ := linkDown_links s l cause hst hcause
  exact ⟨_, hexec.trans (onUnit_ok (decide_eq_true hl)), hlink, hother, hreqs⟩

/-- Settles O20: LINK_CTRL's three moves, the two ends of training, and the limit of replays. -/
theorem linkStatesFollowCommands : Obligations.LinkStatesFollowCommands := by
  unfold Obligations.LinkStatesFollowCommands
  refine ⟨fun s tag l hruns hon hl => ⟨fun hst => ?enable, fun hst => ?disable, fun hst => ?retrain⟩, fun s l port delay hl htrains hpromote => ?up,
    fun s l hl => ⟨fun htrains => ?timeout, fun hup hreplays => ?limit⟩⟩
  case enable => exact exec_linkCtrl_moves (c := .linkCtrlEnable tag l) (st := 1) (cause := 0) rfl hruns hon hl (if_pos hst) (by omega)
  case disable => exact exec_linkCtrl_moves (c := .linkCtrlDisable tag l) (eff := fun x => linkTo x l 0 3) (cause := 3) rfl hruns hon hl rfl hst
  case retrain =>
    obtain ⟨t, ht, hlink, -, hother, hwork⟩ := exec_linkCtrl_moves (c := .linkCtrlRetrain tag l) (st := 3) (cause := 0) rfl hruns hon hl (if_pos hst) (by omega)
    exact ⟨t, ht, hlink, hother, hwork⟩
  case up =>
    have hst : (getLink s l).st ≠ 2 := by omega
    have hexec := exec_linkUp port delay hl htrains hpromote
    have hlink := linkTrained_link s l port delay hst
    have hother := fun k => linkTrained_other (k := k) s l port delay
    obtain ⟨more, hout⟩ := linkTrained_out s l port delay hst
    obtain ⟨cal, hwork⟩ := linkTrained_work s l port delay
    generalize linkTrained s l port delay = u at hexec hlink hother hout hwork
    obtain ⟨cnt, hsent⟩ := replayFrom_eq u l (getLink u l).unacked
    rw [hsent, hlink] at hexec
    refine ⟨_, hexec, hlink, ⟨more, ?_⟩, hother, ?_⟩
    · simp only [hout, List.append_assoc, List.cons_append]
    · rw [hwork]
  case timeout =>
    have htrain : training s l = true := by simpa [training] using htrains
    exact exec_linkDown (c := .linkTrainingTimeout l) (cause := 1) (congrArg (onUnit s (linkOk l)) (if_pos htrain)) hl (by omega) (by decide)
  case limit => exact exec_linkDown (c := .linkRetryLimit l) (cause := 2) (congrArg (onUnit s (linkOk l)) (if_pos ⟨hup, hreplays⟩)) hl (by omega) (by decide)

end Sys2Proof.Machine
end

section
/-! SUPPORT. Flits (10 R297, R298, R302; log entries 32, 62), and the statement about them. -/

namespace Sys2Proof.Machine

open Sys2Proof

/-- Only the link `l`, counters, streams and what leaves the node have changed. -/
structure FlitWork (l : Nat) (s t : State) : Prop where
  others : ∀ k, k ≠ l → getLink t k = getLink s k
  frame : t = { s with fab := { s.fab with links := t.fab.links, cnt := t.fab.cnt }, bd := { s.bd with streams := t.bd.streams }, out := t.out }

namespace FlitWork

theorem trans {l : Nat} {a b c : State} (hab : FlitWork l a b) (hbc : FlitWork l b c) : FlitWork l a c where
  others k hk := (hbc.others k hk).trans (hab.others k hk)
  frame := by rw [hbc.frame, hab.frame]

theorem cntFab (l : Nat) (s : State) (k n : Nat) : FlitWork l s (cntFab s k n) := ⟨fun _ _ => rfl, rfl⟩

theorem setLink (s : State) (l : Nat) (v : Link) : FlitWork l s (setLink s l v) := ⟨fun _ hk => getLink_setLink_other s v hk, rfl⟩

theorem sendFlit (s : State) (l kind seq : Nat) (payload : List Byte) : FlitWork l s (sendFlit s l kind seq payload) :=
  ⟨fun _ hk => getLink_setLink_other s _ hk, rfl⟩

theorem pending {l : Nat} {s t : State} (h : FlitWork l s t) : t.pending = s.pending := by rw [h.frame]

end FlitWork

/-! ### Credits that come back (10 R302) -/

theorem takeCredits_frame (s : State) (l owner stream n : Nat) : ∃ st, takeCredits s l owner stream n = withStreams s st := by
  unfold takeCredits
  split
  · split
    · exact ⟨s.bd.streams, rfl⟩
    · exact ⟨_, rfl⟩
  · exact ⟨s.bd.streams, rfl⟩

/-! ### A retry request that is sent -/

/-- The check of a flit covers the bytes before it. -/
theorem makeFlit_crc (k : Link) (kind seq : Nat) (payload : List Byte) : (makeFlit k kind seq payload).crc = crc32 (flitBytes (makeFlit k kind seq payload)) :=
  congrArg crc32 rfl

section askRetry
variable (s : State) (l : Nat)

/-- It names the number that is due next, and bears its own check. -/
theorem askRetry_sends : ∃ x : Flit, (askRetry s l).out = s.out ++ [.flit l x] ∧ x.kind = 3 ∧ x.seq = (getLink s l).rxNext ∧ x.crc = crc32 (flitBytes x) :=
  ⟨makeFlit (getLink s l) 3 (getLink s l).rxNext _, rfl, rfl, rfl, makeFlit_crc ..⟩

theorem getLink_askRetry : getLink (askRetry s l) l = { getLink s l with returns := (nextReturn (getLink s l)).2 } := getLink_setLink ..

theorem flitWork_askRetry : FlitWork l s (askRetry s l) := .sendFlit ..

end askRetry

/-! ### A flit that arrives (10 R298) -/

theorem exec_flitReceive {s : State} {l : Nat} {f : Flit} (hl : l < 24) (hf : flitOk f = true) (hup : (getLink s l).st = 2)
    (hp : (receiveFlit s l f).pending = s.pending) : exec (.flitReceive l f) s = .next (receiveFlit s l f) := by
  have hexec : exec (.flitReceive l f) s = onUnit s (linkOk l && flitOk f) (if (getLink s l).st = 2 then receiveFlit s l f else s) := rfl
  rw [hexec, if_pos hup]
  exact onUnit_keep (by simp [linkOk, hl, hf]) hp

/-- What the decoder corrected is counted. -/
theorem fecCounted (s : State) (f : Flit) : ∃ cnt, (if f.fecCorrected = 0 then s else cntFab s 2 f.fecCorrected) = { s with fab := { s.fab with cnt := cnt } } := by
  split
  · exact ⟨s.fab.cnt, rfl⟩
  · exact ⟨_, rfl⟩

/-- A flit that fails a check is counted and asked for again. -/
theorem receiveFlit_bad {s : State} {l : Nat} {f : Flit} (h : f.fecBad = true ∨ f.crc ≠ crc32 (flitBytes f)) :
    ∃ cnt, receiveFlit s l f = askRetry { s with fab := { s.fab with cnt := cnt } } l := by
  obtain ⟨cnt, hcnt⟩ := fecCounted s f
  simp only [receiveFlit, hcnt]
  split
  · exact ⟨_, rfl⟩
  · rename_i hgood
    rw [if_pos (h.resolve_left hgood)]
    exact ⟨_, rfl⟩

/-- A link once the flits up to a number are acknowledged. -/
def ackedLink (k : Link) (ack : Nat) : Link :=
  { k with unacked := k.unacked.filter (fun f => !flitUpTo f.seq ack)
           replays := if (k.unacked.filter (fun f => !flitUpTo f.seq ack)).length < k.unacked.length then 0 else k.replays }

/-- A good data or control flit acknowledges, and is delivered in its turn. -/
theorem receiveFlit_good {s : State} {l : Nat} {f : Flit} (hfec : f.fecBad = false) (hcrc : f.crc = crc32 (flitBytes f)) (hkind : f.kind = 1 ∨ f.kind = 2) :
    ∃ cnt, receiveFlit s l f = takeInOrder (setLink { s with fab := { s.fab with cnt := cnt } } l (ackedLink (getLink s l) f.ack)) l f := by
  obtain ⟨cnt, hcnt⟩ := fecCounted s f
  have hgood : ¬ f.crc ≠ crc32 (flitBytes f) := not_not.mpr hcrc
  simp only [receiveFlit, hcnt, hfec, Bool.false_eq_true, if_false, if_neg hgood]
  rcases hkind with h | h <;> rw [h] <;> exact ⟨_, rfl⟩

/-! ### Delivery in order (10 R298) -/

section inOrder
variable {s : State} {l : Nat} {f : Flit} (hlayer : s.bd.layer ≠ none)
include hlayer

/-- The flit that is due is delivered with the credits that it returns. -/
theorem takeInOrder_due (h : f.seq = (getLink s l).rxNext) :
    takeInOrder s l f = takeCredits (setLink s l { getLink s l with rxNext := ((getLink s l).rxNext + 1) % 4096 }) l f.creditOwner f.creditStream f.credits := by
  have hact : ¬ s.bd.layer.isNone = true := by simpa using hlayer
  simp only [takeInOrder, if_neg hact, if_pos h]

/-- A flit behind it shows a gap. -/
theorem takeInOrder_gap (h : f.seq ≠ (getLink s l).rxNext) (hgap : flitUpTo (getLink s l).rxNext f.seq = true) : takeInOrder s l f = askRetry s l := by
  have hact : ¬ s.bd.layer.isNone = true := by simpa using hlayer
  simp only [takeInOrder, if_neg hact, if_neg h, if_pos hgap]

/-- A repetition is discarded. -/
theorem takeInOrder_repeated (h : f.seq ≠ (getLink s l).rxNext) (hgap : flitUpTo (getLink s l).rxNext f.seq = false) : takeInOrder s l f = s := by
  have hact : ¬ s.bd.layer.isNone = true := by simpa using hlayer
  simp [takeInOrder, hact, h, hgap]

/-- What delivery leaves: the number that is due moves on with the flit that was, and a gap alone sends a flit. -/
theorem takeInOrder_delivers : FlitWork l s (takeInOrder s l f)
    ∧ (getLink (takeInOrder s l f) l).unacked = (getLink s l).unacked
    ∧ (getLink (takeInOrder s l f) l).rxNext = (if f.seq = (getLink s l).rxNext then ((getLink s l).rxNext + 1) % 4096 else (getLink s l).rxNext)
    ∧ (f.seq = (getLink s l).rxNext → (takeInOrder s l f).out = s.out)
    ∧ (f.seq ≠ (getLink s l).rxNext → flitUpTo (getLink s l).rxNext f.seq = true →
        ∃ x, (takeInOrder s l f).out = s.out ++ [.flit l x] ∧ x.kind = 3 ∧ x.seq = (getLink s l).rxNext) := by
  by_cases hdue : f.seq = (getLink s l).rxNext
  · rw [takeInOrder_due hlayer hdue, if_pos hdue]
    obtain ⟨st, hst⟩ := takeCredits_frame (setLink s l { getLink s l with rxNext := ((getLink s l).rxNext + 1) % 4096 }) l f.creditOwner f.creditStream f.credits
    rw [hst]
    have hlink : getLink (withStreams (setLink s l { getLink s l with rxNext := ((getLink s l).rxNext + 1) % 4096 }) st) l
        = { getLink s l with rxNext := ((getLink s l).rxNext + 1) % 4096 } := getLink_setLink ..
    refine ⟨(FlitWork.setLink s l _).trans ⟨fun _ _ => rfl, rfl⟩, ?_, ?_, fun _ => rfl, fun h => absurd hdue h⟩
    · rw [hlink]
    · rw [hlink]
  · rw [if_neg hdue]
    cases hgap : flitUpTo (getLink s l).rxNext f.seq with
    | true =>
      rw [takeInOrder_gap hlayer hdue hgap]
      obtain ⟨x, hout, hkind, hseq, -⟩ := askRetry_sends s l
      have hlink := getLink_askRetry s l
      exact ⟨flitWork_askRetry s l, by rw [hlink], by rw [hlink], fun h => absurd h hdue, fun _ _ => ⟨x, hout, hkind, hseq⟩⟩
    | false =>
      rw [takeInOrder_repeated hlayer hdue hgap]
      exact ⟨⟨fun _ _ => rfl, rfl⟩, rfl, rfl, fun h => absurd h hdue, fun _ h => absurd h (by decide)⟩

end inOrder

/-! ### A retry request that arrives (10 R298) -/

/-- A link that replays from a flit on: how often in a row the same flit has been asked for is counted. -/
def askedLink (k : Link) (pre rest : List Flit) : Link := { k with unacked := rest, replays := if pre = [] then k.replays + 1 else 1 }

/-- What lies before the flit that is asked for has arrived; it and the rest are sent again. -/
theorem takeRetry_held {s : State} {l : Nat} {x : Flit} {pre post : List Flit} (hheld : (getLink s l).unacked = pre ++ x :: post)
    (hfirst : ∀ y ∈ pre, y.seq ≠ x.seq) : takeRetry s l x.seq = replayFrom (setLink s l (askedLink (getLink s l) pre (x :: post))) l (x :: post) := by
  have hasked : ((getLink s l).unacked.any (fun f => f.seq == x.seq)) = true := by simp [hheld]
  have hdrop : (getLink s l).unacked.dropWhile (fun f => f.seq != x.seq) = x :: post := by
    rw [hheld, List.dropWhile_append_of_pos (by simpa using hfirst)]
    simp
  have hhead : ((getLink s l).unacked.head?.map (fun f => f.seq) = some x.seq) ↔ pre = [] := by
    rw [hheld]
    cases pre with
    | nil => simp
    | cons y pre => simpa using hfirst y (List.mem_cons_self ..)
  simp only [takeRetry, hasked, hdrop, hhead, Bool.not_true, Bool.false_eq_true, if_false]
  rfl

/-- Settles O21: a bad flit, a good one of the sequence, and a retry request. -/
theorem flitsDeliveredInOrder : Obligations.FlitsDeliveredInOrder := by
  unfold Obligations.FlitsDeliveredInOrder
  refine ⟨fun s l f hl hf hup hbad => ?bad, fun s l f hl hf hup hfec hcrc hkind hlayer => ?good, fun s l x pre post hl hup hheld hfirst => ?retry⟩
  case bad =>
    obtain ⟨cnt, h⟩ := receiveFlit_bad (s := s) (l := l) hbad
    obtain ⟨x, hout, hkind, hseq, hcrc⟩ := askRetry_sends { s with fab := { s.fab with cnt := cnt } } l
    have hexec := exec_flitReceive hl hf hup (by rw [h]; rfl)
    have hlink := getLink_askRetry { s with fab := { s.fab with cnt := cnt } } l
    have hwork := flitWork_askRetry { s with fab := { s.fab with cnt := cnt } } l
    rw [h] at hexec
    exact ⟨_, x, hexec, hout, hkind, hseq, hcrc, by rw [hlink]; rfl, hwork.others, rfl⟩
  case good =>
    obtain ⟨cnt, h⟩ := receiveFlit_good (s := s) (l := l) hfec hcrc hkind
    have hack : getLink (setLink { s with fab := { s.fab with cnt := cnt } } l (ackedLink (getLink s l) f.ack)) l = ackedLink (getLink s l) f.ack := getLink_setLink ..
    have hset : FlitWork l s (setLink { s with fab := { s.fab with cnt := cnt } } l (ackedLink (getLink s l) f.ack)) :=
      FlitWork.trans (b := { s with fab := { s.fab with cnt := cnt } }) ⟨fun _ _ => rfl, rfl⟩ (.setLink ..)
    obtain ⟨hwork, hunacked, hnext, hdue, hgap⟩ :=
      takeInOrder_delivers (s := setLink { s with fab := { s.fab with cnt := cnt } } l (ackedLink (getLink s l) f.ack)) (l := l) (f := f) hlayer
    rw [hack] at hunacked hnext hdue hgap
    rw [← h] at hwork hunacked hnext hdue hgap
    have hall := hset.trans hwork
    exact ⟨_, exec_flitReceive hl hf hup hall.pending, hunacked, hnext, hdue, hgap, hall.others, hall.frame⟩
  case retry =>
    have hexec : exec (.retryRequest l x.seq) s = onUnit s (linkOk l) (if (getLink s l).st = 2 then takeRetry s l x.seq else s) := rfl
    obtain ⟨cnt, hsent⟩ := replayFrom_eq (setLink s l (askedLink (getLink s l) pre (x :: post))) l (x :: post)
    rw [if_pos hup, takeRetry_held hheld hfirst, hsent] at hexec
    have hlink : getLink (setLink s l (askedLink (getLink s l) pre (x :: post))) l = askedLink (getLink s l) pre (x :: post) := getLink_setLink ..
    exact ⟨_, hexec.trans (onUnit_keep (decide_eq_true hl) rfl), congrArg Link.unacked hlink, rfl, congrArg Link.replays hlink, rfl⟩

end Sys2Proof.Machine
end

section
/-! SUPPORT. The commands of the guard sets (10 R331, R334, R335, R340; log entry 35), and the statement about them. -/

namespace Sys2Proof.Machine

open Sys2Proof

/-! ### A command of the selected set -/

section command
variable {s : State} {c : Instr} {eff : State → Nat → Guard → State} (hexec : exec c s = onUnit s true (guardCmd s 0 eff)) (hfull : barFull s = true)
include hexec hfull

/-- A set whose command runs ignores the next. -/
theorem exec_guardCmd_running (h : (getGuard s s.fab.guardSel).running = true) : exec c s = .next s := by
  rw [hexec, guardCmd, pfWrite_full _ _ hfull]
  dsimp only
  rw [if_pos h]
  exact onUnit_keep rfl rfl

theorem exec_guardCmd_idle (h : (getGuard s s.fab.guardSel).running = false) {t : State} (ht : eff s s.fab.guardSel (getGuard s s.fab.guardSel) = t)
    (hp : t.pending = s.pending) : exec c s = .next t := by
  rw [hexec, guardCmd, pfWrite_full _ _ hfull]
  dsimp only
  rw [if_neg (by simp [h]), ht]
  exact onUnit_keep rfl hp

end command

/-! ### A command that asks other members for units (10 R331, R335) -/

/-- A request that bears no store sequence number is handed to its link: its entry, and its packet on a stream. -/
theorem sendOn_sent {s : State} {owner t dst hash : Nat} {p : Packet} {src : ReqSource} {x : Nat × State} (hop : isStoreOp p.op = false)
    (h : sendOn s owner t dst hash p src = some x) : ∃ l st, x.2 = withStreams (addReq s ⟨s.fab.nextTag, t, dst, p.op, l, 0, p.addr, src, false⟩) st := by
  obtain ⟨l, -, rfl⟩ := Option.map_eq_some_iff.mp h
  simp only [hop, Bool.false_eq_true, if_false]
  obtain ⟨st, hst⟩ := linkToken_streams (addReq s ⟨s.fab.nextTag, t, dst, p.op, l, 0, p.addr, src, false⟩) owner l 1 (srcSquare src)
    (.packet { p with tenant := t, src := s.fab.node, dst := dst, tag := s.fab.nextTag, seq := 0 })
  exact ⟨l, st, hst⟩

/-- What a running command of set `n` has asked so far, `g` being the set as the command found it. -/
structure Asked (s : State) (n : Nat) (g : Guard) (a : State) : Prop where
  set : getGuard a n = { g with asked := (getGuard a n).asked, silent := (getGuard a n).silent }
  others : ∀ k, k ≠ n → getGuard a k = getGuard s k
  count : a.fab.reqs.length = s.fab.reqs.length + (getGuard a n).asked
  reqs : ∀ r ∈ a.fab.reqs, r ∈ s.fab.reqs ∨ (r.op = 6 ∧ r.tenant = g.tenant ∧ ∃ pos stripe, r.src = .guard n pos stripe)
  frame : a = { s with fab := { s.fab with guards := a.fab.guards, reqs := a.fab.reqs, nextTag := a.fab.nextTag }, bd := { s.bd with streams := a.bd.streams } }

namespace Asked

variable {s a : State} {n : Nat} {g : Guard}

/-- A member that no path leads to has not answered. -/
theorem silent (h : Asked s n g a) : Asked s n g (setGuard a n { getGuard a n with silent := true }) where
  set := by rw [getGuard_setGuard, h.set]
  others k hk := (getGuard_setGuard_other a _ hk).trans (h.others k hk)
  count := by rw [getGuard_setGuard]; exact h.count
  reqs := h.reqs
  frame := by
    conv_lhs => rw [h.frame]
    rfl

/-- One more unit is asked for, in a request of its own. -/
theorem sent (h : Asked s n g a) {r : Req} {st : Tab StreamSt} (hop : r.op = 6) (htenant : r.tenant = g.tenant) (hsrc : ∃ pos stripe, r.src = .guard n pos stripe) :
    Asked s n g (setGuard (withStreams (addReq a r) st) n { getGuard a n with asked := (getGuard a n).asked + 1 }) where
  set := by rw [getGuard_setGuard, h.set]
  others k hk := (getGuard_setGuard_other _ _ hk).trans (h.others k hk)
  count := by
    have hlen : (setGuard (withStreams (addReq a r) st) n { getGuard a n with asked := (getGuard a n).asked + 1 }).fab.reqs = a.fab.reqs ++ [r] := rfl
    rw [getGuard_setGuard, hlen, List.length_append, h.count]
    rfl
  reqs x hx := by
    rcases List.mem_append.mp hx with hx | hx
    · exact h.reqs x hx
    · rw [List.mem_singleton.mp hx]
      exact .inr ⟨hop, htenant, hsrc⟩
  frame := by
    conv_lhs => rw [h.frame]
    rfl

theorem askUnit (h : Asked s n g a) (x : GroupCfg) (stripe : Nat) (u : Shard) : Asked s n g (askUnit n g x stripe a u) := by
  unfold Machine.askUnit
  dsimp only
  split
  · rename_i r hr
    obtain ⟨l, st, hst⟩ := sendOn_sent rfl hr
    rw [hst]
    exact h.sent rfl rfl ⟨_, _, rfl⟩
  · exact h.silent

end Asked

/-- The set as its command finds it. -/
def startedSet (g : Guard) (st : Nat) : Guard := { g with st := st, running := true, units := 0, asked := 0, shards := [], silent := false }

/-- A command that starts asks for units, stripe by stripe. -/
theorem startGuard_asked (s : State) (n st : Nat) : Asked s n (startedSet (getGuard s n) st) (startGuard s n st) := by
  have hstart : Asked s n (startedSet (getGuard s n) st) (setGuard s n (startedSet (getGuard s n) st)) :=
    ⟨by rw [getGuard_setGuard], fun k hk => getGuard_setGuard_other s _ hk, by rw [getGuard_setGuard]; rfl, fun r hr => .inl hr, rfl⟩
  unfold startGuard
  dsimp only
  split
  · exact hstart
  · exact foldl_keeps _ _ (fun a i ha => foldl_keeps _ _ (fun b u hb => hb.askUnit _ i u) _ a ha) _ _ hstart

/-- What a command that starts leaves: the set, and requests of its own. -/
def GuardStarted (s : State) (n st : Nat) (t : State) : Prop :=
  getGuard t n = { getGuard s n with st := st, running := true, units := 0, asked := (getGuard t n).asked, shards := [], silent := (getGuard t n).silent }
    ∧ (∀ k, k ≠ n → getGuard t k = getGuard s k)
    ∧ t.fab.reqs.length = s.fab.reqs.length + (getGuard t n).asked
    ∧ (∀ r ∈ t.fab.reqs, r ∈ s.fab.reqs ∨ (r.op = 6 ∧ r.tenant = (getGuard s n).tenant ∧ ∃ pos stripe, r.src = .guard n pos stripe))
    ∧ t = { s with fab := { s.fab with guards := t.fab.guards, reqs := t.fab.reqs, nextTag := t.fab.nextTag }, bd := { s.bd with streams := t.bd.streams } }

theorem startGuard_started (s : State) (n st : Nat) : GuardStarted s n st (startGuard s n st) :=
  have h := startGuard_asked s n st
  ⟨h.set, h.others, h.count, h.reqs, h.frame⟩

theorem startGuard_pending (s : State) (n st : Nat) : (startGuard s n st).pending = s.pending := by rw [(startGuard_asked s n st).frame]

theorem exec_guardCmd_starts {s : State} {c : Instr} {eff : State → Nat → Guard → State} {st : Nat} (hexec : exec c s = onUnit s true (guardCmd s 0 eff))
    (hfull : barFull s = true) (hidle : (getGuard s s.fab.guardSel).running = false)
    (heff : eff s s.fab.guardSel (getGuard s s.fab.guardSel) = startGuard s s.fab.guardSel st) :
    ∃ t, exec c s = .next t ∧ GuardStarted s s.fab.guardSel st t :=
  ⟨_, exec_guardCmd_idle hexec hfull hidle heff (startGuard_pending ..), startGuard_started ..⟩

/-! ### Which command starts -/

section checks
variable {s : State} {n : Nat}

theorem enableGuard_fails {b : Bool} {e : Nat} (h : guardFails s (getGuard s n) b = some e) :
    enableGuard s n b = setGuard s n { getGuard s n with fail := true, err := e } := by
  simp only [enableGuard, h]

theorem enableGuard_starts {b : Bool} (h : guardFails s (getGuard s n) b = none) : enableGuard s n b = startGuard s n 1 := by
  simp only [enableGuard, h]

/-- RESYNC and REBUILD of a set that is off are checked as ENABLE is (log entry 35). -/
theorem runGuardCmd_fails {st e : Nat} {b : Bool} (hoff : (getGuard s n).st = 0) (h : guardFails s (getGuard s n) b = some e) :
    runGuardCmd s n st b = setGuard s n { getGuard s n with fail := true, err := e } := by
  simp only [runGuardCmd, hoff, if_true, h]

theorem runGuardCmd_starts {st : Nat} {b : Bool} (h : (getGuard s n).st ≠ 0 ∨ guardFails s (getGuard s n) b = none) : runGuardCmd s n st b = startGuard s n st := by
  have hnone : (if (getGuard s n).st = 0 then guardFails s (getGuard s n) b else none) = none := by
    split
    · rename_i hoff
      exact h.resolve_left (not_not.mpr hoff)
    · rfl
  simp only [runGuardCmd, hnone]

end checks

/-! ### The end of a command (10 R331, R335) -/

theorem guardDue_iff {s : State} {n u : Nat} {re : Bool} : guardDue s n u re = true ↔
    (getGuard s n).running = true ∧ (getGuard s n).tenant = u ∧ (re = true ↔ (getGuard s n).st = 3) ∧ (getGuard s n).asked = 0 ∧ flashWait s = false := by
  have hkind : (((getGuard s n).st == 3) == re) = true ↔ (re = true ↔ (getGuard s n).st = 3) := by
    cases re <;> simp
  simp only [guardDue, Bool.and_eq_true, hkind, beq_iff_eq, Bool.not_eq_true', and_assoc]

theorem exec_guardCommandEnd (s : State) (n u : Nat) (re : Bool) : exec (.guardCommandEnd n u re) s =
    onUnit s (wellFormed (.guardCommandEnd n u re)) (if guardDue s n u re then endGuard s n else s) := rfl

section ends
variable {s : State} {n u : Nat} {re : Bool} (hwf : wellFormed (.guardCommandEnd n u re) = true)
include hwf

theorem exec_guardCommandEnd_early (h : ¬ guardDue s n u re = true) : exec (.guardCommandEnd n u re) s = .next s := by
  rw [exec_guardCommandEnd, if_neg h]
  exact onUnit_keep hwf rfl

theorem exec_guardCommandEnd_due (h : guardDue s n u re = true) {t : State} (ht : endGuard s n = t) :
    exec (.guardCommandEnd n u re) s = .next { t with pending := s.pending } := by
  rw [exec_guardCommandEnd, if_pos h, ht]
  exact onUnit_ok hwf

end ends

section endGuard
variable {s : State} {n : Nat}

theorem endGuard_noGroup (h : s.fab.group = none) :
    endGuard s n = setGuard s n { getGuard s n with running := false, shards := [], fail := true, err := 3 } := by
  simp only [endGuard, h]

variable {x : GroupCfg} (h : s.fab.group = some x)
include h

theorem endGuard_silent (hsilent : (getGuard s n).silent = true) :
    endGuard s n = setGuard s n { getGuard s n with running := false, shards := [], fail := true, err := 4 } := by
  simp only [endGuard, h, hsilent, if_true]

theorem endGuard_stripes (hall : (getGuard s n).silent = false) {r : State × Nat × Nat}
    (hr : r = guardStripes (getGuard s n) x (guardUnits s (getGuard s n)) (getGuard s n).shards
      (List.range (x.gsize * ceilDiv (guardUnits s (getGuard s n)) (guardK x.gsize (getGuard s n).p))) s 0) :
    endGuard s n = setGuard r.1 n (if r.2.2 = 0 then { getGuard s n with running := false, shards := [], st := 2, done := true, err := 0, units := r.2.1 }
      else { getGuard s n with running := false, shards := [], fail := true, err := r.2.2, units := r.2.1 }) := by
  simp only [endGuard, h, hall, Bool.false_eq_true, if_false, guardStripeCount, ← hr]
  split <;> rfl

end endGuard

/-- Settles O22: the commands of an idle set, of one whose command runs, and the ends of a command. -/
theorem guardSetCommands : Obligations.GuardSetCommands := by
  unfold Obligations.GuardSetCommands
  intro started
  refine ⟨fun s agree n hfull hn hidle => ?idle, fun s agree hfull hruns => ?running, fun s n u re hwf => ⟨fun hearly => ?early, fun h1 h2 h3 h4 h5 => ?ended⟩⟩
  case idle =>
    subst hn
    refine ⟨fun e he => ?enableFails, fun he => ?enables, ?disables, fun h => ⟨?resyncs, ?rebuilds⟩, fun e hoff he => ⟨?resyncFails, ?rebuildFails⟩⟩
    case enableFails => exact exec_guardCmd_idle rfl hfull hidle (enableGuard_fails he) rfl
    case enables => exact exec_guardCmd_starts rfl hfull hidle (enableGuard_starts he)
    case disables => exact exec_guardCmd_idle rfl hfull hidle rfl rfl
    case resyncs => exact exec_guardCmd_starts rfl hfull hidle (runGuardCmd_starts h)
    case rebuilds => exact exec_guardCmd_starts rfl hfull hidle (runGuardCmd_starts h)
    case resyncFails => exact exec_guardCmd_idle rfl hfull hidle (runGuardCmd_fails hoff he) rfl
    case rebuildFails => exact exec_guardCmd_idle rfl hfull hidle (runGuardCmd_fails hoff he) rfl
  case running =>
    exact ⟨exec_guardCmd_running rfl hfull hruns, exec_guardCmd_running rfl hfull hruns, exec_guardCmd_running rfl hfull hruns, exec_guardCmd_running rfl hfull hruns⟩
  case early =>
    refine exec_guardCommandEnd_early hwf fun hdue => ?_
    obtain ⟨hrun, htenant, hkind, hasked, hflash⟩ := guardDue_iff.mp hdue
    rcases hearly with h | h | h | h | h
    · simp [h] at hrun
    · exact h htenant
    · exact absurd (hkind.symm.trans h) (by simp)
    · exact h hasked
    · simp [h] at hflash
  case ended =>
    have hdue := guardDue_iff.mpr ⟨h1, h2, h3, h4, h5⟩
    exact ⟨fun hg => exec_guardCommandEnd_due hwf hdue (endGuard_noGroup hg), fun x hg hsilent => exec_guardCommandEnd_due hwf hdue (endGuard_silent hg hsilent),
      fun x r hg hall hr => exec_guardCommandEnd_due hwf hdue (endGuard_stripes hg hall hr)⟩

end Sys2Proof.Machine
end

section
/-! SUPPORT. What resets and teardowns change of a tenant's descriptors, queues and waiting MESSAGEs (02 R57; 10 R324; 11 R348, R357, R372, R373). -/

namespace Sys2Proof.Machine

open Sys2Proof

/-! ### Descriptors that end with their tenant (11 R372) -/

/-- Ending a tenant's descriptors is work of the queue engine. -/
theorem endTenant_queueWork (s : State) (t st : Nat) : QueueWork s (endTenant s t st) := by
  refine foldl_keeps (QueueWork s) _ (fun a d h => ?_) _ _ rfl
  split
  · exact QueueWork_trans h (endDesc_QueueWork ..)
  · exact h

/-- The same uncompleted descriptors of the tenants' own queues, pending or not as they were. -/
structure SamePending (s t : State) : Prop where
  kept : ∀ e ∈ s.qe.descs, isAdmin e.q = false → e ∈ t.qe.descs
  known : ∀ y ∈ t.qe.descs, ∃ e ∈ s.qe.descs, e.n = y.n ∧ e.q = y.q
  pending : ∀ e : Desc, isAdmin e.q = false → isPending t e = isPending s e

namespace SamePending

theorem trans {a b c : State} (hab : SamePending a b) (hbc : SamePending b c) : SamePending a c where
  kept e he hq := hbc.kept e (hab.kept e he hq) hq
  known y hy := by
    obtain ⟨e, he, hn, hq⟩ := hbc.known y hy
    obtain ⟨x, hx, hxn, hxq⟩ := hab.known e he
    exact ⟨x, hx, hxn.trans hn, hxq.trans hq⟩
  pending e hq := (hbc.pending e hq).trans (hab.pending e hq)

/-- Changes of queues that leave their transposition tables alone. -/
theorem of_tables {s t : State} (hdescs : t.qe.descs = s.qe.descs) (htt : ∀ q, (getQ t q).tt = (getQ s q).tt) : SamePending s t where
  kept e he _ := hdescs ▸ he
  known y hy := ⟨y, hdescs ▸ hy, rfl, rfl⟩
  pending e _ := by rw [isPending, getTt, htt, ← getTt, ← isPending]

theorem of_qe {s t : State} (h : t.qe = s.qe) : SamePending s t := of_tables (by rw [h]) fun q => by rw [getQ_qe h]

/-- The commit of a command on the admin queue. -/
theorem started {s : State} {d : Desc} (hd : d ∈ s.qe.descs) (hadmin : d.q = .admin) (huniq : ∀ e ∈ s.qe.descs, ∀ y ∈ s.qe.descs, e.n = y.n → e = y) :
    SamePending s (started s d) := by
  have hdescs : (Machine.started s d).qe.descs = s.qe.descs.map (fun x => if x.n = d.n then { d with phase := .running } else x) := by
    change (commit s d).qe.descs.map _ = _
    rw [commit_descs]
  refine ⟨fun e he hq => ?_, fun y hy => ?_, fun e hq => ?_⟩
  · rw [hdescs, List.mem_map]
    refine ⟨e, he, if_neg fun hn => ?_⟩
    rw [huniq e he d hd hn, hadmin] at hq
    cases hq
  · rw [hdescs, List.mem_map] at hy
    obtain ⟨e, he, rfl⟩ := hy
    split
    · exact ⟨d, hd, rfl, rfl⟩
    · exact ⟨e, he, rfl, rfl⟩
  · cases heq : e.q with
    | admin =>
      rw [heq] at hq
      cases hq
    | tenant t k =>
      have hq' : getQ (Machine.started s d) (.tenant t k) = getQ s (.tenant t k) := by
        simp only [Machine.started, getQ_putDesc, commit, setTt, hadmin]
        rfl
      rw [isPending, isPending, getTt, getTt, heq, hq']

/-- Of the tenant's uncommitted descriptors none is left, and each has its record with the status. -/
theorem endTenant {s z : State} (h : SamePending s z) (huniq : ∀ e ∈ s.qe.descs, ∀ y ∈ s.qe.descs, e.n = y.n → e = y) (x st : Nat) :
    (∀ e ∈ s.qe.descs, e.tenant = x → isAdmin e.q = false → isPending s e = true →
        (∀ y ∈ (endTenant z x st).qe.descs, y.n ≠ e.n) ∧ ∃ r ∈ (endTenant z x st).qe.recs, r.n = e.n ∧ r.status = st)
      ∧ SameButTt z (endTenant z x st) := by
  have hsides : ∀ e ∈ z.qe.descs, ∀ y ∈ z.qe.descs, e.n = y.n → isAdmin e.q = isAdmin y.q := by
    intro e he y hy hn
    obtain ⟨e', he', hen, heq⟩ := h.known e he
    obtain ⟨y', hy', hyn, hyq⟩ := h.known y hy
    rw [← heq, ← hyq, huniq e' he' y' hy' (by rw [hen, hyn, hn])]
  obtain ⟨-, -, hend, hqueues, -⟩ := endTenant_facts z x st hsides
  exact ⟨fun e he hx hq hp => hend e (h.kept e he hq) hx hq ((h.pending e hq).trans hp), hqueues⟩

end SamePending

theorem SameButTt.avail {s t : State} (h : SameButTt s t) (q : QId) : (getQ t q).avail = (getQ s q).avail := by rw [h q]
theorem SameButTt.pool {s t : State} (h : SameButTt s t) (q : QId) : (getQ t q).pool = (getQ s q).pool := by rw [h q]

/-! ### Changing queues one by one -/

/-- Only queues and waiting records have changed, and what has joined the records carries credits alone. -/
structure QueueStep (s t : State) : Prop where
  frame : t = { s with qe := { s.qe with queues := t.qe.queues, recs := t.qe.recs } }
  recs : ∀ r ∈ t.qe.recs, r ∈ s.qe.recs ∨ r.creditOnly = true

namespace QueueStep

theorem refl (s : State) : QueueStep s s := ⟨rfl, fun _ h => .inl h⟩

theorem trans {a b c : State} (hab : QueueStep a b) (hbc : QueueStep b c) : QueueStep a c where
  frame := by rw [hbc.frame, hab.frame]
  recs r hr := (hbc.recs r hr).elim (hab.recs r) .inr

theorem setQ (s : State) (t k : Nat) (v : Queue) : QueueStep s (setQ s (.tenant t k) v) := ⟨rfl, fun _ h => .inl h⟩

theorem addCredits (s : State) {r : Rec} (h : r.creditOnly = true) : QueueStep s (addRec s r) where
  frame := rfl
  recs x hx := by
    rcases List.mem_append.mp hx with hx | hx
    · exact .inl hx
    · rw [List.mem_singleton.mp hx]
      exact .inr h

theorem dropRecs (s : State) (p : Rec → Bool) : QueueStep s { s with qe := { s.qe with recs := s.qe.recs.filter p } } :=
  ⟨rfl, fun _ h => .inl (List.mem_of_mem_filter h)⟩

theorem mapQueues (s : State) (t : Nat) (f : Queue → Queue) : QueueStep s (mapQueues s t f) :=
  foldl_keeps (QueueStep s) _ (fun _ _ h => h.trans (setQ ..)) _ _ (refl s)

theorem enterEnabled (s : State) (t k : Nat) : QueueStep s (enterEnabled s (.tenant t k)) := (setQ s t k _).trans (addCredits _ rfl)
theorem regrant (s : State) (t k : Nat) : QueueStep s (regrant s (.tenant t k)) := (setQ s t k _).trans (addCredits _ rfl)
theorem resetDisable (s : State) (t k : Nat) : QueueStep s (resetDisable s (.tenant t k)) := (setQ s t k _).trans (dropRecs ..)

theorem foldl {f : State → QId → State} {t : Nat} (hf : ∀ s k, QueueStep s (f s (.tenant t k))) (l : List Nat) (s : State) :
    QueueStep s (l.foldl (fun a k => f a (.tenant t k)) s) :=
  foldl_keeps (QueueStep s) _ (fun _ k h => h.trans (hf _ k)) _ _ (refl s)

theorem wakeQueues (s : State) (t : Nat) : QueueStep s (wakeQueues s t) := by
  unfold Machine.wakeQueues
  split
  · refine foldl_keeps (QueueStep s) _ (fun a k h => ?_) _ _ (refl s)
    split
    · exact h.trans (enterEnabled ..)
    · exact h
  · exact refl s

end QueueStep

/-- An operation that changes one queue of a tenant, run over several, changes each of them once. -/
theorem foldl_getQ {f : State → QId → State} {g : Queue → Queue} {t : Nat} (hat : ∀ s k, getQ (f s (.tenant t k)) (.tenant t k) = g (getQ s (.tenant t k)))
    (hother : ∀ s k j, j ≠ k → getQ (f s (.tenant t k)) (.tenant t j) = getQ s (.tenant t j)) {l : List Nat} (hl : l.Nodup) (s : State) (j : Nat) :
    getQ (l.foldl (fun a k => f a (.tenant t k)) s) (.tenant t j) = if j ∈ l then g (getQ s (.tenant t j)) else getQ s (.tenant t j) := by
  induction l generalizing s with
  | nil => rfl
  | cons k l ih =>
    obtain ⟨hk, hl⟩ := List.nodup_cons.mp hl
    rw [List.foldl_cons, ih hl]
    by_cases hj : j = k
    · subst hj
      rw [if_neg hk, if_pos (List.mem_cons_self ..), hat]
    · simp only [List.mem_cons, hj, false_or, hother s k j hj]

theorem getQ_setQ_sibling (s : State) (t : Nat) {k j : Nat} (v : Queue) (h : j ≠ k) : getQ (setQ s (.tenant t k) v) (.tenant t j) = getQ s (.tenant t j) :=
  tget_tset_other _ _ _ (by omega)

theorem getQ_regrant (s : State) (t k : Nat) : getQ (regrant s (.tenant t k)) (.tenant t k) = { getQ s (.tenant t k) with avail := creditLimit (getQ s (.tenant t k)) } :=
  (getQ_addRec ..).trans (getQ_setQ ..)

theorem getQ_regrant_sibling (s : State) (t k j : Nat) (h : j ≠ k) : getQ (regrant s (.tenant t k)) (.tenant t j) = getQ s (.tenant t j) :=
  (getQ_addRec ..).trans (getQ_setQ_sibling _ _ _ h)

theorem getQ_resetDisable (s : State) (t k : Nat) : getQ (resetDisable s (.tenant t k)) (.tenant t k) = { getQ s (.tenant t k) with en := false, qstate := 0, avail := 0 } :=
  getQ_setQ s (.tenant t k) _

theorem getQ_resetDisable_sibling (s : State) (t k j : Nat) (h : j ≠ k) : getQ (resetDisable s (.tenant t k)) (.tenant t j) = getQ s (.tenant t j) :=
  getQ_setQ_sibling s t _ h

/-- Only a WAITING queue is woken (11 R348). -/
theorem getQ_wakeQueues (s : State) (t : Nat) {j : Nat} (h : (getQ s (.tenant t j)).qstate ≠ 1) : getQ (wakeQueues s t) (.tenant t j) = getQ s (.tenant t j) := by
  unfold wakeQueues
  split
  · refine foldl_keeps (fun a => getQ a (.tenant t j) = getQ s (.tenant t j)) _ (fun a k ha => ?_) _ _ rfl
    split
    · rename_i hwaits
      have hj : j ≠ k := by
        rintro rfl
        exact h (ha ▸ hwaits)
      exact ((getQ_addRec ..).trans (getQ_setQ_sibling _ _ _ hj)).trans ha
    · exact ha
  · rfl

/-- A completion on the admin queue leaves the tenants' queues alone. -/
theorem getQ_complete_admin (s : State) {d : Desc} (h : d.q = .admin) (st t k : Nat) : getQ (complete s d st) (.tenant t k) = getQ s (.tenant t k) := by
  have hqueues : (complete s d st).qe.queues = s.qe.queues := by
    rw [complete, completeWith, dupRecs_eq, foldl_addRec_queues, h]
    change (dropDesc s d st).qe.queues = _
    simp [dropDesc, setDescs]
  simp only [getQ, hqueues]

/-! ### MESSAGEs that wait (10 R324 step 3) -/

/-- Work that leaves the list frees its entries and drops its questions. -/
theorem dropHeld_frame (s : State) (w : Nat) : ∃ links sent,
    dropHeld s w = { s with fab := { s.fab with links := links, sent := sent, held := s.fab.held.filter (fun h => h.work != w) } } := by
  unfold dropHeld
  dsimp only
  split
  · split
    · rw [freeMsg_frame]
      exact ⟨_, _, rfl⟩
    · exact ⟨_, _, rfl⟩
  · exact ⟨_, _, rfl⟩

theorem foldl_dropHeld (l : List HeldWork) (s : State) : ∃ links sent,
    l.foldl (fun a h => dropHeld a h.work) s
      = { s with fab := { s.fab with links := links, sent := sent, held := s.fab.held.filter (fun g => l.all (fun h => g.work != h.work)) } } := by
  induction l generalizing s with
  | nil => exact ⟨s.fab.links, s.fab.sent, by simp⟩
  | cons h l ih =>
    obtain ⟨links, sent, hdrop⟩ := dropHeld_frame s h.work
    obtain ⟨links', sent', hrest⟩ := ih (dropHeld s h.work)
    refine ⟨links', sent', ?_⟩
    rw [List.foldl_cons, hrest, hdrop]
    simp only [List.filter_filter, List.all_cons, Bool.and_comm]

/-- A MESSAGE for the flash that is the tenant's. -/
def flashOf (t : Nat) (w : FlashWait) : Bool := match w with | .delta _ m => m.tenant == t | .read _ _ => false

/-- Of the tenant's MESSAGEs those that no context serves are discarded. -/
theorem discardMsgs_frame (s : State) (t : Nat) (huniq : ∀ g ∈ s.fab.held, ∀ h ∈ s.fab.held, g.work = h.work → g = h) : ∃ links sent,
    discardMsgs s t = { s with fab := { s.fab with links := links, sent := sent, held := s.fab.held.filter (fun h => h.tenant != t || h.placed.isSome)
                                                   flashHeld := s.fab.flashHeld.filter (fun w => !flashOf t w) } } := by
  have hheld : s.fab.held.filter (fun g => (s.fab.held.filter (fun h => h.tenant == t && h.placed.isNone)).all (fun h => g.work != h.work))
      = s.fab.held.filter (fun h => h.tenant != t || h.placed.isSome) := by
    refine List.filter_congr fun g hg => ?_
    rw [Bool.eq_iff_iff, List.all_eq_true]
    constructor
    · intro hall
      by_contra hmine
      have hin : g ∈ s.fab.held.filter (fun h => h.tenant == t && h.placed.isNone) := by simpa [hg] using hmine
      simpa using hall g hin
    · intro hother h hh
      obtain ⟨hh, hmine⟩ := List.mem_filter.mp hh
      refine bne_iff_ne.mpr fun hw => ?_
      obtain rfl := huniq g hg h hh hw
      revert hother hmine
      cases g.placed <;> simp
  obtain ⟨links, sent, hdrop⟩ := foldl_dropHeld (s.fab.held.filter (fun h => h.tenant == t && h.placed.isNone)) s
  rw [hheld] at hdrop
  have hflash : ∀ (l : List FlashWait) (x : State), ∃ links,
      l.foldl (fun a w => match w with | .delta k m => freeMsg a k m | .read _ _ => a) x = { x with fab := { x.fab with links := links } } := by
    intro l x
    refine foldl_keeps (fun y => ∃ links, y = { x with fab := { x.fab with links := links } }) _ ?_ _ _ ⟨x.fab.links, rfl⟩
    rintro y w ⟨links, rfl⟩
    cases w with
    | delta k m =>
      dsimp only
      rw [freeMsg_frame]
      exact ⟨_, rfl⟩
    | read k p => exact ⟨links, rfl⟩
  unfold discardMsgs
  dsimp only
  rw [hdrop]
  obtain ⟨links', hfree⟩ := hflash (s.fab.flashHeld.filter (flashOf t))
    { s with fab := { s.fab with links := links, sent := sent, held := s.fab.held.filter (fun h => h.tenant != t || h.placed.isSome)
                                 flashHeld := s.fab.flashHeld.filter (fun w => !flashOf t w) } }
  exact ⟨links', sent, hfree⟩

end Sys2Proof.Machine
end

section
/-! SUPPORT. TENANT_RESET, TEARDOWN, their ends, and FUNCTION_LEVEL_RESET (10 R324 to R326; 11 R372, R373), and the statement about them. -/

namespace Sys2Proof.Machine

open Sys2Proof

theorem getT_congr {s t : State} (h : t.tenants = s.tenants) (u : Nat) : getT t u = getT s u := by rw [getT, h, getT]

/-! ### The start of a reset (11 R372) -/

section startReset
variable {s z : State} (hz : z = { s with qe := z.qe }) (x : Nat) (dis : Bool) (seq : Option Nat)

/-- Credits stopped and gone, before the descriptors end. -/
def creditsGone (z : State) (x : Nat) (dis : Bool) (seq : Option Nat) : State :=
  mapQueues (setT z x { getT z x with resetting := some (dis, seq) }) x (fun v => { v with avail := 0 })

theorem creditsGone_samePending : SamePending z (creditsGone z x dis seq) := by
  refine .of_tables ?_ fun q => ?_
  · rw [creditsGone, (QueueStep.mapQueues ..).frame]
    rfl
  · rw [creditsGone, mapQueues_keeps Queue.tt (fun v => { v with avail := 0 }) (fun _ => rfl)]
    exact congrArg Queue.tt (getQ_qe rfl q)

include hz in
/-- But for the tenant's state, a reset that starts is work of the queue engine. -/
theorem startReset_work : QueueWork (setT s x { getT s x with resetting := some (dis, seq) }) (startReset z x dis seq) := by
  have hset : QueueWork (setT s x { getT s x with resetting := some (dis, seq) }) (setT z x { getT z x with resetting := some (dis, seq) }) := by
    rw [hz]
    exact rfl
  have hcredits : QueueWork (setT z x { getT z x with resetting := some (dis, seq) }) (creditsGone z x dis seq) := by
    rw [creditsGone, (QueueStep.mapQueues ..).frame]
    exact rfl
  exact QueueWork_trans hset (QueueWork_trans hcredits (endTenant_queueWork ..))

include hz in
theorem startReset_getT (u : Nat) : getT (startReset z x dis seq) u = getT (setT s x { getT s x with resetting := some (dis, seq) }) u :=
  getT_congr (by rw [startReset_work hz x dis seq]) u

variable (hsame : SamePending s z) (huniq : ∀ e ∈ s.qe.descs, ∀ y ∈ s.qe.descs, e.n = y.n → e = y)
include hsame huniq

/-- Its descriptors end with ABORTED. -/
theorem startReset_ends {e : Desc} (he : e ∈ s.qe.descs) (hx : e.tenant = x) (hq : isAdmin e.q = false) (hp : isPending s e = true) :
    (∀ y ∈ (startReset z x dis seq).qe.descs, y.n ≠ e.n) ∧ ∃ r ∈ (startReset z x dis seq).qe.recs, r.n = e.n ∧ r.status = 0x04 :=
  ((hsame.trans (creditsGone_samePending x dis seq)).endTenant huniq x stAborted).1 e he hx hq hp

theorem startReset_queues : SameButTt (creditsGone z x dis seq) (startReset z x dis seq) :=
  ((hsame.trans (creditsGone_samePending x dis seq)).endTenant huniq x stAborted).2

/-- Its queues hold no credit; the other tenants' keep theirs, and every queue its pool number. -/
theorem startReset_avail {k : Nat} (hk : k < 64) : (getQ (startReset z x dis seq) (.tenant x k)).avail = 0 := by
  rw [(startReset_queues x dis seq hsame huniq).avail, creditsGone, (mapQueues_facts ..).1 k hk]

theorem startReset_avail_other {u k : Nat} (hu : u ≠ x) (hk : k < 64) : (getQ (startReset z x dis seq) (.tenant u k)).avail = (getQ z (.tenant u k)).avail := by
  rw [(startReset_queues x dis seq hsame huniq).avail, creditsGone, (mapQueues_facts ..).2.1 u k hu hk]
  exact congrArg Queue.avail (getQ_qe rfl _)

theorem startReset_pool (q : QId) : (getQ (startReset z x dis seq) q).pool = (getQ z q).pool := by
  rw [(startReset_queues x dis seq hsame huniq).pool, creditsGone, mapQueues_keeps Queue.pool (fun v => { v with avail := 0 }) (fun _ => rfl)]
  exact congrArg Queue.pool (getQ_qe rfl q)

end startReset

section tenantReset
variable {s : State} {seq : Nat} {d : Desc} (hd : dueDesc s .admin seq 0x83 = some d)
include hd

theorem exec_tenantReset_refused (h : 64 < dfield d 16 1 ∨ hasPos s (dfield d 16 1) = false ∨ (getT s (dfield d 16 1)).retiring = true
      ∨ (getT s (dfield d 16 1)).resetting.isSome = true) : exec (.tenantReset seq) s = onUnit s true (complete s d stMalformed) := by
  have hbad : (decide (64 < dfield d 16 1) || !hasPos s (dfield d 16 1) || (getT s (dfield d 16 1)).retiring || (getT s (dfield d 16 1)).resetting.isSome) = true := by
    simpa [or_assoc] using h
  change execTenantReset seq s = _
  simp only [execTenantReset, hd, hbad, if_true]

theorem exec_tenantReset_starts (hx : dfield d 16 1 ≤ 64) (hpos : hasPos s (dfield d 16 1) = true) (hret : (getT s (dfield d 16 1)).retiring = false)
    (hres : (getT s (dfield d 16 1)).resetting = none) :
    exec (.tenantReset seq) s = onUnit s true (startReset (started s d) (dfield d 16 1) (bit (dfield d 17 1) 0) (some seq)) := by
  have hok : (decide (64 < dfield d 16 1) || !hasPos s (dfield d 16 1) || (getT s (dfield d 16 1)).retiring || (getT s (dfield d 16 1)).resetting.isSome) = false := by
    simp [hx, hpos, hret, hres]
  change execTenantReset seq s = _
  simp only [execTenantReset, hd, hok, Bool.false_eq_true, if_false]
  rfl

end tenantReset

/-! ### The end of a reset (11 R372 steps 4 to 6, R373) -/

/-- The transposition tables of a tenant's queues emptied. -/
def emptyTables (s : State) (x : Nat) : State := mapQueues s x (fun v => { v with tt := [], high := none })

/-- Its meters filled, and its teardown undone. -/
def refreshed (s : State) (x : Nat) : State :=
  let s2 := setM (setM s x false (fillMeter (getM s x false))) x true (fillMeter (getM s x true))
  setT s2 x { getT s2 x with tornDown := false, storeFault := false }

theorem refreshed_getT (s : State) (x : Nat) : getT (refreshed s x) x = { getT s x with tornDown := false, storeFault := false } := getT_setT ..
theorem refreshed_getQ (s : State) (x : Nat) (q : QId) : getQ (refreshed s x) q = getQ s q := getQ_qe rfl q

theorem resetTables_eq (s : State) (x : Nat) : resetTables s x = refreshed (emptyTables s x) x := rfl

/-- The tables emptied: by a TENANT_RESET with the meters filled and the teardown undone, by a function level reset of what has been left since. -/
def tablesEmptied (s : State) (x : Nat) (command : Bool) : State :=
  if command then refreshed (emptyTables s x) x else emptyTables s x

/-- The tenant once its reset is over, before its queues are given credits or disabled. -/
def resetCleared (s : State) (x : Nat) (command : Bool) : State :=
  setT (if (getT s x).flr then dropRecs (tablesEmptied s x command) x else tablesEmptied s x command) x
    { getT (if (getT s x).flr then dropRecs (tablesEmptied s x command) x else tablesEmptied s x command) x with resetting := none, flr := false }

/-- A TENANT_RESET's end: disabled queues, or fresh credits. -/
def resetQueues (y : State) (x : Nat) (disable : Bool) : State :=
  if disable then (List.range 64).foldl (fun a k => resetDisable a (.tenant x k)) y
  else wakeQueues (((List.range 64).filter (fun k => (getQ y (.tenant x k)).qstate == 2)).foldl (fun a k => regrant a (.tenant x k)) y) x

section ends
variable (s : State) (x : Nat) (command : Bool)

theorem emptyTables_frame : emptyTables s x = { s with qe := { s.qe with queues := (emptyTables s x).qe.queues } } :=
  (mapQueues_facts s x (fun v => { v with tt := [], high := none })).2.2.2

theorem emptyTables_getT : getT (emptyTables s x) x = getT s x := getT_congr (by rw [emptyTables_frame]) x

theorem tablesEmptied_frame : ∃ queues meters tenants, tablesEmptied s x command = { s with qe := { s.qe with queues := queues }, meters := meters, tenants := tenants } := by
  have hmap := emptyTables_frame s x
  unfold tablesEmptied
  generalize emptyTables s x = u at hmap
  split
  · refine ⟨u.qe.queues, (refreshed u x).meters, (refreshed u x).tenants, ?_⟩
    rw [hmap]
    rfl
  · exact ⟨_, s.meters, s.tenants, hmap⟩

theorem tablesEmptied_getT : getT (tablesEmptied s x command) x = if command then { getT s x with tornDown := false, storeFault := false } else getT s x := by
  have hkept := emptyTables_getT s x
  unfold tablesEmptied
  generalize emptyTables s x = u at hkept
  split
  · rw [refreshed_getT, hkept]
  · exact hkept

variable {s x} in
theorem tablesEmptied_getQ {k : Nat} (hk : k < 64) : getQ (tablesEmptied s x command) (.tenant x k) = { getQ s (.tenant x k) with tt := [], high := none } := by
  rw [← (mapQueues_facts s x (fun v => { v with tt := [], high := none })).1 k hk, ← emptyTables]
  unfold tablesEmptied
  split
  · exact refreshed_getQ ..
  · rfl

theorem resetCleared_frame : ∃ queues recs meters tenants,
    resetCleared s x command = { s with qe := { s.qe with queues := queues, recs := recs }, meters := meters, tenants := tenants } := by
  obtain ⟨queues, meters, tenants, h⟩ := tablesEmptied_frame s x command
  unfold resetCleared
  rw [h]
  split
  · exact ⟨_, _, _, _, rfl⟩
  · exact ⟨_, _, _, _, rfl⟩

theorem resetCleared_getT : getT (resetCleared s x command) x
    = if command then { getT s x with tornDown := false, storeFault := false, resetting := none, flr := false } else { getT s x with resetting := none, flr := false } := by
  have hkept : getT (if (getT s x).flr then dropRecs (tablesEmptied s x command) x else tablesEmptied s x command) x = getT (tablesEmptied s x command) x := by
    split
    · rfl
    · rfl
  rw [resetCleared, getT_setT, hkept, tablesEmptied_getT]
  cases command <;> rfl

variable {s x} in
theorem resetCleared_getQ {k : Nat} (hk : k < 64) : getQ (resetCleared s x command) (.tenant x k) = { getQ s (.tenant x k) with tt := [], high := none } := by
  rw [← tablesEmptied_getQ command hk]
  unfold resetCleared
  split
  · rfl
  · rfl

variable {s x} in
/-- The records that a function level reset has held back go with it. -/
theorem resetCleared_recs (h : (getT s x).flr = true) {r : Rec} (hr : r ∈ (resetCleared s x command).qe.recs) : isAdmin r.q = true ∨ tenantOf r.q ≠ x := by
  unfold resetCleared at hr
  rw [if_pos h] at hr
  simpa using (List.mem_filter.mp hr).2

end ends

section queues
variable (y : State) (x : Nat)

theorem resetQueues_step (disable : Bool) : QueueStep y (resetQueues y x disable) := by
  unfold resetQueues
  split
  · exact QueueStep.foldl (fun s k => QueueStep.resetDisable s x k) _ y
  · exact (QueueStep.foldl (fun s k => QueueStep.regrant s x k) _ y).trans (QueueStep.wakeQueues ..)

variable {y x} {k : Nat} (hk : k < 64)
include hk

theorem resetQueues_disables : getQ (resetQueues y x true) (.tenant x k) = { getQ y (.tenant x k) with en := false, qstate := 0, avail := 0 } := by
  rw [resetQueues, if_pos rfl, foldl_getQ (g := fun v => { v with en := false, qstate := 0, avail := 0 }) (fun s k => getQ_resetDisable s x k)
    (fun s k j h => getQ_resetDisable_sibling s x k j h) List.nodup_range, if_pos (List.mem_range.mpr hk)]

/-- An ENABLED queue is granted its credits afresh. -/
theorem resetQueues_regrants (h : (getQ y (.tenant x k)).qstate = 2) :
    getQ (resetQueues y x false) (.tenant x k) = { getQ y (.tenant x k) with avail := creditLimit (getQ y (.tenant x k)) } := by
  have hlive : k ∈ (List.range 64).filter (fun k => (getQ y (.tenant x k)).qstate == 2) := by simp [hk, h]
  have hgrant := foldl_getQ (g := fun v => { v with avail := creditLimit v }) (fun s k => getQ_regrant s x k) (fun s k j h => getQ_regrant_sibling s x k j h)
    ((List.nodup_range (n := 64)).filter (fun k => (getQ y (.tenant x k)).qstate == 2)) y k
  rw [if_pos hlive] at hgrant
  rw [resetQueues, if_neg Bool.false_ne_true, getQ_wakeQueues _ _ (by rw [hgrant]; simp [h]), hgrant]

end queues

/-- A TENANT_RESET ends with its own completion. -/
theorem endReset_command {s : State} {x seq : Nat} {dis : Bool} {d : Desc} (hd : findDesc s .admin seq = some d) :
    endReset s x dis (some seq) = complete (resetQueues (resetCleared s x true) x dis) d stDone := by
  have hkept : findDesc (resetQueues (resetCleared s x true) x dis) .admin seq = some d := by
    obtain ⟨queues, recs, meters, tenants, hcleared⟩ := resetCleared_frame s x true
    rw [← hd, findDesc, (resetQueues_step (resetCleared s x true) x dis).frame, hcleared]
    rfl
  have hlive : ((List.range 64).map (fun q => QId.tenant x q)).filter (fun q => (getQ (resetCleared s x true) q).qstate == 2)
      = ((List.range 64).filter (fun k => (getQ (resetCleared s x true) (.tenant x k)).qstate == 2)).map (fun q => QId.tenant x q) := List.filter_map ..
  have hqueues : (if ((some seq).isSome && dis) = true then ((List.range 64).map (fun q => QId.tenant x q)).foldl resetDisable (resetCleared s x true)
      else wakeQueues (if (some seq).isSome = true then (((List.range 64).map (fun q => QId.tenant x q)).filter
        (fun q => (getQ (resetCleared s x true) q).qstate == 2)).foldl regrant (resetCleared s x true) else resetCleared s x true) x)
      = resetQueues (resetCleared s x true) x dis := by
    rw [hlive, List.foldl_map, List.foldl_map]
    rfl
  have hend : endReset s x dis (some seq) = match (some seq).bind (findDesc (resetQueues (resetCleared s x true) x dis) .admin) with
      | some d => complete (resetQueues (resetCleared s x true) x dis) d stDone
      | none => resetQueues (resetCleared s x true) x dis := by
    rw [← hqueues]
    rfl
  rw [hend, Option.bind_some, hkept]

/-- A function level reset ends without one. -/
theorem endReset_flr (s : State) (x : Nat) (dis : Bool) : endReset s x dis none = wakeQueues (resetCleared s x false) x := rfl

section tenantResetEnd
variable {s : State} {x : Nat} (hwf : wellFormed (.tenantResetEnd x) = true)
include hwf

theorem exec_tenantResetEnd_early (h : (getT s x).resetting = none ∨ resetDue s x = false) : exec (.tenantResetEnd x) s = .next s := by
  have hidle : execTenantResetEnd x s = onUnit s (wellFormed (.tenantResetEnd x)) s := by
    unfold execTenantResetEnd
    split
    · rename_i dis seq hres
      rcases h with h | h
      · rw [h] at hres
        cases hres
      · rw [h, if_neg Bool.false_ne_true]
    · rfl
  exact hidle.trans (onUnit_keep hwf rfl)

theorem exec_tenantResetEnd_due {dis : Bool} {seq : Option Nat} (hres : (getT s x).resetting = some (dis, seq)) (hdue : resetDue s x = true) {t : State}
    (ht : endReset s x dis seq = t) (hp : t.pending = s.pending) : exec (.tenantResetEnd x) s = .next t := by
  have hend : execTenantResetEnd x s = onUnit s (wellFormed (.tenantResetEnd x)) t := by
    simp only [execTenantResetEnd, hres, hdue, if_true, ht]
  exact hend.trans (onUnit_keep hwf hp)

end tenantResetEnd

/-! ### A teardown (10 R324 to R326) -/

section teardown
variable {s z : State} (hz : z = { s with qe := z.qe }) (hsame : SamePending s z) (huniq : ∀ e ∈ s.qe.descs, ∀ y ∈ s.qe.descs, e.n = y.n → e = y)
  (hheld : ∀ g ∈ s.fab.held, ∀ h ∈ s.fab.held, g.work = h.work → g = h) (x : Nat) (q : Option Nat)
include hz hheld

/-- The descriptors ended, before the MESSAGEs that wait are discarded. -/
def teardownEnded (z : State) (x : Nat) (q : Option Nat) : State :=
  endTenant (setT (cntFab z 8 1) x { getT z x with tornDown := true, teardownBusy := true, teardownSeq := q }) x stTeardown

/-- What a teardown that starts changes beside the queue engine: the tenant's state, and the MESSAGEs that wait. -/
theorem startTeardown_frame : ∃ w links sent, QueueWork (setT (cntFab s 8 1) x { getT s x with tornDown := true, teardownBusy := true, teardownSeq := q }) w
    ∧ w.qe = (teardownEnded z x q).qe
    ∧ startTeardown z x q = { w with fab := { w.fab with links := links, sent := sent, held := s.fab.held.filter (fun h => h.tenant != x || h.placed.isSome)
                                                         flashHeld := s.fab.flashHeld.filter (fun w => !flashOf x w) } } := by
  have hset : QueueWork (setT (cntFab s 8 1) x { getT s x with tornDown := true, teardownBusy := true, teardownSeq := q })
      (setT (cntFab z 8 1) x { getT z x with tornDown := true, teardownBusy := true, teardownSeq := q }) := by
    rw [hz]
    exact rfl
  have hwork := QueueWork_trans hset (endTenant_queueWork (setT (cntFab z 8 1) x { getT z x with tornDown := true, teardownBusy := true, teardownSeq := q }) x stTeardown)
  have hkept : (teardownEnded z x q).fab.held = s.fab.held ∧ (teardownEnded z x q).fab.flashHeld = s.fab.flashHeld := by
    rw [teardownEnded, hwork]
    exact ⟨rfl, rfl⟩
  obtain ⟨links, sent, hdiscard⟩ := discardMsgs_frame (teardownEnded z x q) x (by rw [hkept.1]; exact hheld)
  rw [hkept.1, hkept.2] at hdiscard
  exact ⟨teardownEnded z x q, links, sent, hwork, rfl, hdiscard⟩

include hsame huniq

/-- Of the tenant's uncommitted descriptors none is left, each with its record. -/
theorem startTeardown_ends {e : Desc} (he : e ∈ s.qe.descs) (hx : e.tenant = x) (hq : isAdmin e.q = false) (hp : isPending s e = true) :
    (∀ y ∈ (startTeardown z x q).qe.descs, y.n ≠ e.n) ∧ ∃ r ∈ (startTeardown z x q).qe.recs, r.n = e.n ∧ r.status = 0x23 := by
  obtain ⟨w, links, sent, -, hqe, hframe⟩ := startTeardown_frame hz hheld x q
  have hstopped : SamePending z (setT (cntFab z 8 1) x { getT z x with tornDown := true, teardownBusy := true, teardownSeq := q }) := .of_qe rfl
  rw [hframe]
  change (∀ y ∈ w.qe.descs, y.n ≠ e.n) ∧ ∃ r ∈ w.qe.recs, r.n = e.n ∧ r.status = 0x23
  rw [hqe]
  exact ((hsame.trans hstopped).endTenant huniq x stTeardown).1 e he hx hq hp

/-- What a teardown that starts leaves. -/
theorem startTeardown_facts : getT (startTeardown z x q) x = { getT s x with tornDown := true, teardownBusy := true, teardownSeq := q }
    ∧ (∀ e ∈ s.qe.descs, e.tenant = x → isAdmin e.q = false → isPending s e = true →
        (∀ y ∈ (startTeardown z x q).qe.descs, y.n ≠ e.n) ∧ ∃ r ∈ (startTeardown z x q).qe.recs, r.n = e.n ∧ r.status = 0x23)
    ∧ (startTeardown z x q).fab.held = s.fab.held.filter (fun h => h.tenant != x || h.placed.isSome)
    ∧ (startTeardown z x q).fab.flashHeld = s.fab.flashHeld.filter (fun w => match w with | .delta _ y => y.tenant != x | .read _ _ => true)
    ∧ (startTeardown z x q).out = s.out ∧ (startTeardown z x q).ms = s.ms ∧ (startTeardown z x q).fl = s.fl ∧ (startTeardown z x q).indexes = s.indexes
    ∧ (startTeardown z x q).pending = s.pending := by
  have hends := fun e he hx hq hp => startTeardown_ends hz hsame huniq hheld x q (e := e) he hx hq hp
  obtain ⟨w, links, sent, hwork, -, hframe⟩ := startTeardown_frame hz hheld x q
  generalize startTeardown z x q = t at hends hframe
  have hflash : s.fab.flashHeld.filter (fun w => !flashOf x w) = s.fab.flashHeld.filter (fun w => match w with | .delta _ y => y.tenant != x | .read _ _ => true) :=
    List.filter_congr fun w _ => by cases w <;> rfl
  refine ⟨?_, hends, by rw [hframe], by rw [hframe, ← hflash], ?_, ?_, ?_, ?_, ?_⟩
  · rw [hframe, ← getT_setT (cntFab s 8 1) x { getT s x with tornDown := true, teardownBusy := true, teardownSeq := q }]
    exact getT_congr (by rw [hwork]) x
  all_goals
    rw [hframe, hwork]
    rfl

end teardown

/-- The tenant holds nothing to tear down. -/
theorem teardownIdle_iff {s : State} {x : Nat} : teardownIdle s x = true ↔ (getT s x).tornDown = true ∨ hasPos s x = false := by simp [teardownIdle]

theorem exec_teardown_admin {s : State} {seq : Nat} {d : Desc} (hd : dueDesc s .admin seq 0x84 = some d) :
    exec (.teardown (.admin seq)) s = onUnit s true (adminTeardown s d) := by
  change execTeardown (.admin seq) s = _
  simp only [execTeardown, hd]

theorem exec_teardown_manager {s : State} {tag x : Nat} (hruns : nmcRuns s = true) {t : State}
    (ht : (if 64 < x then answer s tag 2 else if teardownIdle s x then answer s tag 0 else answer (startTeardown s x none) tag 0) = t) (hp : t.pending = s.pending) :
    exec (.teardown (.manager tag x)) s = .next t := by
  have hrun : managerTeardown s tag x = t := by
    rw [← ht, managerTeardown, hruns]
    rfl
  change onUnit s true (managerTeardown s tag x) = _
  rw [hrun]
  exact onUnit_keep rfl hp

/-! ### TEARDOWN_DONE (10 R324 step 5) -/

/-- The report of a teardown that is done. -/
def teardownReported (s : State) (x : Nat) : State :=
  report (setT s x { getT s x with teardownBusy := false, teardownSeq := none }) 0x0064 0 x nmcUnit x 0 0

/-- And its completion, where a descriptor asked for it. -/
def teardownOver (s : State) (x : Nat) : State :=
  match (getT s x).teardownSeq.bind (findDesc (teardownReported s x) .admin) with
  | some d => complete (teardownReported s x) d stDone
  | none => teardownReported s x

theorem exec_teardownDone (x : Nat) (s : State) : exec (.teardownDone x) s =
    onUnit s (wellFormed (.teardownDone x)) (if (getT s x).teardownBusy && busyOf s x == 0 then teardownOver s x else s) := rfl

section done
variable (s : State) (x : Nat)

theorem teardownReported_work : EventWork (setT s x { getT s x with teardownBusy := false, teardownSeq := none }) (teardownReported s x) := eventWork_report ..

theorem findDesc_teardownReported : findDesc (teardownReported s x) = findDesc s := by
  funext q n
  rw [findDesc, teardownReported_work s x]
  rfl

variable {s x}

theorem teardownOver_completes {d : Desc} (h : (getT s x).teardownSeq.bind (findDesc s .admin) = some d) : teardownOver s x = complete (teardownReported s x) d stDone := by
  rw [teardownOver, findDesc_teardownReported, h]

theorem teardownOver_reports (h : (getT s x).teardownSeq.bind (findDesc s .admin) = none) : teardownOver s x = teardownReported s x := by
  rw [teardownOver, findDesc_teardownReported, h]

end done

/-! ### FUNCTION_LEVEL_RESET (11 R373) -/

/-- The state in which a function level reset returns the function's registers to their reset values. -/
def flrPrepared (s : State) (x : Nat) : State :=
  if !hasPos s x then s
  else if (getT s x).retiring || (getT s x).resetting.isSome then setT s x { getT s x with flr := true }
  else resetTables (startReset (setT s x { getT s x with flr := true }) x true none) x

theorem flr_eq (s : State) (x : Nat) : flr s x = flrRegisters (flrPrepared s x) x := by
  unfold flr flrPrepared
  split
  · rfl
  · dsimp only
    split
    · rfl
    · rfl

section flr
variable {s : State} {x : Nat}

/-- The function's queues at their reset values, its records, duplicates and interrupts not yet. -/
def queuesReset (s : State) (x : Nat) : State := mapQueues s x (fun v => { ({} : Queue) with pool := v.pool })

/-- The rest of what a function level reset forgets. -/
def forgotten (s : State) (x : Nat) : State :=
  let s2 := setT s x { getT s x with evtEn := false, evtVector := 0 }
  { s2 with qe := { s2.qe with msix := s2.qe.msix.filter (fun e => e.1 / 128 != x),
                               recs := s2.qe.recs.filter (fun r => isAdmin r.q || tenantOf r.q != x),
                               dups := s2.qe.dups.filter (fun u => isAdmin u.q || tenantOf u.q != x) } }

theorem forgotten_getQ (s : State) (x : Nat) (q : QId) : getQ (forgotten s x) q = getQ s q := by cases q <;> rfl
theorem forgotten_getT (s : State) (x : Nat) : getT (forgotten s x) x = { getT s x with evtEn := false, evtVector := 0 } := getT_setT ..

theorem forgotten_recs {s : State} {x : Nat} {r : Rec} (h : r ∈ (forgotten s x).qe.recs) : isAdmin r.q = true ∨ tenantOf r.q ≠ x := by
  simpa using (List.mem_filter.mp h).2

theorem forgotten_dups {s : State} {x : Nat} {e : Dup} (h : e ∈ (forgotten s x).qe.dups) : isAdmin e.q = true ∨ tenantOf e.q ≠ x := by
  simpa using (List.mem_filter.mp h).2

theorem flrRegisters_eq (s : State) (x : Nat) : flrRegisters s x = forgotten (queuesReset s x) x := rfl

theorem flrRegisters_getQ {k : Nat} (hk : k < 64) : getQ (flrRegisters s x) (.tenant x k) = { ({} : Queue) with pool := (getQ s (.tenant x k)).pool } := by
  rw [flrRegisters_eq, forgotten_getQ, queuesReset, (mapQueues_facts ..).1 k hk]

theorem flrRegisters_getQ_other {u k : Nat} (hu : u ≠ x) (hk : k < 64) : getQ (flrRegisters s x) (.tenant u k) = getQ s (.tenant u k) := by
  rw [flrRegisters_eq, forgotten_getQ, queuesReset, (mapQueues_facts ..).2.1 u k hu hk]

theorem flrRegisters_getT : getT (flrRegisters s x) x = { getT s x with evtEn := false, evtVector := 0 } := by
  have hmap := (mapQueues_facts s x (fun v => { ({} : Queue) with pool := v.pool })).2.2.2
  rw [flrRegisters_eq, forgotten_getT, getT_congr (s := s) (by rw [queuesReset, hmap])]

variable (huniq : ∀ e ∈ s.qe.descs, ∀ y ∈ s.qe.descs, e.n = y.n → e = y)
include huniq

/-- Until then no queue changes its pool number, and no other function's its credits. -/
theorem flrPrepared_queues : (∀ q, (getQ (flrPrepared s x) q).pool = (getQ s q).pool)
    ∧ ∀ u k, u ≠ x → k < 64 → (getQ (flrPrepared s x) (.tenant u k)).avail = (getQ s (.tenant u k)).avail := by
  have hsame : SamePending (setT s x { getT s x with flr := true }) (setT s x { getT s x with flr := true }) := .of_qe rfl
  unfold flrPrepared
  split
  · exact ⟨fun _ => rfl, fun _ _ _ _ => rfl⟩
  · split
    · exact ⟨fun q => congrArg Queue.pool (getQ_qe rfl q), fun u k _ _ => congrArg Queue.avail (getQ_qe rfl _)⟩
    · refine ⟨fun q => ?_, fun u k hu hk => ?_⟩
      · rw [resetTables_eq, refreshed_getQ, emptyTables, mapQueues_keeps Queue.pool (fun v => { v with tt := [], high := none }) (fun _ => rfl),
          startReset_pool x true none hsame huniq]
        exact congrArg Queue.pool (getQ_qe rfl q)
      · rw [resetTables_eq, refreshed_getQ, emptyTables, (mapQueues_facts ..).2.1 u k hu hk, startReset_avail_other x true none hsame huniq hu hk]
        exact congrArg Queue.avail (getQ_qe rfl _)

omit huniq in
/-- Host access is closed from then on. -/
theorem flrPrepared_flr (hpos : hasPos s x = true) : (getT (flrPrepared s x) x).flr = true := by
  unfold flrPrepared
  rw [if_neg (by simp [hpos])]
  split
  · rw [getT_setT]
  · rw [resetTables_eq, refreshed_getT, emptyTables_getT, startReset_getT (s := setT s x { getT s x with flr := true }) rfl, getT_setT, getT_setT]

/-- What a function level reset leaves of the function, and of the others' queues. -/
theorem flr_facts : (∀ k, k < 64 → getQ (flr s x) (.tenant x k) = { ({} : Queue) with pool := (getQ s (.tenant x k)).pool })
    ∧ (∀ u k, u ≠ x → k < 64 → (getQ (flr s x) (.tenant u k)).avail = (getQ s (.tenant u k)).avail)
    ∧ getT (flr s x) x = { getT (flrPrepared s x) x with evtEn := false, evtVector := 0 }
    ∧ (hasPos s x = true → (getT (flr s x) x).flr = true)
    ∧ (∀ r ∈ (flr s x).qe.recs, isAdmin r.q = true ∨ tenantOf r.q ≠ x) ∧ ∀ e ∈ (flr s x).qe.dups, isAdmin e.q = true ∨ tenantOf e.q ≠ x := by
  obtain ⟨hpool, havail⟩ := flrPrepared_queues (x := x) huniq
  rw [flr_eq]
  refine ⟨fun k hk => ?_, fun u k hu hk => ?_, flrRegisters_getT, fun hpos => ?_, fun r hr => forgotten_recs hr, fun e he => forgotten_dups he⟩
  · rw [flrRegisters_getQ hk, hpool]
  · rw [flrRegisters_getQ_other hu hk, havail u k hu hk]
  · rw [flrRegisters_getT]
    exact flrPrepared_flr hpos

end flr

/-- Settles O54: TENANT_RESET and its end, the two sources of a teardown and its end, and the reset of a function. -/
theorem tenantResetsAndTeardowns : Obligations.TenantResetsAndTeardowns := by
  unfold Obligations.TenantResetsAndTeardowns
  refine ⟨fun s seq d x hd hx => ⟨fun h => ?resetRefused, fun hle hpos hret hres huniq => ?resetStarts⟩,
    fun s x hwf => ⟨fun h => exec_tenantResetEnd_early hwf h, fun dis seq d hres hdue hfind => ?resetEnds, fun dis hres hdue => ?flrEnds⟩,
    fun s seq d x hd hx => ⟨fun h => ?numberRefused, fun hle h => ?adminIdle⟩,
    fun s src x q hsrc hle hup hpos huniq hheld => ?starts,
    fun s tag x hruns => ⟨fun h => ?managerMalformed, fun hle h => ?managerIdle⟩,
    fun s x hwf => ⟨fun h => ?doneEarly, fun hbusy hempty => ?done⟩,
    fun s vf hwf => ⟨fun hdown => ?hostDown, fun hup huniq => ?flr⟩⟩
  case resetRefused =>
    subst hx
    exact exec_ends (exec_tenantReset_refused hd h) rfl
  case resetStarts =>
    subst hx
    have hfind := findDesc_of_dueDesc hd
    have hkey : d.q = .admin ∧ d.seq = seq := by simpa using List.find?_some hfind
    have hsame := SamePending.started (List.mem_of_find?_eq_some hfind) hkey.1 huniq
    have hwork := startReset_work (started_frame s d) (dfield d 16 1) (bit (dfield d 17 1) 0) (some seq)
    have htenant := startReset_getT (started_frame s d) (dfield d 16 1) (bit (dfield d 17 1) 0) (some seq)
    refine ⟨_, exec_keeps (exec_tenantReset_starts hd hle hpos hret hres) (by rw [hwork]; rfl), ?_, fun u hu => ?_,
      fun k hk => startReset_avail _ _ _ hsame huniq hk, fun e he hx hq hp => startReset_ends _ _ _ hsame huniq he hx hq hp, ?_, ?_, ?_⟩
    · rw [htenant, getT_setT]
    · rw [htenant, getT_setT_other _ _ hu]
    all_goals
      rw [hwork]
      rfl
  case resetEnds =>
    obtain ⟨hadmin, -⟩ : d.q = .admin ∧ d.seq = seq := by simpa using List.find?_some hfind
    have hstep := resetQueues_step (resetCleared s x true) x dis
    obtain ⟨queues, recs, meters, tenants, hcleared⟩ := resetCleared_frame s x true
    have hend := exec_tenantResetEnd_due hwf hres hdue (endReset_command hfind) (by rw [complete_pend, hstep.frame, hcleared])
    refine ⟨_, hend, ?_, (complete_completed ..).2.2, ?_, fun hdis k hk => ?_, fun hdis k hk hst => ?_⟩
    · have htenant := resetCleared_getT s x true
      rw [if_pos rfl] at htenant
      rw [← htenant]
      exact getT_congr (by rw [complete, completeWith_tenants, hstep.frame]) x
    · rw [(complete_completed ..).1, hstep.frame, hcleared]
    · subst hdis
      rw [getQ_complete_admin _ hadmin, resetQueues_disables hk, resetCleared_getQ true hk]
    · subst hdis
      rw [getQ_complete_admin _ hadmin, resetQueues_regrants hk (by rw [resetCleared_getQ true hk]; exact hst), resetCleared_getQ true hk]
      rfl
  case flrEnds =>
    have hstep := QueueStep.wakeQueues (resetCleared s x false) x
    obtain ⟨queues, recs, meters, tenants, hcleared⟩ := resetCleared_frame s x false
    have hend := exec_tenantResetEnd_due hwf hres hdue (endReset_flr s x dis) (by rw [hstep.frame, hcleared])
    refine ⟨_, hend, ?_, ?_, fun hflr r hr hcredit => ?_, fun k hk hst => ?_⟩
    · have htenant := resetCleared_getT s x false
      rw [if_neg Bool.false_ne_true] at htenant
      rw [← htenant]
      exact getT_congr (by rw [hstep.frame]) x
    · rw [hstep.frame, hcleared]
    · rcases hstep.recs r hr with hold | hnew
      · exact resetCleared_recs false hflr hold
      · rw [hcredit] at hnew
        cases hnew
    · rw [getQ_wakeQueues _ _ (by rw [resetCleared_getQ false hk]; exact hst), resetCleared_getQ false hk]
  case numberRefused =>
    subst hx
    exact exec_ends (exec_teardown_admin hd) (if_pos h)
  case adminIdle =>
    subst hx
    exact exec_ends (exec_teardown_admin hd) ((if_neg (by omega)).trans (if_pos (teardownIdle_iff.mpr h)))
  case starts =>
    have hbusy : ¬ teardownIdle s x = true := by simp [teardownIdle_iff, hup, hpos]
    rcases hsrc with ⟨seq, d, rfl, rfl, hd, rfl⟩ | ⟨tag, rfl, rfl, hruns⟩
    · have hfind := findDesc_of_dueDesc hd
      have hkey : d.q = .admin ∧ d.seq = seq := by simpa using List.find?_some hfind
      have hsame := SamePending.started (List.mem_of_find?_eq_some hfind) hkey.1 huniq
      obtain ⟨htenant, hends, hwaits, hflash, -, hms, hfl, hindexes, hpend⟩ := startTeardown_facts (started_frame s d) hsame huniq hheld (dfield d 16 1) (some d.seq)
      have hrun : adminTeardown s d = startTeardown (started s d) (dfield d 16 1) (some d.seq) := (if_neg (by omega)).trans (if_neg hbusy)
      exact ⟨_, exec_keeps ((exec_teardown_admin hd).trans (congrArg _ hrun)) hpend, htenant, hends, hwaits, hflash, fun _ _ h => (by cases h), hms, hfl, hindexes⟩
    · obtain ⟨htenant, hends, hwaits, hflash, hout, hms, hfl, hindexes, hpend⟩ := startTeardown_facts (z := s) rfl (.of_qe rfl) huniq hheld x none
      refine ⟨_, exec_teardown_manager hruns ((if_neg (by omega)).trans (if_neg hbusy)) hpend, htenant, hends, hwaits, hflash, fun _ _ h => ?_, hms, hfl, hindexes⟩
      cases h
      exact congrArg (· ++ [Out.answer tag 0]) hout
  case managerMalformed => exact exec_teardown_manager hruns (if_pos h) rfl
  case managerIdle => exact exec_teardown_manager hruns ((if_neg (by omega)).trans (if_pos (teardownIdle_iff.mpr h))) rfl
  case doneEarly =>
    have hearly : ¬ ((getT s x).teardownBusy && busyOf s x == 0) = true := by
      rcases h with h | h <;> simp [h]
    rw [exec_teardownDone, if_neg hearly]
    exact onUnit_keep hwf rfl
  case done =>
    have hdue : ((getT s x).teardownBusy && busyOf s x == 0) = true := by simp [hbusy, hempty]
    have hwork := teardownReported_work s x
    have htenant : getT (teardownReported s x) x = { getT s x with teardownBusy := false, teardownSeq := none } := by
      rw [← getT_setT s x { getT s x with teardownBusy := false, teardownSeq := none }]
      exact getT_congr (by rw [hwork]) x
    have hreport : .report 0x64 [x, 0, 0] ∈ (teardownReported s x).out := by
      obtain ⟨more, hout⟩ := report_out (setT s x { getT s x with teardownBusy := false, teardownSeq := none }) 0x0064 0 x nmcUnit x 0 0
      rw [teardownReported, hout]
      simp
    rw [exec_teardownDone, if_pos hdue]
    cases hasked : (getT s x).teardownSeq.bind (findDesc s .admin) with
    | some d =>
      rw [teardownOver_completes hasked]
      have hcompleted : Completed s d 0x00 0 (complete (teardownReported s x) d stDone) := completed_of d stDone (by rw [hwork]; rfl) (by rw [hwork]; rfl)
      refine ⟨_, onUnit_keep hwf (by rw [complete_pend, hwork]; rfl), ?_, ?_, fun e he => ?_, fun hnone => ?_⟩
      · rw [← htenant]
        exact getT_congr (completeWith_tenants ..) x
      · rw [complete, completeWith_out]
        exact hreport
      · obtain rfl := Option.some.inj he
        exact hcompleted
      · rw [hnone] at hasked
        cases hasked
    | none =>
      rw [teardownOver_reports hasked]
      refine ⟨_, onUnit_keep hwf (by rw [hwork]; rfl), htenant, hreport, fun e he => (by cases he), fun _ => ?_⟩
      rw [hwork]
      rfl
  case hostDown =>
    change onUnit s (wellFormed (.functionLevelReset vf)) (if s.pw.hostUp then flr s vf else s) = _
    rw [hdown]
    exact onUnit_keep hwf rfl
  case flr =>
    have hexec : exec (.functionLevelReset vf) s = .next { flr s vf with pending := s.pending } := by
      change onUnit s (wellFormed (.functionLevelReset vf)) (if s.pw.hostUp then flr s vf else s) = _
      rw [if_pos hup]
      exact onUnit_ok hwf
    obtain ⟨hown, hothers, htenant, hflr, hrecs, hdups⟩ := flr_facts (s := s) (x := vf) huniq
    generalize flr s vf = t at hexec hown hothers htenant hflr hrecs hdups
    refine ⟨_, hexec, hown, hothers, ?_, ?_, hflr, hrecs, hdups⟩
    · exact congrArg Tenant.evtEn htenant
    · exact congrArg Tenant.evtVector htenant

end Sys2Proof.Machine
end

section
/-! SUPPORT. Packets at the link ports (10 R304 to R309, R322, R323, R333), and the statement about them. -/

namespace Sys2Proof.Machine

open Sys2Proof

/-! ### Entries of the receive buffer (10 R302) -/

section freed
variable {s x : State} (hpos : x.bd.positions = s.bd.positions) (hlayer : x.bd.layer = s.bd.layer) (hlinks : x.fab.links = s.fab.links)

include hpos hlayer hlinks in
/-- What a freed packet gives back depends on the streams' table and on the links alone. -/
theorem freePacket_congr (l : Nat) (p : Packet) : freePacket x l p = { x with fab := { x.fab with links := (freePacket s l p).fab.links } } := by
  simp only [freePacket, freePort, inStream_congr hpos hlayer]
  split
  · simp only [setLink, getLink, hlinks]
  · simp only [setLink, getLink, hlinks]
  · rw [← hlinks]

theorem freePacket_frame (s : State) (l : Nat) (p : Packet) : freePacket s l p = { s with fab := { s.fab with links := (freePacket s l p).fab.links } } :=
  freePacket_congr rfl rfl rfl l p

/-- A packet whose entries are freed once it is answered. -/
theorem Replied.freePacket {s t : State} {l op sub : Nat} {p : Packet} {data : List Byte} (h : Replied s t l p op sub data) :
    Replied (freePacket s l p) (freePacket t l p) l p op sub data := by
  have ht := h.1
  have hfs := freePacket_frame s l p
  have hft : Machine.freePacket t l p = { t with fab := { t.fab with links := (Machine.freePacket s l p).fab.links } } :=
    freePacket_congr (by rw [ht]) (by rw [ht]) (by rw [ht]) l p
  refine h.transport (by rw [hfs]) (by rw [hfs]) (by rw [hfs]) ?_
  rw [hft, hfs]
  conv_lhs => rw [ht]

end freed

/-! ### The command of each operation (10 R307) -/

/-- A NACK that the port takes is counted; one that no request waits for may still name a MESSAGE. -/
def takenNack (s : State) (l : Nat) (p : Packet) : State :=
  if (reqOf s p).isSome then arriveResponse (cntFab s 7 1) l p else freePacket (lateNack (cntFab s 7 1) p) l p

/-- What a packet of each operation does where the port takes it. -/
def takenPacket (s : State) (l : Nat) (p : Packet) : Nat → State
  | 1 => freePacket (serveLoad s l p) l p
  | 2 => freePacket (serveStore s l p) l p
  | 3 => freePacket (serveFlag s l p) l p
  | 4 => freePacket (serveAtomic s l p) l p
  | 6 => serveGread s l p
  | 8 => arriveResponse s l p
  | 9 => arriveResponse s l p
  | 0xA => takenNack s l p
  | _ => s

/-- The commands of the eight operations. -/
def isPacketCmd (c : Instr) (l n : Nat) (p : Packet) : Prop :=
  c = .load l p ∧ n = 1 ∨ c = .store l p ∧ n = 2 ∨ c = .storeFlag l p ∧ n = 3 ∨ c = .atomic l p ∧ n = 4 ∨ c = .gread l p ∧ n = 6 ∨ c = .data l p ∧ n = 8
    ∨ c = .ack l p ∧ n = 9 ∨ c = .nack l p ∧ n = 0xA

section command
variable {s : State} {c : Instr} {l n : Nat} {p : Packet} (hc : isPacketCmd c l n p) (hwf : wellFormed c = true)
include hc hwf

theorem exec_packet : exec c s = .next { (if takesPacket s l n p then takenPacket s l p n else s) with pending := s.pending } := by
  have hexec : exec c s = onUnit s (wellFormed c) (if takesPacket s l n p then takenPacket s l p n else s) := by
    rcases hc with ⟨rfl, rfl⟩ | ⟨rfl, rfl⟩ | ⟨rfl, rfl⟩ | ⟨rfl, rfl⟩ | ⟨rfl, rfl⟩ | ⟨rfl, rfl⟩ | ⟨rfl, rfl⟩ | ⟨rfl, rfl⟩ <;> rfl
  exact hexec.trans (onUnit_ok hwf)

theorem exec_packet_ignored (h : takesPacket s l n p = false) : exec c s = .next s := by
  rw [exec_packet hc hwf, h]
  rfl

variable (h : takesPacket s l n p = true)
include h

theorem exec_packet_taken {t : State} (ht : takenPacket s l p n = t) : exec c s = .next { t with pending := s.pending } := by
  rw [exec_packet hc hwf, h, if_pos rfl, ht]

theorem exec_packet_keeps {t : State} (ht : takenPacket s l p n = t) (hp : t.pending = s.pending) : exec c s = .next t := by
  rw [exec_packet_taken hc hwf h ht, ← hp]

/-- A packet that is answered and leaves the port. -/
theorem exec_packet_replied {x : State} {op sub : Nat} {data : List Byte} (ht : takenPacket s l p n = freePacket (reply x l p op sub data) l p) :
    ∃ t, exec c s = .next t ∧ t.ms = x.ms ∧ Replied (freePacket { x with pending := s.pending } l p) t l p op sub data := by
  have hr := (reply_replied x l p op sub data).freePacket
  have hf := freePacket_congr (s := x) (x := { x with pending := s.pending }) rfl rfl rfl l p
  refine ⟨_, exec_packet_taken hc hwf h ht, ?_, hr.transport ?_ ?_ ?_ ?_⟩
  · rw [hr.1, freePacket_frame x]
  · rw [hf, freePacket_frame x]
  · rw [hf, freePacket_frame x]
  · rw [hf, freePacket_frame x]
  · conv_lhs => rw [hr.1]
    rw [hf, freePacket_frame x]

/-- A packet whose answer leaves the rest of the node as it was. -/
theorem exec_packet_answered {op sub : Nat} {data : List Byte} (ht : takenPacket s l p n = freePacket (reply s l p op sub data) l p) :
    ∃ t, exec c s = .next t ∧ Replied (freePacket s l p) t l p op sub data := by
  obtain ⟨t, hexec, -, hr⟩ := exec_packet_replied hc hwf h ht
  exact ⟨t, hexec, hr⟩

end command

/-! ### Requests for T2 objects (10 R307, R308) -/

section checks
variable {s : State} {p : Packet} {fmt : Bool} {n : Nat}

theorem checkReq_tornDown (h : (getT s p.tenant).tornDown = true) : checkReq s p fmt n = .error 3 := if_pos h

variable (hup : (getT s p.tenant).tornDown = false)
include hup

theorem checkReq_malformed : checkReq s p false n = .error 1 := by
  rw [checkReq, hup]
  rfl

theorem checkReq_absent (h : exportAt s p.tenant p.addr n = none) : checkReq s p true n = .error 2 := by
  rw [checkReq, hup, h]
  rfl

variable {e : Export} (h : exportAt s p.tenant p.addr n = some e)
include h

theorem checkReq_noPosition (hpos : hasPos s p.tenant = false) : checkReq s p true n = .error 5 := by
  rw [checkReq, hup, h, hpos]
  rfl

theorem checkReq_ok (hpos : hasPos s p.tenant = true) : checkReq s p true n = .ok e := by
  rw [checkReq, hup, h, hpos]
  rfl

end checks

section extent
variable {s : State} {e : Export} {a n : Nat}

theorem exportObj_tier (e : Export) : (exportObj e).tier ≠ 3 := by simp [exportObj]

theorem exportRead_ok (h : stackBad s (exportObj e) (a % 2 ^ 40 - e.off) n = none) : exportRead s e a n = (s, .ok (memRead e.data (a % 2 ^ 40 - e.off) n)) :=
  readObj_ok (exportObj_tier e) h

theorem exportRead_bad {b : StackBad} (h : stackBad s (exportObj e) (a % 2 ^ 40 - e.off) n = some b) :
    exportRead s e a n = (logStackBad s e.tenant b, .error stMemory) := readObj_bad (exportObj_tier e) h

/-- A write leaves all but the object's bytes, and the stacks' record of bad bursts and rows, as it was. -/
theorem exportWrite_frame (s : State) (e : Export) (a : Nat) (bs : List Byte) : exportWrite s e a bs = { s with ms := { s.ms with
    exports := s.ms.exports.map (fun x => if x.tenant = e.tenant ∧ x.off = e.off then { e with data := memWrite e.data (a % 2 ^ 40 - e.off) bs } else x)
    badBursts := (exportWrite s e a bs).ms.badBursts, badRows := (exportWrite s e a bs).ms.badRows } } :=
  mendBursts_frame (putExport s { e with data := memWrite e.data (a % 2 ^ 40 - e.off) bs }) (exportObj e) (a % 2 ^ 40 - e.off) bs.length

end extent

/-- The commands of the operations on T2 objects, with the format that each must have and the bytes that it reaches. -/
def isRequestCmd (c : Instr) (l n : Nat) (p : Packet) (fmt : Bool) (len : Nat) : Prop :=
  c = .load l p ∧ n = 1 ∧ fmt = spanOk p.addr p.len ∧ len = p.len ∨ c = .store l p ∧ n = 2 ∧ fmt = spanOk p.addr p.len ∧ len = p.len
    ∨ c = .storeFlag l p ∧ n = 3 ∧ fmt = (decide (p.addr % 8 = 0) && p.len == 0) ∧ len = 8 ∨ c = .atomic l p ∧ n = 4 ∧ fmt = atomicOk p ∧ len = 8

/-- What each does with the object that it finds. -/
def servedRequest (s : State) (l : Nat) (p : Packet) (e : Export) (len : Nat) : Nat → State
  | 1 => match (exportRead s e p.addr len).2 with
    | .error _ => nack (exportRead s e p.addr len).1 l p 4
    | .ok bs => reply (exportRead s e p.addr len).1 l p 8 0 bs
  | 2 => reply (exportWrite s e p.addr p.data) l p 9 0 []
  | 3 => reply (exportWrite s e p.addr (toLE 8 p.operand)) l p 9 0 []
  | _ => match (exportRead s e p.addr len).2 with
    | .error _ => nack (exportRead s e p.addr len).1 l p 4
    | .ok old => reply (exportWrite (exportRead s e p.addr len).1 e p.addr (toLE 8 (atomicValue p.sub (leNat old) p.operand (leNat p.data)))) l p 8 0 old

section request
variable {s : State} {c : Instr} {l n len : Nat} {p : Packet} {fmt : Bool} (hr : isRequestCmd c l n p fmt len)
include hr

theorem isRequestCmd.isPacketCmd : isPacketCmd c l n p := by
  rcases hr with ⟨hc, hn, -⟩ | ⟨hc, hn, -⟩ | ⟨hc, hn, -⟩ | ⟨hc, hn, -⟩
  · exact .inl ⟨hc, hn⟩
  · exact .inr (.inl ⟨hc, hn⟩)
  · exact .inr (.inr (.inl ⟨hc, hn⟩))
  · exact .inr (.inr (.inr (.inl ⟨hc, hn⟩)))

theorem isRequestCmd.atomic_len (h : n = 4) : len = 8 := by
  rcases hr with ⟨-, hn, -⟩ | ⟨-, hn, -⟩ | ⟨-, hn, -⟩ | ⟨-, -, -, hlen⟩
  · omega
  · omega
  · omega
  · exact hlen

theorem isRequestCmd.load_len (h : n = 1) : len = p.len := by
  rcases hr with ⟨-, -, -, hlen⟩ | ⟨-, hn, -⟩ | ⟨-, hn, -⟩ | ⟨-, hn, -⟩
  · exact hlen
  · omega
  · omega
  · omega

theorem takenPacket_refused {k : Nat} (h : checkReq s p fmt len = .error k) : takenPacket s l p n = freePacket (reply s l p 0xA k []) l p := by
  rcases hr with ⟨-, rfl, rfl, rfl⟩ | ⟨-, rfl, rfl, rfl⟩ | ⟨-, rfl, rfl, rfl⟩ | ⟨-, rfl, rfl, rfl⟩
  · simp only [takenPacket, serveLoad, h, nack]
  · simp only [takenPacket, serveStore, h, nack]
  · simp only [takenPacket, serveFlag, h, nack]
  · simp only [takenPacket, serveAtomic, h, nack]

theorem takenPacket_served {e : Export} (h : checkReq s p fmt len = .ok e) : takenPacket s l p n = freePacket (servedRequest s l p e len n) l p := by
  rcases hr with ⟨-, rfl, rfl, rfl⟩ | ⟨-, rfl, rfl, rfl⟩ | ⟨-, rfl, rfl, rfl⟩ | ⟨-, rfl, rfl, rfl⟩
  · simp only [takenPacket, serveLoad, h, servedRequest] <;> rfl
  · simp only [takenPacket, serveStore, h, servedRequest]
  · simp only [takenPacket, serveFlag, h, servedRequest]
  · simp only [takenPacket, serveAtomic, h, servedRequest] <;> rfl

end request

section served
variable {s : State} {l n len : Nat} {p : Packet} {e : Export}

theorem servedRequest_load (hn : n = 1) (h : stackBad s (exportObj e) (p.addr % 2 ^ 40 - e.off) len = none) :
    servedRequest s l p e len n = reply s l p 8 0 (memRead e.data (p.addr % 2 ^ 40 - e.off) len) := by
  subst hn
  simp only [servedRequest, exportRead_ok h]

theorem servedRequest_bad (hn : n = 1 ∨ n = 4) {b : StackBad} (h : stackBad s (exportObj e) (p.addr % 2 ^ 40 - e.off) len = some b) :
    servedRequest s l p e len n = reply (logStackBad s e.tenant b) l p 0xA 4 [] := by
  rcases hn with rfl | rfl
  · simp only [servedRequest, exportRead_bad h, nack]
  · simp only [servedRequest, exportRead_bad h, nack]

/-- A STORE, a STORE_FLAG and an ATOMIC write; the ATOMIC answers with what it has read. -/
theorem servedRequest_writes {bs data : List Byte} {op : Nat} (h : n = 2 ∧ bs = p.data ∧ op = 9 ∧ data = []
      ∨ n = 3 ∧ bs = toLE 8 p.operand ∧ op = 9 ∧ data = []
      ∨ n = 4 ∧ stackBad s (exportObj e) (p.addr % 2 ^ 40 - e.off) 8 = none ∧ data = memRead e.data (p.addr % 2 ^ 40 - e.off) 8
        ∧ bs = toLE 8 (atomicValue p.sub (leNat data) p.operand (leNat p.data)) ∧ op = 8) (hlen : n = 4 → len = 8) :
    servedRequest s l p e len n = reply (exportWrite s e p.addr bs) l p op 0 data := by
  rcases h with ⟨rfl, rfl, rfl, rfl⟩ | ⟨rfl, rfl, rfl, rfl⟩ | ⟨rfl, hgood, rfl, rfl, rfl⟩
  · rfl
  · rfl
  · obtain rfl := hlen rfl
    simp only [servedRequest, exportRead_ok hgood]

end served

/-! ### GREAD (10 R333) -/

section gread
variable {s : State} {l : Nat} {p : Packet}

theorem serveGread_refused {k : Nat} (h : greadObj s p = .error k) : serveGread s l p = freePacket (reply s l p 0xA k []) l p := by
  simp only [serveGread, h, nack]

theorem greadObj_tornDown (h : (getT s p.tenant).tornDown = true) : greadObj s p = .error 3 := if_pos h

section up
variable (hup : (getT s p.tenant).tornDown = false)
include hup

theorem greadObj_malformed (h : greadOk p = false) : greadObj s p = .error 1 := by
  rw [greadObj, hup, h]
  rfl

variable (hok : greadOk p = true)
include hok

theorem greadObj_absent (h : ∀ o, findObj s p.tenant (p.addr % 2 ^ 32) = some o →
      o.tier ≠ 3 ∨ o.size < p.addr / 2 ^ 32 * pageBytes + fieldAt p.data 0 4 + fieldAt p.data 4 4) : greadObj s p = .error 2 := by
  simp only [greadObj, hup, hok, Bool.false_eq_true, Bool.not_true, if_false]
  cases ho : findObj s p.tenant (p.addr % 2 ^ 32) with
  | none => rfl
  | some o => exact if_pos (h o ho)

variable {o : Obj} (ho : findObj s p.tenant (p.addr % 2 ^ 32) = some o) (htier : o.tier = 3)
  (hsize : p.addr / 2 ^ 32 * pageBytes + fieldAt p.data 0 4 + fieldAt p.data 4 4 ≤ o.size)
include ho htier hsize

theorem greadObj_found : greadObj s p = if hasPos s p.tenant then .ok o else .error 5 := by
  have hin : ¬ (o.tier ≠ 3 ∨ o.size < p.addr / 2 ^ 32 * pageBytes + fieldAt p.data 0 4 + fieldAt p.data 4 4) := by omega
  simp only [greadObj, hup, hok, ho, if_neg hin, Bool.false_eq_true, Bool.not_true, if_false]
  cases hasPos s p.tenant <;> rfl

end up

section found
variable {o : Obj} (hobj : greadObj s p = .ok o) (htier : o.tier = 3)
include hobj htier

/-- While flash is recovered it keeps its place in the receive buffer (09 R291). -/
theorem serveGread_waits (h : flashWait s = true) : serveGread s l p = { s with fab := { s.fab with flashHeld := s.fab.flashHeld ++ [.read l p] } } := by
  have hread : ∀ d off n, readLocal s d o off n = (s, .wait) := fun d off n => by simp [readLocal, htier, h]
  simp only [serveGread, hobj, hread, holdFlash]

variable (hready : flashWait s = false) (hguard : ownGuard s o.tenant o.num = none)
include hready hguard

omit hobj in
theorem readLocal_t3 (d : Desc) (off n : Nat) : readLocal s d o off n = ofExcept (readObj s o off n) := by
  simp only [readLocal, htier, hready, hguard, Bool.and_false, Bool.false_eq_true, if_false, if_true, ofExcept]
  split <;> rename_i h <;> rw [h]

variable {s1 : State}

theorem serveGread_reads {bs : List Byte} (hread : readObj s o (p.addr / 2 ^ 32 * pageBytes + fieldAt p.data 0 4) (fieldAt p.data 4 4) = (s1, .ok bs)) :
    serveGread s l p = freePacket (reply (dropAsked s1 (.tenant p.tenant 66) (greadKey p)) l p 8 0 bs) l p := by
  simp only [serveGread, hobj, readLocal_t3 htier hready hguard, hread, ofExcept, askerOf]

theorem serveGread_fails {st : Nat} (hread : readObj s o (p.addr / 2 ^ 32 * pageBytes + fieldAt p.data 0 4) (fieldAt p.data 4 4) = (s1, .error st)) :
    serveGread s l p = freePacket (reply (dropAsked s1 (.tenant p.tenant 66) (greadKey p)) l p 0xA (causeOf st) []) l p := by
  simp only [serveGread, hobj, readLocal_t3 htier hready hguard, hread, ofExcept, askerOf, nack]

end found

end gread

end Sys2Proof.Machine
end

section
/-! SUPPORT. Responses, STORE_FLAGs that leave and timers of requests (10 R308, R311, R322, R323), and the statement about packets. -/

namespace Sys2Proof.Machine

open Sys2Proof

/-! ### What a response ends (10 R308, R323) -/

section arrive
variable {s : State} {l : Nat} {p : Packet}

/-- One that nothing waits for is discarded. -/
theorem arriveResponse_none (h : reqOf s p = none) : arriveResponse s l p = freePacket s l p := by rw [arriveResponse, h]

variable {r : Req} (h : reqOf s p = some r)
include h

theorem arriveResponse_held (hheld : respHeld s r = true) : arriveResponse s l p = { s with fab := { s.fab with portHeld := s.fab.portHeld ++ [(l, p)] } } := by
  simp only [arriveResponse, h, hheld, if_true]

theorem arriveResponse_taken (hheld : respHeld s r = false) : arriveResponse s l p = freePacket (takeResponse s p) l p := by
  simp only [arriveResponse, h, hheld, Bool.false_eq_true, if_false]

variable (hans : answers p.op r.op = true)
include hans

theorem takeResponse_data (hop : p.op = 8) : takeResponse s p = takeData s r p.data := by
  rw [hop] at hans
  simp [takeResponse, h, hop, hans]

theorem takeResponse_ack (hop : p.op = 9) : takeResponse s p = takeAck s r := by
  rw [hop] at hans
  simp [takeResponse, h, hop, hans]

theorem takeResponse_nack (hop : p.op = 0xA) : takeResponse s p = takeNack s r p.sub := by
  rw [hop] at hans
  simp [takeResponse, h, hop, hans]

end arrive

theorem nackStatus_ne_zero (c : Nat) : nackStatus c ≠ 0 := by
  unfold nackStatus
  repeat' split
  all_goals decide

/-- The last remote request of a descriptor ends it: with the status that it keeps, or with the fault. -/
theorem remoteDone_last {s : State} {d : Desc} {tags : List Nat} {st de ep nb tag : Nat} (hd : findDesc s d.q d.seq = some d)
    (hwork : d.work = .remote tags 0 st de ep nb) (hlast : tags.filter (fun x => x != tag) = []) (fault : Nat) :
    ∃ detail epoch, remoteDone s d.q d.seq tag fault = completeWith s d (if fault = 0 then st else fault) 0 detail epoch nb [] := by
  simp only [remoteDone, hd, hwork, hlast, List.isEmpty_nil, if_true]
  split
  · exact ⟨_, _, rfl⟩
  · exact ⟨_, _, rfl⟩

/-- A response that ends the last request of a descriptor: what it leaves. -/
structure DescEnded (s x : State) (d : Desc) (st : Nat) (t : State) : Prop where
  reqs : t.fab.reqs = x.fab.reqs
  entry : getTt t d.q d.seq = ⟨d.seq, .complete, st⟩
  descs : t.qe.descs = s.qe.descs.filter (fun y => y.n != d.n)
  hostMem : t.hostMem = x.hostMem
  cnt : t.fab.cnt = x.fab.cnt

theorem exec_packet_endsDesc {s x : State} {c : Instr} {l n : Nat} {p : Packet} (hc : isPacketCmd c l n p) (hwf : wellFormed c = true) (htakes : takesPacket s l n p = true)
    {d : Desc} {tags : List Nat} {st de ep nb tag fault : Nat} (ht : takenPacket s l p n = freePacket (remoteDone x d.q d.seq tag fault) l p) (hqe : x.qe = s.qe)
    (hd : findDesc s d.q d.seq = some d) (hwork : d.work = .remote tags 0 st de ep nb) (hlast : tags.filter (fun x => x != tag) = []) :
    ∃ t, exec c s = .next t ∧ DescEnded s x d (if fault = 0 then st else fault) t := by
  obtain ⟨detail, epoch, hdone⟩ := remoteDone_last (s := x) (by rw [findDesc, hqe]; exact hd) hwork hlast fault
  rw [hdone] at ht
  refine ⟨_, exec_packet_taken hc hwf htakes ht, ?_⟩
  rw [freePacket_frame]
  generalize hz : completeWith x d (if fault = 0 then st else fault) 0 detail epoch nb [] = z
  have hfab : z.fab = { x.fab with sent := x.fab.sent.filter (fun m => !(m.q == d.q && m.seq == d.seq)) } := hz ▸ completeWith_fab ..
  have hreqs : z.fab.reqs = x.fab.reqs := by rw [hfab]
  have hcnt : z.fab.cnt = x.fab.cnt := by rw [hfab]
  refine ⟨hreqs, ?_, ?_, ?_, hcnt⟩
  · exact hz ▸ completeWith_getTt ..
  · rw [← hqe]
    exact hz ▸ completeWith_descs ..
  · exact hz ▸ completeWith_hostMem ..

/-! ### Elements that return (03 R70, R78) -/

theorem mem_tset_of_ne {β : Type} {t : Tab β} {y : Nat × β} {k : Nat} (v : β) (hy : y ∈ t) (hne : y.1 ≠ k) : y ∈ tset t k v := by
  induction t with
  | nil => cases hy
  | cons e t ih =>
    obtain ⟨a, b⟩ := e
    unfold tset
    split
    · exact List.mem_cons_of_mem _ hy
    · split
      · rename_i hk
        rcases List.mem_cons.mp hy with rfl | hy
        · exact absurd hk.symm hne
        · exact List.mem_cons_of_mem _ hy
      · rcases List.mem_cons.mp hy with rfl | hy
        · exact List.mem_cons_self ..
        · exact List.mem_cons_of_mem _ (ih hy)

/-- A context with an element out does not go on. -/
theorem settleCtx_open {s : State} {n c : Nat} {y : Nat × Elem} (hy : y ∈ (getCtx s n c).elems) (hout : y.2.returned = false) : settleCtx s n c = s := by
  have hnot : ((getCtx s n c).elems.all fun e => e.2.returned) = false := List.all_eq_false.mpr ⟨y, hy, by simp [hout]⟩
  simp only [settleCtx, hnot, Bool.not_false, if_true]

theorem getCtx_trimReqBuf (s : State) (n c r : Nat) : getCtx (trimReqBuf s n c r) n c = getCtx s n c := by
  unfold trimReqBuf
  split
  · rfl
  · simp only [getCtx, getSq_setSq]

/-- An element that returns while another is out. -/
theorem getCtx_elemDone {s : State} {n c slot : Nat} {e : Nat × Elem} (hfind : (getCtx s n c).elems.find? (fun x => x.1 == slot) = some e)
    (hended : (getCtx s n c).ended = none) {y : Nat × Elem} (hy : y ∈ (getCtx s n c).elems) (hne : y.1 ≠ slot) (hout : y.2.returned = false) (fault : Nat) (bs : List Byte) :
    getCtx (elemDone s n c slot fault bs) n c
      = { getCtx s n c with elems := tset (getCtx s n c).elems slot { e.2 with returned := true, left := true, fault := fault, data := bs.take e.2.bytes } } := by
  simp only [elemDone, hfind, hended, Option.isSome_none, Bool.false_eq_true, if_false]
  rw [settleCtx_open (y := y), getCtx_trimReqBuf, getCtx_setCtx]
  · rw [getCtx_trimReqBuf, getCtx_setCtx]
    exact mem_tset_of_ne _ hy hne
  · exact hout

/-! ### NACKs (10 R308) -/

/-- What a request's fault makes of a flag. -/
def marked (r : Req) (f : FlagWait) : FlagWait := if f.tenant = r.tenant ∧ seqBefore r.seq f.seq then { f with faulted := true } else f

theorem marked_tag (r : Req) (f : FlagWait) : (marked r f).tag = f.tag := by
  unfold marked
  split <;> rfl

/-- Flags are marked, and none is new. -/
theorem markFlags_frame (s : State) (r : Req) : ∃ tenants flags, markFlags s r = { s with tenants := tenants, fab := { s.fab with flags := flags } }
    ∧ ∀ y ∈ flags, ∃ g ∈ s.fab.flags, y.tag = g.tag := by
  by_cases h : isStoreOp r.op = true
  · refine ⟨(setT s r.tenant { getT s r.tenant with storeFault := true }).tenants, s.fab.flags.map (marked r), if_pos h, fun y hy => ?_⟩
    obtain ⟨g, hg, rfl⟩ := List.mem_map.mp hy
    exact ⟨g, hg, marked_tag r g⟩
  · exact ⟨s.tenants, s.fab.flags, if_neg h, fun y hy => ⟨y, hy, rfl⟩⟩

theorem takesPacket_op {s : State} {l n : Nat} {p : Packet} (h : takesPacket s l n p = true) : p.op = n := by
  simp only [takesPacket, Bool.and_eq_true, beq_iff_eq] at h
  exact h.1.2

section nacks
variable {s : State} {l : Nat} {p : Packet}

theorem takenNack_late (h : reqOf s p = none) (hsent : s.fab.sent.find? (fun m => m.msgId == p.tag && m.reply.isNone) = none) :
    takenNack s l p = freePacket (cntFab s 7 1) l p := by
  have hlate : lateNack (cntFab s 7 1) p = cntFab s 7 1 := by
    unfold lateNack
    rw [show (cntFab s 7 1).fab.sent = s.fab.sent from rfl, hsent]
  rw [takenNack, h, hlate]
  rfl

theorem takenNack_arrives {r : Req} (h : reqOf s p = some r) : takenNack s l p = arriveResponse (cntFab s 7 1) l p := by
  rw [takenNack, h]
  rfl

/-- A NACK is counted as it arrives. -/
def arrivedAt (s : State) (n : Nat) : State := if n = 0xA then cntFab s 7 1 else s

theorem arrivedAt_response {n : Nat} (h : n ≠ 0xA) : arrivedAt s n = s := if_neg h
theorem arrivedAt_nack : arrivedAt s 0xA = cntFab s 7 1 := rfl

theorem arrivedAt_pending (s : State) (n : Nat) : (arrivedAt s n).pending = s.pending := by
  unfold arrivedAt
  split <;> rfl

theorem arrivedAt_frame (s : State) (n : Nat) : ∃ cnt, arrivedAt s n = { s with fab := { s.fab with cnt := cnt } } := by
  unfold arrivedAt
  split
  · exact ⟨_, rfl⟩
  · exact ⟨s.fab.cnt, rfl⟩

section arrived
variable (s p) (n : Nat)

theorem reqOf_arrivedAt : reqOf (arrivedAt s n) p = reqOf s p := by
  obtain ⟨cnt, h⟩ := arrivedAt_frame s n
  rw [h]
  rfl

theorem respHeld_arrivedAt (r : Req) : respHeld (arrivedAt s n) r = respHeld s r := by
  obtain ⟨cnt, h⟩ := arrivedAt_frame s n
  rw [h]
  rfl

end arrived

/-- DATA and ACK arrive as they are. -/
theorem takenPacket_arrives {n : Nat} (hn : n = 8 ∨ n = 9 ∨ n = 0xA) (hnot : n ≠ 0xA) : takenPacket s l p n = arriveResponse s l p := by
  rcases hn with rfl | rfl | rfl
  · rfl
  · rfl
  · exact absurd rfl hnot

section waited
variable {n : Nat} (hn : n = 8 ∨ n = 9 ∨ n = 0xA) {r : Req} (h : reqOf s p = some r)
include hn h

/-- A response that a request waits for arrives, a NACK once it is counted. -/
theorem takenPacket_response : takenPacket s l p n = arriveResponse (arrivedAt s n) l p := by
  by_cases hnack : n = 0xA
  · subst hnack
    exact takenNack_arrives h
  · rw [arrivedAt_response hnack]
    exact takenPacket_arrives hn hnack

theorem takenPacket_held (hheld : respHeld s r = true) :
    takenPacket s l p n = { arrivedAt s n with fab := { (arrivedAt s n).fab with portHeld := s.fab.portHeld ++ [(l, p)] } } := by
  obtain ⟨cnt, hframe⟩ := arrivedAt_frame s n
  rw [takenPacket_response hn h, arriveResponse_held ((reqOf_arrivedAt ..).trans h) ((respHeld_arrivedAt ..).trans hheld), hframe]

theorem takenPacket_answers (hheld : respHeld s r = false) : takenPacket s l p n = freePacket (takeResponse (arrivedAt s n) p) l p := by
  rw [takenPacket_response hn h, arriveResponse_taken ((reqOf_arrivedAt ..).trans h) ((respHeld_arrivedAt ..).trans hheld)]

end waited

section reached
variable {r : Req} (h : reqOf s p = some r) (hheld : respHeld s r = false)
include h hheld

theorem takenPacket_data (hop : p.op = 8) (hans : answers 8 r.op = true) : takenPacket s l p 8 = freePacket (takeData s r p.data) l p := by
  rw [takenPacket_answers (.inl rfl) h hheld, arrivedAt_response (by decide), takeResponse_data h (hop ▸ hans) hop]

theorem takenPacket_ack (hop : p.op = 9) (hans : answers 9 r.op = true) : takenPacket s l p 9 = freePacket (takeAck s r) l p := by
  rw [takenPacket_answers (.inr (.inl rfl)) h hheld, arrivedAt_response (by decide), takeResponse_ack h (hop ▸ hans) hop]

theorem takenPacket_nack (hop : p.op = 0xA) (hans : answers 0xA r.op = true) : takenPacket s l p 0xA = freePacket (takeNack (cntFab s 7 1) r p.sub) l p := by
  rw [takenPacket_answers (.inr (.inr rfl)) h hheld, arrivedAt_nack, takeResponse_nack (s := cntFab s 7 1) h (hop ▸ hans) hop]

end reached

/-- Before what asked is told, a NACK may mark objects LOST and flags faulted; the queues and host memory are as they were. -/
theorem nacked_frame (s : State) (r : Req) (k : Prop) [Decidable k] : ∃ objs tenants flags,
    markFlags (dropReq (if k then markLost s r else s) r.tag) r = { s with
      ms := { s.ms with objs := objs }, tenants := tenants, fab := { s.fab with reqs := s.fab.reqs.filter (fun x => x.tag != r.tag), flags := flags } } := by
  obtain ⟨tenants, flags, h, -⟩ := markFlags_frame (dropReq (if k then markLost s r else s) r.tag) r
  rw [h]
  split
  · exact ⟨(markLost s r).ms.objs, tenants, flags, rfl⟩
  · exact ⟨s.ms.objs, tenants, flags, rfl⟩

end nacks

/-! ### STORE_FLAGs that leave (10 R311) -/

/-- The flag off the list of those that wait. -/
def unqueued (s : State) (f : FlagWait) : State := { s with fab := { s.fab with flags := s.fab.flags.filter (fun x => x.tag != f.tag) } }

/-- The request that a flag becomes on a link. -/
def flagReq (f : FlagWait) (l : Nat) : Req :=
  { tag := f.tag, tenant := f.tenant, target := f.addr / 2 ^ 40 % 256, op := 3, link := l, seq := f.seq, addr := f.addr, src := f.src }

/-- Its packet. -/
def flagLoad (s : State) (f : FlagWait) : Load :=
  .packet { mkPacket 3 0 0 f.addr f.value [] with tenant := f.tenant, src := s.fab.node, dst := f.addr / 2 ^ 40 % 256, tag := f.tag, seq := f.seq }

section flags
variable {s : State} {f : FlagWait}

theorem sendFlag_sent {k : Nat} (hfault : f.faulted = false) (hlink : linkFor s f.tenant (f.addr / 2 ^ 40 % 256) f.addr = some k) :
    sendFlag s f = (linkToken { unqueued s f with fab := { (unqueued s f).fab with reqs := s.fab.reqs ++ [flagReq f k] } } f.tenant k 1 (srcSquare f.src) (flagLoad s f)).1 := by
  simp only [sendFlag, hfault, hlink, Bool.false_eq_true, if_false]
  rfl

theorem sendFlag_faults (h : f.faulted = true ∨ linkFor s f.tenant (f.addr / 2 ^ 40 % 256) f.addr = none) :
    sendFlag s f = faultReq (unqueued s f) (flagReq f 0) stRemote := by
  unfold sendFlag
  dsimp only
  split
  · rfl
  · rename_i hfault
    have hlink := h.resolve_left hfault
    split
    · rfl
    · rename_i hsome
      rw [hlink] at hsome
      cases hsome

/-- A flag that ends with a fault is off the list, and the queues, the streams and host memory are as they were. -/
theorem flagFaulted_frame (s : State) (f : FlagWait) : ∃ tenants flags,
    markFlags (dropReq (unqueued s f) f.tag) (flagReq f 0)
      = { s with tenants := tenants, fab := { s.fab with reqs := s.fab.reqs.filter (fun x => x.tag != f.tag), flags := flags } }
    ∧ ∀ y ∈ flags, y.tag ≠ f.tag := by
  obtain ⟨tenants, flags, hframe, hold⟩ := markFlags_frame (dropReq (unqueued s f) f.tag) (flagReq f 0)
  refine ⟨tenants, flags, hframe, fun y hy => ?_⟩
  obtain ⟨g, hg, htag⟩ := hold y hy
  rw [htag]
  simpa using (List.mem_filter.mp hg).2

/-- What a load that waits for a link adds to the streams. -/
theorem linkToken_streams_of {s x : State} (hbd : x.bd = s.bd) (hranks : x.ranks = s.ranks) (o l cls : Nat) (src : Option Nat) (ld : Load) :
    (linkToken x o l cls src ld).1 = { x with bd := { s.bd with streams := (linkToken x o l cls src ld).1.bd.streams } }
    ∧ ∀ a b, getStream (linkToken x o l cls src ld).1 a b = { getStream s a b with tokens := (getStream s a b).tokens ++
        (if (linkStream s o l cls src).map (fun i => stKey o i) = some (stKey a b) then [⟨(loadBytes ld).length, ld⟩] else []) } := by
  have hstream : linkStream x o l cls src = linkStream s o l cls src := linkStream_congr (by rw [hbd]) (by rw [hbd]) hranks ..
  have hx : ∀ a b, getStream x a b = getStream s a b := getStream_congr (by rw [hbd])
  cases hl : linkStream s o l cls src with
  | some i =>
    rw [linkToken_some ld (hstream.trans hl)]
    refine ⟨by rw [addToken_frame, hbd], fun a b => ?_⟩
    simp only [getStream_addToken, hx, Option.map_some, Option.some.injEq, eq_comm]
  | none =>
    rw [linkToken_none ld (hstream.trans hl)]
    exact ⟨by rw [← hbd], fun a b => by simp [hx]⟩

end flags

theorem exec_storeFlagSend {s : State} {u tag : Nat} (hwf : wellFormed (.storeFlagSend u tag) = true) {t : State}
    (ht : (match s.fab.flags.find? (fun f => f.tenant == u && f.tag == tag) with | some f => if earlierOpen s f then s else sendFlag s f | none => s) = t)
    (hp : t.pending = s.pending) : exec (.storeFlagSend u tag) s = .next t := by
  have hexec : exec (.storeFlagSend u tag) s = onUnit s (wellFormed (.storeFlagSend u tag)) t := by
    rw [← ht]
    rfl
  exact hexec.trans (onUnit_keep hwf hp)

section send
variable {s : State} {u tag : Nat} (hwf : wellFormed (.storeFlagSend u tag) = true)
include hwf

theorem exec_storeFlagSend_none (h : s.fab.flags.find? (fun f => f.tenant == u && f.tag == tag) = none) : exec (.storeFlagSend u tag) s = .next s :=
  exec_storeFlagSend hwf (by rw [h]) rfl

variable {f : FlagWait} (h : s.fab.flags.find? (fun f => f.tenant == u && f.tag == tag) = some f)
include h

theorem exec_storeFlagSend_waits (hopen : earlierOpen s f = true) : exec (.storeFlagSend u tag) s = .next s :=
  exec_storeFlagSend hwf (by simp only [h, hopen, if_true]) rfl

theorem exec_storeFlagSend_leaves (hopen : earlierOpen s f = false) {t : State} (ht : sendFlag s f = t) (hp : t.pending = s.pending) :
    exec (.storeFlagSend u tag) s = .next t :=
  exec_storeFlagSend hwf (by simp only [h, hopen, ht, Bool.false_eq_true, if_false]) hp

end send

/-! ### Timers (10 R322, R323) -/

/-- A timer that expires is counted, and reported but for a torn-down tenant. -/
def expired (s : State) (r : Req) : State :=
  if (getT s r.tenant).tornDown then countUnit (cntEr (cntFab s 6 1) 9 1) (linkUnit r.link) false 0
  else report (countUnit (cntEr (cntFab s 6 1) 9 1) (linkUnit r.link) false 0) 0x0061 2 r.tenant (linkUnit r.link) r.target r.op r.link

theorem timeout_eq (s : State) (r : Req) : timeout s r = faultReq (expired s r) r stRemote := rfl

theorem expired_fab (s : State) (r : Req) : (expired s r).fab = (cntFab s 6 1).fab := by
  unfold expired
  split
  · rfl
  · rw [report_fab]
    rfl

theorem expired_counts (s : State) (r : Req) : tget 0 (expired s r).fab.cnt 6 = satAdd 64 (tget 0 s.fab.cnt 6) 1 ∧ tget 0 (expired s r).er.cnt 9 = satAdd 64 (tget 0 s.er.cnt 9) 1 := by
  refine ⟨?_, ?_⟩
  · rw [expired_fab]
    exact tget_tset_same ..
  · have hcount : tget 0 (countUnit (cntEr (cntFab s 6 1) 9 1) (linkUnit r.link) false 0).er.cnt 9 = satAdd 64 (tget 0 s.er.cnt 9) 1 := tget_tset_same ..
    unfold expired
    split
    · exact hcount
    · rw [report, raise_cnt_other _ _ _ _ _ _ _ _ _ (by decide)]
      exact hcount

theorem expired_out (s : State) (r : Req) : ((getT s r.tenant).tornDown = false → .report 0x61 [r.target, r.op, r.link] ∈ (expired s r).out)
    ∧ ((getT s r.tenant).tornDown = true → (expired s r).out = s.out) := by
  unfold expired
  refine ⟨fun h => ?_, fun h => ?_⟩
  · rw [h, if_neg Bool.false_ne_true]
    obtain ⟨more, hout⟩ := report_out (countUnit (cntEr (cntFab s 6 1) 9 1) (linkUnit r.link) false 0) 0x0061 2 r.tenant (linkUnit r.link) r.target r.op r.link
    rw [hout]
    simp
  · rw [if_pos h]
    rfl

/-- A request that nothing waits for ends with no more than its mark on later flags. -/
theorem faultReq_none (s : State) {r : Req} (h : r.src = .none) (st : Nat) : faultReq s r st = markFlags (dropReq s r.tag) r := by
  rw [faultReq, h]
  rfl

section timer
variable {s : State} {tag : Nat}

theorem exec_remoteTimeout (s : State) (tag : Nat) : exec (.remoteTimeout tag) s
    = .next { (match findReq s tag with | some r => if timerPaused s r then s else timeout s r | none => s) with pending := s.pending } := rfl

theorem exec_remoteTimeout_none (h : findReq s tag = none) : exec (.remoteTimeout tag) s = .next s := by rw [exec_remoteTimeout, h]

variable {r : Req} (h : findReq s tag = some r)
include h

theorem exec_remoteTimeout_paused (hp : timerPaused s r = true) : exec (.remoteTimeout tag) s = .next s := by
  simp only [exec_remoteTimeout, h, hp, if_true]

theorem exec_remoteTimeout_expires (hp : timerPaused s r = false) : exec (.remoteTimeout tag) s = .next { faultReq (expired s r) r stRemote with pending := s.pending } := by
  simp only [exec_remoteTimeout, h, hp, Bool.false_eq_true, if_false, timeout_eq]

end timer

/-! ### The statement -/

/-- Settles O57: the packets that a port ignores, the four operations on T2 objects, GREAD, the responses, STORE_FLAGs that leave and timers. -/
theorem packetsServedAndAnswered : Obligations.PacketsServedAndAnswered := by
  unfold Obligations.PacketsServedAndAnswered
  refine ⟨fun s l n p c hc hwf hother => exec_packet_ignored hc hwf hother, fun s l n len p c fmt hr hwf htakes => ?requests, fun s l p hwf htakes => ?gread,
    fun s l n p c hc hwf htakes => ?responses, fun s u tag hwf => ⟨exec_storeFlagSend_none hwf, fun f hfind => ⟨exec_storeFlagSend_waits hwf hfind,
      fun k hopen hfault hlink => ?flagSent, fun d tags st de ep nb hopen hfault hsrc hd hwork hlast => ?flagFaults⟩⟩,
    fun s tag => ⟨exec_remoteTimeout_none, fun r hfind hp => exec_remoteTimeout_paused hfind hp, fun r hfind hp => ?expires⟩⟩
  case requests =>
    have hc : isPacketCmd c l n p := isRequestCmd.isPacketCmd hr
    have hrefused : ∀ {k}, checkReq s p fmt len = .error k → ∃ t, exec c s = .next t ∧ Replied (freePacket s l p) t l p 0xA k [] :=
      fun h => exec_packet_answered hc hwf htakes (takenPacket_refused hr h)
    refine ⟨fun hdown => hrefused (checkReq_tornDown hdown), fun hup hfmt => hrefused (hfmt ▸ checkReq_malformed hup),
      fun hup hfmt hnone => hrefused (hfmt ▸ checkReq_absent hup hnone), fun e hup hfmt he hpos => hrefused (hfmt ▸ checkReq_noPosition hup he hpos),
      fun e hup hfmt he hpos => ?_⟩
    have hserved := takenPacket_served hr (e := e) (hfmt ▸ checkReq_ok hup he hpos)
    refine ⟨fun hn hgood => ?_, fun b hn hbad => ?_, fun bs data op hwrites => ?_⟩
    · have hlen : len = p.len := isRequestCmd.load_len hr hn
      subst hlen
      exact exec_packet_answered hc hwf htakes (hserved.trans (congrArg (freePacket · l p) (servedRequest_load hn hgood)))
    · obtain ⟨t, hexec, -, hreplied⟩ := exec_packet_replied hc hwf htakes (hserved.trans (congrArg (freePacket · l p) (servedRequest_bad hn hbad)))
      have hp : { logStackBad s e.tenant b with pending := s.pending } = logStackBad s e.tenant b := by rw [ReadOnly.logStackBad s e.tenant b]
      exact ⟨t, hexec, hp ▸ hreplied⟩
    · obtain ⟨t, hexec, hms, hreplied⟩ := exec_packet_replied hc hwf htakes
        (hserved.trans (congrArg (freePacket · l p) (servedRequest_writes hwrites fun hn => isRequestCmd.atomic_len hr hn)))
      have hframe := exportWrite_frame s e p.addr bs
      generalize exportWrite s e p.addr bs = x at hms hreplied hframe
      refine ⟨t, hexec, by rw [hms, hframe], ?_⟩
      rw [hms]
      have hx : { x with pending := s.pending } = { s with ms := { s.ms with exports := x.ms.exports, badBursts := x.ms.badBursts, badRows := x.ms.badRows } } := by
        conv_lhs => rw [hframe]
        rw [hframe]
      exact hx ▸ hreplied
  case gread =>
    have hc : isPacketCmd (.gread l p) l 6 p := .inr (.inr (.inr (.inr (.inl ⟨rfl, rfl⟩))))
    have hrefused : ∀ {k}, greadObj s p = .error k → ∃ t, exec (.gread l p) s = .next t ∧ Replied (freePacket s l p) t l p 0xA k [] :=
      fun h => exec_packet_answered hc hwf htakes (serveGread_refused h)
    refine ⟨fun hdown => hrefused (greadObj_tornDown hdown), fun hup hbad => hrefused (greadObj_malformed hup hbad),
      fun hup hok hnone => hrefused (greadObj_absent hup hok hnone), fun o hup hok ho htier hsize => ?_⟩
    have hfound := greadObj_found hup hok ho htier hsize
    refine ⟨fun hpos => hrefused (hfound.trans (by rw [hpos]; rfl)),
      fun hpos hwait => exec_packet_keeps hc hwf htakes (serveGread_waits (hfound.trans (if_pos hpos)) htier hwait) rfl,
      fun s1 v hpos hready hguard hread => ?_⟩
    have hobj := hfound.trans (if_pos hpos)
    cases v with
    | ok bs =>
      obtain ⟨t, hexec, -, hreplied⟩ := exec_packet_replied hc hwf htakes (serveGread_reads hobj htier hready hguard hread)
      exact ⟨t, hexec, fun _ h => (by cases h; exact hreplied), fun _ h => by cases h⟩
    | error st =>
      obtain ⟨t, hexec, -, hreplied⟩ := exec_packet_replied hc hwf htakes (serveGread_fails hobj htier hready hguard hread)
      exact ⟨t, hexec, fun _ h => (by cases h), fun _ h => by cases h; exact hreplied⟩
  case responses =>
    have hcmd : isPacketCmd c l n p := by
      rcases hc with h | h | h
      · exact .inr (.inr (.inr (.inr (.inr (.inl h)))))
      · exact .inr (.inr (.inr (.inr (.inr (.inr (.inl h))))))
      · exact .inr (.inr (.inr (.inr (.inr (.inr (.inr h))))))
    have hop := takesPacket_op htakes
    have hn : n = 8 ∨ n = 9 ∨ n = 0xA := hc.imp And.right (Or.imp And.right And.right)
    refine ⟨fun hnone hnot => exec_packet_keeps hcmd hwf htakes ((takenPacket_arrives hn hnot).trans (arriveResponse_none hnone)) (by rw [freePacket_frame]),
      fun hnone hnack hsent => ?_, fun r hreq hheld => exec_packet_keeps hcmd hwf htakes (takenPacket_held hn hreq hheld) (arrivedAt_pending ..),
      fun r d tags st de ep nb hreq hans hd hwork hlast => ⟨fun host h8 hsrc => ?hostRead, fun h9 hsrc => ?acked, fun hnack hsrc => ?nacked⟩,
      fun r k i slot e h8 hreq hans hsrc hheld hfind hended hout => ?elem⟩
    · subst hnack
      exact exec_packet_keeps hcmd hwf htakes (takenNack_late hnone hsent) (by rw [freePacket_frame]; rfl)
    case hostRead =>
      subst h8
      have htaken := takenPacket_data (l := l) hreq (by rw [respHeld, hsrc]) hop hans
      simp only [takeData, hsrc] at htaken
      have hframe := hostWrite_frame (dropReq s r.tag) r.tenant host p.data
      obtain ⟨t, hexec, hend⟩ := exec_packet_endsDesc hcmd hwf htakes htaken (by rw [hframe]; rfl) hd hwork hlast
      refine ⟨t, hexec, by rw [hend.reqs, hframe]; rfl, hend.entry, hend.descs, fun hopen => ?_, fun b hb => ?_⟩
      · rw [hostRead, hend.hostMem]
        exact hostRead_hostWrite (dropReq s r.tag) r.tenant host p.data hopen
      · rw [hend.hostMem]
        exact hostWrite_outside (dropReq s r.tag) r.tenant host b p.data hb
    case acked =>
      subst h9
      have htaken := takenPacket_ack (l := l) hreq (by rw [respHeld, hsrc]) hop hans
      simp only [takeAck, hsrc] at htaken
      obtain ⟨t, hexec, hend⟩ := exec_packet_endsDesc hcmd hwf htakes htaken rfl hd hwork hlast
      exact ⟨t, hexec, hend.reqs, hend.entry, hend.descs, hend.hostMem⟩
    case nacked =>
      subst hnack
      have htaken := takenPacket_nack (l := l) hreq (by rw [respHeld, hsrc]) hop hans
      simp only [takeNack, faultReq, hsrc, faultSrc] at htaken
      obtain ⟨objs, tenants, flags, hframe⟩ := nacked_frame (cntFab s 7 1) r (p.sub = 2 ∧ r.op ≠ 5 ∧ r.op ≠ 6)
      rw [hframe] at htaken
      obtain ⟨t, hexec, hend⟩ := exec_packet_endsDesc hcmd hwf htakes htaken rfl hd hwork hlast
      rw [if_neg (nackStatus_ne_zero _)] at hend
      exact ⟨t, hexec, hend.reqs, hend.entry, hend.descs, by rw [hend.cnt]; exact tget_tset_same .., hend.hostMem⟩
    case elem =>
      subst h8
      obtain ⟨y, hy, hne, hopen⟩ := hout
      have htaken := takenPacket_data (l := l) hreq hheld hop hans
      simp only [takeData, hsrc] at htaken
      refine ⟨_, exec_packet_taken hcmd hwf htakes htaken, ?_, ?_⟩
      · rw [freePacket_frame]
        exact (elemDone_keepsLinks (dropReq s r.tag) k i slot 0 p.data).1
      · rw [freePacket_frame]
        exact (getCtx_congr rfl ..).trans (getCtx_elemDone (s := dropReq s r.tag) hfind hended hy hne hopen 0 p.data)
  case flagSent =>
    obtain ⟨hframe, hstreams⟩ := linkToken_streams_of (s := s) (x := { unqueued s f with fab := { (unqueued s f).fab with reqs := s.fab.reqs ++ [flagReq f k] } }) rfl rfl
      f.tenant k 1 (srcSquare f.src) (flagLoad s f)
    exact ⟨_, exec_storeFlagSend_leaves hwf hfind hopen (sendFlag_sent hfault hlink) (by rw [hframe]; rfl), hframe, hstreams⟩
  case flagFaults =>
    obtain ⟨tenants, flags, hframe, hflags⟩ := flagFaulted_frame s f
    obtain ⟨detail, epoch, hdone⟩ := remoteDone_last (s := markFlags (dropReq (unqueued s f) f.tag) (flagReq f 0)) (tag := f.tag)
      (by rw [hframe]; exact hd) hwork hlast stRemote
    have hends : sendFlag s f = completeWith (markFlags (dropReq (unqueued s f) f.tag) (flagReq f 0)) d stRemote 0 detail epoch nb [] := by
      rw [if_neg (by decide)] at hdone
      rw [sendFlag_faults hfault, ← hdone]
      simp only [faultReq, flagReq, hsrc, faultSrc]
    rw [hframe] at hends
    refine ⟨_, exec_storeFlagSend_leaves hwf hfind hopen hends (completeWith_pending ..), completeWith_getTt .., completeWith_descs .., ?_, ?_, completeWith_hostMem ..⟩
    · rw [completeWith_fab]
      exact hflags
    · rw [completeWith_bd, dropChunks, hwork]
  case expires =>
    have htag : r.tag = tag := by simpa using List.find?_some hfind
    obtain ⟨hlinks, hreqs⟩ := faultReq_links (expired s r) r stRemote (by decide)
    have hfab := expired_fab s r
    refine ⟨_, exec_remoteTimeout_expires hfind hp, ?_, fun l => ?_, fun hsrc => ?_⟩
    · rw [hreqs, hfab, htag]
      rfl
    · have hst := congrArg Link.st (hlinks l)
      refine hst.trans ?_
      simp only [getLink, hfab]
      rfl
    · obtain ⟨tenants, flags, hmark, -⟩ := markFlags_frame (dropReq (expired s r) r.tag) r
      obtain ⟨hfabCnt, herCnt⟩ := expired_counts s r
      rw [faultReq_none _ hsrc, hmark]
      exact ⟨hfabCnt, herCnt, expired_out s r⟩

end Sys2Proof.Machine
end

section
/-! SUPPORT. Descriptors that end before their commit (07 R212; 11 R360, R364): what an ended descriptor writes and leaves; NOP, FENCE and ABORT (11 R359 to R365), and the statement about them. -/

namespace Sys2Proof.Machine

open Sys2Proof

/-! ### The end of an uncommitted descriptor -/

/-- The epoch of the last step that a CONSOLIDATE has taken. -/
def stepsEpoch (d : Desc) : Option Nat :=
  match d.work with
  | .consolidate _ last .. => last
  | _ => none

/-- The first move in which the record of a descriptor that ends now may be written (07 R188). -/
def stepsMove (d : Desc) : Nat :=
  match stepsEpoch d with
  | some e => e / 65536 + 2
  | none => 0

/-- The result of the steps that a CONSOLIDATE has taken (07 R212). -/
def stepsResult (d : Desc) : List Byte :=
  match d.work with
  | .consolidate first last steps folded repaired freed _ _ => consResult first last steps folded repaired freed
  | _ => zeros 32

/-- The order of recompositions without the one that a command on the admin queue waits for. -/
def withoutRecomp (s : State) (d : Desc) : State :=
  if isAdmin d.q then { s with bd := { s.bd with recomps := s.bd.recomps.filter (fun r => r.seq != d.seq) } } else s

/-- What a descriptor that ends before its commit leaves before its completion: its result, where it is a CONSOLIDATE. -/
def resultLeft (s : State) (d : Desc) : State :=
  if descOp d = 0x0A ∧ !isAdmin d.q then hostWrite (withoutRecomp s d) d.tenant (dfield d 16 8) (stepsResult d) else withoutRecomp s d

/-- An uncommitted descriptor ends as a completion, after its result has been written. -/
theorem endDesc_eq (s : State) (d : Desc) (st : Nat) (mid : List Rec) :
    endDesc s d st mid = completeWith (resultLeft s d) d st 0 0 ((stepsEpoch d).getD 0) (stepsMove d) (mid.map (fun r => { r with notBefore := stepsMove d })) := by
  unfold endDesc resultLeft stepsMove stepsEpoch stepsResult withoutRecomp
  cases d.work <;> rfl

/-- Only a CONSOLIDATE that has taken steps waits with its record. -/
theorem stepsEpoch_none {d : Desc} (h : ∀ f l st fo re fr ph cu, d.work ≠ .consolidate f l st fo re fr ph cu) : stepsEpoch d = none := by
  unfold stepsEpoch
  split
  · rename_i hwork
    exact absurd hwork (h _ _ _ _ _ _ _ _)
  · rfl

theorem stepsMove_none {d : Desc} (h : stepsEpoch d = none) : stepsMove d = 0 := by rw [stepsMove, h]

theorem withoutRecomp_frame (s : State) (d : Desc) : withoutRecomp s d = { s with bd := { s.bd with recomps := (withoutRecomp s d).bd.recomps } } := by
  unfold withoutRecomp
  split <;> rfl

theorem resultLeft_frame (s : State) (d : Desc) :
    resultLeft s d = { s with hostMem := (resultLeft s d).hostMem, bd := { s.bd with recomps := (resultLeft s d).bd.recomps } } := by
  have hrecomp := withoutRecomp_frame s d
  unfold resultLeft
  split
  · rw [hostWrite_frame, hrecomp]
  · rw [hrecomp]

/-- A descriptor that is no CONSOLIDATE writes nothing to host memory when it ends. -/
theorem resultLeft_hostMem {s : State} {d : Desc} (h : descOp d ≠ 0x0A) : (resultLeft s d).hostMem = s.hostMem := by
  rw [resultLeft, if_neg fun hop => h hop.1, withoutRecomp_frame]

theorem endDesc_hostMem {s : State} {d : Desc} (h : descOp d ≠ 0x0A) (st : Nat) (mid : List Rec) : (endDesc s d st mid).hostMem = s.hostMem := by
  rw [endDesc_eq, completeWith_hostMem, resultLeft_hostMem h]

/-- Its record waits first; those given with it follow at once (11 R364). -/
theorem endDesc_recs_steps (s : State) (d : Desc) (st : Nat) (mid : List Rec) :
    ∃ l, (endDesc s d st mid).qe.recs = s.qe.recs ++ recOf d st 0 0 ((stepsEpoch d).getD 0) (stepsMove d)
      :: (mid.map (fun r => { r with notBefore := stepsMove d }) ++ l) := by
  obtain ⟨l, hl⟩ := completeWith_recs_mid (resultLeft s d) d st 0 0 ((stepsEpoch d).getD 0) (stepsMove d) (mid.map (fun r => { r with notBefore := stepsMove d }))
  refine ⟨l, ?_⟩
  rw [endDesc_eq, hl, resultLeft_frame]

/-! ### What the end of a descriptor may change -/

/-- The queue engine alone has changed. -/
def OnlyQe (s t : State) : Prop := t = { s with qe := t.qe }

namespace OnlyQe

theorem trans {a b c : State} (hab : OnlyQe a b) (hbc : OnlyQe b c) : OnlyQe a c := by
  unfold OnlyQe at *
  rw [hbc, hab]

theorem pending {s t : State} (h : OnlyQe s t) : t.pending = s.pending := by rw [h]

theorem setQ (s : State) (q : QId) (v : Queue) : OnlyQe s (setQ s q v) := by cases q <;> rfl

theorem setTt (s : State) (q : QId) (n : Nat) (e : TtEntry) : OnlyQe s (setTt s q n e) := setQ ..

theorem dupRecs (s : State) (q : QId) (seq st : Nat) : OnlyQe s (dupRecs s q seq st) := by
  unfold OnlyQe
  rw [dupRecs_eq]

end OnlyQe

/-- Only the queue engine, contexts, dropped replies and chunks, the waiting recompositions and host memory have changed. -/
def EndWork (s t : State) : Prop :=
  t = { s with qe := t.qe, squares := t.squares, hostMem := t.hostMem, bd := { s.bd with streams := t.bd.streams, recomps := t.bd.recomps }, fab := { s.fab with sent := t.fab.sent } }

namespace EndWork

theorem trans {a b c : State} (hab : EndWork a b) (hbc : EndWork b c) : EndWork a c := by
  unfold EndWork at *
  rw [hbc, hab]

theorem of_qe {s t : State} (h : OnlyQe s t) : EndWork s t := by
  unfold EndWork
  rw [h]

theorem of_onlyQueues {s t : State} (h : OnlyQueues s t) : EndWork s t := by
  obtain ⟨hframe, hbd, -⟩ := h
  unfold EndWork
  rw [hframe, hbd]

theorem pending {s t : State} (h : EndWork s t) : t.pending = s.pending := by rw [h]

end EndWork

theorem dropDesc_only (s : State) (d : Desc) (st : Nat) : OnlyQueues s (dropDesc s d st) := by
  refine ⟨?_, (dropChunks_streams s d).of_bd (dropDesc_bd ..)⟩
  apply State.ext <;> simp [dropDesc_fab]

theorem endDesc_endWork (s : State) (d : Desc) (st : Nat) (mid : List Rec) : EndWork s (endDesc s d st mid) := by
  have hleft : EndWork s (resultLeft s d) := by
    unfold EndWork
    rw [resultLeft_frame]
  rw [endDesc_eq]
  exact hleft.trans (.of_onlyQueues (completeWith_only ..))

/-! ### ABORT (11 R361, R363, R364) -/

/-- An ABORT that has ended its target completes; its own record stands with the target's already. -/
def abortDone (s : State) (d : Desc) : State := dupRecs (setTt (dropDesc s d stDone) d.q d.seq ⟨d.seq, .complete, stDone⟩) d.q d.seq stDone

theorem abortDone_descs (s : State) (d : Desc) : (abortDone s d).qe.descs = s.qe.descs.filter (fun y => y.n != d.n) := by
  simp [abortDone, dupRecs_eq]

theorem abortDone_recs (s : State) (d : Desc) : ∃ dups, (abortDone s d).qe.recs = s.qe.recs ++ dups :=
  ⟨_, by rw [abortDone, dupRecs_eq, setTt_recs, dropDesc_recs]⟩

theorem abortDone_hostMem (s : State) (d : Desc) : (abortDone s d).hostMem = s.hostMem := by simp [abortDone]

theorem abortDone_endWork (s : State) (d : Desc) : EndWork s (abortDone s d) :=
  (EndWork.of_onlyQueues (dropDesc_only s d stDone)).trans (.of_qe ((OnlyQe.setTt ..).trans (OnlyQe.dupRecs ..)))

section abort
variable {s : State} {d : Desc}

theorem runAbort_malformed (h : abortTarget s d = .malformed) : runAbort s d = complete (cntQe s 5) d stMalformed := by
  simp only [runAbort, h]

theorem runAbort_stale (h : abortTarget s d = .stale) : runAbort s d = complete (cntQe s 5) d stStale := by
  simp only [runAbort, h]

theorem runAbort_done (h : abortTarget s d = .done) : runAbort s d = complete (cntQe s 5) d stAlready := by
  simp only [runAbort, h]

theorem runAbort_pending {x : Desc} (h : abortTarget s d = .pending x) :
    runAbort s d = abortDone (endDesc (cntQe s 5) x stAborted [recOf d stDone 0 0 0 0]) d := by
  simp only [runAbort, h]
  rfl

theorem exec_abort {q : QId} {seq : Nat} (hwf : wellFormed (.abort q seq) = true) (hd : findDesc s q seq = some d) (hop : descOp d = 0x30) (hready : d.phase = .ready)
    {t : State} (hruns : runAbort s d = t) (hp : t.pending = s.pending) : exec (.abort q seq) s = .next t := by
  have hexec : exec (.abort q seq) s = onUnit s (wellFormed (.abort q seq)) (runAbort s d) := by
    change execAbort q seq s = _
    simp only [execAbort, hd]
    rw [if_pos ⟨hop, hready⟩]
  rw [hexec, hruns, onUnit_keep hwf hp]

/-- The same where the ABORT only completes. -/
theorem exec_abort_completes {q : QId} {seq st : Nat} (hwf : wellFormed (.abort q seq) = true) (hd : findDesc s q seq = some d) (hop : descOp d = 0x30)
    (hready : d.phase = .ready) (hruns : runAbort s d = complete (cntQe s 5) d st) :
    ∃ t, exec (.abort q seq) s = .next t ∧ Completed (cntQe s 5) d st 0 t ∧ OnlyQueues s t :=
  have hcnt : OnlyQueues s (cntQe s 5) := ⟨rfl, .self s⟩
  ⟨_, exec_abort hwf hd hop hready hruns (complete_pend ..), complete_completed .., hcnt.trans (complete_only ..)⟩

end abort

/-! ### NOP and FENCE (11 R361, R365) -/

section fence
variable {s : State} {q : QId} {seq : Nat} {d : Desc}

/-- A command that completes the descriptor it runs, and does nothing else. -/
theorem onUnit_completes {ok : Bool} (hok : ok = true) {t : State} {st : Nat} (h : t = complete s d st) :
    ∃ u, onUnit s ok t = .next u ∧ Completed s d st 0 u ∧ OnlyQueues s u := by
  subst h
  exact ⟨_, onUnit_keep hok (complete_pend ..), complete_completed .., complete_only ..⟩

theorem exec_nop (hd : dueDesc s q seq 0x3F = some d) : exec (.nop q seq) s = onUnit s (wellFormed (.nop q seq)) (complete s d stDone) := by
  change execNop q seq s = _
  simp only [execNop, hd]

/-- What a FENCE that may be dispatched does. -/
def runFence (s : State) (d : Desc) : State :=
  if 1 < dfield d 16 1 then complete s d stMalformed
  else if fenceDue s d then complete s d stDone
  else if fenceReached s d then commit s d
  else s

theorem exec_fence (hd : dueDesc s q seq 0x38 = some d) : exec (.fence q seq) s = onUnit s (wellFormed (.fence q seq)) (runFence s d) := by
  change execFence q seq s = _
  simp only [execFence, hd]
  rfl

theorem runFence_malformed (h : 1 < dfield d 16 1) : runFence s d = complete s d stMalformed := if_pos h

theorem runFence_due (hscope : dfield d 16 1 ≤ 1) (h : fenceDue s d = true) : runFence s d = complete s d stDone := by
  rw [runFence, if_neg (Nat.not_lt.mpr hscope), if_pos h]

theorem runFence_waits (hscope : dfield d 16 1 ≤ 1) (h : fenceDue s d = false) : runFence s d = if fenceReached s d then commit s d else s := by
  rw [runFence, if_neg (Nat.not_lt.mpr hscope), if_neg (by simp [h])]

theorem runFence_pending : (if fenceReached s d then commit s d else s).pending = s.pending := by
  split
  · exact commit_pending s d
  · rfl

end fence

/-- Settles O8: each command by the branch of its meaning that its descriptor takes, an ABORT of a PENDING target by the two ends that follow each other. -/
theorem abortFenceNopComplete : Obligations.AbortFenceNopComplete := by
  unfold Obligations.AbortFenceNopComplete
  refine ⟨fun s q seq d hwf hd => ?nop, fun s q seq d hwf hd => ⟨fun hscope => ?malformed, fun hscope hdue => ?due, fun hscope hdue => ?waits⟩,
    fun s q seq d hwf hd hop hready => ?abort⟩
  case nop => exact exec_nop hd ▸ onUnit_completes hwf rfl
  case malformed => exact exec_fence hd ▸ onUnit_completes hwf (runFence_malformed hscope)
  case due => exact exec_fence hd ▸ onUnit_completes hwf (runFence_due hscope hdue)
  case waits => rw [exec_fence hd, runFence_waits hscope hdue, onUnit_keep hwf runFence_pending]
  case abort =>
    cases htarget : abortTarget s d with
    | malformed => exact exec_abort_completes hwf hd hop hready (runAbort_malformed htarget)
    | stale => exact exec_abort_completes hwf hd hop hready (runAbort_stale htarget)
    | done => exact exec_abort_completes hwf hd hop hready (runAbort_done htarget)
    | pending x =>
      have hwork : EndWork s (abortDone (endDesc (cntQe s 5) x stAborted [recOf d stDone 0 0 0 0]) d) :=
        (EndWork.of_qe (t := cntQe s 5) rfl).trans ((endDesc_endWork ..).trans (abortDone_endWork ..))
      obtain ⟨l, hended⟩ := endDesc_recs_steps (cntQe s 5) x stAborted [recOf d stDone 0 0 0 0]
      obtain ⟨dups, hdone⟩ := abortDone_recs (endDesc (cntQe s 5) x stAborted [recOf d stDone 0 0 0 0]) d
      refine ⟨_, exec_abort hwf hd hop hready (runAbort_pending htarget) hwork.pending, ?_, ⟨(stepsEpoch x).getD 0, stepsMove x, l ++ dups, ?_, fun hnone => ?_⟩, fun hop => ?_, hwork⟩
      · rw [abortDone_descs, endDesc_descs]
        rfl
      · rw [hdone, hended, List.append_assoc]
        rfl
      · rw [stepsMove_none (stepsEpoch_none hnone), stepsEpoch_none hnone]
        exact ⟨rfl, rfl⟩
      · rw [abortDone_hostMem, endDesc_hostMem hop]
        rfl

end Sys2Proof.Machine
end

section
/-! SUPPORT. Writes to the apertures (11 R347, R351 to R354, R357): the events of the writes that are not taken, what the acceptance of a write leaves, and the statements about both. -/

namespace Sys2Proof.Machine

open Sys2Proof

/-! ### Events of a tenant (11 R347, R375) -/

/-- A tenant's state once it has been told of a write that was not taken. -/
def toldTenant (x : Tenant) (overrun : Bool) : Tenant :=
  if overrun then { x with overrun := true, cntOverrun := satAdd 32 x.cntOverrun 1 }
  else { x with aperture := true, cntAperture := satAdd 32 x.cntAperture 1 }

/-- An event of a tenant is set and counted, and its message reaches the host or stays pending. -/
theorem tnEvent_frame (s : State) (t : Nat) (overrun : Bool) : tnEvent s t overrun = { s with
    qe := { s.qe with cnt := bump s.qe.cnt (if overrun then 1 else 2) 1, msix := (tnEvent s t overrun).qe.msix }
    tenants := tset s.tenants t (toldTenant (getT s t) overrun)
    out := (tnEvent s t overrun).out } := by
  simp only [tnEvent]
  split
  · rw [msix_frame]
    rfl
  · rfl

theorem getT_tnEvent (s : State) (t : Nat) (overrun : Bool) : getT (tnEvent s t overrun) t = toldTenant (getT s t) overrun := by
  rw [tnEvent_frame]
  exact tget_tset_same ..

theorem getT_tnEvent_other (s : State) {t u : Nat} (overrun : Bool) (h : u ≠ t) : getT (tnEvent s t overrun) u = getT s u := by
  rw [tnEvent_frame]
  exact tget_tset_other _ _ _ h

theorem getQ_tnEvent (s : State) (t : Nat) (overrun : Bool) (q : QId) : getQ (tnEvent s t overrun) q = getQ s q := by
  rw [tnEvent_frame]
  cases q <;> rfl

/-! ### The way of a write (11 R347, R351) -/

/-- A queue to which a write came that found no credit. -/
def writeDropped (s : State) (q : QId) : State := setQ s q { getQ s q with dropped := satAdd 16 (getQ s q).dropped 1 }

section write
variable {s : State} {vf : Option Nat} {off : Nat} {data : List Byte}

/-- No queue takes the write: no aperture lies there, the write is no aligned 64 bytes, or the queue is not ENABLED. -/
theorem exec_apertureWrite_untaken (hfull : barFull s = true)
    (huntaken : (apertureOf s vf off).2 = none ∨ ∃ q, (apertureOf s vf off).2 = some q ∧ (data.length ≠ 64 ∨ off % 64 ≠ 0 ∨ (getQ s q).qstate ≠ 2)) :
    exec (.apertureWrite vf off data) s = onUnit s (wellFormed (.apertureWrite vf off data)) (tnEvent s (apertureOf s vf off).1 false) := by
  change execApertureWrite vf off data s = _
  rcases huntaken with hnone | ⟨q, hq, hbad⟩
  · simp [execApertureWrite, hfull, hnone]
  · simp only [execApertureWrite, hfull, hq]
    rw [if_neg (by decide), if_pos hbad]

section taken
variable {q : QId} (hfull : barFull s = true) (hq : (apertureOf s vf off).2 = some q) (hlen : data.length = 64) (halign : off % 64 = 0) (henabled : (getQ s q).qstate = 2)
include hfull hq hlen halign henabled

/-- A write that finds no credit counts in DROPPED and makes an event. -/
theorem exec_apertureWrite_overrun (hcredit : (getQ s q).avail = 0) : exec (.apertureWrite vf off data) s = onUnit s (wellFormed (.apertureWrite vf off data))
    (tnEvent (writeDropped s q) (apertureOf s vf off).1 true) := by
  change execApertureWrite vf off data s = _
  simp [execApertureWrite, writeDropped, hfull, hq, hlen, halign, henabled, hcredit]

theorem exec_apertureWrite_accepted (hcredit : (getQ s q).avail ≠ 0) :
    exec (.apertureWrite vf off data) s = onUnit s (wellFormed (.apertureWrite vf off data)) (acceptWrite s q data) := by
  change execApertureWrite vf off data s = _
  simp [execApertureWrite, hfull, hq, hlen, halign, henabled, hcredit]

end taken
end write

/-- Settles O3, by the two ways of a write that end in an event of the tenant. -/
theorem apertureWriteNotTaken : Obligations.ApertureWriteNotTaken := by
  unfold Obligations.ApertureWriteNotTaken
  refine ⟨fun s vf off data hwf hfull huntaken => ?untaken, fun s vf off data q hwf hfull hq hlen halign henabled hcredit => ?overrun⟩
  case untaken =>
    have htold := getT_tnEvent s (apertureOf s vf off).1 false
    refine ⟨_, (exec_apertureWrite_untaken hfull huntaken).trans (onUnit_keep hwf (tnEvent_pending ..)), ?_, ?_, ?_, fun u hu => getT_tnEvent_other s false hu⟩
    · rw [htold]
      rfl
    · rw [htold]
      rfl
    · rw [tnEvent_frame]
      rfl
  case overrun =>
    have htold := getT_tnEvent (writeDropped s q) (apertureOf s vf off).1 true
    have hframe := tnEvent_frame (writeDropped s q) (apertureOf s vf off).1 true
    have htenant : getT (writeDropped s q) (apertureOf s vf off).1 = getT s (apertureOf s vf off).1 := getT_congr (setQ_tenants ..) _
    have hqueue : OnlyQe s (writeDropped s q) := .setQ ..
    refine ⟨_, (exec_apertureWrite_overrun hfull hq hlen halign henabled hcredit).trans (onUnit_keep hwf ((tnEvent_pending ..).trans hqueue.pending)),
      ?_, ?_, ?_, ?_, ?_, ?_, ?_, ?_⟩
    · rw [htold]
      rfl
    · rw [htold, htenant]
      rfl
    · rw [getQ_tnEvent, writeDropped, getQ_setQ]
    · rw [hframe]
      exact setQ_recs ..
    · rw [hframe]
      exact setQ_descs ..
    · rw [hframe]
      exact setQ_dups ..
    · rw [hframe]
      cases q <;> rfl
    · rw [hframe, hqueue]

/-! ### The acceptance of a write (11 R351 to R354) -/

/-- tt_check takes no credit and gives none back. -/
theorem ttCheck_avail (v : Queue) (n : Nat) : (ttCheck v n).2.avail = v.avail := by
  simp only [ttCheck]
  repeat' split
  all_goals rfl

/-- The queue from which an accepted write has taken a credit. -/
def creditTaken (v : Queue) : Queue := { v with avail := v.avail - 1, accepted := satAdd 48 v.accepted 1 }

/-- The state once a write has been accepted and classified, before its record or descriptor. -/
def classified (s : State) (q : QId) (data : List Byte) : State :=
  cntQe (setQ { s with qe := { s.qe with accepted := s.qe.accepted + 1 } } q (ttCheck (creditTaken (getQ s q)) (fieldAt data 4 4)).2) 0

/-- The descriptor of an accepted write. -/
def acceptedDesc (s : State) (q : QId) (data : List Byte) : Desc :=
  { n := s.qe.accepted, q := q, tenant := tenantOf q, seq := fieldAt data 4 4, bytes := data, phase := .meter, move := moveOf (classified s q data) }

section accept
variable (s : State) (q : QId) (data : List Byte)

theorem classified_onlyQe : OnlyQe s (classified s q data) := by
  cases q <;> rfl

theorem classified_avail : (getQ (classified s q data) q).avail = (getQ s q).avail - 1 := by
  rw [classified, getQ_cntQe, getQ_setQ, ttCheck_avail]
  rfl

theorem classified_accepted : (classified s q data).qe.accepted = s.qe.accepted + 1 := by cases q <;> rfl

theorem classified_recs : (classified s q data).qe.recs = s.qe.recs := setQ_recs ..
theorem classified_descs : (classified s q data).qe.descs = s.qe.descs := setQ_descs ..
theorem classified_dups : (classified s q data).qe.dups = s.qe.dups := setQ_dups ..

end accept

/-- A duplicate that waits on its original (11 R353). -/
def waitingDup (s : State) (q : QId) (data : List Byte) : Dup :=
  ⟨s.qe.accepted, q, fieldAt data 4 4, fieldAt data 0 1, fieldAt data 8 8, bit (fieldAt data 1 1) 0⟩

/-- What an accepted write leaves by the class of its number (11 R352, R353). -/
def leftBy (s : State) (q : QId) (data : List Byte) : TtResult → State
  | .range => loneRec (classified s q data) q s.qe.accepted stMalformed stMalformed data
  | .stale => cntQe (loneRec (classified s q data) q s.qe.accepted stStale stStale data) 4
  | .dup e =>
    if e.st = .complete then loneRec (cntQe (classified s q data) 3) q s.qe.accepted 0x02 e.status data
    else { cntQe (classified s q data) 3 with qe := { (cntQe (classified s q data) 3).qe with dups := (classified s q data).qe.dups ++ [waitingDup s q data] } }
  | .new => acceptNew (classified s q data) (acceptedDesc s q data)

/-- The class is that of the queue as it stood: the credit and the count do not bear on it. -/
theorem acceptWrite_eq (s : State) (q : QId) (data : List Byte) : acceptWrite s q data = leftBy s q data (ttCheck (getQ s q) (fieldAt data 4 4)).1 := by
  rw [← ttCheck_class (getQ s q) (creditTaken (getQ s q)) (fieldAt data 4 4) rfl rfl]
  rfl

/-! ### What a new descriptor leaves alone (11 R351 steps 5 to 10) -/

/-- The board image and host memory are as they were. -/
structure BoardKept (s t : State) : Prop where
  bd : t.bd = s.bd
  hostMem : t.hostMem = s.hostMem

namespace BoardKept

theorem trans {a b c : State} (hab : BoardKept a b) (hbc : BoardKept b c) : BoardKept a c := ⟨hbc.bd.trans hab.bd, hbc.hostMem.trans hab.hostMem⟩

/-- A descriptor without a BANK_OP's chunks takes nothing from the streams when it completes. -/
theorem completeWith (s : State) {d : Desc} (h : d.work = .none) (st rf de ep nb : Nat) (mid : List Rec) : BoardKept s (completeWith s d st rf de ep nb mid) where
  bd := by rw [completeWith_bd, dropChunks, h]
  hostMem := completeWith_hostMem ..

theorem passMeter (s : State) (d : Desc) : BoardKept s (passMeter s d) := by
  simp only [Machine.passMeter]
  split
  · exact ⟨commit_bd .., commit_hostMem ..⟩
  · exact ⟨rfl, rfl⟩

theorem markDesc (s : State) {d : Desc} (h : d.work = .none) : BoardKept s (markDesc s d) := by
  have hmeter : ∀ m, BoardKept s (setM s d.tenant false m) := fun _ => ⟨rfl, rfl⟩
  simp only [Machine.markDesc]
  split
  · exact (hmeter _).trans (passMeter ..)
  · exact (hmeter _).trans (passMeter ..)
  · split
    · exact ⟨rfl, rfl⟩
    · exact ((hmeter _).trans ⟨cntQe_bd .., cntQe_hostMem ..⟩).trans (completeWith _ h ..)

theorem meterStep (s : State) {d : Desc} (h : d.work = .none) : BoardKept s (meterStep s d) := by
  simp only [Machine.meterStep]
  split
  · exact passMeter ..
  · split
    · exact ⟨rfl, rfl⟩
    · exact markDesc s h

theorem placeOne (s : State) (t : Nat) : BoardKept s (placeOne s t) := by
  simp only [Machine.placeOne]
  split
  · exact ⟨rfl, rfl⟩
  · split
    · split <;> exact ⟨rfl, rfl⟩
    · exact ⟨rfl, rfl⟩

/-- A descriptor of a tenant's own queue leaves the order of recompositions alone when it ends. -/
theorem endDesc_bd (s : State) {d : Desc} (hadmin : isAdmin d.q = false) (h : d.work = .none) (st : Nat) (mid : List Rec) : (endDesc s d st mid).bd = s.bd := by
  have hleft : (resultLeft s d).bd = s.bd := by
    have hrecomp : withoutRecomp s d = s := if_neg (by simp [hadmin])
    rw [resultLeft, hrecomp]
    split
    · exact hostWrite_bd ..
    · rfl
  rw [endDesc_eq, (completeWith _ h ..).bd, hleft]

end BoardKept

/-- A new descriptor leaves the board image alone, and host memory too unless a CONSOLIDATE ends at once. -/
theorem acceptNew_board (s : State) {d : Desc} (h : d.work = .none) :
    (acceptNew s d).bd = s.bd ∧ (descOp d ≠ 0x0A → (acceptNew s d).hostMem = s.hostMem) := by
  have hadded : BoardKept s (setDescs s (s.qe.descs ++ [d])) := ⟨rfl, rfl⟩
  have hends : isAdmin d.q = false → ∀ st, (endDesc (setDescs s (s.qe.descs ++ [d])) d st []).bd = s.bd
      ∧ (descOp d ≠ 0x0A → (endDesc (setDescs s (s.qe.descs ++ [d])) d st []).hostMem = s.hostMem) := fun hadmin st =>
    ⟨BoardKept.endDesc_bd _ hadmin h st [], fun hop => endDesc_hostMem hop st []⟩
  have hkept : ∀ {t : State}, BoardKept (setDescs s (s.qe.descs ++ [d])) t → t.bd = s.bd ∧ (descOp d ≠ 0x0A → t.hostMem = s.hostMem) :=
    fun ht => ⟨(hadded.trans ht).bd, fun _ => (hadded.trans ht).hostMem⟩
  have hown : ∀ b, (!isAdmin d.q && b) = true → isAdmin d.q = false := fun b hb => by simpa using (Bool.and_eq_true_iff.mp hb).1
  simp only [acceptNew]
  split
  next htorn => exact hends (hown _ htorn) _
  next =>
    split
    next hretiring => exact hends (hown _ hretiring) _
    next =>
      split
      · exact hkept (.completeWith _ h ..)
      · split
        · exact hkept (.completeWith _ h ..)
        · refine hkept (.trans ?_ ((BoardKept.meterStep _ h).trans (.placeOne ..)))
          split
          · exact ⟨commit_bd .., commit_hostMem ..⟩
          · exact ⟨rfl, rfl⟩

/-! ### What every accepted write leaves -/

/-- One write more has been accepted, one credit taken, and only the queue engine, contexts, ranks, meters, dropped replies and the result of a CONSOLIDATE that ended at once have changed. -/
structure WriteTaken (s : State) (q : QId) (op : Nat) (t : State) : Prop where
  accepted : t.qe.accepted = s.qe.accepted + 1
  avail : (getQ t q).avail = (getQ s q).avail - 1
  hostMem : op ≠ 0x0A → t.hostMem = s.hostMem
  frame : t = { s with qe := t.qe, squares := t.squares, ranks := t.ranks, meters := t.meters, hostMem := t.hostMem, fab := { s.fab with sent := t.fab.sent } }

section taken
variable {s : State} {q : QId} {data : List Byte} {op : Nat}

/-- A record or a waiting duplicate more changes nothing else. -/
theorem WriteTaken.of_qe {t : State} (hframe : OnlyQe (classified s q data) t) (haccepted : t.qe.accepted = (classified s q data).qe.accepted)
    (hq : getQ t q = getQ (classified s q data) q) : WriteTaken s q op t := by
  have hall := (classified_onlyQe s q data).trans hframe
  refine ⟨haccepted.trans (classified_accepted s q data), by rw [hq, classified_avail], fun _ => ?_, ?_⟩
  · rw [hall]
  · rw [hall]

theorem WriteTaken.of_new : WriteTaken s q (fieldAt data 0 1) (acceptNew (classified s q data) (acceptedDesc s q data)) := by
  obtain ⟨hbd, hhost⟩ := acceptNew_board (classified s q data) (d := acceptedDesc s q data) rfl
  have hwork := acceptNew_QueueWork (classified s q data) (acceptedDesc s q data)
  have hclass := classified_onlyQe s q data
  refine ⟨?_, ?_, fun hop => ?_, ?_⟩
  · rw [acceptNew_accepted, classified_accepted]
  · rw [acceptNew_avail, classified_avail]
  · rw [hhost hop, hclass]
  · unfold QueueWork at hwork
    rw [hbd] at hwork
    rw [hwork, hclass]

theorem acceptWrite_taken : WriteTaken s q (fieldAt data 0 1) (acceptWrite s q data) := by
  rw [acceptWrite_eq]
  cases (ttCheck (getQ s q) (fieldAt data 4 4)).1 with
  | new => exact .of_new
  | range => exact .of_qe rfl rfl (getQ_addRec ..)
  | stale => exact .of_qe rfl rfl ((getQ_cntQe ..).trans (getQ_addRec ..))
  | dup e =>
    simp only [leftBy]
    split
    · exact .of_qe rfl rfl ((getQ_addRec ..).trans (getQ_cntQe ..))
    · exact .of_qe rfl rfl (by cases q <;> rfl)

end taken

/-- Settles O2, by the class of the write's number. -/
theorem apertureWriteAccepted : Obligations.ApertureWriteAccepted := by
  unfold Obligations.ApertureWriteAccepted
  intro s vf off data q hwf hfull hq hlen halign henabled hcredit
  obtain ⟨haccepted, havail, hhost, hframe⟩ := acceptWrite_taken (s := s) (q := q) (data := data)
  refine ⟨_, (exec_apertureWrite_accepted hfull hq hlen halign henabled hcredit).trans (onUnit_keep hwf (by rw [hframe])), haccepted, havail, ?_, hhost, hframe⟩
  have hrecs := classified_recs s q data
  have hdescs := classified_descs s q data
  have hdups := classified_dups s q data
  rw [acceptWrite_eq]
  cases (ttCheck (getQ s q) (fieldAt data 4 4)).1 with
  | stale => exact ⟨congrArg (· ++ _) hrecs, hdescs⟩
  | range => exact ⟨congrArg (· ++ _) hrecs, hdescs⟩
  | dup e =>
    simp only [leftBy]
    split
    · exact ⟨hdescs, hdups, congrArg (· ++ _) hrecs⟩
    · exact ⟨hdescs, hrecs, congrArg (· ++ _) hdups⟩
  | new => exact acceptNew_has (classified s q data) (acceptedDesc s q data)

end Sys2Proof.Machine
end

section
/-! SUPPORT. The registers of the queues and meters (11 R348, R349, R356, R357, R367, R377): what entering ENABLED, stopping a queue, a write of HEAD and METER_ENABLE leave, and the statements about them. -/

namespace Sys2Proof.Machine

open Sys2Proof

/-! ### One queue among the others -/

/-- The queues of the node stand at different places of the table. -/
theorem getQ_setQ_other (s : State) {q k : QId} (v : Queue) (hq : queueOk q = true) (hk : queueOk k = true) (h : k ≠ q) : getQ (setQ s q v) k = getQ s k := by
  cases q with
  | admin =>
    cases k with
    | admin => exact absurd rfl h
    | tenant u j => rfl
  | tenant t n =>
    cases k with
    | admin => rfl
    | tenant u j =>
      simp only [queueOk, Bool.and_eq_true, decide_eq_true_eq] at hq hk
      refine tget_tset_other _ _ _ fun hkey => h ?_
      obtain ⟨rfl, rfl⟩ : u = t ∧ j = n := by omega
      rfl

/-- Whether the credits of a queue are stopped rests on the node's power state and the tenants' (11 R357). -/
theorem qStopped_congr {s t : State} (hpw : t.pw = s.pw) (htenants : t.tenants = s.tenants) (q : QId) : qStopped t q = qStopped s q := by
  cases q with
  | admin => rw [qStopped, qStopped, hpw]
  | tenant u k => simp only [qStopped, creditsStopped, getT_congr htenants]

/-! ### A queue that enters ENABLED (11 R349, R357) -/

section enter
variable (s : State) (q : QId)

theorem getQ_enterEnabled : getQ (enterEnabled s q) q =
    { getQ s q with qstate := 2, tail := 0, phase := true, high := none, tt := [], avail := if qStopped s q then 0 else creditLimit (getQ s q) } := by
  simp only [enterEnabled, getQ_addRec, getQ_setQ]
  rfl

theorem enterEnabled_recs : (enterEnabled s q).qe.recs
    = s.qe.recs ++ [{ q := q, creditOnly := true, creditReset := true, grant := if qStopped s q then 0 else creditLimit (getQ s q) }] := by
  simp only [enterEnabled, addRec_recs, setQ_recs]
  rfl

theorem enterEnabled_descs : (enterEnabled s q).qe.descs = s.qe.descs := setQ_descs ..

theorem enterEnabled_dups : (enterEnabled s q).qe.dups = s.qe.dups := setQ_dups ..

theorem OnlyQe.enterEnabled : OnlyQe s (enterEnabled s q) := (OnlyQe.setQ s q _).trans rfl

theorem getQ_enterEnabled_other {k : QId} (hq : queueOk q = true) (hk : queueOk k = true) (h : k ≠ q) : getQ (enterEnabled s q) k = getQ s k := by
  rw [enterEnabled, getQ_addRec, getQ_setQ_other _ _ hq hk h]

end enter

/-! ### A write of CFG (11 R348, R377) -/

/-- The state of a queue whose CFG has been written, before EN takes effect. -/
def configured (s : State) (q : QId) (cfg : Nat) : State := setQ s q (cfgQueue (getQ s q) q cfg)

/-- The queue with EN as it was written. -/
def withEn (s : State) (q : QId) (en : Bool) : State := setQ s q { getQ s q with en := en }

section cfg
variable (v : Queue) (q : QId) (cfg : Nat)

theorem cfgQueue_qstate : (cfgQueue v q cfg).qstate = v.qstate := by cases q <;> rfl
theorem cfgQueue_cqBase : (cfgQueue v q cfg).cqBase = v.cqBase := by cases q <;> rfl

/-- The ring and credit fields take a write only while the queue is DISABLED. -/
theorem cfgQueue_locked (h : v.qstate ≠ 0) : (cfgQueue v q cfg).log2 = v.log2 ∧ (cfgQueue v q cfg).creditsMax = v.creditsMax := by
  cases q with
  | admin => exact ⟨if_neg h, rfl⟩
  | tenant t k => exact ⟨if_neg h, if_neg h⟩

end cfg

section enable
variable {s : State} {q : QId}

/-- A DISABLED queue whose Position is active enters ENABLED when EN is written 1. -/
theorem enableQueue_enters (hoff : (getQ s q).qstate = 0) (hready : q = .admin ∨ (hasPos s (tenantOf q) = true ∧ (getT s (tenantOf q)).resetting = none)) :
    enableQueue s q = enterEnabled (withEn s q true) q := by
  have hmay : (isAdmin q || (hasPos s (tenantOf q) && !(getT s (tenantOf q)).resetting.isSome)) = true := by
    rcases hready with rfl | ⟨hpos, hreset⟩
    · rfl
    · simp [hpos, hreset]
  rw [enableQueue, if_neg (by simpa using hoff), if_pos hmay]
  rfl

theorem exec_queueEnable {fn : Nat} {cfg : BitVec 32} (hfull : barFull s = true) :
    exec (.queueEnable fn q cfg) s = onUnit s (wellFormed (.queueEnable fn q cfg)) (enableQueue (configured s q cfg.toNat) q) := by
  change execQueueEnable fn q cfg s = _
  rw [execQueueEnable, queueWrite, if_pos hfull, writeQueueCfg, if_pos rfl]
  rfl

end enable

theorem queueOk_of_queueEnable {fn : Nat} {q : QId} {cfg : BitVec 32} (hwf : wellFormed (.queueEnable fn q cfg) = true) : queueOk q = true := by
  simp only [wellFormed, Bool.and_eq_true] at hwf
  exact hwf.1.2

/-- Settles O4, by what entering ENABLED makes of the queue that was configured. -/
theorem queueEntersEnabledAnew : Obligations.QueueEntersEnabledAnew := by
  unfold Obligations.QueueEntersEnabledAnew
  intro s fn q cfg hwf hfull hoff hready
  have hok := queueOk_of_queueEnable hwf
  have hentered : getQ (withEn (configured s q cfg.toNat) q true) q = { cfgQueue (getQ s q) q cfg.toNat with en := true } := by
    rw [withEn, getQ_setQ, configured, getQ_setQ]
  have hwritten : OnlyQe s (withEn (configured s q cfg.toNat) q true) := (OnlyQe.setQ ..).trans (OnlyQe.setQ ..)
  have hstopped : qStopped (withEn (configured s q cfg.toNat) q true) q = qStopped s q := qStopped_congr (by rw [hwritten]) (by rw [hwritten]) q
  have henters : enableQueue (configured s q cfg.toNat) q = enterEnabled (withEn (configured s q cfg.toNat) q true) q := by
    refine enableQueue_enters ?_ ?_
    · rw [configured, getQ_setQ, cfgQueue_qstate, hoff]
    · have hcfg : OnlyQe s (configured s q cfg.toNat) := .setQ ..
      rw [hcfg]
      exact hready
  have hframe : OnlyQe s (enterEnabled (withEn (configured s q cfg.toNat) q true) q) := hwritten.trans (.enterEnabled ..)
  have hq := getQ_enterEnabled (withEn (configured s q cfg.toNat) q true) q
  have hexec := exec_queueEnable (q := q) (fn := fn) (cfg := cfg) hfull
  rw [hentered, hstopped] at hq
  rw [henters] at hexec
  refine ⟨_, hexec.trans (onUnit_keep hwf hframe.pending), ?_⟩
  rw [hq]
  refine ⟨rfl, rfl, rfl, rfl, rfl, rfl, rfl, ?_, ?_, fun k hk hne => ?_, hframe⟩
  · rw [enterEnabled_recs, hentered, hstopped, withEn, setQ_recs, configured, setQ_recs]
  · rw [enterEnabled_descs, withEn, setQ_descs, configured, setQ_descs]
  · rw [getQ_enterEnabled_other _ _ hok hk hne, withEn, getQ_setQ_other _ _ hok hk hne, configured, getQ_setQ_other _ _ hok hk hne]

/-! ### EN written 0 (11 R348) -/

/-- QSTATE of a queue whose EN is written 0. -/
def stoppedState (s : State) (q : QId) : Nat :=
  if (getQ s q).qstate = 2 then (if drained s q then 0 else 3) else if (getQ s q).qstate = 1 then 0 else (getQ s q).qstate

section stop
variable (s : State) (q : QId)

theorem getQ_stopQueue : getQ (stopQueue s q) q = { getQ s q with en := false, qstate := stoppedState s q } := by
  simp only [stopQueue, stoppedState]
  split
  · split
    · rw [getQ_disableQueue, getQ_setQ]
    · rw [getQ_setQ]
  · split
    · rw [getQ_setQ]
    · rw [getQ_setQ]

theorem OnlyQe.disableQueue : OnlyQe s (disableQueue s q) := (OnlyQe.setQ s q _).trans rfl

theorem OnlyQe.stopQueue : OnlyQe s (stopQueue s q) := by
  have hen : OnlyQe s (withEn s q false) := .setQ ..
  simp only [Machine.stopQueue]
  split
  · split
    · exact hen.trans (.disableQueue ..)
    · exact hen.trans (.setQ ..)
  · split
    · exact hen.trans (.setQ ..)
    · exact hen

theorem stopQueue_descs : (stopQueue s q).qe.descs = s.qe.descs := by
  simp only [stopQueue]
  repeat' split
  all_goals simp

variable {s q}

/-- A write of CFG leaves nothing more to complete. -/
theorem drained_configured (cfg : Nat) : drained (configured s q cfg) q = drained s q := by
  rw [drained, configured, setQ_descs, setQ_dups, setQ_recs, drained]

theorem stoppedState_configured (cfg : Nat) : stoppedState (configured s q cfg) q = stoppedState s q := by
  rw [stoppedState, drained_configured, configured, getQ_setQ, cfgQueue_qstate, stoppedState]

theorem exec_queueDisable {fn : Nat} {cfg : BitVec 32} (hfull : barFull s = true) :
    exec (.queueDisable fn q cfg) s = onUnit s (wellFormed (.queueDisable fn q cfg)) (stopQueue (configured s q cfg.toNat) q) := by
  change execQueueDisable fn q cfg s = _
  rw [execQueueDisable, queueWrite, if_pos hfull, writeQueueCfg, if_neg (by decide)]
  rfl

end stop

/-! ### HEAD and the meters (11 R356, R367) -/

theorem exec_completionHeadWrite {s : State} {q : QId} {fn : Nat} {head : BitVec 16} (hfull : barFull s = true) :
    exec (.completionHeadWrite fn q head) s = onUnit s (wellFormed (.completionHeadWrite fn q head))
      (setQ s q { getQ s q with head := if head.toNat < ringSize (getQ s q) then head.toNat else (getQ s q).tail }) := by
  change execCompletionHeadWrite fn q head s = _
  rw [execCompletionHeadWrite, queueWrite, if_pos hfull]

/-- A meter whose CFG is written with EN = 1. -/
def meterEnabled (m : Meter) (cfg : Nat) : Meter := { m with en := true, mode := bit cfg 1, action := bit cfg 2, overhead := bits cfg 16 16 }

/-- The buckets are filled where EN was 0. -/
theorem writeMeterCfg_enables (s : State) (t : Nat) (eg : Bool) (cfg : Nat) : writeMeterCfg s t eg (cfg ||| 1)
    = setM s t eg (if (getM s t eg).en then meterEnabled (getM s t eg) (cfg ||| 1) else fillMeter (meterEnabled (getM s t eg) (cfg ||| 1))) := by
  have hen : bit (cfg ||| 1) 0 = true := by simp [bit]
  simp only [writeMeterCfg, hen, meterEnabled]
  cases (getM s t eg).en <;> rfl

theorem getM_setM_other (s : State) {t t' : Nat} {e e' : Bool} (v : Meter) (h : t' * 2 + b2n e' ≠ t * 2 + b2n e) : getM (setM s t e v) t' e' = getM s t' e' :=
  tget_tset_other _ _ _ h

theorem exec_meterEnable {s : State} {t : Nat} {egress : Bool} {cfg : BitVec 32} (hfull : barFull s = true) :
    exec (.meterEnable 0 t egress cfg) s = onUnit s (wellFormed (.meterEnable 0 t egress cfg)) (writeMeterCfg s t egress (cfg.toNat ||| 1)) := by
  change execMeterEnable 0 t egress cfg s = _
  rw [execMeterEnable, pfWrite_full _ _ hfull]

/-- Settles O5, one register after the other. -/
theorem queueAndMeterRegisterWrites : Obligations.QueueAndMeterRegisterWrites := by
  unfold Obligations.QueueAndMeterRegisterWrites
  refine ⟨fun s fn q cfg hwf hfull => ?disable, fun s fn q head hwf hfull => ?head, fun s t egress cfg hwf hfull => ?meter⟩
  case disable =>
    have hframe : OnlyQe s (stopQueue (configured s q cfg.toNat) q) := (OnlyQe.setQ ..).trans (.stopQueue ..)
    have hq : getQ (stopQueue (configured s q cfg.toNat) q) q = { cfgQueue (getQ s q) q cfg.toNat with en := false, qstate := stoppedState s q } := by
      rw [getQ_stopQueue, stoppedState_configured, configured, getQ_setQ]
    refine ⟨_, (exec_queueDisable hfull).trans (onUnit_keep hwf hframe.pending), ?_⟩
    rw [hq]
    exact ⟨rfl, rfl, cfgQueue_locked _ q _, cfgQueue_cqBase .., (stopQueue_descs ..).trans (setQ_descs ..), hframe⟩
  case head => exact (exec_completionHeadWrite hfull).trans (onUnit_keep hwf (setQ_pending ..))
  case meter =>
    refine ⟨_, (exec_meterEnable hfull).trans (onUnit_keep hwf (by rw [writeMeterCfg_enables, setM_pending])), ?_⟩
    rw [writeMeterCfg_enables, getM_setM]
    refine ⟨?_, fun hoff => ?_, fun hon => ?_, fun t' e' hne => getM_setM_other _ _ hne, rfl⟩
    · split <;> rfl
    · simp only [hoff, Bool.false_eq_true, if_false]
      exact ⟨rfl, rfl⟩
    · simp only [hon, if_true]
      exact ⟨rfl, rfl⟩

end Sys2Proof.Machine
end

section
/-! SUPPORT. COMPLETION_RECORD_WRITE (03 R96; 11 R348, R355 to R358, R373): the parts of one record's write, what each of them changes, and the statement about it. -/

namespace Sys2Proof.Machine

open Sys2Proof

/-! ### The parts of a record's write -/

/-- CREDITS of a record that is written now (11 R357). -/
def shownCredits (s : State) (q : QId) (r : Rec) : Nat :=
  if qStopped s q || decide ((getQ s q).qstate < 2) then 0 else if r.creditOnly then r.grant else 1

/-- The entry of the ring that is written next. -/
def nextTail (v : Queue) : Nat := (v.tail + 1) % ringSize v

/-- A queue whose ring has taken one record more. -/
def ringMoved (v : Queue) (r : Rec) (credits : Nat) : Queue :=
  { v with tail := nextTail v, phase := if nextTail v = 0 then !v.phase else v.phase, avail := if r.creditOnly then v.avail else min (creditLimit v) (v.avail + credits) }

/-- The host address of the entry at TAIL. -/
def tailAddr (v : Queue) : Nat := v.cqBase * 4096 + 32 * v.tail

/-- The entry is written, the ring has moved, and the record waits no more. -/
def entryWritten (s : State) (q : QId) (i : Nat) (r : Rec) : State :=
  let x := setQ (hostWrite s (tenantOf q) (tailAddr (getQ s q)) (recBytes (getQ s q) r (shownCredits s q r))) q (ringMoved (getQ s q) r (shownCredits s q r))
  { x with qe := { x.qe with recs := x.qe.recs.eraseIdx i } }

/-- The interrupt of a record, where its queue asks for one (11 R358). -/
def recSignalled (v : Queue) (q : QId) (r : Rec) (x : State) : State :=
  if v.irqMode = 2 ∨ (v.irqMode = 1 ∧ r.irq ∧ ¬ r.creditOnly) then msix x (tenantOf q) v.vector else x

theorem writeRec_eq (s : State) (q : QId) (i : Nat) (r : Rec) :
    writeRec s q i r = settleQueue (castleWritten (recSignalled (getQ s q) q r (entryWritten s q i r)) r) q := rfl

/-! ### What each part changes -/

/-- Only the queue engine, host memory, what leaves the node and the state of a castling have changed. -/
def RecordWork (s t : State) : Prop :=
  t = { s with qe := t.qe, hostMem := t.hostMem, out := t.out, bd := { s.bd with castling := t.bd.castling, castDone := t.bd.castDone } }

theorem RecordWork.trans {a b c : State} (hab : RecordWork a b) (hbc : RecordWork b c) : RecordWork a c := by
  unfold RecordWork at *
  rw [hbc, hab]

theorem RecordWork.of_onlyQe {s t : State} (h : OnlyQe s t) : RecordWork s t := by
  unfold RecordWork
  rw [h]

theorem RecordWork.pending {s t : State} (h : RecordWork s t) : t.pending = s.pending := by rw [h]

/-- The records, descriptors, duplicates and queues are as they were, and host memory too. -/
structure RingKept (s t : State) : Prop where
  frame : RecordWork s t
  hostMem : t.hostMem = s.hostMem
  recs : t.qe.recs = s.qe.recs
  descs : t.qe.descs = s.qe.descs
  dups : t.qe.dups = s.qe.dups
  queue : ∀ q, getQ t q = getQ s q

namespace RingKept

theorem trans {a b c : State} (hab : RingKept a b) (hbc : RingKept b c) : RingKept a c where
  frame := hab.frame.trans hbc.frame
  hostMem := hbc.hostMem.trans hab.hostMem
  recs := hbc.recs.trans hab.recs
  descs := hbc.descs.trans hab.descs
  dups := hbc.dups.trans hab.dups
  queue q := (hbc.queue q).trans (hab.queue q)

theorem refl (s : State) : RingKept s s := ⟨rfl, rfl, rfl, rfl, rfl, fun _ => rfl⟩

theorem msix (s : State) (fn v : Nat) : RingKept s (msix s fn v) := by
  rw [msix_frame]
  exact ⟨rfl, rfl, rfl, rfl, rfl, fun q => by cases q <;> rfl⟩

theorem recSignalled (v : Queue) (q : QId) (r : Rec) (x : State) : RingKept x (recSignalled v q r x) := by
  unfold Machine.recSignalled
  split
  · exact msix ..
  · exact refl x

theorem castleWritten (s : State) (r : Rec) : RingKept s (castleWritten s r) := by
  unfold Machine.castleWritten
  split
  · split
    · exact ⟨rfl, rfl, rfl, rfl, rfl, fun q => by cases q <;> rfl⟩
    · exact refl s
  · exact refl s

end RingKept

section entry
variable (s : State) (q : QId) (i : Nat) (r : Rec)

theorem entryWritten_frame : RecordWork s (entryWritten s q i r) := by
  have hhost : RecordWork s (hostWrite s (tenantOf q) (tailAddr (getQ s q)) (recBytes (getQ s q) r (shownCredits s q r))) := by
    unfold RecordWork
    rw [hostWrite_frame]
  exact hhost.trans (.of_onlyQe ((OnlyQe.setQ ..).trans rfl))

theorem entryWritten_hostMem : (entryWritten s q i r).hostMem
    = (hostWrite s (tenantOf q) (tailAddr (getQ s q)) (recBytes (getQ s q) r (shownCredits s q r))).hostMem := setQ_hostMem ..

theorem entryWritten_recs : (entryWritten s q i r).qe.recs = s.qe.recs.eraseIdx i := by simp [entryWritten]
theorem entryWritten_descs : (entryWritten s q i r).qe.descs = s.qe.descs := by simp [entryWritten]
theorem entryWritten_dups : (entryWritten s q i r).qe.dups = s.qe.dups := by simp [entryWritten]

theorem getQ_entryWritten : getQ (entryWritten s q i r) q = ringMoved (getQ s q) r (shownCredits s q r) := by
  rw [entryWritten]
  cases q <;> simp [getQ, setQ]

end entry

/-- A queue that is not DRAINING stays as it is. -/
theorem settleQueue_keeps {s : State} {q : QId} (h : (getQ s q).qstate ≠ 3) : settleQueue s q = s := by
  rw [settleQueue, if_neg fun hdrained => h hdrained.1]

theorem disableQueue_dups (s : State) (q : QId) : (disableQueue s q).qe.dups = s.qe.dups := by simp [disableQueue]

/-- A queue that drains takes no descriptor and no duplicate with it. -/
theorem settleQueue_facts (s : State) (q : QId) :
    OnlyQe s (settleQueue s q) ∧ (settleQueue s q).qe.descs = s.qe.descs ∧ (settleQueue s q).qe.dups = s.qe.dups := by
  have hoff : OnlyQe s (disableQueue s q) := .disableQueue ..
  have hdescs : (disableQueue s q).qe.descs = s.qe.descs := disableQueue_descs ..
  have hdups : (disableQueue s q).qe.dups = s.qe.dups := disableQueue_dups ..
  simp only [settleQueue]
  split
  · split
    · exact ⟨hoff, hdescs, hdups⟩
    · split
      · exact ⟨hoff.trans (.enterEnabled ..), (enterEnabled_descs ..).trans hdescs, (enterEnabled_dups ..).trans hdups⟩
      · exact ⟨hoff.trans (.setQ ..), (setQ_descs ..).trans hdescs, (setQ_dups ..).trans hdups⟩
  · exact ⟨rfl, rfl, rfl⟩

/-! ### The write of one record -/

section written
variable (s : State) (q : QId) (i : Nat) (r : Rec)

/-- The state once a record has been written and signalled, before its queue settles. -/
def recWritten : State := castleWritten (recSignalled (getQ s q) q r (entryWritten s q i r)) r

theorem recWritten_kept : RingKept (entryWritten s q i r) (recWritten s q i r) := (RingKept.recSignalled ..).trans (.castleWritten ..)

theorem getQ_recWritten : getQ (recWritten s q i r) q = ringMoved (getQ s q) r (shownCredits s q r) :=
  ((recWritten_kept s q i r).queue q).trans (getQ_entryWritten ..)

theorem writeRec_frame : RecordWork s (writeRec s q i r) := by
  obtain ⟨hsettled, -⟩ := settleQueue_facts (recWritten s q i r) q
  rw [writeRec_eq]
  exact (entryWritten_frame s q i r).trans ((recWritten_kept s q i r).frame.trans (.of_onlyQe hsettled))

theorem writeRec_hostMem : (writeRec s q i r).hostMem
    = (hostWrite s (tenantOf q) (tailAddr (getQ s q)) (recBytes (getQ s q) r (shownCredits s q r))).hostMem := by
  obtain ⟨hsettled, -⟩ := settleQueue_facts (recWritten s q i r) q
  have hhost : (settleQueue (recWritten s q i r) q).hostMem = (recWritten s q i r).hostMem := by rw [hsettled]
  rw [writeRec_eq]
  exact hhost.trans ((recWritten_kept s q i r).hostMem.trans (entryWritten_hostMem ..))

theorem writeRec_waiting : (writeRec s q i r).qe.descs = s.qe.descs ∧ (writeRec s q i r).qe.dups = s.qe.dups := by
  obtain ⟨-, hdescs, hdups⟩ := settleQueue_facts (recWritten s q i r) q
  rw [writeRec_eq]
  exact ⟨hdescs.trans ((recWritten_kept s q i r).descs.trans (entryWritten_descs ..)), hdups.trans ((recWritten_kept s q i r).dups.trans (entryWritten_dups ..))⟩

variable {s q i r}

/-- A queue that is not DRAINING keeps what the write has made of it. -/
theorem writeRec_ring (h : (getQ s q).qstate ≠ 3) :
    (writeRec s q i r).qe.recs = s.qe.recs.eraseIdx i ∧ getQ (writeRec s q i r) q = ringMoved (getQ s q) r (shownCredits s q r) := by
  have hsettled : writeRec s q i r = recWritten s q i r := by
    rw [writeRec_eq]
    refine settleQueue_keeps ?_
    rw [← recWritten, getQ_recWritten]
    exact h
  rw [hsettled]
  exact ⟨(recWritten_kept s q i r).recs.trans (entryWritten_recs ..), getQ_recWritten ..⟩

end written

section exec
variable {s : State} {q : QId} {i : Nat} {r : Rec} (hnext : nextRec s q = some (i, r))
include hnext

theorem exec_recordWrite_lost (hlost : recLost s q = true) : exec (.completionRecordWrite q) s
    = onUnit s (wellFormed (.completionRecordWrite q)) { s with qe := { s.qe with recs := s.qe.recs.eraseIdx i } } := by
  change execCompletionRecordWrite q s = _
  simp only [execCompletionRecordWrite, hnext, hlost, if_true]

theorem exec_recordWrite_full (hlost : recLost s q = false) (hfull : nextTail (getQ s q) = (getQ s q).head) :
    exec (.completionRecordWrite q) s = onUnit s (wellFormed (.completionRecordWrite q)) s := by
  change execCompletionRecordWrite q s = _
  unfold nextTail at hfull
  simp only [execCompletionRecordWrite, hnext, hlost, Bool.false_eq_true, if_false, if_pos hfull]

theorem exec_recordWrite_room (hlost : recLost s q = false) (hroom : nextTail (getQ s q) ≠ (getQ s q).head) :
    exec (.completionRecordWrite q) s = onUnit s (wellFormed (.completionRecordWrite q)) (writeRec s q i r) := by
  change execCompletionRecordWrite q s = _
  unfold nextTail at hroom
  simp only [execCompletionRecordWrite, hnext, hlost, Bool.false_eq_true, if_false, if_neg hroom]

end exec

/-- Settles O6: a record that finds room by the parts of its write, and the two ways in which none is written. -/
theorem completionRecordWritten : Obligations.CompletionRecordWritten := by
  unfold Obligations.CompletionRecordWritten
  refine ⟨fun s q i r hwf hnext hlost hroom => ?written, fun s q i r hwf hnext hlost hfull => ?full, fun s t k i r hwf hnext hflr => ?lost⟩
  case written =>
    obtain ⟨hdescs, hdups⟩ := writeRec_waiting s q i r
    have hhost := writeRec_hostMem s q i r
    have hframe := writeRec_frame s q i r
    have hlen := recBytes_length (getQ s q) r (shownCredits s q r)
    refine ⟨_, (exec_recordWrite_room hnext hlost hroom).trans (onUnit_keep hwf hframe.pending), fun hopen => ?_, fun hclosed => ?_, fun b hb => ?_,
      hdescs, hdups, fun hstate => ?_, hframe⟩
    · rw [hostRead, hhost]
      have hread := hostRead_hostWrite s (tenantOf q) (tailAddr (getQ s q)) (recBytes (getQ s q) r (shownCredits s q r)) hopen
      rw [hlen] at hread
      exact hread
    · rw [hhost, hostWrite, if_neg (by simp [hclosed])]
    · rw [hhost]
      exact hostWrite_outside _ _ _ _ _ (by rwa [hlen])
    · obtain ⟨hrecs, hq⟩ := writeRec_ring (i := i) (r := r) hstate
      rw [hq]
      refine ⟨hrecs, rfl, rfl, fun henabled hcredits hrec => ?_, fun hstopped hrec => ?_, fun hcredit => ?_⟩
      · simp [ringMoved, shownCredits, henabled, hcredits, hrec]
      · simp [ringMoved, shownCredits, hstopped, hrec]
      · simp [ringMoved, hcredit]
  case full => exact (exec_recordWrite_full hnext hlost hfull).trans (onUnit_keep hwf rfl)
  case lost => exact (exec_recordWrite_lost hnext hflr).trans (onUnit_keep hwf rfl)

end Sys2Proof.Machine
end

section
/-! SUPPORT. The ends of host reads (11 R344; 13 R410) and the supplies of the flash connectors (15 R473, R474), and the statement about them. -/

namespace Sys2Proof.Machine

open Sys2Proof

/-! ### Host reads -/

section read
variable {s : State} {q : QId} {seq addr : Nat} {data : List Byte} {st : HostReadStatus} {d : Desc}

theorem exec_hostReadCompletion (hfind : findDesc s q seq = some d) (hopen : hostOpen s d.tenant = true) : exec (.hostReadCompletion q seq addr data st) s
    = onUnit s (wellFormed (.hostReadCompletion q seq addr data st)) (hostReadDone s d addr data st) := by
  change execHostReadCompletion q seq addr data st s = _
  simp only [execHostReadCompletion, hfind, hopen, if_true]

theorem hostReadDone_success : hostReadDone s d addr data .success = { s with hostMem := memWrite s.hostMem addr data } := if_pos rfl

/-- A host read that fails marks its descriptor, counts at the queue engine and is logged. -/
theorem hostReadDone_fails (h : st ≠ .success) : hostReadDone s d addr data st
    = raise (countUnit (putDesc s { d with hostFault := true }) qeUnit false addr) 0x0071 2 d.tenant qeUnit (addr % 2 ^ 32) (addr / 2 ^ 32) (Config.hostStatus (hostKind st)) :=
  if_neg h

/-- A descriptor that is stored again stands in the list as it was stored. -/
theorem mem_putDesc {e : Desc} (hd : d ∈ s.qe.descs) (hn : d.n = e.n) : e ∈ (putDesc s e).qe.descs :=
  List.mem_map.mpr ⟨d, hd, if_pos hn⟩

end read

/-! ### The flash connectors -/

/-- The dies of a channel on a carrier, or on none. -/
def carrierDies (carrier : Option (List CarrierCh)) (i : Nat) : Nat :=
  match carrier with
  | none => 0
  | some l => (l[i]?.map (fun c => c.dies)).getD 0

/-- A channel has the dies that its carrier shows, whatever it had before. -/
theorem senseChannel_dies (x : Channel) (carrier : Option (List CarrierCh)) (i : Nat) :
    (senseChannel x (carrier.bind (fun l => l[i]?))).dies = carrierDies carrier i := by
  have hnone : (senseChannel x none).dies = 0 := by
    simp only [senseChannel]
    split
    · assumption
    · rfl
  have hsome : ∀ c, (senseChannel x (some c)).dies = c.dies := by
    intro c
    simp only [senseChannel]
    split
    · split <;> rfl
    · split
      next h => exact h.1
      next => rfl
  cases carrier with
  | none => exact hnone
  | some l =>
    simp only [Option.bind_some, carrierDies]
    cases l[i]? with
    | none => exact hnone
    | some c => exact hsome c

/-- One channel of a connector takes what its carrier shows. -/
def senseOne (conn : Nat) (carrier : Option (List CarrierCh)) (s : State) (i : Nat) : State :=
  setCh s (8 * conn + i) (senseChannel (getCh s (8 * conn + i)) (carrier.bind (fun l => l[i]?)))

/-- The first `n` channels of a connector have the dies that its carrier shows, and nothing else has changed. -/
structure Sensed (conn : Nat) (carrier : Option (List CarrierCh)) (s : State) (n : Nat) (t : State) : Prop where
  dies : ∀ i, i < n → (getCh t (8 * conn + i)).dies = carrierDies carrier i
  others : ∀ c, c < 8 * conn ∨ 8 * conn + n ≤ c → getCh t c = getCh s c
  frame : t = { s with fl := { s.fl with chans := t.fl.chans } }

theorem Sensed.senseOne {conn : Nat} {carrier : Option (List CarrierCh)} {s t : State} {n : Nat} (h : Sensed conn carrier s n t) :
    Sensed conn carrier s (n + 1) (senseOne conn carrier t n) where
  dies i hi := by
    by_cases hn : i = n
    · subst hn
      rw [Machine.senseOne, getCh_setCh, senseChannel_dies]
    · rw [Machine.senseOne, getCh_setCh_other _ _ (by omega)]
      exact h.dies i (by omega)
  others c hc := by
    rw [Machine.senseOne, getCh_setCh_other _ _ (by omega)]
    exact h.others c (by omega)
  frame := by
    have hframe := h.frame
    rw [Machine.senseOne, setCh, hframe]

theorem sensed_range (conn : Nat) (carrier : Option (List CarrierCh)) (s : State) (n : Nat) :
    Sensed conn carrier s n ((List.range n).foldl (senseOne conn carrier) s) :=
  foldl_range_induction (P := fun k t => Sensed conn carrier s k t) ⟨fun _ hi => absurd hi (Nat.not_lt_zero _), fun _ _ => rfl, rfl⟩
    fun _ _ _ h => h.senseOne

theorem exec_vccqSenseChange (conn : Nat) (carrier : Option (List CarrierCh)) (s : State) : exec (.vccqSenseChange conn carrier) s
    = onUnit s (wellFormed (.vccqSenseChange conn carrier)) ((List.range 8).foldl (senseOne conn carrier) s) := rfl

/-- Settles O15, by the two ends of a host read and the channels of a connector one after the other. -/
theorem hostReadAndCarrierSense : Obligations.HostReadAndCarrierSense := by
  unfold Obligations.HostReadAndCarrierSense
  refine ⟨fun s q seq addr data d hwf hfind hopen => ?arrives, fun s q seq addr data st d hwf hst hfind hopen => ?fails, fun s conn carrier hwf => ?senses⟩
  case arrives =>
    have hexec := exec_hostReadCompletion (addr := addr) (data := data) (st := .success) hfind hopen
    rw [hostReadDone_success] at hexec
    exact ⟨_, hexec.trans (onUnit_keep hwf rfl), memRead_memWrite .., fun b hb => memGet_memWrite_out _ _ _ _ hb, rfl⟩
  case fails =>
    have hexec := exec_hostReadCompletion (addr := addr) (data := data) (st := st) hfind hopen
    rw [hostReadDone_fails hst] at hexec
    refine ⟨_, hexec.trans (onUnit_keep hwf (raise_pending ..)), ⟨{ d with hostFault := true }, ?_, rfl, rfl⟩, raise_nextSeq .., ?_⟩
    · rw [raise_qe]
      exact mem_putDesc (List.mem_of_find?_eq_some hfind) rfl
    · obtain ⟨er, al, mx, out, hframe⟩ := raise_frame (countUnit (putDesc s { d with hostFault := true }) qeUnit false addr) 0x0071 2 d.tenant qeUnit
        (addr % 2 ^ 32) (addr / 2 ^ 32) (Config.hostStatus (hostKind st))
      rw [hframe]
      rfl
  case senses =>
    obtain ⟨hdies, hothers, hframe⟩ := sensed_range conn carrier s 8
    exact ⟨_, (exec_vccqSenseChange conn carrier s).trans (onUnit_keep hwf (by rw [hframe])), hdies, hothers, hframe⟩

end Sys2Proof.Machine
end

section
/-! SUPPORT. The sideband's management messages and addresses (14 R453, R454, R459; 15 R478), and the statement about them. -/

namespace Sys2Proof.Machine

open Sys2Proof

/-! ### The answer of a message (R454) -/

section message
variable {s : State} {cmd status : Nat} {more : List Byte} {eff : State → State} (hrun : nmcRuns s = true)
include hrun

theorem sideband_eq : sideband s cmd status more eff = emit (if status = 0 then eff s else s) (.sideband (toLE 1 cmd ++ toLE 1 status ++ more)) := by
  simp only [sideband, hrun, Bool.not_true, Bool.false_eq_true, if_false]

/-- A message that is refused or malformed has no effect but its answer. -/
theorem message_refused {reason : Nat} (h : status = reason) (hne : reason ≠ 0) :
    onUnit s true (sideband s cmd status more eff) = .next (emit s (.sideband (toLE 1 cmd ++ toLE 1 reason ++ more))) := by
  subst h
  rw [sideband_eq hrun, if_neg hne]
  exact onUnit_keep rfl rfl

theorem message_done (h : status = 0) :
    onUnit s true (sideband s cmd status more eff) = .next (emit { eff s with pending := s.pending } (.sideband (toLE 1 cmd ++ toLE 1 0 ++ more))) := by
  rw [sideband_eq hrun, if_pos h, h]
  rfl

end message

/-! ### WRITE (R454) -/

/-- What the store holds once bytes have been written: they stand at their offset. -/
theorem putStore_holds (f : FwStore) (off : Nat) (bytes : List Byte) :
    ∃ m len, putStore f off bytes = .bytes m len ∧ off + bytes.length ≤ len ∧ memRead m off bytes.length = bytes := by
  cases f with
  | factory => exact ⟨_, _, rfl, le_refl _, memRead_memWrite ..⟩
  | bytes m len => exact ⟨_, _, rfl, le_max_right .., memRead_memWrite ..⟩

theorem setStore_frame (s : State) (f : FwStore) : setStore s f = { s with nmc := { s.nmc with store := f, fwStored := (setStore s f).nmc.fwStored } } := rfl

theorem writeStatus_eq (s : State) (off n : Nat) :
    writeStatus s off n = if s.nmc.recovery = true then (if n = 0 ∨ 1024 < n ∨ 2 ^ 25 < off + n then 2 else 0) else 1 := by
  cases h : s.nmc.recovery <;> simp [writeStatus, h]

/-! ### WAKE (R459) -/

theorem assertWake_eq (s : State) : assertWake s = { s with pw := { s.pw with wakeN := true }, out := if s.pw.wakeN then s.out else s.out ++ [.pin 1 true] } := by
  unfold assertWake
  split
  · next h => rw [← h]
  · rfl

theorem asleep_iff {s : State} : asleep s = true ↔ s.pw.pstate = 4 ∨ s.pw.pstate = 5 := by simp [asleep]

/-! ### The statement -/

/-- Settles O23: by the message, and whether it is refused. -/
theorem sidebandMessagesAnswered : Obligations.SidebandMessagesAnswered := by
  unfold Obligations.SidebandMessagesAnswered
  refine ⟨fun s off bytes hrun => ⟨fun hrec hne hlen hend => ?write, fun hrec => ?running, fun hrec hbad => ?malformed⟩, fun s hrun => ?verify, fun s off hrun => ?readReg,
    fun s hrun => ⟨fun hst => ⟨?reset, ?wake⟩, fun h4 h5 => ?awake⟩, fun s addr hrun haddr => ?address⟩
  case write =>
    obtain ⟨m, len, hstore, hlen', hread⟩ := putStore_holds s.nmc.store off bytes
    have hstatus : writeStatus s off bytes.length = 0 := by rw [writeStatus_eq, if_pos hrec, if_neg (by omega)]
    exact ⟨_, m, len, message_done hrun hstatus, hstore, hlen', hread, rfl, rfl⟩
  case running =>
    have hstatus : writeStatus s off bytes.length = 1 := by rw [writeStatus_eq, if_neg (by simp [hrec])]
    exact message_refused hrun hstatus (by decide)
  case malformed =>
    have hstatus : writeStatus s off bytes.length = 2 := by rw [writeStatus_eq, if_pos hrec, if_pos hbad]
    exact message_refused hrun hstatus (by decide)
  case verify =>
    change onUnit s true (sideband s 2 (if s.nmc.recovery then 0 else 1) (if s.nmc.recovery then toLE 1 (storeReason s) else []) (fun x => x)) = _
    cases s.nmc.recovery with
    | true => exact message_done hrun rfl
    | false => exact message_refused hrun rfl (by decide)
  case readReg =>
    by_cases hreg : sidebandReg off = true
    · rw [if_pos hreg]
      exact (congrArg (onUnit s true) (if_pos hreg)).trans (message_done hrun rfl)
    · rw [if_neg hreg]
      exact (congrArg (onUnit s true) (if_neg hreg)).trans (message_refused hrun rfl (by decide))
  case reset => exact message_refused hrun (if_pos (asleep_iff.mpr hst)) (by decide)
  case wake =>
    refine ⟨_, message_done hrun (if_pos (asleep_iff.mpr hst)), ?_⟩
    rw [assertWake_eq]
    rfl
  case awake => exact message_refused hrun (if_neg (fun h => (asleep_iff.mp h).elim h4 h5)) (by decide)
  case address =>
    have htake : takeAddress s addr = { s with pw := { s.pw with dynAddr := some addr } } := if_pos ⟨hrun, haddr⟩
    exact ⟨(congrArg (onUnit s true) htake).trans (onUnit_keep rfl rfl), (congrArg (onUnit s true) htake).trans (onUnit_keep rfl rfl)⟩

end Sys2Proof.Machine
end

section
/-! SUPPORT. The SPDM responder (14 R455 to R457; log entry 11), and the statement about it. -/

namespace Sys2Proof.Machine

open Sys2Proof

/-! ### Requests that the connection allows (R455, R457) -/

theorem spdmReach_of {s : State} {pcie : Bool} (hrun : nmcRuns s = true) (hup : pcie = true → s.pw.hostUp = true) : spdmReach s pcie = true := by
  cases pcie with
  | false => simp [spdmReach, hrun]
  | true => simp [spdmReach, hrun, hup rfl]

section serve
variable {s : State} {pcie : Bool} {least : Nat} {f : State → State} (hreach : spdmReach s pcie = true)
include hreach

theorem spdmServe_serves (h : least ≤ spdmConn s pcie) : spdmServe s pcie least f = f s := by
  simp only [spdmServe, hreach, Bool.not_true, Bool.false_eq_true, if_false, if_neg (not_lt.mpr h)]

theorem spdmServe_unexpected (h : spdmConn s pcie < least) : spdmServe s pcie least f = spdmError s pcie 4 0 := by
  simp only [spdmServe, hreach, Bool.not_true, Bool.false_eq_true, if_false, if_pos h]

/-- A request that is served takes the state to what it does there. -/
theorem onUnit_served {t : State} (h : least ≤ spdmConn s pcie) (ht : f s = t) (hp : t.pending = s.pending) : onUnit s true (spdmServe s pcie least f) = .next t := by
  rw [spdmServe_serves hreach h, ht]
  exact onUnit_keep rfl hp

end serve

/-! ### Requests that move the connection on -/

/-- A response with free bytes at its end, and the connection's next state: the other transport's connection stays (R457). -/
structure MovedOn (s : State) (pcie : Bool) (conn resp : Nat) (given : List Byte) (t : State) : Prop where
  conn : spdmConn t pcie = conn
  other : spdmConn t (!pcie) = spdmConn s (!pcie)
  out : ∃ body, t.out = s.out ++ [.spdm pcie resp (given ++ body)]
  frame : t = { s with pw := t.pw, out := t.out, freeCtr := t.freeCtr }

theorem movedOn_answerFree (s : State) (pcie : Bool) (conn req resp : Nat) (given : List Byte) :
    MovedOn s pcie conn resp given (setConn (answerFree s pcie req resp given) pcie conn) := by
  cases pcie <;> exact ⟨rfl, rfl, ⟨_, rfl⟩, rfl⟩

/-- The response to a CHALLENGE starts with the digest of slot 0's chain. -/
theorem challenge_out (s : State) (pcie : Bool) (nonce : List Byte) :
    ∃ sig, (challenge s pcie nonce).out = s.out ++ [.spdm pcie 0x03 (sha3_512 (chainOf s) ++ sig)] :=
  ⟨_, congrArg (fun b => s.out ++ [Out.spdm pcie 0x03 b]) (List.append_assoc ..)⟩

/-! ### Measurements (R456) -/

theorem measure_recovery {s : State} (hrec : s.nmc.recovery = true) (i : Nat) : Machine.measure s i ≠ none ↔ (i = 1 ∨ i = 3 ∨ i = 4) := by
  by_cases hi : i = 1 ∨ i = 3 ∨ i = 4
  · simp [Machine.measure, hi]
  · simp [Machine.measure, hi, hrec]

/-- The block of a tenant is that of its Position. -/
theorem measure_tenant {s : State} (hrec : s.nmc.recovery = false) {t : Nat} (ht : t ≤ 64) :
    Machine.measure s (0x10 + t) = (posOf s t).map (fun p => Config.digestValue p.digest) := by
  have hrom : ¬(0x10 + t = 1 ∨ 0x10 + t = 3 ∨ 0x10 + t = 4) := by omega
  have hfw : ¬(0x10 + t = 2) := by omega
  have hbase : ¬(0x10 + t = 5) := by omega
  have htenant : 0x10 ≤ 0x10 + t ∧ 0x10 + t ≤ 0x50 := by omega
  simp only [Machine.measure, if_neg hrom, hrec, Bool.false_eq_true, if_false, if_neg hfw, if_neg hbase, if_pos htenant, Nat.add_sub_cancel_left]

/-! ### The statement -/

/-- Settles O24: by the request, and the state that the connection has reached. -/
theorem spdmRequestsAnswered : Obligations.SpdmRequestsAnswered := by
  unfold Obligations.SpdmRequestsAnswered
  refine ⟨fun s pcie hrun hup => ?requests, fun s hrec i => measure_recovery hrec i, fun s t hrec ht => by rw [measure_tenant hrec ht, Option.map_eq_none_iff]⟩
  have hreach := spdmReach_of hrun hup
  refine ⟨?version, fun h1 => ?capabilities, fun asym hash h2 => ⟨fun hasym hhash => ?algorithms, fun hother => ?otherAlgorithms⟩,
    fun h3 => ⟨?digests, fun off len => ?certificate, fun slot off len hslot => ?otherSlot, fun nonce => ?challenge, fun index sign nonce => ?measurements⟩,
    fun code => ?unsupported, fun h0 => ?unexpected⟩
  case version =>
    obtain ⟨hconn, hother, hout, hframe⟩ := movedOn_answerFree s pcie 1 0x84 0x04 []
    exact ⟨_, onUnit_served hreach (Nat.zero_le _) rfl rfl, hconn, hother, hout, hframe⟩
  case capabilities =>
    obtain ⟨hconn, hother, hout, hframe⟩ := movedOn_answerFree s pcie 2 0xE1 0x61 (toLE 4 spdmFlags)
    exact ⟨_, onUnit_served hreach h1 rfl rfl, hconn, hother, hout, hframe⟩
  case algorithms =>
    obtain ⟨hconn, -, hout, hframe⟩ := movedOn_answerFree s pcie 3 0xE3 0x63 (toLE 4 (2 ^ ed448Bit) ++ toLE 4 (2 ^ sha3Bit))
    have hboth : (bit asym ed448Bit && bit hash sha3Bit) = true := Bool.and_eq_true_iff.mpr ⟨hasym, hhash⟩
    exact ⟨_, onUnit_served hreach h2 (if_pos hboth) rfl, hconn, hout, hframe⟩
  case otherAlgorithms =>
    have hboth : ¬(bit asym ed448Bit && bit hash sha3Bit) = true := by
      rw [Bool.and_eq_true_iff]
      rintro ⟨hasym, hhash⟩
      rcases hother with h | h
      · exact absurd (hasym.symm.trans h) (by decide)
      · exact absurd (hhash.symm.trans h) (by decide)
    exact onUnit_served hreach h2 (if_neg hboth) rfl
  case digests => exact onUnit_served hreach h3 rfl rfl
  case certificate =>
    by_cases hoff : off < (chainOf s).length
    · rw [if_pos hoff]
      exact onUnit_served hreach h3 (if_neg (by omega)) rfl
    · rw [if_neg hoff]
      exact onUnit_served hreach h3 (if_pos (Or.inr (not_lt.mp hoff))) rfl
  case otherSlot => exact onUnit_served hreach h3 (if_pos (Or.inl hslot)) rfl
  case challenge =>
    obtain ⟨sig, hout⟩ := challenge_out s pcie nonce
    exact ⟨_, sig, onUnit_served hreach h3 (if_neg (by decide)) rfl, hout, rfl⟩
  case measurements =>
    refine onUnit_served hreach h3 ?_ rfl
    cases measurements s index with
    | none => rfl
    | some b => cases sign <;> rfl
  case unsupported => exact (congrArg (onUnit s true) (if_pos hreach)).trans (onUnit_keep rfl rfl)
  case unexpected => exact (congrArg (onUnit s true) (spdmServe_unexpected hreach (by omega))).trans (onUnit_keep rfl rfl)

end Sys2Proof.Machine
end

section
/-! SUPPORT. What resets, a power-on and a wake leave (14 R434, R440 to R444, R448, R460; 15 R469, R477), and the statements about node function resets, PERST_n and the input. -/

namespace Sys2Proof.Machine

open Sys2Proof

/-! ### The image that boots (R447, R448) -/

/-- The image that the store holds is verified against MIN_SVN alone. -/
theorem verifyStore_congr {s t : State} (hstore : t.nmc.store = s.nmc.store) (hsvn : t.nmc.minSvn = s.nmc.minSvn) : verifyStore t = verifyStore s := by
  simp only [verifyStore, hstore, hsvn]

theorem bootImage_ok {s : State} {i : FwImage} (h : verifyStore s = .ok i) : bootImage s =
    { s with nmc := { s.nmc with recovery := false, recovCause := 0, fwVersion := i.version, fwStored := i.version, imageSvn := i.svn, fwDigest := some i.digest } } := by
  simp only [bootImage, h]

theorem bootImage_error {s : State} {e : Nat} (h : verifyStore s = .error e) : bootImage s =
    { s with nmc := { s.nmc with recovery := true, recovCause := e, fwVersion := 0, fwStored := 0, imageSvn := 0, fwDigest := none } } := by
  simp only [bootImage, h]

/-- Once the boot ROM has run, the NMC runs the image or the recovery (R448). -/
theorem nmcRuns_bootImage (s : State) : nmcRuns (bootImage s) = s.pw.powered := by
  cases h : verifyStore s with
  | ok i => rw [bootImage_ok h]; simp [nmcRuns]
  | error e => rw [bootImage_error h]; simp [nmcRuns]

theorem goOn_starts {s : State} (h : s.nmc.recovery = false) (cause : Nat) : goOn s cause = startUp s cause := if_neg (by simp [h])

theorem goOn_recovers {s : State} (h : s.nmc.recovery = true) (cause : Nat) :
    goOn s cause = { s with pw := { s.pw with hostUp := true }, nmc := { s.nmc with bootCause := cause } } := if_pos h

/-! ### A cleared queue engine stays so while the node starts -/

section cleared
variable {s : State} (hq : s.qe = {})
include hq

/-- With no entry of the MSI-X tables written, a message goes out or nowhere, and waits in no entry. -/
theorem msix_cleared (fn v : Nat) : (msix s fn v).qe = {} := by
  have hentry : tget {} s.qe.msix (fn * 128 + v) = ({} : MsixEntry) := by rw [hq]; rfl
  simp only [msix, hentry, Bool.false_eq_true, if_false]
  split <;> exact hq

theorem raise_cleared (code cls t u a b c : Nat) : (raise s code cls t u a b c).qe = {} := by
  have hmsix : ∀ er, (msix { s with er := er } 0 s.er.vector).qe = {} := fun er => msix_cleared (s := { s with er := er }) hq ..
  simp only [raise]
  split
  · exact hq
  · split
    · rw [setAlert_qe]
      split
      · exact hmsix _
      · exact hq
    · split
      · exact hmsix _
      · exact hq

theorem linkTo_cleared (l st cause : Nat) : (linkTo s l st cause).qe = {} := by
  simp only [linkTo]
  split
  · exact hq
  · exact raise_cleared (s := emit (setLink s l _) _) hq ..

theorem trainStacks_cleared : (trainStacks s).qe = {} := by
  refine foldl_keeps (fun x : State => x.qe = {}) _ ?_ _ _ (foldl_keeps (fun x : State => x.qe = {}) _ ?_ _ _ hq)
  · exact fun x n hx => hx
  · exact fun x r hx => raise_cleared (s := countUnit x (stackUnit r.1) false r.2) hx ..

theorem trainLinks_cleared : (trainLinks s).qe = {} := by
  refine foldl_keeps (fun x : State => x.qe = {}) _ (fun x l hx => linkTo_cleared ?_ ..) _ _ hq
  rw [restoreLane]
  split <;> exact hx

end cleared

theorem startUp_cleared {s : State} (hq : s.qe = {}) (cause : Nat) : (startUp s cause).qe = {} := by
  have h : (trainLinks (trainStacks s)).qe = {} := trainLinks_cleared (trainStacks_cleared hq)
  unfold startUp
  generalize trainLinks (trainStacks s) = x at h ⊢
  exact h

/-! ### The fast domains after a reset (R440, R441) -/

theorem clearFast_cleared (s : State) : FastCleared s (clearFast s) := by
  obtain ⟨fl, pw, spare, hclear, rfl, rfl⟩ := clearFast_frame s
  rw [hclear]
  exact ⟨rfl, rfl, rfl, rfl, rfl, rfl, rfl, rfl, rfl, rfl, rfl, rfl, rfl, rfl, rfl, rfl, rfl, rfl, rfl, rfl⟩

namespace FastCleared

theorem bootImage {s x : State} (h : FastCleared s x) : FastCleared s (bootImage x) := by
  obtain ⟨_, _, _, _, _, _, hboot⟩ := bootImage_frame x
  rw [hboot]
  exact h

theorem startUp {s x : State} (h : FastCleared s x) (cause : Nat) : FastCleared s (startUp x cause) := by
  obtain ⟨hbd, hranks, hsquares, hqe, htenants, hmeters, hindexes, hpartials, hts, hobjs, hjobs, hexports, hfab, hsvn, hstore, htempo, hmem, hctr, hlanes, hrows⟩ := h
  have hqe' := startUp_cleared hqe cause
  obtain ⟨_, _, _, _, _, _, _, hstart⟩ := startUp_frame x cause
  rw [hstart] at hqe' ⊢
  exact ⟨hbd, hranks, hsquares, hqe', htenants, hmeters, hindexes, hpartials, hts, hobjs, hjobs, hexports, by rw [hfab], hsvn, hstore, htempo, hmem, hctr, hlanes, hrows⟩

end FastCleared

/-! ### A node function reset (R440, R443) -/

/-- The node with its fast domains cleared and its host link kept, before the boot ROM verifies the image. -/
def nodeCleared (s : State) : State :=
  let t := clearFast { s with spare := { s.spare with unrecorded := [] } }
  { t with pw := { t.pw with hostUp := s.pw.hostUp, spdmMctp := 0 } }

theorem nodeReset_active {s : State} (hst : s.pw.pstate = 2) :
    nodeReset s = { goOn (bootImage (nodeCleared s)) 2 with pw := { (goOn (bootImage (nodeCleared s)) 2).pw with hostUp := s.pw.hostUp } } :=
  if_neg (by rw [hst]; simp)

theorem nodeCleared_cleared (s : State) : FastCleared s (nodeCleared s) := clearFast_cleared { s with spare := { s.spare with unrecorded := [] } }

/-- What boots after the reset is the image that was stored before it. -/
theorem FastCleared.verifyStore {s t : State} (h : FastCleared s t) : verifyStore t = verifyStore s := by
  obtain ⟨-, -, -, -, -, -, -, -, -, -, -, -, -, hsvn, hstore, -⟩ := h
  exact verifyStore_congr hstore hsvn

/-- A node that was ACTIVE is so again, with the stored image. -/
structure Restarted (s : State) (i : FwImage) (t : State) : Prop where
  pstate : t.pw.pstate = 2
  ready : t.nmc.ready = true
  recovery : t.nmc.recovery = false
  version : t.nmc.fwVersion = i.version
  links : ∀ l, l < 24 → (getLink t l).st = 1
  cleared : FastCleared s t
  hostUp : t.pw.hostUp = s.pw.hostUp
  cause : t.nmc.bootCause = 2

/-- It is in recovery with the reason. -/
structure Recovering (s : State) (e : Nat) (t : State) : Prop where
  pstate : t.pw.pstate = 0
  ready : t.nmc.ready = false
  recovery : t.nmc.recovery = true
  reason : t.nmc.recovCause = e
  cleared : FastCleared s t
  hostUp : t.pw.hostUp = s.pw.hostUp
  cause : t.nmc.bootCause = 2

theorem nodeReset_restarts {s : State} (hst : s.pw.pstate = 2) {i : FwImage} (h : verifyStore s = .ok i) : Restarted s i (nodeReset s) := by
  have hboot := bootImage_ok ((nodeCleared_cleared s).verifyStore.trans h)
  have hrec : (bootImage (nodeCleared s)).nmc.recovery = false := by rw [hboot]
  have hversion : (bootImage (nodeCleared s)).nmc.fwVersion = i.version := by rw [hboot]
  have hcleared := (nodeCleared_cleared s).bootImage.startUp 2
  have hlinks := startUp_links (bootImage (nodeCleared s)) 2
  rw [nodeReset_active hst, goOn_starts hrec]
  generalize bootImage (nodeCleared s) = x at hrec hversion hcleared hlinks
  obtain ⟨_, _, _, _, _, _, _, hstart⟩ := startUp_frame x 2
  rw [hstart] at hcleared hlinks ⊢
  exact ⟨rfl, rfl, hrec, hversion, hlinks, hcleared, rfl, rfl⟩

theorem nodeReset_recovers {s : State} (hst : s.pw.pstate = 2) {e : Nat} (h : verifyStore s = .error e) : Recovering s e (nodeReset s) := by
  have hcleared := (nodeCleared_cleared s).bootImage
  have hboot := bootImage_error ((nodeCleared_cleared s).verifyStore.trans h)
  have hrec : (bootImage (nodeCleared s)).nmc.recovery = true := by rw [hboot]
  rw [nodeReset_active hst, goOn_recovers hrec]
  rw [hboot] at hcleared ⊢
  exact ⟨rfl, rfl, rfl, rfl, hcleared, rfl, rfl⟩

/-- Settles O25: by whether the stored image passes. -/
theorem nodeFunctionResetClears : Obligations.NodeFunctionResetClears := by
  unfold Obligations.NodeFunctionResetClears
  intro s hst hrun after
  have hafter : after (nodeReset s) := by
    cases h : verifyStore s with
    | ok i =>
      have hr := nodeReset_restarts hst h
      refine ⟨hr.cleared, hr.hostUp, hr.cause, ?_⟩
      rw [h]
      exact ⟨hr.pstate, hr.ready, hr.recovery, hr.version, hr.links⟩
    | error e =>
      have hr := nodeReset_recovers hst h
      refine ⟨hr.cleared, hr.hostUp, hr.cause, ?_⟩
      rw [h]
      exact ⟨hr.pstate, hr.ready, hr.recovery, hr.reason⟩
  have hawake : asleep s = false := by simp [asleep, hst]
  refine ⟨fun v hbar hbit hconfirm => ?register, fun hup => ?physical, ?sideband, ?message⟩
  case register =>
    have hasked : (barNmc s && isPf 0 && bit v.toNat 0 && v.toNat / 65536 == 0x4E46) = true := by simp [hbar, hbit, hconfirm, isPf]
    exact ⟨_, (congrArg (onUnit s true) (if_pos hasked)).trans (onUnit_ok rfl), hafter⟩
  case physical => exact ⟨_, (congrArg (onUnit s true) (if_pos hup)).trans (onUnit_ok rfl), hafter⟩
  case sideband =>
    have hasked : (nmcRuns s && s.pw.pstate != 4 && s.pw.pstate != 5) = true := by simp [hrun, hst]
    exact ⟨_, (congrArg (onUnit s true) (if_pos hasked)).trans (onUnit_ok rfl), hafter⟩
  case message =>
    have hstatus : (if asleep s then 1 else 0) = 0 := if_neg (by rw [hawake]; decide)
    exact ⟨_, message_done hrun hstatus, hafter⟩

/-! ### PERST_n and the input (R434, R440, R442) -/

theorem powerDown_cleared (s : State) : FastCleared s (powerDown s) := tripNode_cleared s 0

/-- A PERST_n reset: the domains are off, the cause is kept, and the image is verified again. -/
structure PerstReset (s t : State) : Prop where
  cleared : FastCleared s t
  perst : t.pw.perst = true
  hostUp : t.pw.hostUp = false
  pstate : t.pw.pstate = 0
  linksOn : t.pw.linksOn = false
  stacksOn : t.pw.stacksOn = 0
  flashOn : t.pw.flashOn = false
  cause : t.nmc.bootCause = 1
  recovery : t.nmc.recovery = match verifyStore s with | .ok _ => false | .error _ => true

/-- The node with the power of its fast domains removed, before the boot ROM verifies the image. -/
def perstDown (s : State) : State := { powerDown s with pw := { (powerDown s).pw with perst := true, spdmMctp := 0 } }

theorem perstReset_resets (s : State) : PerstReset s (perstReset s) := by
  have hdown : FastCleared s (perstDown s) := powerDown_cleared s
  have hrec := bootImage_recovery (perstDown s)
  rw [hdown.verifyStore] at hrec
  have hpw : (bootImage (perstDown s)).pw = (perstDown s).pw := by
    obtain ⟨_, _, _, _, _, _, hboot⟩ := bootImage_frame (perstDown s)
    rw [hboot]
  have hreset : perstReset s = { bootImage (perstDown s) with nmc := { (bootImage (perstDown s)).nmc with bootCause := 1 } } := rfl
  have hcleared := hdown.bootImage
  rw [hreset]
  generalize bootImage (perstDown s) = x at hrec hpw hcleared
  exact ⟨hcleared, by rw [hpw]; rfl, by rw [hpw]; rfl, by rw [hpw]; rfl, by rw [hpw]; rfl, by rw [hpw]; rfl, by rw [hpw]; rfl, rfl, hrec⟩

/-- The node whose power has just come, before the boot ROM runs. -/
def poweredOn (s : State) (straps : Nat) : State :=
  { s with
    tempo := 0, tempoFrac := 0, er := {}, cal := {}, pw := { straps := straps },
    spare := { stackRows := s.spare.stackRows, unrecorded := s.spare.unrecorded }, fab := {},
    nmc := { minSvn := s.nmc.minSvn, raisesLeft := s.nmc.raisesLeft, store := s.nmc.store } }

/-- A boot ROM that runs notes whether the factory record verified, raises an event if not, and boots the image (13 R425). -/
theorem bootRom_runs {s : State} (h : nmcRuns s = false) :
    ∃ x, bootRom s = bootImage x ∧ EventWork { s with cal := { s.cal with recordOk := Config.factoryRecordOk } } x ∧ (Config.factoryRecordOk = true → x.er = s.er) := by
  refine ⟨_, if_neg (by simp [h]), ?_, fun hok => ?_⟩
  · dsimp only
    split
    · exact rfl
    · exact eventWork_trans (b := countUnit { s with cal := { s.cal with recordOk := Config.factoryRecordOk } } nmcUnit false 0) rfl (eventWork_raise ..)
  · rw [if_pos hok]

theorem bootRom_running {s : State} (h : nmcRuns s = true) : bootRom s = s := if_pos h

/-! ### A wake (R459, R460) -/

/-- A map of the values that keeps what `g` reads of each keeps what `g` reads of any entry. -/
theorem tget_map_reads {β γ : Type} (d : β) (f : Nat → β → β) (g : β → γ) (h : ∀ k v, g (f k v) = g v) (t : Tab β) (k : Nat) :
    g (tget d (t.map (fun e => (e.1, f e.1 e.2))) k) = g (tget d t k) := by
  induction t with
  | nil => rfl
  | cons e t ih =>
    simp only [List.map_cons, tget]
    split
    · exact h ..
    · exact ih

theorem checkCarriers_frame (s : State) : ∃ fl, checkCarriers s = { s with fl := fl } ∧ (s.pw.sleepFmt = carrierView s → fl = s.fl) := by
  unfold checkCarriers
  split
  · exact ⟨s.fl, rfl, fun _ => rfl⟩
  · next h => exact ⟨_, rfl, fun heq => absurd heq h⟩

theorem wakeClear_layer (s : State) : (wakeClear s).bd.layer = s.bd.layer := by
  cases h : s.bd.layer <;> simp [wakeClear, h]

/-- What a wake leaves: the node is ACTIVE with its links in TRAINING, what sleep retains stays, and the queue engine, the meters and the bindings are anew (R460). -/
structure Woken (s t : State) : Prop where
  pending : t.pending = s.pending
  pstate : t.pw.pstate = 2
  perst : t.pw.perst = s.pw.perst
  wakeN : t.pw.wakeN = false
  ready : t.nmc.ready = true
  cause : t.nmc.bootCause = 3
  links : ∀ l, l < 24 → (getLink t l).st = 1
  objs : t.ms.objs = s.ms.objs
  indexes : t.indexes = s.indexes
  layer : t.bd.layer = s.bd.layer
  lanes : t.spare.lanes = s.spare.lanes
  sramRows : t.spare.sramRows = s.spare.sramRows
  castled : ∀ r, (getRank t r).castled = (getRank s r).castled
  fab : t.fab = { s.fab with links := t.fab.links }
  qe : t.qe = {}
  tenants : t.tenants = []
  meters : t.meters = []
  vocabs : t.ts.vocabs = []
  grams : t.ts.grams = []
  fl : s.pw.sleepFmt = carrierView s → t.fl = s.fl
  tempo : t.tempo = s.tempo
  hostMem : t.hostMem = s.hostMem

theorem wakeUp_wakes (s : State) : Woken s (wakeUp s) := by
  have hqe : (wakeUp s).qe = {} := startUp_cleared (by obtain ⟨fl, hfl, -⟩ := checkCarriers_frame (wakeClear s); rw [hfl]; rfl) 3
  have hlinks := startUp_links (checkCarriers (wakeClear s)) 3
  obtain ⟨fl, hfl, hsame⟩ := checkCarriers_frame (wakeClear s)
  obtain ⟨_, _, _, _, _, _, links, hstart⟩ := startUp_frame (checkCarriers (wakeClear s)) 3
  have hwake : wakeUp s = startUp (checkCarriers (wakeClear s)) 3 := rfl
  rw [← hwake] at hlinks hstart
  rw [hfl] at hstart
  rw [hstart] at hqe hlinks ⊢
  refine ⟨rfl, rfl, rfl, rfl, rfl, rfl, hlinks, rfl, rfl, wakeClear_layer s, rfl, rfl, fun r => ?_, rfl, hqe, rfl, rfl, rfl, rfl, hsame, rfl, rfl⟩
  exact tget_map_reads {} (fun k v => { v with clock := 0, pll := warmRank s k, pwrOff := false, idle := 0 }) (fun v => v.castled) (fun _ _ => rfl) s.ranks r

/-! ### PERST_n is released (R440, R460) -/

def perstReleased (s : State) : State := { s with pw := { s.pw with perst := false, wakeN := false } }

section released
variable {s : State} {ns : Nat} (hpow : s.pw.powered = true) (hperst : s.pw.perst = true) (hns : 200 ≤ ns)
include hpow hperst hns

theorem exec_perstNDeassert : exec (.perstNDeassert ns) s = onUnit s true (
    if s.pw.pstate = 5 then wakeUp (if s.pw.wakeN then emit (perstReleased s) (.pin 1 false) else perstReleased s)
    else if s.pw.pstate = 6 then (if s.pw.tripPerst && tripOver s then goOn (perstReleased s) 1 else perstReleased s)
    else goOn (bootRom (perstReleased s)) (bootRom (perstReleased s)).nmc.bootCause) :=
  congrArg (onUnit s true) (if_neg (by simp [hpow, hperst]; omega))

/-- A node whose NMC runs goes on from where the boot ROM left it. -/
theorem exec_perstNDeassert_goOn (hst : s.pw.pstate = 0) (hrun : nmcRuns s = true) :
    exec (.perstNDeassert ns) s = onUnit s true (goOn (perstReleased s) s.nmc.bootCause) := by
  have hrom : bootRom (perstReleased s) = perstReleased s := bootRom_running hrun
  rw [exec_perstNDeassert hpow hperst hns, if_neg (by omega), if_neg (by omega), hrom]
  rfl

/-- From ASLEEP it wakes. -/
theorem exec_perstNDeassert_wakes (hst : s.pw.pstate = 5) : ∃ x t, exec (.perstNDeassert ns) s = .next t ∧ x.pw = (perstReleased s).pw ∧ x.ms = s.ms ∧ x.bd = s.bd ∧ Woken x t := by
  rw [exec_perstNDeassert hpow hperst hns, if_pos hst]
  split
  · have hw := wakeUp_wakes (emit (perstReleased s) (.pin 1 false))
    exact ⟨emit (perstReleased s) (.pin 1 false), _, onUnit_keep rfl hw.pending, rfl, rfl, rfl, hw⟩
  · have hw := wakeUp_wakes (perstReleased s)
    exact ⟨_, _, onUnit_keep rfl hw.pending, rfl, rfl, rfl, hw⟩

end released

/-! ### The statement -/

/-- Settles O26: by the event, and the state that PERST_n or the input finds the node in. -/
theorem powerAndPerstSequence : Obligations.PowerAndPerstSequence := by
  unfold Obligations.PowerAndPerstSequence
  refine ⟨fun s hpow => ?loss, fun s straps hstraps hpow => ?powerOn, fun s ns hpow hperst => ⟨fun hns => ?pulse, fun hns h4 => ?asleep, fun hns h4 h6 => ?reset⟩,
    fun s ns hpow hperst => ⟨fun hns => ?glitch, fun hns h0 hrun hrec => ?start, fun hns h0 hrun hrec => ?recovery, fun hns h5 => ?wake⟩, fun s => onUnit_keep rfl rfl,
    fun s hpow hperst hst => ?linkUp⟩
  case loss =>
    exact ⟨_, (congrArg (onUnit s true) (if_neg (by simp [hpow]))).trans (onUnit_ok rfl), powerDown_cleared s, rfl, rfl, rfl, rfl, rfl⟩
  case powerOn =>
    obtain ⟨x, hboot, hevent, her⟩ := bootRom_runs (s := poweredOn s straps) rfl
    have hexec : exec (.powerOnReset straps) s = onUnit s (decide (straps < 4)) (bootImage x) :=
      congrArg (onUnit s (decide (straps < 4))) ((if_neg (by simp [hpow])).trans hboot)
    have hrec := bootImage_recovery x
    rw [verifyStore_congr (s := s) (by rw [hevent]; rfl) (by rw [hevent]; rfl)] at hrec
    have hruns : nmcRuns (bootImage x) = true := (nmcRuns_bootImage x).trans (by rw [hevent]; rfl)
    refine ⟨_, hexec.trans (onUnit_ok (decide_eq_true hstraps)), ?_⟩
    obtain ⟨_, _, _, _, _, _, hframe⟩ := bootImage_frame x
    rw [hframe] at hrec hruns ⊢
    refine ⟨?_, ?_, ?_, ?_, ?_, ?_, ?_, ?_, ?_, ?_, ?_, ?_, ?_, her, hrec, hruns⟩
    all_goals rw [hevent]; rfl
  case pulse => exact (congrArg (onUnit s true) (if_pos (by simp [hns]))).trans (onUnit_keep rfl rfl)
  case asleep => exact (congrArg (onUnit s true) ((if_neg (by simp [hpow, hperst]; omega)).trans (if_pos h4))).trans (onUnit_keep rfl rfl)
  case reset =>
    have hr := perstReset_resets s
    exact ⟨_, (congrArg (onUnit s true) ((if_neg (by simp [hpow, hperst]; omega)).trans ((if_neg h4).trans (if_neg h6)))).trans (onUnit_ok rfl),
      hr.cleared, hr.perst, hr.hostUp, hr.pstate, hr.linksOn, hr.stacksOn, hr.flashOn, hr.cause, hr.recovery⟩
  case glitch => exact (congrArg (onUnit s true) (if_pos (by simp [hns]))).trans (onUnit_keep rfl rfl)
  case start =>
    have hlinks := startUp_links (perstReleased s) s.nmc.bootCause
    rw [exec_perstNDeassert_goOn hpow hperst hns h0 hrun, goOn_starts (s := perstReleased s) hrec]
    obtain ⟨_, _, _, _, _, _, _, hstart⟩ := startUp_frame (perstReleased s) s.nmc.bootCause
    rw [hstart] at hlinks ⊢
    exact ⟨_, onUnit_ok rfl, rfl, rfl, rfl, rfl, rfl, hlinks, rfl, rfl, rfl, rfl, rfl, rfl, rfl⟩
  case recovery =>
    rw [exec_perstNDeassert_goOn hpow hperst hns h0 hrun, goOn_recovers (s := perstReleased s) hrec]
    exact onUnit_keep rfl rfl
  case wake =>
    obtain ⟨x, t, hexec, hpw, hms, hbd, hw⟩ := exec_perstNDeassert_wakes hpow hperst hns h5
    exact ⟨t, hexec, hw.pstate, hw.perst.trans (by rw [hpw]; rfl), hw.wakeN, hw.cause, hw.objs.trans (by rw [hms]), hw.layer.trans (by rw [hbd]), hw.qe, hw.tenants, hw.meters⟩
  case linkUp => exact (congrArg (onUnit s true) (if_pos (by simp [hpow, hperst, hst]))).trans (onUnit_keep rfl rfl)

end Sys2Proof.Machine
end

section
/-! SUPPORT. SLEEP, the end of quiescing, WAKE and PME_Turn_Off (14 R458 to R460; log entry 21), and the statement about them. -/

namespace Sys2Proof.Machine

open Sys2Proof

/-! ### A request to sleep (R458) -/

/-- A write of PW_CTRL that asks an ACTIVE node to sleep. -/
theorem exec_sleep {s t : State} {v : BitVec 32} (hbar : barNmc s = true) (hst : s.pw.pstate = 2) (hsleep : bit v.toNat 0 = true) (hwake : bit v.toNat 1 = false)
    (ht : requestSleep s (v.toNat / 65536) = t) (hp : t.pending = s.pending) : exec (.sleep 0 v) s = .next t := by
  have hasked : (barNmc s && isPf 0 && s.pw.pstate == 2 && bit v.toNat 0 && !bit v.toNat 1) = true := by simp [hbar, isPf, hst, hsleep, hwake]
  have heff : exec (.sleep 0 v) s = onUnit s (wellFormed (.sleep 0 v)) (requestSleep s (v.toNat / 65536)) := congrArg (onUnit s _) (if_pos hasked)
  rw [heff, ht]
  exact onUnit_keep rfl hp

/-- The first check that fails refuses it. -/
theorem requestSleep_refused {s : State} {confirm e : Nat} (h : sleepFails s confirm = some e) :
    requestSleep s confirm = { s with pw := { s.pw with sleepFail := true, err := e } } := by simp only [requestSleep, h]

theorem requestSleep_starts {s : State} {confirm : Nat} (h : sleepFails s confirm = none) : requestSleep s confirm = { s with pw := { s.pw with pstate := 3 } } := by
  simp only [requestSleep, h]

/-! ### The end of quiescing (R458) -/

/-- A link that is taken to a state is in it. -/
theorem linkTo_state (s : State) (l st cause : Nat) : (getLink (linkTo s l st cause) l).st = st := by
  by_cases h : (getLink s l).st = st
  · simp only [linkTo, if_pos h]
    exact h
  · rw [linkTo_link _ _ _ _ h]

theorem linkTo_keeps_state (s : State) {l k st : Nat} (cause : Nat) (h : (getLink s k).st = st) : (getLink (linkTo s l st cause) k).st = st := by
  by_cases hk : k = l
  · rw [hk]
    exact linkTo_state ..
  · rw [linkTo_other _ _ _ _ _ hk]
    exact h

/-- Links that are taken to a state one after the other are all in it. -/
theorem foldl_linkTo_state (st cause : Nat) (l : List Nat) (s : State) {k : Nat} (hk : k ∈ l) : (getLink (l.foldl (fun a j => linkTo a j st cause) s) k).st = st := by
  induction l generalizing s with
  | nil => cases hk
  | cons j l ih =>
    rw [List.foldl_cons]
    rcases List.mem_cons.mp hk with rfl | hk
    · exact foldl_keeps (fun x => (getLink x k).st = st) _ (fun x i hx => linkTo_keeps_state x cause hx) l _ (linkTo_state ..)
    · exact ih _ hk

/-- A node in SLEEP_READY: every link is DOWN, every stack in self-refresh, and every fast domain but the host port off. -/
structure SleepReady (t : State) : Prop where
  pstate : t.pw.pstate = 4
  linksOn : t.pw.linksOn = false
  flashOn : t.pw.flashOn = false
  bridgeOn : t.pw.bridgeOn = false
  queueOn : t.pw.queueOn = false
  tokenOn : t.pw.tokenOn = false
  links : ∀ l, l < 24 → (getLink t l).st = 4
  stackState : ∀ e ∈ t.ms.stackState, e.2 = 3

theorem SleepReady.withPending {t : State} (h : SleepReady t) (p : List Instr) : SleepReady { t with pending := p } :=
  ⟨h.pstate, h.linksOn, h.flashOn, h.bridgeOn, h.queueOn, h.tokenOn, h.links, h.stackState⟩

theorem enterSleep_ready (s : State) : SleepReady (enterSleep s) := by
  unfold enterSleep
  dsimp only
  generalize closeAll _ _ = x
  have hlinks : ∀ l, l < 24 → (getLink ((List.range 24).foldl (fun a l => linkTo a l 4 3) x) l).st = 4 :=
    fun l hl => foldl_linkTo_state 4 3 (List.range 24) x (List.mem_range.mpr hl)
  generalize (List.range 24).foldl (fun a l => linkTo a l 4 3) x = y at hlinks ⊢
  refine ⟨rfl, rfl, rfl, rfl, rfl, rfl, hlinks, fun e he => ?_⟩
  obtain ⟨x, -, rfl⟩ := List.mem_map.mp he
  rfl

/-! ### The statement -/

/-- Settles O27: a sleep request by its checks in order, the others by the state that the command finds. -/
theorem sleepAndWake : Obligations.SleepAndWake := by
  unfold Obligations.SleepAndWake
  refine ⟨fun s v hbar hst hsleep hwake => ?sleep, fun s hst => ?quiesce, fun s v hbar hst hwake hsleep hconfirm => ?wake, fun s hst => ?pme⟩
  case sleep =>
    by_cases hconfirm : v.toNat / 65536 ≠ 0x51EE
    · rw [if_pos hconfirm]
      exact exec_sleep hbar hst hsleep hwake (requestSleep_refused (if_pos hconfirm)) rfl
    · rw [if_neg hconfirm]
      by_cases hpos : s.bd.positions ≠ []
      · rw [if_pos hpos]
        exact exec_sleep hbar hst hsleep hwake (requestSleep_refused ((if_neg hconfirm).trans (if_pos (by simpa using hpos)))) rfl
      · rw [if_neg hpos]
        have hnone : ¬(!s.bd.positions.isEmpty) = true := by simpa using hpos
        by_cases hbusy : sleepBusy s = true
        · rw [if_pos hbusy]
          exact exec_sleep hbar hst hsleep hwake (requestSleep_refused ((if_neg hconfirm).trans ((if_neg hnone).trans (if_pos hbusy)))) rfl
        · rw [if_neg hbusy]
          exact exec_sleep hbar hst hsleep hwake (requestSleep_starts ((if_neg hconfirm).trans ((if_neg hnone).trans (if_neg hbusy)))) rfl
  case quiesce =>
    have hr := (enterSleep_ready s).withPending s.pending
    exact ⟨_, (congrArg (onUnit s true) (if_pos hst)).trans (onUnit_ok rfl), hr.pstate, hr.linksOn, hr.flashOn, hr.bridgeOn, hr.queueOn, hr.tokenOn, hr.links, hr.stackState⟩
  case wake =>
    have hasked : (barNmc s && isPf 0 && s.pw.pstate == 4 && bit v.toNat 1 && !bit v.toNat 0 && v.toNat / 65536 == 0x51EE) = true := by
      simp [hbar, isPf, hst, hsleep, hwake, hconfirm]
    have hw := wakeUp_wakes s
    exact ⟨_, (congrArg (onUnit s (wellFormed (.wake 0 v))) (if_pos hasked)).trans (onUnit_keep rfl hw.pending), hw.pstate, hw.ready, hw.cause, hw.links, hw.objs, hw.indexes,
      hw.layer, hw.lanes, hw.sramRows, hw.castled, hw.fab, hw.qe, hw.tenants, hw.meters, hw.vocabs, hw.grams, hw.fl, hw.tempo, hw.hostMem⟩
  case pme => exact (congrArg (onUnit s true) (if_pos hst)).trans (onUnit_keep rfl rfl)

end Sys2Proof.Machine
end

section
/-! SUPPORT. LOAD_FIRMWARE, the load in recovery and the watchdog (14 R449 to R453), and the statement about them. -/

namespace Sys2Proof.Machine

open Sys2Proof

/-- An image that fails a check has a reason other than 0 (R447). -/
theorem verifyImage_error_ne_zero {minSvn avail e : Nat} {b : List Byte} (h : verifyImage minSvn b avail = .error e) : e ≠ 0 := by
  rintro rfl
  unfold verifyImage at h
  dsimp only at h
  split at h
  · cases h
  · split at h
    · cases h
    · split at h
      · cases h
      · split at h <;> cases h

/-! ### LOAD_FIRMWARE (R451, R452) -/

theorem exec_loadFirmware {s t : State} {seq : Nat} {d : Desc} (hd : dueDesc s .admin seq 0x86 = some d) (ht : loadFirmware s d true = t) (hp : t.pending = s.pending) :
    exec (.loadFirmware seq true) s = .next t := by
  have heff : exec (.loadFirmware seq true) s = onUnit s true (loadFirmware s d true) := by
    change execLoadFirmware seq true s = _
    simp only [execLoadFirmware, hd]
  rw [heff, ht]
  exact onUnit_keep rfl hp

/-- The image that a LOAD_FIRMWARE names, as it stands in host memory. -/
def loadedImage (s : State) (d : Desc) : List Byte := hostRead s (dfield d 16 8) (dfield d 24 4)

/-- Nothing refuses the command before its image is verified: host memory can be read, and the image has the place and the length that the command gives. -/
structure LoadReadable (s : State) (d : Desc) : Prop where
  fault : d.hostFault = false
  hostOpen : hostOpen s 0 = true
  aligned : dfield d 16 8 % 4096 = 0
  fits : dfield d 24 4 ≤ 2 ^ 25
  length : fieldAt (loadedImage s d) 8 4 = dfield d 24 4

theorem LoadReadable.placed {s : State} {d : Desc} (h : LoadReadable s d) : ¬(dfield d 16 8 % 4096 ≠ 0 ∨ 2 ^ 25 < dfield d 24 4) := by
  have := h.aligned
  have := h.fits
  omega

theorem LoadReadable.sized {s : State} {d : Desc} (h : LoadReadable s d) : ¬fieldAt (hostRead s (dfield d 16 8) (dfield d 24 4)) 8 4 ≠ dfield d 24 4 :=
  not_not.mpr h.length

section load
variable {s : State} {d : Desc} (h : LoadReadable s d)
include h

theorem loadFirmware_fails {e : Nat} (he : verifyImage s.nmc.minSvn (loadedImage s d) (dfield d 24 4) = .error e) :
    loadFirmware s d true = completeDetail s d stMalformed e := by
  unfold loadedImage at he
  simp only [loadFirmware, h.fault, h.hostOpen, Bool.not_true, Bool.or_self, Bool.false_eq_true, if_false, if_neg h.placed, if_neg h.sized, he]

theorem loadFirmware_verified {i : FwImage} (hi : verifyImage s.nmc.minSvn (loadedImage s d) (dfield d 24 4) = .ok i) :
    loadFirmware s d true = if bit (dfield d 28 1) 0 = true ∧ s.nmc.raisesLeft = 0 then completeDetail s d stMalformed 7
      else complete (if bit (dfield d 28 1) 0 then raiseSvn (writeStore (commit s d) (loadedImage s d) true) i.svn else writeStore (commit s d) (loadedImage s d) true) d stDone := by
  unfold loadedImage at hi
  simp only [loadFirmware, h.fault, h.hostOpen, Bool.not_true, Bool.or_self, Bool.false_eq_true, if_false, if_neg h.placed, if_neg h.sized, hi, if_true,
    Bool.and_eq_true_iff, beq_iff_eq]
  rfl

end load

theorem writeStore_stores (s : State) (img : List Byte) :
    ∃ v, writeStore s img true = { s with nmc := { s.nmc with store := .bytes (cellsOf 0 img) img.length, fwStored := v } } := ⟨_, rfl⟩

/-- Whether or not MIN_SVN is raised, the store holds the image, and nothing else than the firmware's registers and the table entry has changed. -/
theorem storedImage_frame (s : State) (d : Desc) (img : List Byte) (raised : Bool) (svn : Nat) :
    ∃ nmc : NmcSt, (if raised then raiseSvn (writeStore (commit s d) img true) svn else writeStore (commit s d) img true) = { commit s d with nmc := nmc }
      ∧ nmc.store = .bytes (cellsOf 0 img) img.length ∧ nmc.minSvn = (if raised = true ∧ s.nmc.minSvn < svn then svn else s.nmc.minSvn)
      ∧ nmc.fwVersion = s.nmc.fwVersion ∧ nmc.fwDigest = s.nmc.fwDigest := by
  rw [commit_qe_frame]
  cases raised with
  | false => exact ⟨_, rfl, rfl, rfl, rfl, rfl⟩
  | true =>
    by_cases hsvn : s.nmc.minSvn < svn
    · refine ⟨_, if_pos hsvn, rfl, (if_pos ⟨rfl, hsvn⟩).symm, rfl, rfl⟩
    · refine ⟨_, if_neg hsvn, rfl, (if_neg (fun hboth => hsvn hboth.2)).symm, rfl, rfl⟩

/-! ### The load in recovery (R453) -/

/-- The image that the recovery registers name. -/
def recoveryImage (s : State) : List Byte := hostRead s (s.nmc.recovAddr * 4096) s.nmc.recovLen

theorem exec_recoveryLoad {s : State} (hup : s.pw.hostUp = true) (hrec : s.nmc.recovery = true) :
    exec (.recoveryLoad 0 true) s = .next { recoveryLoad s true with pending := s.pending } := by
  have hasked : (s.pw.hostUp && s.nmc.recovery && isPf 0) = true := by simp [hup, hrec, isPf]
  exact (congrArg (onUnit s _) (if_pos hasked)).trans (onUnit_ok rfl)

section recovery
variable {s : State} (hmin : 4096 ≤ s.nmc.recovLen) (hmax : s.nmc.recovLen ≤ 2 ^ 25) (hlen : fieldAt (recoveryImage s) 8 4 = s.nmc.recovLen)
include hmin hmax hlen

theorem recoveryLoad_fails {e : Nat} (he : verifyImage s.nmc.minSvn (recoveryImage s) s.nmc.recovLen = .error e) : recoveryLoad s true = recovEnd s e := by
  have hok : ¬(s.nmc.recovLen < 4096 ∨ 2 ^ 25 < s.nmc.recovLen ∨ fieldAt (recoveryImage s) 8 4 ≠ s.nmc.recovLen) := by omega
  unfold recoveryImage at he hok
  simp only [recoveryLoad, if_neg hok, he]

theorem recoveryLoad_stores {i : FwImage} (hi : verifyImage s.nmc.minSvn (recoveryImage s) s.nmc.recovLen = .ok i) :
    recoveryLoad s true = recovEnd (writeStore s (recoveryImage s) true) 0 := by
  have hok : ¬(s.nmc.recovLen < 4096 ∨ 2 ^ 25 < s.nmc.recovLen ∨ fieldAt (recoveryImage s) 8 4 ≠ s.nmc.recovLen) := by omega
  unfold recoveryImage at hi hok ⊢
  simp only [recoveryLoad, if_neg hok, hi, if_true]

end recovery

/-! ### The statement -/

/-- Settles O30: by the checks of the image (R447), and whether a raise that is asked for is left. -/
theorem firmwareLoads : Obligations.FirmwareLoads := by
  unfold Obligations.FirmwareLoads
  refine ⟨fun s seq d img hd hfault hopen haligned hfits himg hlen => ?load, fun s img hup hrec hmin hmax himg hlen => ?recovery, fun s hpow hrun => ?watchdog⟩
  case load =>
    subst himg
    have hreadable : LoadReadable s d := ⟨hfault, hopen, haligned, hfits, hlen⟩
    cases hv : verifyImage s.nmc.minSvn (loadedImage s d) (dfield d 24 4) with
    | error e =>
      refine ⟨_, exec_loadFirmware hd (loadFirmware_fails hreadable hv) (completeDetail_pend ..), ?_⟩
      rw [loadedImage] at hv
      rw [hv]
      exact ⟨completeDetail_completed .., completeDetail_only ..⟩
    | ok i =>
      have hload := loadFirmware_verified hreadable hv
      rw [loadedImage] at hv
      by_cases hspent : bit (dfield d 28 1) 0 = true ∧ s.nmc.raisesLeft = 0
      · rw [if_pos hspent] at hload
        refine ⟨_, exec_loadFirmware hd hload (completeDetail_pend ..), ?_⟩
        rw [hv]
        dsimp only
        rw [if_pos hspent]
        exact ⟨completeDetail_completed .., completeDetail_only ..⟩
      · obtain ⟨nmc, hx, hstore, hsvn, hversion, hdigest⟩ := storedImage_frame s d (loadedImage s d) (bit (dfield d 28 1) 0) i.svn
        rw [if_neg hspent, hx] at hload
        have hpending : (complete { commit s d with nmc := nmc } d stDone).pending = s.pending := by
          rw [complete_pend, commit_qe_frame]
        have hnmc : (complete { commit s d with nmc := nmc } d stDone).nmc = nmc := completeWith_nmc ..
        have hmem : (complete { commit s d with nmc := nmc } d stDone).hostMem = s.hostMem := by
          rw [complete, completeWith_hostMem, commit_qe_frame]
        have hdone : Completed s d stDone 0 (complete { commit s d with nmc := nmc } d stDone) := completed_of d stDone (commit_descs s d) (commit_recs s d)
        refine ⟨_, exec_loadFirmware hd hload hpending, ?_⟩
        rw [hv]
        dsimp only
        rw [if_neg hspent, hnmc]
        exact ⟨hdone, hstore, hsvn, hversion, hdigest, hmem⟩
  case recovery =>
    subst himg
    refine ⟨_, exec_recoveryLoad hup hrec, ?_⟩
    cases hv : verifyImage s.nmc.minSvn (recoveryImage s) s.nmc.recovLen with
    | error e =>
      rw [recoveryLoad_fails hmin hmax hlen hv]
      rw [recoveryImage] at hv
      rw [hv]
      have hfail : (s.nmc.recovFail || e != 0) = true := by simp [verifyImage_error_ne_zero hv]
      exact ⟨⟨rfl, hfail, rfl⟩, hrec, rfl⟩
    | ok i =>
      obtain ⟨v, hwrite⟩ := writeStore_stores s (recoveryImage s)
      rw [recoveryLoad_stores hmin hmax hlen hv, hwrite]
      rw [recoveryImage] at hv
      rw [hv]
      exact ⟨⟨rfl, Bool.or_true _, rfl⟩, hrec, rfl⟩
  case watchdog =>
    have hasked : (s.pw.powered && s.nmc.fwDigest.isSome) = true := by rw [hpow, Option.isSome_iff_ne_none.mpr hrun]; rfl
    exact (congrArg (onUnit s true) (if_pos hasked)).trans (onUnit_keep rfl rfl)

end Sys2Proof.Machine
end

section
/-! SUPPORT. PCIe errors (13 R406, R409 to R411), and the statement about them. -/

namespace Sys2Proof.Machine

open Sys2Proof

/-- A PCIe error in its counter and in its unit's (R406). -/
def pcieCounted (s : State) (uncorrectable : Bool) : State := countUnit (cntEr s (if uncorrectable then 11 else 10) 1) qeUnit (!uncorrectable) 0

/-- The event of a PCIe error (R410). -/
def pcieRaised (s : State) (uncorrectable : Bool) (aer : BitVec 32) : State :=
  raise (pcieCounted s uncorrectable) 0x0070 2 0x7F qeUnit aer.toNat (b2n uncorrectable) 0

theorem exec_pcieErr {s : State} (uncorrectable : Bool) (aer : BitVec 32) (hup : s.pw.hostUp = true) :
    exec (.pcieErr uncorrectable aer) s = .next (pcieRaised s uncorrectable aer) := by
  have heff : exec (.pcieErr uncorrectable aer) s = onUnit s true (pcieRaised s uncorrectable aer) :=
    congrArg (onUnit s true) (if_neg (by rw [hup]; decide))
  rw [heff]
  exact onUnit_keep rfl (raise_pending ..)

/-- An error counts once at its unit, as corrected or as uncorrected (R406). -/
theorem unit_countUnit (s : State) (unit loc : Nat) (corrected : Bool) :
    tget {} (countUnit s unit corrected loc).er.units unit =
      { corrected := if corrected then satAdd 32 (tget {} s.er.units unit).corrected 1 else (tget {} s.er.units unit).corrected
        uncorrected := if corrected then (tget {} s.er.units unit).uncorrected else satAdd 32 (tget {} s.er.units unit).uncorrected 1
        location := loc % 2 ^ 40, time := s.tempo } := tget_tset_same ..

theorem eventWork_pcieRaised (s : State) (uncorrectable : Bool) (aer : BitVec 32) : EventWork s (pcieRaised s uncorrectable aer) :=
  eventWork_trans (show EventWork s (pcieCounted s uncorrectable) from rfl) (eventWork_raise ..)

/-- Settles O10: the error is counted first, and its event is raised with room in the ring or without. -/
theorem pcieErrorLogged : Obligations.PcieErrorLogged := by
  unfold Obligations.PcieErrorLogged
  intro s uncorrectable aer hup
  have hunit := unit_countUnit (cntEr s (if uncorrectable then 11 else 10) 1) qeUnit 0 (!uncorrectable)
  have hunits : (pcieRaised s uncorrectable aer).er.units = (pcieCounted s uncorrectable).er.units := raise_units ..
  refine ⟨_, exec_pcieErr uncorrectable aer hup, ?counter, ?corrected, ?uncorrected, raise_nextSeq .., fun hroom => ?room, fun hfull => ?full, eventWork_pcieRaised ..⟩
  case counter =>
    rw [pcieRaised, raise_cnt_other _ _ _ _ _ _ _ _ _ (by cases uncorrectable <;> decide)]
    exact tget_tset_same ..
  case corrected =>
    rw [hunits, pcieCounted, hunit]
    cases uncorrectable <;> rfl
  case uncorrected =>
    rw [hunits, pcieCounted, hunit]
    cases uncorrectable <;> rfl
  case room =>
    rw [pcieRaised, raise_er_room (pcieCounted s uncorrectable) _ _ _ _ _ _ _ hroom]
    exact ⟨tget_tset_same .., rfl, rfl⟩
  case full =>
    rw [pcieRaised, raise_er_full (pcieCounted s uncorrectable) _ _ _ _ _ _ _ hfull]
    exact ⟨rfl, rfl, rfl, rfl⟩

end Sys2Proof.Machine
end

section
/-! SUPPORT. SET_CAL (13 R426, R428), and the statement about it. -/

namespace Sys2Proof.Machine

open Sys2Proof

theorem clampI_bounds {lo hi v : Int} (h : lo ≤ hi) : lo ≤ clampI lo hi v ∧ clampI lo hi v ≤ hi :=
  ⟨le_min (le_max_right ..) h, min_le_right ..⟩

theorem clampI_inside {lo hi v : Int} (hlo : lo ≤ v) (hhi : v ≤ hi) : clampI lo hi v = v := by
  rw [clampI, max_eq_left hlo, min_eq_left hhi]

/-- The offset that a SET_CAL names (R428). -/
def calOffset (d : Desc) : Int := if bit (dfield d 22 1) 0 then 0 else ofBits 16 (dfield d 20 2)

/-- The key of the item that a SET_CAL names. -/
def calTarget (d : Desc) : Nat := calKey (dfield d 16 1) (dfield d 17 1) (dfield d 18 2)

/-- Committed, with its offset stored as pending. -/
def calStored (s : State) (d : Desc) : State :=
  { commit s d with cal := { s.cal with items := tset s.cal.items (calTarget d) { offset := calOffset d, pending := true } } }

/-- A SET_CAL that no earlier one holds back is carried out. -/
theorem exec_setCal {s t : State} {seq : Nat} {d : Desc} (hd : dueDesc s .admin seq 0x85 = some d) (hfirst : ∀ x ∈ s.qe.descs, x.n < d.n → descOp x ≠ 0x85)
    (ht : setCal s d = t) (hp : t.pending = s.pending) : exec (.setCal seq) s = .next t := by
  have hany : ¬(s.qe.descs.any (fun x => decide (x.n < d.n) && descOp x == 0x85)) = true := by
    simpa using hfirst
  have hexec : exec (.setCal seq) s = onUnit s true (setCal s d) := by
    change execSetCal seq s = _
    simp only [execSetCal, hd, if_neg hany]
  rw [hexec, ht]
  exact onUnit_keep rfl hp

/-- The item exists, and its offset lies inside its range (R427, R428). -/
def calAccepts (s : State) (d : Desc) : Bool :=
  calItemOk s (dfield d 16 1) (dfield d 17 1) (dfield d 18 2) && (decide (-calOffsetMax (dfield d 16 1) ≤ calOffset d) && decide (calOffset d ≤ calOffsetMax (dfield d 16 1)))

theorem setCal_refused {s : State} {d : Desc} (h : calAccepts s d = false) : setCal s d = completeDetail s d stMalformed 0x12 :=
  if_pos ((Bool.not_and ..).symm.trans (congrArg (!·) h))

/-- One that is accepted is stored, and an event says so where the effective value is clamped. -/
theorem setCal_stores {s : State} {d : Desc} (h : calAccepts s d = true) : ∃ x, setCal s d = complete x d stDone ∧ EventWork (calStored s d) x := by
  refine ⟨_, if_neg (Bool.eq_false_iff.mp ((Bool.not_and ..).symm.trans (congrArg (!·) h))), ?_⟩
  change EventWork (calStored s d) (if calClamped (calStored s d) _ _ _ = true then raise (calStored s d) _ _ _ _ _ _ _ else calStored s d)
  split
  · exact eventWork_raise ..
  · exact rfl

/-- The effective value of an item whose offset has been stored (R426). -/
theorem calEffective_stored {s t : State} {item sub idx : Nat} {off : Int} {p : Bool}
    (h : t.cal = { s.cal with items := tset s.cal.items (calKey item sub idx) { offset := off, pending := p } }) :
    calEffective t item sub idx = clampI (calRange item sub).1 (calRange item sub).2 (calFactory s item sub idx + off) := by
  have hentry : calEntry t (calKey item sub idx) = { offset := off, pending := p } := by
    rw [calEntry, h]
    exact tget_tset_same ..
  have hfactory : calFactory t item sub idx = calFactory s item sub idx := by simp only [calFactory, h]
  rw [calEffective, calSum, hfactory, hentry]

/-- What a SET_CAL that is carried out leaves. -/
structure CalSet (s : State) (d : Desc) (t : State) : Prop where
  done : Completed s d stDone 0 t
  pending : t.pending = s.pending
  cal : t.cal = { s.cal with items := tset s.cal.items (calTarget d) { offset := calOffset d, pending := true } }
  frame : t = { s with qe := t.qe, squares := t.squares, cal := { s.cal with items := t.cal.items }, er := t.er, pw := { s.pw with alertN := t.pw.alertN },
                       out := t.out, bd := { s.bd with streams := t.bd.streams }, fab := { s.fab with sent := t.fab.sent } }

theorem complete_calSet {s x : State} {d : Desc} (h : EventWork (calStored s d) x) : CalSet s d (complete x d stDone) := by
  have hx : x = { s with qe := x.qe, cal := { s.cal with items := tset s.cal.items (calTarget d) { offset := calOffset d, pending := true } },
                         er := x.er, pw := { s.pw with alertN := x.pw.alertN }, out := x.out } := by
    unfold EventWork at h
    rw [calStored, commit_qe_frame] at h
    rw [h]
  have hdescs : x.qe.descs = s.qe.descs := by rw [h]; exact commit_descs s d
  have hrecs : x.qe.recs = s.qe.recs := by rw [h]; exact commit_recs s d
  have hcal : (complete x d stDone).cal = { s.cal with items := tset s.cal.items (calTarget d) { offset := calOffset d, pending := true } } := by
    rw [complete, completeWith_cal, hx]
  obtain ⟨honly, hstreams, -⟩ := complete_only x d stDone
  refine ⟨completed_of d stDone hdescs hrecs, by rw [complete_pend, hx], hcal, ?_⟩
  generalize complete x d stDone = t at honly hstreams
  rw [hstreams] at honly
  rw [honly, hx]

/-- Settles O31: by whether the item exists and its offset lies inside its range. -/
theorem setCalStoresTheOffset : Obligations.SetCalStoresTheOffset := by
  unfold Obligations.SetCalStoresTheOffset
  refine ⟨fun s seq d hd hfirst => ⟨fun hitem hlo hhi => ?stores, fun hbad => ?refused⟩, fun lo hi v h => ⟨(clampI_bounds h).1, (clampI_bounds h).2, clampI_inside⟩⟩
  case stores =>
    have haccepts : calAccepts s d = true := Bool.and_eq_true_iff.mpr ⟨hitem, Bool.and_eq_true_iff.mpr ⟨decide_eq_true hlo, decide_eq_true hhi⟩⟩
    obtain ⟨x, hx, hevent⟩ := setCal_stores haccepts
    obtain ⟨hdone, hpending, hcal, hframe⟩ := complete_calSet hevent
    refine ⟨_, exec_setCal hd hfirst hx hpending, hdone, ?_, calEffective_stored hcal, fun k hk => ?_, hframe⟩
    · rw [calEntry, hcal]
      exact tget_tset_same ..
    · rw [calEntry, hcal]
      exact tget_tset_other _ _ _ hk
  case refused =>
    have haccepts : calAccepts s d = false := by
      rw [calAccepts, Bool.and_eq_false_iff, Bool.and_eq_false_iff, decide_eq_false_iff_not, decide_eq_false_iff_not, not_le, not_le]
      exact hbad
    exact ⟨_, exec_setCal hd hfirst (setCal_refused haccepts) (completeDetail_pend ..), completeDetail_completed .., completeDetail_only ..⟩

end Sys2Proof.Machine
end

section
/-! SUPPORT. The state right after a power-on reset (14 R440, R463; log entries 2, 16, 19, 20), and the statement about it. -/

namespace Sys2Proof.Machine

open Sys2Proof

/-! ### Registers without a state of their own -/

theorem reset_tenantQueue (t q : Nat) : getQ State.reset (.tenant t q) = {} := rfl

/-- CFG of a tenant's queue (11 R374). -/
theorem reset_queueCfg {t q : Nat} (ht : t ≤ 64) (hq : q < 64) : regVal State.reset (0x200000 + 4096 * t + 0x108 + 32 * q) = 6 + 64 * 2 ^ 5 := by
  have hblock : (0x200000 + 4096 * t + 0x108 + 32 * q) / 2 ^ 20 = 2 := by omega
  have hpage : (0x200000 + 4096 * t + 0x108 + 32 * q) % 2 ^ 20 / 4096 = t := by omega
  have hoff : (0x200000 + 4096 * t + 0x108 + 32 * q) % 2 ^ 20 % 4096 = 0x108 + 32 * q := by omega
  have hcfg : (0x108 + 32 * q) % 32 = 8 := by omega
  simp only [regVal, hblock, hpage, hoff, tnVal, if_neg (show ¬0x108 + 32 * q < 0x100 by omega), hcfg, reset_tenantQueue]
  norm_num [fld, b2n]

/-! ### The statement -/

/-- Settles O60: every clause reads a default of the state. -/
theorem stateAfterReset : Obligations.StateAfterReset := by
  unfold Obligations.StateAfterReset
  refine ⟨fun c hc => absurd hc List.not_mem_nil, rfl, fun t e hen => absurd hen Bool.false_ne_true, rfl, rfl, fun a => rfl, rfl, rfl, rfl, rfl, rfl, rfl, rfl, rfl, fun n hn c hc => rfl, fun r => rfl, fun t => rfl, fun q => by cases q <;> exact ⟨rfl, rfl⟩, fun t e => rfl, ?_, fun t q ht hq => reset_queueCfg ht hq,
    rfl, fun n hn => ?_, fun n hn => ?_, fun n hn => ?_, fun n hn => ?_, fun n hn => ?_⟩
  · intro o ho
    simp only [List.mem_cons, List.not_mem_nil, or_false] at ho
    rcases ho with rfl | rfl | rfl | rfl | rfl | rfl | rfl | rfl | rfl | rfl | rfl | rfl
    all_goals rfl
  all_goals interval_cases n <;> rfl

end Sys2Proof.Machine
end

section
/-! SUPPORT. Bindings of vocabularies and grammars (12 R378 to R380, R404; log entry 45), and the statement about them. -/

namespace Sys2Proof.Machine

open Sys2Proof

theorem setBind_pending (s : State) (vocab : Bool) (n : Nat) (b : Binding) : (setBind s vocab n b).pending = s.pending := by
  cases vocab <;> rfl

/-! ### BIND and UNBIND (R378, R380) -/

/-- BIND starts while the selection is UNBOUND and a base layer is active, and else is BUSY. -/
theorem startBind_eq (s : State) (vocab : Bool) : startBind s vocab = setBind s vocab (bindSel s vocab)
    (if (getBind s vocab (bindSel s vocab)).st = 0 ∧ s.bd.layer ≠ none then { getBind s vocab (bindSel s vocab) with st := 1 }
     else { getBind s vocab (bindSel s vocab) with fail := true, err := 1 }) := by
  unfold startBind
  generalize hb : getBind s vocab (bindSel s vocab) = b
  by_cases hst : b.st = 0
  · cases hlayer : s.bd.layer with
    | none => simp [failBind, hb, hst]
    | some l => simp [hb, hst]
  · simp [hb, hst]

theorem drainBind_bound {s : State} {vocab : Bool} {n : Nat} (h : (getBind s vocab n).st = 2) :
    drainBind s vocab n = setBind s vocab n { getBind s vocab n with st := 3, drain := s.qe.accepted } := if_pos h

/-- A write of a command register by the physical function while every block answers. -/
theorem onUnit_pfWrite {s t : State} {ok : Bool} {off : Nat} {eff : State → State} (hok : ok = true) (h : barFull s = true) (ht : eff s = t) (hp : t.pending = s.pending) :
    onUnit s ok (pfWrite s 0 off eff) = .next t := by
  rw [pfWrite_full off eff h, ht]
  exact onUnit_keep hok hp

/-! ### The end of a BIND (R378) -/

/-- What the object of a BIND must be: of T1, and a vocabulary or a tablebase. -/
def bindable (vocab : Bool) (o : Obj) : Prop := o.tier = 1 ∧ o.type = if vocab then 6 else 7

/-- The error of the contents of a vocabulary or a tablebase. -/
def bindErr (s : State) (vocab : Bool) (o : Obj) : Option Nat :=
  if vocab then vocErr o.data o.size
  else match tblErr o.data o.size with
    | some x => some x
    | none => if 1048576 < statesUsed s + (tblOf o.data).states then some 4 else none

section finish
variable {s : State} {vocab : Bool} {n : Nat} (hst : (getBind s vocab n).st = 1)
include hst

theorem failBind_binding (err : Nat) : failBind s vocab n err = setBind s vocab n { getBind s vocab n with st := 0, fail := true, err := err } := by
  simp only [failBind, hst, if_true]

theorem finishBind_noObject (h : ∀ o, findObj s (getBind s vocab n).tenant (getBind s vocab n).object = some o → ¬bindable vocab o) :
    finishBind s vocab n = setBind s vocab n { getBind s vocab n with st := 0, fail := true, err := 2 } := by
  have hbinding : ¬(getBind s vocab n).st ≠ 1 := not_not.mpr hst
  rw [← failBind_binding hst]
  simp only [finishBind, if_neg hbinding]
  cases ho : findObj s (getBind s vocab n).tenant (getBind s vocab n).object with
  | none => rfl
  | some o => exact if_pos (not_and_or.mp (h o ho))

/-- The checks of the contents decide how a BIND of a readable object ends. -/
theorem finishBind_object {o : Obj} (ho : findObj s (getBind s vocab n).tenant (getBind s vocab n).object = some o) (hkind : bindable vocab o)
    (hread : stackBad s o 0 o.size = none) : finishBind s vocab n = setBind s vocab n (match bindErr s vocab o with
      | some e => { getBind s vocab n with st := 0, fail := true, err := e }
      | none => { getBind s vocab n with st := 2, done := true, err := 0, size := if vocab then (vocOf o.data).n else (tblOf o.data).states, vocabId := memLE o.data 40 8 }) := by
  have hbinding : ¬(getBind s vocab n).st ≠ 1 := not_not.mpr hst
  have hobject : ¬(o.tier ≠ 1 ∨ o.type ≠ if vocab then 6 else 7) := not_or.mpr ⟨not_not.mpr hkind.1, not_not.mpr hkind.2⟩
  have hfinish : finishBind s vocab n = match bindErr s vocab o with
      | some e => failBind s vocab n e
      | none => setBind s vocab n { getBind s vocab n with st := 2, done := true, err := 0, size := if vocab then (vocOf o.data).n else (tblOf o.data).states, vocabId := memLE o.data 40 8 } := by
    simp only [finishBind, if_neg hbinding, ho, if_neg hobject, hread]
    rfl
  rw [hfinish]
  cases bindErr s vocab o with
  | none => rfl
  | some e => exact failBind_binding hst e

end finish

/-! ### The end of an UNBIND (R380) -/

theorem finishUnbind_draining {s : State} {vocab : Bool} {n : Nat} (hst : (getBind s vocab n).st = 3) : finishUnbind s vocab n =
    if s.qe.descs.any (fun d => decide (d.n < (getBind s vocab n).drain) && namesBind d vocab n) then s
    else setBind s vocab n { getBind s vocab n with st := 0, done := true, size := 0, vocabId := 0 } := by
  unfold finishUnbind
  dsimp only
  split
  · next h => rw [if_neg h.2]
  · next h =>
    rw [if_pos]
    by_contra hany
    exact h ⟨hst, hany⟩

/-! ### The statement -/

/-- Settles O41: BIND and UNBIND by the state of the selection, the end of a BIND by the first check that fails. -/
theorem tokenBindings : Obligations.TokenBindings := by
  unfold Obligations.TokenBindings
  refine ⟨fun s hbar => ⟨?vocabBind, ?gramBind, fun hst => ?vocabUnbind, fun hst => ?gramUnbind⟩,
    fun s vocab n hn hst => ⟨fun hobj => ?noObject, fun o ho htier htype hread => ?object⟩, fun s vocab n hn hst => ?unbound⟩
  case vocabBind => exact onUnit_pfWrite rfl hbar (startBind_eq s true) (setBind_pending ..)
  case gramBind => exact onUnit_pfWrite rfl hbar (startBind_eq s false) (setBind_pending ..)
  case vocabUnbind => exact onUnit_pfWrite rfl hbar (drainBind_bound hst) (setBind_pending ..)
  case gramUnbind => exact onUnit_pfWrite rfl hbar (drainBind_bound hst) (setBind_pending ..)
  case noObject =>
    have hend := finishBind_noObject hst (fun o ho hkind => (hobj o ho).elim (fun h => h hkind.1) (fun h => h hkind.2))
    exact (congrArg (onUnit s _) hend).trans (onUnit_keep (decide_eq_true hn) (setBind_pending ..))
  case object =>
    have hend := finishBind_object hst ho ⟨htier, htype⟩ hread
    refine (congrArg (onUnit s _) hend).trans ((onUnit_keep (decide_eq_true hn) (setBind_pending ..)).trans ?_)
    cases vocab with
    | true => rfl
    | false =>
      simp only [bindErr, Bool.false_eq_true, if_false, true_and]
      cases tblErr o.data o.size with
      | some e => rfl
      | none =>
        by_cases hfull : 1048576 < statesUsed s + (tblOf o.data).states
        · simp only [if_pos hfull]
        · simp only [if_neg hfull]
  case unbound =>
    refine (congrArg (onUnit s _) (finishUnbind_draining hst)).trans (onUnit_keep (decide_eq_true hn) ?_)
    split
    · rfl
    · exact setBind_pending ..

end Sys2Proof.Machine
end

section
/-! SUPPORT. The requests of the token service (12 R402) and MASK_LOOKUP (12 R379, R400, R401), and the statement about it. -/

namespace Sys2Proof.Machine

open Sys2Proof

/-! ### The requests that the engine holds (R402) -/

/-- Taking requests changes what the queue engine notes of them. -/
theorem fillTokens_frame (k : Nat) (s : State) (t : Nat) :
    ∃ ds served, fillTokens k s t = { s with qe := { s.qe with descs := ds, lastServed := served } } := by
  induction k generalizing s with
  | zero => exact ⟨_, _, rfl⟩
  | succ k ih =>
    simp only [fillTokens]
    split
    · exact ⟨_, _, rfl⟩
    · split
      · exact ⟨_, _, rfl⟩
      · split
        · obtain ⟨ds, served, h⟩ := ih _
          exact ⟨ds, served, h⟩
        · obtain ⟨ds, served, h⟩ := ih _
          exact ⟨ds, served, h⟩

/-- So does a request that the engine holds. -/
theorem tokenDesc_held {s s1 : State} {q : QId} {seq op : Nat} {d : Desc} (h : tokenDesc s q seq op = some (s1, d)) :
    ∃ ds served, s1 = { s with qe := { s.qe with descs := ds, lastServed := served } } := by
  obtain ⟨x, -, hx⟩ := Option.bind_eq_some_iff.mp h
  split at hx
  · cases hx
    exact fillTokens_frame ..
  · cases hx

/-- A request of the token service that is refused has changed the queue engine alone. -/
theorem onUnit_tokenRefused {s s1 t : State} {ok : Bool} {q : QId} {seq op st : Nat} {d : Desc} (hok : ok = true) (h : tokenDesc s q seq op = some (s1, d))
    (ht : t = complete s1 d st) : ∃ u, onUnit s ok t = .next u ∧ Completed s1 d st 0 u ∧ OnlyQueues s u := by
  obtain ⟨ds, served, hheld⟩ := tokenDesc_held h
  have honly : OnlyQueues s s1 := ⟨by rw [hheld], (StreamsKept.self s).of_bd (by rw [hheld])⟩
  obtain ⟨u, hu, hdone, hqueues⟩ := onUnit_completed hok ht (s := s) (by rw [hheld])
  exact ⟨u, hu, hdone, honly.trans hqueues⟩

/-! ### Results at a result address (R397) -/

/-- A request that commits, counts what it did, writes its result and completes. -/
theorem complete_written {s s1 x : State} {d : Desc} {a : Nat} {bs : List Byte} (hdescs : x.qe.descs = s1.qe.descs) (hrecs : x.qe.recs = s1.qe.recs)
    (hmem : x.hostMem = s.hostMem) (hopen : hostOpen x d.tenant = true) :
    Completed s1 d stDone 0 (complete (hostWrite x d.tenant a bs) d stDone) ∧ hostRead (complete (hostWrite x d.tenant a bs) d stDone) a bs.length = bs
      ∧ HostOutside s (complete (hostWrite x d.tenant a bs) d stDone) a bs.length := by
  refine ⟨completed_of d stDone (by rw [hostWrite_qe, hdescs]) (by rw [hostWrite_qe, hrecs]), ?_, fun b hb => ?_⟩
  · rw [hostRead_complete]
    exact hostRead_hostWrite x d.tenant a bs hopen
  · rw [complete, completeWith_hostMem, hostWrite_outside x d.tenant a b bs hb, hmem]

/-! ### The mask of a state (R400, R401) -/

/-- Powers of two that are added for the numbers of which `p` holds. -/
theorem sum_powers (p : Nat → Bool) (n : Nat) :
    ((List.range n).map (fun j => if p j then 2 ^ j else 0)).sum < 2 ^ n ∧ ∀ k, k < n → ((List.range n).map (fun j => if p j then 2 ^ j else 0)).sum.testBit k = p k := by
  induction n with
  | zero => exact ⟨Nat.one_pos, fun k hk => absurd hk (Nat.not_lt_zero k)⟩
  | succ n ih =>
    obtain ⟨hlt, hbits⟩ := ih
    rw [List.range_succ, List.map_append, List.sum_append, List.map_singleton, List.sum_singleton]
    generalize ((List.range n).map (fun j => if p j then 2 ^ j else 0)).sum = v at hlt hbits
    cases hp : p n with
    | false =>
      simp only [Bool.false_eq_true, if_false, Nat.add_zero]
      refine ⟨by omega, fun k hk => ?_⟩
      rcases Nat.lt_succ_iff_lt_or_eq.mp hk with hk | rfl
      · exact hbits k hk
      · rw [hp, Nat.testBit_lt_two_pow hlt]
    | true =>
      simp only [if_true]
      rw [Nat.add_comm]
      refine ⟨by omega, fun k hk => ?_⟩
      rcases Nat.lt_succ_iff_lt_or_eq.mp hk with hk | rfl
      · rw [Nat.testBit_two_pow_add_gt hk, hbits k hk]
      · rw [hp, Nat.testBit_two_pow_add_eq, Nat.testBit_lt_two_pow hlt]
        rfl

theorem maskBytes_length (n : Nat) (rs : List (Nat × Nat × Nat)) : (maskBytes n rs).length = 8 * ceilDiv n 64 := by
  rw [maskBytes, List.length_map, List.length_range]

/-- Bit t of the mask stands for token t. -/
theorem maskBytes_bit {n t : Nat} (rs : List (Nat × Nat × Nat)) (ht : t < n) :
    bit ((maskBytes n rs).getD (t / 8) 0).toNat (t % 8) = rs.any (fun r => decide (r.1 ≤ t) && decide (t < r.1 + r.2.1)) := by
  have hbyte : t / 8 < 8 * ceilDiv n 64 := by unfold ceilDiv; omega
  obtain ⟨hlt, hbits⟩ := sum_powers (fun j => rs.any (fun r => decide (r.1 ≤ 8 * (t / 8) + j) && decide (8 * (t / 8) + j < r.1 + r.2.1))) 8
  have hbit := hbits (t % 8) (by omega)
  rw [Nat.div_add_mod] at hbit
  rw [bit_eq_testBit, ← hbit, List.getD_eq_getElem?_getD, maskBytes, List.getElem?_map, List.getElem?_range hbyte]
  exact congrArg (fun v => Nat.testBit v (t % 8)) (Nat.mod_eq_of_lt hlt)

theorem runs_length (t : Tbl) (i : Nat) : (t.runs i).length = (t.state i).2.1 := by
  rw [Tbl.runs, List.length_map, List.length_range]

/-! ### MASK_LOOKUP (R379, R400) -/

/-- The 32 bytes in front of a result. -/
def lookupHeader (t : Tbl) (st : Nat) : List Byte :=
  toLE 4 st ++ (toLE 4 (t.runs st).length ++ (toLE 4 t.n ++ (toLE 4 (((t.runs st).map (fun r => r.2.1)).sum) ++ (toLE 1 (b2n (t.state st).2.2) ++ (zeros 7 ++ toLE 8 t.vocabId)))))

/-- The mask and the runs that FORM asks for. -/
def lookupBody (o : Obj) (st form : Nat) : List Byte :=
  (if bit form 0 then maskBytes (tblOf o.data).n ((tblOf o.data).runs st) else [])
    ++ (if bit form 1 then memRead o.data ((tblOf o.data).runOff + 8 * ((tblOf o.data).state st).1) (8 * ((tblOf o.data).state st).2.1) else [])

theorem lookupBody_length (o : Obj) (st form : Nat) : (lookupBody o st form).length
    = (if bit form 0 then 8 * ceilDiv (tblOf o.data).n 64 else 0) + (if bit form 1 then 8 * ((tblOf o.data).runs st).length else 0) := by
  rw [lookupBody, List.length_append, runs_length]
  congr 1
  · split
    · exact maskBytes_length ..
    · rfl
  · split
    · exact memRead_length ..
    · rfl

section mask
variable {s : State} {d : Desc} (hfields : ¬(dfield d 16 8 % 64 ≠ 0 ∨ 64 ≤ dfield d 28 1 ∨ dfield d 29 1 % 4 = 0))
include hfields

theorem runMask_unserved (h : servedBy s d false (dfield d 28 1) = none) : runMask s d = complete s d stNoRes := by
  simp only [runMask, if_neg hfields, h]

section served
variable {o : Obj} (hserved : servedBy s d false (dfield d 28 1) = some o)
include hserved

theorem runMask_noState (h : (tblOf o.data).states ≤ dfield d 24 4) : runMask s d = complete s d stMalformed := by
  simp only [runMask, if_neg hfields, hserved, if_pos h]

theorem runMask_writes (hstate : dfield d 24 4 < (tblOf o.data).states) (hentry : stackBad s o ((tblOf o.data).stateOff + 8 * dfield d 24 4) 8 = none)
    (hruns : stackBad s o ((tblOf o.data).runOff + 8 * ((tblOf o.data).state (dfield d 24 4)).1) (8 * ((tblOf o.data).state (dfield d 24 4)).2.1) = none)
    (hroom : 32 + (lookupBody o (dfield d 24 4) (dfield d 29 1)).length ≤ dfield d 32 4) :
    runMask s d = complete (hostWrite (cntTs (commit s d) 2 1) d.tenant (dfield d 16 8)
      (lookupHeader (tblOf o.data) (dfield d 24 4) ++ lookupBody o (dfield d 24 4) (dfield d 29 1))) d stDone := by
  rw [lookupBody_length, ← Nat.add_assoc] at hroom
  simp only [runMask, if_neg hfields, hserved, if_neg (not_le.mpr hstate), hentry, if_neg (not_lt.mpr hroom), hruns]
  rfl

end served
end mask

theorem exec_maskLookup {s s1 : State} {q : QId} {seq : Nat} {d : Desc} (h : tokenDesc s q seq 0x2A = some (s1, d)) :
    exec (.maskLookup q seq) s = onUnit s (wellFormed (.maskLookup q seq)) (runMask s1 d) := by
  change execMaskLookup q seq s = _
  simp only [execMaskLookup, h]

/-- Settles O43: by the grammar that serves the request, and the state that it names. -/
theorem maskLookupReadsTheTablebase : Obligations.MaskLookupReadsTheTablebase := by
  unfold Obligations.MaskLookupReadsTheTablebase
  refine ⟨fun s s1 q seq d o body hwf hheld halign hgrammar hform hserved hstate hentry hruns hbody hroom hopen => ?writes,
    fun s s1 q seq d hwf hheld halign hgrammar hform => ⟨fun hserved => ?unserved, fun o hserved hstate => ?noState⟩, fun n t rs ht => maskBytes_bit rs ht⟩
  case writes =>
    have hfields : ¬(dfield d 16 8 % 64 ≠ 0 ∨ 64 ≤ dfield d 28 1 ∨ dfield d 29 1 % 4 = 0) := by omega
    subst hbody
    obtain ⟨ds, served, hs1⟩ := tokenDesc_held hheld
    have hmem : (cntTs (commit s1 d) 2 1).hostMem = s.hostMem := by rw [commit_qe_frame, hs1]; rfl
    have hopen' : hostOpen (cntTs (commit s1 d) 2 1) d.tenant = true := by rw [commit_qe_frame, hs1]; exact hopen
    have hrun := runMask_writes hfields hserved hstate (by rw [hs1]; exact hentry) (by rw [hs1]; exact hruns) hroom
    obtain ⟨hdone, hread, hout⟩ := complete_written (s := s) (s1 := s1) (x := cntTs (commit s1 d) 2 1) (a := dfield d 16 8)
      (bs := lookupHeader (tblOf o.data) (dfield d 24 4) ++ lookupBody o (dfield d 24 4) (dfield d 29 1)) (commit_descs s1 d) (commit_recs s1 d) hmem hopen'
    have hlen : (lookupHeader (tblOf o.data) (dfield d 24 4) ++ lookupBody o (dfield d 24 4) (dfield d 29 1)).length = 32 + (lookupBody o (dfield d 24 4) (dfield d 29 1)).length :=
      List.length_append
    rw [← hrun, hlen] at hread hout
    rw [← hrun] at hdone
    rw [exec_maskLookup hheld]
    refine ⟨_, lookupHeader (tblOf o.data) (dfield d 24 4), onUnit_ok hwf, hdone, rfl, ?_, hread, hout⟩
    rw [← runs_length]
    rfl
  case unserved =>
    have hfields : ¬(dfield d 16 8 % 64 ≠ 0 ∨ 64 ≤ dfield d 28 1 ∨ dfield d 29 1 % 4 = 0) := by omega
    rw [exec_maskLookup hheld]
    exact onUnit_tokenRefused hwf hheld (runMask_unserved hfields hserved)
  case noState =>
    have hfields : ¬(dfield d 16 8 % 64 ≠ 0 ∨ 64 ≤ dfield d 28 1 ∨ dfield d 29 1 % 4 = 0) := by omega
    rw [exec_maskLookup hheld]
    exact onUnit_tokenRefused hwf hheld (runMask_noState hfields hserved hstate)

end Sys2Proof.Machine
end

section
/-! SUPPORT. Where the statement about TOKENIZE and DETOKENIZE fails (12 R402). -/

namespace Sys2Proof.Machine

open Sys2Proof

namespace RepeatedRequest

/-- A TOKENIZE that waits for the engine. -/
def request : Desc := { n := 0, q := .tenant 1 0, tenant := 1, seq := 0, bytes := [0x28], phase := .ready }

/-- A list that holds the same request five times: equal numbers stand for equal descriptors. -/
def state : State := { qe := { descs := List.replicate 5 request } }

theorem equal_of_number : ∀ e ∈ state.qe.descs, ∀ y ∈ state.qe.descs, e.n = y.n → e = y := by
  intro e he y hy _
  rw [List.eq_of_mem_replicate he, List.eq_of_mem_replicate hy]

/-- The engine holds none of them, and takes all five at once. -/
theorem takes_five : tokensIn state 1 = 0 ∧ tokensIn (fillTokens 4 state 1) 1 = 5 := by decide

end RepeatedRequest

/-- Refutes O42: its clause that the engine never holds more than four requests of a tenant (R402) supposes that descriptors of one number are equal, which a list that holds one request five times meets; taking the request takes every entry of its number. -/
theorem not_tokenizeAndDetokenize : ¬ Obligations.TokenizeAndDetokenize := by
  unfold Obligations.TokenizeAndDetokenize
  rintro ⟨-, hfour, -⟩
  obtain ⟨hnone, hfive⟩ := RepeatedRequest.takes_five
  have h := hfour RepeatedRequest.state 1 RepeatedRequest.equal_of_number (by omega)
  omega

end Sys2Proof.Machine
end
